-- ==== Sys2Proof/Word.lean ====
section
/-! DEFINITION. The word types of the device and their plainest arithmetic (R7, R12). -/

namespace Sys2Proof

/-- One byte of host memory, of device DRAM or of a frame. -/
abbrev Byte := BitVec 8

/-- A residue word (R12): an unsigned 32-bit integer. -/
abbrev Word := BitVec 32

/-- A 64-bit register or record field. -/
abbrev W64 := BitVec 64

/-- One cell instruction (R164). -/
abbrev InsWord := BitVec 256

/-- Canonical narrowing of a natural number to a residue word. -/
def toWord (n : Nat) : Word := BitVec.ofNat 32 n

end Sys2Proof
end

