-- ==== Sys2Proof/Syntax.lean ====
section
/-! DEFINITION. The commands: one constructor of `Instr` per row of spec/opcode_table.json, with the operands the row's rule gives it. -/

namespace Sys2Proof

/-- One 4 KiB page of host memory that the IOMMU maps for a function: what the page holds, from its first byte on (a byte past the list reads zero). Pages not listed are refused (R81, R418). -/
structure HostPage where
  fn    : Nat
  page  : Nat
  bytes : List Byte
deriving DecidableEq, Repr

/-- What the host memory holds and maps at one step. It is no state of the device, so the command that reads or writes host memory brings it along (log 4). -/
abbrev HostView := List HostPage

/-- What the governor measured for one comb over the last interval (R66): the average occupancy in percent of each delivery buffer still active, and the stage rate in M stages/s. -/
structure CombMeasure where
  occupancy : List Nat
  stageRate : Nat
deriving DecidableEq, Repr

/-- The junction temperatures of one sample, in whole degrees Celsius (R71). -/
structure Junctions where
  c0   : Nat
  c1   : Nat
  c2   : Nat
  c3   : Nat
  hive : Nat
  e0   : Nat
  e1   : Nat
deriving DecidableEq, Repr

/-- Where an uncorrectable DRAM error strikes (R349): a 64-byte block of a tenant-visible or free page by its DPA; a page-table entry that maps a DVA page of a tenant, in one copy or in both; the hive-reserved state of a parked EVAL; or the sealed memory of a gateway or public-key slot. -/
inductive DramHit where
  | block (dpa : Nat)
  | pageTable (ten dvaPage : Nat) (bothCopies : Bool)
  | parked (ten lring seq : Nat)
  | gatewaySlot (ten slot : Nat)
  | keySlot (ten slot : Nat)
deriving DecidableEq, Repr

/-- Which scrub of cells has completed (R148, R330): that of a segment's group, or that of cells moved into a tenant's reservation on a comb. -/
inductive ScrubTarget where
  | group (seg : Nat)
  | reservation (comb ten : Nat)
deriving DecidableEq, Repr

/-- Four times of one exchange of time frames (R320) and what the peer's frame advertises. -/
structure TimeFrame where
  t1 : Nat
  t2 : Nat
  t3 : Nat
  t4 : Nat
  rootId : Nat
  hops : Nat
  peerState : Nat
  established : Bool
deriving DecidableEq, Repr

/-- What triggers a warm reset through PCIe (R371). -/
inductive PcieReset where
  | perst
  | hotReset
  | pfFlr
deriving DecidableEq, Repr

/-- The commands. Every one begins with `t`, the waggle time at which its step takes place (log 1). `ten lring seq` name a fetched command by its tenant, its local ring and its index since the ring was enabled, of which the entry's SEQ is the value mod 2^32 (R89). `seg` is the id of a segment's run; `flight` that of an instruction under way in a cell; `msg` that of a fabric message. `dest` of FORAGER_TILE_DELIVER and `head` of RELAY_HOP are lanes (R226): the group index of the cell that receives, or 256 more than it where the cell receives the a-halves that A_OFFSET sends it; `hop` counts the cells of a relay chain from 1. `testFail` lists, as bundle, direction and mask, the lanes that failed a test; a direction not listed had none. -/
inductive Instr where
  | registerWrite (t fn off width value : Nat) (h : HostView)
  | i3cRead (t off len : Nat)
  | i3cWrite (t off value : Nat)
  | ringEnable (t fn value : Nat)
  | ringDisable (t fn value : Nat)
  | ringDrained (t ten lring : Nat)
  | kick (t fn off width : Nat) (h : HostView)
  | ringPoll (t cls : Nat) (h : HostView)
  | cmdSessionOpen (t ten lring seq : Nat)
  | cmdSessionClose (t ten lring seq : Nat)
  | cmdKeysetLoad (t ten lring seq : Nat) (h : HostView)
  | cmdModelLoad (t ten lring seq : Nat) (h : HostView)
  | cmdModelRetire (t ten lring seq : Nat)
  | cmdEval (t ten lring seq : Nat)
  | cmdRoundtripResume (t ten lring seq : Nat) (h : HostView)
  | cmdEncodeEncrypt (t ten lring seq : Nat) (h : HostView)
  | encodeAndEncrypt (t ten lring seq : Nat) (cells : List Nat) (h : HostView)
  | encryptPlaintext (t ten lring seq : Nat) (cells : List Nat) (h : HostView)
  | generateSecretKey (t ten lring seq : Nat) (cells : List Nat) (h : HostView)
  | generateKeySet (t ten lring seq : Nat) (cells : List Nat) (h : HostView)
  | cmdDecryptDecode (t ten lring seq : Nat) (h : HostView)
  | decryptAndDecode (t ten lring seq : Nat) (cells : List Nat) (h : HostView)
  | decryptToPlaintext (t ten lring seq : Nat) (cells : List Nat) (h : HostView)
  | eraseSlot (t ten lring seq : Nat)
  | cmdPke (t ten lring seq : Nat) (h : HostView)
  | sign (t ten lring seq : Nat) (h : HostView)
  | verify (t ten lring seq : Nat) (h : HostView)
  | keygen (t ten lring seq : Nat) (h : HostView)
  | derive (t ten lring seq : Nat) (h : HostView)
  | importKey (t ten lring seq : Nat) (h : HostView)
  | erase (t ten lring seq : Nat)
  | publicKey (t ten lring seq : Nat) (h : HostView)
  | quote (t ten lring seq : Nat) (h : HostView)
  | ephRelease (t ten lring seq : Nat)
  | getCert (t ten lring seq : Nat) (h : HostView)
  | cmdMeterRead (t ten lring seq : Nat)
  | meterSnapshot (t ten lring seq : Nat) (h : HostView)
  | meterTake (t ten lring seq : Nat) (h : HostView)
  | cmdCopy (t ten lring seq : Nat) (h : HostView)
  | cmdFence (t ten lring seq : Nat)
  | heldCommandRelease (t : Nat)
  | entropyHoldExpire (t ten lring seq : Nat)
  | finalCompletionWrite (t ten lring : Nat) (h : HostView)
  | msixModTimer (t ten lring : Nat)
  | dispatch (t comb seg : Nat) (cells : List Nat)
  | dispatchStarvation (t comb cls : Nat)
  | segmentYield (t seg : Nat)
  | cellScrubComplete (t : Nat) (target : ScrubTarget)
  | segmentStart (t seg : Nat)
  | segmentEnd (t seg : Nat)
  | rtOutboundWrite (t ten lring seq : Nat) (h : HostView)
  | rtAttemptExpire (t ten lring seq : Nat)
  | rtInterimDeadline (t ten lring seq : Nat)
  | wait (t cell : Nat)
  | post (t cell : Nat)
  | jump (t cell : Nat)
  | loop (t cell : Nat)
  | handoff (t cell : Nat)
  | halt (t cell : Nat)
  | setmod (t cell : Nat)
  | setadv (t cell : Nat)
  | timerLoad (t cell : Nat)
  | timerStop (t cell : Nat)
  | latchArm (t cell : Nat)
  | latchDisarm (t cell : Nat)
  | moveDirect (t cell : Nat)
  | moveStencil (t cell : Nat) (h : HostView)
  | moveBankLoad (t cell : Nat)
  | winOpen (t cell : Nat)
  | winClose (t cell : Nat)
  | mact (t cell : Nat)
  | macv (t cell : Nat)
  | nttf (t cell : Nat)
  | ntti (t cell : Nat)
  | tadd (t cell : Nat)
  | tsub (t cell : Nat)
  | tmul (t cell : Nat)
  | tmulc (t cell : Nat)
  | tperm (t cell : Nat)
  | tdec (t cell : Nat)
  | tresc (t cell : Nat)
  | tred (t cell : Nat)
  | skim (t cell : Nat)
  | noise (t cell : Nat)
  | instructionComplete (t cell flight : Nat) (h : HostView)
  | remoteWriteArrive (t cell flight : Nat)
  | tokenMoveArrive (t cell flight : Nat)
  | remoteRead (t cell flight : Nat)
  | timerExpire (t cell timer : Nat)
  | waggleStepEdge (t series : Nat)
  | segmentWatchdog (t seg : Nat)
  | foragerTileDeliver (t seg stream dest : Nat) (h : HostView)
  | multicastGranuleFetch (t seg stream : Nat) (h : HostView)
  | relayHop (t seg stream head hop : Nat) (h : HostView)
  | paceInterval (t : Nat) (meas : List CombMeasure) (inputW : Nat)
  | c0HoldExpire (t comb : Nat)
  | thermalSample (t : Nat) (tj : Junctions)
  | thermalEmergencyEnd (t : Nat)
  | combThermalRecover (t comb : Nat)
  | thermalTrip (t die : Nat)
  | combRestEntry (t comb : Nat)
  | combFault (t comb source cell : Nat)
  | heartbeatTimeout (t comb : Nat)
  | combDrainComplete (t comb : Nat)
  | combResetComplete (t comb : Nat) (testFail : List (Nat × Nat × Nat))
  | dramCorrected (t dpa : Nat)
  | dramUncorrectable (t : Nat) (hit : DramHit)
  | shelfUncorrectable (t comb shelf : Nat)
  | patrolScrub (t : Nat) (bad : List Nat)
  | flitReplay (t bundle dir : Nat)
  | laneRetrain (t bundle dir : Nat)
  | retrainTestDone (t bundle dir failMask : Nat)
  | entropySample (t : Nat) (sample : Byte)
  | drbgSeeded (t : Nat)
  | drbgReseed (t : Nat)
  | noiseReseed (t comb : Nat)
  | ephKeyExpire (t ten ephId : Nat)
  | meterMsTick (t : Nat)
  | epochClose (t : Nat)
  | meterRecordSign (t : Nat)
  | wallClockWrite (t fn off width value : Nat)
  | tnWrite (t fn off width value : Nat)
  | swarmConfigLoad (t : Nat) (h : HostView)
  | linkLightDetect (t port : Nat)
  | laneLock (t port : Nat)
  | trainingTimeout (t port : Nat)
  | attestationReceive (t port : Nat) (descriptor certs sigs : List Byte)
  | attestTimeout (t port : Nat)
  | keyConfirmReceive (t port : Nat) (frame : List Byte)
  | keyConfirmTimeout (t port : Nat)
  | lightLoss (t port : Nat)
  | quarantineReattest (t port : Nat)
  | linkFrameSend (t port : Nat)
  | linkFrameReceive (t port : Nat) (frame : List Byte)
  | tagFailureLimit (t port : Nat)
  | rekeyTrigger (t port : Nat)
  | rekeyRetry (t port : Nat)
  | keyExhausted (t port : Nat)
  | timeExchange (t port : Nat) (f : TimeFrame)
  | rootSelfElect (t : Nat)
  | syncLost (t : Nat)
  | fabricMessageLand (t msg : Nat)
  | fabricAckReceive (t ten lring seq edge : Nat)
  | fabricRecvStart (t ten lring seq : Nat)
  | fabricDeadline (t ten lring seq : Nat)
  | routeFailureNotice (t ten lring seq edge port device : Nat) (mismatch : Bool)
  | coldStart (t : Nat)
  | startLaneTestDone (t : Nat) (testFail : List (Nat × Nat × Nat))
  | dramTrainingDone (t : Nat) (ok : Bool)
  | startScrubDone (t : Nat)
  | warmReset (t : Nat) (by_ : PcieReset)
  | pwResetWarm (t : Nat) (drain : Bool)
  | drainTimeout (t : Nat)
  | functionLevelReset (t ten : Nat) (pcie drain : Bool)
  | flrScrubDone (t ten : Nat)
  | pwResetPort (t port : Nat)
  | d3hotEntry (t : Nat)
  | deepRestGate (t : Nat)
  | d0Return (t : Nat) (testFail : List (Nat × Nat × Nat))
  | vfPowerState (t ten : Nat) (d3hot : Bool)
  | lowInputSet (t : Nat)
  | lowInputClear (t : Nat)
  | powerFail (t : Nat)
  | holdupMeasure (t millijoule : Nat)
  | fwStart (t value : Nat) (h : HostView)
  | fwActivate (t : Nat)
  | fwCommit (t : Nat)
  | fwRollback (t : Nat)
  | fwAbort (t : Nat)
  | flashCommitDone (t : Nat)
  | updateResume (t : Nat)
  | trainingRetry (t port : Nat)
  | perstDeassert (t : Nat)
  | commandFinish (t ten lring seq : Nat) (h : HostView)
  | imageCheckDone (t : Nat)
  | readBackDone (t : Nat) (same : Bool)
  | freedPageScrubDone (t : Nat)
deriving DecidableEq, Repr

end Sys2Proof
end

