-- ==== Sys2Proof/Decode.lean ====
section
/-! DEFINITION. decodeTableWord over the rows of the opcode table that give bits: there are none, so no word spells a command (log 16). -/

namespace Sys2Proof

/-- The command that a word spells by the table's bits: none, whatever the word. -/
def decodeTableWord (_nbits _w : Nat) : Option Instr := none

end Sys2Proof
end

