-- ==== Sys2Proof/Config.lean ====
section
/-! DEFINITION. What one unit fixes and the manual does not, and the free values: opaque constants with no body, so that no proof can see a value of one (log 2, 3, 8). -/

namespace Sys2Proof

/-- The n-th free value: a number the manual leaves open. The model draws it with the counter `State.free` (log 2). -/
opaque Config.freeValue : Nat → Nat

/-- The n-th free byte string: the payload of a link-local or management frame, whose format the manual does not give (log 2). -/
opaque Config.freeBytes : Nat → List Byte

/-- Words that a stencil MOVE takes from a row of an LWE switching key: the manual gives a stream's words only (R237, log 131). The row's seed, its number, its body word, and which of its two words. -/
opaque Config.maskedRow : List Byte → Nat → Nat → Nat → Nat

/-- The n-th random value: an output of the DRBG (R290, R291) or of a noise sampler (R262, R263), as a number. Drawn with the counter `State.draws` (log 3). -/
opaque Config.random : Nat → Nat

/-- Certificate i of R271 in DER form: 0 P-384 device, 1 ML-DSA-65 device, 2 and 3 their intermediates (log 8). -/
opaque Config.certificate : Nat → List Byte

/-- The ECDSA P-384 signature of the unit's identity key over a message, with the n-th random nonce (R270, R272): 96 bytes are taken of it (log 8). -/
opaque Config.identityEcdsa : List Byte → Nat → List Byte

/-- The ML-DSA-65 signature of the unit's identity key over a message in hedged mode (R270, R272): 3,309 bytes are taken of it (log 8). -/
opaque Config.identityMldsa : List Byte → Nat → List Byte

/-- SHA-384 digest of the boot ROM, measurement slot 0 (R273). -/
opaque Config.romDigest : List Byte

/-- Measurement slot 7: the digest of the settings book as read at start, a function of its contents (R273; the book's encoding is not given, log 8). -/
opaque Config.bookDigest : List Nat → List Byte

/-- Whether a link peer's certificates chain to Jenek's device CAs and both its signatures verify over the descriptor and the nonce (R313 check 1). Arguments: the certificates, the descriptor followed by the nonce, the signatures (log 8). -/
opaque Config.peerAttests : List Byte → List Byte → List Byte → Bool

/-- Whether the ECDSA P-384 signature of a firmware image verifies under the key fused in OTP (R389). Arguments: header and payload, signature (log 8). -/
opaque Config.imageEcdsaOk : List Byte → List Byte → Bool

/-- Whether the ML-DSA-65 signature of a firmware image verifies under the key fused in OTP (R389). Arguments: header and payload, signature (log 8). -/
opaque Config.imageMldsaOk : List Byte → List Byte → Bool

/-- Whether the recovery loader of this unit matches the digest fused at manufacture (R391); neither ever changes in the field (log 8). -/
opaque Config.recoveryOk : Bool

/-- Number of fraction bits in which the gateway's real arithmetic (R260, R261) is evaluated (log 13). -/
def Config.fracBits : Nat := 256

end Sys2Proof
end

