-- ==== Sys2Proof/Machine/State.lean ====
section
/-! DEFINITION. State: everything the spec gives the device, as plain data, and the state right after reset (INVENTORY.md lists every field with its rule and reset value). -/

namespace Sys2Proof.Machine

/-- A table from natural keys to entries, keys strictly rising. A key not listed stands for the entry's fresh value. -/
abbrev Tbl (α : Type) := List (Nat × α)

/-- Reasons to stop with a fault. No command of this block ends in one: failures are statuses, log records and event bits (INVENTORY.md, Faults). -/
inductive Fault where
  /-- Raised by no command; kept so that the type has a member. Safe. -/
  | none
deriving DecidableEq, Repr

/-- Reasons to refuse a command. -/
inductive Refusal where
  /-- Raised by exec's arm for a command that has no meaning yet. Safe. -/
  | notModelled (mnemonic : String)
deriving DecidableEq, Repr

/-! ### What leaves the device -/

/-- One thing the device has sent out (log 4). -/
inductive Out where
  /-- A write to host memory of function fn (R81). -/
  | dmaWrite (fn iova : Nat) (bytes : List Byte)
  /-- Bytes of a host output buffer whose value is undefined after a refused access (R418). -/
  | dmaUndefined (fn iova len : Nat)
  /-- An MSI-X message (R103). -/
  | msix (fn vector : Nat)
  /-- A frame sent on a port (R307). -/
  | frame (port : Nat) (bytes : List Byte)
  /-- The answer to an I3C private read (R414). -/
  | i3cData (bytes : List Byte)
  /-- A refused I3C write (R414). -/
  | i3cRefused
deriving DecidableEq, Repr

/-! ### Settings: the RWS registers (R375) and the swarm configuration -/

/-- RWS fields of the TN_ registers of one tenant (R106 to R110). -/
structure TnSet where
  gateway   : Bool
  roundtrip : Bool
  ringMax   : Nat
  msixCount : Nat
  dramMib   : Nat
  activeMax : Nat
  recordMax : Nat
  genMax    : Nat
  frameCeil : Nat
  c0Shelves : List Nat
  wShelves  : List Nat
  c0Cells   : List Nat
  bwPct     : Nat
deriving DecidableEq, Repr

/-- RWS fields of CB_PACE_CTL (R75). -/
structure PaceSet where
  vmin   : Nat
  vmax   : Nat
  vfix   : Nat
  bandLo : Nat
  bandHi : Nat
  paced  : Bool
  c0Hold : Nat
deriving DecidableEq, Repr

/-- RWS fields of FB_PORT_CTL_p (R325); `asymNs` is the signed correction of R320. -/
structure PortSet where
  holdDark : Bool
  asymNs   : Int
deriving DecidableEq, Repr

/-- A fabric edge of the swarm configuration (R300). -/
structure Edge where
  edge      : Nat
  src       : Nat
  dst       : Nat
  ten       : Nat
  cls       : Nat
  sendSeg   : Nat
  recvSeg   : Nat
  model     : Nat
  bytes     : Nat
  srcOffset : Nat
  dstOffset : Nat
deriving DecidableEq, Repr

/-- A swarm configuration (R300), with its digest and this device's id (R297). `serials` lists the devices in id order. -/
structure SwarmCfg where
  swarmId  : Nat
  racks    : Nat
  freezeFw : Bool
  step0Us  : Nat
  step1Us  : Nat
  fwDigest : List Byte
  serials  : List Nat
  edges    : List Edge
  digest   : List Byte
  deviceId : Nat
deriving DecidableEq, Repr

/-- Everything the settings book holds (R34, R43, R75, R106, R302, R359, R380, R407). -/
structure Settings where
  ceil      : List Nat
  localGib  : Nat
  pace      : Tbl PaceSet
  poll      : List Nat
  tn        : Tbl TnSet
  port      : Tbl PortSet
  lenS      : Nat
  align_    : Bool
  restIdle  : Nat
  restEn    : Bool
  capW      : Nat
  ownerLock : Bool
  swarm     : Option SwarmCfg
deriving DecidableEq, Repr

/-! ### Fuses, power, start and resets -/

/-- One-time programmable facts of the unit (R6, R392). -/
structure Fuses where
  serial  : Nat
  variant : Nat
  svn     : Nat
deriving DecidableEq, Repr

/-- PW_STATUS.PHASE (R380). -/
inductive Phase where
  | rom | queen | lanes | workers | dram | scrub | ready | failed
deriving DecidableEq, Repr

/-- PCIe power state of the physical function, and Deep rest once entered (R366, R368). -/
inductive DState where
  | d0 | d3hot | deepRest
deriving DecidableEq, Repr

/-- A function-level reset under way (R373): draining its rings until `since` + 10 ms, or scrubbing the pages its objects held. -/
structure Flr where
  ten      : Nat
  draining : Bool
  since    : Nat
  pages    : List (Nat × Nat)
deriving DecidableEq, Repr

structure Power where
  phase     : Phase
  failCause : Nat
  lastReset : Nat
  startMs   : Nat
  releasedAt : Nat
  heldByPerst : Bool
  off       : Bool
  pf        : DState
  vfD3      : List Nat
  warmDrain : Option Nat
  flrs      : List Flr
  startScrub : Bool
  hiveTj    : Nat
  e0Tj      : Nat
  e1Tj      : Nat
  emergency : Bool
  hot       : List Bool
  coolSince : List (Option Nat)
deriving DecidableEq, Repr

structure Elec where
  inputW    : Nat
  capping   : Bool
  lowInput  : Bool
  powerFail : Bool
  holdupMj  : Nat
deriving DecidableEq, Repr

/-! ### Die links -/

/-- State of one direction of a bundle (R50, R57). -/
inductive DirState where
  | full | half | failed | retraining
deriving DecidableEq, Repr

structure Direction where
  state    : DirState
  retrains : Nat
  fusedOut : Nat
  testFail : Nat
  replays  : Nat
  recent   : List Nat
deriving DecidableEq, Repr

structure Lanes where
  tested       : Bool
  dirs         : Tbl Direction
  degraded     : Bool
  failedEv     : Bool
  retrained    : Bool
  isolated     : Bool
  combIsolated : List Nat
  edgeIsolated : List Nat
deriving DecidableEq, Repr

/-! ### Waggle time and synchronisation -/

/-- WG_SYNC.STATE (R325). -/
inductive SyncState where
  | unsynced | synced | root
deriving DecidableEq, Repr

/-- What a LIVE peer last advertised (R320, R321). -/
structure Advert where
  rootId      : Nat
  hops        : Nat
  state       : SyncState
  established : Bool
deriving DecidableEq, Repr

structure Waggle where
  edges0      : Nat
  edges1      : Nat
  wallNs      : Nat
  wallAt      : Nat
  wallSet     : Bool
  sync        : SyncState
  parent      : Option Nat
  rootId      : Nat
  hops        : Nat
  offsetNs    : Int
  ratePpm     : Int
  offsets     : List Int
  inBound     : Nat
  established : Bool
  noParentAt  : Option Nat
  noLowerAt   : Nat
  adverts     : Tbl Advert
deriving DecidableEq, Repr

/-! ### Tenant objects -/

/-- One entry of a modulus table (R29); `eps` is the encoded byte. -/
structure ModEntry where
  q    : Nat
  w    : Nat
  a    : Nat
  b    : Nat
  eps  : Nat
  root : Nat
deriving DecidableEq, Repr

structure ModTable where
  logN    : Nat
  lCount  : Nat
  kCount  : Nat
  entries : List ModEntry
deriving DecidableEq, Repr

/-- Kind of a DRAM object (R111, R258). -/
inductive ObjKind where
  | weights | keyset | arena | gateway
deriving DecidableEq, Repr

/-- A DRAM object of a tenant: where it lies in the tenant's DVA space and in DPA pages, as extents (first page, pages) (R111, R112). -/
structure DramObj where
  ten     : Nat
  kind    : ObjKind
  dva     : Nat
  bytes   : Nat
  extents : List (Nat × Nat)
deriving DecidableEq, Repr

/-- Device DRAM: bytes that are not zero by DPA, poisoned 64-byte blocks (R348), objects, pages freed and not yet scrubbed (R113), and the split in force (R43). -/
structure Dram where
  cells    : List Host.Cell
  poison   : List Nat
  objs     : Tbl DramObj
  dirty    : List (Nat × Nat)
  localGib : Nat
deriving DecidableEq, Repr

/-- One component of a key set (R119, R221): KIND, GALOIS, the byte offset and length of its b-half data in the key set's DRAM object, and its seeds, which never lie in a stencil's range. -/
structure KeyComp where
  kind   : Nat
  galois : Nat
  off    : Nat
  bytes  : Nat
  seeds  : List (List Byte)
deriving DecidableEq, Repr

structure KeySet where
  modtab   : ModTable
  dnum     : Nat
  bootEll  : Nat
  lweN     : Nat
  logNb    : Nat
  ksEll    : Nat
  ksBits   : Nat
  lweIdx   : Nat
  comps    : List KeyComp
  obj      : Nat
  loaded   : Bool
  released : Bool
  invalid  : Bool
deriving DecidableEq, Repr

/-- A stencil descriptor (R213). -/
structure Stencil where
  space     : Nat
  flags     : Nat
  ndim      : Nat
  group     : Nat
  bind_     : Nat
  bindIndex : Nat
  peerSeg   : Nat
  sizes     : List Nat
  strides   : List Int
  base      : Nat
  keyKind   : Nat
  keyIndex  : Nat
  galois    : Nat
deriving DecidableEq, Repr

/-- A stream table entry (R225). -/
structure StreamDef where
  src       : Nat
  flags     : Nat
  depth     : Nat
  ringTiles : Nat
  tileElems : Nat
  ringBase  : Nat
  freeQ     : Nat
  aOffset   : Nat
  run       : Nat
  dest      : List Nat
  mcastId   : Nat
  chainLen  : Nat
deriving DecidableEq, Repr

/-- A segment: its descriptor (R132) and its image (R161). A program is its list of parts, a part its instructions. -/
structure SegDef where
  cells      : Nat
  combOff    : Nat
  idempotent : Bool
  checked    : Bool
  modBase    : Nat
  latMode    : Nat
  watchdogUs : Nat
  programs   : List (List (List InsWord))
  cellMap    : List Nat
  stencils   : List Stencil
  streams    : List StreamDef
deriving DecidableEq, Repr

/-- A round-trip table entry (R244). -/
structure RtEntry where
  parkSeg     : Nat
  resumeSeg   : Nat
  fallbackSeg : Nat
  flags       : Nat
  floodBits   : Nat
  outLimbs    : Nat
  inLimbs     : Nat
  outOffset   : Nat
  inOffset    : Nat
deriving DecidableEq, Repr

/-- A generation of a model (R126 to R131). `weights` lists offset and length of each weight object in the DRAM object `obj`. -/
structure Gen where
  home    : Nat
  modtab  : ModTable
  segs    : List SegDef
  weights : List (Nat × Nat)
  rts     : List RtEntry
  obj     : Nat
  pinned  : Bool
  damaged : Bool
deriving DecidableEq, Repr

/-- A model handle: its ready generations by number, loads under way by load id, the next number, and whether it is retired (R126 to R130). -/
structure Model where
  gens    : Tbl Gen
  loading : Tbl Gen
  next    : Nat
  retired : Bool
deriving DecidableEq, Repr

/-- A session or the record of a closed one (R115 to R117). `recIndex` is its record index; `tickets` lists the attempt counters of the tickets issued to it in this start (R249, R251). -/
structure Session where
  active     : Bool
  closing    : Bool
  position   : Nat
  model      : Nat
  gen        : Nat
  keyset     : Option Nat
  cls        : Nat
  arenaBytes : Nat
  arena      : Nat
  deadlineMs : Nat
  recIndex   : Nat
  tickets    : List Nat
deriving DecidableEq, Repr

/-- A live ephemeral key (R275): its id, private scalar, the salt of R277 and its end. -/
structure EphKey where
  id      : Nat
  priv    : Nat
  salt    : List Byte
  expires : Nat
deriving DecidableEq, Repr

/-- A public-key slot (R283): curve 1 P-256, 2 P-384, 3 Ed25519, 6 X25519. -/
structure KeySlot where
  curve   : Nat
  priv    : List Byte
  invalid : Bool
deriving DecidableEq, Repr

/-- A gateway slot (R256, R258): modulus table, ternary secret, LWE secret, sealed memory. -/
structure GwSlot where
  modtab  : ModTable
  secret  : List Int
  lwe     : List Int
  obj     : Nat
  invalid : Bool
deriving DecidableEq, Repr

/-- An error-log record (R351). -/
structure LogRec where
  type   : Nat
  flags  : Nat
  ten    : Nat
  source : Nat
  waggle : Nat
  arg0   : Nat
  arg1   : Nat
deriving DecidableEq, Repr

/-- A virtual function's view of the log (R351). -/
structure LogView where
  written : Nat
  lost    : Nat
  recs    : Tbl LogRec
  unread  : List Nat
deriving DecidableEq, Repr

structure Tenant where
  rgLring  : Nat
  dbEn     : Bool
  dbAddr   : Nat
  werr     : Nat
  sessions : Tbl Session
  keysets  : Tbl KeySet
  models   : Tbl Model
  keySlots : Tbl KeySlot
  gwSlots  : Tbl GwSlot
  ephs     : List EphKey
  meters   : List Nat
  stuck    : List Nat
  view     : LogView
deriving DecidableEq, Repr

/-! ### Rings and commands -/

/-- One attempt of a round trip (R247 to R254). `outbound` holds header fields apart and the ciphertext bytes still to be written; `deadline` is set once the interim is written; `claimedAt` while a resume claims it; `waitPos` is the completion position of the interim that CQ_HEAD must pass first, `waitUntil` the end of that wait (R255). -/
structure Attempt where
  point     : Nat
  attempt   : Nat
  ticket    : Nat
  outbound  : List Byte
  written   : Bool
  deadline  : Option Nat
  claimed   : Bool
  waitPos   : Option Nat
  waitUntil : Option Nat
deriving DecidableEq, Repr

/-- A fabric send that waits for its acknowledgement (R308). -/
structure FabricSend where
  edge     : Nat
  admitted : Bool
  until_   : Nat
  acked    : Bool
deriving DecidableEq, Repr

/-- What a started CMD_EVAL holds (R128, R134, R246). `chain` is the segment index the chain stands at. -/
structure Eval where
  session   : Nat
  model     : Nat
  gen       : Nat
  keyset    : Nat
  position  : Nat
  iovas     : List Nat
  lens      : List Nat
  rtEnable  : Bool
  outIova   : Nat
  outLen    : Nat
  retries   : Nat
  entry     : Nat
  chain     : Nat
  rounds    : Nat
  attempt   : Option Attempt
  lastInterim : Option Nat
  answeredAt : Option Nat
  recvWait  : Option (Nat × Nat)
  sends     : List FabricSend
  wrote     : List Nat
  hostWrote : List (Nat × Nat)
  failed    : Option (Nat × Nat)
  done      : Bool
deriving DecidableEq, Repr

/-- Where a fetched command stands: waiting to start, held for entropy since a time (R292), started, or finished and awaiting its final completion (R99). -/
inductive CmdPhase where
  | waiting
  | held (since : Nat)
  | started
  | finished
deriving DecidableEq, Repr

/-- A fetched command without a final completion (R89, R91, R98). `block` is the operand block read, `load` the load it runs, `comb` the comb that carries a copy, `eval` what a started CMD_EVAL holds. -/
structure Cmd where
  seq      : Nat
  entry    : List Byte
  fetchNo  : Nat
  phase    : CmdPhase
  status   : Nat
  detail   : Nat
  startAt  : Option Nat
  endAt    : Nat
  ops      : Nat
  replayed : Bool
  reserved : Nat
  block    : List Byte
  load     : Option Nat
  runDone  : Bool
  comb     : Option Nat
  eval     : Option Eval
deriving DecidableEq, Repr

/-- RG_RING_STATUS.STATE. -/
inductive RingState where
  | off | live | draining | error
deriving DecidableEq, Repr

/-- One ring pair (R80 to R103). -/
structure Ring where
  subBase     : Nat
  cplBase     : Nat
  logEntries  : Nat
  cls         : Nat
  gen         : Nat
  vector      : Nat
  modCount    : Nat
  modUs       : Nat
  maxInflight : Nat
  state       : RingState
  fromError   : Bool
  err         : Nat
  dbInvalid   : Bool
  dbStale     : Bool
  cplFull     : Bool
  sqHead      : Nat
  sqTail      : Nat
  cqHead      : Nat
  cplPos      : Nat
  reserved    : Nat
  cmds        : List Cmd
  hist        : List (Nat × Nat)
  spanFailed  : Bool
  modSeen     : Nat
  modSince    : Option Nat
deriving DecidableEq, Repr

/-! ### Cells and segments -/

/-- One issued instruction of a cell that has not completed (R165, R166, R186). `raw` is the instruction; `eas` its effective addresses of OP0, OP1 and OP2 at issue (R171); `modIdx` its modulus index (R179); `consts` the words taken at issue (TMULC with CIND, R204). `reads` and `writes` are the scratchpad words it reads and writes: (cell, address). `ready` says that a remote source has been served (R145). `alts` are values that a raced source word may have had, `contest` destination words that an unordered write also reached (R186). `remote` says that the destination is a remote scratchpad, which takes a window; `win` is the window that admitted the write, with its QUEUE (R151); `arrived` says its first word has been judged. `hostWords` are the words read from host memory. -/
structure Flight where
  id        : Nat
  engine    : Nat
  raw       : InsWord
  eas       : List Int
  modIdx    : Nat
  consts    : List Nat
  reads     : List (Nat × Nat)
  writes    : List (Nat × Nat)
  ready     : Bool
  alts      : List (Nat × Nat × Nat)
  contest   : List (Nat × Nat)
  remote    : Bool
  win       : Option (Nat × Nat)
  arrived   : Bool
  hostWords : Option (List Nat)
deriving DecidableEq, Repr

/-- An open window (R150). -/
structure Window where
  base    : Nat
  length  : Nat
  kind    : Nat
  rowMask : Nat
  colMask : Nat
  queue   : Nat
deriving DecidableEq, Repr

/-- A window close that waits for admitted writes (R153): the window's number, the queue it posts to when complete, and the writes still to land. -/
structure WinClosing where
  window : Nat
  post   : Option Nat
  waits  : List Nat
deriving DecidableEq, Repr

/-- A LOOP being executed (R175): index of its first body instruction, K, N, completed passes. -/
structure LoopFrame where
  start : Nat
  k     : Nat
  n     : Nat
  pass  : Nat
deriving DecidableEq, Repr

/-- An edge latch (R160). -/
structure Latch where
  queue   : Option Nat
  pending : Bool
deriving DecidableEq, Repr

/-- The last non-repeating draw of a cell's noise port (R210): its number of elements, and the integers. -/
structure NoiseDraw where
  dist : Nat
  ints : List Int
deriving DecidableEq, Repr

/-- One cell (R139). -/
structure Cell where
  mem     : Tbl Nat
  acc     : Tbl Nat
  bound   : Tbl (Nat × Bool)
  ftq     : List (List Nat)
  plane   : List Nat
  idlePlane : List Nat
  bank0   : List InsWord
  bank1   : List InsWord
  active  : Nat
  pc      : Nat
  loops   : List LoopFrame
  tokens  : Tbl Nat
  windows : Tbl Window
  closing : List WinClosing
  timers  : Tbl (Nat × Nat)
  latches : Tbl Latch
  adv     : Tbl (Int × Nat)
  selBase : Nat
  selStep : Nat
  selLevel : Nat
  latMode : Nat
  halted  : Bool
  lastTen : Option Nat
  seg     : Option Nat
  group   : Nat
  flights : List Flight
  noise   : Option NoiseDraw
deriving DecidableEq, Repr

/-- Progress of a stream (R225 to R235): per destination, tiles delivered and final tokens taken; per chain cell (head × 16 + hop), tiles forwarded to it; granules fetched for a multicast group; ended. -/
structure StreamRun where
  delivered : Tbl Nat
  hopped    : Tbl Nat
  finals    : Tbl Nat
  granules  : Nat
  ended     : Bool
deriving DecidableEq, Repr

/-- Phase of a segment run: ready in the dispatcher's queue, placed on its cells, running, yielded (R337), stopped by the drain of a comb (R341). -/
inductive SegPhase where
  | ready | placed | running | yielded | drained
deriving DecidableEq, Repr

/-- One segment of one CMD_EVAL that is ready, placed, running or yielded (R326 to R337). `peers` lists the cells of the peer segments its stencils name (R158), by segment index; `charged` and `keyBytes` are the work done, added to the meters when the segment ends (R352, R353). -/
structure SegRun where
  id        : Nat
  ten       : Nat
  lring     : Nat
  seq       : Nat
  idx       : Nat
  cls       : Nat
  order     : Nat
  gang      : List Nat
  comb      : Nat
  cells     : List Nat
  phase     : SegPhase
  scrubbed  : Bool
  readyAt   : Nat
  startedAt : Nat
  ranSince  : Nat
  progress  : Nat
  replays   : Nat
  stops     : Nat
  borrower  : Bool
  replay    : Bool
  first     : Bool
  fail      : Option (Nat × Nat)
  streams   : Tbl StreamRun
  saved     : List Cell
  peers     : Tbl (List Nat)
  charged   : Nat
  keyBytes  : Nat
deriving DecidableEq, Repr

/-- A run of shelves of one comb (R122 to R125). `key`: the key set's handle and component index, or the model's handle and generation. -/
inductive ShelfKind where
  | cached (keyset comp : Nat)
  | pinC0 (keyset comp : Nat) (sessions : List Nat)
  | pinW (model gen : Nat)
deriving DecidableEq, Repr

structure ShelfRun where
  ten     : Nat
  kind    : ShelfKind
  count   : Nat
  lastUse : Nat
  refs    : List Nat
deriving DecidableEq, Repr

/-- RS_COMB_STATE.STATE_c (R351). -/
inductive CombSvc where
  | inService | draining | resetting | outUntilStart | isolated | thermalRest
deriving DecidableEq, Repr

structure Comb where
  vcode     : Nat
  c0Floor   : Bool
  c0Last    : Nat
  thermal   : Bool
  occ       : Nat
  stageRate : Nat
  tj        : Nat
  tjMax     : Nat
  emergSeen : Bool
  critSeen  : Bool
  rest      : Bool
  svc       : CombSvc
  faults    : Nat
  idleSince : Nat
  suspended : Bool
  served    : List Nat
  lastTen   : List Nat
  stopped   : List (Option Nat)
  shelves   : List ShelfRun
  reserved  : List (Nat × Nat × Bool)
  seeded    : Bool
  seededAt  : Nat
  drawn     : Nat
deriving DecidableEq, Repr

/-! ### Entropy, log, meters, round trips -/

structure Entropy where
  seeded     : Bool
  failed     : Bool
  reseeding  : Bool
  poolMilli  : Nat
  evRct      : Bool
  evApt      : Bool
  evStartup  : Bool
  evFailed   : Bool
  evHold     : Bool
  seedTime   : Nat
  rctFails   : Nat
  aptFails   : Nat
  startupOk  : Bool
  startupCount : Nat
  startupFails : Nat
  last       : Option Byte
  runLen     : Nat
  winFirst   : Byte
  winCount   : Nat
  winRepeats : Nat
  failTimes  : List Nat
  requests   : Nat
deriving DecidableEq, Repr

structure Log where
  written : Nat
  lost    : Nat
  recs    : Tbl LogRec
  unread  : List Nat
  dramCe  : Nat
  dramUe  : Nat
  combFaults : Nat
  replays : Nat
deriving DecidableEq, Repr

/-- A closed meter record (R360): its bytes up to the end of the entries, and its signatures once made. -/
structure MeterRecord where
  body : List Byte
  sigs : Option (List Byte)
deriving DecidableEq, Repr

structure Meters where
  epoch     : Nat
  openWaggle : Nat
  openWall  : Nat
  lenS      : Nat
  align_    : Bool
  lastBoundary : Nat
  back      : Bool
  fwd       : Bool
  cold      : Bool
  heldOver  : Bool
  lastMs    : Nat
  held      : List MeterRecord
  evStuck   : Bool
  evFull    : Bool
  evBack    : Bool
  evTickets : Bool
deriving DecidableEq, Repr

/-- Security state of the hive (R249, R271, R294). -/
structure Security where
  idReady  : Bool
  pointRej : Nat
  sigFail  : Nat
  rtCounter : Nat
  startId  : Option Nat
  meas     : List (List Byte)
deriving DecidableEq, Repr

/-! ### Links and fabric -/

/-- Link states (R311). -/
inductive LinkState where
  | dark | training | attesting | keyed | live | quarantined
deriving DecidableEq, Repr

/-- Key and salt of one direction of a link under one key phase (R314). -/
structure DirKey where
  key  : List Byte
  salt : List Byte
deriving DecidableEq, Repr

/-- A queued frame between two devices (relayed), one that concerns this link alone (a rekey's descriptor), or the KEY_CONFIRM of a rekey (R316). -/
inductive FrameKind where
  | relayed | linkOnly | confirm
deriving DecidableEq, Repr

/-- A frame of a virtual channel that waits to be sent or acknowledged: header before the link fields are filled in, payload, and the port whose buffer holds it until it is sent (R305 to R307). -/
structure QFrame where
  vc      : Nat
  kind    : FrameKind
  via     : Option Nat
  header  : List Byte
  payload : List Byte
deriving DecidableEq, Repr

/-- One port (R311 to R317, R325). `keyPhase` and `rxPhase` are the key phases in use; `txCounter` and `rxCounter` the next COUNTER of each direction, which is also the number of frames under its key; `asked` that a resend has been asked for; `resend` how many frames at the head of the queue are resent in order; `mgmtOnly` a quarantine whose keys are derived. -/
structure Port where
  state     : LinkState
  reason    : Nat
  peerId    : Nat
  tagFails  : Nat
  rekeys    : Nat
  light     : Bool
  since     : Nat
  retryAt   : Option Nat
  ourDesc   : List Byte
  ourPriv   : Nat
  peerNonce : List Byte
  tx        : Option DirKey
  rx        : Option DirKey
  nextTx    : Option DirKey
  nextRx    : Option DirKey
  keyPhase  : Nat
  rxPhase   : Nat
  keyedAt   : Nat
  txCounter : Nat
  rxCounter : Nat
  asked     : Bool
  credits   : List Nat
  queue     : List QFrame
  resend    : Nat
  unacked   : List QFrame
  tagTimes  : List Nat
  rekeying  : Option Nat
  mgmtOnly  : Bool
deriving DecidableEq, Repr

/-- A fabric message at its receiver (R309): tenant, session handle, edge, position, source, bytes received, whether all have come, and the ports whose buffers hold frames of it until it is admitted. -/
structure FabricMsg where
  id       : Nat
  ten      : Nat
  session  : Nat
  edge     : Nat
  position : Nat
  src      : Nat
  got      : List (Nat × List Byte)
  complete : Bool
  held     : List Nat
deriving DecidableEq, Repr

structure Fabric where
  cfgAddr  : Nat
  cfgLen   : Nat
  result   : Nat
  busy     : Bool
  evQuarantined : Bool
  evExhausted : Bool
  evRetrained : Bool
  evSyncLost  : Bool
  ports    : Tbl Port
  inbox    : List FabricMsg
  landed   : List (Nat × Nat × Nat × Nat)
  occupied : List (Nat × Nat × Nat)
deriving DecidableEq, Repr

/-! ### Firmware -/

/-- FW_STATUS.STATE (R401). -/
inductive FwState where
  | idle | checking | writing | verifying | staged | paused | aborted | failed
deriving DecidableEq, Repr

/-- An image in a slot: what its verified header says, the digests of its six sections in kind order (R386, R387), and whether its header and its signatures pass R388. -/
structure FwImage where
  svn     : Nat
  sbMin   : Nat
  sbMax   : Nat
  version : Nat
  hwType  : Nat
  stepMask : Nat
  unitHashes : List (List Byte)
  headerOk : Bool
  ecOk    : Bool
  mlOk    : Bool
  digests : List (List Byte)
deriving DecidableEq, Repr

/-- One copy of the settings book (R398). -/
structure Book where
  format   : Nat
  seqNo    : Nat
  settings : Settings
deriving DecidableEq, Repr

/-- BOOT_STATE: 0 EMPTY, 1 STAGED, 2 TRIAL, 3 COMMITTED, 4 REJECTED, 5 SUPERSEDED (R401). -/
structure FwSlot where
  bootState : Nat
  attempts  : Nat
  seqNo     : Nat
  image     : Option FwImage
  book0     : Option Book
  book1     : Option Book
deriving DecidableEq, Repr

structure Firmware where
  state      : FwState
  result     : Nat
  bootSlot   : Nat
  booted     : Bool
  xip        : Bool
  trial      : Bool
  draining   : Bool
  sectorsDone : Nat
  imgAddr    : Nat
  imgLen     : Nat
  slotA      : FwSlot
  slotB      : FwSlot
  target     : Nat
  staged     : List Byte
  sectorsLeft : Nat
  before     : FwState
  drainBefore : Bool
  readFault  : Bool
  bookDirty  : Bool
deriving DecidableEq, Repr

/-! ### The state -/

structure State where
  pending : List Instr
  now     : Nat
  free    : Nat
  draws   : Nat
  nextId  : Nat
  fetches : Nat
  out     : List Out
  fuses   : Fuses
  settings : Settings
  power   : Power
  elec    : Elec
  lanes   : Lanes
  waggle  : Waggle
  rgTen   : Nat
  tnSel   : Nat
  pollAt  : List Nat
  msixHeld : List (Nat × Nat)
  tenants : Tbl Tenant
  rings   : Tbl Ring
  dram    : Dram
  combs   : Tbl Comb
  cells   : Tbl Cell
  segs    : List SegRun
  entropy : Entropy
  log     : Log
  meters  : Meters
  sec     : Security
  fabric  : Fabric
  fw      : Firmware
deriving DecidableEq, Repr

/-! ### Reset values -/

/-- TN_ registers of a tenant with nothing in the settings book (R106 tables). -/
def TnSet.reset : TnSet :=
  { gateway := false, roundtrip := false, ringMax := 0x10, msixCount := 4, dramMib := 0, activeMax := 0,
    recordMax := 0, genMax := 0, frameCeil := 0x01000000, c0Shelves := [0, 0, 0, 0],
    wShelves := [0, 0, 0, 0], c0Cells := [0, 0, 0, 0], bwPct := 0 }

/-- CB_PACE_CTL reset values (R75). -/
def PaceSet.reset : PaceSet :=
  { vmin := 0, vmax := 0x3C, vfix := 0x28, bandLo := 0x19, bandHi := 0x4B, paced := true, c0Hold := 0x03E8 }

/-- FB_PORT_CTL reset values (R325). -/
def PortSet.reset : PortSet := { holdDark := false, asymNs := 0 }

/-- Jenek's default ceilings, HV_PARAM_CEIL_k.DEFAULT (R33). -/
def defaultCeilings : List Nat := [109, 218, 438, 881, 1761, 3500]

/-- Every RWS field at the reset value its table gives, for an empty settings book. -/
def Settings.reset : Settings :=
  { ceil := defaultCeilings, localGib := 88, pace := [], poll := [0x2, 0xA, 0x64, 0x3E8], tn := [], port := [],
    lenS := 60, align_ := true, restIdle := 0x01F4, restEn := true, capW := 1500, ownerLock := false,
    swarm := none }

/-- Fused values: VARIANT must be 1 or 2 (R6); serial and security version are DESIGN CHOICE zero (log 6). -/
def Fuses.reset : Fuses := { serial := 0, variant := 1, svn := 0 }

/-- Hive reset just released at a cold start: PHASE ROM (R377, R380). -/
def Power.reset : Power :=
  { phase := .rom, failCause := 0, lastReset := 0, startMs := 0, releasedAt := 0, heldByPerst := false, off := false,
    pf := .d0, vfD3 := [], warmDrain := none, flrs := [], startScrub := false, hiveTj := 0, e0Tj := 0, e1Tj := 0,
    emergency := false, hot := List.replicate 7 false, coolSince := List.replicate 7 none }

def Elec.reset : Elec := { inputW := 0, capping := false, lowInput := false, powerFail := false, holdupMj := 0 }

/-- A direction before its first test; no lane is fused out (R48: every shipped unit is at full width; log 6). -/
def Direction.fresh : Direction :=
  { state := .full, retrains := 0, fusedOut := 0, testFail := 0, replays := 0, recent := [] }

def Lanes.reset : Lanes :=
  { tested := false, dirs := [], degraded := false, failedEv := false, retrained := false, isolated := false,
    combIsolated := [], edgeIsolated := [] }

def Waggle.reset : Waggle :=
  { edges0 := 0, edges1 := 0, wallNs := 0, wallAt := 0, wallSet := false, sync := .unsynced,
    parent := none, rootId := 0, hops := 0, offsetNs := 0, ratePpm := 0, offsets := [], inBound := 0,
    established := false, noParentAt := none, noLowerAt := 0, adverts := [] }

def LogView.fresh : LogView := { written := 0, lost := 0, recs := [], unread := [] }

def Tenant.fresh : Tenant :=
  { rgLring := 0, dbEn := false, dbAddr := 0, werr := 0, sessions := [], keysets := [], models := [],
    keySlots := [], gwSlots := [], ephs := [], meters := [0, 0, 0, 0, 0, 0], stuck := [], view := LogView.fresh }

/-- A ring after reset (R80 to R84 tables). -/
def Ring.fresh : Ring :=
  { subBase := 0, cplBase := 0, logEntries := 6, cls := 2, gen := 0, vector := 0, modCount := 1, modUs := 0,
    maxInflight := 0x3F, state := .off, fromError := false, err := 0, dbInvalid := false, dbStale := false,
    cplFull := false, sqHead := 0, sqTail := 0, cqHead := 0, cplPos := 0, reserved := 0, cmds := [], hist := [],
    spanFailed := false, modSeen := 0, modSince := none }

/-- DRAM with nothing listed: every byte reads zero, as the start scrub leaves it (R376). -/
def Dram.reset : Dram := { cells := [], poison := [], objs := [], dirty := [], localGib := 0 }

/-- A cell all zero (R375: cell state zero at a cold start). -/
def Cell.zero : Cell :=
  { mem := [], acc := [], bound := [], ftq := [], plane := [], idlePlane := [], bank0 := [], bank1 := [],
    active := 0, pc := 0, loops := [], tokens := [], windows := [], closing := [], timers := [], latches := [],
    adv := [], selBase := 0, selStep := 0, selLevel := 0, latMode := 0, halted := false, lastTen := none,
    seg := none, group := 0, flights := [], noise := none }

/-- A comb after reset: VCODE 0x28, in service, all 192 shelves free (R75, R351, R375). -/
def Comb.fresh : Comb :=
  { vcode := 0x28, c0Floor := false, c0Last := 0, thermal := false, occ := 0, stageRate := 0, tj := 0, tjMax := 0,
    emergSeen := false, critSeen := false, rest := false, svc := .inService, faults := 0, idleSince := 0,
    suspended := false, served := [0, 0, 0, 0], lastTen := [0, 0, 0, 0],
    stopped := [none, none, none, none], shelves := [], reserved := [], seeded := false, seededAt := 0, drawn := 0 }

def Entropy.reset : Entropy :=
  { seeded := false, failed := false, reseeding := false, poolMilli := 0, evRct := false, evApt := false,
    evStartup := false, evFailed := false, evHold := false, seedTime := 0, rctFails := 0, aptFails := 0,
    startupOk := false, startupCount := 0, startupFails := 0, last := none, runLen := 0,
    winFirst := 0, winCount := 0, winRepeats := 0, failTimes := [], requests := 0 }

def Log.reset : Log :=
  { written := 0, lost := 0, recs := [], unread := [], dramCe := 0, dramUe := 0, combFaults := 0, replays := 0 }

/-- The first epoch after a cold start: number 0, COLD_START in its record (R360). -/
def Meters.reset : Meters :=
  { epoch := 0, openWaggle := 0, openWall := 0, lenS := 60, align_ := true, lastBoundary := 0, back := false,
    fwd := false, cold := true, heldOver := false, lastMs := 0, held := [], evStuck := false, evFull := false, evBack := false,
    evTickets := false }

def Security.reset : Security :=
  { idReady := false, pointRej := 0, sigFail := 0, rtCounter := 0, startId := none, meas := [] }

/-- Credits of one direction in 64-byte units: 128 KiB for C0 to C3, 32 KiB for management (R305). -/
def fullCredits : List Nat := [2048, 2048, 2048, 2048, 512]

def Port.fresh : Port :=
  { state := .dark, reason := 0, peerId := 0, tagFails := 0, rekeys := 0, light := false, since := 0,
    retryAt := none, ourDesc := [], ourPriv := 0, peerNonce := [], tx := none, rx := none, nextTx := none, nextRx := none,
    keyPhase := 0, rxPhase := 0, keyedAt := 0, txCounter := 0, rxCounter := 0, asked := false, credits := fullCredits, queue := [],
    resend := 0, unacked := [], tagTimes := [], rekeying := none, mgmtOnly := false }

def Fabric.reset : Fabric :=
  { cfgAddr := 0, cfgLen := 0, result := 0, busy := false, evQuarantined := false, evExhausted := false,
    evRetrained := false, evSyncLost := false, ports := [], inbox := [], landed := [], occupied := [] }

/-- The image that the unit ships with in slot A: DESIGN CHOICE, the spec gives no value (log 9). -/
def FwImage.shipped : FwImage :=
  { svn := 0, sbMin := 1, sbMax := 1, version := 0x01000000, hwType := 0xB740, stepMask := 0x0200, unitHashes := [],
    headerOk := true, ecOk := true, mlOk := true, digests := List.replicate 6 (List.replicate 48 0) }

def FwSlot.empty : FwSlot :=
  { bootState := 0, attempts := 0, seqNo := 0, image := none, book0 := none, book1 := none }

def Firmware.reset : Firmware :=
  { state := .idle, result := 0, bootSlot := 0, booted := false, xip := false, trial := false, draining := false,
    sectorsDone := 0, imgAddr := 0, imgLen := 0,
    slotA := { FwSlot.empty with bootState := 3, seqNo := 1, image := some FwImage.shipped }, slotB := FwSlot.empty,
    target := 1, staged := [], sectorsLeft := 0, before := .idle, drainBefore := false, readFault := false, bookDirty := false }

/-- The device right after reset: hive reset just released at a cold start, PHASE ROM, waggle time 0 (R377). -/
def State.reset : State :=
  { pending := [], now := 0, free := 0, draws := 0, nextId := 0, fetches := 0, out := [], fuses := Fuses.reset,
    settings := Settings.reset, power := Power.reset, elec := Elec.reset, lanes := Lanes.reset, waggle := Waggle.reset,
    rgTen := 0, tnSel := 0, pollAt := [0, 0, 0, 0], msixHeld := [], tenants := [], rings := [], dram := Dram.reset,
    combs := [], cells := [], segs := [], entropy := Entropy.reset, log := Log.reset, meters := Meters.reset,
    sec := Security.reset, fabric := Fabric.reset, fw := Firmware.reset }

end Sys2Proof.Machine
end

