-- ==== Sys2Proof/Machine/Tbl.lean ====
section
/-! DEFINITION. Tables by natural keys, bit fields, and byte strings (little-endian, R7; big-endian where a published standard says so). -/

namespace Sys2Proof.Machine

/-- The entry at key k, if listed. -/
def Tbl.look {α : Type} : Tbl α → Nat → Option α
  | [], _ => none
  | (i, v) :: r, k => if i = k then some v else Tbl.look r k

/-- The entry at key k, or `d` where none is listed. -/
def Tbl.lookD {α : Type} (t : Tbl α) (k : Nat) (d : α) : α := (Tbl.look t k).getD d

/-- Writes the entry at key k, keeping the keys strictly rising. -/
def Tbl.put {α : Type} : Tbl α → Nat → α → Tbl α
  | [], k, v => [(k, v)]
  | (i, w) :: r, k, v =>
    if k < i then (k, v) :: (i, w) :: r
    else if k = i then (k, v) :: r
    else (i, w) :: Tbl.put r k v

/-- Removes the entry at key k. -/
def Tbl.del {α : Type} (t : Tbl α) (k : Nat) : Tbl α := t.filter fun e => e.1 != k

/-- Changes the entry at key k by f; a key not listed holds `d`. -/
def Tbl.upd {α : Type} (t : Tbl α) (k : Nat) (d : α) (f : α → α) : Tbl α := Tbl.put t k (f (Tbl.lookD t k d))

/-- Changes the entry at key k by f, if it is listed. -/
def Tbl.adjust {α : Type} (t : Tbl α) (k : Nat) (f : α → α) : Tbl α :=
  match Tbl.look t k with
  | some v => Tbl.put t k (f v)
  | none => t

/-- Writes v at key k of a table of numbers in which an unlisted key reads zero. -/
def Tbl.putZ (t : Tbl Nat) (k v : Nat) : Tbl Nat := if v = 0 then Tbl.del t k else Tbl.put t k v

/-- Keys strictly above `lo`. -/
def Tbl.above {α : Type} (lo : Nat) : Tbl α → Bool
  | [] => true
  | (i, _) :: r => decide (lo < i) && Tbl.above i r

/-- The canonical form of a table: keys strictly rising. -/
def Tbl.wf {α : Type} : Tbl α → Bool
  | [] => true
  | (i, _) :: r => Tbl.above i r

/-- Replaces entry i of a list. -/
def setNth {α : Type} (l : List α) (i : Nat) (v : α) : List α := l.set i v

/-- Entry i of a list of numbers, zero past the end. -/
def nth0 (l : List Nat) (i : Nat) : Nat := l.getD i 0

/-- Changes entry i of a list of numbers. -/
def updNth (l : List Nat) (i : Nat) (f : Nat → Nat) : List Nat := l.set i (f (nth0 l i))

/-- Sum of a list of numbers. -/
def sumL (l : List Nat) : Nat := l.foldl (· + ·) 0

/-! ### Bit fields -/

/-- Bits [hi:lo] of v, the width being n = hi - lo + 1. -/
def bits (v lo n : Nat) : Nat := (v >>> lo) % 2 ^ n

/-- Bit i of v. -/
def bitOf (v i : Nat) : Bool := bits v i 1 = 1

/-- A flag as a number. -/
def b2n (b : Bool) : Nat := if b then 1 else 0

/-- A bit list, least significant first, as a number. -/
def fromBits : List Bool → Nat
  | [] => 0
  | b :: r => b2n b + 2 * fromBits r

/-- Clears the bits of `mask` in v. -/
def clearBits (v mask : Nat) : Nat := v - (v &&& mask)

/-- Least number of the two. -/
def capAt (lim v : Nat) : Nat := if v ≤ lim then v else lim

/-- Two's complement reading of an n-bit number. -/
def signed (n v : Nat) : Int := if v % 2 ^ n < 2 ^ (n - 1) then (v % 2 ^ n : Nat) else (v % 2 ^ n : Nat) - (2 ^ n : Nat)

/-- Two's complement encoding in n bits. -/
def unsigned (n : Nat) (v : Int) : Nat := (v % (2 ^ n : Nat)).toNat

/-- Ceiling of a / b. -/
def ceilDiv (a b : Nat) : Nat := if a % b = 0 then a / b else a / b + 1

/-- Smallest multiple of m at or above v. -/
def roundUp (v m : Nat) : Nat := ceilDiv v m * m

/-! ### Byte strings -/

/-- The little-endian number of a byte string (R7). -/
def leNat : List Byte → Nat
  | [] => 0
  | b :: r => b.toNat + 256 * leNat r

/-- The n low bytes of v, little-endian. -/
def toLE : Nat → Nat → List Byte
  | 0, _ => []
  | n + 1, v => BitVec.ofNat 8 v :: toLE n (v / 256)

/-- The big-endian number of a byte string. -/
def beNat (l : List Byte) : Nat := leNat l.reverse

/-- The n low bytes of v, big-endian. -/
def toBE (n v : Nat) : List Byte := (toLE n v).reverse

/-- len bytes from offset off; bytes past the end read zero. -/
def slice (l : List Byte) (off len : Nat) : List Byte :=
  (l.drop off).take len ++ List.replicate (len - (l.length - off)) 0#8

/-- The little-endian field of len bytes at offset off. -/
def fld (l : List Byte) (off len : Nat) : Nat := leNat ((l.drop off).take len)

/-- The byte at offset off. -/
def byteAt (l : List Byte) (off : Nat) : Nat := fld l off 1

/-- First offset at or above `off`, among the next bytes of l, that is not zero. -/
def firstNonZero : Nat → List Byte → Option Nat
  | _, [] => none
  | off, b :: r => if b = 0#8 then firstNonZero (off + 1) r else some off

/-- n zero bytes. -/
def zeros (n : Nat) : List Byte := List.replicate n 0#8

/-- The bytes of an ASCII string. -/
def ascii (s : String) : List Byte := s.toList.map fun c => BitVec.ofNat 8 c.toNat

/-- The n-byte groups of a byte string (fuel: its length). -/
def chunks {α : Type} (n : Nat) : Nat → List α → List (List α)
  | 0, _ => []
  | _, [] => []
  | fuel + 1, l => l.take n :: chunks n fuel (l.drop n)

/-- Little-endian w-byte numbers of a byte string. -/
def words (w : Nat) (l : List Byte) : List Nat := (chunks w l.length l).map leNat

/-- Little-endian bytes of a list of w-byte numbers. -/
def unwords (w : Nat) (l : List Nat) : List Byte := l.flatMap (toLE w)

end Sys2Proof.Machine
end

