-- ==== Sys2Proof/Machine/Flags.lean ====
section
/-! DEFINITION. Status codes (R105), error-log record types (R351), and device-wide constants. -/

namespace Sys2Proof.Machine

/-! ### Status codes (R105) -/

def St.ok : Nat := 0x00
def St.badOpcode : Nat := 0x01
def St.badField : Nat := 0x02
def St.badHandle : Nat := 0x03
def St.outOfPolicy : Nat := 0x04
def St.modulusForm : Nat := 0x05
def St.quota : Nat := 0x20
def St.noCapacity : Nat := 0x21
def St.tokenOverflow : Nat := 0x40
def St.segmentTimeout : Nat := 0x42
def St.windowViolation : Nat := 0x43
def St.stencilBounds : Nat := 0x44
def St.stencilMisaligned : Nat := 0x45
def St.translationFault : Nat := 0x46
def St.unfencedRead : Nat := 0x47
def St.alias_ : Nat := 0x48
def St.sessionExhausted : Nat := 0x49
def St.attestationRequired : Nat := 0x60
def St.entropyPending : Nat := 0x61
def St.pointNotOnCurve : Nat := 0x62
def St.signatureInvalid : Nat := 0x63
def St.sealedInvalid : Nat := 0x64
def St.gatewayDisabled : Nat := 0x65
def St.linkQuarantined : Nat := 0x80
def St.swarmMismatch : Nat := 0x81
def St.roundtripDeadline : Nat := 0x82
def St.predecessorFailed : Nat := 0xA0
def St.cancelled : Nat := 0xA1
def St.memoryUncorrectable : Nat := 0xC0
def St.combFault : Nat := 0xC1
def St.thermalAbort : Nat := 0xC2
def St.deviceResetting : Nat := 0xC3

/-- Every status code a completion may carry (R105). -/
def St.all : List Nat :=
  [0x00, 0x01, 0x02, 0x03, 0x04, 0x05, 0x20, 0x21, 0x40, 0x42, 0x43, 0x44, 0x45, 0x46, 0x47, 0x48, 0x49, 0x60,
   0x61, 0x62, 0x63, 0x64, 0x65, 0x80, 0x81, 0x82, 0xA0, 0xA1, 0xC0, 0xC1, 0xC2, 0xC3]

/-- A failure: a status and its DETAIL. -/
abbrev Err := Nat × Nat

/-! ### Record types of the error log (R351) -/

def Rec.accessDropped : Nat := 0x01
def Rec.lane : Nat := 0x02
def Rec.boundSuspended : Nat := 0x04
def Rec.ring : Nat := 0x05
def Rec.loader : Nat := 0x10
def Rec.window : Nat := 0x11
def Rec.segment : Nat := 0x12
def Rec.dramCe : Nat := 0x20
def Rec.dramUe : Nat := 0x21
def Rec.combFault : Nat := 0x22
def Rec.replay : Nat := 0x23
def Rec.fabric : Nat := 0x40

/-- TENANT of a device-wide record (R351). -/
def Rec.deviceWide : Nat := 0xFFFF

/-! ### Constants -/

/-- Words of a cell's scratchpad (R139). -/
def scratchWords : Nat := 262144

/-- Bytes of a DRAM page (R107). -/
def pageBytes : Nat := 4096

/-- Pages of device DRAM: 768 GiB (R40). -/
def dramPages : Nat := 201326592

/-- Bytes of a shelf (R122). -/
def shelfBytes : Nat := 2097152

/-- Waggle ticks in a microsecond, a millisecond and a second (R61). -/
def usec : Nat := 1000
def msec : Nat := 1000000
def sec : Nat := 1000000000

end Sys2Proof.Machine
end

