-- ==== Sys2Proof/Machine/Ops.lean ====
section
/-! DEFINITION. The named operations that every meaning shares: time, free and random values, the error log, table access, host memory, device DRAM. -/

namespace Sys2Proof.Machine

/-! ### The step of a command -/

/-- Waggle time moves to t and never decreases (R61, log 1). -/
def State.advance (s : State) (t : Nat) : State := { s with now := max s.now t }

/-- The outcome of a command at waggle time t whose effect is f: f acts on the state at that time, and on everything but the queue. A device that is Off (R71, R382) does nothing. -/
def run (t : Nat) (s : State) (f : State → State) : Host.Outcome State Fault Refusal :=
  if s.power.off then .next (s.advance t)
  else .next { f (s.advance t) with pending := s.pending, now := max s.now t }

/-- Applies f where the guard holds; the event cannot take place otherwise (log 11). -/
def State.onlyIf (s : State) (b : Bool) (f : State → State) : State := if b then f s else s

/-! ### Free and random values -/

/-- Takes a fresh number (log 5). -/
def State.takeId (s : State) : Nat × State := (s.nextId, { s with nextId := s.nextId + 1 })

/-- Takes one free value (log 2). -/
def State.takeFree (s : State) : Nat × State := (Config.freeValue s.free, { s with free := s.free + 1 })

/-- The next n free values. -/
def State.frees (s : State) (n : Nat) : List Nat := (List.range n).map fun i => Config.freeValue (s.free + i)

def State.skipFrees (s : State) (n : Nat) : State := { s with free := s.free + n }

/-- The next n random values, each below m (log 3). -/
def State.randoms (s : State) (n m : Nat) : List Nat := (List.range n).map fun i => Config.random (s.draws + i) % m

def State.skipRandoms (s : State) (n : Nat) : State := { s with draws := s.draws + n }

/-- Requests after which the DRBG reseeds (R365). -/
def drbgLimit : Nat := 2 ^ 20

/-- One more request of the DRBG; at the limit a reseed is due (R291, R365). -/
def Entropy.request (e : Entropy) : Entropy :=
  { e with requests := e.requests + 1, reseeding := e.reseeding || decide (drbgLimit ≤ e.requests + 1) }

/-- Takes n random bytes: one request of the DRBG (R291). -/
def State.takeBytes (s : State) (n : Nat) : List Byte × State :=
  (toLE n (Config.random s.draws), { s with draws := s.draws + 1, entropy := s.entropy.request })

def State.emit (s : State) (o : Out) : State := { s with out := o :: s.out }

/-! ### Table access -/

def State.ten (s : State) (k : Nat) : Tenant := Tbl.lookD s.tenants k Tenant.fresh
def State.updTen (s : State) (k : Nat) (f : Tenant → Tenant) : State := { s with tenants := Tbl.upd s.tenants k Tenant.fresh f }
def State.tnSet (s : State) (k : Nat) : TnSet := Tbl.lookD s.settings.tn k TnSet.reset
def State.comb (s : State) (c : Nat) : Comb := Tbl.lookD s.combs c Comb.fresh
def State.updComb (s : State) (c : Nat) (f : Comb → Comb) : State := { s with combs := Tbl.upd s.combs c Comb.fresh f }
def State.pace (s : State) (c : Nat) : PaceSet := Tbl.lookD s.settings.pace c PaceSet.reset
def State.cell (s : State) (c : Nat) : Cell := Tbl.lookD s.cells c Cell.zero
def State.updCell (s : State) (c : Nat) (f : Cell → Cell) : State := { s with cells := Tbl.upd s.cells c Cell.zero f }
def State.dir (s : State) (b d : Nat) : Direction := Tbl.lookD s.lanes.dirs (b * 2 + d) Direction.fresh
def State.updDir (s : State) (b d : Nat) (f : Direction → Direction) : State :=
  { s with lanes := { s.lanes with dirs := Tbl.upd s.lanes.dirs (b * 2 + d) Direction.fresh f } }
def State.port (s : State) (p : Nat) : Port := Tbl.lookD s.fabric.ports p Port.fresh
def State.updPort (s : State) (p : Nat) (f : Port → Port) : State :=
  { s with fabric := { s.fabric with ports := Tbl.upd s.fabric.ports p Port.fresh f } }
def State.portSet (s : State) (p : Nat) : PortSet := Tbl.lookD s.settings.port p PortSet.reset

/-- Key of tenant `ten`'s local ring `lring` in the table of rings. -/
def ringKey (ten lring : Nat) : Nat := ten * 256 + lring

def State.ring (s : State) (ten lring : Nat) : Ring := Tbl.lookD s.rings (ringKey ten lring) Ring.fresh
def State.updRing (s : State) (ten lring : Nat) (f : Ring → Ring) : State :=
  { s with rings := Tbl.upd s.rings (ringKey ten lring) Ring.fresh f }

/-- The fetched command with sequence number seq of a ring, if it has no final completion yet. -/
def State.cmd? (s : State) (ten lring seq : Nat) : Option Cmd := (s.ring ten lring).cmds.find? fun c => c.seq == seq

/-- Changes a fetched command. -/
def State.updCmd (s : State) (ten lring seq : Nat) (f : Cmd → Cmd) : State :=
  s.updRing ten lring fun r => { r with cmds := r.cmds.map fun c => if c.seq = seq then f c else c }

/-- Changes the evaluation of a fetched CMD_EVAL. -/
def State.updEval (s : State) (ten lring seq : Nat) (f : Eval → Eval) : State :=
  s.updCmd ten lring seq fun c => { c with eval := c.eval.map f }

def State.seg? (s : State) (id : Nat) : Option SegRun := s.segs.find? fun g => g.id == id
def State.updSeg (s : State) (id : Nat) (f : SegRun → SegRun) : State :=
  { s with segs := s.segs.map fun g => if g.id = id then f g else g }
def State.dropSeg (s : State) (id : Nat) : State := { s with segs := s.segs.filter fun g => g.id != id }

/-- Comb of a cell by its linear number (R139). -/
def combOf (cell : Nat) : Nat := cell / 128
def rowOf (cell : Nat) : Nat := cell % 128 / 16
def colOf (cell : Nat) : Nat := cell % 16

/-! ### The error log (R351) -/

/-- A record enters a virtual function's view: the k-th takes slot k mod 64. -/
def LogView.add (v : LogView) (r : LogRec) : LogView :=
  let slot := v.written % 64
  { written := (v.written + 1) % 2 ^ 32
    lost := if v.unread.contains slot then capAt 0xFFFF (v.lost + 1) else v.lost
    recs := Tbl.put v.recs slot r
    unread := slot :: v.unread.filter (· != slot) }

/-- A record enters the log: record n takes slot n mod 1,024. -/
def Log.add (l : Log) (r : LogRec) : Log :=
  let slot := l.written % 1024
  { l with
    written := (l.written + 1) % 2 ^ 32
    lost := if l.unread.contains slot then capAt 0xFFFF (l.lost + 1) else l.lost
    recs := Tbl.put l.recs slot r
    unread := slot :: l.unread.filter (· != slot) }

/-- Writes a record, which also appears in the view of the tenant it names and of `also` (R152). -/
def State.logBoth (s : State) (type flags ten : Nat) (also : Option Nat) (source arg0 arg1 : Nat) : State :=
  let r : LogRec := { type := type, flags := flags, ten := ten, source := source, waggle := s.now, arg0 := arg0, arg1 := arg1 }
  let s := { s with log := s.log.add r }
  let s := if 0 < ten ∧ ten < 512 then s.updTen ten fun x => { x with view := x.view.add r } else s
  match also with
  | some o => if 0 < o ∧ o < 512 ∧ o ≠ ten then s.updTen o fun x => { x with view := x.view.add r } else s
  | none => s

def State.logRec (s : State) (type flags ten source arg0 arg1 : Nat) : State :=
  s.logBoth type flags ten none source arg0 arg1

/-- The record of a dropped register access (R9) or TN_ or pace write. -/
def State.logDropped (s : State) (fn off value : Nat) : State :=
  s.logRec Rec.accessDropped 0 fn fn off value

/-! ### Host memory (R81, R418) -/

/-- The pieces of an access, cut at 4 KiB boundaries: IOVA and length of each. -/
def pieces (iova len : Nat) : List (Nat × Nat) :=
  if len = 0 then [] else
  let first := iova / pageBytes
  let last := (iova + len - 1) / pageBytes
  (List.range (last - first + 1)).map fun i =>
    let lo := max iova ((first + i) * pageBytes)
    let hi := min (iova + len) ((first + i + 1) * pageBytes)
    (lo, hi - lo)

/-- The mapped page that holds an IOVA of function fn. -/
def hostPage (h : HostView) (fn iova : Nat) : Option HostPage :=
  h.find? fun p => p.fn == fn && p.page == iova / pageBytes

/-- Reads one piece. -/
def hostPiece (h : HostView) (fn : Nat) (p : Nat × Nat) : Option (List Byte) :=
  (hostPage h fn p.1).map fun pg => slice pg.bytes (p.1 % pageBytes) p.2

/-- Reads len bytes; none where the IOMMU refuses a piece. -/
def hostRead (h : HostView) (fn iova len : Nat) : Option (List Byte) :=
  ((pieces iova len).mapM fun p => hostPiece h fn p).map List.flatten

/-- Writes the pieces in order until one is refused. -/
def State.hostPieces (s : State) (h : HostView) (fn iova : Nat) (bytes : List Byte) : List (Nat × Nat) → State × Bool
  | [] => (s, true)
  | p :: r =>
    match hostPage h fn p.1 with
    | none => (s, false)
    | some _ => State.hostPieces (s.emit (.dmaWrite fn p.1 ((bytes.drop (p.1 - iova)).take p.2))) h fn iova bytes r

/-- Writes bytes to host memory; false where the IOMMU refuses a piece (earlier pieces have landed). -/
def State.hostWrite (s : State) (h : HostView) (fn iova : Nat) (bytes : List Byte) : State × Bool :=
  s.hostPieces h fn iova bytes (pieces iova bytes.length)

/-! ### Device DRAM (R40 to R42, R111 to R113, R348) -/

/-- The canonical form of memory: addresses strictly rising, no zero byte listed. -/
def Memory.wf (m : List Host.Cell) : Bool := Tbl.wf (α := Byte) m && m.all fun c => c.2 != 0#8

/-- One byte of DRAM by DPA; an unlisted byte reads zero. -/
def Dram.byte (d : Dram) (dpa : Nat) : Byte := Tbl.lookD (α := Byte) d.cells dpa 0#8

/-- Writes one byte, keeping the canonical form. -/
def Memory.put (m : List Host.Cell) (dpa : Nat) (b : Byte) : List Host.Cell :=
  if b = 0#8 then Tbl.del (α := Byte) m dpa else Tbl.put (α := Byte) m dpa b

/-- Writes the listed bytes in order. -/
def Memory.puts (m : List Host.Cell) : List (Nat × Byte) → List Host.Cell
  | [] => m
  | (a, b) :: r => Memory.puts (Memory.put m a b) r

/-- Whole 64-byte blocks among the bytes written: their poison clears (R348). -/
def wholeBlocks (poison : List Nat) (ws : List (Nat × Byte)) : List Nat :=
  poison.filter fun b => (List.range 64).all fun i => ws.any fun w => w.1 == b * 64 + i

/-- Writes bytes by DPA. A whole block written clears its poison; any other write leaves it poisoned. -/
def Dram.write (d : Dram) (ws : List (Nat × Byte)) : Dram :=
  { d with cells := Memory.puts d.cells ws
           poison := d.poison.filter fun b => !(wholeBlocks d.poison ws).contains b }

/-- Zeroes whole pages and clears their poison: the scrub of R376. -/
def Dram.scrubPages (d : Dram) (inPages : Nat → Bool) : Dram :=
  { d with cells := d.cells.filter fun c => !inPages (c.1 / pageBytes)
           poison := d.poison.filter fun b => !inPages (b * 64 / pageBytes) }

/-- Whether a page lies in one of the extents (first page, pages). -/
def inExtents (es : List (Nat × Nat)) (p : Nat) : Bool := es.any fun e => decide (e.1 ≤ p ∧ p < e.1 + e.2)

/-- The stack that holds a DPA and its offset there, under the split Lc in force (R41, R42). -/
def stackOf (lc dpa : Nat) : Nat × Nat :=
  let gib := 2 ^ 30
  if dpa < 8 * lc * gib then
    let c := dpa / (2 * lc * gib)
    (2 * c + bits dpa 12 1, (dpa - 2 * c * lc * gib) / 2 ^ 13 * 4096 + dpa % 4096)
  else
    let x := dpa - 8 * lc * gib
    (bits x 12 3 ^^^ bits x 21 3, lc * gib + x / 2 ^ 15 * 4096 + x % 4096)

/-- Page range of a region under the split in force: 0 to 3 the comb-local regions, 4 the interleaved region. -/
def regionPages (lc r : Nat) : Nat × Nat :=
  if r < 4 then (2 * r * lc * 2 ^ 18, (2 * r + 2) * lc * 2 ^ 18) else (8 * lc * 2 ^ 18, dramPages)

/-- Inserts an extent in order of its first page. -/
def insertExtent (e : Nat × Nat) : List (Nat × Nat) → List (Nat × Nat)
  | [] => [e]
  | x :: r => if e.1 ≤ x.1 then e :: x :: r else x :: insertExtent e r

/-- All extents in use, in order of first page: objects' pages and pages not yet scrubbed. -/
def Dram.used (d : Dram) : List (Nat × Nat) :=
  (d.objs.flatMap (fun o => o.2.extents) ++ d.dirty).foldl (fun l e => insertExtent e l) []

/-- Free extents of [lo, hi) beside the used extents, which are in order. -/
def freeIn (lo hi : Nat) : List (Nat × Nat) → List (Nat × Nat)
  | [] => if lo < hi then [(lo, hi - lo)] else []
  | e :: r =>
    if e.1 + e.2 ≤ lo then freeIn lo hi r
    else if hi ≤ e.1 then (if lo < hi then [(lo, hi - lo)] else [])
    else (if lo < e.1 then [(lo, e.1 - lo)] else []) ++ freeIn (e.1 + e.2) hi r

def Dram.freeExtents (d : Dram) (r : Nat) : List (Nat × Nat) :=
  let b := regionPages d.localGib r
  freeIn b.1 b.2 d.used

def Dram.freePages (d : Dram) (r : Nat) : Nat := sumL ((d.freeExtents r).map (·.2))

/-- Takes n pages from free extents, first fit; the rest still to be found. -/
def takePages : Nat → List (Nat × Nat) → List (Nat × Nat) × Nat
  | n, [] => ([], n)
  | n, e :: r =>
    if n = 0 then ([], 0)
    else if n ≤ e.2 then ([(e.1, n)], 0)
    else let q := takePages (n - e.2) r
         ((e.1, e.2) :: q.1, q.2)

/-- The comb among `cs` with the most free comb-local DRAM, the lowest-numbered where several tie. -/
def Dram.roomiest (d : Dram) (cs : List Nat) : Option Nat :=
  cs.foldl (fun best c =>
    match best with
    | none => some c
    | some b => if d.freePages b < d.freePages c then some c else some b) none

/-- Order in which R112 tries the regions: the home comb's (none: straight to the interleaved region), the interleaved region, then the other combs, roomiest first. -/
def Dram.regionOrder (d : Dram) (home : Option Nat) : List Nat :=
  let rest := [0, 1, 2, 3].filter fun c => some c != home
  let a := (d.roomiest rest).toList
  let rest := rest.filter fun c => !a.contains c
  let b := (d.roomiest rest).toList
  let rest := rest.filter fun c => !b.contains c
  let c := (d.roomiest rest).toList
  let rest := rest.filter fun x => !c.contains x
  home.toList ++ [4] ++ a ++ b ++ c ++ rest

/-- Pages for an object of n pages, or none where all regions together cannot hold it (R112). -/
def Dram.findPages (d : Dram) (home : Option Nat) (n : Nat) : Option (List (Nat × Nat)) :=
  let q := takePages n ((d.regionOrder home).flatMap fun r => d.freeExtents r)
  if q.2 = 0 then some q.1 else none

/-- Lowest 1 GiB-aligned DVA above every object of the tenant (R111; DESIGN CHOICE, log 14). -/
def Dram.nextDva (d : Dram) (ten : Nat) : Nat :=
  d.objs.foldl (fun m o => if o.2.ten = ten then max m (roundUp (o.2.dva + o.2.bytes) (2 ^ 30)) else m) 0

/-- Bytes of a tenant's objects, each rounded up to pages: what counts against DRAM_MIB (R107). -/
def Dram.usedBytes (d : Dram) (ten : Nat) : Nat :=
  sumL (d.objs.map fun o => if o.2.ten = ten then roundUp o.2.bytes pageBytes else 0)

/-- Allocates an object: quota, then capacity (R107, R112). -/
def State.alloc (s : State) (ten : Nat) (kind : ObjKind) (home : Option Nat) (bytes : Nat) : Except Err (Nat × State) :=
  if (s.tnSet ten).dramMib < ceilDiv (s.dram.usedBytes ten + roundUp bytes pageBytes) (2 ^ 20) then .error (St.quota, 0)
  else match s.dram.findPages home (ceilDiv bytes pageBytes) with
    | none => .error (St.noCapacity, 0)
    | some es =>
      let o : DramObj := { ten := ten, kind := kind, dva := s.dram.nextDva ten, bytes := bytes, extents := es }
      .ok (s.nextId, { s with nextId := s.nextId + 1, dram := { s.dram with objs := Tbl.put s.dram.objs s.nextId o } })

/-- Frees an object: its mapping goes at once, its pages wait for their scrub (R113). -/
def Dram.free (d : Dram) (id : Nat) : Dram :=
  match Tbl.look d.objs id with
  | none => d
  | some o => { d with objs := Tbl.del d.objs id, dirty := o.extents ++ d.dirty }

def State.freeObj (s : State) (id : Nat) : State := { s with dram := s.dram.free id }

/-- Page number k of a list of extents. -/
def extentPage : List (Nat × Nat) → Nat → Option Nat
  | [], _ => none
  | e :: r, k => if k < e.2 then some (e.1 + k) else extentPage r (k - e.2)

/-- DPA of byte `off` of an object. -/
def DramObj.dpa (o : DramObj) (off : Nat) : Option Nat :=
  (extentPage o.extents (off / pageBytes)).bind fun p => if p < dramPages then some (p * pageBytes + off % pageBytes) else none

/-- The object of a tenant that maps a DVA, with its id (R111). Sealed memory of a gateway slot is mapped into no page table (R258). -/
def Dram.mapped (d : Dram) (ten dva : Nat) : Option (Nat × DramObj) :=
  d.objs.find? fun o => o.2.ten == ten && o.2.kind != .gateway && decide (o.2.dva ≤ dva ∧ dva < o.2.dva + roundUp o.2.bytes pageBytes)

/-- Translates a DVA of a tenant to a DPA (R111, R40). -/
def Dram.translate (d : Dram) (ten dva : Nat) : Option Nat :=
  (d.mapped ten dva).bind fun o => o.2.dpa (dva - o.2.dva)

/-- Whether a DPA lies in a poisoned block. -/
def Dram.poisoned (d : Dram) (dpa : Nat) : Bool := d.poison.contains (dpa / 64)

/-- Reads bytes of an object: a mapping fault or a poisoned block is the failure (R111, R348). -/
def Dram.readObj (d : Dram) (o : DramObj) (off len : Nat) : Except Err (List Byte) :=
  (List.range len).mapM fun i =>
    match o.dpa (off + i) with
    | none => .error (St.translationFault, 0)
    | some a => if d.poisoned a then .error (St.memoryUncorrectable, 0) else .ok (d.byte a)

/-- Bytes written to an object, by DPA; bytes past its pages are not mapped. -/
def DramObj.place (o : DramObj) (off : Nat) : List Byte → List (Nat × Byte)
  | [] => []
  | b :: r => (match o.dpa off with | some a => [(a, b)] | none => []) ++ DramObj.place o (off + 1) r

def State.writeObj (s : State) (id off : Nat) (bytes : List Byte) : State :=
  match Tbl.look s.dram.objs id with
  | none => s
  | some o => { s with dram := s.dram.write (o.place off bytes) }

def State.readObjAt (s : State) (id off len : Nat) : Except Err (List Byte) :=
  match Tbl.look s.dram.objs id with
  | none => .error (St.translationFault, 0)
  | some o => s.dram.readObj o off len

/-- Firmware-supplied or user data read from DRAM by DVA. -/
def Dram.readDva (d : Dram) (ten dva len : Nat) : Except Err (List Byte) :=
  (List.range len).mapM fun i =>
    match d.translate ten (dva + i) with
    | none => .error (St.translationFault, 0)
    | some a => if d.poisoned a then .error (St.memoryUncorrectable, 0) else .ok (d.byte a)

/-! ### Meters (R352, R354) -/

/-- Adds to a tenant's meter m, which sticks at its maximum. -/
def State.charge (s : State) (ten m n : Nat) : State :=
  let x := s.ten ten
  let v := nth0 x.meters m + n
  let cap := 2 ^ 64 - 1
  let s := s.updTen ten fun x => { x with
    meters := x.meters.set m (capAt cap v)
    stuck := if v > cap ∧ !x.stuck.contains m then m :: x.stuck else x.stuck }
  if v > cap then { s with meters := { s.meters with evStuck := true } } else s

end Sys2Proof.Machine
end

