-- ==== Sys2Proof/Machine/Params.lean ====
section
/-! DEFINITION. Moduli, modulus tables and the parameter checks (R12 to R34, R417). -/

namespace Sys2Proof.Machine

/-! ### Reduction (R28) -/

/-- The sign of an encoded EPS: 0x01 is +1, 0xFF is -1 (R29). -/
def epsOf (e : Nat) : Int := if e = 1 then 1 else if e = 0xFF then -1 else 0

/-- One fold of R28: x = hi * 2^w + lo becomes lo + (hi << a) - eps * (hi << b) - hi. -/
def foldOnce (m : ModEntry) (x : Nat) : Nat :=
  let hi := x / 2 ^ m.w
  let lo := x % 2 ^ m.w
  ((lo : Int) + (hi * 2 ^ m.a : Nat) - epsOf m.eps * (hi * 2 ^ m.b : Nat) - hi).toNat

/-- The folds of R28 while x is at least 2^w (at most `fuel` of them). -/
def foldAll (m : ModEntry) : Nat → Nat → Nat
  | 0, x => x
  | fuel + 1, x => if x < 2 ^ m.w then x else foldAll m fuel (foldOnce m x)

/-- The subtractions of R28 while x is at least q (at most `fuel` of them). -/
def subAll (q : Nat) : Nat → Nat → Nat
  | 0, x => x
  | fuel + 1, x => if x < q then x else subAll q fuel (x - q)

/-- The pseudocode of R28. -/
def foldReduce (m : ModEntry) (x : Nat) : Nat := subAll m.q 3 (foldAll m x x)

/-- The value the device returns: the canonical residue. The pseudocode of R28 gives it for every modulus of valid form. -/
def reduce (q x : Nat) : Nat := x % q

/-! ### The form of a modulus (R23 to R26) -/

/-- Valid form of one modulus (R23). -/
def ModEntry.formOk (m : ModEntry) : Bool :=
  decide (28 ≤ m.w ∧ m.w ≤ 32) &&
  (if m.eps = 0 then decide (17 ≤ m.a ∧ m.a < m.w ∧ m.b = 0 ∧ m.q + 2 ^ m.a = 2 ^ m.w + 1)
   else if m.eps = 1 then decide (17 ≤ m.b ∧ m.b < m.a ∧ m.a < m.w ∧ m.q + 2 ^ m.a = 2 ^ m.w + 2 ^ m.b + 1)
   else if m.eps = 0xFF then decide (17 ≤ m.b ∧ m.b < m.a ∧ m.a < m.w ∧ m.q + 2 ^ m.a + 2 ^ m.b = 2 ^ m.w + 1)
   else false)

/-- k squarings of x modulo q. -/
def squarings (q : Nat) : Nat → Nat → Nat
  | 0, x => x % q
  | k + 1, x => squarings q k (x * x % q)

/-- The check of a root seed: 1 < psi < q and psi^N = q - 1 (R25). -/
def ModEntry.rootOk (m : ModEntry) (logN : Nat) : Bool :=
  decide (1 < m.root ∧ m.root < m.q) && squarings m.q logN m.root == m.q - 1

/-- The further requirement at ring dimension 2^17 (R24). -/
def ModEntry.bigRingOk (m : ModEntry) (logN : Nat) : Bool := logN != 17 || m.q % 2 ^ 18 == 1

def ModEntry.ok (m : ModEntry) (logN : Nat) : Bool := m.formOk && m.bigRingOk logN && m.rootOk logN

/-- Power with modulus, by the bits of e (fuel: a bound on its bit length). -/
def powMod (q : Nat) : Nat → Nat → Nat → Nat
  | 0, _, _ => 1 % q
  | fuel + 1, b, e =>
    if e = 0 then 1 % q
    else (if e % 2 = 1 then b else 1) * powMod q fuel (b * b % q) (e / 2) % q

/-! ### The modulus table (R29, R417) -/

/-- One 16-byte entry. -/
def parseEntry (l : List Byte) : ModEntry :=
  { q := fld l 0 4, w := byteAt l 4, a := byteAt l 5, b := byteAt l 6, eps := byteAt l 7, root := fld l 8 4 }

/-- The layout check of entries i, i+1, ... (n of them): the DETAIL of the first fault, or the entries. -/
def parseEntries : Nat → Nat → List Byte → Except Nat (List ModEntry)
  | 0, _, _ => .ok []
  | n + 1, i, l =>
    if l.length < 16 then .error (16 + 16 * i)
    else match firstNonZero (16 + 16 * i + 12) ((l.take 16).drop 12) with
      | some off => .error off
      | none => (parseEntries n (i + 1) (l.drop 16)).map fun r => parseEntry (l.take 16) :: r

/-- The modulus table at the front of `l`, or the DETAIL of its layout fault (R29), relative to the table. -/
def parseModTable (l : List Byte) : Except Nat ModTable :=
  if l.length < 16 then .error 16
  else match firstNonZero 4 ((l.take 16).drop 4) with
    | some off => .error off
    | none =>
      (parseEntries (byteAt l 0) 0 (l.drop 16)).map fun es =>
        { logN := byteAt l 1, lCount := byteAt l 2, kCount := byteAt l 3, entries := es }

def ModTable.count (t : ModTable) : Nat := t.entries.length

/-- Stage 1 of R22 for the table itself (R417). -/
def ModTable.countsOk (t : ModTable) : Bool :=
  decide (1 ≤ t.count ∧ t.count ≤ 80 ∧ 10 ≤ t.logN ∧ t.logN ≤ 17 ∧ t.lCount + t.kCount ≤ t.count) &&
  (if t.logN < 12 then decide (t.lCount = 0 ∧ t.kCount = 0)
   else decide (1 ≤ t.lCount ∧ t.lCount ≤ 60 ∧ t.kCount ≤ 20 ∧ t.lCount + t.kCount ≤ 72))

/-- Stage 2 of R22: index of the first entry whose form fails, or that repeats an earlier q (R23 to R26). -/
def badModulus (logN : Nat) : Nat → List Nat → List ModEntry → Option Nat
  | _, _, [] => none
  | i, seen, m :: r => if m.ok logN && !seen.contains m.q then badModulus logN (i + 1) (m.q :: seen) r else some i

/-- Modulus bits of the limbs, ciphertext and special together. -/
def ModTable.bits (t : ModTable) : Nat := sumL ((t.entries.take (t.lCount + t.kCount)).map (·.w))

/-- Stage 3 of R22: the policy ceiling (R31); rings of 2^10 and 2^11 have none. -/
def ModTable.ceilingOk (t : ModTable) (ceil : List Nat) : Bool :=
  decide (t.logN < 12) || decide (t.bits ≤ nth0 ceil (t.logN - 12))

/-- R22 for a table whose layout is sound. `envelope` is the rest of stage 1. -/
def ModTable.check (t : ModTable) (ceil : List Nat) (envelope : Bool) : Option Err :=
  if !(t.countsOk && envelope) then some (St.outOfPolicy, 0)
  else match badModulus t.logN 0 [] t.entries with
    | some i => some (St.modulusForm, i)
    | none => if t.ceilingOk ceil then none else some (St.outOfPolicy, 0)

/-- The table's entry i. -/
def ModTable.entry (t : ModTable) (i : Nat) : Option ModEntry := t.entries[i]?

def ModTable.qAt (t : ModTable) (i : Nat) : Nat := (t.entry i).elim 1 (·.q)

/-- Index of the bootstrapping ring's modulus: the lowest at or beyond L + K that LWE_MODIDX does not name (R20). -/
def ModTable.bootIdx (t : ModTable) (lweIdx : Nat) : Option Nat :=
  ((List.range t.count).drop (t.lCount + t.kCount)).find? fun i => i != lweIdx

/-! ### Envelope of a key set (R18, R20) -/

def dnumOk (dnum l : Nat) : Bool := decide (1 ≤ dnum ∧ dnum ≤ 8 ∧ dnum ≤ l)

/-- LWE dimension, bootstrapping ring and gadget length (R17, R20). -/
def lweOk (n : Nat) : Bool := decide (512 ≤ n ∧ n ≤ 2048) && n % 64 == 0
def bootOk (lweN logNb ell : Nat) : Bool := lweOk lweN && decide (10 ≤ logNb ∧ logNb ≤ 12 ∧ 1 ≤ ell ∧ ell ≤ 8)

/-! ### Sizes of seeded keys in bytes (R19, R20, R21) -/

def swkBytes (t : ModTable) (dnum : Nat) : Nat := 4 * dnum * (t.lCount + t.kCount) * 2 ^ t.logN
def bskRowBytes (logNb : Nat) : Nat := 4 * 2 ^ logNb
def lweKskBytes (logN ksEll : Nat) : Nat := 4 * 2 ^ logN * ksEll

end Sys2Proof.Machine
end

