-- ==== Sys2Proof/Machine/Commands.lean ====
section
/-! DEFINITION. The life of a fetched command: its entry's fields, the checks of R91, after references, fences, the hold for entropy, completion positions, and its final completion (R91 to R103, R292). -/

namespace Sys2Proof.Machine

/-! ### Fields of the entry (R91) -/

def Cmd.opcode (c : Cmd) : Nat := byteAt c.entry 0
def Cmd.ctrl (c : Cmd) : Nat := byteAt c.entry 1
def Cmd.after (c : Cmd) (k : Nat) : Nat := byteAt c.entry (4 + k)
def Cmd.handle (c : Cmd) (k : Nat) : Nat := fld c.entry (0x10 + 4 * k) 4
def Cmd.iova (c : Cmd) (k : Nat) : Nat := fld c.entry (0x20 + 8 * k) 8
def Cmd.len (c : Cmd) (k : Nat) : Nat := fld c.entry (0x40 + 4 * k) 4

/-- The class a command runs in: the numerically larger of its own and its ring's (R92). -/
def Cmd.cls (c : Cmd) (r : Ring) : Nat := max (c.ctrl % 4) r.cls

/-- The opcodes of R94. -/
def opcodes : List Nat := [0x01, 0x02, 0x03, 0x04, 0x05, 0x10, 0x11, 0x20, 0x21, 0x30, 0x40, 0x50, 0x60]

/-- Handles, then IOVAs, that an opcode uses. -/
def handlesUsed (op : Nat) : Nat :=
  if op = 0x01 then 3 else if op = 0x02 ∨ op = 0x03 then 2
  else if op = 0x04 ∨ op = 0x05 ∨ op = 0x10 ∨ op = 0x11 ∨ op = 0x50 then 1 else 0

def iovasUsed (op : Nat) : Nat :=
  if op = 0x10 then 4 else if op = 0x20 ∨ op = 0x21 then 2
  else if op = 0x03 ∨ op = 0x04 ∨ op = 0x11 ∨ op = 0x30 ∨ op = 0x40 ∨ op = 0x50 then 1 else 0

/-- The ARGS bytes that an opcode's home chapter names: first, last, reserved bits in each. -/
def argsUsed (op : Nat) : List (Nat × Nat × Nat) :=
  if op = 0x01 then [(0x50, 0x57, 0), (0x58, 0x58, 0xFE), (0x5C, 0x5F, 0)]
  else if op = 0x02 then [(0x50, 0x50, 0xFE)]
  else if op = 0x04 then [(0x50, 0x50, 0), (0x51, 0x51, 0xFE)]
  else if op = 0x10 then [(0x50, 0x55, 0), (0x60, 0x6C, 0), (0x6D, 0x6D, 0xFE)]
  else if op = 0x11 then [(0x50, 0x5F, 0)]
  else if op = 0x20 ∨ op = 0x21 then [(0x50, 0x55, 0), (0x56, 0x56, 0xFE), (0x58, 0x65, 0), (0x66, 0x66, 0xF8), (0x67, 0x6E, 0)]
  else if op = 0x40 then [(0x50, 0x50, 0)]
  else if op = 0x50 then [(0x50, 0x50, 0xFE), (0x58, 0x5F, 0)]
  else []

/-- Bits of entry byte `off`, from 0x50 on, that must be zero for an opcode. -/
def argReserved (op off : Nat) : Nat :=
  ((argsUsed op).find? fun a => decide (a.1 ≤ off ∧ off ≤ a.2.1)).elim 0xFF (·.2.2)

/-- The common fields in order of offset, each with whether it is at fault. An after distance is at fault when it reaches back past the last enable (R95). -/
def entryFaults (e : List Byte) (seq : Nat) : List (Nat × Bool) :=
  let op := byteAt e 0
  [(0x01, byteAt e 1 &&& (if op = 0x60 then 0xF0 else 0xF8) != 0), (0x02, byteAt e 2 != 0), (0x03, byteAt e 3 != 0)]
  ++ (List.range 4).map (fun k => (4 + k, decide (seq < byteAt e (4 + k))))
  ++ ((List.range 3).drop (handlesUsed op)).map (fun k => (0x10 + 4 * k, fld e (0x10 + 4 * k) 4 != 0))
  ++ (List.range 4).map (fun k => (0x1C + k, byteAt e (0x1C + k) != 0))
  ++ ((List.range 4).drop (iovasUsed op)).map (fun k => (0x20 + 8 * k, fld e (0x20 + 8 * k) 8 != 0))
  ++ (List.range 48).map (fun k => (0x50 + k, byteAt e (0x50 + k) &&& argReserved op (0x50 + k) != 0))

/-- The lowest offset at fault, among reserved and common fields (R91). -/
def commonFault (e : List Byte) (seq : Nat) : Option Err :=
  ((entryFaults e seq).find? (·.2)).map fun p => (St.badField, p.1)

/-! ### Finishing -/

/-- A command's work is over, with its status: it waits for its final completion (R99). -/
def State.finish (s : State) (ten lring seq : Nat) (e : Err) : State :=
  s.updCmd ten lring seq fun c => { c with phase := .finished, status := e.1, detail := e.2 % 2 ^ 16, endAt := s.now }

/-- Finishes a command if it is not finished yet. -/
def State.finishLive (s : State) (ten lring seq : Nat) (e : Err) : State :=
  match s.cmd? ten lring seq with
  | some c => if c.phase = .finished then s else s.finish ten lring seq e
  | none => s

/-- Charges modular operations to a command and to its tenant (R35, R98). -/
def State.chargeOps (s : State) (ten lring seq n : Nat) : State :=
  (s.charge ten 0 n).updCmd ten lring seq fun c => { c with ops := c.ops + n }

/-! ### Gates before the start -/

/-- Completion positions neither written and unread nor reserved (R102). -/
def Ring.freePositions (r : Ring) : Nat := 2 ^ r.logEntries - (r.cplPos - r.cqHead) - r.reserved

/-- What the after references say: wait for a named command, fail with the first named command that failed, or go. -/
inductive Gate where
  | wait
  | fail (e : Err)
  | go
deriving DecidableEq, Repr

/-- Status of an earlier command of the ring: none while it has no final completion. -/
def Ring.finalStatus (r : Ring) (seq : Nat) : Option Nat :=
  if r.cmds.any fun c => c.seq == seq then none else some (((r.hist.find? fun p => p.1 == seq).map (·.2)).getD St.ok)

/-- After references (R95), in the order of the fields. -/
def Ring.afterGate (r : Ring) (c : Cmd) : Gate :=
  let ds := ((List.range 4).map c.after).filter (· != 0)
  if ds.any fun d => decide (c.seq < d) then .fail (St.badField, ((entryFaults c.entry c.seq).find? (·.2)).elim 4 (·.1))
  else if ds.any fun d => r.finalStatus (c.seq - d) == none then .wait
  else match ds.find? fun d => r.finalStatus (c.seq - d) != some St.ok with
    | some d => .fail (St.predecessorFailed, d)
    | none => .go

/-- Whether an unfinished or unwritten fence stands before the command (R96). -/
def Ring.behindFence (r : Ring) (c : Cmd) : Bool := r.cmds.any fun x => decide (x.seq < c.seq) && x.opcode == 0x60

/-- The DRBG can serve: seeded, and no reseed waits for its pool (R292). -/
def State.canServe (s : State) : Bool := s.entropy.seeded && !s.entropy.reseeding

/-- The device starts commands: READY, in D0, and not draining for a warm reset (R372, R378). -/
def State.starts (s : State) (ten : Nat) : Bool :=
  s.power.phase == .ready && s.power.warmDrain == none && !(s.power.flrs.any fun f => f.ten == ten)

/-- Tries to start a command (R91, R95, R96, R102, R292): it waits, is refused, is held, or starts. -/
def State.tryStart (s : State) (ten lring seq op : Nat) (positions : State → Nat) (check : State → Cmd → Option Err)
    (needs : State → Cmd → Bool) (start : State → Cmd → State) : State :=
  match s.cmd? ten lring seq with
  | none => s
  | some c =>
    let r := s.ring ten lring
    if c.opcode ≠ op ∨ c.phase ≠ .waiting ∨ r.state ≠ .live ∨ !s.starts ten ∨ r.behindFence c then s
    else match r.afterGate c with
      | .wait => s
      | .fail e => s.finish ten lring seq e
      | .go =>
        match (commonFault c.entry c.seq).orElse fun _ => check s c with
        | some e => s.finish ten lring seq e
        | none =>
          if needs s c && !s.canServe then s.updCmd ten lring seq fun c => { c with phase := .held s.now }
          else if r.freePositions < positions s then s.updRing ten lring fun r => { r with cplFull := true }
          else
            let s := s.updRing ten lring fun r => { r with cplFull := false, reserved := r.reserved + positions s }
            let s := s.updCmd ten lring seq fun c => { c with phase := .started, startAt := some s.now, reserved := positions s }
            start s c

def noCheck (_ : State) (_ : Cmd) : Option Err := none
def noNeed (_ : State) (_ : Cmd) : Bool := false
def onePosition (_ : State) : Nat := 1

/-- Acts on a started command of one opcode whose work is still to be done. -/
def State.onStarted (s : State) (ten lring seq op : Nat) (f : State → Cmd → State) : State :=
  match s.cmd? ten lring seq with
  | some c => if c.opcode = op ∧ c.phase = .started ∧ !c.runDone then f s c else s
  | none => s

/-- The work of a started command has ended with a result; COMMAND_FINISH finishes it. -/
def State.done (s : State) (ten lring seq : Nat) (e : Err) : State :=
  s.updCmd ten lring seq fun c => { c with runDone := true, status := e.1, detail := e.2 % 2 ^ 16 }

/-- Writes a result to host memory and ends the work: a refused piece is a translation fault, after which the output is undefined (R418). -/
def State.doneWriting (s : State) (h : HostView) (ten lring seq iova : Nat) (bytes : List Byte) (e : Err) : State :=
  let q := s.hostWrite h ten iova bytes
  if q.2 then q.1.done ten lring seq e
  else (q.1.emit (.dmaUndefined ten iova bytes.length)).done ten lring seq (St.translationFault, 0)

/-! ### Interrupts (R103, R104, R370) -/

/-- Sends a ring's interrupt, or keeps it pending while its function is in D3hot. -/
def State.interrupt (s : State) (ten vector : Nat) : State :=
  if s.power.vfD3.contains ten then
    if s.msixHeld.contains (ten, vector) then s else { s with msixHeld := s.msixHeld ++ [(ten, vector)] }
  else s.emit (.msix ten vector)

/-- An eligible completion has been written. -/
def State.eligible (s : State) (ten lring : Nat) : State :=
  let r := s.ring ten lring
  if r.modUs = 0 ∨ r.modSeen + 1 ≥ max 1 r.modCount then
    (s.updRing ten lring fun r => { r with modSeen := 0, modSince := none }).interrupt ten r.vector
  else s.updRing ten lring fun r => { r with modSeen := r.modSeen + 1, modSince := some (r.modSince.getD s.now) }

/-! ### Completion entries (R98) -/

/-- PHASE of completion position p. -/
def phaseBit (logEntries p : Nat) : Nat := if p / 2 ^ logEntries % 2 = 0 then 1 else 0

/-- The 32 bytes of a completion entry. -/
def completionBytes (status flags detail seq : Nat) (tag : List Byte) (startUs runNs ops : Nat) : List Byte :=
  toLE 1 status ++ toLE 1 flags ++ toLE 2 detail ++ toLE 4 seq ++ tag ++ toLE 4 startUs ++ toLE 4 runNs ++ toLE 8 ops

/-- IOVA of the ring's next completion entry. -/
def Ring.cplIova (r : Ring) : Nat := r.cplBase + 32 * (r.cplPos % 2 ^ r.logEntries)

/-- A finished command's final completion entry. -/
def Cmd.finalBytes (c : Cmd) (r : Ring) : List Byte :=
  completionBytes c.status (phaseBit r.logEntries r.cplPos + (if c.replayed then 4 else 0)) c.detail c.seq (slice c.entry 8 8)
    (c.startAt.elim 0 fun t => t / usec % 2 ^ 32) (c.startAt.elim 0 fun t => capAt (2 ^ 32 - 1) (c.endAt - t)) c.ops

/-- A ring enters ERROR and the record names ring and IOVA (R85). -/
def State.ringError (s : State) (ten lring iova tail : Nat) : State :=
  (s.updRing ten lring fun r => { r with state := if r.state = .draining then .draining else .error, fromError := true }).logRec
    Rec.ring 0 ten lring iova tail

/-- References of a generation: sessions bound to it and EVALs in flight on it (R129). -/
def State.genRefs (s : State) (ten model gen : Nat) : Nat :=
  ((s.ten ten).sessions.filter fun x => x.2.active && x.2.model == model && x.2.gen == gen).length
  + sumL (s.rings.map fun r => if r.1 / 256 = ten then
      (r.2.cmds.filter fun c => c.eval.any fun e => e.model == model && e.gen == gen).length else 0)

/-- The newest ready generation of a model handle: its highest number. -/
def Model.newest (m : Model) : Option (Nat × Gen) := m.gens.getLast?

/-- Frees the weight shelves pinned for a generation (R125). -/
def unpinGen (ten model gen : Nat) (c : Comb) : Comb :=
  { c with shelves := c.shelves.filter fun r => !(r.ten == ten && r.kind == .pinW model gen) }

/-- Frees one generation: its DRAM, its pins, its entry. -/
def State.freeGen (s : State) (ten model gen : Nat) : State :=
  match ((Tbl.look (s.ten ten).models model).bind fun m => Tbl.look m.gens gen) with
  | none => s
  | some g =>
    let s := (s.freeObj g.obj).updComb g.home (unpinGen ten model gen)
    s.updTen ten fun x => { x with models := Tbl.adjust x.models model fun m => { m with gens := Tbl.del m.gens gen } }

/-- Retires every generation of a handle that has no reference and is not the newest, or whose handle is retired (R129, R130); a retired handle whose last generation is freed is reusable. -/
def State.sweepModel (s : State) (ten model : Nat) : State :=
  match Tbl.look (s.ten ten).models model with
  | none => s
  | some m =>
    let dead := (m.gens.map (·.1)).filter fun g =>
      (m.retired || m.newest.any fun n => n.1 != g) && s.genRefs ten model g == 0
    let s := dead.foldl (fun s g => s.freeGen ten model g) s
    match Tbl.look (s.ten ten).models model with
    | some m => if m.retired && m.gens.isEmpty && m.loading.isEmpty then
        s.updTen ten fun x => { x with models := Tbl.del x.models model } else s
    | none => s

def State.sweepModels (s : State) (ten : Nat) : State :=
  ((s.ten ten).models.map (·.1)).foldl (fun s m => s.sweepModel ten m) s

/-- What the final completion of a command brings about beside the entry: the meter record it took goes (R363), the ring's fence span, its history, its positions. -/
def State.retireCmd (s : State) (ten lring : Nat) (c : Cmd) (written : Bool) : State :=
  let s := s.updRing ten lring fun r => { r with
    cmds := r.cmds.filter fun x => x.seq != c.seq
    reserved := r.reserved - c.reserved
    cplPos := r.cplPos + b2n written
    hist := ((c.seq, c.status) :: r.hist).take 256
    spanFailed := if c.opcode = 0x60 then false else r.spanFailed || c.status != St.ok }
  let s := if written && c.opcode == 0x40 && byteAt c.entry 0x50 == 1 && c.status == St.ok && c.detail != 0xFFFF then
      { s with meters := { s.meters with held := s.meters.held.drop 1 } } else s
  s.sweepModels ten

end Sys2Proof.Machine
end

