-- ==== Sys2Proof/Machine/Shelves.lean ====
section
/-! DEFINITION. Shelves: caching, eviction, class-0 pins and weight pins (R122 to R125). -/

namespace Sys2Proof.Machine

def shelvesPerComb : Nat := 192

/-- Shelves a number of bytes uses. -/
def shelvesFor (bytes : Nat) : Nat := ceilDiv bytes shelfBytes

def ShelfRun.isC0 (r : ShelfRun) : Bool := match r.kind with | .pinC0 _ _ _ => true | _ => false
def ShelfRun.isW (r : ShelfRun) : Bool := match r.kind with | .pinW _ _ => true | _ => false
def ShelfRun.isCached (r : ShelfRun) : Bool := match r.kind with | .cached _ _ => true | _ => false

def sumShelves (l : List ShelfRun) : Nat := sumL (l.map (·.count))

/-- Shelves that a tenant's class-0 pins hold on a comb. -/
def Comb.c0Pins (c : Comb) (ten : Nat) : Nat := sumShelves (c.shelves.filter fun r => r.ten == ten && r.isC0)

def Comb.wPins (c : Comb) (ten : Nat) : Nat := sumShelves (c.shelves.filter fun r => r.ten == ten && r.isW)

/-- Shelves held back on a comb for the class-0 pins of every tenant but `not`: the larger of its C0_SHELVES and its pins (R124). -/
def State.heldBack (s : State) (comb : Nat) (not : Option Nat) : Nat :=
  let c := s.comb comb
  sumL ((List.range 512).map fun t => if some t = not then 0 else max (nth0 (s.tnSet t).c0Shelves comb) (c.c0Pins t))

/-- Cached runs that no segment references may be evicted (R123). -/
def ShelfRun.evictable (r : ShelfRun) : Bool := r.isCached && r.refs.isEmpty

/-- Shelves that cannot be had for a purpose: those held back, weight pins, and cached shelves in use; `own` counts the tenant's own class-0 pins. -/
def State.shelfRoom (s : State) (comb : Nat) (not : Option Nat) : Nat :=
  let c := s.comb comb
  shelvesPerComb - (s.heldBack comb not + not.elim 0 (fun t => c.c0Pins t)
    + sumShelves (c.shelves.filter fun r => r.isW || (r.isCached && !r.evictable)))

/-- The least recently used evictable run. -/
def Comb.lru (c : Comb) : Option ShelfRun :=
  (c.shelves.filter ShelfRun.evictable).foldl (fun b r =>
    match b with
    | none => some r
    | some x => if r.lastUse < x.lastUse then some r else some x) none

/-- Evicts cached runs in least-recently-used order until they take at most `lim` shelves (fuel: the number of runs). -/
def Comb.evictTo (lim : Nat) : Nat → Comb → Comb
  | 0, c => c
  | n + 1, c =>
    if sumShelves (c.shelves.filter ShelfRun.evictable) ≤ lim then c
    else match c.lru with
      | some r => Comb.evictTo lim n { c with shelves := c.shelves.erase r }
      | none => c

/-- Adds a run of k shelves, evicting what must go: `room` shelves were there for it, evictable ones included. -/
def Comb.addRun (c : Comb) (room k : Nat) (r : ShelfRun) : Comb :=
  let c := c.evictTo (room - k) c.shelves.length
  { c with shelves := c.shelves ++ [r] }

/-- A run that caches or pins a component of a key set. -/
def ShelfRun.holds (r : ShelfRun) (ten keyset comp : Nat) : Bool :=
  r.ten == ten && (match r.kind with
    | .cached k i => k == keyset && i == comp
    | .pinC0 k i _ => k == keyset && i == comp
    | .pinW _ _ => false)

/-- A component is streamed on a comb: it is cached if shelves can be had, and its run counts as used now (R122). -/
def State.cacheComp (s : State) (comb ten keyset comp bytes : Nat) : State :=
  let c := s.comb comb
  if c.shelves.any fun r => r.holds ten keyset comp then
    s.updComb comb fun c => { c with shelves := c.shelves.map fun r => if r.holds ten keyset comp then { r with lastUse := s.now } else r }
  else
    let room := s.shelfRoom comb none
    let k := shelvesFor bytes
    if k ≤ room then
      s.updComb comb fun c => c.addRun room k { ten := ten, kind := .cached keyset comp, count := k, lastUse := s.now, refs := [] }
    else s

def addRef (ten keyset comp seg : Nat) (r : ShelfRun) : ShelfRun :=
  if r.holds ten keyset comp then { r with refs := if r.refs.contains seg then r.refs else seg :: r.refs } else r

/-- References of a segment run to the shelves of a component (R123). -/
def State.refComp (s : State) (comb ten keyset comp seg : Nat) : State :=
  s.updComb comb fun c => { c with shelves := c.shelves.map (addRef ten keyset comp seg) }

def State.unrefSeg (s : State) (seg : Nat) : State :=
  { s with combs := s.combs.map fun c => (c.1, { c.2 with shelves := c.2.shelves.map fun r => { r with refs := r.refs.filter (· != seg) } }) }

/-- A class-0 pin also serves another session. -/
def ShelfRun.addSession (r : ShelfRun) (session : Nat) : ShelfRun :=
  match r.kind with
  | .pinC0 k i l => { r with kind := .pinC0 k i (session :: l) }
  | _ => r

/-- Pins one component for a class-0 session, or none where R124 stops. -/
def State.pinComp (s : State) (comb ten keyset comp bytes session : Nat) : Option State :=
  let c := s.comb comb
  let k := shelvesFor bytes
  match c.shelves.find? fun r => r.isC0 && r.holds ten keyset comp with
  | some r0 =>
    some (s.updComb comb fun c => { c with shelves := c.shelves.map fun r => if r = r0 then r.addSession session else r })
  | none =>
    if c.c0Pins ten + k > nth0 (s.tnSet ten).c0Shelves comb then none
    else
      let own := sumShelves (c.shelves.filter fun r => r.holds ten keyset comp)
      let s' := s.updComb comb fun c => { c with shelves := c.shelves.filter fun r => !r.holds ten keyset comp }
      let refs := (c.shelves.filter fun r => r.holds ten keyset comp).flatMap (·.refs)
      let room := s'.shelfRoom comb (some ten)
      if k ≤ room ∨ own = k then
        some (s'.updComb comb fun c => c.addRun room k
          { ten := ten, kind := .pinC0 keyset comp [session], count := k, lastUse := s.now, refs := refs })
      else none

/-- Pins the components of a key set in directory order until one does not fit (R124). -/
def State.pinComps (s : State) (comb ten keyset session : Nat) : Nat → List KeyComp → State
  | _, [] => s
  | i, k :: r =>
    match s.pinComp comb ten keyset i k.bytes session with
    | some s' => State.pinComps s' comb ten keyset session (i + 1) r
    | none => s

/-- Releases the pins of a class-0 session (R124): a run that no session pins any more is free. -/
def unpinSession (ten session : Nat) (c : Comb) : Comb :=
  { c with shelves := c.shelves.filterMap fun r =>
      if r.ten = ten then
        match r.kind with
        | .pinC0 k i l =>
          let l' := l.filter (· != session)
          if l'.isEmpty && l.contains session then none else some { r with kind := .pinC0 k i l' }
        | _ => some r
      else some r }

def State.unpinSessions (s : State) (ten session : Nat) : State :=
  { s with combs := s.combs.map fun c => (c.1, unpinSession ten session c.2) }

/-- Cached and pinned components of a key set that is gone are free. -/
def State.dropKeyShelves (s : State) (ten keyset : Nat) : State :=
  { s with combs := s.combs.map fun c => (c.1, { c.2 with shelves := c.2.shelves.filter fun r =>
      !(r.ten == ten && (match r.kind with
        | .cached k _ => k == keyset
        | .pinC0 k _ _ => k == keyset
        | .pinW _ _ => false)) }) }

/-- Pins a generation's weights in k shelves of its home comb: quota, then capacity (R125). -/
def State.pinWeights (s : State) (comb ten model gen k : Nat) : Except Err State :=
  let c := s.comb comb
  if c.wPins ten + k > nth0 (s.tnSet ten).wShelves comb then .error (St.quota, 0)
  else
    let room := s.shelfRoom comb none
    if k > room then .error (St.noCapacity, 0)
    else .ok (s.updComb comb fun c => c.addRun room k
      { ten := ten, kind := .pinW model gen, count := k, lastUse := s.now, refs := [] })

end Sys2Proof.Machine
end

