-- ==== Sys2Proof/Machine/Hash.lean ====
section
/-! DEFINITION. SHAKE128 (FIPS 202), SHA-256, SHA-384, SHA-512 (FIPS 180-4), HMAC and HKDF over SHA-384: the published functions that R236, R277, R281 and R314 name (log 19). -/

namespace Sys2Proof.Machine

/-! ### Keccak and SHAKE128. A state is 25 lanes of 64 bits, lane x + 5y. -/

def lane (a : List Nat) (x y : Nat) : Nat := nth0 a (x % 5 + 5 * (y % 5))
def rotl64 (v n : Nat) : Nat := ((v <<< n) ||| (v >>> (64 - n))) % 2 ^ 64
def rhoOffsets : List Nat := [0, 1, 62, 28, 27, 36, 44, 6, 55, 20, 3, 10, 43, 25, 39, 41, 45, 15, 21, 8, 18, 2, 61, 56, 14]
def iotaConsts : List Nat :=
  [0x0000000000000001, 0x0000000000008082, 0x800000000000808A, 0x8000000080008000, 0x000000000000808B, 0x0000000080000001,
   0x8000000080008081, 0x8000000000008009, 0x000000000000008A, 0x0000000000000088, 0x0000000080008009, 0x000000008000000A]
  ++ [0x000000008000808B, 0x800000000000008B, 0x8000000000008089, 0x8000000000008003, 0x8000000000008002, 0x8000000000000080,
   0x000000000000800A, 0x800000008000000A, 0x8000000080008081, 0x8000000000008080, 0x0000000080000001, 0x8000000080008008]

def keccakTheta (a : List Nat) : List Nat :=
  let c := (List.range 5).map fun x => lane a x 0 ^^^ lane a x 1 ^^^ lane a x 2 ^^^ lane a x 3 ^^^ lane a x 4
  (List.range 25).map fun i => nth0 a i ^^^ nth0 c ((i % 5 + 4) % 5) ^^^ rotl64 (nth0 c ((i % 5 + 1) % 5)) 1

/-- The lane that the pi step brings to lane i is lane (x + 3y, x). -/
def keccakRhoPi (a : List Nat) : List Nat :=
  (List.range 25).map fun i =>
    let j := (i % 5 + 3 * (i / 5)) % 5 + 5 * (i % 5)
    rotl64 (nth0 a j) (nth0 rhoOffsets j)

def keccakChi (a : List Nat) : List Nat :=
  (List.range 25).map fun i =>
    nth0 a i ^^^ ((2 ^ 64 - 1 - lane a (i % 5 + 1) (i / 5)) &&& lane a (i % 5 + 2) (i / 5))

def keccakRound (a : List Nat) (rc : Nat) : List Nat :=
  let b := keccakChi (keccakRhoPi (keccakTheta a))
  b.set 0 (nth0 b 0 ^^^ rc)

def keccakF (a : List Nat) : List Nat := iotaConsts.foldl keccakRound a

/-- Absorbs one 168-byte block. -/
def shakeAbsorb (a : List Nat) (block : List Byte) : List Nat :=
  keccakF ((List.range 25).map fun i => nth0 a i ^^^ (if i < 21 then fld block (8 * i) 8 else 0))

/-- The padded message: suffix 1111, then the pad of SHAKE128's rate. -/
def shakePad (m : List Byte) : List Byte :=
  let n := 168 - m.length % 168
  m ++ (if n = 1 then [0x9F#8] else 0x1F#8 :: zeros (n - 2) ++ [0x80#8])

def shakeInit (m : List Byte) : List Nat :=
  (chunks 168 (m.length + 168) (shakePad m)).foldl shakeAbsorb (List.replicate 25 0)

def shakeBlock (a : List Nat) : List Byte := (List.range 21).flatMap fun i => toLE 8 (nth0 a i)

/-- The first n blocks of output. -/
def shakeBlocks : Nat → List Nat → List Byte
  | 0, _ => []
  | n + 1, a => shakeBlock a ++ shakeBlocks n (keccakF a)

/-- len bytes of SHAKE128(m). -/
def shake128 (m : List Byte) (len : Nat) : List Byte := (shakeBlocks (len / 168 + 1) (shakeInit m)).take len

/-- The first n words that the rejection of R236 accepts, from the output blocks of a state (fuel: blocks squeezed). -/
def acceptWords (q w : Nat) : Nat → Nat → List Nat → List Nat
  | 0, _, _ => []
  | fuel + 1, n, a =>
    if n = 0 then []
    else
      let ok := (((words 4 (shakeBlock a)).map (· % 2 ^ w)).filter (· < q)).take n
      ok ++ acceptWords q w fuel (n - ok.length) (keccakF a)

/-- n words of an a-half or of a mask: SHAKE128 of the input, rejected under q and w (R236, R237). The fuel of 64 blocks and one block per word is past what the rejection needs (log 21). -/
def regenWords (input : List Byte) (q w n : Nat) : List Nat := acceptWords q w (n + 64) n (shakeInit input)

/-! ### SHA-2. Parameterised by the word size: 32 for SHA-256, 64 for SHA-384 and SHA-512. -/

def sha256K : List Nat :=
  [0x428a2f98, 0x71374491, 0xb5c0fbcf, 0xe9b5dba5, 0x3956c25b, 0x59f111f1, 0x923f82a4, 0xab1c5ed5, 0xd807aa98, 0x12835b01, 0x243185be, 0x550c7dc3, 0x72be5d74, 0x80deb1fe, 0x9bdc06a7, 0xc19bf174]
  ++ [0xe49b69c1, 0xefbe4786, 0x0fc19dc6, 0x240ca1cc, 0x2de92c6f, 0x4a7484aa, 0x5cb0a9dc, 0x76f988da, 0x983e5152, 0xa831c66d, 0xb00327c8, 0xbf597fc7, 0xc6e00bf3, 0xd5a79147, 0x06ca6351, 0x14292967]
  ++ [0x27b70a85, 0x2e1b2138, 0x4d2c6dfc, 0x53380d13, 0x650a7354, 0x766a0abb, 0x81c2c92e, 0x92722c85, 0xa2bfe8a1, 0xa81a664b, 0xc24b8b70, 0xc76c51a3, 0xd192e819, 0xd6990624, 0xf40e3585, 0x106aa070]
  ++ [0x19a4c116, 0x1e376c08, 0x2748774c, 0x34b0bcb5, 0x391c0cb3, 0x4ed8aa4a, 0x5b9cca4f, 0x682e6ff3, 0x748f82ee, 0x78a5636f, 0x84c87814, 0x8cc70208, 0x90befffa, 0xa4506ceb, 0xbef9a3f7, 0xc67178f2]

/-- Integer cube root of x, found bit by bit from the top (fuel bits). -/
def cbrtBits (x : Nat) : Nat → Nat → Nat
  | 0, r => r
  | n + 1, r => let r' := r + 2 ^ n
                cbrtBits x n (if r' * r' * r' ≤ x then r' else r)

/-- Whether n is prime, by trial division below 32 (for n below 1,024). -/
def smallPrime (n : Nat) : Bool := decide (1 < n) && (List.range 32).all fun d => decide (d < 2 ∨ n ≤ d) || n % d != 0

/-- The 80 constants of SHA-512: the first 64 fraction bits of the cube roots of the first 80 primes. -/
def sha512K : List Nat := ((List.range 410).filter smallPrime).map fun p => cbrtBits (p * 2 ^ 192) 70 0 % 2 ^ 64

structure ShaParams where
  bits : Nat
  k : List Nat
  s0 : Nat × Nat × Nat
  s1 : Nat × Nat × Nat
  b0 : Nat × Nat × Nat
  b1 : Nat × Nat × Nat
deriving DecidableEq, Repr

def sha256P : ShaParams := { bits := 32, k := sha256K, s0 := (7, 18, 3), s1 := (17, 19, 10), b0 := (2, 13, 22), b1 := (6, 11, 25) }
def sha512P : ShaParams := { bits := 64, k := sha512K, s0 := (1, 8, 7), s1 := (19, 61, 6), b0 := (28, 34, 39), b1 := (14, 18, 41) }

def rotr (n v r : Nat) : Nat := ((v >>> r) ||| (v <<< (n - r))) % 2 ^ n
def sigmaRR (n : Nat) (p : Nat × Nat × Nat) (v : Nat) : Nat := rotr n v p.1 ^^^ rotr n v p.2.1 ^^^ rotr n v p.2.2
def sigmaRS (n : Nat) (p : Nat × Nat × Nat) (v : Nat) : Nat := rotr n v p.1 ^^^ rotr n v p.2.1 ^^^ (v >>> p.2.2)

/-- The message schedule, newest word first: n more words. -/
def shaSchedule (p : ShaParams) : Nat → List Nat → List Nat
  | 0, w => w
  | n + 1, w =>
    shaSchedule p n ((sigmaRS p.bits p.s1 (nth0 w 1) + nth0 w 6 + sigmaRS p.bits p.s0 (nth0 w 14) + nth0 w 15) % 2 ^ p.bits :: w)

def shaRound (p : ShaParams) (h : List Nat) (kw : Nat × Nat) : List Nat :=
  let m := 2 ^ p.bits
  let e := nth0 h 4
  let a := nth0 h 0
  let ch := (e &&& nth0 h 5) ^^^ ((m - 1 - e) &&& nth0 h 6)
  let t1 := nth0 h 7 + sigmaRR p.bits p.b1 e + ch + kw.1 + kw.2
  let maj := (a &&& nth0 h 1) ^^^ (a &&& nth0 h 2) ^^^ (nth0 h 1 &&& nth0 h 2)
  let t2 := sigmaRR p.bits p.b0 a + maj
  [(t1 + t2) % m, a, nth0 h 1, nth0 h 2, (nth0 h 3 + t1) % m, e, nth0 h 5, nth0 h 6]

def shaBlock (p : ShaParams) (h : List Nat) (block : List Byte) : List Nat :=
  let w0 := ((chunks (p.bits / 8) 16 block).map beNat).reverse
  let w := (shaSchedule p (p.k.length - 16) w0).reverse
  List.zipWith (fun x y => (x + y) % 2 ^ p.bits) h ((p.k.zip w).foldl (shaRound p) h)

/-- Merkle-Damgard padding to blocks of 16 words, with the length in two words. -/
def shaPad (p : ShaParams) (m : List Byte) : List Byte :=
  let b := p.bits * 2
  let l := p.bits / 4
  let z := (b - (m.length + 1 + l) % b) % b
  m ++ 0x80#8 :: zeros z ++ toBE l (8 * m.length)

def sha2 (p : ShaParams) (iv : List Nat) (len : Nat) (m : List Byte) : List Byte :=
  let padded := shaPad p m
  (((chunks (p.bits * 2) padded.length padded).foldl (shaBlock p) iv).flatMap (toBE (p.bits / 8))).take len

def sha256 : List Byte → List Byte :=
  sha2 sha256P [0x6a09e667, 0xbb67ae85, 0x3c6ef372, 0xa54ff53a, 0x510e527f, 0x9b05688c, 0x1f83d9ab, 0x5be0cd19] 32
def sha384 : List Byte → List Byte :=
  sha2 sha512P [0xcbbb9d5dc1059ed8, 0x629a292a367cd507, 0x9159015a3070dd17, 0x152fecd8f70e5939, 0x67332667ffc00b31, 0x8eb44a8768581511,
    0xdb0c2e0d64f98fa7, 0x47b5481dbefa4fa4] 48
def sha512 : List Byte → List Byte :=
  sha2 sha512P [0x6a09e667f3bcc908, 0xbb67ae8584caa73b, 0x3c6ef372fe94f82b, 0xa54ff53a5f1d36f1, 0x510e527fade682d1, 0x9b05688c2b3e6c1f,
    0x1f83d9abfb41bd6b, 0x5be0cd19137e2179] 64

/-! ### HMAC-SHA-384 and HKDF-SHA-384 -/

def xorBytes (a b : List Byte) : List Byte := List.zipWith (· ^^^ ·) a b

def hmac384 (key m : List Byte) : List Byte :=
  let k0 := if key.length > 128 then sha384 key else key
  let k := k0 ++ zeros (128 - k0.length)
  sha384 (k.map (· ^^^ 0x5C#8) ++ sha384 (k.map (· ^^^ 0x36#8) ++ m))

/-- HKDF blocks i, i+1, ... (n of them). -/
def hkdfBlocks (prk info : List Byte) : Nat → Nat → List Byte → List Byte
  | 0, _, _ => []
  | n + 1, i, last =>
    let b := hmac384 prk (last ++ info ++ toLE 1 i)
    b ++ hkdfBlocks prk info n (i + 1) b

def hkdf384 (ikm salt info : List Byte) (len : Nat) : List Byte :=
  (hkdfBlocks (hmac384 salt ikm) info (len / 48 + 1) 1 []).take len

end Sys2Proof.Machine
end

