-- ==== Sys2Proof/Machine/Operands.lean ====
section
/-! DEFINITION. Cell instructions: fields, operand fields, literals, effective addresses, and the words an instruction reads and writes (R164 to R171, R192, R199 to R210). -/

namespace Sys2Proof.Machine

/-! ### The common layout (R164) -/

/-- The 256 bits of an instruction as a number. -/
structure Ins where
  w : Nat
deriving DecidableEq, Repr

/-- Reads a stored instruction. -/
def ins (raw : InsWord) : Ins := { w := raw.toNat }

def Ins.op (i : Ins) : Nat := bits i.w 248 8
def Ins.modIdx (i : Ins) : Nat := bits i.w 242 6
def Ins.wqa (i : Ins) : Nat := bits i.w 236 6
def Ins.wca (i : Ins) : Nat := bits i.w 232 4
def Ins.wqb (i : Ins) : Nat := bits i.w 226 6
def Ins.wcb (i : Ins) : Nat := bits i.w 222 4
def Ins.pq (i : Ins) : Nat := bits i.w 216 6
def Ins.pe (i : Ins) : Bool := bitOf i.w 215
def Ins.chk (i : Ins) : Bool := bitOf i.w 214

/-- Bits [lo + n - 1 : lo] of the instruction, for SPEC fields and literals. -/
def Ins.field (i : Ins) (lo n : Nat) : Nat := bits i.w lo n
def Ins.flag (i : Ins) (b : Nat) : Bool := bitOf i.w b

/-- The opcodes of R168. -/
def Op.wait : Nat := 0x01
def Op.post : Nat := 0x02
def Op.jump : Nat := 0x03
def Op.loop : Nat := 0x04
def Op.handoff : Nat := 0x05
def Op.halt : Nat := 0x06
def Op.setmod : Nat := 0x07
def Op.setadv : Nat := 0x08
def Op.timer : Nat := 0x09
def Op.move : Nat := 0x10
def Op.win : Nat := 0x11
def Op.mact : Nat := 0x20
def Op.macv : Nat := 0x21
def Op.nttf : Nat := 0x28
def Op.ntti : Nat := 0x29
def Op.tadd : Nat := 0x30
def Op.tsub : Nat := 0x31
def Op.tmul : Nat := 0x32
def Op.tmulc : Nat := 0x33
def Op.tperm : Nat := 0x34
def Op.tdec : Nat := 0x35
def Op.tresc : Nat := 0x36
def Op.tred : Nat := 0x37
def Op.skim : Nat := 0x38
def Op.noise : Nat := 0x40

def cellOpcodes : List Nat :=
  [0x01, 0x02, 0x03, 0x04, 0x05, 0x06, 0x07, 0x08, 0x09, 0x10, 0x11, 0x20, 0x21, 0x28, 0x29, 0x30, 0x31, 0x32, 0x33, 0x34, 0x35, 0x36,
   0x37, 0x38, 0x40]

/-- Engine of an opcode: 0 issue unit, 1 movement, 2 MAC array, 3 NTT pipeline, 4 trowel, 5 skim unit, 6 noise port. -/
def engineOf (op : Nat) : Nat :=
  if op < 0x10 ∨ op = 0x11 then 0
  else if op = 0x10 then 1
  else if op = 0x20 ∨ op = 0x21 then 2
  else if op = 0x28 ∨ op = 0x29 then 3
  else if 0x30 ≤ op ∧ op ≤ 0x37 then 4
  else if op = 0x38 then 5
  else 6

/-! ### Operand fields (R169) -/

structure Opnd where
  addr : Nat
  len : Nat
  stride : Int
  adv : Nat
  remote : Bool
  group : Nat
deriving DecidableEq, Repr

/-- The 64-bit operand field k: 0 at [191:128], 1 at [127:64], 2 at [63:0]. -/
def Ins.opRaw (i : Ins) (k : Nat) : Nat := bits i.w (64 * (2 - k)) 64

def parseOpnd (v : Nat) : Opnd :=
  { addr := bits v 46 18, len := bits v 28 18, stride := signed 16 (bits v 12 16), adv := bits v 8 4, remote := bitOf v 7, group := bits v 0 7 }

def Ins.opnd (i : Ins) (k : Nat) : Opnd := parseOpnd (i.opRaw k)

/-! ### Effective addresses (R171) -/

/-- Completed passes of the enclosing LOOP at a depth, the innermost counting as 0; zero when there is none. -/
def Cell.passAt (c : Cell) (level : Nat) : Nat := (c.loops[level]?).elim 0 (·.pass)

def Cell.effective (c : Cell) (o : Opnd) : Int :=
  let r := Tbl.lookD c.adv o.adv (0, 0)
  (o.addr : Int) + r.1 * (c.passAt r.2 : Int)

/-- The modulus index an arithmetic instruction uses (R179). -/
def Cell.modIndex (c : Cell) (i : Ins) : Nat := i.modIdx + c.selBase + c.selStep * c.passAt c.selLevel

/-! ### Runs of words -/

/-- Word addresses of n elements from ea on. -/
def runAddrs (ea stride : Int) (n : Nat) : List Int := (List.range n).map fun k => ea + (k : Int) * stride

/-- Whether a run lies in the scratchpad: its lowest and highest element (R169). -/
def runInside (ea stride : Int) (n lim : Nat) : Bool :=
  n == 0 || (decide (0 ≤ ea ∧ ea < lim) && decide (0 ≤ ea + ((n - 1 : Nat) : Int) * stride ∧ ea + ((n - 1 : Nat) : Int) * stride < lim))

/-- The cell that holds an operand: a group index's cell, or the cell itself. -/
def holderOf (cells : List Nat) (cell : Nat) (o : Opnd) : Nat := if o.remote then cells.getD o.group cell else cell

/-! ### SPEC fields of arithmetic instructions -/

def Ins.tile (i : Ins) : Nat := i.field 212 2
def Ins.colmod (i : Ins) : Bool := i.flag 211
def Ins.zero (i : Ins) : Bool := i.flag 210
def Ins.flush (i : Ins) : Bool := i.flag 209
def Ins.fdest (i : Ins) : Bool := i.flag 208
def Ins.keepb (i : Ins) : Bool := i.flag 207
def Ins.rows (i : Ins) : Nat := i.field 201 6 + 1
def Ins.transb (i : Ins) : Bool := i.flag 206
def Ins.macvRow (i : Ins) : Nat := i.field 200 6
def Ins.logn (i : Ins) : Nat := i.field 209 5
def Ins.isTrowel (i : Ins) : Bool := engineOf i.op == 4
def Ins.ftq (i : Ins) : Bool := i.isTrowel && i.flag 213
def Ins.pop (i : Ins) : Bool := i.isTrowel && i.flag 212
def Ins.cind (i : Ins) : Bool := i.flag 211
def Ins.plus (i : Ins) : Bool := i.flag 210
def Ins.domain (i : Ins) : Bool := i.flag 211
def Ins.permLogn (i : Ins) : Nat := i.field 208 3 + 10
def Ins.galois (i : Ins) : Nat := bits (i.opRaw 1) 0 18
def Ins.decBits (i : Ins) : Nat := i.field 208 4 + 1
def Ins.ell (i : Ins) : Nat := i.field 205 3 + 1
def Ins.shift (i : Ins) : Nat := i.field 200 5
def Ins.round (i : Ins) : Bool := i.flag 211
def Ins.dropIdx (i : Ins) : Nat := i.field 205 6
def Ins.axis (i : Ins) : Bool := i.flag 211
def Ins.cols (i : Ins) : Nat := i.field 198 13
def Ins.skimForm (i : Ins) : Nat := i.field 212 2
def Ins.acc (i : Ins) : Bool := i.flag 211
def Ins.streams (i : Ins) : Nat := i.field 205 6 + 1
def Ins.sstep (i : Ins) : Nat := i.field 192 13
def Ins.dist (i : Ins) : Nat := i.field 212 2
def Ins.tern (i : Ins) : Bool := i.flag 211
def Ins.repeat_ (i : Ins) : Bool := i.flag 210
def Ins.add (i : Ins) : Bool := i.flag 209
def Ins.moveForm (i : Ins) : Nat := i.field 212 2
def Ins.srcQ (i : Ins) : Nat := i.field 206 6
def Ins.srcPe (i : Ins) : Bool := i.flag 205

/-- Element count E: the destination's LEN (R192). -/
def Ins.elems (i : Ins) : Nat := (i.opnd 2).len

/-! ### Which operands of an engine instruction name words -/

/-- Sources of an instruction as runs: operand, offset of the run in words from its effective address, length. OP1 of TPERM, of TMULC without CIND and of a stencil MOVE is a literal. -/
def Ins.sourceRuns (i : Ins) : List (Nat × Nat × Nat) :=
  let o0 := (i.opnd 0).len
  let o1 := (i.opnd 1).len
  let op := i.op
  if op = Op.move then (if i.moveForm = 0 then [(0, 0, o0)] else [])
  else if op = Op.mact ∨ op = Op.macv then [(0, 0, o0), (1, 0, o1)]
  else if op = Op.tmulc then (if i.ftq then [] else [(0, 0, o0)]) ++ (if i.cind then [(1, 0, o1)] else [])
  else if op = Op.tperm ∨ op = Op.tdec ∨ op = Op.tred then (if i.ftq then [] else [(0, 0, o0)])
  else if op = Op.skim then
    ((List.range i.streams).map fun s => (0, s * i.sstep * 32, o0))
      ++ (if i.skimForm = 1 then (List.range i.streams).map fun s => (1, s * i.sstep * 32, o1) else [(1, 0, o1)])
      ++ (if i.acc then [(2, 0, (i.opnd 2).len)] else [])
  else if op = Op.noise then (if i.add then [(2, 0, (i.opnd 2).len)] else [])
  else if i.isTrowel then (if i.ftq then [(1, 0, o1)] else [(0, 0, o0), (1, 0, o1)])
  else [(0, 0, o0)]

/-- The destination run. A direct MOVE writes OP1, every other instruction OP2. -/
def Ins.destRun (i : Ins) : Option (Nat × Nat) :=
  if i.op = Op.move then (if i.moveForm = 0 then some (1, (i.opnd 1).len) else none) else some (2, (i.opnd 2).len)

/-- Words of one run: (cell, address). -/
def runWords (holder : Nat) (ea stride : Int) (off n : Nat) : List (Nat × Nat) :=
  (runAddrs (ea + (off : Int)) stride n).map fun a => (holder, a.toNat)

/-- Words an instruction reads, and words it writes, given its effective addresses. -/
def Ins.readSet (i : Ins) (cells : List Nat) (cell : Nat) (eas : List Int) : List (Nat × Nat) :=
  i.sourceRuns.flatMap fun r => runWords (holderOf cells cell (i.opnd r.1)) (eas.getD r.1 0) (i.opnd r.1).stride r.2.1 r.2.2

def Ins.writeSet (i : Ins) (cells : List Nat) (cell : Nat) (eas : List Int) : List (Nat × Nat) :=
  match i.destRun with
  | some (k, n) => runWords (holderOf cells cell (i.opnd k)) (eas.getD k 0) (i.opnd k).stride 0 n
  | none => []

/-- Whether every run lies in the scratchpad (R169), streams included (R209), and an FTQ operand in its tile (R201). -/
def Ins.runsInside (i : Ins) (eas : List Int) : Bool :=
  (i.sourceRuns.all fun r => runInside (eas.getD r.1 0 + (r.2.1 : Int)) (i.opnd r.1).stride r.2.2 scratchWords)
  && (match i.destRun with
      | some (k, n) => runInside (eas.getD k 0) (i.opnd k).stride n scratchWords
      | none => true)
  && (!i.ftq || runInside (eas.getD 0 0) (i.opnd 0).stride (i.opnd 0).len 8192)

/-- Whether every remote operand names a cell of the group (R146). -/
def Ins.groupsInside (i : Ins) (n : Nat) : Bool :=
  ((i.sourceRuns.map (·.1)) ++ (i.destRun.map (·.1)).toList).all fun k => !(i.opnd k).remote || decide ((i.opnd k).group < n)

/-- Whether a source operand is remote. -/
def Ins.remoteSource (i : Ins) : Bool := i.sourceRuns.any fun r => (i.opnd r.1).remote

end Sys2Proof.Machine
end

