-- ==== Sys2Proof/Machine/Stencils.lean ====
section
/-! DEFINITION. Stencils: visiting order, binding, creation checks, and the regeneration of a-halves (R213 to R224, R236, R237). -/

namespace Sys2Proof.Machine

/-! ### What a segment run works on -/

def State.runCmd (s : State) (g : SegRun) : Option Cmd := s.cmd? g.ten g.lring g.seq
def State.runEval (s : State) (g : SegRun) : Option Eval := (s.runCmd g).bind (·.eval)
def State.genOf (s : State) (ten model gen : Nat) : Option Gen := (Tbl.look (s.ten ten).models model).bind fun m => Tbl.look m.gens gen
def State.runGen (s : State) (g : SegRun) : Option Gen := (s.runEval g).bind fun e => s.genOf g.ten e.model e.gen
def State.runDef (s : State) (g : SegRun) : Option SegDef := (s.runGen g).bind fun x => x.segs[g.idx]?
def State.runKeys (s : State) (g : SegRun) : Option KeySet := (s.runEval g).bind fun e => Tbl.look (s.ten g.ten).keysets e.keyset
def State.runSession (s : State) (g : SegRun) : Option Session := (s.runEval g).bind fun e => Tbl.look (s.ten g.ten).sessions e.session

/-! ### Visiting order (R213 to R215) -/

def Stencil.wide (st : Stencil) : Bool := bitOf st.flags 0
def Stencil.transpose (st : Stencil) : Bool := bitOf st.flags 1
def Stencil.pad (st : Stencil) : Bool := bitOf st.flags 2
def Stencil.regen (st : Stencil) : Bool := bitOf st.flags 3

/-- SIZE_k; a dimension at or beyond NDIM acts as size 1. -/
def Stencil.size (st : Stencil) (k : Nat) : Nat := if k < st.ndim then nth0 st.sizes k else 1
def Stencil.stride (st : Stencil) (k : Nat) : Int := st.strides.getD k 0

/-- P1 of R214. -/
def Stencil.p1 (st : Stencil) : Nat := if st.pad ∧ st.size 1 < 64 then 64 else st.size 1

/-- Offsets in elements of one plane (i4, i3, i2 fixed); none is a zero word of PAD. -/
def Stencil.plane (st : Stencil) (o : Int) : List (Option Int) :=
  let at_ (i0 i1 : Nat) : Int := o + (i1 : Int) * st.stride 1 + (i0 : Int) * st.stride 0
  if st.transpose then
    (List.range (st.size 0)).flatMap fun i0 => (List.range st.p1).map fun i1 => if i1 < st.size 1 then some (at_ i0 i1) else none
  else (List.range (st.size 1)).flatMap fun i1 => (List.range (st.size 0)).map fun i0 => some (at_ i0 i1)

/-- Offsets in elements in visiting order (R214). -/
def Stencil.visit (st : Stencil) : List (Option Int) :=
  (List.range (st.size 4)).flatMap fun i4 => (List.range (st.size 3)).flatMap fun i3 => (List.range (st.size 2)).flatMap fun i2 =>
    st.plane ((i4 : Int) * st.stride 4 + (i3 : Int) * st.stride 3 + (i2 : Int) * st.stride 2)

/-- Size of the slice dimension (R215). -/
def Stencil.slices (st : Stencil) : Nat := if st.transpose ∧ st.ndim ≤ 2 then st.size 0 else st.size (st.ndim - 1)

/-- Elements visited in all, zero words of PAD included. -/
def Stencil.total (st : Stencil) : Nat :=
  st.size 0 * (if st.transpose then st.p1 else st.size 1) * st.size 2 * st.size 3 * st.size 4

/-- Elements per slice (R215); a REGEN stencil counts each twice. -/
def Stencil.perSlice (st : Stencil) : Nat := st.total / max 1 st.slices * (if st.regen then 2 else 1)

/-- Offsets of n slices from the first. -/
def Stencil.sliceVisit (st : Stencil) (first n : Nat) : List (Option Int) :=
  let e := st.total / max 1 st.slices
  (st.visit.drop (first * e)).take (n * e)

/-- Least and greatest offset in elements. -/
def Stencil.lowest (st : Stencil) : Int := (List.range 5).foldl (fun m k => m + min 0 (((st.size k - 1 : Nat) : Int) * st.stride k)) 0
def Stencil.highest (st : Stencil) : Int := (List.range 5).foldl (fun m k => m + max 0 (((st.size k - 1 : Nat) : Int) * st.stride k)) 0

/-- Bytes of an element outside the scratchpad. -/
def Stencil.elemBytes (st : Stencil) : Nat := if st.wide then 8 else 4

/-- Whether the stencil lies in a scratchpad. -/
def Stencil.inPad (st : Stencil) : Bool := decide (st.space < 2)

/-- The words of one visited element at a resolved base: word addresses in a scratchpad, else the byte addresses of its 4-byte words. -/
def Stencil.wordsAt (st : Stencil) (base : Nat) : Option Int → List (Option Int)
  | none => [none]
  | some e =>
    if st.inPad then
      if st.wide then [some (base + e), some (base + e + 1)] else [some (base + e)]
    else if st.wide then [some (base + e * 8), some (base + e * 8 + 4)]
    else [some (base + e * 4)]

/-! ### Binding (R213, R219, R221) -/

/-- The key component a BIND 4 stencil names, with its directory index. -/
def KeySet.comp (k : KeySet) (kind index galois : Nat) : Option (Nat × KeyComp) :=
  let l := (List.range k.comps.length).zip k.comps
  if kind = 6 then (l.filter fun c => c.2.kind == 6)[index]?
  else if kind = 2 ∨ kind = 3 then l.find? fun c => c.2.kind == kind && c.2.galois == galois
  else l.find? fun c => c.2.kind == kind

def State.runComp (s : State) (g : SegRun) (st : Stencil) : Option (Nat × KeyComp) :=
  (s.runKeys g).bind fun k => k.comp st.keyKind st.keyIndex st.galois

/-- DVA of an object. -/
def State.dvaOf (s : State) (obj : Nat) : Nat := (Tbl.look s.dram.objs obj).elim 0 (·.dva)

/-- Start of the bound object, and its length. -/
def State.bound (s : State) (g : SegRun) (st : Stencil) : Except Err (Nat × Nat) :=
  if st.bind_ = 0 then .ok (0, scratchWords)
  else if st.bind_ = 1 then .ok (((s.runEval g).elim [] (·.iovas)).getD st.bindIndex 0, ((s.runEval g).elim [] (·.lens)).getD st.bindIndex 0)
  else if st.bind_ = 2 then
    match (s.runGen g).bind fun x => (x.weights[st.bindIndex]?).map fun w => (s.dvaOf x.obj + w.1, w.2) with
    | some p => .ok p
    | none => .error (St.badField, 5)
  else if st.bind_ = 3 then
    match s.runSession g with
    | some x => .ok (s.dvaOf x.arena, x.arenaBytes)
    | none => .error (St.badHandle, 0)
  else
    match s.runComp g st, s.runKeys g with
    | some c, some k => .ok (s.dvaOf k.obj + c.2.off, c.2.bytes)
    | _, _ => .error (St.badHandle, 0)

/-- Resolved base: word address, DVA or IOVA. -/
def State.resolve (s : State) (g : SegRun) (st : Stencil) : Nat :=
  match s.bound g st with
  | .ok p => p.1 + st.base
  | .error _ => st.base

/-! ### Regeneration (R236, R237) -/

/-- Parameters of a regenerated component: words per limb, and modulus and width by limb index of the component. -/
structure RegenInfo where
  kind : Nat
  n : Nat
  limbs : Nat
  seeds : List (List Byte)
  mods : List (Nat × Nat)
deriving DecidableEq, Repr

def KeySet.regenInfo (k : KeySet) (c : KeyComp) : RegenInfo :=
  let entry (i : Nat) : Nat × Nat := (k.modtab.entry i).elim (1, 0) fun m => (m.q, m.w)
  if c.kind = 5 then
    { kind := 5, n := 2 ^ k.logNb, limbs := 1, seeds := c.seeds, mods := [((k.modtab.bootIdx k.lweIdx).map entry).getD (1, 0)] }
  else if c.kind = 4 then { kind := 4, n := k.lweN, limbs := 1, seeds := c.seeds, mods := [entry k.lweIdx] }
  else { kind := c.kind, n := 2 ^ k.modtab.logN, limbs := k.modtab.lCount + k.modtab.kCount, seeds := c.seeds,
         mods := (List.range (k.modtab.lCount + k.modtab.kCount)).map entry }

/-- The a-half words of limb number m of a component (digit m / limbs, limb m mod limbs; a row is a limb of a bootstrapping key). -/
def RegenInfo.limb (r : RegenInfo) (m : Nat) : List Nat :=
  let l := m % max 1 r.limbs
  let qw := r.mods.getD l (1, 0)
  regenWords (r.seeds.getD (m / max 1 r.limbs) [] ++ toLE 2 (if r.kind = 5 then 0 else l)) qw.1 qw.2 r.n

/-- The a-half word that goes with word i of a component's b-half. -/
def RegenInfo.word (r : RegenInfo) (i : Nat) : Nat := nth0 (r.limb (i / max 1 r.n)) (i % max 1 r.n)

/-- The mask of row i of an LWE switching key. -/
def RegenInfo.mask (r : RegenInfo) (i : Nat) : List Nat :=
  let qw := r.mods.getD 0 (1, 0)
  regenWords (r.seeds.getD 0 [] ++ toLE 4 i) qw.1 qw.2 r.n

/-- Limbs begun and not finished, each with its next coefficient, and limbs finished. -/
abbrev RegenSeen := List (Nat × Nat) × List Nat

/-- One visited word of a REGEN stencil's limbs: the next coefficient of a limb begun and not finished, or the first of one not yet begun. -/
def regenVisit (n : Nat) (q : RegenSeen) (i : Nat) : Option RegenSeen :=
  let m := i / max 1 n
  let c := i % max 1 n
  match q.1.find? fun p => p.1 == m with
  | none =>
    if c ≠ 0 ∨ q.2.contains m then none
    else if n ≤ 1 then some (q.1, m :: q.2)
    else if q.1.length < 256 then some ((m, 1) :: q.1, q.2) else none
  | some p =>
    if p.2 ≠ c then none
    else if c + 1 = n then some (q.1.filter fun x => x.1 != m, m :: q.2)
    else some (q.1.map fun x => if x.1 = m then (m, c + 1) else x, q.2)

/-- Whether a visit of component words is one R237 allows. -/
def regenOrderOk (r : RegenInfo) (is : List Nat) : Bool :=
  if r.kind = 4 then (is.zip (is.drop 1)).all fun p => decide (p.1 < p.2)
  else (is.foldl (fun o i => o.bind fun l => regenVisit r.n l i) (some ([], []))).isSome

/-- Component word indices that a REGEN stencil visits from a slice on. -/
def Stencil.regenIndices (st : Stencil) (first n : Nat) : List Nat :=
  (st.sliceVisit first n).filterMap fun e => e.map fun (x : Int) => (((st.base / 4 : Nat) : Int) + x).toNat

/-- Whether n slices from a first visit words of the component only, in an order that R237 allows. -/
def Stencil.regenFits (st : Stencil) (r : RegenInfo) (bytes first n : Nat) : Bool :=
  (((st.sliceVisit first n).filterMap id).all fun e => decide (0 ≤ ((st.base / 4 : Nat) : Int) + e ∧ ((st.base / 4 : Nat) : Int) + e < (bytes / 4 : Nat)))
    && regenOrderOk r (st.regenIndices first n)

/-! ### Creation checks (R217, R219, R237) -/

def misaligned (st : Stencil) (base : Nat) : Bool :=
  base % 64 != 0 || (decide (1 < st.size 0) && st.stride 0 != 1)
    || ((List.range 5).drop 1).any fun k => decide (1 < st.size k) && (st.stride k * st.elemBytes) % 64 != 0

/-- Runs of peer segments of the same command on the same comb. -/
def State.peerRun (s : State) (g : SegRun) (idx : Nat) : Option SegRun :=
  s.segs.find? fun p => p.ten == g.ten && p.lring == g.lring && p.seq == g.seq && p.idx == idx && p.comb == g.comb

/-- The cells whose group a SPACE 1 stencil indexes. -/
def State.stencilGroup (s : State) (g : SegRun) (st : Stencil) : Option (List Nat) :=
  if st.peerSeg = 0 then some g.cells
  else ((s.peerRun g (st.peerSeg - 1)).map (·.cells)).orElse fun _ => Tbl.look g.peers (st.peerSeg - 1)

/-- The check of one stencil at creation. SPACE 2 is aligned as SPACE 3 (table of spaces; DEDUCED, log 130). -/
def State.stencilFault (s : State) (g : SegRun) (st : Stencil) : Option Err :=
  match s.bound g st with
  | .error e => some e
  | .ok (start, len) =>
    let group : Option Err :=
      if st.space = 1 then
        match s.stencilGroup g st with
        | none => some (St.badHandle, 0)
        | some cs => if st.group < cs.length then none else some (St.stencilBounds, 0)
      else none
    let extent : Option Err :=
      if st.space = 2 ∧ ((st.base : Int) + st.lowest * st.elemBytes < 0 ∨ (len : Int) < st.base + (st.highest + 1) * st.elemBytes) then
        some (St.stencilBounds, 0) else none
    let align : Option Err := if 2 ≤ st.space ∧ misaligned st (start + st.base) then some (St.stencilMisaligned, 0) else none
    let regen : Option Err :=
      if st.regen && !((st.space == 2 || st.space == 3) && st.bind_ == 4) then some (St.badField, 1)
      else if st.regen then
        match s.runKeys g, s.runComp g st with
        | some k, some c => if st.regenFits (k.regenInfo c.2) c.2.bytes 0 st.slices then none else some (St.badField, 1)
        | _, _ => some (St.badHandle, 0)
      else none
    (((group.orElse fun _ => extent).orElse fun _ => align).orElse fun _ => regen)

/-! ### Streams -/

def StreamDef.forager (d : StreamDef) : Nat := b2n (bitOf d.flags 0)
def StreamDef.fixedDepth (d : StreamDef) : Bool := bitOf d.flags 1
def StreamDef.split (d : StreamDef) : Bool := bitOf d.flags 2
def StreamDef.relay (d : StreamDef) : Bool := bitOf d.flags 3
def StreamDef.descending (d : StreamDef) : Bool := bitOf d.flags 4

/-- Words of one slot of a stream's rings (R226, R237); `lweN` is n of the session's key set. -/
def slotWords (d : StreamDef) (st : Stencil) (lweN : Nat) : Nat :=
  if st.regen ∧ st.keyKind = 4 then d.tileElems * (lweN + 1)
  else d.tileElems * (if st.wide then 2 else 1) * (if st.regen ∧ d.aOffset = 0 then 2 else 1)

/-- Whether a stream's ring fits the scratchpad (R226). -/
def ringFits (d : StreamDef) (slot : Nat) : Bool := decide (d.ringBase + d.ringTiles * slot ≤ scratchWords)

/-- The streams of a KEY_KIND 4 stencil, judged at creation: A_OFFSET is 0 and the rings fit (R226, R237). -/
def State.streamFault (s : State) (g : SegRun) (x : SegDef) (k : Nat) (st : Stencil) : Option Err :=
  if st.regen && st.keyKind == 4 && x.streams.any (fun d => d.src == k &&
      (d.aOffset != 0 || !ringFits d (slotWords d st ((s.runKeys g).elim 0 (·.lweN))))) then some (St.badField, 1)
  else none

/-- Creates the stencils of a segment in index order, each with the streams it feeds (R217, R226). -/
def State.createFault (s : State) (g : SegRun) : Option Err :=
  match s.runDef g with
  | none => none
  | some x => ((List.range x.stencils.length).zip x.stencils).findSome? fun p => (s.stencilFault g p.2).orElse fun _ => s.streamFault g x p.1 p.2

/-! ### Tiles (R226, R235, R237) -/

/-- Words of one element. -/
def Stencil.elemWords (st : Stencil) : Nat := if st.wide then 2 else 1

/-- Tiles of a stream. -/
def StreamDef.tiles (d : StreamDef) (st : Stencil) : Nat := ceilDiv st.total d.tileElems

/-- Elements of tile k; the last may be partial. -/
def StreamDef.tileLen (d : StreamDef) (st : Stencil) (k : Nat) : Nat := min d.tileElems (st.total - k * d.tileElems)

/-- Group indices of the cells of a chain, the head first; a head alone without RELAY. -/
def StreamDef.chain (d : StreamDef) (head : Nat) : List Nat :=
  if d.relay then (List.range d.chainLen).map fun j => if d.descending then head - j else head + j else [head]

/-- Heads that receive tile k. -/
def StreamDef.tileHeads (d : StreamDef) (k : Nat) : List Nat :=
  if d.split then (d.dest[k / max 1 d.run % max 1 d.dest.length]?).toList else d.dest

/-- Number of tile k among the tiles of a cell that receives it. -/
def StreamDef.tileNo (d : StreamDef) (k : Nat) : Nat :=
  if d.split then k / (max 1 d.run * max 1 d.dest.length) * d.run + k % max 1 d.run else k

/-- Word address of the slot of tile k. -/
def StreamDef.slotAddr (d : StreamDef) (k slot : Nat) : Nat := d.ringBase + d.tileNo k % max 1 d.ringTiles * slot

/-- The cell that takes the a-half of a cell's tiles, where it is another. -/
def StreamDef.aCell (d : StreamDef) (st : Stencil) (g : Nat) : Option Nat := if st.regen ∧ d.aOffset ≠ 0 then some (g + d.aOffset) else none

/-- Every cell that takes tiles or a-halves. -/
def StreamDef.allDests (d : StreamDef) (st : Stencil) : List Nat :=
  (d.dest.flatMap d.chain).flatMap fun g => g :: (d.aCell st g).toList

/-! ### Reading and writing through a stencil -/

/-- One word of DRAM by DVA (R218, R348). -/
def State.dvaWord (s : State) (ten : Nat) (a : Int) : Except Err Nat :=
  if a < 0 then .error (St.translationFault, 0)
  else (s.dram.readDva ten a.toNat 4).map leNat

/-- One word of host memory. -/
def hostWord (h : HostView) (ten : Nat) (a : Int) : Except Err Nat :=
  if a < 0 then .error (St.translationFault, 0)
  else match hostRead h ten a.toNat 4 with
    | some b => .ok (leNat b)
    | none => .error (St.translationFault, 0)

/-- Words of a slice read from DRAM, a shelf or host memory, in visiting order; a slice of a REGEN stencil is its b-half words, then its a-half words. The two words of a row of an LWE switching key are free: R237 gives a stream's words only (log 131). -/
def State.readSlice (s : State) (h : HostView) (g : SegRun) (st : Stencil) (slice : Nat) : Except Err (List Nat) := do
  let base := s.resolve g st
  let ws ← ((st.sliceVisit slice 1).flatMap (st.wordsAt base)).mapM fun a =>
    match a with
    | none => Except.ok 0
    | some a => if st.space = 4 then hostWord h g.ten a else s.dvaWord g.ten a
  if st.regen then
    match s.runKeys g, s.runComp g st with
    | some k, some c =>
      let r := k.regenInfo c.2
      if r.kind = 4 then .ok (((st.regenIndices slice 1).zip ws).flatMap fun p => (List.range 2).map fun k => Config.maskedRow (r.seeds.getD 0 []) p.1 p.2 k % 2 ^ 32)
      else .ok (ws ++ (st.regenIndices slice 1).map r.word)
    | _, _ => .error (St.badHandle, 0)
  else .ok ws

end Sys2Proof.Machine
end

