-- ==== Sys2Proof/Machine/CellCore.lean ====
section
/-! DEFINITION. Cells: segment failure, tokens, windows, landing words, checked mode, and the issue of instructions (R151 to R157, R165 to R167, R186 to R191). -/

namespace Sys2Proof.Machine

/-! ### Segments and their failure (R191, R340) -/

def State.cellRun (s : State) (cell : Nat) : Option SegRun := (s.cell cell).seg.bind fun id => s.seg? id

/-- The group makes progress (R190). -/
def State.touch (s : State) (id : Nat) : State := s.updSeg id fun g => { g with progress := s.now }

/-- A cell leaves its segment: windows close, timers stop, tokens go (R154, R159, R177). -/
def Cell.release (c : Cell) : Cell :=
  { c with seg := none, windows := [], closing := [], timers := [], latches := [], tokens := [], loops := [], flights := [], ftq := [],
           noise := none, halted := false, bound := [] }

def State.releaseCells (s : State) (cells : List Nat) : State := cells.foldl (fun s c => s.updCell c Cell.release) s

/-- Runs of one command. -/
def SegRun.ofCmd (g : SegRun) (ten lring seq : Nat) : Bool := g.ten == ten && g.lring == lring && g.seq == seq

/-- An EVAL has failed: its first failure stands; runs not started are withdrawn, running ones are stopped (R340). -/
def State.failEval (s : State) (ten lring seq : Nat) (e : Err) : State :=
  let waiting := s.segs.filter fun g => g.ofCmd ten lring seq && g.phase != .running
  let s := waiting.foldl (fun s (g : SegRun) => (s.releaseCells g.cells).unrefSeg g.id) s
  let stop (g : SegRun) : SegRun := if g.ofCmd ten lring seq then { g with fail := some (g.fail.getD e) } else g
  let s := { s with segs := (s.segs.filter fun (g : SegRun) => !(g.ofCmd ten lring seq && g.phase != SegPhase.running)).map stop }
  let none_left := !(s.segs.any fun g => g.ofCmd ten lring seq)
  s.updEval ten lring seq fun v =>
    { v with failed := some (v.failed.getD e), attempt := none, recvWait := none, sends := [], done := v.done || none_left }

/-- A segment fails: the first failure is reported and logged, and its EVAL fails (R191, R340). -/
def State.failSeg (s : State) (id cell : Nat) (e : Err) : State :=
  match s.seg? id with
  | none => s
  | some g =>
    if g.fail.isSome then s
    else (s.logRec Rec.segment 0 g.ten cell (e.1 + e.2 * 2 ^ 16) (g.seq % 2 ^ 32)).failEval g.ten g.lring g.seq e

/-! ### Tokens (R155, R189) -/

def Cell.tokenCount (c : Cell) (q : Nat) : Nat := Tbl.lookD c.tokens q 0

/-- Posts n tokens to a queue; past 63 the post is not applied and the segment fails. Posts of a segment that failed or that a drain stopped are discarded (R191, R341). -/
def State.postTokens (s : State) (cell q n : Nat) : State :=
  match s.cellRun cell with
  | none => s
  | some g =>
    if g.fail.isSome || g.phase == .drained then s
    else if (s.cell cell).tokenCount q + n > 63 then s.failSeg g.id cell (St.tokenOverflow, cell)
    else (s.updCell cell fun c => { c with tokens := Tbl.putZ c.tokens q (c.tokenCount q + n) }).touch g.id

def State.postToken (s : State) (cell q : Nat) : State := s.postTokens cell q 1

/-- Posts where a queue is given. -/
def State.postOpt (s : State) (cell : Nat) : Option Nat → State
  | some q => s.postToken cell q
  | none => s

/-- Subtracts the tokens of a satisfied wait. -/
def Cell.takeTokens (c : Cell) (q n : Nat) : Cell := { c with tokens := Tbl.putZ c.tokens q (c.tokenCount q - n) }

/-! ### Scratchpad words, and races (R186) -/

def State.word (s : State) (cell addr : Nat) : Nat := Tbl.lookD (s.cell cell).mem addr 0
def Cell.putWord (c : Cell) (addr v : Nat) : Cell := { c with mem := Tbl.putZ c.mem addr (v % 2 ^ 32) }

/-- Whether two issued instructions are ordered by R166: same cell, same engine, not the movement engine. -/
def sameEngine (cell engine cell' engine' : Nat) : Bool := cell == cell' && engine == engine' && engine != 1

/-- What landing words do to one issued instruction that is not ordered with them: sources get both values as candidates, destinations are contested. -/
def Flight.race (f : Flight) (old : Nat → Nat → Nat) (ws : List (Nat × Nat × Nat)) : Flight :=
  let hitR := ws.filter fun w => f.reads.contains (w.1, w.2.1)
  let hitW := ws.filter fun w => f.writes.contains (w.1, w.2.1)
  { f with alts := f.alts ++ hitR.flatMap fun w => [(w.1, w.2.1, old w.1 w.2.1), w]
           contest := f.contest ++ hitW.map fun w => (w.1, w.2.1) }

/-- Lands words (cell, address, word) written by instruction `id` of `cell`'s engine; a forager delivery gives no engine of a cell (id none). -/
def State.landWords (s : State) (writer : Option (Nat × Nat × Nat)) (ws : List (Nat × Nat × Nat)) : State :=
  let ordered (cell : Nat) (f : Flight) : Bool := writer.any fun w => w.2.2 == f.id || sameEngine w.1 w.2.1 cell f.engine
  let old := s.word
  let s := { s with cells := s.cells.map fun c =>
    (c.1, { c.2 with flights := c.2.flights.map fun f => if ordered c.1 f then f else f.race old ws }) }
  ws.foldl (fun s w => s.updCell w.1 fun c => c.putWord w.2.1 w.2.2) s

/-! ### Checked mode (R187) -/

/-- Least and greatest row touched in one bank of one cell. -/
def bankExtent (l : List (Nat × Nat)) (cell bank : Nat) : Option (Nat × Nat) :=
  l.foldl (fun e w =>
    if w.1 = cell ∧ w.2 % 64 = bank then
      match e with
      | none => some (w.2 / 64, w.2 / 64)
      | some p => some (min p.1 (w.2 / 64), max p.2 (w.2 / 64))
    else e) none

def extentsMeet : Option (Nat × Nat) → Option (Nat × Nat) → Bool
  | some a, some b => decide (a.1 ≤ b.2 ∧ b.1 ≤ a.2)
  | _, _ => false

/-- The cell in one of whose banks two access lists have overlapping extents. -/
def overlapCell (a b : List (Nat × Nat)) : Option Nat :=
  ((a.map (·.1)).eraseDups).find? fun c => (List.range 64).any fun k => extentsMeet (bankExtent a c k) (bankExtent b c k)

/-- The cell at fault when reads and writes are about to issue, beside pending accesses of participants. -/
def State.unfenced (s : State) (g : SegRun) (writer : Option (Nat × Nat × Nat)) (reads writes : List (Nat × Nat)) : Option Nat :=
  let ordered (cell : Nat) (f : Flight) : Bool := writer.any fun w => w.2.2 == f.id || sameEngine w.1 w.2.1 cell f.engine
  let pend := s.cells.flatMap fun c => (c.2.flights.filter fun f => ((ins f.raw).chk || f.arrived) && !ordered c.1 f)
  if (s.runDef g).any (·.checked) then
    pend.findSome? fun f =>
      ((overlapCell reads f.writes).orElse fun _ => overlapCell writes f.reads).orElse fun _ => overlapCell writes f.writes
  else none

/-! ### Windows (R150 to R153) -/

def Window.covers (w : Window) (lo hi : Nat) : Bool := decide (w.base ≤ lo ∧ hi < w.base + w.length)

/-- The lowest-numbered open window of an owner cell that admits a write of an extent; `by_` is the writer's run and group index, or none for a forager stream. -/
def State.admits (s : State) (owner : Nat) (og : SegRun) (ten comb lo hi : Nat) (by_ : Option (Nat × Nat)) : Option (Nat × Window) :=
  (s.cell owner).windows.find? fun w =>
    w.2.covers lo hi && ten == og.ten &&
    (match by_ with
     | some (run, gi) =>
       if w.2.kind = 0 then run == og.id && bitOf w.2.rowMask (gi / 16) && bitOf w.2.colMask (gi % 16)
       else w.2.kind == 1 && comb == combOf owner
     | none => w.2.kind == 2)

/-- A refused remote write: the writer's segment fails and the record names writer, owner and extent (R152). -/
def State.windowViolation (s : State) (run : SegRun) (writer owner lo hi : Nat) : State :=
  let also := (s.cellRun owner).map (·.ten)
  (s.logBoth Rec.window 0 run.ten also writer owner (lo + hi * 2 ^ 32)).failSeg run.id writer (St.windowViolation, writer)

/-- A write has landed: closes that waited for it may complete (R153). -/
def State.landed (s : State) (owner id : Nat) : State :=
  let c := s.cell owner
  let cl := c.closing.map fun w => { w with waits := w.waits.filter (· != id) }
  let s := s.updCell owner fun c => { c with closing := cl.filter fun w => !w.waits.isEmpty }
  (cl.filter fun w => w.waits.isEmpty).foldl (fun s w => s.postOpt owner w.post) s

/-- Writes admitted by a window of an owner that have not landed. -/
def State.admittedTo (s : State) (owner window : Nat) : List Nat :=
  s.cells.flatMap fun c => (c.2.flights.filter fun f =>
    f.win.any (fun w => w.1 == window) && f.writes.any fun p => p.1 == owner).map (·.id)

/-- Begins the close of a window; with nothing to wait for it completes at once. -/
def State.closeWindow (s : State) (cell window : Nat) (post : Option Nat) : State :=
  let waits := if (Tbl.look (s.cell cell).windows window).isSome then s.admittedTo cell window else []
  let s := s.updCell cell fun c => { c with windows := Tbl.del c.windows window }
  if waits.isEmpty then s.postOpt cell post
  else s.updCell cell fun c => { c with closing := c.closing ++ [{ window := window, post := post, waits := waits }] }

/-! ### Issue (R165, R167, R171, R175) -/

/-- The instruction at a cell's issue point. -/
def Cell.current (c : Cell) : Option InsWord := (if c.active = 0 then c.bank0 else c.bank1)[c.pc]?

/-- The issue point after an instruction that goes on in order: the next pass of a LOOP, or past its body (fuel: the loops open). -/
def loopStep (pc : Nat) : List LoopFrame → Nat × List LoopFrame
  | [] => (pc, [])
  | f :: r =>
    if pc = f.start + f.k then
      if f.pass + 1 < f.n then (f.start, { f with pass := f.pass + 1 } :: r) else loopStep pc r
    else (pc, f :: r)

def Cell.stepOn (c : Cell) : Cell :=
  let p := loopStep (c.pc + 1) c.loops
  { c with pc := p.1, loops := p.2 }

/-- Tokens a wait on queue A needs: COUNT_A for WAIT. -/
def Ins.countA (i : Ins) : Nat := if i.op = Op.wait then i.field 208 6 else i.wca

/-- Whether an instruction's waits are satisfied. -/
def Cell.waitsMet (c : Cell) (i : Ins) : Bool := decide (i.countA ≤ c.tokenCount i.wqa ∧ i.wcb ≤ c.tokenCount i.wqb)

/-- Room in an engine's queue: four entries beside what it runs at once (one; eight MOVEs). -/
def Cell.engineRoom (c : Cell) (e : Nat) : Bool :=
  decide ((c.flights.filter fun f => f.engine == e).length < (if e = 1 then 12 else 5))

/-- Whether a cell may issue now: its segment runs and has not failed, it has not halted, and its comb issues. -/
def State.mayIssue (s : State) (cell : Nat) (g : SegRun) : Bool :=
  g.phase == .running && g.fail.isNone && !(s.cell cell).halted && (s.comb (combOf cell)).svc == .inService

/-- Issues the instruction at a cell's issue point, if it is the one the command names and its waits are met: tokens are subtracted, the issue point moves on, and f does the rest with the cell as it was at issue. -/
def State.issue (s : State) (cell : Nat) (isIt : Ins → Bool) (f : State → SegRun → Cell → InsWord → State) : State :=
  match s.cellRun cell, (s.cell cell).current with
  | some g, some raw =>
    let c := s.cell cell
    let i := ins raw
    if s.mayIssue cell g && isIt i && c.waitsMet i && c.engineRoom (engineOf i.op) then
      let s := s.updCell cell fun c => ((c.takeTokens i.wqa i.countA).takeTokens i.wqb i.wcb).stepOn
      f (s.touch g.id) g c raw
    else s
  | _, _ => s

/-- The post of an instruction with PE set, to its own cell. -/
def Ins.post (i : Ins) : Option Nat := if i.pe then some i.pq else none

/-- Issues a control instruction: its effect on the cell, then its post (R167). -/
def State.control (s : State) (cell op : Nat) (f : State → SegRun → Cell → Ins → State) : State :=
  s.issue cell (fun i => i.op == op) fun s g c raw => (f s g c (ins raw)).postOpt cell (if op = Op.post then none else (ins raw).post)

/-- Adds an issued engine instruction. -/
def State.launch (s : State) (cell : Nat) (f : Flight) : State :=
  { (s.updCell cell fun c => { c with flights := c.flights ++ [{ f with id := s.nextId }] }) with nextId := s.nextId + 1 }

/-- The issue of an engine instruction: checked mode first, then it is under way. The words of a remote write are judged on arrival. -/
def State.launchChecked (s : State) (g : SegRun) (cell : Nat) (f : Flight) : State :=
  let me := some (cell, f.engine, s.nextId)
  let bad := if (ins f.raw).chk then s.unfenced g me f.reads (if f.remote then [] else f.writes) else none
  match bad with
  | some c => s.failSeg g.id c (St.unfencedRead, c)
  | none => s.launch cell f

end Sys2Proof.Machine
end

