-- ==== Sys2Proof/Machine/CellControl.lean ====
section
/-! DEFINITION. Control instructions, windows, timers, latches and the watchdog (R150 to R160, R172 to R181, R185, R190). -/

namespace Sys2Proof.Machine

/-! ### Control instructions (R172 to R180) -/

/-- WAIT: subtracts its tokens and does nothing else (R172). -/
def execWait (t cell : Nat) (s : State) : Host.Outcome State Fault Refusal :=
  run t s fun s => s.control cell Op.wait fun s _ _ _ => s

/-- POST: COUNT tokens to PQ of its own cell at issue (R173). -/
def execPost (t cell : Nat) (s : State) : Host.Outcome State Fault Refusal :=
  run t s fun s => s.control cell Op.post fun s _ _ i => s.postTokens cell i.pq (i.field 208 6)

/-- JUMP: issue continues at TARGET in the active bank (R174). -/
def execJump (t cell : Nat) (s : State) : Host.Outcome State Fault Refusal :=
  run t s fun s => s.control cell Op.jump fun s _ _ i => s.updCell cell fun c => { c with pc := i.field 192 11 }

/-- LOOP: the next K instructions run N times (R175). -/
def execLoop (t cell : Nat) (s : State) : Host.Outcome State Fault Refusal :=
  run t s fun s => s.control cell Op.loop fun s _ _ i => s.updCell cell fun c =>
    { c with loops := { start := c.pc, k := i.field 208 6, n := i.field 192 16, pass := 0 } :: c.loops }

/-- HANDOFF: the other bank becomes active, at TARGET (R176). -/
def execHandoff (t cell : Nat) (s : State) : Host.Outcome State Fault Refusal :=
  run t s fun s => s.control cell Op.handoff fun s _ _ i => s.updCell cell fun c =>
    { c with active := 1 - c.active, pc := i.field 203 11, loops := [] }

/-- HALT: issue ends in the cell (R177). -/
def execHalt (t cell : Nat) (s : State) : Host.Outcome State Fault Refusal :=
  run t s fun s => s.control cell Op.halt fun s _ _ _ => s.updCell cell fun c => { c with halted := true }

/-- SETMOD: BASE, STEP and LEVEL of the modulus selection (R179). -/
def execSetmod (t cell : Nat) (s : State) : Host.Outcome State Fault Refusal :=
  run t s fun s => s.control cell Op.setmod fun s _ _ i => s.updCell cell fun c =>
    { c with selBase := i.field 208 6, selStep := i.field 202 6, selLevel := i.field 200 2 }

/-- SETADV: VALUE and LEVEL of an advance register (R180). -/
def execSetadv (t cell : Nat) (s : State) : Host.Outcome State Fault Refusal :=
  run t s fun s => s.control cell Op.setadv fun s _ _ i => s.updCell cell fun c =>
    { c with adv := Tbl.put c.adv (i.field 210 4) (signed 16 (i.field 192 16), i.field 208 2) }

/-! ### TIMER (R159, R160, R181) -/

/-- The form of a TIMER instruction: UNIT and ACTION. -/
def Ins.timerForm (i : Ins) : Bool × Bool := (i.flag 213, i.flag 211)
def Ins.timerIndex (i : Ins) : Nat := i.field 212 1
def Ins.timerQueue (i : Ins) : Nat := i.field 205 6

/-- Issues a TIMER instruction of one form. -/
def State.timerOp (s : State) (cell : Nat) (form : Bool × Bool) (f : State → Ins → State) : State :=
  s.issue cell (fun i => i.op == Op.timer && i.timerForm == form) fun s _ _ raw => (f s (ins raw)).postOpt cell (ins raw).post

/-- TIMER_LOAD: a timer gets COUNT ticks and a queue, replacing both where it runs (R159). -/
def execTimerLoad (t cell : Nat) (s : State) : Host.Outcome State Fault Refusal :=
  run t s fun s => s.timerOp cell (false, false) fun s i => s.updCell cell fun c =>
    { c with timers := Tbl.put c.timers i.timerIndex (s.now + bits (i.opRaw 0) 0 32, i.timerQueue) }

/-- TIMER_STOP: a timer stops; a token it posted stays (R181). -/
def execTimerStop (t cell : Nat) (s : State) : Host.Outcome State Fault Refusal :=
  run t s fun s => s.timerOp cell (false, true) fun s i => s.updCell cell fun c => { c with timers := Tbl.del c.timers i.timerIndex }

def Cell.latch (c : Cell) (i : Nat) : Latch := Tbl.lookD c.latches i { queue := none, pending := false }

/-- LATCH_ARM: arms a latch; a pending edge posts at once (R160). -/
def execLatchArm (t cell : Nat) (s : State) : Host.Outcome State Fault Refusal :=
  run t s fun s => s.timerOp cell (true, false) fun s i =>
    let was := (s.cell cell).latch i.timerIndex
    let s := s.updCell cell fun c => { c with latches := Tbl.put c.latches i.timerIndex { queue := some i.timerQueue, pending := false } }
    if was.pending then s.postToken cell i.timerQueue else s

/-- LATCH_DISARM: later edges set the pending flag (R160). -/
def execLatchDisarm (t cell : Nat) (s : State) : Host.Outcome State Fault Refusal :=
  run t s fun s => s.timerOp cell (true, true) fun s i => s.updCell cell fun c =>
    { c with latches := Tbl.put c.latches i.timerIndex { c.latch i.timerIndex with queue := none } }

/-- TIMER_EXPIRE: a timer whose count has expired posts one token and stops (R159). -/
def execTimerExpire (t cell timer : Nat) (s : State) : Host.Outcome State Fault Refusal :=
  run t s fun s =>
    match Tbl.look (s.cell cell).timers timer with
    | none => s
    | some e => s.onlyIf (decide (e.1 ≤ s.now)) fun s =>
        (s.updCell cell fun c => { c with timers := Tbl.del c.timers timer }).postToken cell e.2

/-! ### Step edges (R64, R65, R160) -/

/-- WG_STEP: the step length of a series in us, from the configuration, else the reset value (R325). -/
def State.stepUs (s : State) (series : Nat) : Nat :=
  s.settings.swarm.elim (if series = 0 then 100 else 1000) fun c => if series = 0 then c.step0Us else c.step1Us

/-- Step length of a series in ticks. -/
def State.stepLen (s : State) (series : Nat) : Nat := s.stepUs series * usec

def Waggle.edges (w : Waggle) (series : Nat) : Nat := if series = 0 then w.edges0 else w.edges1
def Waggle.setEdges (w : Waggle) (series n : Nat) : Waggle := if series = 0 then { w with edges0 := n } else { w with edges1 := n }

/-- An edge reaches the latch of one cell. -/
def State.edgeAt (s : State) (series cell : Nat) : State :=
  let l := (s.cell cell).latch series
  match l.queue with
  | some q => s.postToken cell q
  | none => s.updCell cell fun c => { c with latches := Tbl.put c.latches series { l with pending := true } }

/-- Cells that run a segment. -/
def State.runningCells (s : State) : List Nat := (s.segs.filter fun g => g.phase == .running).flatMap (·.cells)

/-- WAGGLE_STEP_EDGE: one edge of a series, delivered to the matching latch of every cell that runs a segment (R65). -/
def execWaggleStepEdge (t series : Nat) (s : State) : Host.Outcome State Fault Refusal :=
  run t s fun s =>
    let k := s.waggle.edges series + 1
    s.onlyIf (decide (series < 2 ∧ k * s.stepLen series ≤ s.now)) fun s =>
      s.runningCells.foldl (fun s c => s.edgeAt series c) { s with waggle := s.waggle.setEdges series k }

/-- New step lengths: each series goes on at the next multiple of its own (R65 corners). -/
def State.rebaseSteps (s : State) : State :=
  { s with waggle := { s.waggle with edges0 := s.now / s.stepLen 0, edges1 := s.now / s.stepLen 1 } }

/-! ### WIN (R150, R153, R185) -/

def Ins.window (i : Ins) : Nat := i.field 211 3
def Ins.winClose (i : Ins) : Bool := i.flag 210

def Ins.windowFields (i : Ins) : Window :=
  { base := (i.opnd 0).addr, length := if (i.opnd 0).len = 0 then scratchWords else (i.opnd 0).len, kind := i.field 208 2,
    rowMask := bits (i.opRaw 0) 0 8, colMask := bits (i.opRaw 0) 12 16, queue := i.field 202 6 }

/-- WIN_OPEN: takes effect at issue; an open of an open window is a close followed by an open (R185). -/
def execWinOpen (t cell : Nat) (s : State) : Host.Outcome State Fault Refusal :=
  run t s fun s => s.issue cell (fun i => i.op == Op.win && !i.winClose) fun s _ _ raw =>
    let i := ins raw
    let s := s.closeWindow cell i.window none
    (s.updCell cell fun c => { c with windows := Tbl.put c.windows i.window i.windowFields }).postOpt cell i.post

/-- WIN_CLOSE: completes, and posts, once every admitted write has landed (R153, R167). -/
def execWinClose (t cell : Nat) (s : State) : Host.Outcome State Fault Refusal :=
  run t s fun s => s.issue cell (fun i => i.op == Op.win && i.winClose) fun s _ _ raw => s.closeWindow cell (ins raw).window (ins raw).post

/-! ### The watchdog (R190) -/

/-- A cell whose next instruction waits for tokens. -/
def Cell.stalled (c : Cell) : Bool := !c.halted && c.current.any fun raw => !c.waitsMet (ins raw)

def SegDef.watchdog (d : SegDef) : Nat := (if d.watchdogUs = 0 then 2000 else d.watchdogUs) * usec

/-- Whether the watchdog of a run has expired: no progress for its period, and no timer of the group runs. -/
def State.watchdogDue (s : State) (g : SegRun) : Bool :=
  g.phase == .running && g.fail.isNone && ((s.runDef g).any fun d => decide (g.progress + d.watchdog ≤ s.now))
    && g.cells.all fun c => (s.cell c).timers.isEmpty

/-- SEGMENT_WATCHDOG: the segment fails; DETAIL is the lowest cell stalled at a wait, a free value where none is (log 33). -/
def execSegmentWatchdog (t seg : Nat) (s : State) : Host.Outcome State Fault Refusal :=
  run t s fun s =>
    match s.seg? seg with
    | none => s
    | some g => s.onlyIf (s.watchdogDue g) fun s =>
        match (g.cells.filter fun c => (s.cell c).stalled).min? with
        | some c => s.failSeg seg c (St.segmentTimeout, c)
        | none => let f := s.takeFree
                  f.2.failSeg seg (f.1 % 512) (St.segmentTimeout, f.1 % 512)

end Sys2Proof.Machine
end

