-- ==== Sys2Proof/Machine/CellMove.lean ====
section
/-! DEFINITION. Movement: MOVE in its three forms, remote reads and writes, token-only moves (R136, R145, R146, R151 to R158, R182 to R184, R186, R215, R218). -/

namespace Sys2Proof.Machine

/-! ### Reading words that may be raced (R186) -/

/-- Whether another issued instruction, not ordered with f, still has to write a word. -/
def State.writePending (s : State) (cell : Nat) (f : Flight) (w : Nat × Nat) : Bool :=
  s.cells.any fun c => c.2.flights.any fun o => o.id != f.id && !sameEngine cell f.engine c.1 o.engine && o.writes.contains w

/-- One word read by f: its value in the scratchpad; one of its candidate values where an unordered write has landed since issue; any word where an unordered write is still to land (log 34). -/
def State.readRaced (s : State) (cell : Nat) (f : Flight) (raced : List (Nat × Nat)) (w : Nat × Nat) : Nat × State :=
  let alts := (f.alts.filter fun a => a.1 == w.1 && a.2.1 == w.2).map (·.2.2)
  if raced.contains w || s.writePending cell f w then
    let q := s.takeFree
    (q.1 % 2 ^ 32, q.2)
  else if alts.isEmpty then (s.word w.1 w.2, s)
  else
    let q := s.takeFree
    ((s.word w.1 w.2 :: alts).getD (q.1 % (alts.length + 1)) 0, q.2)

/-- Words read in order; `none` is a zero word of PAD. -/
def State.readRun (s : State) (cell : Nat) (f : Flight) (raced : List (Nat × Nat)) : List (Option (Nat × Nat)) → List Nat × State
  | [] => ([], s)
  | none :: r => let q := s.readRun cell f raced r
                 (0 :: q.1, q.2)
  | some w :: r =>
    let v := s.readRaced cell f raced w
    let q := v.2.readRun cell f raced r
    (v.1 :: q.1, q.2)

def State.readWords (s : State) (cell : Nat) (f : Flight) (ws : List (Nat × Nat)) : List Nat × State :=
  s.readRun cell f [] (ws.map some)

/-! ### Landing words -/

/-- The group of a cell makes progress. -/
def State.touchCell (s : State) (cell : Nat) : State := (s.cellRun cell).elim s fun g => s.touch g.id

/-- A word that another unordered write reached ends with one of the two values. -/
def State.settle (s : State) (f : Flight) (w : Nat × Nat) (v : Nat) : Nat × State :=
  if f.contest.contains w then
    let q := s.takeFree
    (if q.1 % 2 = 0 then v else s.word w.1 w.2, q.2)
  else (v, s)

def State.settleAll (s : State) (f : Flight) : List ((Nat × Nat) × Nat) → List (Nat × Nat × Nat) × State
  | [] => ([], s)
  | (w, v) :: r =>
    let p := s.settle f w v
    let q := p.2.settleAll f r
    ((w.1, w.2, p.1) :: q.1, q.2)

/-- Lands the words of an issued instruction, pairing destinations and values in order. -/
def State.landFlight (s : State) (cell : Nat) (f : Flight) (dests : List (Nat × Nat)) (vals : List Nat) : State :=
  let p := s.settleAll f (dests.zip vals)
  let s := p.2.landWords (some (cell, f.engine, f.id)) p.1
  (dests.head?).elim s fun w => s.touchCell w.1

/-- A completed instruction leaves its engine; a close that waited for its words may complete (R153). -/
def State.retireFlight (s : State) (cell : Nat) (f : Flight) : State :=
  let s := (s.updCell cell fun c => { c with flights := c.flights.filter fun o => o.id != f.id }).touchCell cell
  match f.win, f.writes.head? with
  | some _, some w => s.landed w.1 f.id
  | _, _ => s

/-! ### The issue of a MOVE -/

/-- A flight as it stands at issue. -/
def newFlight (raw : InsWord) (eas : List Int) (reads writes : List (Nat × Nat)) (remote ready : Bool) : Flight :=
  { id := 0, engine := engineOf (ins raw).op, raw := raw, eas := eas, modIdx := 0, consts := [], reads := reads, writes := writes,
    ready := ready, alts := [], contest := [], remote := remote, win := none, arrived := false, hostWords := none }

def Cell.eas (c : Cell) (i : Ins) : List Int := (List.range 3).map fun k => c.effective (i.opnd k)

def isMove (form : Nat) (i : Ins) : Bool := i.op == Op.move && i.moveForm == form

/-- MOVE_DIRECT: the extents and groups are checked at issue (R146, R169, R212). -/
def execMoveDirect (t cell : Nat) (s : State) : Host.Outcome State Fault Refusal :=
  run t s fun s => s.issue cell (isMove 0) fun s g c raw =>
    let i := ins raw
    let eas := c.eas i
    if !i.groupsInside g.cells.length || !i.runsInside eas then s.failSeg g.id cell (St.stencilBounds, 0)
    else s.launchChecked g cell (newFlight raw eas (i.readSet g.cells cell eas) (i.writeSet g.cells cell eas) (i.opnd 1).remote (!i.remoteSource))

def Ins.srcStencil (i : Ins) : Nat := bits (i.opRaw 2) 0 8
def Ins.dstStencil (i : Ins) : Nat := bits (i.opRaw 2) 8 8

/-- Whether n slices from `first` on lie in a stencil. -/
def Stencil.slicesInside (st : Stencil) (first : Int) (n : Nat) : Bool := n == 0 || decide (0 ≤ first ∧ first + (n : Int) ≤ (st.slices : Int))

/-- The cell whose scratchpad a SPACE 0 or 1 stencil describes. -/
def State.stencilCell (s : State) (g : SegRun) (cell : Nat) (st : Stencil) : Nat :=
  if st.space = 1 then ((s.stencilGroup g st).getD []).getD st.group cell else cell

/-- Words of n slices of a scratchpad stencil in visiting order; none is a zero word of PAD. -/
def State.padRun (s : State) (g : SegRun) (cell : Nat) (st : Stencil) (first n : Nat) : List (Option (Nat × Nat)) :=
  let holder := s.stencilCell g cell st
  ((st.sliceVisit first n).flatMap (st.wordsAt st.base)).map fun a => a.map fun (x : Int) => (holder, x.toNat)

/-- The words of n slices of a stencil outside the scratchpads (R214, R218, R236). -/
def State.readSlices (s : State) (h : HostView) (g : SegRun) (st : Stencil) (first n : Nat) : Except Err (List Nat) :=
  ((List.range n).mapM fun k => s.readSlice h g st (first + k)).map List.flatten

/-- A key component that a stencil streams is cached, and the segment refers to its shelves (R122, R123). -/
def State.useKey (s : State) (g : SegRun) (st : Stencil) : State :=
  if st.space = 2 ∧ st.bind_ = 4 then
    match s.runEval g, s.runComp g st with
    | some e, some c => (s.cacheComp g.comb g.ten e.keyset c.1 c.2.bytes).refComp g.comb g.ten e.keyset c.1 g.id
    | _, _ => s
  else s

/-- The host words of a stencil MOVE, read at issue. -/
def State.hostWordsOf (s : State) (h : HostView) (g : SegRun) (src : Stencil) (first n : Nat) : Except Err (Option (List Nat)) :=
  if src.space = 4 then (s.readSlices h g src first n).map some else .ok none

/-- The order of a REGEN transfer from its first slice on (R237). -/
def State.regenOk (s : State) (g : SegRun) (src : Stencil) (first n : Nat) : Bool :=
  !src.regen || (match s.runKeys g, s.runComp g src with
    | some k, some c => src.regenFits (k.regenInfo c.2) c.2.bytes first n
    | _, _ => false)

/-- MOVE_STENCIL: slices of one stencil to slices of another (R182, R218, R237). Slices outside a stencil fail (log 35). -/
def execMoveStencil (t cell : Nat) (h : HostView) (s : State) : Host.Outcome State Fault Refusal :=
  run t s fun s => s.issue cell (isMove 1) fun s g c raw =>
    let i := ins raw
    let eas := c.eas i
    let n := (i.opnd 0).len
    match (s.runDef g).bind fun d => d.stencils[i.srcStencil]?, (s.runDef g).bind fun d => d.stencils[i.dstStencil]? with
    | some src, some dst =>
      let a := eas.getD 0 0
      let b := eas.getD 1 0
      if !src.slicesInside a n || !dst.slicesInside b n then s.failSeg g.id cell (St.stencilBounds, 0)
      else if !s.regenOk g src a.toNat n then s.failSeg g.id cell (St.badField, 1)
      else match s.hostWordsOf h g src a.toNat n with
        | .error e => s.failSeg g.id cell e
        | .ok hw =>
          let reads := if src.inPad then (s.padRun g cell src a.toNat n).filterMap id else []
          let writes := if dst.inPad then (s.padRun g cell dst b.toNat n).filterMap id else []
          let s := if n = 0 then s else s.useKey g src
          s.launchChecked g cell { newFlight raw eas reads writes (dst.space == 1) (src.space != 1 || n == 0) with hostWords := hw }
    | _, _ => s.failSeg g.id cell (St.badField, 0)

/-- MOVE_BANK_LOAD: a load into the active bank is refused (R184). -/
def execMoveBankLoad (t cell : Nat) (s : State) : Host.Outcome State Fault Refusal :=
  run t s fun s => s.issue cell (isMove 2) fun s g c raw =>
    if bits ((ins raw).opRaw 2) 8 1 = c.active then s.failSeg g.id cell (St.badField, 1)
    else s.launch cell (newFlight raw [] [] [] false true)

/-! ### Remote traffic -/

def State.flight? (s : State) (cell id : Nat) : Option Flight := (s.cell cell).flights.find? fun f => f.id == id

def State.updFlight (s : State) (cell id : Nat) (f : Flight → Flight) : State :=
  s.updCell cell fun c => { c with flights := c.flights.map fun x => if x.id = id then f x else x }

/-- Whether an issued instruction runs now: the first of its engine, or one of the first eight MOVEs (R166). -/
def Cell.running (c : Cell) (f : Flight) : Bool :=
  ((c.flights.filter fun o => o.engine == f.engine).take (if f.engine = 1 then 8 else 1)).any fun o => o.id == f.id

/-- A MOVE that carries a token and no data. -/
def Flight.tokenOnly (f : Flight) : Bool := (ins f.raw).op == Op.move && (ins f.raw).moveForm != 2 && ((ins f.raw).opnd 0).len == 0

/-- REMOTE_READ: a remote source has been served by the peer's mesh port (R145). -/
def execRemoteRead (t cell flight : Nat) (s : State) : Host.Outcome State Fault Refusal :=
  run t s fun s =>
    match s.flight? cell flight with
    | none => s
    | some f => s.onlyIf ((s.cell cell).running f && !f.ready) fun s => s.updFlight cell flight fun f => { f with ready := true }

/-- Least and greatest address of a list of words. -/
def extentOf (ws : List (Nat × Nat)) : Nat × Nat := (((ws.map (·.2)).min?).getD 0, ((ws.map (·.2)).max?).getD 0)

/-- The window that admits a write of a cell's run into an owner cell (R151). -/
def State.windowFor (s : State) (g : SegRun) (cell owner lo hi : Nat) : Option (Nat × Window) :=
  (s.cellRun owner).bind fun og => s.admits owner og g.ten (combOf cell) lo hi ((g.cells.findIdx? fun c => c == cell).map fun k => (g.id, k))

/-- Drops an instruction under way. -/
def State.dropFlight (s : State) (cell id : Nat) : State := s.updCell cell fun c => { c with flights := c.flights.filter fun o => o.id != id }

/-- The owner's checked mode judges an arriving write against pending accesses (R187). -/
def State.arrivalFault (s : State) (cell owner : Nat) (f : Flight) : Option (SegRun × Nat) :=
  (s.cellRun owner).bind fun og => (s.unfenced og (some (cell, f.engine, f.id)) [] f.writes).map fun c => (og, c)

/-- REMOTE_WRITE_ARRIVE: the first word of a remote write reaches its owner: a window admits it, or it is dropped whole (R151, R152). -/
def execRemoteWriteArrive (t cell flight : Nat) (s : State) : Host.Outcome State Fault Refusal :=
  run t s fun s =>
    match s.flight? cell flight, s.cellRun cell with
    | some f, some g =>
      s.onlyIf ((s.cell cell).running f && f.remote && !f.arrived && !f.writes.isEmpty && f.ready) fun s =>
        let owner := (f.writes.head?).elim cell (·.1)
        let e := extentOf f.writes
        match s.windowFor g cell owner e.1 e.2 with
        | none => (s.dropFlight cell flight).windowViolation g cell owner e.1 e.2
        | some w =>
          let s := s.updFlight cell flight fun f => { f with arrived := true, win := some (w.1, w.2.queue) }
          match s.arrivalFault cell owner f with
          | some p => s.failSeg p.1.id p.2 (St.unfencedRead, p.2)
          | none => s
    | _, _ => s

/-- The destination stencil of a stencil MOVE. -/
def State.moveDst (s : State) (g : SegRun) (i : Ins) : Option Stencil := (s.runDef g).bind fun d => d.stencils[i.dstStencil]?

/-- The post of SRC_PE, once every source word has been read (R183). -/
def State.postSrc (s : State) (cell : Nat) (i : Ins) : State := if i.srcPe then s.postToken cell i.srcQ else s

/-- TOKEN_MOVE_ARRIVE: a MOVE of no words posts to PQ of the cell it names, or, to a peer segment, into the window that admits its BASE (R157, R158, R183). -/
def execTokenMoveArrive (t cell flight : Nat) (s : State) : Host.Outcome State Fault Refusal :=
  run t s fun s =>
    match s.flight? cell flight, s.cellRun cell with
    | some f, some g =>
      s.onlyIf ((s.cell cell).running f && f.tokenOnly) fun s =>
        let i := ins f.raw
        let s := s.retireFlight cell f
        if i.moveForm = 0 then (s.postOpt (holderOf g.cells cell (i.opnd 1)) i.post).postSrc cell i
        else match s.moveDst g i with
          | none => s
          | some dst =>
            let owner := s.stencilCell g cell dst
            if dst.space = 1 ∧ dst.peerSeg ≠ 0 then
              match s.windowFor g cell owner dst.base dst.base with
              | none => s.windowViolation g cell owner dst.base dst.base
              | some w => (if i.pe then s.postToken owner w.2.queue else s).postSrc cell i
            else (s.postOpt (if dst.inPad then owner else cell) i.post).postSrc cell i
    | _, _ => s

/-! ### The completion of a MOVE (R156, R182, R183) -/

/-- Words that a MOVE both reads and writes, unless element by element they are the same. -/
def Flight.selfRaced (f : Flight) : List (Nat × Nat) := if f.reads == f.writes then [] else f.reads.filter fun w => f.writes.contains w

/-- Writes words to DRAM by DVA in order until one is not mapped (log 36). -/
def State.writeDva (s : State) (ten : Nat) : List (Int × Nat) → State × Bool
  | [] => (s, true)
  | (a, v) :: r =>
    if a < 0 then (s, false)
    else match (List.range 4).mapM fun k => s.dram.translate ten (a.toNat + k) with
      | none => (s, false)
      | some ds => State.writeDva { s with dram := s.dram.write (ds.zip (toLE 4 v)) } ten r

/-- Joins words at consecutive byte addresses. -/
def joinWords : List (Int × Nat) → List (Int × List Byte)
  | [] => []
  | (a, v) :: r =>
    match joinWords r with
    | [] => [(a, toLE 4 v)]
    | (b, bs) :: q => if b = a + 4 then (a, toLE 4 v ++ bs) :: q else (a, toLE 4 v) :: (b, bs) :: q

def State.writeHostRuns (s : State) (h : HostView) (ten : Nat) : List (Int × List Byte) → State × Bool
  | [] => (s, true)
  | (a, bs) :: r =>
    if a < 0 then (s, false)
    else let w := s.hostWrite h ten a.toNat bs
         if w.2 then w.1.writeHostRuns h ten r else w

/-- The words that a stencil MOVE moves. -/
def State.moveWords (s : State) (cell : Nat) (g : SegRun) (f : Flight) (src : Stencil) (n : Nat) : Except Err (List Nat) × State :=
  let first := (f.eas.getD 0 0).toNat
  if src.inPad then
    let q := s.readRun cell f f.selfRaced (s.padRun g cell src first n)
    (.ok q.1, q.2)
  else match f.hostWords with
    | some ws => (.ok ws, s)
    | none => (s.readSlices [] g src first n, s)

/-- Where a completed MOVE posts: its own PQ, or the QUEUE of the governing window. -/
def State.movePost (s : State) (cell : Nat) (f : Flight) : State :=
  let i := ins f.raw
  let s :=
    if !i.pe then s
    else if f.remote then (match f.win, f.writes.head? with | some w, some d => s.postToken d.1 w.2 | _, _ => s)
    else s.postToken cell i.pq
  s.postSrc cell i

/-- Byte addresses of n slices of a stencil in DRAM or host memory. -/
def State.byteRun (s : State) (g : SegRun) (st : Stencil) (first n : Nat) : List Int :=
  ((st.sliceVisit first n).flatMap (st.wordsAt (s.resolve g st))).filterMap id

/-- Addresses of the words that a write in order reaches. -/
def State.reached (s : State) (ten : Nat) (as : List Int) : List Nat :=
  (as.takeWhile fun a => decide (0 ≤ a) && (List.range 4).all fun k => (s.dram.translate ten (a.toNat + k)).isSome).map Int.toNat

/-- Notes for R340 what an EVAL has written: words of DRAM by DVA, and runs of host memory. -/
def State.noteWrote (s : State) (ten lring seq : Nat) (ws : List Nat) (runs : List (Nat × Nat)) : State :=
  s.updEval ten lring seq fun v => { v with wrote := v.wrote ++ ws, hostWrote := v.hostWrote ++ runs }

/-- Completes a stencil MOVE. -/
def State.endStencilMove (s : State) (h : HostView) (cell : Nat) (g : SegRun) (f : Flight) (src dst : Stencil) : State :=
  let i := ins f.raw
  let n := (i.opnd 0).len
  match s.moveWords cell g f src n with
  | (.error e, s) => (s.retireFlight cell f).failSeg g.id cell e
  | (.ok ws, s) =>
    if dst.inPad then ((s.landFlight cell f f.writes ws).movePost cell f).retireFlight cell f
    else
      let addrs := s.byteRun g dst (f.eas.getD 1 0).toNat n
      let runs := joinWords (addrs.zip ws)
      let w := if dst.space = 4 then s.writeHostRuns h g.ten runs else s.writeDva g.ten (addrs.zip ws)
      let s := if dst.space = 4 then w.1.noteWrote g.ten g.lring g.seq [] (runs.map fun r => (r.1.toNat, r.2.length))
               else w.1.noteWrote g.ten g.lring g.seq (s.reached g.ten addrs) []
      if w.2 then (s.movePost cell f).retireFlight cell f
      else (s.retireFlight cell f).failSeg g.id cell (St.translationFault, 0)

/-- The program that a cell of a run executes (R161). -/
def State.programOf (s : State) (g : SegRun) (cell : Nat) : List (List InsWord) :=
  (s.runDef g).elim [] fun d => d.programs.getD (nth0 d.cellMap ((g.cells.findIdx? fun c => c == cell).getD 0)) []

/-- A part lands in a bank. -/
def Cell.loadBank (c : Cell) (bank : Nat) (part : List InsWord) : Cell := if bank = 0 then { c with bank0 := part } else { c with bank1 := part }

/-- Completes a MOVE with data or a bank load. A remote write waits for its admission. -/
def State.completeMove (s : State) (h : HostView) (cell : Nat) (g : SegRun) (f : Flight) : State :=
  let i := ins f.raw
  if f.remote && !f.arrived then s
  else if i.moveForm = 0 then
    let q := s.readRun cell f f.selfRaced (f.reads.map some)
    ((q.2.landFlight cell f f.writes q.1).movePost cell f).retireFlight cell f
  else if i.moveForm = 2 then
    let lit := i.opRaw 2
    ((s.updCell cell fun c => c.loadBank (bits lit 8 1) ((s.programOf g cell).getD (bits lit 0 8) [])).movePost cell f).retireFlight cell f
  else match (s.runDef g).bind fun d => d.stencils[i.srcStencil]?, s.moveDst g i with
    | some src, some dst => s.endStencilMove h cell g f src dst
    | _, _ => s

end Sys2Proof.Machine
end

