-- ==== Sys2Proof/Machine/CellArith.lean ====
section
/-! DEFINITION. The arithmetic engines: issue checks, results word by word, and the completion of instructions (R192 to R212, R27, R140, R156, R166, R183). -/

namespace Sys2Proof.Machine

/-! ### Moduli (R27, R30, R179) -/

/-- One round of the strong-pseudoprime test to base b: q - 1 = 2^r * d. -/
def strongRound (q d r b : Nat) : Bool :=
  let x := powMod q 64 (b % q) d
  x == 1 || (List.range r).any fun k => squarings q k x == q - 1

/-- Exponent of two in n, and the odd part (fuel: a bound on the exponent). -/
def oddPart : Nat → Nat → Nat × Nat
  | 0, n => (0, n)
  | f + 1, n => if n % 2 = 0 then let p := oddPart f (n / 2)
                                  (p.1 + 1, p.2)
                else (0, n)

/-- Primality of a residue modulus: bases 2, 7 and 61 decide every number below 4,759,123,141, so every 32-bit one. -/
def primeWord (q : Nat) : Bool :=
  let p := oddPart 32 (q - 1)
  decide (61 < q) && q % 2 == 1 && [2, 7, 61].all fun b => strongRound q p.2 p.1 b

/-- The modulus window of a segment: its table, its base entry, its number of entries. -/
structure ModWin where
  tab  : ModTable
  base : Nat
deriving DecidableEq, Repr

def ModWin.size (w : ModWin) : Nat := min 64 (w.tab.count - w.base)
def ModWin.q (w : ModWin) (i : Nat) : Nat := w.tab.qAt (w.base + i)

def State.modWin (s : State) (g : SegRun) : ModWin :=
  { tab := (s.runGen g).elim { logN := 0, lCount := 0, kCount := 0, entries := [] } (·.modtab), base := (s.runDef g).elim 0 (·.modBase) }

/-! ### The helpers of the pseudocode -/

def madd (q a b : Nat) : Nat := (a + b) % q
def msub (q a b : Nat) : Nat := (a % q + q - b % q) % q
def mmul (q a b : Nat) : Nat := a * b % q

/-- Inverse modulo a prime. -/
def minv (q a : Nat) : Nat := powMod q 64 (a % q) (q - 2)

/-- Exact sum of products. -/
def dot (a b : List Nat) : Nat := (a.zip b).foldl (fun s p => s + p.1 * p.2) 0

/-- The lowest m bits of i reversed. -/
def brv : Nat → Nat → Nat
  | 0, _ => 0
  | m + 1, i => i % 2 * 2 ^ m + brv m (i / 2)

/-- Value of a polynomial at x modulo q. -/
def evalPoly (q x : Nat) (l : List Nat) : Nat := l.foldr (fun c acc => (acc * x + c) % q) 0

/-! ### NTT pipeline (R202) -/

/-- ω of a transform of 2^logn points: the seed's power of order 2n. -/
def nttRoot (m : ModEntry) (logN logn : Nat) : Nat := powMod m.q 64 m.root (2 ^ (logN - logn))

/-- NTTF over a limb of 2^logn words. -/
def nttForward (m : ModEntry) (logN logn : Nat) (src : List Nat) : List Nat :=
  let w := nttRoot m logN logn
  (List.range (2 ^ logn)).map fun i => evalPoly m.q (powMod m.q 64 w (2 * brv logn i + 1)) src

/-- NTTI over a limb of 2^logn words. -/
def nttInverse (m : ModEntry) (logN logn : Nat) (src : List Nat) : List Nat :=
  let n := 2 ^ logn
  let w := nttRoot m logN logn
  let pts := (List.range n).map fun i => powMod m.q 64 w (2 * n - (2 * brv logn i + 1))
  (List.range n).map fun j => minv m.q n * (dot src (pts.map fun x => powMod m.q 64 x j) % m.q) % m.q

/-! ### The trowel (R203 to R208) -/

/-- TPERM in the coefficient domain: position d receives the word whose product with GALOIS falls on d or on d + n. -/
def permCoeff (q n g : Nat) (src : List Nat) : List Nat :=
  let gi := powMod (2 * n) 64 g (2 * n - 1)
  (List.range n).map fun d =>
    let j := d * gi % (2 * n)
    if j < n then nth0 src j % q else msub q 0 (nth0 src (j - n))

/-- TPERM in the evaluation domain. -/
def permEval (q logn g : Nat) (src : List Nat) : List Nat :=
  let n := 2 ^ logn
  (List.range n).map fun i => nth0 src (brv logn (((2 * brv logn i + 1) * g % (2 * n) - 1) / 2)) % q

/-- A residue as a centred integer. -/
def centred (q x : Nat) : Int := if x % q > q / 2 then ((x % q : Nat) : Int) - q else ((x % q : Nat) : Int)

/-- The least non-negative residue of an integer. -/
def resid (q : Nat) (x : Int) : Nat := (x % (q : Int)).toNat

/-- The signed digits of v, lowest first. -/
def digits (bitsN : Nat) : Nat → Int → List Int
  | 0, _ => []
  | n + 1, v =>
    let b : Int := (2 ^ bitsN : Nat)
    let d0 := v % b
    let d := if 2 * d0 ≥ b then d0 - b else d0
    d :: digits bitsN n ((v - d) / b)

/-- The value TDEC splits: the centred residue rounded down by SHIFT bits. -/
def decValue (q shift x : Nat) : Int :=
  let c := centred q x
  if shift = 0 then c else (c + (2 ^ (shift - 1) : Nat)) / ((2 ^ shift : Nat) : Int)

/-- TDEC: digit t of element e at t * E + e. -/
def decompose (q bitsN ell shift : Nat) (src : List Nat) : List Nat :=
  let ds := src.map fun x => digits bitsN ell (decValue q shift x)
  (List.range ell).flatMap fun t => ds.map fun d => resid q (d.getD t 0)

/-- TRESC for one element. -/
def rescale (q qd : Nat) (round : Bool) (x y : Nat) : Nat :=
  let c0 := y % qd
  let c : Int := if round ∧ c0 > qd / 2 then (c0 : Int) - qd else c0
  mmul q (msub q x (resid q c)) (minv q qd)

/-- TRED over rows of COLS words: AXIS 0 sums columns, AXIS 1 rows. -/
def reduceRows (q cols : Nat) (axis : Bool) (src : List Nat) : List Nat :=
  let rows := chunks cols src.length src
  if axis then rows.map fun r => sumL r % q
  else (List.range cols).map fun c => sumL (rows.map fun r => nth0 r c) % q

/-- Result of a trowel instruction on OP0's words `a` and OP1's words or constants `b`. -/
def trowelOut (w : ModWin) (i : Ins) (idx : Nat) (a b : List Nat) : List Nat :=
  let q := w.q idx
  let op := i.op
  if op = Op.tadd then (a.zip b).map fun p => madd q p.1 p.2
  else if op = Op.tsub then (a.zip b).map fun p => msub q p.1 p.2
  else if op = Op.tmul then (a.zip b).map fun p => mmul q p.1 p.2
  else if op = Op.tmulc then a.map fun x => if i.plus then madd q (mmul q x (nth0 b 0)) (nth0 b 1) else mmul q x (nth0 b 0)
  else if op = Op.tperm then (if i.domain then permCoeff q (2 ^ i.permLogn) i.galois a else permEval q i.permLogn i.galois a)
  else if op = Op.tdec then decompose q i.decBits i.ell i.shift a
  else if op = Op.tresc then (a.zip b).map fun p => rescale q (w.q i.dropIdx) i.round p.1 p.2
  else reduceRows q i.cols i.axis a

/-! ### The skim unit (R209) -/

/-- SKIM over its streams: `xs` of OP0, `ys` of OP1 (one list for SCALE), `d` the old destination. -/
def skimOut (q form : Nat) (acc : Bool) (e : Nat) (xs ys : List (List Nat)) (d : List Nat) : List Nat :=
  (List.range e).map fun k =>
    let terms := ((List.range xs.length).zip xs).map fun p =>
      let x := nth0 p.2 k
      if form = 0 then x else if form = 1 then x * nth0 (ys.getD p.1 []) k else x * nth0 (ys.getD 0 []) p.1
    ((if acc then nth0 d k else 0) + sumL terms) % q

/-! ### The noise port (R210, R211) -/

/-- One draw of a distribution from a random number: any number of the support (log 3). -/
def drawOf (dist q r : Nat) : Int := if dist = 0 then ((r % 83 : Nat) : Int) - 41 else if dist = 1 then ((r % 3 : Nat) : Int) - 1 else ((r % q : Nat) : Int)

/-! ### MAC array (R196 to R201) -/

/-- Index of an accumulator entry. -/
def accKey (tile row col : Nat) : Nat := tile * 8192 + row * 128 + col

/-- Columns of a 64 x 128 plane. -/
def planeCols (plane : List Nat) : List (List Nat) :=
  let rows := chunks 128 plane.length plane
  (List.range 128).map fun j => rows.map fun r => nth0 r j

/-- The products that an instruction adds: (row, column, exact sum). -/
def macProducts (i : Ins) (a plane : List Nat) : List (Nat × Nat × Nat) :=
  if i.op = Op.mact then
    let cols := planeCols plane
    ((List.range i.rows).zip (chunks 64 a.length a)).flatMap fun r => ((List.range 128).zip cols).map fun c => (r.1, c.1, dot r.2 c.2)
  else if i.transb then
    ((List.range 64).zip (chunks 128 plane.length plane)).map fun r => (i.macvRow, r.1, dot a r.2)
  else ((List.range 128).zip (planeCols plane)).map fun c => (i.macvRow, c.1, dot a c.2)

/-- Modulus index of a column; none where COLMOD does not compute it. -/
def colIndex (w : ModWin) (i : Ins) (m0 col : Nat) : Option Nat :=
  if i.colmod then (if m0 + col < w.size then some (m0 + col) else none) else some m0

/-- Accumulates products modulo their columns' moduli. -/
def macAccumulate (w : ModWin) (i : Ins) (m0 : Nat) (acc : Tbl Nat) (ps : List (Nat × Nat × Nat)) : Tbl Nat :=
  ps.foldl (fun acc p =>
    match colIndex w i m0 p.2.1 with
    | none => acc
    | some k =>
      let key := accKey i.tile p.1 p.2.1
      Tbl.putZ acc key ((Tbl.lookD acc key 0 + p.2.2) % w.q k)) acc

/-- A tile with every entry zero. -/
def clearTile (tile : Nat) (acc : Tbl Nat) : Tbl Nat := acc.filter fun e => e.1 / 8192 != tile

/-- The flushed tile; none is a word computed with a composite modulus (R27). -/
def flushTile (w : ModWin) (i : Ins) (m0 : Nat) (acc : Tbl Nat) : List (Option Nat) :=
  (List.range 8192).map fun e =>
    match colIndex w i m0 (e % 128) with
    | none => some 0
    | some k => if primeWord (w.q k) then some (Tbl.lookD acc (i.tile * 8192 + e) 0) else none

/-! ### Issue (R169, R179, R196, R207, R212) -/

/-- The failures of an arithmetic instruction at issue. -/
def arithFault (w : ModWin) (g : SegRun) (c : Cell) (i : Ins) : Option Err :=
  let idx := c.modIndex i
  if !i.groupsInside g.cells.length || !i.runsInside (c.eas i) then some (St.stencilBounds, 0)
  else if idx ≥ w.size then some (St.modulusForm, idx)
  else if i.op = Op.tresc ∧ i.dropIdx ≥ w.size then some (St.modulusForm, i.dropIdx)
  else if i.op = Op.tresc ∧ i.dropIdx = idx then some (St.badField, 0x19)
  else if (i.op = Op.mact ∨ i.op = Op.macv) ∧ !i.zero then
    match Tbl.look c.bound i.tile with
    | none => some (St.badField, 0x1A)
    | some b => if b = (idx, i.colmod) then none else some (St.badField, 0x1E)
  else none

/-- Issues an arithmetic instruction of one opcode. -/
def State.arith (s : State) (cell op : Nat) : State :=
  s.issue cell (fun i => i.op == op) fun s g c raw =>
    let i := ins raw
    match arithFault (s.modWin g) g c i with
    | some e => s.failSeg g.id cell e
    | none =>
      let eas := c.eas i
      let s := if (i.op = Op.mact ∨ i.op = Op.macv) ∧ i.zero then
          s.updCell cell fun x => { x with bound := Tbl.put x.bound i.tile (c.modIndex i, i.colmod) } else s
      let f := { newFlight raw eas (i.readSet g.cells cell eas) (i.writeSet g.cells cell eas) false (!i.remoteSource) with modIdx := c.modIndex i }
      let q := if i.op = Op.tmulc then
          (if i.cind then s.readWords cell f (runWords (holderOf g.cells cell (i.opnd 1)) (eas.getD 1 0) (i.opnd 1).stride 0 (i.opnd 1).len)
           else ([bits (i.opRaw 1) 0 32, bits (i.opRaw 1) 32 32], s)) else ([], s)
      q.2.launchChecked g cell { f with consts := q.1 }

def execMact (t cell : Nat) (s : State) : Host.Outcome State Fault Refusal := run t s fun s => s.arith cell Op.mact
def execMacv (t cell : Nat) (s : State) : Host.Outcome State Fault Refusal := run t s fun s => s.arith cell Op.macv
def execNttf (t cell : Nat) (s : State) : Host.Outcome State Fault Refusal := run t s fun s => s.arith cell Op.nttf
def execNtti (t cell : Nat) (s : State) : Host.Outcome State Fault Refusal := run t s fun s => s.arith cell Op.ntti
def execTadd (t cell : Nat) (s : State) : Host.Outcome State Fault Refusal := run t s fun s => s.arith cell Op.tadd
def execTsub (t cell : Nat) (s : State) : Host.Outcome State Fault Refusal := run t s fun s => s.arith cell Op.tsub
def execTmul (t cell : Nat) (s : State) : Host.Outcome State Fault Refusal := run t s fun s => s.arith cell Op.tmul
def execTmulc (t cell : Nat) (s : State) : Host.Outcome State Fault Refusal := run t s fun s => s.arith cell Op.tmulc
def execTperm (t cell : Nat) (s : State) : Host.Outcome State Fault Refusal := run t s fun s => s.arith cell Op.tperm
def execTdec (t cell : Nat) (s : State) : Host.Outcome State Fault Refusal := run t s fun s => s.arith cell Op.tdec
def execTresc (t cell : Nat) (s : State) : Host.Outcome State Fault Refusal := run t s fun s => s.arith cell Op.tresc
def execTred (t cell : Nat) (s : State) : Host.Outcome State Fault Refusal := run t s fun s => s.arith cell Op.tred
def execSkim (t cell : Nat) (s : State) : Host.Outcome State Fault Refusal := run t s fun s => s.arith cell Op.skim
def execNoise (t cell : Nat) (s : State) : Host.Outcome State Fault Refusal := run t s fun s => s.arith cell Op.noise

/-! ### Completion -/

/-- Operations charged for an instruction (R195). -/
def opsOf (w : ModWin) (i : Ins) (m0 : Nat) : Nat :=
  let op := i.op
  let e := i.elems
  let computed (n : Nat) : Nat := if i.colmod then min n (w.size - m0) else n
  if op = Op.mact then 2 * i.rows * 64 * computed 128
  else if op = Op.macv then (if i.transb then 2 * 128 * computed 64 else 2 * 64 * computed 128)
  else if op = Op.nttf ∨ op = Op.ntti then 3 * (2 ^ i.logn / 2) * i.logn
  else if op = Op.tadd ∨ op = Op.tsub ∨ op = Op.tmul then e
  else if op = Op.tmulc then (if i.plus then 2 * e else e)
  else if op = Op.tperm then 0
  else if op = Op.tdec ∨ op = Op.tred then (i.opnd 0).len
  else if op = Op.tresc then 2 * e
  else if op = Op.skim then (if i.skimForm = 0 then i.streams * e else 2 * i.streams * e)
  else if i.add then e else 0

/-- The source runs of an issued instruction as word lists. -/
def sourceLists (g : SegRun) (cell : Nat) (f : Flight) : List (List (Nat × Nat)) :=
  let i := ins f.raw
  i.sourceRuns.map fun r => runWords (holderOf g.cells cell (i.opnd r.1)) (f.eas.getD r.1 0) (i.opnd r.1).stride r.2.1 r.2.2

/-- Reads the source runs. -/
def State.readLists (s : State) (cell : Nat) (f : Flight) : List (List (Nat × Nat)) → List (List Nat) × State
  | [] => ([], s)
  | l :: r =>
    let p := s.readWords cell f l
    let q := p.2.readLists cell f r
    (p.1 :: q.1, q.2)

/-- Destination words left undefined by an overlap with a source (R194): any overlap in TPERM, TDEC and TRED; elsewhere an overlap with a run that does not coincide exactly. -/
def undefinedDests (f : Flight) (srcs : List (List (Nat × Nat))) : List (Nat × Nat) :=
  let op := (ins f.raw).op
  let strict := op == Op.tperm || op == Op.tdec || op == Op.tred
  let bad := srcs.filter fun l => strict || l != f.writes
  f.writes.filter fun w => bad.any fun l => l.contains w

/-- Replaces what is undefined by free values. -/
def State.fill (s : State) : List (Option Nat) → List Nat × State
  | [] => ([], s)
  | some v :: r => let q := s.fill r
                   (v :: q.1, q.2)
  | none :: r =>
    let p := s.takeFree
    let q := p.2.fill r
    (p.1 % 2 ^ 32 :: q.1, q.2)

/-- Writes an engine's results to OP2, posts, charges and retires the instruction. -/
def State.endArith (s : State) (cell : Nat) (g : SegRun) (w : ModWin) (f : Flight) (srcs : List (List (Nat × Nat))) (out : List (Option Nat)) : State :=
  let i := ins f.raw
  let undef := undefinedDests f srcs
  let p := s.fill ((f.writes.zip out).map fun x => if undef.contains x.1 then none else x.2)
  let s := p.2.landFlight cell f f.writes p.1
  let s := s.updSeg g.id fun g => { g with charged := if g.fail.isNone then g.charged + opsOf w i f.modIdx else g.charged }
  (s.postOpt cell i.post).retireFlight cell f

/-- MACT and MACV: the plane, the tile, the flush (R196 to R201). A flush to a full finished-tile queue stalls (R140). -/
def State.completeMac (s : State) (cell : Nat) (g : SegRun) (w : ModWin) (f : Flight) : State :=
  let i := ins f.raw
  let srcs := sourceLists g cell f
  if i.flush && i.fdest && decide (4 ≤ (s.cell cell).ftq.length) then s
  else
    let p := s.readLists cell f srcs
    let a := p.1.getD 0 []
    let b := p.1.getD 1 []
    let load (c : Cell) : Cell := if i.keepb then c else { c with idlePlane := c.plane, plane := b }
    let add (c : Cell) : Cell :=
      { c with acc := macAccumulate w i f.modIdx (if i.zero then clearTile i.tile c.acc else c.acc) (macProducts i a c.plane) }
    let s := p.2.updCell cell fun c => add (load c)
    let out := if i.flush then flushTile w i f.modIdx (s.cell cell).acc else []
    if i.fdest then
      let q := s.fill out
      let s := if i.flush then q.2.updCell cell fun c => { c with ftq := c.ftq ++ [q.1] } else s
      s.endArith cell g w f srcs []
    else s.endArith cell g w f srcs out

/-- OP0's words of a trowel instruction: from the head tile with FTQ, else its first run. -/
def trowelA (i : Ins) (f : Flight) (c : Cell) (runs : List (List Nat)) : List Nat :=
  if i.ftq then (runAddrs (f.eas.getD 0 0) (i.opnd 0).stride (i.opnd 0).len).map fun (a : Int) => nth0 (c.ftq.getD 0 []) a.toNat
  else runs.getD 0 []

/-- OP1's words: the constants of TMULC, else the last run. -/
def trowelB (i : Ins) (f : Flight) (runs : List (List Nat)) : List Nat := if i.op = Op.tmulc then f.consts else runs.getLastD []

/-- A trowel instruction; with FTQ it waits for a tile, with POP it removes it (R201). -/
def State.completeTrowel (s : State) (cell : Nat) (g : SegRun) (w : ModWin) (f : Flight) : State :=
  let i := ins f.raw
  let srcs := sourceLists g cell f
  if i.ftq && (s.cell cell).ftq.isEmpty then s
  else
    let p := s.readLists cell f srcs
    let a := trowelA i f (s.cell cell) p.1
    let ok := primeWord (w.q f.modIdx) && (i.op != Op.tresc || primeWord (w.q i.dropIdx))
    let out := (trowelOut w i f.modIdx a (trowelB i f p.1)).map fun v => if ok then some v else none
    let s := if i.pop then p.2.updCell cell fun c => { c with ftq := c.ftq.drop 1 } else p.2
    s.endArith cell g w f srcs out

/-- NTTF and NTTI (R202). -/
def State.completeNtt (s : State) (cell : Nat) (g : SegRun) (w : ModWin) (f : Flight) : State :=
  let i := ins f.raw
  let srcs := sourceLists g cell f
  let p := s.readLists cell f srcs
  match w.tab.entry (w.base + f.modIdx) with
  | none => s
  | some m =>
    let src := p.1.getD 0 []
    let out := if i.op = Op.nttf then nttForward m w.tab.logN i.logn src else nttInverse m w.tab.logN i.logn src
    p.2.endArith cell g w f srcs (out.map fun v => if primeWord m.q then some v else none)

/-- SKIM (R209). -/
def State.completeSkim (s : State) (cell : Nat) (g : SegRun) (w : ModWin) (f : Flight) : State :=
  let i := ins f.raw
  let srcs := sourceLists g cell f
  let p := s.readLists cell f srcs
  let q := w.q f.modIdx
  let ys := (p.1.drop i.streams).take (if i.skimForm = 1 then i.streams else 1)
  let out := skimOut q i.skimForm i.acc i.elems (p.1.take i.streams) ys (p.1.getLastD [])
  p.2.endArith cell g w f srcs (out.map fun v => if primeWord q then some v else none)

/-- The draws of a NOISE: fresh ones, kept for REPEAT unless uniform, or those of the last (R210, R211). -/
def State.noiseDraws (s : State) (cell : Nat) (i : Ins) (q : Nat) : List Int × State :=
  if i.repeat_ then (((s.cell cell).noise.elim [] (·.ints)), s)
  else
    let zs := (List.range i.elems).map fun k => drawOf i.dist q (Config.random (s.draws + k))
    let s := (s.skipRandoms i.elems).updCell cell fun c => { c with noise := some { dist := i.dist, ints := zs } }
    (zs, s.updComb (combOf cell) fun c => { c with drawn := c.drawn + 4 * i.elems })

/-- NOISE; a port of a comb whose sampler has no seed waits (R263 to R265). -/
def State.completeNoise (s : State) (cell : Nat) (g : SegRun) (w : ModWin) (f : Flight) : State :=
  let i := ins f.raw
  let srcs := sourceLists g cell f
  if !(s.comb (combOf cell)).seeded then s
  else
    let p := s.readLists cell f srcs
    let q := w.q f.modIdx
    let d := p.2.noiseDraws cell i q
    let zs := d.1.map (resid q)
    let out := if i.add then ((p.1.getD 0 []).zip zs).map fun x => madd q x.1 x.2 else zs
    d.2.endArith cell g w f srcs (out.map fun v => if primeWord q then some v else none)

/-- INSTRUCTION_COMPLETE: an issued instruction or MOVE completes: its words land, then it posts (R156, R166). -/
def execInstructionComplete (t cell flight : Nat) (h : HostView) (s : State) : Host.Outcome State Fault Refusal :=
  run t s fun s =>
    match s.flight? cell flight, s.cellRun cell with
    | some f, some g =>
      s.onlyIf ((s.cell cell).running f && f.ready && !f.tokenOnly) fun s =>
        let w := s.modWin g
        if f.engine = 1 then s.completeMove h cell g f
        else if f.engine = 2 then s.completeMac cell g w f
        else if f.engine = 3 then s.completeNtt cell g w f
        else if f.engine = 4 then s.completeTrowel cell g w f
        else if f.engine = 5 then s.completeSkim cell g w f
        else s.completeNoise cell g w f
    | _, _ => s

end Sys2Proof.Machine
end

