-- ==== Sys2Proof/Machine/Crypto.lean ====
section
/-! DEFINITION. The published algorithms that the manual names: AES-256-GCM, ECDSA and ECDH on P-256 and P-384, Ed25519, X25519, RSA-PSS verification (R277, R282, R285 to R287, R314; log 19). -/

namespace Sys2Proof.Machine

/-! ### AES-256 (FIPS 197) -/

/-- Product in GF(2^8) by the bits of b (fuel: 8). -/
def gf8 : Nat → Nat → Nat → Nat
  | 0, _, _ => 0
  | n + 1, a, b =>
    let a2 := if a * 2 ≥ 256 then (a * 2 ^^^ 0x11B) else a * 2
    (if b % 2 = 1 then a else 0) ^^^ gf8 n a2 (b / 2)

def gfMul (a b : Nat) : Nat := gf8 8 a b

/-- The inverse in GF(2^8), as the 254th power. -/
def gfInv (a : Nat) : Nat :=
  let a2 := gfMul a a
  let a4 := gfMul a2 a2
  let a8 := gfMul a4 a4
  let a16 := gfMul a8 a8
  let a32 := gfMul a16 a16
  let a64 := gfMul a32 a32
  let a128 := gfMul a64 a64
  gfMul a128 (gfMul a64 (gfMul a32 (gfMul a16 (gfMul a8 (gfMul a4 a2)))))

def rotl8 (v n : Nat) : Nat := (v * 2 ^ n + v / 2 ^ (8 - n)) % 256

def sboxOf (a : Nat) : Nat :=
  let b := gfInv a
  b ^^^ rotl8 b 1 ^^^ rotl8 b 2 ^^^ rotl8 b 3 ^^^ rotl8 b 4 ^^^ 0x63

def sbox : List Nat := (List.range 256).map sboxOf

def subByte (a : Nat) : Nat := nth0 sbox a

/-- Key words of AES-256, newest first: n more, the next one having index i. -/
def aesExpand : Nat → Nat → List (List Nat) → List (List Nat)
  | 0, _, w => w
  | n + 1, i, w =>
    let t := w.headD []
    let t' :=
      if i % 8 = 0 then ((t.drop 1 ++ t.take 1).map subByte).mapIdx fun k x => if k = 0 then x ^^^ 2 ^ (i / 8 - 1) else x
      else if i % 8 = 4 then t.map subByte else t
    aesExpand n (i + 1) (List.zipWith (· ^^^ ·) t' (w.getD 7 []) :: w)

/-- The 15 round keys of 16 bytes. -/
def aesKeys (key : List Nat) : List (List Nat) :=
  let w := (aesExpand 52 8 (chunks 4 8 key).reverse).reverse
  chunks 16 15 w.flatten

def shiftRows (s : List Nat) : List Nat := (List.range 16).map fun i => nth0 s ((i % 4) + 4 * ((i / 4 + i % 4) % 4))

def mixColumn (c : List Nat) : List Nat :=
  (List.range 4).map fun i =>
    gfMul 2 (nth0 c i) ^^^ gfMul 3 (nth0 c ((i + 1) % 4)) ^^^ nth0 c ((i + 2) % 4) ^^^ nth0 c ((i + 3) % 4)

def xorNats (a b : List Nat) : List Nat := List.zipWith (· ^^^ ·) a b

/-- Rounds 1 to 13, then the last. -/
def aesRounds : List (List Nat) → List Nat → List Nat
  | [], s => s
  | [k], s => xorNats (shiftRows (s.map subByte)) k
  | k :: r, s => aesRounds r (xorNats ((chunks 4 4 (shiftRows (s.map subByte))).flatMap mixColumn) k)

/-- One block under expanded keys. -/
def aesBlock (keys : List (List Nat)) (block : List Nat) : List Nat := aesRounds (keys.drop 1) (xorNats block (keys.headD []))

/-! ### GCM (SP 800-38D) -/

/-- Product in GF(2^128), blocks as big-endian numbers: bits of x from the top. -/
def gfmul128 : Nat → Nat → Nat → Nat → Nat
  | 0, _, _, z => z
  | n + 1, x, v, z =>
    let z' := if x / 2 ^ n % 2 = 1 then z ^^^ v else z
    let v' := if v % 2 = 1 then (v / 2) ^^^ (0xE1 * 2 ^ 120) else v / 2
    gfmul128 n x v' z'

def padBlock (l : List Byte) : List Byte := l ++ zeros ((16 - l.length % 16) % 16)

def ghash (h : Nat) (data : List Byte) : Nat :=
  (chunks 16 data.length data).foldl (fun y b => gfmul128 128 (y ^^^ beNat b) h 0) 0

/-- Key stream of n blocks from counter c on. -/
def ctrBlocks (keys : List (List Nat)) (iv : List Nat) : Nat → Nat → List Byte
  | 0, _ => []
  | n + 1, c => ((aesBlock keys (iv ++ (toBE 4 c).map (·.toNat))).map fun x => BitVec.ofNat 8 x) ++ ctrBlocks keys iv n (c + 1)

/-- Encryption or decryption of data, and the tag over AAD and ciphertext. -/
def gcm (key nonce aad data : List Byte) (encrypt : Bool) : List Byte × List Byte :=
  let keys := aesKeys (key.map (·.toNat))
  let iv := nonce.map (·.toNat)
  let stream := ctrBlocks keys iv (ceilDiv data.length 16 + 1) 1
  let out := xorBytes data (stream.drop 16)
  let ct := if encrypt then out else data
  let h := beNat ((aesBlock keys (List.replicate 16 0)).map fun x => BitVec.ofNat 8 x)
  let s := ghash h (padBlock aad ++ padBlock ct ++ toBE 8 (8 * aad.length) ++ toBE 8 (8 * ct.length))
  (out, xorBytes (toBE 16 s) (stream.take 16))

def gcmEncrypt (key nonce aad plain : List Byte) : List Byte × List Byte := gcm key nonce aad plain true

/-- Plaintext of a ciphertext whose tag authenticates. -/
def gcmDecrypt (key nonce aad ct tag : List Byte) : Option (List Byte) :=
  let q := gcm key nonce aad ct false
  if q.2 = tag then some q.1 else none

/-! ### P-256 and P-384 (FIPS 186-5, R285) -/

structure Curve where
  p : Nat
  b : Nat
  gx : Nat
  gy : Nat
  n : Nat
  len : Nat
deriving DecidableEq, Repr

def p256 : Curve :=
  { p := 0xffffffff00000001000000000000000000000000ffffffffffffffffffffffff
    b := 0x5ac635d8aa3a93e7b3ebbd55769886bc651d06b0cc53b0f63bce3c3e27d2604b
    gx := 0x6b17d1f2e12c4247f8bce6e563a440f277037d812deb33a0f4a13945d898c296
    gy := 0x4fe342e2fe1a7f9b8ee7eb4a7c0f9e162bce33576b315ececbb6406837bf51f5
    n := 0xffffffff00000000ffffffffffffffffbce6faada7179e84f3b9cac2fc632551, len := 32 }

def p384 : Curve :=
  { p := 0xfffffffffffffffffffffffffffffffffffffffffffffffffffffffffffffffeffffffff0000000000000000ffffffff
    b := 0xb3312fa7e23ee7e4988e056be3f82d19181d9c6efe8141120314088f5013875ac656398d8a2ed19d2a85c8edd3ec2aef
    gx := 0xaa87ca22be8b05378eb1c71ef320ad746e1d3b628ba79b9859f741e082542a385502f25dbf55296c3a545e3872760ab7
    gy := 0x3617de4a96262c6f5d9e98bf9292dc29f8f41dbd289a147ce9da3113b5f0b8c00a60b1ce1d7e819d7a431d7c90ea0e5f
    n := 0xffffffffffffffffffffffffffffffffffffffffffffffffc7634d81f4372ddf581a0db248b0a77aecec196accc52973, len := 48 }

/-- The point at infinity is none. -/
abbrev Pt := Option (Nat × Nat)

def subMod (p a b : Nat) : Nat := (a % p + p - b % p) % p
def invMod (p a : Nat) : Nat := powMod p 600 (a % p) (p - 2)

def Curve.double (c : Curve) : Pt → Pt
  | none => none
  | some (x, y) =>
    if y = 0 then none
    else
      let l := subMod c.p (3 * x * x) 3 * invMod c.p (2 * y) % c.p
      let x3 := subMod c.p (l * l) (2 * x)
      some (x3, subMod c.p (l * subMod c.p x x3) y)

def Curve.add (c : Curve) : Pt → Pt → Pt
  | none, q => q
  | p, none => p
  | some (x1, y1), some (x2, y2) =>
    if x1 = x2 then (if y1 = y2 then c.double (some (x1, y1)) else none)
    else
      let l := subMod c.p y2 y1 * invMod c.p (subMod c.p x2 x1) % c.p
      let x3 := subMod c.p (l * l) (x1 + x2)
      some (x3, subMod c.p (l * subMod c.p x1 x3) y1)

/-- k times a point, by the bits of k from the lowest (fuel: a bound on its bit length). -/
def Curve.mulBits (c : Curve) : Nat → Nat → Pt → Pt → Pt
  | 0, _, _, acc => acc
  | f + 1, k, p, acc => if k = 0 then acc else c.mulBits f (k / 2) (c.double p) (if k % 2 = 1 then c.add acc p else acc)

def Curve.mul (c : Curve) (k : Nat) (p : Pt) : Pt := c.mulBits 600 k p none
def Curve.g (c : Curve) : Pt := some (c.gx, c.gy)

/-- The checks of R285 on X and Y: range and curve equation. -/
def Curve.onCurve (c : Curve) (x y : Nat) : Bool :=
  decide (x < c.p ∧ y < c.p) && y * y % c.p == (x * x * x + (c.p - 3) * x + c.b) % c.p

/-- X then Y, without a prefix byte. -/
def Curve.xyPoint (c : Curve) (l : List Byte) : Option (Nat × Nat) :=
  let x := beNat (l.take c.len)
  let y := beNat ((l.drop c.len).take c.len)
  if c.onCurve x y then some (x, y) else none

/-- The encoding with its prefix byte (R285). -/
def Curve.decode (c : Curve) (l : List Byte) : Option (Nat × Nat) := if l.headD 0#8 = 4#8 then c.xyPoint (l.drop 1) else none

def Curve.xyBytes (c : Curve) : Pt → List Byte
  | none => zeros (2 * c.len)
  | some (x, y) => toBE c.len x ++ toBE c.len y

def Curve.encode (c : Curve) (p : Pt) : List Byte := 4#8 :: c.xyBytes p

/-- Whether a private scalar lies in [1, n - 1] (R283). -/
def Curve.scalarOk (c : Curve) (d : Nat) : Bool := decide (0 < d ∧ d < c.n)

/-- X coordinate of d times a peer's point. -/
def Curve.ecdh (c : Curve) (d : Nat) (q : Nat × Nat) : List Byte := (c.xyBytes (c.mul d (some q))).take c.len

/-- The leftmost bits of a digest. -/
def Curve.digest (c : Curve) (h : List Byte) : Nat := beNat (h.take c.len)

/-- ECDSA with nonce k; none where r or s is zero and another nonce is needed. -/
def Curve.sign (c : Curve) (d z k : Nat) : Option (List Byte) :=
  match c.mul k c.g with
  | none => none
  | some (x, _) =>
    let r := x % c.n
    let s := invMod c.n k * (z + r * d) % c.n
    if r = 0 ∨ s = 0 then none else some (toBE c.len r ++ toBE c.len s)

def Curve.verify (c : Curve) (q : Nat × Nat) (z : Nat) (sig : List Byte) : Bool :=
  let r := beNat (sig.take c.len)
  let s := beNat ((sig.drop c.len).take c.len)
  c.scalarOk r && c.scalarOk s &&
    (let w := invMod c.n s
     match c.add (c.mul (z * w % c.n) c.g) (c.mul (r * w % c.n) (some q)) with
     | none => false
     | some (x, _) => x % c.n == r)

/-! ### Ed25519 (RFC 8032) and X25519 (RFC 7748) -/

def p25519 : Nat := 2 ^ 255 - 19
def edL : Nat := 2 ^ 252 + 27742317777372353535851937790883648493
def edD : Nat := 0x52036cee2b6ffe738cc740797779e89800700a4d4141d8ab75eb4dca135978a3
def edBase : Nat × Nat :=
  (0x216936d3cd6e53fec0a4e231fdd6dc5c692cc7609525a7b2c9562d608f25d51a, 0x6666666666666666666666666666666666666666666666666666666666666658)

/-- Addition on the twisted Edwards curve -x^2 + y^2 = 1 + d x^2 y^2, which is complete. -/
def edAdd (a b : Nat × Nat) : Nat × Nat :=
  let p := p25519
  let k := edD * (a.1 * b.1 % p) % p * (a.2 * b.2 % p) % p
  ((a.1 * b.2 + b.1 * a.2) % p * invMod p (1 + k) % p, (a.2 * b.2 + a.1 * b.1) % p * invMod p (subMod p 1 k) % p)

def edMulBits : Nat → Nat → Nat × Nat → Nat × Nat → Nat × Nat
  | 0, _, _, acc => acc
  | f + 1, k, p, acc => if k = 0 then acc else edMulBits f (k / 2) (edAdd p p) (if k % 2 = 1 then edAdd acc p else acc)

def edMul (k : Nat) (p : Nat × Nat) : Nat × Nat := edMulBits 520 k p (0, 1)

/-- A square root modulo 2^255 - 19, if there is one. -/
def sqrt25519 (a : Nat) : Option Nat :=
  let p := p25519
  let r := powMod p 600 (a % p) ((p + 3) / 8)
  if r * r % p = a % p then some r
  else
    let r2 := r * powMod p 600 2 ((p - 1) / 4) % p
    if r2 * r2 % p = a % p then some r2 else none

/-- Decodes a point: y below p, x by its sign bit. -/
def edDecode (l : List Byte) : Option (Nat × Nat) :=
  let v := leNat l
  let y := v % 2 ^ 255
  let sign := v / 2 ^ 255
  let p := p25519
  if y ≥ p then none
  else match sqrt25519 (subMod p (y * y) 1 * invMod p (edD * (y * y % p) + 1) % p) with
    | none => none
    | some x => if x = 0 ∧ sign = 1 then none else some (if x % 2 = sign then x else (p - x) % p, y)

def edEncode (q : Nat × Nat) : List Byte := toLE 32 (q.2 + q.1 % 2 * 2 ^ 255)

/-- The clamped scalar of 32 bytes. -/
def clamp (l : List Byte) : Nat := let v := leNat l
                                   v % 2 ^ 254 / 8 * 8 + 2 ^ 254

def edPublic (seed : List Byte) : List Byte := edEncode (edMul (clamp ((sha512 seed).take 32)) edBase)

def edSign (seed msg : List Byte) : List Byte :=
  let h := sha512 seed
  let a := clamp (h.take 32)
  let pub := edEncode (edMul a edBase)
  let r := leNat (sha512 (h.drop 32 ++ msg)) % edL
  let rB := edEncode (edMul r edBase)
  let k := leNat (sha512 (rB ++ pub ++ msg)) % edL
  rB ++ toLE 32 ((r + k * a) % edL)

/-- A public key that R286 accepts. -/
def edKey (pub : List Byte) : Option (Nat × Nat) :=
  (edDecode pub).bind fun a => if edMul 8 a = (0, 1) then none else some a

/-- The cofactorless equation [S]B = R + [k]A. -/
def edVerify (a : Nat × Nat) (pub msg sig : List Byte) : Bool :=
  let s := leNat ((sig.drop 32).take 32)
  match edDecode (sig.take 32) with
  | none => false
  | some r =>
    decide (s < edL) && edMul s edBase == edAdd r (edMul (leNat (sha512 (sig.take 32 ++ pub ++ msg)) % edL) a)

/-- One step of the Montgomery ladder for bit number n - 1, and the rest. -/
def ladder (u k : Nat) : Nat → (Nat × Nat) × (Nat × Nat) → (Nat × Nat) × (Nat × Nat)
  | 0, s => s
  | n + 1, ((x2, z2), (x3, z3)) =>
    let p := p25519
    let swap := k / 2 ^ n % 2 = 1
    let a0 := if swap then (x3, z3) else (x2, z2)
    let b0 := if swap then (x2, z2) else (x3, z3)
    let a := (a0.1 + a0.2) % p
    let b := subMod p a0.1 a0.2
    let aa := a * a % p
    let bb := b * b % p
    let e := subMod p aa bb
    let da := subMod p b0.1 b0.2 * a % p
    let cb := (b0.1 + b0.2) % p * b % p
    let x3' := (da + cb) * (da + cb) % p
    let dm := subMod p da cb
    let z3' := u * (dm * dm % p) % p
    let r := (aa * bb % p, e * ((aa + 121665 * e) % p) % p)
    ladder u k n (if swap then ((x3', z3'), r) else (r, (x3', z3')))

/-- X25519 of a clamped scalar and u. -/
def x25519 (k u : Nat) : List Byte :=
  let r := (ladder u k 255 ((1, 0), (u, 1))).1
  toLE 32 (r.1 * invMod p25519 r.2 % p25519)

/-- The peer's u with bit 255 cleared, if R287 accepts it. -/
def x25519Peer (l : List Byte) : Option Nat :=
  let u := leNat l % 2 ^ 255
  let p := p25519
  let v := (u * u % p * u + 486662 * u * u + u) % p
  if u ≥ p ∨ powMod p 600 v ((p - 1) / 2) = p - 1 then none else some u

/-! ### RSA-PSS verification (RFC 8017) -/

/-- A hash by its number: 1 SHA-256, 2 SHA-384, 3 SHA-512. -/
def hashOf (h : Nat) (m : List Byte) : List Byte := if h = 1 then sha256 m else if h = 2 then sha384 m else sha512 m
def hashLen (h : Nat) : Nat := if h = 1 then 32 else if h = 2 then 48 else if h = 3 then 64 else 0

def mgf1 (h : Nat) (seed : List Byte) (len : Nat) : List Byte :=
  ((List.range (len / hashLen h + 1)).flatMap fun i => hashOf h (seed ++ toBE 4 i)).take len

/-- EMSA-PSS-VERIFY of an encoded message of `emBits` bits. -/
def pssOk (h saltLen emBits : Nat) (mHash em : List Byte) : Bool :=
  let hl := hashLen h
  let emLen := ceilDiv emBits 8
  let maskedDb := em.take (emLen - hl - 1)
  let hh := (em.drop (emLen - hl - 1)).take hl
  let spare := 8 * emLen - emBits
  let db0 := xorBytes maskedDb (mgf1 h hh (emLen - hl - 1))
  let db := (BitVec.ofNat 8 ((db0.headD 0#8).toNat % 2 ^ (8 - spare))) :: db0.drop 1
  let pad := emLen - hl - saltLen - 2
  decide (hl + saltLen + 2 ≤ emLen) && em.getLastD 0#8 == 0xBC#8 && decide ((maskedDb.headD 0#8).toNat < 2 ^ (8 - spare))
    && (db.take pad).all (· == 0#8) && db.getD pad 0#8 == 1#8
    && hashOf h (zeros 8 ++ mHash ++ db.drop (pad + 1)) == hh

/-- Bits of a number. -/
def bitLength (n : Nat) : Nat := if n = 0 then 0 else Nat.log2 n + 1

/-- RSASSA-PSS-VERIFY with modulus n and exponent e. -/
def rsaVerify (h saltLen n e : Nat) (mHash sig : List Byte) : Bool :=
  let s := beNat sig
  let emBits := bitLength n - 1
  let m := powMod n 64 (s % n) e
  decide (s < n ∧ m < 2 ^ (8 * ceilDiv emBits 8)) && pssOk h saltLen emBits mHash (toBE (ceilDiv emBits 8) m)

end Sys2Proof.Machine
end

