-- ==== Sys2Proof/Machine/FabricCore.lean ====
section
/-! DEFINITION. The fabric as the sender sees it: device ids, wiring, routes, frames, and the message of a fabric edge (R295 to R308, R318). -/

namespace Sys2Proof.Machine

/-! ### Ids and wiring (R297 to R299) -/

def devRack (id : Nat) : Nat := id / 32
def devFrame (id : Nat) : Nat := id / 8 % 4
def devPos (id : Nat) : Nat := id % 8
def devId (rack frame pos : Nat) : Nat := rack * 32 + frame * 8 + pos

/-- The k-th number of 0, 1, 2, ... without `me`. -/
def otherOf (me k : Nat) : Nat := if k < me then k else k + 1

/-- The index of `x` among the numbers without `me`. -/
def indexAmong (me x : Nat) : Nat := if x < me then x else x - 1

/-- Expected peer and peer port of a port of device `id` (R298). -/
def wiring (id port : Nat) : Nat × Nat :=
  let edge := if port < 16 then 0 else 16
  let p := port % 16
  if p < 7 then
    let q := otherOf (devPos id) p
    (devId (devRack id) (devFrame id) q, edge + indexAmong q (devPos id))
  else if p < 13 then
    let f := otherOf (devFrame id) ((p - 7) / 2)
    (devId (devRack id) f (devPos id), edge + 7 + 2 * indexAmong f (devFrame id) + (p - 7) % 2)
  else
    let bit := if port < 16 then p - 13 else p - 10
    (devId (devRack id ^^^ 2 ^ bit) (devFrame id) (devPos id), port)

/-- Expected peer of a port under a configuration, none for a hall port beyond its racks (R299). -/
def SwarmCfg.peer (c : SwarmCfg) (port : Nat) : Option (Nat × Nat) :=
  let w := wiring c.deviceId port
  if devRack w.1 < c.racks then some w else none

/-- Ports that a device may take to a neighbour (R296, R298). -/
def hallPort (bit : Nat) : Nat := if bit < 3 then 13 + bit else 26 + bit
def rackPorts (f f' : Nat) : List Nat := let k := indexAmong f f'; [7 + 2 * k, 8 + 2 * k, 23 + 2 * k, 24 + 2 * k]
def framePorts (p p' : Nat) : List Nat := let k := indexAmong p p'; [k, 16 + k]

/-- The ports to choose from at each hop of the route from one device to another (R303). -/
def routeChoices (src dst : Nat) : List (List Nat) :=
  let r := devRack src
  let r' := devRack dst
  let clear := (List.range 6).filter fun b => bitOf r b && !bitOf r' b
  let set := (List.range 6).filter fun b => !bitOf r b && bitOf r' b
  (clear ++ set).map (fun b => [hallPort b])
    ++ (if devFrame src = devFrame dst then [] else [rackPorts (devFrame src) (devFrame dst)])
    ++ (if devPos src = devPos dst then [] else [framePorts (devPos src) (devPos dst)])

/-- One of a list of ports: which, by the hash of R303, is a free value (log 22). -/
def State.pickPort (s : State) (l : List Nat) : Nat × State :=
  let q := s.takeFree
  (l.getD (q.1 % max 1 l.length) 0xFF, q.2)

/-- One port per hop; the first among this device's LIVE ports. -/
def State.pickRoute (s : State) : List (List Nat) → List Nat × State
  | [] => ([], s)
  | l :: r =>
    let p := s.pickPort l
    let q := State.pickRoute p.2 r
    (p.1 :: q.1, q.2)

def State.livePorts (s : State) (l : List Nat) : List Nat := l.filter fun p => (s.port p).state == .live

/-! ### Frames (R305, R307) -/

/-- The 48-byte header of a frame before the link fills in COUNTER and KEY_PHASE. -/
def frameHeader (type vc flags src dst : Nat) (route : List Nat) (len edge session position off : Nat) : List Byte :=
  toLE 1 type ++ toLE 1 vc ++ toLE 1 flags ++ toLE 1 1 ++ toLE 2 src ++ toLE 2 dst ++ toLE 8 0
    ++ (List.range 8).flatMap (fun k => toLE 1 (route.getD k 0xFF)) ++ toLE 2 len ++ toLE 2 edge ++ toLE 4 session ++ toLE 4 position
    ++ toLE 4 0 ++ toLE 8 off

/-- Puts a frame in a port's queue. -/
def State.enqueue (s : State) (port : Nat) (f : QFrame) : State := s.updPort port fun p => { p with queue := p.queue ++ [f] }

/-- This device's id, where a configuration is in force. -/
def State.deviceId (s : State) : Option Nat := s.settings.swarm.map (·.deviceId)

/-- A management frame to a device, over the LIVE ports of its first hop; its payload's format is not given (log 2). -/
def State.sendMgmt (s : State) (dst : Nat) : State :=
  match s.deviceId with
  | none => s
  | some me =>
    match routeChoices me dst with
    | [] => s
    | l :: r =>
      match s.livePorts l with
      | [] => s
      | live =>
        let q := s.pickRoute (live :: r)
        let body := Config.freeBytes q.2.free
        let s := q.2.skipFrees 1
        s.enqueue (q.1.headD 0) { vc := 4, kind := .relayed, via := none, header := frameHeader 3 4 0 me dst q.1 body.length 0 0 0 0, payload := body }

/-- The status for a hop without a LIVE port (R318): that of the first such port. -/
def State.portStatus (s : State) (port : Nat) : Nat :=
  let p := s.port port
  if p.state = .quarantined ∧ p.reason ≠ 0 ∧ p.reason < 5 then St.swarmMismatch else St.linkQuarantined

/-- Data frames of a message. -/
def dataFrames (me : Nat) (e : Edge) (route : List Nat) (session position : Nat) (bytes : List Byte) : List QFrame :=
  let parts := chunks 4096 bytes.length bytes
  ((List.range parts.length).zip parts).map fun p =>
    let flags := (if p.1 = 0 then 2 else 0) + (if p.1 + 1 = parts.length then 4 else 0)
    { vc := e.cls, kind := .relayed, via := none, payload := p.2
      header := frameHeader 1 e.cls flags me e.dst route p.2.length e.edge session position (4096 * p.1) }

/-! ### The send of a fabric edge (R308, R310, R318) -/

/-- Sends one edge's message from the arena of a run's session; the EVAL's final completion will wait for it. -/
def State.fabricSend (s : State) (ten lring seq : Nat) (v : Eval) (x : Session) (me : Nat) (e : Edge) : State :=
  match s.dram.readDva ten ((Tbl.look s.dram.objs x.arena).elim 0 (·.dva) + e.srcOffset) e.bytes with
  | .error err => s.failEval ten lring seq err
  | .ok bytes =>
    match routeChoices me e.dst with
    | [] => s
    | l :: r =>
      match s.livePorts l with
      | [] =>
        let port := l.headD 0
        (s.logRec Rec.fabric 0 ten port me e.edge).failEval ten lring seq (s.portStatus port, port)
      | live =>
        let q := s.pickRoute (live :: r)
        let s := (dataFrames me e q.1 v.session v.position bytes).foldl (fun s f => s.enqueue (q.1.headD 0) f) q.2
        let send : FabricSend := { edge := e.edge, admitted := false, until_ := s.now + x.deadlineMs * msec, acked := false }
        (s.charge ten 5 e.bytes).updEval ten lring seq fun v => { v with sends := v.sends ++ [send] }

/-- Edges that a segment of an EVAL ends here (R308). -/
def SwarmCfg.ending (c : SwarmCfg) (ten model idx : Nat) : List Edge :=
  c.edges.filter fun e => e.src == c.deviceId && e.ten == ten && e.model == model && e.sendSeg == idx

/-- Edges before whose receiving segment an EVAL waits here (R309). -/
def SwarmCfg.starting (c : SwarmCfg) (ten model idx : Nat) : List Edge :=
  c.edges.filter fun e => e.dst == c.deviceId && e.ten == ten && e.model == model && e.recvSeg == idx

/-- The sends of a segment that has ended with ST_OK. -/
def State.sendEdges (s : State) (g : SegRun) : State :=
  match s.settings.swarm, s.runEval g, s.runSession g with
  | some c, some v, some x => (c.ending g.ten v.model g.idx).foldl (fun s e => s.fabricSend g.ten g.lring g.seq v x c.deviceId e) s
  | _, _, _ => s

/-- Whether the messages that a segment waits for have landed. -/
def State.messagesLanded (s : State) (ten : Nat) (v : Eval) (idx : Nat) : Bool :=
  match s.settings.swarm with
  | none => true
  | some c => (c.starting ten v.model idx).all fun e => s.fabric.landed.contains (ten, v.session, e.edge, v.position)

/-- A receiving EVAL starts RECV_SEG: its messages' ranges are free again. -/
def State.takeMessages (s : State) (ten : Nat) (v : Eval) (idx : Nat) : State :=
  match s.settings.swarm with
  | none => s
  | some c =>
    let es := (c.starting ten v.model idx).map (·.edge)
    { s with fabric := { s.fabric with occupied := s.fabric.occupied.filter fun o => !(o.1 == ten && o.2.1 == v.session && es.contains o.2.2) } }

end Sys2Proof.Machine
end

