-- ==== Sys2Proof/Machine/TokenGraph.lean ====
section
/-! DEFINITION. The loader's abstract execution of a segment: issue paths of programs, and the token graph (R176, R178, R184, R188, R198, R201, R211). -/

namespace Sys2Proof.Machine

/-- A fault that the loader finds in an instruction: byte offset in it, program, part, index. -/
structure InsFault where
  byte : Nat
  prog : Nat
  part : Nat
  idx  : Nat
deriving DecidableEq, Repr

/-- Steps that no abstract execution which ends can exceed: fewer than 2^29 bank states, each of at most 2^11 instructions, repeated by at most four LOOPs of 2^16 passes, in 2^7 cells, and 2^120 tiles. -/
def absFuel : Nat := 2 ^ 160

/-! ### The issue path of one program (R176, R178, R184, R198, R201, R211) -/

/-- Where a program's issue stands: the part in each bank with the issue number of its load (none: loaded at start), the FTQ balance, and what REPEAT and KEEPB need. -/
structure PathSt where
  bank0 : Option (Nat × Option Nat)
  bank1 : Option (Nat × Option Nat)
  active : Nat
  pc : Nat
  loops : List LoopFrame
  count : Nat
  tiles : Nat
  mac : Bool
  noise : Option (Nat × Nat)
  seen : List (Nat × Option Nat × Option Nat × Nat)
  waits : List (Nat × Nat × InsFault)
deriving DecidableEq, Repr

def PathSt.bank (p : PathSt) (b : Nat) : Option (Nat × Option Nat) := if b = 0 then p.bank0 else p.bank1
def PathSt.setBank (p : PathSt) (b : Nat) (v : Nat × Option Nat) : PathSt := if b = 0 then { p with bank0 := some v } else { p with bank1 := some v }

def PathSt.start (parts : Nat) : PathSt :=
  { bank0 := some (0, none), bank1 := if 1 < parts then some (1, none) else none, active := 0, pc := 0, loops := [], count := 0, tiles := 0,
    mac := false, noise := none, seen := [], waits := [] }

/-- Issue goes on in order. -/
def PathSt.next (p : PathSt) : PathSt :=
  let q := loopStep (p.pc + 1) p.loops
  { p with pc := q.1, loops := q.2, count := p.count + 1 }

/-- The bank effects, KEEPB, REPEAT and finished-tile rules of one instruction: the byte at fault, or the state with them applied. -/
def PathSt.judge (p : PathSt) (i : Ins) : Except Nat PathSt :=
  let op := i.op
  if op = Op.mact ∨ op = Op.macv then
    if !p.mac && i.keepb then .error 25
    else if i.flush && i.fdest then (if p.tiles ≥ 4 then .error 26 else .ok { p with mac := true, tiles := p.tiles + 1 })
    else .ok { p with mac := true }
  else if op = Op.noise then
    if i.repeat_ then
      match p.noise with
      | none => .error 26
      | some z => if z.1 ≠ i.dist then .error 26 else if z.2 ≠ i.elems then .error 3 else .ok p
    else .ok { p with noise := some (i.dist, i.elems) }
  else if i.ftq then
    if p.tiles = 0 then .error 26 else .ok (if i.pop then { p with tiles := p.tiles - 1 } else p)
  else if op = Op.move ∧ i.moveForm = 2 then
    if bits (i.opRaw 2) 8 1 = p.active then .error 1
    else .ok (p.setBank (bits (i.opRaw 2) 8 1) (bits (i.opRaw 2) 0 8, some p.count))
  else .ok p

/-- Follows the one issue path of a program to its HALT: a fault, or its HANDOFFs that follow a bank load, as issue numbers (HANDOFF, load). -/
def pathRun (prog : Nat) (parts : List (List Ins)) : Nat → PathSt → Except InsFault (List (Nat × Nat × InsFault))
  | 0, p => .error { byte := 31, prog := prog, part := 0, idx := p.pc }
  | fuel + 1, p =>
    let part := (p.bank p.active).elim 0 (·.1)
    let at_ (b : Nat) : InsFault := { byte := b, prog := prog, part := part, idx := p.pc }
    match (parts.getD part [])[p.pc]? with
    | none => .error (at_ 31)
    | some i =>
      match p.judge i with
      | .error b => .error (at_ b)
      | .ok p =>
        if i.op = Op.halt then (if p.tiles = 0 then .ok p.waits else .error (at_ 31))
        else if i.op = Op.jump then pathRun prog parts fuel { p with pc := i.field 192 11, count := p.count + 1 }
        else if i.op = Op.loop then
          pathRun prog parts fuel
            { p with pc := p.pc + 1, count := p.count + 1, loops := { start := p.pc + 1, k := i.field 208 6, n := i.field 192 16, pass := 0 } :: p.loops }
        else if i.op = Op.handoff then
          let other := 1 - p.active
          let target := i.field 203 11
          match p.bank other with
          | none => .error (at_ 25)
          | some b =>
            let key := (other, p.bank0.map (·.1), p.bank1.map (·.1), target)
            if (parts.getD b.1 []).length ≤ target ∨ p.seen.contains key then .error (at_ 25)
            else
              let waits := match b.2 with
                | some load => p.waits ++ [(p.count, load, at_ 29)]
                | none => p.waits
              pathRun prog parts fuel { p with active := other, pc := target, count := p.count + 1, loops := [], seen := key :: p.seen, waits := waits }
        else pathRun prog parts fuel p.next

/-! ### The abstract execution of a group (R188) -/

structure ACell where
  g : Nat
  prog : Nat
  bank0 : Nat
  bank1 : Nat
  active : Nat
  pc : Nat
  loops : List LoopFrame
  count : Nat
  tokens : Tbl Nat
  wins : Tbl Window
  adv : Tbl (Int × Nat)
  pending : List (Nat × Nat × Option Nat)
  halted : Bool
deriving DecidableEq, Repr

/-- What a stream does next: takes a free token of a cell, or lands words in one. -/
inductive AAct where
  | take (g : Nat)
  | land (g lo hi : Nat)
deriving DecidableEq, Repr

structure AStream where
  d : StreamDef
  st : Stencil
  tile : Nat
  acts : List AAct
  done : Bool
deriving DecidableEq, Repr

structure AbsSt where
  cells : List ACell
  streams : List AStream
deriving DecidableEq, Repr

/-- What an abstract execution works on. `withhold` is an issue (cell, number) whose post is withheld, `watch` one at which to stop. -/
structure AbsCtx where
  progs : List (List (List Ins))
  stencils : List Stencil
  withhold : Option (Nat × Nat)
  watch : Option (Nat × Nat)
deriving DecidableEq, Repr

def AbsCtx.timed (x : AbsCtx) (prog : Nat) : List Nat :=
  (((x.progs.getD prog []).flatten).filter fun i => i.op == Op.timer).map Ins.timerQueue

/-- Queues of windows that a peer segment's writes may notify. -/
def AbsCtx.peerFed (x : AbsCtx) (prog : Nat) : List Nat :=
  (((x.progs.getD prog []).flatten).filter fun i => i.op == Op.win && !i.winClose && i.windowFields.kind == 1).map fun i => i.windowFields.queue

def AbsCtx.current (x : AbsCtx) (c : ACell) : Option Ins :=
  ((x.progs.getD c.prog []).getD (if c.active = 0 then c.bank0 else c.bank1) [])[c.pc]?

def ACell.count_ (c : ACell) (q : Nat) : Nat := Tbl.lookD c.tokens q 0

/-- Whether a wait holds; with `peer`, posts of peer segments count as there (log 37). -/
def AbsCtx.holds (x : AbsCtx) (c : ACell) (peer : Bool) (q k : Nat) : Bool :=
  k == 0 || (x.timed c.prog).contains q || (peer && (x.peerFed c.prog).contains q) || decide (k ≤ c.count_ q)

def ACell.takeN (c : ACell) (q n : Nat) : ACell := { c with tokens := Tbl.putZ c.tokens q (c.count_ q - n) }
def ACell.giveN (c : ACell) (q n : Nat) : ACell := { c with tokens := Tbl.putZ c.tokens q (c.count_ q + n) }

/-- Queue of the lowest open window that admits a write: of a group index, or of a forager stream. -/
def ACell.admitQ (c : ACell) (lo hi : Nat) (by_ : Option Nat) : Option Nat :=
  (c.wins.find? fun w => w.2.covers lo hi &&
    (match by_ with
     | some g => w.2.kind == 1 || (w.2.kind == 0 && bitOf w.2.rowMask (g / 16) && bitOf w.2.colMask (g % 16))
     | none => w.2.kind == 2)).map fun w => w.2.queue

/-- A write arrives once a window admits it (log 37). -/
def ACell.arrive (c : ACell) (w : Nat × Nat × Option Nat) : ACell :=
  match c.admitQ w.1 w.2.1 w.2.2 with
  | some q => c.giveN q 1
  | none => { c with pending := c.pending ++ [w] }

/-- Writes that waited for a window are judged again. -/
def ACell.retry (c : ACell) : ACell := c.pending.foldl ACell.arrive { c with pending := [] }

def AbsSt.upd (a : AbsSt) (g : Nat) (f : ACell → ACell) : AbsSt := { a with cells := a.cells.map fun c => if c.g = g then f c else c }

def ACell.passAt (c : ACell) (level : Nat) : Nat := (c.loops[level]?).elim 0 (·.pass)
def ACell.eff (c : ACell) (o : Opnd) : Int :=
  let r := Tbl.lookD c.adv o.adv (0, 0)
  (o.addr : Int) + r.1 * (c.passAt r.2 : Int)

/-- Extent of a run of words. -/
def runExtent (ea stride : Int) (n : Nat) : Nat × Nat :=
  let z := ea + ((n - 1 : Nat) : Int) * stride
  ((min ea z).toNat, (max ea z).toNat)

/-- Extent of n slices of a scratchpad stencil. -/
def sliceExtent (st : Stencil) (first n : Nat) : Nat × Nat :=
  let ws := ((st.sliceVisit first n).flatMap (st.wordsAt st.base)).filterMap fun a => a.map Int.toNat
  ((ws.min?).getD 0, (ws.max?).getD 0)

/-- The posts of an issued MOVE (R183). -/
def AbsCtx.moveEffect (x : AbsCtx) (a : AbsSt) (c : ACell) (i : Ins) : AbsSt :=
  let own (a : AbsSt) : AbsSt := if i.pe then a.upd c.g fun c => c.giveN i.pq 1 else a
  let a := if i.srcPe then a.upd c.g fun c => c.giveN i.srcQ 1 else a
  let o := i.opnd 1
  if i.moveForm = 0 then
    if !i.pe then a
    else if o.len = 0 then a.upd (if o.remote then o.group else c.g) fun c => c.giveN i.pq 1
    else if o.remote then
      let e := runExtent (c.eff o) o.stride o.len
      a.upd o.group fun t => t.arrive (e.1, e.2, some c.g)
    else own a
  else if i.moveForm = 1 then
    match x.stencils[bits (i.opRaw 2) 8 8]? with
    | none => a
    | some st =>
      if st.space ≠ 1 then own a
      else if st.peerSeg ≠ 0 ∨ !i.pe then a
      else if o.len = 0 then a.upd st.group fun c => c.giveN i.pq 1
      else
        let f := c.eff o
        if f < 0 ∨ (st.slices : Int) < f + (o.len : Int) then a
        else let e := sliceExtent st f.toNat o.len
             a.upd st.group fun t => t.arrive (e.1, e.2, some c.g)
  else own a

/-- The effect of an issued instruction on tokens, windows, advance registers and issue. -/
def AbsCtx.effect (x : AbsCtx) (a : AbsSt) (c : ACell) (i : Ins) (posts : Bool) : AbsSt :=
  let own (a : AbsSt) : AbsSt := if i.pe && posts then a.upd c.g fun c => c.giveN i.pq 1 else a
  let op := i.op
  if op = Op.post then (if posts then a.upd c.g fun c => c.giveN i.pq (i.field 208 6) else a)
  else if op = Op.setadv then own (a.upd c.g fun c => { c with adv := Tbl.put c.adv (i.field 210 4) (signed 16 (i.field 192 16), i.field 208 2) })
  else if op = Op.win then
    own (a.upd c.g fun c => if i.winClose then { c with wins := Tbl.del c.wins i.window }
      else ({ c with wins := Tbl.put c.wins i.window i.windowFields }).retry)
  else if op = Op.move then
    let a := if i.moveForm = 2 then a.upd c.g fun c =>
        (if bits (i.opRaw 2) 8 1 = 0 then { c with bank0 := bits (i.opRaw 2) 0 8 } else { c with bank1 := bits (i.opRaw 2) 0 8 }) else a
    if posts then x.moveEffect a c i else a
  else if op = Op.halt then own (a.upd c.g fun c => { c with halted := true })
  else own a

/-- Moves a cell's issue point past an instruction. -/
def ACell.advance (c : ACell) (i : Ins) : ACell :=
  let c := { c with count := c.count + 1 }
  if i.op = Op.jump then { c with pc := i.field 192 11 }
  else if i.op = Op.handoff then { c with active := 1 - c.active, pc := i.field 203 11, loops := [] }
  else if i.op = Op.loop then
    { c with pc := c.pc + 1, loops := { start := c.pc + 1, k := i.field 208 6, n := i.field 192 16, pass := 0 } :: c.loops }
  else let q := loopStep (c.pc + 1) c.loops
       { c with pc := q.1, loops := q.2 }

/-- Issues a cell's next instruction, if its waits hold. -/
def AbsCtx.issueCell (x : AbsCtx) (a : AbsSt) (peer : Bool) (c : ACell) : Option AbsSt :=
  if c.halted then none
  else (x.current c).bind fun i =>
    if x.holds c peer i.wqa i.countA && x.holds c peer i.wqb i.wcb then
      let a1 := a.upd c.g fun c => ((c.takeN i.wqa i.countA).takeN i.wqb i.wcb).advance i
      some (x.effect a1 c i (x.withhold != some (c.g, c.count)))
    else none

/-- The actions of a stream for one tile. -/
def AStream.tileActs (s : AStream) : List AAct :=
  let ew := s.st.elemWords
  let slot := s.d.tileElems * ew * (if s.st.regen ∧ s.d.aOffset = 0 then 2 else 1)
  let e := s.d.tileLen s.st s.tile * ew
  let base := if s.st.regen ∧ s.st.keyKind = 4 then s.d.ringBase else s.d.slotAddr s.tile slot
  let hi := if s.st.regen ∧ s.st.keyKind = 4 then base else if s.st.regen ∧ s.d.aOffset = 0 then base + s.d.tileElems * ew + e - 1 else base + e - 1
  (s.d.tileHeads s.tile).flatMap fun head => (s.d.chain head).flatMap fun g =>
    match s.d.aCell s.st g with
    | some h => [.take g, .take h, .land g base hi, .land h base hi]
    | none => [.take g, .land g base hi]

/-- One action of a stream, if it can be taken. -/
def AbsCtx.streamStep (x : AbsCtx) (a : AbsSt) (k : Nat) (s : AStream) : Option AbsSt :=
  let put (a : AbsSt) (s : AStream) : AbsSt := { a with streams := a.streams.set k s }
  match s.acts with
  | [] =>
    if s.done then none
    else if s.tile < s.d.tiles s.st then some (put a { s with acts := s.tileActs, tile := s.tile + 1 })
    else some (put a { s with done := true, acts := (s.d.allDests s.st).flatMap fun g => List.replicate s.d.ringTiles (.take g) })
  | .take g :: r =>
    match a.cells.find? fun c => c.g == g with
    | none => none
    | some c => if x.holds c false s.d.freeQ 1 then some (put (a.upd g fun c => c.takeN s.d.freeQ 1) { s with acts := r }) else none
  | .land g lo hi :: r => some (put (a.upd g fun c => c.arrive (lo, hi, none)) { s with acts := r })

/-- One step of the abstract execution: a cell issues, else a stream acts, else a cell issues on a peer's post. -/
def AbsCtx.step (x : AbsCtx) (a : AbsSt) : Option AbsSt :=
  (a.cells.findSome? (x.issueCell a false)).orElse fun _ =>
    (((List.range a.streams.length).zip a.streams).findSome? fun p => x.streamStep a p.1 p.2).orElse fun _ =>
      a.cells.findSome? (x.issueCell a true)

/-- Whether the watched issue has taken place. -/
def AbsCtx.reached (x : AbsCtx) (a : AbsSt) : Bool := x.watch.any fun w => a.cells.any fun c => c.g == w.1 && decide (w.2 < c.count)

def absRun (x : AbsCtx) : Nat → AbsSt → AbsSt
  | 0, a => a
  | fuel + 1, a => if x.reached a then a else match x.step a with
    | some a' => absRun x fuel a'
    | none => a

def AbsCtx.start (progs : List (List (List Ins))) (cellMap : List Nat) (cells : Nat) (stencils : List Stencil) (streams : List StreamDef) : AbsSt :=
  { cells := (List.range cells).map fun g =>
      { g := g, prog := nth0 cellMap g, bank0 := 0, bank1 := 1, active := 0, pc := 0, loops := [], count := 0, tokens := [], wins := [], adv := [],
        pending := [], halted := (progs.getD (nth0 cellMap g) []).isEmpty }
    streams := streams.filterMap fun d => (stencils[d.src]?).map fun st => { d := d, st := st, tile := 0, acts := [], done := false } }

def AbsCtx.faultAt (c : ACell) (byte : Nat) : InsFault :=
  { byte := byte, prog := c.prog, part := if c.active = 0 then c.bank0 else c.bank1, idx := c.pc }

/-- A cell's fault at the end: a wait that never holds, or a queue out of balance; the latter names the cell's HALT (log 37). -/
def AbsCtx.endFault (x : AbsCtx) (a : AbsSt) : Option InsFault :=
  (a.cells.findSome? fun c =>
    if c.halted then none
    else match x.current c with
      | none => some (AbsCtx.faultAt c 31)
      | some i => some (AbsCtx.faultAt c (if x.holds c false i.wqa i.countA then 28 else 29))).orElse fun _ =>
  a.cells.findSome? fun c =>
    if c.tokens.any fun t => !((x.timed c.prog).contains t.1 || (x.peerFed c.prog).contains t.1) then
      some (AbsCtx.faultAt { c with pc := c.pc - 1 } 31) else none

/-- The token graph of a segment, and the order of each HANDOFF after the bank load before it (R176, R188). -/
def tokenFault (progs : List (List (List Ins))) (cellMap : List Nat) (cells : Nat) (stencils : List Stencil) (streams : List StreamDef) : Option InsFault :=
  let s0 := AbsCtx.start progs cellMap cells stencils streams
  let x : AbsCtx := { progs := progs, stencils := stencils, withhold := none, watch := none }
  let paths := ((List.range progs.length).zip progs).map fun p => (p.1, pathRun p.1 p.2 absFuel (PathSt.start p.2.length))
  let bad := paths.findSome? fun p => match p.2 with
    | .error f => some f
    | .ok _ => none
  let handoffs : List (Nat × Nat × Nat × InsFault) := paths.flatMap fun p => match p.2 with
    | .ok l => l.map fun h => (p.1, h)
    | .error _ => []
  let unordered := handoffs.findSome? fun h => (List.range cells).findSome? fun g =>
    if nth0 cellMap g = h.1 then
      let y := { x with withhold := some (g, h.2.2.1), watch := some (g, h.2.1) }
      if y.reached (absRun y absFuel s0) then some h.2.2.2 else none
    else none
  bad.orElse fun _ => unordered.orElse fun _ => x.endFault (absRun x absFuel s0)

end Sys2Proof.Machine
end

