-- ==== Sys2Proof/Machine/Loader.lean ====
section
/-! DEFINITION. The loader: segment images, instructions, control flow, stencils and streams (R161 to R163, R168 to R178, R192 to R211, R213 to R228, R235, R419). -/

namespace Sys2Proof.Machine

/-- Where in a segment a fault lies (R419). -/
inductive Place where
  | ins (prog part idx : Nat)
  | stencil (i : Nat)
  | stream (i : Nat)
  | image
deriving DecidableEq, Repr

/-- A refusal of a segment: status, DETAIL, place. -/
structure SegFault where
  status : Nat
  detail : Nat
  place : Place
deriving DecidableEq, Repr

/-- ARG0 of the record of a refused segment (R419). -/
def Place.arg0 : Place → Nat
  | .ins p k i => 2 ^ 56 + (p % 256) * 2 ^ 24 + (k % 256) * 2 ^ 16 + i % 2 ^ 16
  | .stencil i => 2 ^ 56 + 2 ^ 32 + i % 2 ^ 16
  | .stream i => 2 ^ 56 + 2 * 2 ^ 32 + i % 2 ^ 16
  | .image => 2 ^ 56 + 3 * 2 ^ 32

/-- The lowest byte among the faults that hold. -/
def lowestFault (l : List (Bool × Nat)) : Option Nat := ((l.filter (·.1)).map (·.2)).min?

/-! ### Instruction fields (R163, R164, R169, R170) -/

/-- First byte of operand field k. -/
def opByte (k : Nat) : Nat := 16 - 8 * k

/-- Faults of an operand field: a required LEN, whether it is a destination, whether it may be remote. -/
def opndFaults (i : Ins) (k : Nat) (len : Option Nat) (dest remoteOk : Bool) : List (Bool × Nat) :=
  let o := i.opnd k
  [(!o.remote && o.group != 0, opByte k), (o.remote && !remoteOk, opByte k), (dest && o.stride == 0 && decide (1 < o.len), opByte k + 1),
   (len.any fun n => o.len != n, opByte k + 3)]

/-- An operand field that an instruction does not use. -/
def unusedOpnd (i : Ins) (k : Nat) : Bool × Nat := (i.opRaw k != 0, opByte k)

/-- Reserved SPEC bits of an opcode: lowest bit and width. -/
def specReserved (op : Nat) : Nat × Nat :=
  if op = Op.wait ∨ op = Op.post ∨ op = Op.tperm then (192, 16)
  else if op = Op.jump then (203, 11)
  else if op = Op.handoff then (192, 11)
  else if op = Op.halt then (192, 22)
  else if op = Op.setmod ∨ op = Op.macv ∨ op = Op.tdec then (192, 8)
  else if op = Op.timer ∨ op = Op.move ∨ op = Op.tresc then (192, 13)
  else if op = Op.win then (192, 10)
  else if op = Op.mact then (192, 9)
  else if op = Op.nttf ∨ op = Op.ntti ∨ op = Op.noise then (192, 17)
  else if op = Op.tadd ∨ op = Op.tsub ∨ op = Op.tmul then (192, 20)
  else if op = Op.tmulc then (192, 18)
  else if op = Op.tred then (192, 6)
  else (192, 0)

/-- Faults common to every instruction. -/
def commonInsFaults (i : Ins) : List (Bool × Nat) :=
  let r := specReserved i.op
  [(i.field r.1 r.2 != 0, r.1 / 8), (engineOf i.op < 2 && i.modIdx != 0, 30), (i.countA != 0 && i.wcb != 0 && i.wqa == i.wqb, 28)]

def controlFaults (i : Ins) : List (Bool × Nat) :=
  let op := i.op
  if op = Op.timer then
    [(bits (i.opRaw 0) 32 32 != 0, 20), unusedOpnd i 1, unusedOpnd i 2, (i.timerForm == (false, false) && bits (i.opRaw 0) 0 32 == 0, 16)]
  else if op = Op.win then
    let w := i.windowFields
    [((i.opnd 0).adv != 0, 17), unusedOpnd i 1, unusedOpnd i 2, (w.kind == 3, 26), (decide (scratchWords < w.base + w.length), 21)]
  else
    [unusedOpnd i 0, unusedOpnd i 1, unusedOpnd i 2]
    ++ (if op = Op.wait then [(i.wca != 0, 29)]
        else if op = Op.post then [(i.field 208 6 == 0, 26), (!i.pe, 26)]
        else if op = Op.loop then [(i.field 208 6 == 0, 26), (i.field 192 16 == 0, 24), (i.pe, 26)]
        else [])

/-- Stencils that a stencil MOVE may pair (R182, R216, R222, R223). -/
def pairOk (src dst : Stencil) : Bool :=
  src.wide == dst.wide && !(src.transpose && dst.transpose) && src.perSlice == dst.perSlice

def moveFaults (sts : List Stencil) (parts : Nat) (i : Ins) : List (Bool × Nat) :=
  let o0 := i.opnd 0
  let o1 := i.opnd 1
  if i.moveForm = 0 then
    [unusedOpnd i 2, (o0.remote && o1.remote, opByte 1)] ++ opndFaults i 0 none false true ++ opndFaults i 1 (some o0.len) true true
  else if i.moveForm = 1 then
    let a := sts[i.srcStencil]?
    let b := sts[i.dstStencil]?
    let unused (k : Nat) : List (Bool × Nat) := [(bits (i.opRaw k) 0 8 != 0, opByte k), (bits (i.opRaw k) 12 16 != 0, opByte k + 1)]
    unused 0 ++ unused 1 ++
    [(o1.len != o0.len, opByte 1 + 3), (bits (i.opRaw 2) 16 48 != 0, 2), (a.isNone, 0), (b.isNone, 1),
     (match a, b with | some x, some y => !pairOk x y | _, _ => false, 0)]
  else if i.moveForm = 2 then
    [unusedOpnd i 0, unusedOpnd i 1, (bits (i.opRaw 2) 9 55 != 0, 1), (i.srcPe, 25), (decide (parts ≤ bits (i.opRaw 2) 0 8), 0)]
  else [(true, 26)]

/-- Operand and field rules of the arithmetic instructions (R192, R198 to R211). -/
def arithFaults (logN : Nat) (i : Ins) : List (Bool × Nat) :=
  let op := i.op
  let e := i.elems
  let l0 := (i.opnd 0).len
  let src (k : Nat) (n : Option Nat) := opndFaults i k n false true
  let dst (n : Option Nat) := opndFaults i 2 n true false
  if op = Op.mact ∨ op = Op.macv then
    src 0 (some (if op = Op.mact then 64 * i.rows else if i.transb then 128 else 64)) ++ src 1 (some (if i.keepb then 0 else 8192))
      ++ dst (some (if i.flush && !i.fdest then 8192 else 0))
  else if op = Op.nttf ∨ op = Op.ntti then
    (decide (i.logn < 10 ∨ 17 < i.logn ∨ logN < i.logn), 26) :: src 0 (some (2 ^ i.logn)) ++ src 1 (some 0) ++ dst (some (2 ^ i.logn))
  else if op = Op.skim then
    (i.skimForm == 3, 26) :: src 0 (some e) ++ src 1 (some (if i.skimForm = 0 then 0 else if i.skimForm = 1 then e else i.streams)) ++ dst none
  else if op = Op.noise then
    [(i.dist == 3, 26), (i.repeat_ && i.dist == 2, 26)] ++ src 0 (some 0) ++ src 1 (some 0) ++ dst none
  else
    [(i.pop && !i.ftq, 26), (i.ftq && (i.opnd 0).remote, opByte 0)] ++
    (if op = Op.tmulc then src 0 (some e) ++ (if i.cind then src 1 (some (if i.plus then 2 else 1)) else []) ++ dst none
     else if op = Op.tperm then
       [(bits (i.opRaw 1) 18 46 != 0, 10), (i.galois % 2 == 0 || decide (2 * 2 ^ i.permLogn ≤ i.galois), opByte 1)]
         ++ src 0 (some (2 ^ i.permLogn)) ++ dst (some (2 ^ i.permLogn))
     else if op = Op.tdec then src 0 none ++ src 1 (some 0) ++ dst (some (i.ell * l0))
     else if op = Op.tred then
       [(decide (i.cols = 0 ∨ 4096 < i.cols), 24), (decide (0 < i.cols) && l0 % i.cols != 0, opByte 0 + 3)]
         ++ src 0 none ++ src 1 (some 0) ++ dst (some (if i.axis then l0 / i.cols else i.cols))
     else src 0 (some e) ++ src 1 (some e) ++ dst none)

/-- The byte at fault of one instruction. -/
def insFault (logN : Nat) (sts : List Stencil) (parts : Nat) (i : Ins) : Option Nat :=
  if !cellOpcodes.contains i.op then some 31
  else lowestFault (commonInsFaults i ++
    (if i.op = Op.move then moveFaults sts parts i else if engineOf i.op = 0 then controlFaults i else arithFaults logN i))

/-! ### Control flow within a part (R174, R175, R178) -/

/-- The LOOPs of a part: index and last body index. -/
def loopsOf (part : List Ins) : List (Nat × Nat) :=
  ((List.range part.length).zip part).filterMap fun p => if p.2.op = Op.loop then some (p.1, p.1 + p.2.field 208 6) else none

def flowFault (part : List Ins) : Option (Nat × Nat) :=
  let ls := loopsOf part
  let n := part.length
  let barred (k : Nat) : Bool := (part[k]?).any fun i => i.op == Op.jump || i.op == Op.handoff || i.op == Op.halt
  let badLoop := ls.find? fun l =>
    let around := ls.filter fun o => decide (o.1 < l.1 ∧ l.1 ≤ o.2)
    decide (n ≤ l.2) || decide (3 < around.length) || (around.any fun o => decide (o.2 < l.2))
      || (List.range n).any fun k => decide (l.1 < k ∧ k ≤ l.2) && barred k
  match badLoop with
  | some l => some (l.1, 26)
  | none =>
    let badJump := ((List.range n).zip part).find? fun p =>
      let t := p.2.field 192 11
      p.2.op == Op.jump && (decide (t ≤ p.1 ∨ n ≤ t) || ls.any fun l => decide (l.1 < t ∧ t ≤ l.2))
    match badJump with
    | some p => some (p.1, 24)
    | none => if (part.getLast?).any fun i => i.op == Op.halt || i.op == Op.handoff then none else some (n - 1, 31)

/-! ### Stencils (R213, R215, R216, R222, R223) -/

/-- The stencil in 64 bytes. -/
def parseStencil (l : List Byte) : Stencil :=
  { space := byteAt l 0, flags := byteAt l 1, ndim := byteAt l 2, group := byteAt l 3, bind_ := byteAt l 4, bindIndex := byteAt l 5,
    peerSeg := fld l 6 2, sizes := (List.range 5).map fun k => fld l (8 + 8 * k) 4,
    strides := (List.range 5).map fun k => signed 32 (fld l (12 + 8 * k) 4), base := fld l 0x30 8, keyKind := byteAt l 0x38,
    keyIndex := byteAt l 0x39, galois := fld l 0x3C 4 }

/-- Binds that a space allows. -/
def bindsAllowed (space : Nat) : List Nat := if space < 2 then [0] else if space = 2 then [2, 4] else if space = 3 then [2, 3, 4] else [1]

/-- The lowest byte at fault of a stencil's fields. `combs` lists the COMB of every segment, `own` this segment's; `isSrc` and `isDst` say how instructions and streams use it. -/
def stencilFields (raw : List Byte) (st : Stencil) (combs : List Nat) (own weights : Nat) (isSrc isDst : Bool) : Option Nat :=
  let key := st.bind_ == 4
  lowestFault (
    [(decide (4 < st.space), 0), (decide (15 < st.flags), 1), (decide (st.ndim = 0 ∨ 5 < st.ndim), 2),
     (if st.space = 1 then decide (127 < st.group) else st.group != 0, 3), (!(bindsAllowed st.space).contains st.bind_, 4),
     (if st.bind_ = 1 then decide (3 < st.bindIndex) else if st.bind_ = 2 then decide (weights ≤ st.bindIndex) else st.bindIndex != 0, 5),
     (st.peerSeg != 0 && (st.space != 1 || isSrc || (combs[st.peerSeg - 1]?) != some own), 6)]
    ++ (List.range 5).flatMap (fun k =>
      if k < st.ndim then [(decide (nth0 st.sizes k = 0 ∨ 2 ^ 24 < nth0 st.sizes k), 8 + 8 * k)]
      else [(nth0 st.sizes k != 0, 8 + 8 * k), (st.strides.getD k 0 != 0, 12 + 8 * k)])
    ++ [(st.inPad && decide (2 ^ 18 ≤ st.base), 0x30), (if key then decide (st.keyKind = 0 ∨ 6 < st.keyKind) else st.keyKind != 0, 0x38),
        (if key ∧ st.keyKind = 6 then decide (15 < st.keyIndex) else st.keyIndex != 0, 0x39),
        (byteAt raw 0x3A != 0, 0x3A), (byteAt raw 0x3B != 0, 0x3B), (!(key && (st.keyKind == 2 || st.keyKind == 3)) && st.galois != 0, 0x3C),
        (st.wide && (st.transpose || st.pad || st.regen), 1), (st.pad && (!st.transpose || decide (64 ≤ st.size 1) || isDst), 1),
        (st.regen && isDst, 1), (st.space == 2 && isDst, 0)]
    ++ (List.range 2).map fun k => (st.transpose && decide (64 ≤ st.size k) && st.size k % 64 != 0, 8 + 8 * k))

/-- Whether a scratchpad stencil leaves the scratchpad (R216). -/
def stencilOutside (st : Stencil) : Bool :=
  st.inPad && decide ((st.base : Int) + st.lowest < 0 ∨ (scratchWords : Int) ≤ st.base + st.highest + (st.elemWords - 1 : Nat))

/-! ### Streams (R225, R226, R228, R235) -/

/-- Set bits of a mask, in ascending order. -/
def maskBits (n v : Nat) : List Nat := (List.range n).filter fun k => bitOf v k

/-- The stream in 48 bytes. -/
def parseStream (l : List Byte) : StreamDef :=
  { src := byteAt l 0, flags := byteAt l 1, depth := byteAt l 2, ringTiles := byteAt l 3, tileElems := fld l 4 4, ringBase := fld l 8 4,
    freeQ := byteAt l 12, aOffset := byteAt l 13, run := fld l 14 2, dest := maskBits 128 (fld l 16 16), mcastId := fld l 32 2, chainLen := byteAt l 34 }

/-- Cells of a chain lie in the head's group row and within CELLS. -/
def StreamDef.chainOk (d : StreamDef) (cells head : Nat) : Bool :=
  (List.range d.chainLen).all fun j =>
    if d.descending then decide (j ≤ head % 16) else decide (head % 16 + j < 16 ∧ head + j < cells)

def streamFields (raw : List Byte) (d : StreamDef) (sts : List Stencil) (cells : Nat) : Option Nat :=
  match sts[d.src]? with
  | none => some 0
  | some st =>
    let recv := d.dest.flatMap d.chain
    lowestFault (
      [(decide (st.space < 2), 0), (decide (31 < d.flags), 1),
       (if d.fixedDepth then decide (d.depth = 0 ∨ 32 < d.depth ∨ 2 ^ 22 < d.depth * (d.tileElems * st.elemBytes)) else d.depth != 0, 2),
       (decide (d.ringTiles = 0 ∨ 32 < d.ringTiles), 3), (decide (d.tileElems = 0 ∨ 262144 < d.tileElems), 4),
       (decide (2 ^ 18 ≤ d.ringBase) || (!(st.regen && st.keyKind == 4) && !ringFits d (slotWords d st 0)), 8), (decide (63 < d.freeQ), 12),
       (d.aOffset != 0 && (!st.regen || recv.any fun g => decide (cells ≤ g + d.aOffset)), 13),
       (if d.split then d.run == 0 else d.run != 0, 14), (d.dest.isEmpty || d.dest.any fun g => decide (cells ≤ g), 16),
       (if d.relay then decide (d.chainLen < 2 ∨ 16 < d.chainLen) || !(d.dest.all fun h => d.chainOk cells h) else d.chainLen != 0, 34)]
      ++ (List.range 13).map fun k => (byteAt raw (35 + k) != 0, 35 + k))

/-! ### The segment image (R161, R162) -/

/-- A table of n entries of `size` bytes from `off` lies in the image. -/
def tableInside (img : List Byte) (off n size : Nat) : Bool := n == 0 || decide (off + n * size ≤ img.length)

def imageHeaderFault (img : List Byte) (cells : Nat) : Option Nat :=
  if img.length < 192 then some 0
  else
    let progs := byteAt img 6
    lowestFault (
      [(fld img 0 4 != leNat (ascii "LSEG"), 0), (byteAt img 4 != 1, 4), (decide (progs = 0 ∨ 128 < progs), 6), (byteAt img 7 != 0, 7),
       (decide (1000000 < fld img 8 4), 8), (decide (256 < fld img 0x0C 2), 0x0C), (!tableInside img (fld img 0x10 8) progs 8, 0x10),
       (!tableInside img (fld img 0x18 8) (fld img 0x0C 2) 64, 0x18), (!tableInside img (fld img 0x20 8) (fld img 0x0E 2) 48, 0x20)]
      ++ (List.range 24).map (fun k => (byteAt img (0x28 + k) != 0, 0x28 + k))
      ++ (List.range 128).map fun g => (if g < cells then decide (progs ≤ byteAt img (0x40 + g)) else byteAt img (0x40 + g) != 0, 0x40 + g))

/-- The parts of a program, by the offset of its table entry: the image offset at fault, or the instructions. -/
def parseProgram (img : List Byte) (o : Nat) : Except Nat (List (List InsWord)) :=
  let tab := fld img o 4
  let n := fld img (o + 4) 2
  if n = 0 ∨ 256 < n then .error (o + 4)
  else if fld img (o + 6) 2 ≠ 0 then .error (o + 6)
  else if !tableInside img tab n 8 then .error o
  else (List.range n).mapM fun k =>
    let e := tab + 8 * k
    let off := fld img e 4
    let c := fld img (e + 4) 2
    if c = 0 ∨ 2048 < c then .error (e + 4)
    else if fld img (e + 6) 2 ≠ 0 then .error (e + 6)
    else if off % 32 ≠ 0 ∨ img.length < off + 32 * c then .error e
    else .ok ((List.range c).map fun j => BitVec.ofNat 256 (fld img (off + 32 * j) 32))

/-- First fault of the instructions of a program's parts, then of their control flow. -/
def programFault (logN : Nat) (sts : List Stencil) (prog : Nat) (parts : List (List Ins)) : Option InsFault :=
  let ps := (List.range parts.length).zip parts
  (ps.findSome? fun p => ((List.range p.2.length).zip p.2).findSome? fun q =>
    (insFault logN sts parts.length q.2).map fun b => { byte := b, prog := prog, part := p.1, idx := q.1 }).orElse fun _ =>
  ps.findSome? fun p => (flowFault p.2).map fun f => { byte := f.2, prog := prog, part := p.1, idx := f.1 }

/-- Stencils that MOVEs of a segment use as sources and as destinations; streams' sources. -/
def movesOf (progs : List (List (List Ins))) : List Ins := (progs.flatten.flatten).filter fun i => i.op == Op.move && i.moveForm == 1

/-- The descriptor's part of a segment (R132). -/
structure SegHead where
  cells : Nat
  combOff : Nat
  flags : Nat
  modBase : Nat
deriving DecidableEq, Repr

/-- Loads a segment image: every check of the loader, or the segment. -/
def loadSegment (img : List Byte) (hd : SegHead) (logN : Nat) (combs : List Nat) (weights : Nat) : Except SegFault SegDef :=
  match imageHeaderFault img hd.cells with
  | some b => .error { status := St.badField, detail := b, place := .image }
  | none =>
    match (List.range (byteAt img 6)).mapM fun p => parseProgram img (fld img 0x10 8 + 8 * p) with
    | .error b => .error { status := St.badField, detail := b, place := .image }
    | .ok raw =>
      let rawSts := (List.range (fld img 0x0C 2)).map fun k => slice img (fld img 0x18 8 + 64 * k) 64
      let sts := rawSts.map parseStencil
      let rawStr := (List.range (fld img 0x0E 2)).map fun k => slice img (fld img 0x20 8 + 48 * k) 48
      let strs := rawStr.map parseStream
      let progs := raw.map fun p => p.map fun part => part.map ins
      let insBad (f : InsFault) : SegFault := { status := St.badField, detail := f.byte, place := .ins f.prog f.part f.idx }
      match ((List.range progs.length).zip progs).findSome? fun p => programFault logN sts p.1 p.2 with
      | some f => .error (insBad f)
      | none =>
        let mv := movesOf progs
        let srcs := mv.map Ins.srcStencil ++ strs.map (·.src)
        let dsts := mv.map Ins.dstStencil
        let badSt := ((List.range sts.length).zip (rawSts.zip sts)).findSome? fun p =>
          match stencilFields p.2.1 p.2.2 combs hd.combOff weights (srcs.contains p.1) (dsts.contains p.1) with
          | some b => some { status := St.badField, detail := b, place := Place.stencil p.1 }
          | none => if stencilOutside p.2.2 then some { status := St.stencilBounds, detail := 0, place := Place.stencil p.1 } else none
        match badSt with
        | some f => .error f
        | none =>
          match ((List.range strs.length).zip (rawStr.zip strs)).findSome? fun p => (streamFields p.2.1 p.2.2 sts hd.cells).map fun b => (p.1, b) with
          | some f => .error { status := St.badField, detail := f.2, place := .stream f.1 }
          | none =>
            let cellMap := (List.range hd.cells).map fun g => byteAt img (0x40 + g)
            match tokenFault progs cellMap hd.cells sts strs with
            | some f => .error (insBad f)
            | none =>
              .ok { cells := hd.cells, combOff := hd.combOff, idempotent := bitOf hd.flags 0, checked := bitOf hd.flags 1, modBase := hd.modBase,
                    latMode := byteAt img 5, watchdogUs := fld img 8 4, programs := raw, cellMap := cellMap, stencils := sts, streams := strs }

end Sys2Proof.Machine
end

