-- ==== Sys2Proof/Machine/Tenants.lean ====
section
/-! DEFINITION. Handles, sessions, key sets and the retirement of models (R114 to R121, R129, R130). -/

namespace Sys2Proof.Machine

/-! ### Handles (R114) -/

/-- Whether a tenant holds a handle value, of any kind. -/
def Tenant.holds (x : Tenant) (h : Nat) : Bool :=
  (Tbl.look x.sessions h).isSome || (Tbl.look x.keysets h).isSome || (Tbl.look x.models h).isSome

/-- Kind of a handle: 1 session, 2 key set, 3 model. -/
def handleKind (h : Nat) : Nat := bits h 28 4

/-- The judgement of a handle in a creating position at HANDLE[0]. -/
def Tenant.createFault (x : Tenant) (h kind : Nat) : Option Err :=
  if handleKind h ≠ kind ∨ x.holds h then some (St.badField, 0x10) else none

/-! ### Counts (R107) -/

def Tenant.activeCount (x : Tenant) : Nat := (x.sessions.filter fun p => p.2.active).length
def State.activeTotal (s : State) : Nat := sumL (s.tenants.map fun t => t.2.activeCount)
def State.recordTotal (s : State) : Nat := sumL (s.tenants.map fun t => t.2.sessions.length)

/-- Live ephemeral keys of a tenant (R275). -/
def State.ephLive (s : State) (ten : Nat) : Nat := ((s.ten ten).ephs.filter fun k => decide (s.now < k.expires)).length

/-- Record indices in use. -/
def State.recordsUsed (s : State) : List Nat := s.tenants.flatMap fun t => t.2.sessions.map fun p => p.2.recIndex

/-- Lowest record index not in use (R249; log 18). -/
def State.freeRecord (s : State) : Nat :=
  let used := s.recordsUsed
  ((List.range (used.length + 1)).find? fun i => !used.contains i).getD used.length

/-! ### CMD_SESSION_OPEN (R115) -/

def Cmd.resume (c : Cmd) : Bool := bitOf (byteAt c.entry 0x58) 0
def Cmd.arenaBytes (c : Cmd) : Nat := fld c.entry 0x50 8
def Cmd.rtDeadlineMs (c : Cmd) : Nat := fld c.entry 0x5C 4

/-- The model handle an open names: on a resume, zero means the recorded one. -/
def openModel (x : Tenant) (c : Cmd) : Nat :=
  if c.resume && c.handle 2 == 0 then (Tbl.look x.sessions (c.handle 0)).elim 0 (·.model) else c.handle 2

/-- A key set that may be bound anew (R121). -/
def KeySet.bindable (k : KeySet) : Bool := k.loaded && !k.released

/-- Handles, then fields, then the parameter set, of an open (R91, R115, R250, R22). -/
def openCheck (ten : Nat) (s : State) (c : Cmd) : Option Err :=
  let x := s.ten ten
  let h0 : Option Err :=
    if c.resume then
      match Tbl.look x.sessions (c.handle 0) with
      | some r => if r.active then some (St.badHandle, 0) else none
      | none => some (St.badHandle, 0)
    else x.createFault (c.handle 0) 1
  match h0 with
  | some e => some e
  | none =>
    match Tbl.look x.keysets (c.handle 1) with
    | none => some (St.badHandle, 1)
    | some k =>
      if !k.bindable then some (St.badHandle, 1)
      else if c.resume ∧ c.handle 2 ≠ 0 ∧ some (c.handle 2) ≠ (Tbl.look x.sessions (c.handle 0)).map (·.model) then some (St.badHandle, 2)
      else match (Tbl.look x.models (openModel x c)).bind fun m => if m.retired then none else m.newest with
        | none => some (St.badHandle, 2)
        | some (_, g) =>
          if c.arenaBytes % 2 ^ 21 ≠ 0 then some (St.badField, 0x50)
          else if c.rtDeadlineMs > 600000 then some (St.badField, 0x5C)
          else if k.modtab ≠ g.modtab ∨ !g.modtab.ceilingOk s.settings.ceil then some (St.outOfPolicy, 0)
          else none

/-- Quotas, then capacity, of an open (R107, R394). -/
def openLimits (s : State) (ten cls : Nat) (resume : Bool) : Option Err :=
  let x := s.ten ten
  let t := s.tnSet ten
  let more := if resume then 0 else 1
  if x.activeCount + 1 > t.activeMax ∨ x.sessions.length + more > t.recordMax then some (St.quota, 0)
  else if s.fw.draining ∧ cls = 0 then some (St.noCapacity, 0)
  else if s.activeTotal + 1 > 65536 ∨ s.recordTotal + more > 1048576 then some (St.noCapacity, 0)
  else none

/-- Runs an open whose checks have passed. -/
def State.openSession (s : State) (ten lring : Nat) (c : Cmd) : State :=
  let x := s.ten ten
  let cls := c.cls (s.ring ten lring)
  match openLimits s ten cls c.resume with
  | some e => s.finish ten lring c.seq e
  | none =>
    let model := openModel x c
    match (Tbl.look x.models model).bind Model.newest with
    | none => s.finish ten lring c.seq (St.badHandle, 2)
    | some (g, gen) =>
      match s.alloc ten .arena (some gen.home) c.arenaBytes with
      | .error e => s.finish ten lring c.seq e
      | .ok (obj, s) =>
        let old := Tbl.look x.sessions (c.handle 0)
        let n : Session :=
          { active := true, closing := false, position := if c.resume then old.elim 0 (·.position) else 0, model := model, gen := g,
            keyset := some (c.handle 1), cls := cls, arenaBytes := c.arenaBytes, arena := obj,
            deadlineMs := if c.rtDeadlineMs = 0 then 2000 else c.rtDeadlineMs,
            recIndex := if c.resume then old.elim s.freeRecord (·.recIndex) else s.freeRecord,
            tickets := if c.resume then old.elim [] (·.tickets) else [] }
        let s := s.updTen ten fun x => { x with sessions := Tbl.put x.sessions (c.handle 0) n }
        let s :=
          if cls = 0 then
            s.pinComps gen.home ten (c.handle 1) (c.handle 0) 0 ((Tbl.look x.keysets (c.handle 1)).elim [] (·.comps)) else s
        s.finish ten lring c.seq (St.ok, 0)

/-- CMD_SESSION_OPEN: opens a fresh session or resumes a record (R115, R124). -/
def execCmdSessionOpen (t ten lring seq : Nat) (s : State) : Host.Outcome State Fault Refusal :=
  run t s fun s => s.tryStart ten lring seq 0x01 onePosition (openCheck ten) noNeed fun s c => s.openSession ten lring c

/-! ### CMD_SESSION_CLOSE (R117) -/

/-- A key set that no active session binds and whose release has started is freed (R121). -/
def State.sweepKeySet (s : State) (ten keyset : Nat) : State :=
  match Tbl.look (s.ten ten).keysets keyset with
  | none => s
  | some k =>
    if k.released && !((s.ten ten).sessions.any fun p => p.2.active && p.2.keyset == some keyset) then
      ((s.freeObj k.obj).dropKeyShelves ten keyset).updTen ten fun x => { x with keysets := Tbl.del x.keysets keyset }
    else s

/-- What the fabric holds of a session's messages goes with its arena (log 49). -/
def State.dropMessages (s : State) (ten handle : Nat) : State :=
  { s with fabric := { s.fabric with
      landed := s.fabric.landed.filter fun m => !(m.1 == ten && m.2.1 == handle)
      occupied := s.fabric.occupied.filter fun m => !(m.1 == ten && m.2.1 == handle) } }

/-- The end of an active session: pins, arena and generation reference go; the record stays if asked (R117). -/
def State.endSession (s : State) (ten handle : Nat) (keep : Bool) : State :=
  match Tbl.look (s.ten ten).sessions handle with
  | none => s
  | some x =>
    let s := ((s.freeObj x.arena).unpinSessions ten handle).dropMessages ten handle
    let rest : Session := { x with active := false, closing := false, keyset := none, gen := 0, arenaBytes := 0, arena := 0 }
    let left (l : Tbl Session) : Tbl Session := if keep then Tbl.put l handle rest else Tbl.del l handle
    let s := s.updTen ten fun n => { n with sessions := left n.sessions }
    let s := s.sweepModel ten x.model
    match x.keyset with
    | some k => s.sweepKeySet ten k
    | none => s

def Cmd.keepRecord (c : Cmd) : Bool := bitOf (byteAt c.entry 0x50) 0

/-- Checks of a close (R117, R121). -/
def closeCheck (ten : Nat) (s : State) (c : Cmd) : Option Err :=
  let x := s.ten ten
  let h0 := c.handle 0
  let h1 := c.handle 1
  if h0 = 0 ∧ h1 = 0 then some (St.badField, 0x10)
  else if h0 ≠ 0 ∧ (Tbl.look x.sessions h0).all (·.closing) then some (St.badHandle, 0)
  else if h1 ≠ 0 ∧ !((Tbl.look x.keysets h1).any KeySet.bindable) then some (St.badHandle, 1)
  else none

/-- EVALs started on a session whose work has not ended. -/
def State.sessionBusy (s : State) (ten handle : Nat) : Bool :=
  s.rings.any fun r => r.1 / 256 == ten && r.2.cmds.any fun c =>
    c.phase == .started && ((c.eval.any fun e => e.session == handle) || (c.opcode == 0x50 && c.handle 0 == handle))

/-- Starts a close: the release begins; a record is acted on at once, an active session once its EVALs have ended. -/
def State.startClose (s : State) (ten lring : Nat) (c : Cmd) : State :=
  let s := if c.handle 1 = 0 then s else
    s.updTen ten fun x => { x with keysets := Tbl.adjust x.keysets (c.handle 1) fun k => { k with released := true } }
  match Tbl.look (s.ten ten).sessions (c.handle 0) with
  | none => (s.sweepKeySet ten (c.handle 1)).finish ten lring c.seq (St.ok, 0)
  | some x =>
    if x.active then
      s.updTen ten fun n => { n with sessions := Tbl.put n.sessions (c.handle 0) { x with closing := true } }
    else
      let s := if c.keepRecord then s else s.updTen ten fun n => { n with sessions := Tbl.del n.sessions (c.handle 0) }
      (s.sweepKeySet ten (c.handle 1)).finish ten lring c.seq (St.ok, 0)

/-- CMD_SESSION_CLOSE (R117); the close of an active session ends in COMMAND_FINISH. -/
def execCmdSessionClose (t ten lring seq : Nat) (s : State) : Host.Outcome State Fault Refusal :=
  run t s fun s => s.tryStart ten lring seq 0x02 onePosition (closeCheck ten) noNeed fun s c => s.startClose ten lring c

/-- The end of a close of an active session. -/
def State.finishClose (s : State) (ten lring : Nat) (c : Cmd) : State :=
  if s.sessionBusy ten (c.handle 0) then s
  else ((s.endSession ten (c.handle 0) c.keepRecord).sweepKeySet ten (c.handle 1)).finish ten lring c.seq (St.ok, 0)

/-! ### CMD_KEYSET_LOAD (R118 to R120) -/

/-- What a key-set image's header declares. -/
structure KeyHead where
  flags : Nat
  rot : Nat
  repack : Nat
  dnum : Nat
  bootEll : Nat
  lweN : Nat
  logNb : Nat
  ksEll : Nat
  ksBits : Nat
  lweIdx : Nat
  dirOff : Nat
  total : Nat
  tab : ModTable
deriving DecidableEq, Repr

/-- First entry of a list of (offset, at fault). -/
def firstFault (l : List (Nat × Bool)) : Option Err := ((l.find? (·.2)).map fun p => (St.badField, p.1))

/-- The header stage of R118. -/
def keyHeader (img : List Byte) (len : Nat) : Except Err KeyHead :=
  let b := byteAt img
  let boot := bitOf (b 5) 2
  let faults : List (Nat × Bool) :=
    [(0x00, img.take 4 != ascii "LKEY"), (0x04, b 4 != 1), (0x05, b 5 &&& 0xF8 != 0), (0x06, decide (b 6 > 128)), (0x07, decide (b 7 > 16)),
     (0x09, !boot && b 9 != 0), (0x0A, !boot && fld img 0x0A 2 != 0), (0x0C, !boot && b 0x0C != 0),
     (0x0D, if boot then decide (b 0x0D < 1 ∨ 8 < b 0x0D) else b 0x0D != 0),
     (0x0E, if boot then decide (b 0x0E < 1 ∨ 16 < b 0x0E ∨ b 0x0D * b 0x0E > 32) else b 0x0E != 0),
     (0x0F, !boot && b 0x0F != 0), (0x18, fld img 0x18 8 != len)]
    ++ (List.range 32).map fun i => (0x20 + i, b (0x20 + i) != 0)
  match firstFault faults with
  | some e => .error e
  | none =>
    match parseModTable (img.drop 0x40) with
    | .error d => .error (St.badField, d)
    | .ok tab => .ok { flags := b 5, rot := b 6, repack := b 7, dnum := b 8, bootEll := b 9, lweN := fld img 0x0A 2, logNb := b 0x0C,
                       ksEll := b 0x0D, ksBits := b 0x0E, lweIdx := b 0x0F, dirOff := fld img 0x10 8, total := fld img 0x18 8, tab := tab }

def KeyHead.boot (k : KeyHead) : Bool := bitOf k.flags 2

/-- The parameter-set stage (R22). -/
def KeyHead.paramFault (k : KeyHead) (ceil : List Nat) : Option Err :=
  k.tab.check ceil (dnumOk k.dnum k.tab.lCount && (!k.boot || bootOk k.lweN k.logNb k.bootEll))

/-- KIND values in directory order (R119). -/
def KeyHead.kinds (k : KeyHead) : List Nat :=
  (if bitOf k.flags 0 then [1] else []) ++ List.replicate k.rot 2 ++ (if bitOf k.flags 1 then [3] else [])
    ++ (if k.boot then [4, 5] else []) ++ List.replicate k.repack 6

/-- Directory entry i of an image: KIND, GALOIS, OFFSET. -/
def dirEntry (img : List Byte) (dirOff i : Nat) : Nat × Nat × Nat :=
  (byteAt img (dirOff + 16 * i), fld img (dirOff + 16 * i + 4) 4, fld img (dirOff + 16 * i + 8) 8)

/-- Whether GALOIS is wrong for entry i (R120). -/
def galoisBad (n : Nat) (es : List (Nat × Nat × Nat)) (i : Nat) : Bool :=
  match es[i]? with
  | none => false
  | some (kind, g, _) =>
    if kind = 2 ∨ kind = 3 then
      g % 2 == 0 || decide (2 * n ≤ g) || (kind == 2 && (es.take i).any fun x => x.1 == 2 && x.2.1 == g)
    else g != 0

/-- The directory stage (R118, R119, R120). -/
def KeyHead.dirFault (k : KeyHead) (img : List Byte) : Option Err :=
  let n := k.kinds.length
  let es := (List.range n).map (dirEntry img k.dirOff)
  let at_ (i d : Nat) : Nat := k.dirOff + 16 * i + d
  let first := (es.head?).elim k.total (·.2.2)
  firstFault (
    [(0x10, decide (k.dirOff % 16 ≠ 0 ∨ k.dirOff < 0x40 + 16 + 16 * k.tab.count ∨ k.dirOff + 16 * n > min first k.total))]
    ++ (List.range n).map (fun i => (at_ i 0, (dirEntry img k.dirOff i).1 != nth0 k.kinds i))
    ++ (List.range n).map (fun i => (((List.range 3).find? fun j => byteAt img (at_ i (1 + j)) != 0).elim 0 fun j => at_ i (1 + j),
        fld img (at_ i 1) 3 != 0))
    ++ (List.range n).map (fun i =>
        let o := (dirEntry img k.dirOff i).2.2
        (at_ i 8, decide (o % 4096 ≠ 0 ∨ k.total ≤ o ∨ (0 < i ∧ o ≤ (dirEntry img k.dirOff (i - 1)).2.2))))
    ++ (List.range n).map (fun i => (at_ i 4, galoisBad (2 ^ k.tab.logN) es i))
    ++ [(0x0F, k.boot && decide (k.tab.count ≤ k.lweIdx)), (0x05, k.boot && (k.tab.bootIdx k.lweIdx).isNone)])

/-- b-half bytes of a component, and its seeds (R19, R20, R21). -/
def KeyHead.compBytes (k : KeyHead) (kind : Nat) : Nat :=
  if kind = 4 then lweKskBytes k.tab.logN k.ksEll
  else if kind = 5 then k.lweN * 2 * k.bootEll * bskRowBytes k.logNb
  else swkBytes k.tab k.dnum

def KeyHead.compSeeds (k : KeyHead) (kind : Nat) : Nat :=
  if kind = 4 then 1 else if kind = 5 then k.lweN * 2 * k.bootEll else k.dnum

/-- Index of the first component whose length is wrong (R118). -/
def KeyHead.badLength (k : KeyHead) (img : List Byte) : Option Nat :=
  let n := k.kinds.length
  (List.range n).find? fun i =>
    let o := (dirEntry img k.dirOff i).2.2
    let size := k.compBytes (nth0 k.kinds i) + 32 * k.compSeeds (nth0 k.kinds i)
    let span := (if i + 1 < n then (dirEntry img k.dirOff (i + 1)).2.2 else k.total) - o
    if i + 1 < n then span != roundUp size 4096 else decide (span < size ∨ roundUp size 4096 < span)

/-- Seeds and b-half bytes of a component's image. A bootstrapping component holds row after row, each a seed then its polynomial. -/
def KeyHead.split (k : KeyHead) (kind : Nat) (l : List Byte) : List (List Byte) × List Byte :=
  let n := k.compSeeds kind
  if kind = 5 then
    let rows := (List.range n).map fun r => slice l (r * (32 + bskRowBytes k.logNb)) (32 + bskRowBytes k.logNb)
    (rows.map (·.take 32), rows.flatMap (·.drop 32))
  else ((List.range n).map fun i => slice l (32 * i) 32, slice l (32 * n) (k.compBytes kind))

/-- Components with their places in the key set's DRAM object, and the object's contents piece by piece. -/
def KeyHead.layout (k : KeyHead) (img : List Byte) : Nat → Nat → List Nat → List (KeyComp × List Byte)
  | _, _, [] => []
  | i, off, kind :: r =>
    let e := dirEntry img k.dirOff i
    let size := k.compBytes kind + 32 * k.compSeeds kind
    let p := k.split kind (slice img e.2.2 size)
    ({ kind := kind, galois := e.2.1, off := off, bytes := k.compBytes kind, seeds := p.1 }, p.2) :: k.layout img (i + 1) (off + roundUp size 4096) r

/-- Bytes of the key set's DRAM object: every component, b-halves and seeds, in whole pages. -/
def KeyHead.objBytes (k : KeyHead) : Nat :=
  sumL (k.kinds.map fun kind => roundUp (k.compBytes kind + 32 * k.compSeeds kind) 4096)

/-- Checks of the entry (R91, R114, R118). -/
def keysetCheck (ten : Nat) (s : State) (c : Cmd) : Option Err :=
  let x := s.ten ten
  match x.createFault (c.handle 0) 2 with
  | some e => some e
  | none =>
    if c.handle 1 ≠ 0 ∧ (Tbl.look x.models (c.handle 1)).isNone then some (St.badHandle, 1)
    else if c.len 0 < 64 then some (St.badField, 0x18)
    else none

/-- Home comb of a model handle: that of its newest generation. -/
def Tenant.homeOf (x : Tenant) (model : Nat) : Option Nat := ((Tbl.look x.models model).bind Model.newest).map (·.2.home)

/-- Checks an image and loads it (R118, R111, R112). -/
def State.loadKeySet (s : State) (ten lring : Nat) (c : Cmd) (img : List Byte) : State :=
  match keyHeader img (c.len 0) with
  | .error e => s.done ten lring c.seq e
  | .ok k =>
    match (k.paramFault s.settings.ceil).orElse fun _ => k.dirFault img with
    | some e => s.done ten lring c.seq e
    | none =>
      match k.badLength img with
      | some i =>
        (s.logRec Rec.loader 0 ten i (2 * 2 ^ 56 + nth0 k.kinds i) (dirEntry img k.dirOff i).2.2).done ten lring c.seq
          (St.badField, k.dirOff + 16 * i + 8)
      | none =>
        match s.alloc ten .keyset ((s.ten ten).homeOf (c.handle 1)) k.objBytes with
        | .error e => s.done ten lring c.seq e
        | .ok (obj, s) =>
          let parts := k.layout img 0 0 k.kinds
          let ks : KeySet :=
            { modtab := k.tab, dnum := k.dnum, bootEll := k.bootEll, lweN := k.lweN, logNb := k.logNb, ksEll := k.ksEll,
              ksBits := k.ksBits, lweIdx := k.lweIdx, comps := parts.map (·.1), obj := obj, loaded := false, released := false,
              invalid := false }
          let s := parts.foldl (fun s p => s.writeObj obj p.1.off p.2) s
          (s.updTen ten fun x => { x with keysets := Tbl.put x.keysets (c.handle 0) ks }).done ten lring c.seq (St.ok, 0)

/-- CMD_KEYSET_LOAD (R118); the key set is held for binding once COMMAND_FINISH ends it. -/
def execCmdKeysetLoad (t ten lring seq : Nat) (h : HostView) (s : State) : Host.Outcome State Fault Refusal :=
  run t s fun s => s.tryStart ten lring seq 0x03 onePosition (keysetCheck ten) noNeed fun s c =>
    match hostRead h ten (c.iova 0) (c.len 0) with
    | none => s.done ten lring c.seq (St.translationFault, 0)
    | some img => s.loadKeySet ten lring c img

/-- The end of a key-set load. -/
def State.finishKeyset (s : State) (ten lring : Nat) (c : Cmd) : State :=
  let s :=
    if c.status = St.ok then
      s.updTen ten fun x => { x with keysets := Tbl.adjust x.keysets (c.handle 0) fun k => { k with loaded := true } } else s
  s.finish ten lring c.seq (c.status, c.detail)

/-! ### CMD_MODEL_RETIRE (R130) -/

/-- A model handle that is held and not retired, at HANDLE[0]. -/
def retireCheck (ten : Nat) (s : State) (c : Cmd) : Option Err :=
  if (Tbl.look (s.ten ten).models (c.handle 0)).any fun m => !m.retired then none else some (St.badHandle, 0)

/-- CMD_MODEL_RETIRE: the handle is retired at once, and its generations go as their references reach zero (R130). -/
def execCmdModelRetire (t ten lring seq : Nat) (s : State) : Host.Outcome State Fault Refusal :=
  run t s fun s => s.tryStart ten lring seq 0x05 onePosition (retireCheck ten) noNeed fun s c =>
    ((s.updTen ten fun x => { x with models := Tbl.adjust x.models (c.handle 0) fun m => { m with retired := true } }).sweepModel ten
      (c.handle 0)).finish ten lring seq (St.ok, 0)

end Sys2Proof.Machine
end

