-- ==== Sys2Proof/Machine/Models.lean ====
section
/-! DEFINITION. CMD_MODEL_LOAD: the sealed package, its inner header and tables, and a new generation (R126 to R133, R243, R244, R276 to R280). -/

namespace Sys2Proof.Machine

/-! ### The package (R276 to R278) -/

/-- Check 1 of R278, in the order it names: the header offset at fault. -/
def packageFault (hd : List Byte) (len : Nat) : Option Nat :=
  let count := fld hd 6 2
  let chunk := fld hd 0xA0 8
  let plain := fld hd 0xA8 8
  ((([(hd.take 4 != ascii "LPKG", 0x00), (byteAt hd 4 != 1, 0x04), (byteAt hd 5 != 0, 0x05)]
    ++ (List.range 80).map (fun k => (byteAt hd (0xB0 + k) != 0, 0xB0 + k))
    ++ [(chunk % 4096 != 0 || decide (chunk < 65536 ∨ 2 ^ 24 < chunk), 0xA0), (decide (plain < 64), 0xA8),
        (count == 0 || count != ceilDiv plain chunk, 0x06), (len != 256 + plain + 16 * count, 0xA8)] : List (Bool × Nat))).find? (·.1)).map (·.2)

/-- Model key of a package (R277): none where WRAPPED_KEY does not authenticate. -/
def unwrapKey (ten : Nat) (k : EphKey) (pub : Nat × Nat) (hd : List Byte) : Option (List Byte) :=
  let okm := hkdf384 (p384.ecdh k.priv pub) k.salt (ascii "LUMREL-BALEL-MODEL" ++ toLE 2 ten) 44
  gcmDecrypt (okm.take 32) (okm.drop 32) (hd.take 0x70) (slice hd 0x70 32) (slice hd 0x90 16)

/-- A failure of a load: its status and DETAIL, and the record it leaves, as (SOURCE, ARG0, ARG1). -/
structure LoadFault where
  err : Err
  rec? : Option (Nat × Nat × Nat)
deriving DecidableEq, Repr

def LoadFault.plain (e : Err) : LoadFault := { err := e, rec? := none }
def LoadFault.field (off : Nat) : LoadFault := LoadFault.plain (St.badField, off)

/-- The plaintext of chunks i on, n of them, from host memory at `iova` (R276, R277). -/
def readChunks (h : HostView) (ten : Nat) (key hd : List Byte) (chunk plain : Nat) : Nat → Nat → Nat → Except LoadFault (List Byte)
  | 0, _, _ => .ok []
  | n + 1, i, iova =>
    let m := min chunk (plain - i * chunk)
    match hostRead h ten iova (m + 16) with
    | none => .error (.plain (St.translationFault, 0))
    | some b =>
      match gcmDecrypt key (toLE 8 i ++ zeros 4) hd (b.take m) (b.drop m) with
      | none => .error { err := (St.sealedInvalid, 0), rec? := some (i, 3 * 2 ^ 56, 0) }
      | some p => (readChunks h ten key hd chunk plain n (i + 1) (iova + m + 16)).map fun r => p ++ r

/-- A live ephemeral key of a tenant (R275). -/
def State.liveEph (s : State) (ten id : Nat) : Option EphKey := (s.ten ten).ephs.find? fun k => k.id == id && decide (s.now < k.expires)

/-- Checks 1 to 5 of R278: the plaintext. -/
def State.openPackage (s : State) (h : HostView) (ten iova len : Nat) : Except LoadFault (List Byte) :=
  if len < 256 then .error (.field 0xA8)
  else match hostRead h ten iova 256 with
    | none => .error (.plain (St.translationFault, 0))
    | some hd =>
      match packageFault hd len with
      | some d => .error (.field d)
      | none =>
        match s.liveEph ten (fld hd 8 8) with
        | none => .error (.plain (St.attestationRequired, 0))
        | some k =>
          match p384.xyPoint (slice hd 0x10 96) with
          | none => .error (.plain (St.pointNotOnCurve, 0))
          | some pub =>
            match unwrapKey ten k pub hd with
            | none => .error (.plain (St.sealedInvalid, 0))
            | some key => readChunks h ten key hd (fld hd 0xA0 8) (fld hd 0xA8 8) (fld hd 6 2) 0 (iova + 256)

/-! ### The plaintext (R243, R244, R279) -/

/-- The inner header's fields. -/
structure InnerHead where
  segs : Nat
  modtab : Nat
  segTable : Nat
  weightTable : Nat
  weights : Nat
  rts : Nat
  rtTable : Nat
deriving DecidableEq, Repr

def parseInner (p : List Byte) : InnerHead :=
  { segs := fld p 6 2, modtab := fld p 8 8, segTable := fld p 0x10 8, weightTable := fld p 0x18 8, weights := fld p 0x20 4,
    rts := fld p 0x24 2, rtTable := fld p 0x28 8 }

/-- The byte of the inner header at fault; every table lies within the plaintext. -/
def innerFault (p : List Byte) : Option Nat :=
  let i := parseInner p
  lowestFault (
    [(p.take 4 != ascii "LMDL", 0), (byteAt p 4 != 1, 4), (byteAt p 5 != 0, 5), (i.segs == 0, 6), (!tableInside p i.modtab 1 16, 8),
     (!tableInside p i.segTable i.segs 32, 0x10), (!tableInside p i.weightTable i.weights 16, 0x18), (decide (65536 < i.weights), 0x20),
     (decide (256 < i.rts), 0x24), (byteAt p 0x26 != 0, 0x26), (byteAt p 0x27 != 0, 0x27),
     (if i.rts = 0 then i.rtTable != 0 else !tableInside p i.rtTable i.rts 32, 0x28)]
    ++ (List.range 16).map fun k => (byteAt p (0x30 + k) != 0, 0x30 + k))

/-- Offset and length of weight object k. -/
def weightEntry (p : List Byte) (i : InnerHead) (k : Nat) : Nat × Nat := (fld p (i.weightTable + 16 * k) 8, fld p (i.weightTable + 16 * k + 8) 8)

/-- The byte at fault of a lookup table (R243): a weight object as long as its own ENTRIES say. -/
def lutFault (o : List Byte) : Option Nat :=
  let t := fld o 0 2
  if o.length ≥ 16 ∧ o.length = 16 + 4 * t then
    lowestFault (
      [(!([2, 4, 8, 16, 32, 64, 128, 256, 512, 1024].contains t), 0), (decide (2 ^ byteAt o 2 < 2 * t), 0),
       (decide (byteAt o 2 < 10 ∨ 12 < byteAt o 2), 2)] ++ (List.range 13).map fun k => (byteAt o (3 + k) != 0, 3 + k))
  else none

/-- The first fault of the weight table and its lookup tables. -/
def weightsFault (p : List Byte) (i : InnerHead) : Option Nat :=
  (List.range i.weights).findSome? fun k =>
    let w := weightEntry p i k
    if w.1 % 4096 ≠ 0 ∨ p.length < w.1 then some 0
    else if p.length < w.1 + w.2 then some 8
    else lutFault (slice p w.1 w.2)

/-- Weight objects as they lie in the generation's DRAM object: each on a page of its own. -/
def packWeights : Nat → List (Nat × Nat) → List (Nat × Nat)
  | _, [] => []
  | off, w :: r => (off, w.2) :: packWeights (off + roundUp w.2 4096) r

/-- The byte at fault of a segment descriptor (R30, R132). -/
def descFault (p d : List Byte) (count : Nat) : Option Nat :=
  lowestFault (
    [(decide (128 < byteAt d 0), 0), (decide (3 < byteAt d 1), 1), (byteAt d 2 &&& 0xFC != 0, 2), (decide (count ≤ byteAt d 3), 3),
     (decide (p.length < fld d 4 4 + fld d 8 4), 4)] ++ (List.range 20).map fun k => (byteAt d (0xC + k) != 0, 0xC + k))

/-- Byte addresses, four bytes each, that a stencil on a weight object covers. -/
def weightWords (weights : List (Nat × Nat)) (st : Stencil) : List Int :=
  match weights[st.bindIndex]? with
  | some w => (st.visit.flatMap (st.wordsAt (w.1 + st.base))).filterMap id
  | none => []

/-- Least and greatest byte of a stencil beside the start of its object. -/
def Stencil.byteExtent (st : Stencil) : Int × Int := (st.base + st.lowest * st.elemBytes, st.base + (st.highest + 1) * st.elemBytes - 1)

def wordsMeet (a b : List Int) : Bool := a.any fun x => b.any fun y => decide (x < y + 4 ∧ y < x + 4)

/-- Stencils of a segment that its MOVEs and streams read, and that its MOVEs write. -/
def SegDef.reads (x : SegDef) : List Stencil :=
  ((movesOf (x.programs.map fun p => p.map fun k => k.map ins)).map Ins.srcStencil ++ x.streams.map (·.src)).filterMap fun k => x.stencils[k]?
def SegDef.writes (x : SegDef) : List Stencil :=
  ((movesOf (x.programs.map fun p => p.map fun k => k.map ins)).map Ins.dstStencil).filterMap fun k => x.stencils[k]?

/-- Whether an IDEMPOTENT segment writes a weight that it reads (R133). -/
def SegDef.weightAlias (x : SegDef) (weights : List (Nat × Nat)) : Bool :=
  let onW (st : Stencil) : Bool := !st.inPad && st.bind_ == 2
  (x.writes.filter onW).any fun d => (x.reads.filter onW).any fun r =>
    d.bindIndex == r.bindIndex && decide (d.byteExtent.1 ≤ r.byteExtent.2 ∧ r.byteExtent.1 ≤ d.byteExtent.2)
      && wordsMeet (weightWords weights d) (weightWords weights r)

/-- A segment fault and its record (R419). -/
def segLoadFault (i : Nat) (f : SegFault) : LoadFault :=
  { err := (f.status, f.detail), rec? := some (i, f.place.arg0, f.status + f.detail % 2 ^ 16 * 2 ^ 16) }

/-- Segment i of a package (R132, R133, R163). -/
def loadOne (p : List Byte) (h : InnerHead) (tab : ModTable) (weights : List (Nat × Nat)) (i : Nat) : Except LoadFault SegDef :=
  let d := slice p (h.segTable + 32 * i) 32
  match descFault p d tab.count with
  | some b => .error (segLoadFault i { status := St.badField, detail := b, place := .image })
  | none =>
    let hd : SegHead := { cells := if byteAt d 0 = 0 then 128 else byteAt d 0, combOff := byteAt d 1, flags := byteAt d 2, modBase := byteAt d 3 }
    let combs := (List.range h.segs).map fun k => byteAt p (h.segTable + 32 * k + 1)
    match loadSegment (slice p (fld d 4 4) (fld d 8 4)) hd tab.logN combs h.weights with
    | .error f => .error (segLoadFault i f)
    | .ok x => if x.idempotent && x.weightAlias weights then .error (.plain (St.alias_, 0)) else .ok x

/-- The byte at fault of a round-trip table entry (R244). -/
def rtFault (e : List Byte) (segs limbs : Nat) : Option Nat :=
  let b := byteAt e
  lowestFault (
    [(decide (segs ≤ fld e 0 2), 0), (decide (segs ≤ fld e 2 2), 2), (fld e 4 2 != 0xFFFF && decide (segs ≤ fld e 4 2), 4), (decide (7 < b 6), 6),
     (if bitOf (b 6) 1 then decide (b 7 = 0 ∨ 60 < b 7) else b 7 != 0, 7), (decide (b 8 = 0 ∨ limbs < b 8), 8), (decide (b 9 = 0 ∨ limbs < b 9), 9),
     (fld e 0x10 8 % 64 != 0, 0x10)] ++ (List.range 6).map fun k => (b (0xA + k) != 0, 0xA + k))

def parseRt (e : List Byte) : RtEntry :=
  { parkSeg := fld e 0 2, resumeSeg := fld e 2 2, fallbackSeg := fld e 4 2, flags := byteAt e 6, floodBits := byteAt e 7, outLimbs := byteAt e 8,
    inLimbs := byteAt e 9, outOffset := fld e 0x10 8, inOffset := fld e 0x18 8 }

/-- Check 6 of R278: a generation still without a home, and the bytes of its weights. `same` is the parameter set that the handle already has. -/
def readPlain (p : List Byte) (ceil : List Nat) (same : Option ModTable) : Except LoadFault (Gen × List (List Byte)) := do
  if let some d := innerFault p then throw (.field d)
  let i := parseInner p
  if let some d := weightsFault p i then throw (.field d)
  let tab ← (parseModTable (p.drop i.modtab)).mapError fun d => LoadFault.field d
  if let some e := tab.check ceil true then throw (.plain e)
  if same.any fun t => t != tab then throw (.plain (St.outOfPolicy, 0))
  let entries := (List.range i.weights).map (weightEntry p i)
  let packed := packWeights 0 entries
  let segs ← (List.range i.segs).mapM (loadOne p i tab packed)
  let es := (List.range i.rts).map fun k => slice p (i.rtTable + 32 * k) 32
  if let some d := es.findSome? fun e => rtFault e i.segs tab.lCount then throw (.field d)
  pure ({ home := 0, modtab := tab, segs := segs, weights := packed, rts := es.map parseRt, obj := 0, pinned := false, damaged := false },
        entries.map fun w => slice p w.1 w.2)

/-! ### The load (R125 to R127, R131) -/

/-- Generations of a tenant that are resident, loads under way included. -/
def Tenant.gensHeld (x : Tenant) : Nat := sumL (x.models.map fun m => m.2.gens.length + m.2.loading.length)

/-- The model handle: new and of its kind, or held and not retired; then HOME. -/
def modelCheck (ten : Nat) (s : State) (c : Cmd) : Option Err :=
  let x := s.ten ten
  let home := byteAt c.entry 0x50
  (match Tbl.look x.models (c.handle 0) with
    | some m => if m.retired then some (St.badHandle, 0) else none
    | none => x.createFault (c.handle 0) 3).orElse fun _ =>
  if 4 ≤ home ∧ home ≤ 0xFE then some (St.badField, 0x50) else none

/-- The home comb of a new generation of n pages (R127). -/
def State.chooseHome (s : State) (ten model home n : Nat) : Nat :=
  if home < 4 then home
  else match (s.ten ten).homeOf model with
    | some c => if n ≤ s.dram.freePages c then c else (s.dram.roomiest [0, 1, 2, 3]).getD 0
    | none => (s.dram.roomiest [0, 1, 2, 3]).getD 0

/-- The handle value under which the weight shelves of a load stand until it is ready. -/
def loadPin (id : Nat) : Nat := 2 ^ 40 + id

/-- Pins a load's weights where it asks for that. -/
def State.pinLoad (s : State) (ten model home id : Nat) (pin : Bool) (weights : List (Nat × Nat)) : Except Err State :=
  if pin then s.pinWeights home ten model (loadPin id) (sumL (weights.map fun w => shelvesFor w.2)) else .ok s

/-- Places a checked generation: DRAM, pins, and an entry under its load id. -/
def State.placeGen (s : State) (ten : Nat) (c : Cmd) (g : Gen) (data : List (List Byte)) : Except Err (Nat × State) := do
  let bytes := sumL (g.weights.map fun w => roundUp w.2 4096)
  let home := s.chooseHome ten (c.handle 0) (byteAt c.entry 0x50) (ceilDiv bytes pageBytes)
  let (obj, s) ← s.alloc ten .weights (some home) bytes
  let pin := bitOf (byteAt c.entry 0x51) 0
  let s ← s.pinLoad ten (c.handle 0) home obj pin g.weights
  let s := (g.weights.zip data).foldl (fun s w => s.writeObj obj w.1.1 w.2) s
  let fresh : Model := { gens := [], loading := [], next := 1, retired := false }
  let put (x : Tenant) : Tenant := { x with models := Tbl.upd x.models (c.handle 0) fresh fun m =>
    { m with loading := Tbl.put m.loading obj { g with home := home, obj := obj, pinned := pin } } }
  pure (obj, s.updTen ten put)

/-- The parameter set that a handle's generations have. -/
def Tenant.paramsOf (x : Tenant) (model : Nat) : Option ModTable :=
  (Tbl.look x.models model).bind fun m => ((m.gens ++ m.loading).head?).map fun g => g.2.modtab

/-- A load fails: its record, and a rejected point's count (R285). -/
def State.loadFails (s : State) (ten lring : Nat) (c : Cmd) (f : LoadFault) : State :=
  let s := match f.rec? with
    | some r => s.logRec Rec.loader 0 ten r.1 r.2.1 r.2.2
    | none => s
  let s := if f.err.1 = St.pointNotOnCurve then { s with sec := { s.sec with pointRej := capAt 0xFFFF (s.sec.pointRej + 1) } } else s
  s.done ten lring c.seq f.err

/-- Runs a load: quotas, the package, its checks, its placement. -/
def State.loadModel (s : State) (h : HostView) (ten lring : Nat) (c : Cmd) : State :=
  if (s.ten ten).gensHeld + 1 > (s.tnSet ten).genMax then s.done ten lring c.seq (St.quota, 0)
  else if sumL (s.tenants.map fun t => t.2.gensHeld) + 1 > 16384 then s.done ten lring c.seq (St.noCapacity, 0)
  else match (s.openPackage h ten (c.iova 0) (c.len 0)).bind fun p => readPlain p s.settings.ceil ((s.ten ten).paramsOf (c.handle 0)) with
    | .error f => s.loadFails ten lring c f
    | .ok g =>
      match s.placeGen ten c g.1 g.2 with
      | .error e => s.done ten lring c.seq e
      | .ok (id, s) => (s.updCmd ten lring c.seq fun c => { c with load := some id }).done ten lring c.seq (St.ok, 0)

/-- CMD_MODEL_LOAD (R126); the generation becomes ready when COMMAND_FINISH ends the load. -/
def execCmdModelLoad (t ten lring seq : Nat) (h : HostView) (s : State) : Host.Outcome State Fault Refusal :=
  run t s fun s => s.tryStart ten lring seq 0x04 onePosition (modelCheck ten) noNeed fun s c => s.loadModel h ten lring c

/-- Names the shelves of a load after its generation, or frees them. -/
def Comb.settlePins (c : Comb) (ten model id : Nat) (gen : Option Nat) : Comb :=
  { c with shelves := c.shelves.filterMap fun r =>
      if r.ten = ten ∧ r.kind = .pinW model (loadPin id) then gen.map fun g => { r with kind := .pinW model g } else some r }

/-- Drops a load under way: its DRAM, its pins, its entry. -/
def State.dropLoad (s : State) (ten model id : Nat) (g : Gen) : State :=
  let s := (s.freeObj g.obj).updComb g.home fun c => c.settlePins ten model id none
  s.updTen ten fun x => { x with models := Tbl.adjust x.models model fun m => { m with loading := Tbl.del m.loading id } }

/-- The end of a load: ready under the next number, unless the handle has been retired (R126, R130). -/
def State.finishLoad (s : State) (ten lring : Nat) (c : Cmd) : State :=
  let model := c.handle 0
  match c.load, Tbl.look (s.ten ten).models model with
  | some id, some m =>
    match Tbl.look m.loading id with
    | none => s.finish ten lring c.seq (c.status, c.detail)
    | some g =>
      if m.retired then ((s.dropLoad ten model id g).sweepModel ten model).finish ten lring c.seq (St.badHandle, 0)
      else
        let s := s.updComb g.home fun k => k.settlePins ten model id (some m.next)
        let ready (m : Model) : Model := { m with loading := Tbl.del m.loading id, gens := Tbl.put m.gens m.next g, next := m.next + 1 }
        let s := s.updTen ten fun x => { x with models := Tbl.adjust x.models model ready }
        (s.sweepModel ten model).finish ten lring c.seq (St.ok, 0)
  | _, _ => s.finish ten lring c.seq (c.status, c.detail)

end Sys2Proof.Machine
end

