-- ==== Sys2Proof/Machine/Eval.lean ====
section
/-! DEFINITION. CMD_EVAL: its checks, its start, and the gangs of its chain (R116, R128, R133, R134, R158, R232, R246, R265, R309). -/

namespace Sys2Proof.Machine

/-! ### Arguments (R134, R246) -/

def Cmd.frames (c : Cmd) : Nat := fld c.entry 0x50 4
def Cmd.entrySeg (c : Cmd) : Nat := fld c.entry 0x54 2
def Cmd.outIova (c : Cmd) : Nat := fld c.entry 0x60 8
def Cmd.outLen (c : Cmd) : Nat := fld c.entry 0x68 4
def Cmd.retries (c : Cmd) : Nat := byteAt c.entry 0x6C
def Cmd.rtEnable (c : Cmd) : Bool := bitOf (byteAt c.entry 0x6D) 0

/-- The generation that an EVAL of a session would take now (R128). -/
def State.currentGen (s : State) (ten : Nat) (x : Session) : Option (Nat × Gen) := (Tbl.look (s.ten ten).models x.model).bind Model.newest

/-- A session that takes new EVALs (R117). -/
def State.openSession? (s : State) (ten handle : Nat) : Option Session :=
  (Tbl.look (s.ten ten).sessions handle).filter fun x => x.active && !x.closing

/-- The checks of an EVAL's handle and fields, in offset order (R91, R116, R134, R246). -/
def evalCheck (ten : Nat) (s : State) (c : Cmd) : Option Err :=
  match s.openSession? ten (c.handle 0) with
  | none => some (St.badHandle, 0)
  | some x =>
    firstFault
      [(0x50, c.frames == 0), (0x54, decide ((s.currentGen ten x).elim 0 (fun g => g.2.segs.length) ≤ c.entrySeg)),
       (0x60, c.rtEnable && c.outIova % 64 != 0), (0x6C, decide (3 < c.retries)), (0x6D, c.rtEnable && !(s.tnSet ten).roundtrip)]

/-- Whether a generation holds a NOISE instruction. -/
def Gen.hasNoise (g : Gen) : Bool := g.segs.any fun x => (x.programs.flatten.flatten).any fun w => (ins w).op == Op.noise

/-- Whether an EVAL needs randomness (R265). -/
def evalNeeds (ten : Nat) (s : State) (c : Cmd) : Bool :=
  c.rtEnable || ((s.openSession? ten (c.handle 0)).bind (s.currentGen ten)).any fun g => g.2.hasNoise

/-- Completion positions of an EVAL: one more for a tenant that holds ROUNDTRIP (R102). -/
def evalPositions (ten : Nat) (s : State) : Nat := if (s.tnSet ten).roundtrip then 2 else 1

/-! ### Gangs (R158, R232, R327) -/

/-- Multicast ids of a segment's streams. -/
def SegDef.mcasts (x : SegDef) : List Nat := (x.streams.map (·.mcastId)).filter (· != 0)

/-- Segments bound to segment i: peers that its stencils name, and members of its multicast groups. -/
def Gen.bound (g : Gen) (i : Nat) : List Nat :=
  match g.segs[i]? with
  | none => []
  | some x =>
    ((x.stencils.filter fun st => st.space == 1 && st.peerSeg != 0).map fun st => st.peerSeg - 1)
      ++ (List.range g.segs.length).filter fun k => (g.segs[k]?).any fun y => y.mcasts.any fun m => x.mcasts.contains m

/-- The closure of a list of segments under `bound` (fuel: the number of segments). -/
def Gen.closure (g : Gen) : Nat → List Nat → List Nat
  | 0, l => l
  | n + 1, l =>
    let l' := (l ++ l.flatMap g.bound).eraseDups
    if l'.length = l.length then l else g.closure n l'

/-- The gang of a segment: all segments that are assigned before any of them starts. -/
def Gen.gang (g : Gen) (i : Nat) : List Nat := g.closure g.segs.length [i]

/-- The round-trip entry reached when a gang ends: the lowest whose PARK_SEG is in it, with its index (R244). -/
def Gen.pointOf (g : Gen) (gang : List Nat) : Option (Nat × RtEntry) :=
  ((List.range g.rts.length).zip g.rts).find? fun p => gang.contains p.2.parkSeg

/-- Segments that an EVAL can reach from a segment (fuel: the number of segments). -/
def Gen.reach (g : Gen) (rt : Bool) : Nat → Nat → List Nat
  | 0, _ => []
  | n + 1, i =>
    let l := g.gang i
    match g.pointOf l with
    | none => l
    | some p =>
      let next := if rt then p.2.resumeSeg else p.2.fallbackSeg
      if next < g.segs.length then l ++ g.reach rt n next else l

/-! ### Aliasing of bound buffers (R133) -/

/-- Least and greatest byte that a stencil outside the scratchpads covers, and whether in host memory. -/
def State.boundExtent (s : State) (r : SegRun) (st : Stencil) : Option (Bool × Int × Int) :=
  if st.inPad then none
  else match s.bound r st with
    | .error _ => none
    | .ok p => some (st.space == 4, p.1 + st.byteExtent.1, p.1 + st.byteExtent.2)

def State.boundWords (s : State) (r : SegRun) (st : Stencil) : List Int := (st.visit.flatMap (st.wordsAt (s.resolve r st))).filterMap id

/-- Whether a segment writes what it reads, with every buffer bound. -/
def State.runAlias (s : State) (r : SegRun) (x : SegDef) : Bool :=
  x.writes.any fun d => x.reads.any fun q =>
    match s.boundExtent r d, s.boundExtent r q with
    | some a, some b => a.1 == b.1 && decide (a.2.1 ≤ b.2.2 ∧ b.2.1 ≤ a.2.2) && wordsMeet (s.boundWords r d) (s.boundWords r q)
    | _, _ => false

/-! ### Runs of segments -/

/-- A run of a segment as it stands ready. -/
def SegRun.ready (id ten lring : Nat) (c : Cmd) (cls now : Nat) (first : Bool) (gang : List Nat) (idx comb : Nat) : SegRun :=
  { id := id, ten := ten, lring := lring, seq := c.seq, idx := idx, cls := cls, order := c.fetchNo, gang := gang, comb := comb, cells := [],
    phase := .ready, scrubbed := false, readyAt := now, startedAt := 0, ranSince := 0, progress := now, replays := 0, stops := 0,
    borrower := false, replay := false, first := first, fail := none, streams := [], saved := [], peers := [], charged := 0, keyBytes := 0 }

/-- Puts the gang of a segment with the dispatcher (R326, R327). -/
def State.requestGang (s : State) (ten lring : Nat) (c : Cmd) (g : Gen) (idx : Nat) (first : Bool) : State :=
  let gang := g.gang idx
  let cls := c.cls (s.ring ten lring)
  let comb (i : Nat) : Nat := (g.home + ((g.segs[i]?).elim 0 (·.combOff))) % 4
  let runs := ((List.range gang.length).zip gang).map fun p => SegRun.ready (s.nextId + p.1) ten lring c cls s.now first gang p.2 (comb p.2)
  { s with nextId := s.nextId + gang.length, segs := s.segs ++ runs }

/-- Continues a chain at a segment: a receiving EVAL waits for its message first (R309). -/
def State.continueAt (s : State) (ten lring seq idx : Nat) (first : Bool) : State :=
  match s.cmd? ten lring seq with
  | none => s
  | some c =>
    match c.eval with
    | none => s
    | some v =>
      match s.genOf ten v.model v.gen with
      | none => s
      | some g =>
        let s := s.updEval ten lring seq fun v => { v with chain := idx, rounds := v.rounds + 1 }
        if (g.gang idx).all fun i => s.messagesLanded ten v i then
          let s := (g.gang idx).foldl (fun s i => s.takeMessages ten v i) s
          s.requestGang ten lring c g idx first
        else s.updEval ten lring seq fun v => { v with recvWait := some (idx, s.now) }

/-! ### The start (R116, R128) -/

/-- The evaluation record of a CMD_EVAL. -/
def Cmd.newEval (c : Cmd) (x : Session) (gen : Nat) : Eval :=
  { session := c.handle 0, model := x.model, gen := gen, keyset := x.keyset.getD 0, position := x.position,
    iovas := (List.range 4).map c.iova, lens := (List.range 4).map c.len, rtEnable := c.rtEnable, outIova := c.outIova, outLen := c.outLen,
    retries := c.retries, entry := c.entrySeg, chain := c.entrySeg, rounds := 0, attempt := none, lastInterim := none, recvWait := none,
    answeredAt := none, sends := [], wrote := [], hostWrote := [], failed := none, done := false }

/-- Whether an EVAL that has started writes what it reads in some IDEMPOTENT segment it can reach (R133). -/
def State.evalAlias (s : State) (ten lring : Nat) (c : Cmd) (g : Gen) : Bool :=
  (g.reach c.rtEnable (g.segs.length + 1) c.entrySeg).eraseDups.any fun i =>
    (g.segs[i]?).any fun x => x.idempotent && s.runAlias (SegRun.ready 0 ten lring c 0 0 false [] i g.home) x

/-- What stops an EVAL at its start, once its generation is fixed: lost weights or keys (R349), then aliasing. -/
def State.startFault (s : State) (ten lring : Nat) (c : Cmd) (x : Session) (g : Gen) : Option Err :=
  if g.damaged || (Tbl.look (s.ten ten).keysets (x.keyset.getD 0)).any (·.invalid) then some (St.memoryUncorrectable, 0)
  else if s.evalAlias ten lring c g then some (St.alias_, 0)
  else none

/-- Starts an EVAL: the position, the generation, the chain. -/
def State.startEval (s : State) (ten lring : Nat) (c : Cmd) : State :=
  let s := s.updCmd ten lring c.seq fun c => { c with startAt := none }
  match Tbl.look (s.ten ten).sessions (c.handle 0) with
  | none => s.finish ten lring c.seq (St.badHandle, 0)
  | some x =>
    match s.currentGen ten x with
    | none => s.finish ten lring c.seq (St.badHandle, 0)
    | some (n, g) =>
      if x.position + c.frames > (s.tnSet ten).frameCeil then s.finish ten lring c.seq (St.sessionExhausted, 0)
      else
        let s := s.updTen ten fun t => { t with sessions := Tbl.put t.sessions (c.handle 0) { x with position := x.position + c.frames, gen := n } }
        let s := s.updCmd ten lring c.seq fun k => { k with eval := some (c.newEval x n) }
        let s := s.sweepModel ten x.model
        match s.startFault ten lring c x g with
        | some e => s.failEval ten lring c.seq e
        | none => s.continueAt ten lring c.seq c.entrySeg true

/-- CMD_EVAL (R134); its segments run under the dispatcher, and COMMAND_FINISH ends it. -/
def execCmdEval (t ten lring seq : Nat) (s : State) : Host.Outcome State Fault Refusal :=
  run t s fun s => s.tryStart ten lring seq 0x10 (evalPositions ten) (evalCheck ten) (evalNeeds ten) fun s c => s.startEval ten lring c

/-- Bytes of DRAM that an EVAL wrote, by DPA. -/
def Eval.wroteAt (v : Eval) (d : Dram) (ten : Nat) : List Nat :=
  v.wrote.flatMap fun a => (List.range 4).filterMap fun k => d.translate ten (a + k)

/-- What a failed EVAL wrote is undefined: free bytes in DRAM, which leave poison as it is, and host memory that the host may not rely on (R340, R418; log 133). -/
def State.undefine (s : State) (ten : Nat) (v : Eval) : State :=
  let l := v.wroteAt s.dram ten
  let s := { s.skipFrees l.length with dram := { s.dram with cells := Memory.puts s.dram.cells (l.zip ((s.frees l.length).map (BitVec.ofNat 8))) } }
  v.hostWrote.foldl (fun s r => s.emit (.dmaUndefined ten r.1 r.2)) s

/-- The end of an EVAL: once its chain has ended and every message it sent has been acknowledged (R308). -/
def State.finishEval (s : State) (ten lring : Nat) (c : Cmd) (v : Eval) : State :=
  if v.done && v.sends.all (·.acked) then
    match v.failed with
    | none => s.finish ten lring c.seq (St.ok, 0)
    | some e => (s.undefine ten v).finish ten lring c.seq e
  else s

/-! ### The receiving side of an edge (R309, R310) -/

/-- FABRIC_RECV_START: a waiting EVAL starts its receiving segment once its message has landed (R309). -/
def execFabricRecvStart (t ten lring seq : Nat) (s : State) : Host.Outcome State Fault Refusal :=
  run t s fun s =>
    match (s.cmd? ten lring seq).bind (·.eval) with
    | none => s
    | some v =>
      match v.recvWait with
      | none => s
      | some (idx, _) =>
        (s.genOf ten v.model v.gen).elim s fun g =>
          s.onlyIf ((g.gang idx).all fun i => s.messagesLanded ten v i) fun s =>
            (s.updEval ten lring seq fun v => { v with recvWait := none }).continueAt ten lring seq idx (v.rounds == 1)

/-- FABRIC_DEADLINE: a message not admitted in time, or a receive wait that is too long, fails its EVAL (R310). -/
def execFabricDeadline (t ten lring seq : Nat) (s : State) : Host.Outcome State Fault Refusal :=
  run t s fun s =>
    match (s.cmd? ten lring seq).bind (·.eval) with
    | none => s
    | some v =>
      let limit := ((Tbl.look (s.ten ten).sessions v.session).elim 0 (·.deadlineMs)) * msec
      let late := v.sends.any fun x => !x.admitted && !x.acked && decide (x.until_ ≤ s.now)
      let waited := v.recvWait.any fun w => decide (w.2 + limit < s.now)
      s.onlyIf (v.failed.isNone && (late || waited)) fun s => s.failEval ten lring seq (St.roundtripDeadline, 0)

end Sys2Proof.Machine
end

