-- ==== Sys2Proof/Machine/Dispatcher.lean ====
section
/-! DEFINITION. The dispatcher: where a segment may run, which goes next, placement, starvation, yielding and scrubs (R138, R148, R326 to R331, R336, R337, R343, R367). -/

namespace Sys2Proof.Machine

/-! ### Where a segment may run -/

/-- The comb that serves for comb c: itself, or the first in service after it (R328). -/
def State.combFor (s : State) (c : Nat) : Option Nat := ((List.range 4).map fun k => (c + k) % 4).find? fun k => (s.comb k).svc == .inService

/-- The comb that a run's descriptor names (R132). -/
def State.namedComb (s : State) (g : SegRun) : Nat :=
  (((s.runGen g).elim 0 (·.home)) + ((s.runDef g).elim 0 (·.combOff))) % 4

/-- The comb a waiting run goes to: a yielded run returns to its own. -/
def State.targetComb (s : State) (g : SegRun) : Option Nat :=
  if g.phase = .yielded then (if (s.comb g.comb).svc = .inService then some g.comb else none) else s.combFor (s.namedComb g)

/-- Group shape (R138): whole mesh rows in column order, then the rest in one further row. -/
def shapeOk (comb n : Nat) (cells : List Nat) : Bool :=
  let full := n / 16
  let rest := cells.drop (16 * full)
  cells.length == n && decide (cells.Nodup) && cells.all (fun c => combOf c == comb)
    && ((List.range full).all fun j => (List.range 16).all fun k => cells[16 * j + k]? == some ((cells.getD (16 * j) 0) / 16 * 16 + k))
    && (rest.zip (rest.drop 1)).all fun p => decide (p.1 < p.2 ∧ p.1 / 16 = p.2 / 16)

/-- Whether n cells of that shape can be found among the available cells of a comb. -/
def fitsShape (avail : Nat → Bool) (comb n : Nat) : Bool :=
  let count (r : Nat) : Nat := ((List.range 16).filter fun k => avail (comb * 128 + r * 16 + k)).length
  let rows := (List.range 8).map count
  let whole := (rows.filter (· == 16)).length
  decide (n / 16 ≤ whole) &&
    (n % 16 == 0 || decide (n / 16 < whole) || rows.any fun c => decide (c < 16 ∧ n % 16 ≤ c))

/-- The tenant that reserves a cell, and whether the cell counts as reserved yet (R330). -/
def State.reservedBy (s : State) (cell : Nat) : Option (Nat × Bool) :=
  ((s.comb (combOf cell)).reserved.find? fun r => r.1 == cell).map (·.2)

def State.cellFree (s : State) (cell : Nat) : Bool := (s.cell cell).seg.isNone

def State.ownReserved (s : State) (g : SegRun) (cell : Nat) : Bool := s.reservedBy cell == some (g.ten, true)

/-- Cells lent to a borrower of the same tenant, which class-0 work may take back (R331). -/
def State.lentCell (s : State) (g : SegRun) (cell : Nat) : Bool :=
  s.ownReserved g cell && (s.cellRun cell).any fun b => b.borrower && b.ten == g.ten

def State.unreservedFree (s : State) (cell : Nat) : Bool := (s.reservedBy cell).isNone && s.cellFree cell

/-- Whether a run may borrow its tenant's idle reserved cells (R331, R343). -/
def State.mayBorrow (s : State) (g : SegRun) : Bool :=
  g.cls != 0 && !g.replay && g.phase == .ready && decide (g.stops < 2) && (s.runDef g).any (·.idempotent)

/-- The cells a run may be placed on now, in the order of the table of R329. -/
def State.avail (s : State) (g : SegRun) (comb n : Nat) : Nat → Bool :=
  let own (c : Nat) : Bool := s.ownReserved g c && s.cellFree c
  let lent (c : Nat) : Bool := own c || (!g.replay && s.lentCell g c)
  if g.cls = 0 then
    if fitsShape own comb n then own
    else if fitsShape lent comb n then lent
    else fun c => own c || s.unreservedFree c
  else fun c => s.unreservedFree c || (s.mayBorrow g && own c)

def State.runCells (s : State) (g : SegRun) : Nat := (s.runDef g).elim 0 (·.cells)

/-- Whether a waiting run can be placed on its comb now. -/
def State.placeable (s : State) (g : SegRun) : Bool :=
  (s.targetComb g).any fun c => fitsShape (s.avail g c (s.runCells g)) c (s.runCells g)

/-! ### Which goes next (R326, R329, R334, R343) -/

def SegRun.waits (g : SegRun) : Bool := (g.phase == .ready || g.phase == .yielded) && g.fail.isNone

/-- Runs of the same gang. -/
def SegRun.gangOf (g x : SegRun) : Bool := x.ofCmd g.ten g.lring g.seq && g.gang.contains x.idx

/-- A gang of which some member is placed and has not started. -/
def State.partGang (s : State) (g : SegRun) : Bool := s.segs.any fun x => g.gangOf x && x.phase == .placed

/-- Whether placement of a run is stopped by an older one that has waited 1 ms (R329). -/
def State.heldBack? (s : State) (comb : Nat) (g : SegRun) : Bool :=
  let c := s.comb comb
  let own := g.cls == 0 && fitsShape (fun x => s.ownReserved g x && s.cellFree x) comb (s.runCells g)
  !own && (List.range (g.cls + 1)).any fun k => (c.stopped.getD k none).any fun o => o != g.id

/-- Share of the combs' time that a class has had, weighed 8 : 4 : 1; class 0 goes first. -/
def Comb.classKey (c : Comb) (cls : Nat) : Nat :=
  if cls = 0 then 0 else 1 + nth0 c.served cls * (if cls = 1 then 1 else if cls = 2 then 2 else 8)

/-- Rank of a waiting run on a comb, least first: a gang begun, class, replays, tenant rotation, later segments of class-0 chains, fetch order. -/
def State.rank (s : State) (comb : Nat) (g : SegRun) : List Nat :=
  let c := s.comb comb
  [b2n (!s.partGang g), c.classKey g.cls, g.cls, b2n (!g.replay), (g.ten + 511 - nth0 c.lastTen g.cls) % 512, b2n (g.cls != 0 || g.first), g.order, g.id]

def rankBefore : List Nat → List Nat → Bool
  | x :: l, y :: r => decide (x < y) || (x == y && rankBefore l r)
  | _, _ => false

/-- Whether a run is the one that the dispatcher places next on a comb. -/
def State.isNext (s : State) (comb : Nat) (g : SegRun) : Bool :=
  let rivals := s.segs.filter fun x => x.waits && s.targetComb x == some comb && s.placeable x && !s.heldBack? comb x
  !s.heldBack? comb g && rivals.all fun x => x.id == g.id || rankBefore (s.rank comb g) (s.rank comb x)

/-! ### Placement -/

/-- A run's work is thrown away and it waits again from its start (R331, R341). -/
def SegRun.restart (g : SegRun) (now : Nat) : SegRun :=
  { g with cells := [], phase := .ready, scrubbed := false, readyAt := now, borrower := false, streams := [], saved := [], peers := [], charged := 0,
           keyBytes := 0, progress := now }

/-- Takes a run and the rest of its gang off their cells, to wait again. -/
def State.requeueGang (s : State) (g : SegRun) (f : SegRun → SegRun) : State :=
  let members := s.segs.filter g.gangOf
  let s := members.foldl (fun s m => (s.releaseCells m.cells).unrefSeg m.id) s
  { s with segs := s.segs.map fun m => if g.gangOf m then f (m.restart s.now) else m }

/-- Stops the borrowers on cells that class-0 work takes (R331). -/
def State.stopBorrowers (s : State) (cells : List Nat) : State :=
  let lent := (s.segs.filter fun b => b.borrower && b.cells.any cells.contains).map (·.id)
  lent.foldl (fun s id =>
    match s.seg? id with
    | some b => s.requeueGang b fun m => if m.borrower || m.id == id then { m with stops := m.stops + 1 } else m
    | none => s) s

/-- Key components that a segment streams are referenced from its assignment on (R123). -/
def State.refKeys (s : State) (g : SegRun) : State :=
  match s.runDef g, s.runEval g with
  | some x, some v =>
    x.reads.foldl (fun s st =>
      if st.bind_ = 4 then
        match s.runComp g st with
        | some c => s.refComp g.comb g.ten v.keyset c.1 g.id
        | none => s
      else s) s
  | _, _ => s

/-- Remote accesses of other cells under way to a yielded run follow it to its new cells. -/
def renameWord (old new : List Nat) (w : Nat × Nat) : Nat × Nat := ((old.findIdx? fun c => c == w.1).elim w.1 fun k => new.getD k w.1, w.2)

def State.renameCells (s : State) (g : SegRun) (new : List Nat) : State :=
  let mv (f : Flight) : Flight := { f with writes := f.writes.map (renameWord g.cells new) }
  let peer (c : Cell) : Bool := (c.seg.bind fun id => s.seg? id).any fun x => x.ofCmd g.ten g.lring g.seq
  { s with cells := s.cells.map fun c => (c.1, if peer c.2 then { c.2 with flights := c.2.flights.map mv } else c.2) }

/-- A comb in idle Rest wakes for a segment: its supply returns to VFIX and every cell must be scrubbed (R367). -/
def State.wakeComb (s : State) (c : Nat) : State :=
  if (s.comb c).rest then
    let s := s.updComb c fun k => { k with rest := false, vcode := (s.pace c).vfix }
    { s with cells := s.cells.map fun x => (x.1, if combOf x.1 = c ∧ x.2.seg.isNone then { x.2 with lastTen := none } else x.2) }
  else s

/-- Code of 0.75 V, the class-0 floor (R68). -/
def c0Code : Nat := 40

/-- Class-0 work is assigned to a comb: its floor holds (R68); the governor's ramp follows (R69). -/
def State.holdC0 (s : State) (c : Nat) : State := s.updComb c fun k => { k with c0Floor := true, c0Last := s.now }

/-- A replay is placed: its record and its count (R343, R351). -/
def State.countReplay (s : State) (g : SegRun) (comb : Nat) : State :=
  if g.replay ∧ g.phase = .ready then
    (({ s with log := { s.log with replays := capAt 0xFFFF (s.log.replays + 1) } }).logRec Rec.replay 0 g.ten comb (g.seq % 2 ^ 32) g.lring).updCmd
      g.ten g.lring g.seq fun c => { c with replayed := true }
  else s

/-- Assigns cells to a run. -/
def State.assign (s : State) (g : SegRun) (comb : Nat) (cells : List Nat) : State :=
  let s := s.stopBorrowers cells
  let s := s.wakeComb comb
  let s := s.countReplay g comb
  let s := if g.cls = 0 then s.holdC0 comb else s
  let s := if g.phase = .yielded then s.renameCells g cells else s
  let s := ((List.range cells.length).zip cells).foldl (fun s p => s.updCell p.2 fun c => { c with seg := some g.id, group := p.1 }) s
  let borrows := g.cls != 0 && cells.any (s.ownReserved g)
  let clean := cells.all fun c => (s.cell c).lastTen == some g.ten
  let s := s.updSeg g.id fun x => { x with comb := comb, cells := cells, phase := .placed, scrubbed := clean, borrower := borrows }
  let s := s.updComb comb fun k =>
    { k with lastTen := k.lastTen.set g.cls g.ten, stopped := k.stopped.map fun o => if o = some g.id then none else o }
  s.refKeys { g with comb := comb }

/-- DISPATCH: places one waiting run's whole group (R326 to R331, R343). -/
def execDispatch (t comb seg : Nat) (cells : List Nat) (s : State) : Host.Outcome State Fault Refusal :=
  run t s fun s =>
    match s.seg? seg with
    | none => s
    | some g =>
      let n := s.runCells g
      s.onlyIf (g.waits && s.power.phase == .ready && s.targetComb g == some comb && shapeOk comb n cells
          && cells.all (s.avail g comb n) && s.isNext comb g) fun s => s.assign g comb cells

/-- DISPATCH_STARVATION: the oldest waiting run of a class on a comb has waited 1 ms (R329). -/
def execDispatchStarvation (t comb cls : Nat) (s : State) : Host.Outcome State Fault Refusal :=
  run t s fun s =>
    let l := s.segs.filter fun g => g.waits && g.cls == cls && s.targetComb g == some comb
    let oldest := l.foldl (fun (b : Option SegRun) g =>
      match b with
      | none => some g
      | some x => if g.readyAt < x.readyAt then some g else some x) none
    match oldest with
    | none => s
    | some g => s.onlyIf (decide (comb < 4 ∧ cls < 4 ∧ g.readyAt + msec ≤ s.now)) fun s =>
        s.updComb comb fun k => { k with stopped := k.stopped.set cls (some g.id) }

/-! ### Yielding (R336, R337) -/

/-- Cell-µs that a run has had since it last started or resumed, credited to its class. -/
def State.creditClass (s : State) (g : SegRun) : State :=
  s.updComb g.comb fun k =>
    { k with served := updNth k.served g.cls fun v => v + g.cells.length * ((s.now - g.ranSince) / usec), idleSince := s.now
             c0Last := if g.cls = 0 then s.now else k.c0Last }

/-- Whether higher-class work waits for cells of a comb and cannot be placed otherwise. -/
def State.wantsYield (s : State) (g : SegRun) : Bool :=
  s.segs.any fun x => x.waits && decide (x.cls < g.cls) && s.targetComb x == some g.comb && !s.placeable x

/-- No issued instruction of a run's cells is under way, and no admitted write into them. -/
def State.quiet (s : State) (g : SegRun) : Bool :=
  (g.cells.all fun c => (s.cell c).flights.isEmpty)
    && s.cells.all fun c => c.2.flights.all fun f => !(f.arrived && f.writes.any fun w => g.cells.contains w.1)

/-- SEGMENT_YIELD: the cell state is saved and the cells are free (R337). -/
def execSegmentYield (t seg : Nat) (s : State) : Host.Outcome State Fault Refusal :=
  run t s fun s =>
    match s.seg? seg with
    | none => s
    | some g =>
      s.onlyIf (g.phase == .running && g.fail.isNone && g.cls != 0 && decide (g.ranSince + 200 * usec ≤ s.now) && s.wantsYield g && s.quiet g) fun s =>
        let saved := g.cells.map s.cell
        let s := (s.creditClass g).releaseCells g.cells
        s.updSeg seg fun x => { x with phase := .yielded, saved := saved, scrubbed := false, readyAt := s.now, borrower := false }

/-! ### Scrubs (R148, R330) -/

/-- A cell after its scrub for a tenant. -/
def Cell.scrub (c : Cell) (ten : Option Nat) : Cell :=
  { c with mem := [], acc := [], bound := [], plane := [], idlePlane := [], bank0 := [], bank1 := [], tokens := [], lastTen := ten }

/-- CELL_SCRUB_COMPLETE: the cells of a group that came from other tenants, or cells moved into a reservation, are zero (R148, R330). -/
def execCellScrubComplete (t : Nat) (target : ScrubTarget) (s : State) : Host.Outcome State Fault Refusal :=
  run t s fun s =>
    match target with
    | .group seg =>
      match s.seg? seg with
      | none => s
      | some g =>
        s.onlyIf (g.phase == .placed && !g.scrubbed) fun s =>
          let scrub (c : Cell) : Cell := if c.lastTen = some g.ten then c else c.scrub (some g.ten)
          (g.cells.foldl (fun s c => s.updCell c scrub) s).updSeg seg fun x => { x with scrubbed := true }
    | .reservation comb ten =>
      let todo := ((s.comb comb).reserved.filter fun r => r.2.1 == ten && !r.2.2 && s.cellFree r.1).map (·.1)
      let s := todo.foldl (fun s c => s.updCell c fun k => k.scrub (some ten)) s
      s.updComb comb fun k => { k with reserved := k.reserved.map fun r => if todo.contains r.1 then (r.1, r.2.1, true) else r }

end Sys2Proof.Machine
end

