-- ==== Sys2Proof/Machine/RoundTrip.lean ====
section
/-! DEFINITION. Round trips: the outbound tail, the interim completion, deadlines and resumes (R100, R102, R239 to R255, R365). -/

namespace Sys2Proof.Machine

/-! ### The outbound tail (R245, R247, R248) -/

/-- Words of an arena from a byte offset on, as limbs of N words. -/
def State.arenaWords (s : State) (ten arena off n : Nat) : Except Err (List Nat) :=
  (s.dram.readDva ten (s.dvaOf arena + off) (4 * n)).map (words 4)

/-- Whether every region that an entry names lies in the arena (R245). -/
def RtEntry.inside (e : RtEntry) (n arenaBytes : Nat) : Bool :=
  let mask := if bitOf e.flags 0 then e.outLimbs * n * 4 else 0
  decide (e.outOffset + 2 * e.outLimbs * n * 4 ≤ arenaBytes ∧ e.inOffset + 2 * e.inLimbs * n * 4 + mask ≤ arenaBytes)

/-- Free words where a modulus is composite (R27). -/
def State.freeIfComposite (s : State) (q : Nat) (l : List Nat) : List Nat × State :=
  if primeWord q then (l, s) else ((s.frees l.length).map (· % 2 ^ 32), s.skipFrees l.length)

/-- Each limb by f, free where its modulus is composite. -/
def State.mapLimbs (s : State) (tab : ModTable) (f : Nat → ModEntry → List Nat → List Nat) : Nat → List (List Nat) → List (List Nat) × State
  | _, [] => ([], s)
  | i, l :: r =>
    match tab.entry i with
    | none => (l :: r, s)
    | some m =>
      let p := s.freeIfComposite m.q (f i m l)
      let q := p.2.mapLimbs tab f (i + 1) r
      (p.1 :: q.1, q.2)

/-- Adds two limbs. -/
def addLimbs (q : Nat) (a b : List Nat) : List Nat := (a.zip b).map fun x => madd q x.1 x.2

/-- What the outbound tail makes of a ciphertext: the limbs to send and the mask, if any. -/
structure Outbound where
  c0 : List (List Nat)
  c1 : List (List Nat)
  mask : List (List Nat)
deriving DecidableEq, Repr

/-- The outbound tail over c0 and c1 (R247). -/
def State.outboundTail (s : State) (tab : ModTable) (e : RtEntry) (c0 c1 : List (List Nat)) : Outbound × State :=
  let n := 2 ^ tab.logN
  let flood := bitOf e.flags 1
  let blind := bitOf e.flags 0
  let es : List Int := if flood then (s.randoms n (2 ^ e.floodBits)).map fun (r : Nat) => (r : Int) - (2 ^ (e.floodBits - 1) : Nat) else []
  let s := if flood then s.skipRandoms n else s
  let a := if flood then
      s.mapLimbs tab (fun _ m l => addLimbs m.q l (nttForward m tab.logN tab.logN (es.map (resid m.q)))) 0 c0
    else (c0, s)
  let s := a.2
  let mask := if blind then (List.range e.outLimbs).map fun i =>
      (List.range n).map fun j => Config.random (s.draws + i * n + j) % tab.qAt i
    else []
  let s := if blind then s.skipRandoms (e.outLimbs * n) else s
  let b := if blind then s.mapLimbs tab (fun i m l => addLimbs m.q l (mask.getD i [])) 0 a.1 else (a.1, s)
  if bitOf e.flags 2 then
    let inv (_ : Nat) (m : ModEntry) (l : List Nat) : List Nat := nttInverse m tab.logN tab.logN l
    let x := b.2.mapLimbs tab inv 0 b.1
    let y := x.2.mapLimbs tab inv 0 c1
    ({ c0 := x.1, c1 := y.1, mask := mask }, y.2)
  else ({ c0 := b.1, c1 := c1, mask := mask }, b.2)

/-- Modular operations of the tail (R195): one transform and one addition per limb for the flood, one addition for the mask, the transforms to the coefficient domain. -/
def RtEntry.tailOps (e : RtEntry) (logN : Nat) : Nat :=
  let n := 2 ^ logN
  let ntt := 3 * (n / 2) * logN
  e.outLimbs * ((if bitOf e.flags 1 then ntt + n else 0) + (if bitOf e.flags 0 then n else 0) + (if bitOf e.flags 2 then 2 * ntt else 0))

/-! ### Attempts (R248, R249, R254, R365) -/

/-- START_ID of R249, drawn once before the first round trip after a start. -/
def State.needStartId (s : State) : State :=
  match s.sec.startId with
  | some _ => s
  | none =>
    let q := s.takeBytes 8
    { q.2 with sec := { q.2.sec with startId := some (leNat q.1) } }

/-- The value at which the attempt counter stops. -/
def ticketLimit : Nat := 2 ^ 44 - 1

/-- A fresh ticket for a session; the counter that reaches its limit sets RT_TICKETS. -/
def State.newTicket (s : State) (ten session : Nat) (x : Session) : Nat × State :=
  let k := s.sec.rtCounter
  let s := { s with sec := { s.sec with rtCounter := k + 1 }
                    meters := { s.meters with evTickets := s.meters.evTickets || k + 1 == ticketLimit } }
  (x.recIndex % 2 ^ 20 * 2 ^ 44 + k,
   s.updTen ten fun t => { t with sessions := Tbl.put t.sessions session { x with tickets := k :: x.tickets } })

/-- Starts attempt k at a round-trip point: the tail runs, and the outbound ciphertext is ready to be written (R247, R248). -/
def State.startAttempt (s : State) (ten lring seq point k : Nat) : State :=
  match (s.cmd? ten lring seq).bind (·.eval) with
  | none => s
  | some v =>
    match s.genOf ten v.model v.gen, Tbl.look (s.ten ten).sessions v.session with
    | some g, some x =>
      match g.rts[point]? with
      | none => s
      | some e =>
        let n := 2 ^ g.modtab.logN
        if !e.inside n x.arenaBytes then s.failEval ten lring seq (St.stencilBounds, 0)
        else if v.outLen < 64 + 2 * e.outLimbs * n * 4 then s.failEval ten lring seq (St.badField, 0x68)
        else if ticketLimit ≤ s.sec.rtCounter then s.failEval ten lring seq (St.noCapacity, 0)
        else match s.arenaWords ten x.arena e.outOffset (2 * e.outLimbs * n) with
          | .error err => s.failEval ten lring seq err
          | .ok ws =>
            let limbs := chunks n ws.length ws
            let t := s.needStartId.outboundTail g.modtab e (limbs.take e.outLimbs) (limbs.drop e.outLimbs)
            let off := e.inOffset + 2 * e.inLimbs * n * 4
            let s := if t.1.mask.isEmpty then t.2 else (t.2.writeObj x.arena off (unwords 4 t.1.mask.flatten)).noteWrote ten lring seq
              ((List.range t.1.mask.flatten.length).map fun i => t.2.dvaOf x.arena + off + 4 * i) []
            let s := s.chargeOps ten lring seq (e.tailOps g.modtab.logN)
            let tk := s.newTicket ten v.session x
            let a : Attempt := { point := point, attempt := k, ticket := tk.1, outbound := unwords 4 (t.1.c0.flatten ++ t.1.c1.flatten), written := false,
                                 deadline := none, claimed := false, waitPos := v.lastInterim
                                 waitUntil := v.lastInterim.map fun _ => (if k = 1 then v.answeredAt.getD s.now else s.now) + x.deadlineMs * msec }
            tk.2.updEval ten lring seq fun v => { v with attempt := some a }
    | _, _ => s

/-! ### The outbound ciphertext and its interim (R100, R102, R248, R250, R255) -/

/-- The outbound header. -/
def outboundHeader (a : Attempt) (e : RtEntry) (c : Cmd) (v : Eval) (x : Session) (logN written startId : Nat) : List Byte :=
  ascii "LRTO" ++ toLE 1 1 ++ toLE 1 (e.flags % 8) ++ toLE 1 a.attempt ++ toLE 1 a.point ++ toLE 8 a.ticket ++ toLE 4 c.seq ++ toLE 4 v.session
    ++ toLE 1 logN ++ toLE 1 e.outLimbs ++ toLE 1 e.inLimbs ++ toLE 1 0 ++ toLE 4 x.deadlineMs ++ toLE 8 written ++ toLE 8 startId ++ zeros 16

/-- The attempt's deadline begins to run. -/
def Attempt.sent (a : Attempt) (until_ : Nat) : Attempt := { a with written := true, deadline := some until_, outbound := [], waitPos := none, waitUntil := none }

/-- Posts the interim completion (R100): its position was reserved at the start. Its RUN_NS is a free value: the execution has no end yet (log 38). In ERROR it is discarded. -/
def State.postInterim (s : State) (h : HostView) (ten lring : Nat) (c : Cmd) (a : Attempt) (deadlineMs : Nat) : State :=
  let r := s.ring ten lring
  let until_ := s.now + deadlineMs * msec
  let sent (last : Option Nat) (k : Cmd) : Cmd :=
    { k with reserved := if last.isSome then k.reserved - 1 else k.reserved
             eval := k.eval.map fun v => { v with attempt := some (a.sent until_), lastInterim := last } }
  if r.state = .error ∨ r.fromError then s.updCmd ten lring c.seq (sent none)
  else
    let q := s.takeFree
    let bytes := completionBytes St.ok (phaseBit r.logEntries r.cplPos + 2) a.attempt c.seq (slice c.entry 8 8)
      (c.startAt.elim 0 fun t => t / usec % 2 ^ 32) (q.1 % 2 ^ 32) c.ops
    let w := q.2.hostWrite h ten r.cplIova bytes
    if w.2 then
      let s := w.1.updCmd ten lring c.seq (sent (some r.cplPos))
      let s := s.updRing ten lring fun r => { r with cplPos := r.cplPos + 1, reserved := r.reserved - 1 }
      s.eligible ten lring
    else (w.1.ringError ten lring r.cplIova 0).updCmd ten lring c.seq (sent none)

/-- RT_OUTBOUND_WRITE: once CQ_HEAD has passed the previous interim, the outbound ciphertext is written and the interim posted (R100, R255). -/
def execRtOutboundWrite (t ten lring seq : Nat) (h : HostView) (s : State) : Host.Outcome State Fault Refusal :=
  run t s fun s =>
    match s.cmd? ten lring seq with
    | none => s
    | some c =>
      match c.eval with
      | none => s
      | some v =>
        match v.attempt, s.genOf ten v.model v.gen, Tbl.look (s.ten ten).sessions v.session with
        | some a, some g, some x =>
          s.onlyIf (!a.written && v.lastInterim.isNone && v.failed.isNone) fun s =>
            (g.rts[a.point]?).elim s fun e =>
              let w := s.hostWrite h ten v.outIova (outboundHeader a e c v x g.modtab.logN s.now (s.sec.startId.getD 0) ++ a.outbound)
              if w.2 then (w.1.noteWrote ten lring seq [] [(v.outIova, 64 + a.outbound.length)]).postInterim h ten lring c a x.deadlineMs
              else (w.1.emit (.dmaUndefined ten v.outIova (64 + a.outbound.length))).failEval ten lring seq (St.translationFault, 0)
        | _, _, _ => s

/-! ### Deadlines (R253 to R255) -/

/-- RT_ATTEMPT_EXPIRE: an unclaimed attempt has reached its deadline: the next attempt, or the end of the EVAL (R254). -/
def execRtAttemptExpire (t ten lring seq : Nat) (s : State) : Host.Outcome State Fault Refusal :=
  run t s fun s =>
    match (s.cmd? ten lring seq).bind (·.eval) with
    | none => s
    | some v =>
      match v.attempt with
      | none => s
      | some a =>
        s.onlyIf (a.deadline.any (fun d => decide (d ≤ s.now)) && !a.claimed) fun s =>
          if a.attempt ≤ v.retries then s.startAttempt ten lring seq a.point (a.attempt + 1)
          else s.failEval ten lring seq (St.roundtripDeadline, 0)

/-- RT_INTERIM_DEADLINE: the host has not consumed the previous interim within one deadline period (R255). -/
def execRtInterimDeadline (t ten lring seq : Nat) (s : State) : Host.Outcome State Fault Refusal :=
  run t s fun s =>
    match (s.cmd? ten lring seq).bind (·.eval) with
    | none => s
    | some v =>
      s.onlyIf (v.lastInterim.isSome && v.attempt.any fun a => !a.written && a.waitUntil.any fun d => decide (d ≤ s.now)) fun s =>
        s.failEval ten lring seq (St.roundtripDeadline, 0)

/-! ### CMD_ROUNDTRIP_RESUME (R251 to R253) -/

/-- The parked EVAL whose attempt carries a ticket and is still open: ring, command, evaluation, attempt. -/
def State.openAttempt (s : State) (ten session ticket : Nat) : Option (Nat × Cmd × Eval × Attempt) :=
  s.rings.findSome? fun r =>
    if r.1 / 256 = ten then
      r.2.cmds.findSome? fun c => c.eval.bind fun v => v.attempt.bind fun a =>
        if v.session = session ∧ a.ticket = ticket ∧ v.failed.isNone ∧ a.deadline.all (fun d => decide (s.now < d)) then
          some (r.1 % 256, c, v, a) else none
    else none

/-- The byte of the reply at fault: its header, then its words. -/
def replyFault (tab : ModTable) (e : RtEntry) (ticket startId : Nat) (b : List Byte) : Option Nat :=
  let n := 2 ^ tab.logN
  let limbs := chunks n (2 * e.inLimbs * n) (words 4 (b.drop 64))
  lowestFault (
    [(b.take 4 != ascii "LRTI", 0), (byteAt b 4 != 1, 4), (byteAt b 5 != tab.logN, 5), (byteAt b 6 != e.inLimbs, 6), (byteAt b 7 != 0, 7),
     (fld b 8 8 != ticket, 8), (fld b 0x10 8 != startId, 0x10)]
    ++ (List.range 40).map (fun k => (byteAt b (0x18 + k) != 0, 0x18 + k))
    ++ [(((List.range limbs.length).zip limbs).any fun p => p.2.any fun w => decide (tab.qAt (p.1 % max 1 e.inLimbs) ≤ w), 0x40)])

/-- Takes a reply: it is checked, converted and written to the arena, and the chain goes on (R251 steps 5 to 7). -/
def State.takeReply (s : State) (h : HostView) (ten lring : Nat) (c : Cmd) (lr : Nat) (k : Cmd) (v : Eval) (a : Attempt) (g : Gen) (e : RtEntry)
    (arena : Nat) : State :=
  let n := 2 ^ g.modtab.logN
  if c.len 0 ≠ 64 + 2 * e.inLimbs * n * 4 then s.finish ten lring c.seq (St.badField, 0x40)
  else match hostRead h ten (c.iova 0) (c.len 0) with
    | none => s.finish ten lring c.seq (St.translationFault, 0)
    | some b =>
      match replyFault g.modtab e a.ticket (fld c.entry 0x58 8) b with
      | some off => s.finish ten lring c.seq (St.badField, off)
      | none =>
        let limbs := chunks n (2 * e.inLimbs * n) (words 4 (b.drop 64))
        let fwd (_ : Nat) (m : ModEntry) (l : List Nat) : List Nat := if bitOf e.flags 2 then nttForward m g.modtab.logN g.modtab.logN l else l
        let x := s.mapLimbs g.modtab fwd 0 (limbs.take e.inLimbs)
        let y := x.2.mapLimbs g.modtab fwd 0 (limbs.drop e.inLimbs)
        let s := if bitOf e.flags 2 then y.2.writeObj arena e.inOffset (unwords 4 (x.1.flatten ++ y.1.flatten))
                 else s.writeObj arena e.inOffset (b.drop 64)
        let s := s.finish ten lring c.seq (St.ok, 0)
        (s.updEval ten lr k.seq fun v => { v with attempt := none, answeredAt := some s.now }).continueAt ten lr k.seq e.resumeSeg (v.rounds == 0)

/-- Runs a resume whose session is held. -/
def State.resume (s : State) (h : HostView) (ten lring : Nat) (c : Cmd) : State :=
  let ticket := fld c.entry 0x50 8
  match Tbl.look (s.ten ten).sessions (c.handle 0) with
  | none => s.finish ten lring c.seq (St.badHandle, 0)
  | some x =>
    if s.sec.startId ≠ some (fld c.entry 0x58 8) then s.finish ten lring c.seq (St.cancelled, 0)
    else if ticket / 2 ^ 44 ≠ x.recIndex % 2 ^ 20 ∨ !(x.tickets.contains (ticket % 2 ^ 44)) then s.finish ten lring c.seq (St.badField, 0x50)
    else match s.openAttempt ten (c.handle 0) ticket with
      | none => s.finish ten lring c.seq (St.cancelled, 0)
      | some (lr, k, v, a) =>
        match (s.genOf ten v.model v.gen) with
        | none => s.finish ten lring c.seq (St.cancelled, 0)
        | some g => (g.rts[a.point]?).elim s fun e => s.takeReply h ten lring c lr k v a g e x.arena

/-- A command is the parked EVAL whose ticket a resume carries. -/
def Cmd.parkedFor (k c : Cmd) (startId : Option Nat) : Bool :=
  startId == some (fld c.entry 0x58 8) && k.eval.any fun v => v.session == c.handle 0 && v.attempt.any fun a => a.ticket == fld c.entry 0x50 8

/-- The first after reference by which a waiting resume names the very EVAL it resumes (R97). -/
def State.ownEval (s : State) (ten lring seq : Nat) : Option Nat :=
  (s.cmd? ten lring seq).bind fun c =>
    if c.opcode = 0x11 ∧ c.phase = .waiting ∧ (s.ring ten lring).state = .live ∧ s.starts ten then
      (List.range 4).find? fun j => decide (0 < c.after j ∧ c.after j ≤ seq) && (s.cmd? ten lring (seq - c.after j)).any fun k => k.parkedFor c s.sec.startId
    else none

/-- The byte offset at which such a resume is at fault: the reference's, or that of an earlier common field. -/
def State.ownEvalFault (s : State) (ten lring seq j : Nat) : Nat :=
  ((s.cmd? ten lring seq).bind fun c => commonFault c.entry seq).elim (4 + j) fun e => min (4 + j) e.2

/-- CMD_ROUNDTRIP_RESUME (R251). One that waits for the EVAL it resumes has a bad field (R97). -/
def execCmdRoundtripResume (t ten lring seq : Nat) (h : HostView) (s : State) : Host.Outcome State Fault Refusal :=
  run t s fun s =>
    match s.ownEval ten lring seq with
    | some j => s.finish ten lring seq (St.badField, s.ownEvalFault ten lring seq j)
    | none => s.tryStart ten lring seq 0x11 onePosition
        (fun s c => if (Tbl.look (s.ten ten).sessions (c.handle 0)).isSome then none else some (St.badHandle, 0)) noNeed
        fun s c => s.resume h ten lring c

end Sys2Proof.Machine
end

