-- ==== Sys2Proof/Machine/Gateway.lean ====
section
/-! DEFINITION. The gateway role: secret keys and key sets, encryption and decryption, encoding and decoding (R256 to R261). -/

namespace Sys2Proof.Machine

/-! ### Fields of the gateway ARGS (R257) -/

def Cmd.gwOp (c : Cmd) : Nat := byteAt c.entry 0x50
def Cmd.gwSlot (c : Cmd) : Nat := byteAt c.entry 0x51
def Cmd.scheme (c : Cmd) : Nat := byteAt c.entry 0x52
def Cmd.format (c : Cmd) : Nat := byteAt c.entry 0x53
def Cmd.limbs (c : Cmd) : Nat := byteAt c.entry 0x54
def Cmd.scaleLog (c : Cmd) : Nat := byteAt c.entry 0x55
def Cmd.seeded (c : Cmd) : Bool := bitOf (byteAt c.entry 0x56) 0
def Cmd.plainT (c : Cmd) : Nat := fld c.entry 0x58 4
def Cmd.plainRoot (c : Cmd) : Nat := fld c.entry 0x5C 4
def Cmd.count (c : Cmd) : Nat := fld c.entry 0x60 4
def Cmd.gwDnum (c : Cmd) : Nat := byteAt c.entry 0x64
def Cmd.rotCount (c : Cmd) : Nat := byteAt c.entry 0x65
def Cmd.ksFlags (c : Cmd) : Nat := byteAt c.entry 0x66
def Cmd.repackCount (c : Cmd) : Nat := byteAt c.entry 0x67
def Cmd.gwLweN (c : Cmd) : Nat := fld c.entry 0x68 2
def Cmd.gwLogNb (c : Cmd) : Nat := byteAt c.entry 0x6A
def Cmd.gwBootEll (c : Cmd) : Nat := byteAt c.entry 0x6B
def Cmd.gwKsEll (c : Cmd) : Nat := byteAt c.entry 0x6C
def Cmd.gwKsBits (c : Cmd) : Nat := byteAt c.entry 0x6D
def Cmd.gwLweIdx (c : Cmd) : Nat := byteAt c.entry 0x6E

/-- Bytes of one value of a FORMAT: a pair of float64, a float64, a 32-bit integer. -/
def formatBytes (f : Nat) : Nat := if f = 0 then 16 else if f = 1 then 8 else 4

/-- Ranges of the fields that an encoding or a decoding uses. -/
def codingFaults (c : Cmd) : List (Nat × Bool) :=
  let ckks := c.scheme == 0
  [(0x52, decide (2 < c.scheme)), (0x53, if ckks then decide (1 < c.format) else c.format != 2 && c.format != 3),
   (0x54, c.limbs == 0), (0x55, ckks && decide (c.scaleLog < 1 ∨ 60 < c.scaleLog)), (0x58, !ckks && decide (c.plainT < 2))]

/-- Ranges of the fields that a key-set generation uses. -/
def keygenFaults (c : Cmd) : List (Nat × Bool) :=
  let boot := bitOf c.ksFlags 2
  [(0x65, decide (128 < c.rotCount)), (0x67, decide (16 < c.repackCount)), (0x6C, boot && decide (c.gwKsEll < 1 ∨ 8 < c.gwKsEll)),
   (0x6D, boot && decide (c.gwKsBits < 1 ∨ 16 < c.gwKsBits ∨ 32 < c.gwKsEll * c.gwKsBits))]

/-- Permission (R110), then the field ranges that need no slot, of CMD_ENCODE_ENCRYPT. -/
def encryptCheck (ten : Nat) (s : State) (c : Cmd) : Option Err :=
  if !(s.tnSet ten).gateway then some (St.gatewayDisabled, 0)
  else firstFault ([(0x50, decide (3 < c.gwOp)), (0x51, decide (15 < c.gwSlot))]
    ++ (if c.gwOp = 0 then codingFaults c
        else if c.gwOp = 1 then [(0x52, decide (2 < c.scheme)), (0x54, c.limbs == 0), (0x58, c.scheme != 0 && decide (c.plainT < 2))]
        else if c.gwOp = 2 then [(0x52, decide (1 < c.scheme))]
        else keygenFaults c))

/-- The same of CMD_DECRYPT_DECODE. -/
def decryptCheck (ten : Nat) (s : State) (c : Cmd) : Option Err :=
  if !(s.tnSet ten).gateway then some (St.gatewayDisabled, 0)
  else firstFault ([(0x50, decide (2 < c.gwOp)), (0x51, decide (15 < c.gwSlot))]
    ++ (if c.gwOp = 0 then codingFaults c else if c.gwOp = 1 then [(0x54, c.limbs == 0)] else []))

/-- CMD_ENCODE_ENCRYPT: every OP needs randomness (R257, R292). -/
def execCmdEncodeEncrypt (t ten lring seq : Nat) (_h : HostView) (s : State) : Host.Outcome State Fault Refusal :=
  run t s fun s => s.tryStart ten lring seq 0x20 onePosition (encryptCheck ten) (fun _ _ => true) fun s _ => s

/-- CMD_DECRYPT_DECODE (R257). -/
def execCmdDecryptDecode (t ten lring seq : Nat) (_h : HostView) (s : State) : Host.Outcome State Fault Refusal :=
  run t s fun s => s.tryStart ten lring seq 0x21 onePosition (decryptCheck ten) noNeed fun s _ => s

/-! ### The segment of a gateway command (R256, R257) -/

/-- Cells that a gateway segment may take: some free cells of one comb in service. -/
def State.gatewayCells (s : State) (cells : List Nat) : Bool :=
  match cells with
  | [] => false
  | c :: r => decide (c < 512) && r.all (fun x => combOf x == combOf c) && (s.comb (combOf c)).svc == .inService && cells.all s.cellFree

/-- Whether a gateway command of the slot that started earlier still holds it. -/
def State.slotHeld (s : State) (ten : Nat) (c : Cmd) : Bool :=
  s.rings.any fun r => r.1 / 256 == ten && r.2.cmds.any fun x =>
    x.phase == .started && !x.runDone && (x.opcode == 0x20 || x.opcode == 0x21) && x.gwSlot == c.gwSlot &&
    decide (x.startAt.getD 0 < c.startAt.getD 0 ∨ (x.startAt = c.startAt ∧ x.fetchNo < c.fetchNo))

/-- The scrub after a gateway segment: the cells it used are zero (R256). -/
def State.gatewayScrub (s : State) (cells : List Nat) : State := cells.foldl (fun s c => s.updCell c fun k => k.scrub none) s

/-- Runs one OP of a started gateway command as a segment on the cells. Its modular operations are a free number (R352). -/
def State.gateway (s : State) (ten lring seq opcode op : Nat) (cells : List Nat) (draws : Bool) (f : State → Cmd → State) : State :=
  s.onStarted ten lring seq opcode fun s c =>
    s.onlyIf (c.gwOp == op && !s.slotHeld ten c && s.gatewayCells cells && (!draws || (s.comb (combOf (nth0 cells 0))).seeded)) fun s =>
      let q := s.takeFree
      (f (q.2.chargeOps ten lring seq q.1) c).gatewayScrub cells

/-- The slot that an OP other than erasure and secret-key generation needs. -/
def State.withSlot (s : State) (ten lring : Nat) (c : Cmd) (f : State → GwSlot → State) : State :=
  match Tbl.look (s.ten ten).gwSlots c.gwSlot with
  | none => s.done ten lring c.seq (St.badField, 0x51)
  | some g => if g.invalid then s.done ten lring c.seq (St.memoryUncorrectable, 0) else f s g

/-! ### Secret keys (R258) -/

/-- A slot's secret: n ternary coefficients drawn under DIST 1. -/
def State.drawTernary (s : State) (n : Nat) : List Int × State :=
  ((List.range n).map fun k => drawOf 1 3 (Config.random (s.draws + k)), s.skipRandoms n)

/-- What the sealed memory of a slot stays below: the manual gives it no size (log 55). -/
def slotBytesMax : Nat := 2 ^ 26

/-- GENERATE_SECRET_KEY: reads and checks a modulus table, and draws a ternary secret into an empty slot (R258). The sealed memory it takes is a free number of bytes. -/
def execGenerateSecretKey (t ten lring seq : Nat) (cells : List Nat) (h : HostView) (s : State) : Host.Outcome State Fault Refusal :=
  run t s fun s => s.gateway ten lring seq 0x20 2 cells true fun s c =>
    if (Tbl.look (s.ten ten).gwSlots c.gwSlot).isSome then s.done ten lring seq (St.badField, 0x51)
    else match hostRead h ten (c.iova 0) (c.len 0) with
      | none => s.done ten lring seq (St.translationFault, 0)
      | some b =>
        match parseModTable b with
        | .error d => s.done ten lring seq (St.badField, d)
        | .ok tab =>
          match tab.check s.settings.ceil (decide (12 ≤ tab.logN)) with
          | some e => s.done ten lring seq e
          | none =>
            let q := s.takeFree
            match q.2.alloc ten .gateway none (q.1 % slotBytesMax) with
            | .error e => q.2.done ten lring seq e
            | .ok (obj, s) =>
              let p := s.drawTernary (2 ^ tab.logN)
              let g : GwSlot := { modtab := tab, secret := p.1, lwe := [], obj := obj, invalid := false }
              (p.2.updTen ten fun x => { x with gwSlots := Tbl.put x.gwSlots c.gwSlot g }).done ten lring seq (St.ok, 0)

/-- ERASE_SLOT: the slot reads zero again; an empty slot is no failure (R258). -/
def execEraseSlot (t ten lring seq : Nat) (s : State) : Host.Outcome State Fault Refusal :=
  run t s fun s => s.onStarted ten lring seq 0x21 fun s c =>
    s.onlyIf (c.gwOp == 2 && !s.slotHeld ten c) fun s =>
      let s := (Tbl.look (s.ten ten).gwSlots c.gwSlot).elim s fun g => s.freeObj g.obj
      (s.updTen ten fun x => { x with gwSlots := Tbl.del x.gwSlots c.gwSlot }).done ten lring seq (St.ok, 0)

/-! ### Encryption (R259) -/

/-- An integer polynomial in every limb, in the evaluation domain. -/
def polyLimbs (tab : ModTable) (n : Nat) (z : List Int) : List (List Nat) :=
  (List.range n).map fun i => z.map (resid (tab.qAt i))

/-- Limbs 0 to n - 1 of a polynomial read word by word. -/
def limbsOf (n logN : Nat) (b : List Byte) : List (List Nat) := (List.range n).map fun i => words 4 (slice b (4 * i * 2 ^ logN) (4 * 2 ^ logN))

def limbBytes (l : List (List Nat)) : List Byte := l.flatMap (unwords 4)

/-- Product of the first n moduli. -/
def ModTable.bigQ (t : ModTable) (n : Nat) : Nat := (t.entries.take n).foldl (fun p m => p * m.q) 1

/-- Factor of the message and factor of the error under a scheme. -/
def messageFactor (scheme t bigQ : Nat) : Nat := if scheme = 1 then bigQ / max 1 t else 1
def errorFactor (scheme t : Nat) : Nat := if scheme = 2 then t else 1

/-- c0 of one limb, in the evaluation domain: -a s + factor m + e. -/
def encryptLimb (q : Nat) (factor : Nat) (a sk m e : List Nat) : List Nat :=
  (List.range a.length).map fun j =>
    (msub q 0 (mmul q (nth0 a j) (nth0 sk j)) + factor % q * (nth0 m j % q) + nth0 e j) % q

/-- The a polynomial: from a fresh seed, or uniform. -/
def State.drawA (s : State) (tab : ModTable) (limbs : Nat) (seeded : Bool) : List Byte × List (List Nat) × State :=
  let n := 2 ^ tab.logN
  if seeded then
    let q := s.takeBytes 32
    (q.1, (List.range limbs).map fun l => regenWords (q.1 ++ toLE 2 l) (tab.qAt l) ((tab.entry l).elim 0 (·.w)) n, q.2)
  else
    ([], (List.range limbs).map fun l => (List.range n).map fun j => Config.random (s.draws + l * n + j) % tab.qAt l, s.skipRandoms (limbs * n))

/-- Encrypts m, given limb by limb in the evaluation domain: c0, then c1 or its seed. -/
def State.encryption (s : State) (c : Cmd) (g : GwSlot) (m : List (List Nat)) : List Byte × State :=
  let tab := g.modtab
  let n := 2 ^ tab.logN
  let a := s.drawA tab c.limbs c.seeded
  let s := a.2.2
  let es := (List.range n).map fun k => drawOf 0 1 (Config.random (s.draws + k)) * (errorFactor c.scheme c.plainT : Nat)
  let s := s.skipRandoms n
  let ntt (_ : Nat) (e : ModEntry) (l : List Nat) : List Nat := nttForward e tab.logN tab.logN l
  let e := s.mapLimbs tab ntt 0 (polyLimbs tab c.limbs es)
  let k := e.2.mapLimbs tab ntt 0 (polyLimbs tab c.limbs g.secret)
  let factor := messageFactor c.scheme c.plainT (tab.bigQ c.limbs)
  let c0 := k.2.mapLimbs tab (fun i x l => encryptLimb x.q factor l (k.1.getD i []) (m.getD i []) (e.1.getD i [])) 0 a.2.1
  (limbBytes c0.1 ++ (if c.seeded then a.1 else limbBytes a.2.1), c0.2)

/-- Encrypts m and writes the ciphertext. -/
def State.encrypt (s : State) (h : HostView) (ten lring : Nat) (c : Cmd) (g : GwSlot) (m : List (List Nat)) : State :=
  let q := s.encryption c g m
  q.2.doneWriting h ten lring c.seq (c.iova 1) q.1 (St.ok, 0)

/-- Bytes of a ciphertext of the command's limbs. -/
def Cmd.cipherBytes (c : Cmd) (logN : Nat) : Nat := 4 * c.limbs * 2 ^ logN + if c.seeded then 32 else 4 * c.limbs * 2 ^ logN

/-- ENCRYPT_PLAINTEXT: m is a plaintext of LIMBS limbs, in the evaluation domain (R259). -/
def execEncryptPlaintext (t ten lring seq : Nat) (cells : List Nat) (h : HostView) (s : State) : Host.Outcome State Fault Refusal :=
  run t s fun s => s.gateway ten lring seq 0x20 1 cells true fun s c => s.withSlot ten lring c fun s g =>
    let logN := g.modtab.logN
    if g.modtab.lCount < c.limbs then s.done ten lring seq (St.badField, 0x54)
    else if c.len 0 ≠ 4 * c.limbs * 2 ^ logN then s.done ten lring seq (St.badField, 0x40)
    else if c.len 1 < c.cipherBytes logN then s.done ten lring seq (St.badField, 0x44)
    else match hostRead h ten (c.iova 0) (c.len 0) with
      | none => s.done ten lring seq (St.translationFault, 0)
      | some b => s.encrypt h ten lring c g (limbsOf c.limbs logN b)

/-! ### Real arithmetic in fixed point (R260, R261; log 13) -/

/-- Bitwise square root: the bits 2^(n-1), ..., 1 in turn. -/
def sqrtBits (x : Nat) : Nat → Nat → Nat
  | 0, r => r
  | n + 1, r => sqrtBits x n (if (r + 2 ^ n) * (r + 2 ^ n) ≤ x then r + 2 ^ n else r)

/-- One in fixed point. -/
def fixOne : Nat := 2 ^ Config.fracBits

/-- A complex number in fixed point. -/
structure Cplx where
  re : Int
  im : Int
deriving DecidableEq, Repr

def Cplx.mul (a b : Cplx) : Cplx :=
  { re := (a.re * b.re - a.im * b.im) / (fixOne : Int), im := (a.re * b.im + a.im * b.re) / (fixOne : Int) }

/-- exp(i pi / 2^(k+1)) by k halvings of the right angle. -/
def unitRoot : Nat → Cplx
  | 0 => { re := 0, im := fixOne }
  | k + 1 =>
    let z := unitRoot k
    let c := sqrtBits ((z.re.toNat + fixOne) * fixOne / 2) (Config.fracBits + 1) 0
    { re := (c : Int), im := z.im * (fixOne : Int) / (2 * (c : Int)) }

/-- Powers 0 to n - 1 of z. -/
def cplxPowers (z : Cplx) : Nat → Cplx → List Cplx
  | 0, _ => []
  | n + 1, acc => acc :: cplxPowers z n (acc.mul z)

/-- All powers of zeta = exp(i pi / N), N = 2^logN. -/
def zetaPowers (logN : Nat) : List Cplx := cplxPowers (unitRoot (logN - 1)) (2 * 2 ^ logN) { re := fixOne, im := 0 }

/-- Exponent of slot i: 5^i mod 2N. -/
def slotExp (logN i : Nat) : Nat := powMod (2 * 2 ^ logN) 64 5 i

/-- A float64 that is finite, in fixed point; none for infinities and NaNs. -/
def fixOfFloat (v : Nat) : Option Int :=
  let e := bits v 52 11
  let m := bits v 0 52 + if e = 0 then 0 else 2 ^ 52
  if e = 2047 then none
  else
    let x : Nat := m * 2 ^ (max 1 e) * fixOne / 2 ^ 1075
    some (if bitOf v 63 then -(x : Int) else x)

/-- Bit length of v (fuel: a bound). -/
def bitLen : Nat → Nat → Nat
  | 0, _ => 0
  | f + 1, v => if v = 0 then 0 else 1 + bitLen f (v / 2)

/-- v / 2^k rounded to nearest, ties to even. -/
def roundShift (v k : Nat) : Nat :=
  let lo := v / 2 ^ k
  let r := 2 * (v % 2 ^ k)
  if 2 ^ k < r ∨ (r = 2 ^ k ∧ lo % 2 = 1) then lo + 1 else lo

/-- The float64 nearest to x / 2^p, a tie to the even one; an infinity beyond the range. -/
def floatOfFix (p : Nat) (x : Int) : Nat :=
  let a := x.natAbs
  let sign := if x < 0 then 2 ^ 63 else 0
  if a = 0 then 0
  else
    let len := bitLen 8192 a
    let drop := max (len - 53) (if 1074 ≤ p then p - 1074 else 0)
    let m := roundShift a drop
    if len ≤ 53 ∧ p ≤ 1074 then
      let l := 53 - len
      let e : Int := 1075 + (0 : Int) - p - l
      if 1 ≤ e then sign + e.toNat * 2 ^ 52 + (a * 2 ^ l - 2 ^ 52)
      else sign + a * 2 ^ (1074 - p)
    else
      let e : Int := (drop : Int) - p + 1075
      let w := if m = 2 ^ 53 then (e + 1, 2 ^ 52) else (e, m)
      if 2047 ≤ w.1 then sign + 2047 * 2 ^ 52
      else if w.2 < 2 ^ 52 then sign + w.2
      else sign + w.1.toNat * 2 ^ 52 + (w.2 - 2 ^ 52)

/-! ### Encoding (R260) -/

/-- CKKS: coefficients from slot values in fixed point, scaled by 2^k, before rounding: each stands for itself times 1 / (N 2^F). -/
def ckksCoeffs (logN k : Nat) (vals : List Cplx) : List Int :=
  let zp := zetaPowers logN
  let n := 2 ^ logN
  let slots := (List.range vals.length).map fun i => (slotExp logN i, vals.getD i { re := 0, im := 0 })
  (List.range n).map fun j =>
    (slots.foldl (fun (acc : Int) p =>
      let z := zp.getD (p.1 * j % (2 * n)) { re := 0, im := 0 }
      acc + (p.2.re * z.re + p.2.im * z.im)) 0) * 2 * (2 ^ k : Nat) / (fixOne : Int)

/-- x / d to the nearest integer; `tie` chooses between the two nearest of a tie. -/
def roundDiv (x : Int) (d : Nat) (tie : Nat) : Int :=
  let lo := x / (d : Int)
  let r := 2 * (x % (d : Int))
  if r < d then lo else if (d : Int) < r then lo + 1 else lo + (tie % 2 : Nat)

/-- Values of a CKKS input; none where one is not finite. -/
def ckksValues (format count : Nat) (b : List Byte) : Option (List Cplx) :=
  (List.range count).mapM fun i =>
    if format = 0 then do
      let re ← fixOfFloat (fld b (16 * i) 8)
      let im ← fixOfFloat (fld b (16 * i + 8) 8)
      pure { re := re, im := im }
    else (fixOfFloat (fld b (8 * i) 8)).map fun re => { re := re, im := 0 }

/-- Exponent of integer slot i: 5^i, then -5^i, modulo 2N. -/
def intSlotExp (logN i : Nat) : Nat :=
  let n := 2 ^ logN
  if i < n / 2 then slotExp logN i else 2 * n - slotExp logN (i - n / 2)

/-- Coefficients modulo t from integer slots. -/
def slotCoeffs (logN t root : Nat) (vals : List Nat) : List Nat :=
  let n := 2 ^ logN
  let pts := (List.range vals.length).map fun i => (powMod t 64 root (2 * n - intSlotExp logN i), nth0 vals i)
  (List.range n).map fun j => minv t n * (sumL (pts.map fun p => powMod t 64 p.1 j * p.2) % t) % t

/-- Integer slots of a polynomial modulo t. -/
def coeffSlots (logN t root count : Nat) (m : List Nat) : List Nat :=
  (List.range count).map fun i => evalPoly t (powMod t 64 root (intSlotExp logN i)) m

/-- The message polynomial of an input, or the refusal (R260). -/
def State.encode (s : State) (c : Cmd) (logN : Nat) (b : List Byte) : Except Err (List Int) × State :=
  let n := 2 ^ logN
  if c.scheme = 0 then
    match ckksValues c.format c.count b with
    | none => (.error (St.badField, 0x53), s)
    | some vals =>
      let xs := ckksCoeffs logN c.scaleLog vals
      let ms := (List.range n).map fun j => roundDiv (xs.getD j 0) (n * fixOne) (Config.freeValue (s.free + j))
      if ms.any fun m => decide (2 ^ 62 ≤ m.natAbs) then (.error (St.badField, 0x55), s)
      else (.ok ms, s.skipFrees n)
  else
    let vals := words 4 (b.take (4 * c.count))
    if vals.any fun v => decide (c.plainT ≤ v) then (.error (St.badField, 0x58), s)
    else if c.format = 3 then (.ok (vals.map Int.ofNat ++ List.replicate (n - vals.length) 0), s)
    else if squarings c.plainT logN c.plainRoot ≠ c.plainT - 1 then (.error (St.badField, 0x5C), s)
    else if primeWord c.plainT then (.ok ((slotCoeffs logN c.plainT c.plainRoot vals).map Int.ofNat), s)
    else (.ok ((s.frees n).map fun v => ((v % c.plainT : Nat) : Int)), s.skipFrees n)

/-- Most values a FORMAT takes. -/
def Cmd.countMax (c : Cmd) (logN : Nat) : Nat := if c.scheme = 0 then 2 ^ logN / 2 else 2 ^ logN

/-- ENCODE_AND_ENCRYPT (R259, R260). -/
def execEncodeAndEncrypt (t ten lring seq : Nat) (cells : List Nat) (h : HostView) (s : State) : Host.Outcome State Fault Refusal :=
  run t s fun s => s.gateway ten lring seq 0x20 0 cells true fun s c => s.withSlot ten lring c fun s g =>
    let logN := g.modtab.logN
    if g.modtab.lCount < c.limbs then s.done ten lring seq (St.badField, 0x54)
    else if c.countMax logN < c.count then s.done ten lring seq (St.badField, 0x60)
    else if c.len 0 < c.count * formatBytes c.format then s.done ten lring seq (St.badField, 0x40)
    else if c.len 1 < c.cipherBytes logN then s.done ten lring seq (St.badField, 0x44)
    else match hostRead h ten (c.iova 0) (c.count * formatBytes c.format) with
      | none => s.done ten lring seq (St.translationFault, 0)
      | some b =>
        let q := s.encode c logN b
        match q.1 with
        | .error e => q.2.done ten lring seq e
        | .ok z =>
          let m := q.2.mapLimbs g.modtab (fun _ e l => nttForward e logN logN l) 0 (polyLimbs g.modtab c.limbs z)
          m.2.encrypt h ten lring c g m.1

/-! ### Decryption (R261) -/

/-- c0 + c1 s, limb by limb, in the evaluation domain. -/
def State.decryptLimbs (s : State) (c : Cmd) (g : GwSlot) (b : List Byte) : List (List Nat) × State :=
  let tab := g.modtab
  let n := 2 ^ tab.logN
  let c0 := limbsOf c.limbs tab.logN b
  let c1 := if c.seeded then
      (List.range c.limbs).map fun l => regenWords (slice b (4 * c.limbs * n) 32 ++ toLE 2 l) (tab.qAt l) ((tab.entry l).elim 0 (·.w)) n
    else limbsOf c.limbs tab.logN (b.drop (4 * c.limbs * n))
  let k := s.mapLimbs tab (fun _ e l => nttForward e tab.logN tab.logN l) 0 (polyLimbs tab c.limbs g.secret)
  k.2.mapLimbs tab (fun i e l => (List.range n).map fun j => madd e.q (nth0 l j) (mmul e.q (nth0 (c1.getD i []) j) (nth0 (k.1.getD i []) j))) 0 c0

/-- The residue modulo Q that has the given residue in every limb, Q being the product of pairwise distinct primes. -/
def crt (qs : List Nat) (bigQ : Nat) (rs : List Nat) : Nat :=
  ((qs.zip rs).foldl (fun acc p => acc + p.2 * minv p.1 (bigQ / p.1 % p.1) % p.1 * (bigQ / p.1)) 0) % max 1 bigQ

/-- The centred integers modulo Q that limbs in the coefficient domain stand for; free where a modulus is composite. -/
def State.liftLimbs (s : State) (tab : ModTable) (n : Nat) (ls : List (List Nat)) : List Int × State :=
  let qs := (tab.entries.take n).map (·.q)
  let bigQ := tab.bigQ n
  let len := 2 ^ tab.logN
  if qs.all primeWord then
    ((List.range len).map fun j => centred bigQ (crt qs bigQ (ls.map fun l => nth0 l j)), s)
  else ((s.frees len).map fun v => centred bigQ (v % max 1 bigQ), s.skipFrees len)

/-- The decoded output bytes (R261). -/
def State.decode (s : State) (c : Cmd) (tab : ModTable) (m : List Int) : List Byte × State :=
  let logN := tab.logN
  let n := 2 ^ logN
  if c.scheme = 0 then
    let zp := zetaPowers logN
    ((List.range c.count).flatMap fun i =>
      let e := slotExp logN i
      let z := (List.range n).foldl (fun (a : Cplx) j =>
        let x := m.getD j 0
        let y := zp.getD (e * j % (2 * n)) { re := 0, im := 0 }
        { re := a.re + x * y.re, im := a.im + x * y.im }) { re := 0, im := 0 }
      let out (v : Int) : List Byte := toLE 8 (floatOfFix (Config.fracBits + c.scaleLog) v)
      out z.re ++ if c.format = 0 then out z.im else [], s)
  else
    let bigQ := tab.bigQ c.limbs
    let t := c.plainT
    let pm := m.map fun x => if c.scheme = 1 then resid t (roundDiv ((t : Nat) * x) bigQ 0) else resid t x
    if c.format = 3 then (unwords 4 (pm.take c.count), s)
    else if primeWord t then (unwords 4 (coeffSlots logN t c.plainRoot c.count pm), s)
    else (unwords 4 ((s.frees c.count).map (· % t)), s.skipFrees c.count)

/-- Runs a decryption: the slot, the ciphertext's shape, the output's length, then the work. -/
def State.decrypting (s : State) (h : HostView) (ten lring : Nat) (c : Cmd) (g : GwSlot) (outBytes : Nat)
    (f : State → List (List Nat) → List Byte × State) : State :=
  let logN := g.modtab.logN
  if g.modtab.lCount < c.limbs ∨ c.len 0 ≠ c.cipherBytes logN then s.done ten lring c.seq (St.outOfPolicy, 0)
  else if c.len 1 < outBytes then s.done ten lring c.seq (St.badField, 0x44)
  else match hostRead h ten (c.iova 0) (c.len 0) with
    | none => s.done ten lring c.seq (St.translationFault, 0)
    | some b =>
      let d := s.decryptLimbs c g b
      let o := f d.2 d.1
      o.2.doneWriting h ten lring c.seq (c.iova 1) o.1 (St.ok, 0)

/-- DECRYPT_AND_DECODE (R261). -/
def execDecryptAndDecode (t ten lring seq : Nat) (cells : List Nat) (h : HostView) (s : State) : Host.Outcome State Fault Refusal :=
  run t s fun s => s.gateway ten lring seq 0x21 0 cells false fun s c => s.withSlot ten lring c fun s g =>
    let logN := g.modtab.logN
    if c.countMax logN < c.count then s.done ten lring seq (St.badField, 0x60)
    else if c.scheme ≠ 0 ∧ c.format = 2 ∧ squarings c.plainT logN c.plainRoot ≠ c.plainT - 1 then s.done ten lring seq (St.badField, 0x5C)
    else s.decrypting h ten lring c g (c.count * formatBytes c.format) fun s ls =>
      let x := s.mapLimbs g.modtab (fun _ e l => nttInverse e logN logN l) 0 ls
      let m := x.2.liftLimbs g.modtab c.limbs x.1
      m.2.decode c g.modtab m.1

/-- DECRYPT_TO_PLAINTEXT: the lifted polynomial, reduced into each limb, in the evaluation domain (R261). -/
def execDecryptToPlaintext (t ten lring seq : Nat) (cells : List Nat) (h : HostView) (s : State) : Host.Outcome State Fault Refusal :=
  run t s fun s => s.gateway ten lring seq 0x21 1 cells false fun s c => s.withSlot ten lring c fun s g =>
    s.decrypting h ten lring c g (4 * c.limbs * 2 ^ g.modtab.logN) fun s ls => (limbBytes ls, s)

/-! ### Key sets (R258, R119) -/

/-- The 16-byte header and the entries of a modulus table (R29). -/
def ModTable.bytes (t : ModTable) : List Byte :=
  toLE 1 t.count ++ toLE 1 t.logN ++ toLE 1 t.lCount ++ toLE 1 t.kCount ++ zeros 12 ++
    t.entries.flatMap fun m => toLE 4 m.q ++ toLE 1 m.w ++ toLE 1 m.a ++ toLE 1 m.b ++ toLE 1 m.eps ++ toLE 4 m.root ++ zeros 4

/-- The key set that the command asks for: what its header declares. -/
def Cmd.keyHead (c : Cmd) (tab : ModTable) : KeyHead :=
  let boot (v : Nat) : Nat := if bitOf c.ksFlags 2 then v else 0
  { flags := c.ksFlags % 8, rot := c.rotCount, repack := c.repackCount, dnum := c.gwDnum, bootEll := boot c.gwBootEll,
    lweN := boot c.gwLweN, logNb := boot c.gwLogNb, ksEll := boot c.gwKsEll, ksBits := boot c.gwKsBits, lweIdx := boot c.gwLweIdx,
    dirOff := 0x50 + 16 * tab.count, total := 0, tab := tab }

def KeyHead.compSize (k : KeyHead) (kind : Nat) : Nat := k.compBytes kind + 32 * k.compSeeds kind

/-- Offset of each component: the first at the page after the directory. -/
def KeyHead.offsets (k : KeyHead) : Nat → List Nat → List Nat
  | _, [] => []
  | o, kind :: r => o :: k.offsets (o + roundUp (k.compSize kind) 4096) r

def KeyHead.allOffsets (k : KeyHead) : List Nat := k.offsets (roundUp (k.dirOff + 16 * k.kinds.length) 4096) k.kinds

/-- Bytes of the image. -/
def KeyHead.imageBytes (k : KeyHead) : Nat :=
  match k.allOffsets.getLast?, k.kinds.getLast? with
  | some o, some kind => o + k.compSize kind
  | _, _ => k.dirOff

/-- Words of one b-half under modulus q: free residues, since the manual names no plaintext for these components. -/
def State.freeWords (s : State) (q n : Nat) : List Nat × State := ((s.frees n).map (· % max 1 q), s.skipFrees n)

/-- b-half limbs of one digit. -/
def State.freeLimbs (s : State) (tab : ModTable) : Nat → Nat → List Byte × State
  | 0, _ => ([], s)
  | n + 1, i =>
    let w := s.freeWords (tab.qAt i) (2 ^ tab.logN)
    let r := w.2.freeLimbs tab n (i + 1)
    (unwords 4 w.1 ++ r.1, r.2)

/-- n seeds. -/
def State.seeds (s : State) : Nat → List Byte × State
  | 0 => ([], s)
  | n + 1 =>
    let q := s.takeBytes 32
    let r := q.2.seeds n
    (q.1 ++ r.1, r.2)

/-- b-halves of all digits. -/
def State.freeDigits (s : State) (tab : ModTable) : Nat → List Byte × State
  | 0 => ([], s)
  | n + 1 =>
    let l := s.freeLimbs tab (tab.lCount + tab.kCount) 0
    let r := l.2.freeDigits tab n
    (l.1 ++ r.1, r.2)

/-- Rows of a bootstrapping component, each a seed then its polynomial (R20). -/
def State.bootRows (s : State) (q nb : Nat) : Nat → List Byte × State
  | 0 => ([], s)
  | n + 1 =>
    let x := s.takeBytes 32
    let w := x.2.freeWords q nb
    let r := w.2.bootRows q nb n
    (x.1 ++ unwords 4 w.1 ++ r.1, r.2)

/-- Body words of the LWE switching component (R21): row i KS_ELL + t holds coefficient i of the secret times q / 2^(KS_BITS (t + 1)), rounded, with its error, less the mask's product with the LWE secret. -/
def lweBodies (k : KeyHead) (secret lwe : List Int) (seed : List Byte) (draw : Nat) : List Nat :=
  let q := k.tab.qAt k.lweIdx
  let w := (k.tab.entry k.lweIdx).elim 0 (·.w)
  (List.range (2 ^ k.tab.logN * k.ksEll)).map fun r =>
    let d := 2 ^ (k.ksBits * (r % k.ksEll + 1))
    let mask := regenWords (seed ++ toLE 4 r) q w k.lweN
    let ip := (mask.zip lwe).foldl (fun (a : Int) p => a + (p.1 : Int) * p.2) 0
    resid q (secret.getD (r / k.ksEll) 0 * (((2 * q + d) / (2 * d) : Nat) : Int) + drawOf 0 1 (Config.random (draw + r)) - ip)

/-- The bytes of one component. -/
def State.component (s : State) (k : KeyHead) (g : GwSlot) (kind : Nat) : List Byte × State :=
  if kind = 4 then
    let x := s.takeBytes 32
    (x.1 ++ unwords 4 (lweBodies k g.secret g.lwe x.1 x.2.draws), x.2.skipRandoms (2 ^ k.tab.logN * k.ksEll))
  else if kind = 5 then s.bootRows (k.tab.qAt ((k.tab.bootIdx k.lweIdx).getD 0)) (2 ^ k.logNb) (k.lweN * 2 * k.bootEll)
  else
    let x := s.seeds k.dnum
    let b := x.2.freeDigits k.tab k.dnum
    (x.1 ++ b.1, b.2)

/-- All components, each from its offset on. -/
def State.components (s : State) (k : KeyHead) (g : GwSlot) : List Nat → List Byte × State
  | [] => ([], s)
  | kind :: r =>
    let x := s.component k g kind
    let y := x.2.components k g r
    (x.1 ++ (if r.isEmpty then [] else zeros (roundUp x.1.length 4096 - x.1.length)) ++ y.1, y.2)

/-- GALOIS of each directory entry: the host's for rotations, 2N - 1 for conjugation, zero otherwise. -/
def galoisOf (logN : Nat) : List Nat → List Nat → List Nat
  | [], _ => []
  | kind :: r, rots =>
    if kind = 2 then nth0 rots 0 :: galoisOf logN r (rots.drop 1)
    else (if kind = 3 then 2 * 2 ^ logN - 1 else 0) :: galoisOf logN r rots

/-- Header, table and directory of the image. -/
def KeyHead.front (k : KeyHead) (rots : List Nat) : List Byte :=
  let dir := (k.kinds.zip (galoisOf k.tab.logN k.kinds rots)).zip k.allOffsets
  let b := ascii "LKEY" ++ toLE 1 1 ++ toLE 1 k.flags ++ toLE 1 k.rot ++ toLE 1 k.repack ++ toLE 1 k.dnum ++ toLE 1 k.bootEll ++ toLE 2 k.lweN
    ++ toLE 1 k.logNb ++ toLE 1 k.ksEll ++ toLE 1 k.ksBits ++ toLE 1 k.lweIdx ++ toLE 8 k.dirOff ++ toLE 8 k.imageBytes ++ zeros 32
    ++ k.tab.bytes ++ dir.flatMap fun p => toLE 1 p.1.1 ++ zeros 3 ++ toLE 4 p.1.2 ++ toLE 8 p.2
  match k.allOffsets.head? with
  | some o => b ++ zeros (o - b.length)
  | none => b

/-- GENERATE_KEY_SET (R258). -/
def execGenerateKeySet (t ten lring seq : Nat) (cells : List Nat) (h : HostView) (s : State) : Host.Outcome State Fault Refusal :=
  run t s fun s => s.gateway ten lring seq 0x20 3 cells true fun s c => s.withSlot ten lring c fun s g =>
    let k := c.keyHead g.modtab
    if !(dnumOk k.dnum k.tab.lCount && (!k.boot || bootOk k.lweN k.logNb k.bootEll)) then s.done ten lring seq (St.outOfPolicy, 0)
    else if k.boot ∧ k.tab.count ≤ k.lweIdx then s.done ten lring seq (St.badField, 0x6E)
    else if k.boot ∧ (k.tab.bootIdx k.lweIdx).isNone then s.done ten lring seq (St.badField, 0x66)
    else if c.len 0 < 4 * k.rot then s.done ten lring seq (St.badField, 0x40)
    else if c.len 1 < k.imageBytes then s.done ten lring seq (St.badField, 0x44)
    else match hostRead h ten (c.iova 0) (4 * k.rot) with
      | none => s.done ten lring seq (St.translationFault, 0)
      | some b =>
        let lwe := if k.boot then (s.frees k.lweN).map fun v => centred (k.tab.qAt k.lweIdx) v else g.lwe
        let s := if k.boot then s.skipFrees k.lweN else s
        let g : GwSlot := { g with lwe := lwe }
        let s := s.updTen ten fun x => { x with gwSlots := Tbl.put x.gwSlots c.gwSlot g }
        let d := s.components k g k.kinds
        d.2.doneWriting h ten lring seq (c.iova 1) (k.front (words 4 b) ++ d.1) (St.ok, 0)

end Sys2Proof.Machine
end

