-- ==== Sys2Proof/Machine/TnRegs.lean ====
section
/-! DEFINITION. Values of the identity register and of the TN_ registers (R6, R106 to R110), which a quote digests and a read returns. -/

namespace Sys2Proof.Machine

/-- HV_IDENT (R6). -/
def Fuses.ident (f : Fuses) : Nat := 0xB7401100 + f.variant % 16 * 16

/-- TN_CTL. -/
def TnSet.ctl (x : TnSet) : Nat := b2n x.gateway + b2n x.roundtrip * 2 + x.ringMax * 2 ^ 16 + x.msixCount * 2 ^ 32

/-- TN_SESS. -/
def TnSet.sess (x : TnSet) : Nat := x.activeMax + x.recordMax * 2 ^ 32

/-- TN_MODEL. -/
def TnSet.model (x : TnSet) : Nat := x.genMax + x.frameCeil * 2 ^ 32

/-- TN_SHELF: sixteen bits for each comb. -/
def TnSet.shelf (x : TnSet) : Nat :=
  sumL ((List.range 4).map fun c => nth0 x.c0Shelves c * 2 ^ (16 * c) + nth0 x.wShelves c * 2 ^ (16 * c + 8))

/-- TN_C0_RES. -/
def TnSet.c0Res (x : TnSet) : Nat := sumL ((List.range 4).map fun c => nth0 x.c0Cells c * 2 ^ (8 * c)) + x.bwPct * 2 ^ 32

/-- TN_MEM: the quota and the DRAM held now in whole MiB (R107). -/
def State.tnMem (s : State) (ten : Nat) : Nat := (s.tnSet ten).dramMib + ceilDiv (s.dram.usedBytes ten) (2 ^ 20) % 2 ^ 20 * 2 ^ 32

/-- The tenant context record (R274). -/
def State.tenantContext (s : State) (ten : Nat) : List Byte :=
  let x := s.tnSet ten
  toLE 2 ten ++ toLE 8 x.ctl ++ toLE 8 x.sess ++ toLE 8 x.model ++ toLE 8 x.shelf ++ toLE 8 x.c0Res ++ toLE 4 x.dramMib
    ++ s.settings.ceil.flatMap (toLE 2)

/-! ### Reserved cells (R330) -/

/-- n elements of a list, which ones being free values (log 53); the rest is not taken. -/
def State.pickSome (s : State) : Nat → List Nat → List Nat × State
  | 0, _ => ([], s)
  | n + 1, l =>
    if l.isEmpty then ([], s)
    else
      let q := s.takeFree
      let x := l.getD (q.1 % l.length) 0
      let r := State.pickSome q.2 n (l.erase x)
      (x :: r.1, r.2)

/-- Brings a tenant's reservation on a comb to n cells. Cells moved in count as reserved once scrubbed. -/
def State.reserveCells (s : State) (ten comb n : Nat) (scrubbed : Bool) : State :=
  let k := s.comb comb
  let mine := (k.reserved.filter fun r => r.2.1 == ten).map (·.1)
  if n < mine.length then
    let q := s.pickSome (mine.length - n) mine
    q.2.updComb comb fun k => { k with reserved := k.reserved.filter fun r => !q.1.contains r.1 }
  else
    let open_ := ((List.range 128).map (comb * 128 + ·)).filter fun c => !(k.reserved.any fun r => r.1 == c)
    let q := s.pickSome (n - mine.length) open_
    q.2.updComb comb fun k => { k with reserved := k.reserved ++ q.1.map fun c => (c, ten, scrubbed) }

end Sys2Proof.Machine
end

