-- ==== Sys2Proof/Machine/Pke.lean ====
section
/-! DEFINITION. The public-key engine, quotes and ephemeral keys (R270 to R275, R281 to R288). -/

namespace Sys2Proof.Machine

/-! ### The command block (R281, R282) -/

def Pk.sign : Nat := 0x01
def Pk.verify : Nat := 0x02
def Pk.keygen : Nat := 0x03
def Pk.derive : Nat := 0x04
def Pk.import_ : Nat := 0x05
def Pk.erase : Nat := 0x06
def Pk.public_ : Nat := 0x07
def Pk.quote : Nat := 0x10
def Pk.ephRelease : Nat := 0x11
def Pk.getCert : Nat := 0x12

/-- ALG column of the operations table; none for an OP that is not in it. -/
def pkAlgs (op : Nat) : Option (List Nat) :=
  if op = Pk.sign then some [1, 2, 3] else if op = Pk.verify then some [1, 2, 3, 7]
  else if op = Pk.keygen ∨ op = Pk.import_ then some [1, 2, 3, 4, 5, 6] else if op = Pk.derive then some [4, 5, 6]
  else if op = Pk.erase ∨ op = Pk.public_ ∨ op = Pk.quote ∨ op = Pk.ephRelease ∨ op = Pk.getCert then some [0] else none

def pkOp (b : List Byte) : Nat := byteAt b 0
def pkAlg (b : List Byte) : Nat := byteAt b 1
def pkInSlot (b : List Byte) : Bool := bitOf (byteAt b 2) 0
def pkToSlot (b : List Byte) : Bool := bitOf (byteAt b 2) 1
def pkPrehashed (b : List Byte) : Bool := bitOf (byteAt b 2) 2
def pkSlot (b : List Byte) : Nat := byteAt b 3
def pkRsaBits (b : List Byte) : Nat := fld b 4 2
def pkHash (b : List Byte) : Nat := byteAt b 6
def pkKeyIova (b : List Byte) : Nat := fld b 0x08 8
def pkMsgIova (b : List Byte) : Nat := fld b 0x10 8
def pkAuxIova (b : List Byte) : Nat := fld b 0x18 8
def pkOutIova (b : List Byte) : Nat := fld b 0x20 8
def pkKeyLen (b : List Byte) : Nat := fld b 0x28 4
def pkMsgLen (b : List Byte) : Nat := fld b 0x2C 4
def pkAuxLen (b : List Byte) : Nat := fld b 0x30 4
def pkOutLen (b : List Byte) : Nat := fld b 0x34 4

/-- Curve of a slot's key: 1 P-256, 2 P-384, 3 Ed25519, 6 X25519 (R283). -/
def curveOf (alg : Nat) : Nat := if alg = 4 then 1 else if alg = 5 then 2 else alg

/-- Sizes of a private key, a public key, and a signature or secret, by ALG (R282). -/
def privLen (alg : Nat) : Nat := if curveOf alg = 2 then 48 else 32
def pubLen (alg : Nat) : Nat := if curveOf alg = 1 then 65 else if curveOf alg = 2 then 97 else 32
def outLen (alg : Nat) : Nat :=
  if alg = 1 ∨ alg = 3 then 64 else if alg = 2 then 96 else if alg = 5 then 48 else 32

/-- Key bytes that the operation reads; none where it reads no key operand. -/
def pkKeyNeed (b : List Byte) : Option Nat :=
  let op := pkOp b
  let alg := pkAlg b
  if (op = Pk.sign ∨ op = Pk.derive) ∧ !pkInSlot b ∨ op = Pk.import_ then some (privLen alg)
  else if op = Pk.verify then some (if alg = 7 then pkRsaBits b / 8 + 4 else pubLen alg)
  else none

/-- AUX bytes that the operation reads. -/
def pkAuxNeed (b : List Byte) : Option Nat :=
  if pkOp b = Pk.verify then some (if pkAlg b = 7 then pkRsaBits b / 8 else outLen (pkAlg b))
  else if pkOp b = Pk.derive then some (pubLen (pkAlg b)) else none

/-- Bytes that the operation writes, as far as the block alone says. -/
def pkOutNeed (b : List Byte) : Nat :=
  let op := pkOp b
  if op = Pk.sign ∨ op = Pk.derive then outLen (pkAlg b)
  else if op = Pk.keygen then pubLen (pkAlg b) + (if pkToSlot b then 0 else privLen (pkAlg b))
  else if op = Pk.quote then 4096
  else if op = Pk.getCert then (if 3 < byteAt b 0x38 then 0 else (Config.certificate (byteAt b 0x38)).length)
  else 0

/-- Whether PARAM is at fault. -/
def pkParamBad (b : List Byte) : Bool :=
  let op := pkOp b
  if op = Pk.quote then decide (86400 < fld b 0x38 4) || fld b 0x3C 4 != 0
  else if op = Pk.getCert then decide (3 < byteAt b 0x38) || fld b 0x39 7 != 0
  else if op = Pk.ephRelease then false
  else fld b 0x38 8 != 0

/-- Fields at fault in order of offset. -/
def pkFaults (b : List Byte) : List (Nat × Bool) :=
  let op := pkOp b
  let alg := pkAlg b
  let h := pkHash b
  let sv := op == Pk.sign || op == Pk.verify
  [(0x00, (pkAlgs op).isNone), (0x01, !((pkAlgs op).getD []).contains alg),
   (0x02, byteAt b 2 &&& 0xF8 != 0 || (op == Pk.import_ && !pkToSlot b) || (sv && alg == 3 && pkPrehashed b)),
   (0x04, if alg = 7 then decide (pkRsaBits b < 2048 ∨ 4096 < pkRsaBits b) || pkRsaBits b % 8 != 0 else pkRsaBits b != 0),
   (0x06, decide (3 < h) || (sv && (alg == 3) != (h == 0))),
   (0x07, alg == 7 && decide (hashLen h < byteAt b 7)),
   (0x28, (pkKeyNeed b).any fun n => pkKeyLen b != n),
   (0x2C, decide (2 ^ 20 < pkMsgLen b) || (sv && pkPrehashed b && pkMsgLen b != hashLen h)),
   (0x30, (pkAuxNeed b).any fun n => pkAuxLen b != n),
   (0x34, decide (pkOutLen b < pkOutNeed b)), (0x38, pkParamBad b), (0x40, op != Pk.quote && (b.drop 0x40).any (· != 0#8))]

/-- Whether the operation needs randomness (R288). -/
def pkNeeds (b : List Byte) : Bool :=
  pkOp b == Pk.keygen || pkOp b == Pk.quote || (pkOp b == Pk.sign && (pkAlg b == 1 || pkAlg b == 2))

/-- Started quotes of the tenant whose key is not yet made. -/
def State.quotesOpen (s : State) (ten : Nat) : Nat :=
  sumL (s.rings.map fun r => if r.1 / 256 = ten then
    (r.2.cmds.filter fun x => x.opcode == 0x30 && x.phase == .started && !x.runDone && pkOp x.block == Pk.quote).length else 0)

/-- The start of CMD_PKE: reads and checks the block, and takes the operation into the engine. -/
def State.startPke (s : State) (h : HostView) (ten lring : Nat) (c : Cmd) : State :=
  match hostRead h ten (c.iova 0) 128 with
  | none => s.done ten lring c.seq (St.translationFault, 0)
  | some b =>
    match firstFault (pkFaults b) with
    | some e => s.done ten lring c.seq e
    | none =>
      if pkOp b = Pk.quote ∧ 8 ≤ s.ephLive ten + s.quotesOpen ten then s.done ten lring c.seq (St.quota, 0)
      else (s.charge ten 4 1).updCmd ten lring c.seq fun c => { c with block := b }

/-- CMD_PKE (R281, R288, R292). -/
def execCmdPke (t ten lring seq : Nat) (h : HostView) (s : State) : Host.Outcome State Fault Refusal :=
  run t s fun s => s.tryStart ten lring seq 0x30 onePosition
    (fun _ c => if c.len 0 = 128 then none else some (St.badField, 0x40))
    (fun _ c => (hostRead h ten (c.iova 0) 128).any pkNeeds)
    (fun s c => s.startPke h ten lring c)

/-! ### Operations and slots (R283, R284) -/

/-- Whether an operation names its slot. -/
def pkNamesSlot (b : List Byte) : Bool :=
  let op := pkOp b
  ((op == Pk.sign || op == Pk.derive) && pkInSlot b) || (op == Pk.keygen && pkToSlot b) || op == Pk.import_ || op == Pk.erase || op == Pk.public_

/-- Whether an operation that started earlier still holds the slot. -/
def State.pkSlotHeld (s : State) (ten : Nat) (c : Cmd) : Bool :=
  pkNamesSlot c.block && s.rings.any fun r => r.1 / 256 == ten && r.2.cmds.any fun x =>
    x.phase == .started && !x.runDone && x.opcode == 0x30 && pkNamesSlot x.block && pkSlot x.block == pkSlot c.block &&
    decide (x.startAt.getD 0 < c.startAt.getD 0 ∨ (x.startAt = c.startAt ∧ x.fetchNo < c.fetchNo))

/-- Runs one operation of the table. -/
def State.pke (s : State) (ten lring seq op : Nat) (f : State → Cmd → State) : State :=
  s.onStarted ten lring seq 0x30 fun s c => s.onlyIf (c.block.length == 128 && pkOp c.block == op && !s.pkSlotHeld ten c) fun s => f s c

def curve (alg : Nat) : Curve := if curveOf alg = 2 then p384 else p256
def isP (alg : Nat) : Bool := curveOf alg == 1 || curveOf alg == 2

/-- A point is rejected, and counted (R285 to R287, R294). -/
def State.rejectPoint (s : State) : State := { s with sec := { s.sec with pointRej := capAt 0xFFFF (s.sec.pointRej + 1) } }

/-- The key in the slot that the block names, for the ALG it names. -/
def State.slotKey (s : State) (ten : Nat) (b : List Byte) : Except Err (List Byte) :=
  match Tbl.look (s.ten ten).keySlots (pkSlot b) with
  | none => .error (St.badField, 0x03)
  | some k =>
    if k.invalid then .error (St.memoryUncorrectable, 0)
    else if k.curve ≠ curveOf (pkAlg b) then .error (St.badField, 0x01)
    else .ok k.priv

/-- An operand by DMA. -/
def operand (h : HostView) (ten iova len : Nat) : Except Err (List Byte) :=
  match hostRead h ten iova len with
  | some l => .ok l
  | none => .error (St.translationFault, 0)

/-- The private key of SIGN and DERIVE: from the slot or the operand. -/
def State.privKey (s : State) (h : HostView) (ten : Nat) (b : List Byte) : Except Err (List Byte) :=
  if pkInSlot b then s.slotKey ten b else operand h ten (pkKeyIova b) (pkKeyLen b)

/-- The digest of MSG that ECDSA and RSA-PSS take. -/
def pkDigest (b msg : List Byte) : List Byte := if pkPrehashed b then msg else hashOf (pkHash b) msg

/-- Public key of a private key. -/
def publicOf (cv : Nat) (priv : List Byte) : List Byte :=
  if cv = 1 then p256.encode (p256.mul (beNat priv) p256.g)
  else if cv = 2 then p384.encode (p384.mul (beNat priv) p384.g)
  else if cv = 3 then edPublic priv
  else x25519 (clamp priv) 9

/-- SIGN (R281 to R283). A nonce that gives no signature is drawn again. -/
def execSign (t ten lring seq : Nat) (h : HostView) (s : State) : Host.Outcome State Fault Refusal :=
  run t s fun s => s.pke ten lring seq Pk.sign fun s c =>
    let b := c.block
    let alg := pkAlg b
    match s.privKey h ten b, operand h ten (pkMsgIova b) (pkMsgLen b) with
    | .error e, _ => s.done ten lring seq e
    | _, .error e => s.done ten lring seq e
    | .ok priv, .ok msg =>
      if alg = 3 then s.doneWriting h ten lring seq (pkOutIova b) (edSign priv msg) (St.ok, 0)
      else
        let cv := curve alg
        if !cv.scalarOk (beNat priv) then s.done ten lring seq (St.badField, 0x08)
        else
          let q := s.takeBytes 64
          match cv.sign (beNat priv) (cv.digest (pkDigest b msg)) (1 + leNat q.1 % (cv.n - 1)) with
          | none => q.2
          | some sig => q.2.doneWriting h ten lring seq (pkOutIova b) sig (St.ok, 0)

/-- What a verification says: a point that is rejected, a bad exponent, or whether the signature holds. -/
def verifies (b key msg sig : List Byte) : Except Err Bool :=
  let alg := pkAlg b
  if alg = 7 then
    let n := pkRsaBits b / 8
    let e := beNat (key.drop n)
    if e % 2 = 0 ∨ e < 3 then .error (St.badField, 0x08)
    else .ok (rsaVerify (pkHash b) (byteAt b 7) (beNat (key.take n)) e (pkDigest b msg) sig)
  else if alg = 3 then
    match edKey key with
    | none => .error (St.pointNotOnCurve, 0)
    | some a => .ok (edVerify a key msg sig)
  else
    match (curve alg).decode key with
    | none => .error (St.pointNotOnCurve, 0)
    | some q => .ok ((curve alg).verify q ((curve alg).digest (pkDigest b msg)) sig)

/-- VERIFY: ST_OK or ST_SIGNATURE_INVALID; nothing is written (R281, R285, R286). -/
def execVerify (t ten lring seq : Nat) (h : HostView) (s : State) : Host.Outcome State Fault Refusal :=
  run t s fun s => s.pke ten lring seq Pk.verify fun s c =>
    let b := c.block
    match operand h ten (pkKeyIova b) (pkKeyLen b), operand h ten (pkMsgIova b) (pkMsgLen b), operand h ten (pkAuxIova b) (pkAuxLen b) with
    | .ok key, .ok msg, .ok sig =>
      match verifies b key msg sig with
      | .ok true => s.done ten lring seq (St.ok, 0)
      | .ok false =>
        State.done { s with sec := { s.sec with sigFail := capAt 0xFFFF (s.sec.sigFail + 1) } } ten lring seq (St.signatureInvalid, 0)
      | .error e => (if e.1 = St.pointNotOnCurve then s.rejectPoint else s).done ten lring seq e
    | _, _, _ => s.done ten lring seq (St.translationFault, 0)

/-- Stores a private key in the slot of the block. -/
def State.storeKey (s : State) (ten : Nat) (b priv : List Byte) : State :=
  s.updTen ten fun x => { x with keySlots := Tbl.put x.keySlots (pkSlot b) { curve := curveOf (pkAlg b), priv := priv, invalid := false } }

def State.slotTaken (s : State) (ten : Nat) (b : List Byte) : Bool := (Tbl.look (s.ten ten).keySlots (pkSlot b)).isSome

/-- A fresh private key of an ALG. -/
def freshKey (alg : Nat) (r : List Byte) : List Byte :=
  if isP alg then toBE (privLen alg) (1 + leNat r % ((curve alg).n - 1)) else r.take 32

/-- KEYGEN (R281, R283): without TO_SLOT the private key follows the public key and the device keeps no copy. -/
def execKeygen (t ten lring seq : Nat) (h : HostView) (s : State) : Host.Outcome State Fault Refusal :=
  run t s fun s => s.pke ten lring seq Pk.keygen fun s c =>
    let b := c.block
    if pkToSlot b && s.slotTaken ten b then s.done ten lring seq (St.badField, 0x03)
    else
      let q := s.takeBytes 64
      let priv := freshKey (pkAlg b) q.1
      let pub := publicOf (curveOf (pkAlg b)) priv
      if pkToSlot b then
        let w := q.2.hostWrite h ten (pkOutIova b) pub
        if w.2 then (w.1.storeKey ten b priv).done ten lring seq (St.ok, 0)
        else (w.1.emit (.dmaUndefined ten (pkOutIova b) pub.length)).done ten lring seq (St.translationFault, 0)
      else q.2.doneWriting h ten lring seq (pkOutIova b) (pub ++ priv) (St.ok, 0)

/-- DERIVE (R281, R285, R287): a rejected peer is counted and nothing is written. A scalar that takes the peer to no point leaves the secret a free value. -/
def execDerive (t ten lring seq : Nat) (h : HostView) (s : State) : Host.Outcome State Fault Refusal :=
  run t s fun s => s.pke ten lring seq Pk.derive fun s c =>
    let b := c.block
    let alg := pkAlg b
    let reject := s.rejectPoint.done ten lring seq (St.pointNotOnCurve, 0)
    match s.privKey h ten b, operand h ten (pkAuxIova b) (pkAuxLen b) with
    | .error e, _ => s.done ten lring seq e
    | _, .error e => s.done ten lring seq e
    | .ok priv, .ok peer =>
      if alg = 6 then
        match x25519Peer peer with
        | none => reject
        | some u =>
          let z := x25519 (clamp priv) u
          if z.all (· == 0#8) then reject else s.doneWriting h ten lring seq (pkOutIova b) z (St.ok, 0)
      else
        let cv := curve alg
        match cv.decode peer with
        | none => reject
        | some p =>
          match cv.mul (beNat priv) (some p) with
          | some _ => s.doneWriting h ten lring seq (pkOutIova b) (cv.ecdh (beNat priv) p) (St.ok, 0)
          | none =>
            let q := s.takeFree
            q.2.doneWriting h ten lring seq (pkOutIova b) (toLE cv.len q.1) (St.ok, 0)

/-- IMPORT (R281, R283). -/
def execImportKey (t ten lring seq : Nat) (h : HostView) (s : State) : Host.Outcome State Fault Refusal :=
  run t s fun s => s.pke ten lring seq Pk.import_ fun s c =>
    let b := c.block
    if s.slotTaken ten b then s.done ten lring seq (St.badField, 0x03)
    else match operand h ten (pkKeyIova b) (pkKeyLen b) with
      | .error e => s.done ten lring seq e
      | .ok priv =>
        if isP (pkAlg b) && !(curve (pkAlg b)).scalarOk (beNat priv) then s.done ten lring seq (St.badField, 0x08)
        else (s.storeKey ten b priv).done ten lring seq (St.ok, 0)

/-- ERASE: the slot is empty, whatever it held (R281, R284). -/
def execErase (t ten lring seq : Nat) (s : State) : Host.Outcome State Fault Refusal :=
  run t s fun s => s.pke ten lring seq Pk.erase fun s c =>
    (s.updTen ten fun x => { x with keySlots := Tbl.del x.keySlots (pkSlot c.block) }).done ten lring seq (St.ok, 0)

/-- PUBLIC: the public key of the slot (R281, R283). -/
def execPublicKey (t ten lring seq : Nat) (h : HostView) (s : State) : Host.Outcome State Fault Refusal :=
  run t s fun s => s.pke ten lring seq Pk.public_ fun s c =>
    let b := c.block
    match Tbl.look (s.ten ten).keySlots (pkSlot b) with
    | none => s.done ten lring seq (St.badField, 0x03)
    | some k =>
      if k.invalid then s.done ten lring seq (St.memoryUncorrectable, 0)
      else if pkOutLen b < pubLen k.curve then s.done ten lring seq (St.badField, 0x34)
      else s.doneWriting h ten lring seq (pkOutIova b) (publicOf k.curve k.priv) (St.ok, 0)

/-! ### Quotes and ephemeral keys (R272 to R275) -/

/-- LIFETIME of a quote in waggle time: zero means 600 s. -/
def quoteLife (b : List Byte) : Nat := (if fld b 0x38 4 = 0 then 600 else fld b 0x38 4) * sec

/-- Bytes 0x000 to 0x27F of a quote (R272). -/
def State.quoteHead (s : State) (ten : Nat) (nonce ephPub ephId : List Byte) (expires : Nat) : List Byte :=
  ascii "LQTE" ++ toLE 1 1 ++ toLE 1 8 ++ toLE 2 ten ++ toLE 8 s.fuses.serial ++ toLE 4 s.fuses.ident ++ toLE 1 s.fuses.svn ++ zeros 3
    ++ toLE 8 s.now ++ slice nonce 0 64 ++ (List.range 8).flatMap (fun i => slice (s.sec.meas.getD i []) 0 48) ++ sha384 (s.tenantContext ten)
    ++ slice ephPub 0 96 ++ slice ephId 0 8 ++ toLE 8 expires

/-- QUOTE (R272 to R275): a quote that cannot be written creates no key. -/
def execQuote (t ten lring seq : Nat) (h : HostView) (s : State) : Host.Outcome State Fault Refusal :=
  run t s fun s => s.pke ten lring seq Pk.quote fun s c =>
    let b := c.block
    let k := s.takeBytes 64
    let d := 1 + leNat k.1 % (p384.n - 1)
    let i := k.2.takeBytes 8
    let expires := s.now + quoteLife b
    let head := s.quoteHead ten (b.drop 0x40) (p384.xyBytes (p384.mul d p384.g)) i.1 expires
    let n := i.2.takeBytes 64
    let m := n.2.takeBytes 32
    let out := head ++ slice (Config.identityEcdsa head (leNat n.1)) 0 96 ++ slice (Config.identityMldsa head (leNat m.1)) 0 3309 ++ zeros 51
    let w := m.2.hostWrite h ten (pkOutIova b) out
    if w.2 then
      let key : EphKey := { id := leNat i.1, priv := d, salt := sha384 head, expires := expires }
      (w.1.updTen ten fun x => { x with ephs := x.ephs ++ [key] }).done ten lring seq (St.ok, 0)
    else (w.1.emit (.dmaUndefined ten (pkOutIova b) out.length)).done ten lring seq (St.translationFault, 0)

/-- EPH_RELEASE: ends only a live key of the issuing tenant (R275). -/
def execEphRelease (t ten lring seq : Nat) (s : State) : Host.Outcome State Fault Refusal :=
  run t s fun s => s.pke ten lring seq Pk.ephRelease fun s c =>
    (s.updTen ten fun x => { x with ephs := x.ephs.filter fun k => k.id != fld c.block 0x38 8 }).done ten lring seq (St.ok, 0)

/-- GET_CERT: a certificate in DER form (R271). -/
def execGetCert (t ten lring seq : Nat) (h : HostView) (s : State) : Host.Outcome State Fault Refusal :=
  run t s fun s => s.pke ten lring seq Pk.getCert fun s c =>
    s.doneWriting h ten lring seq (pkOutIova c.block) (Config.certificate (byteAt c.block 0x38)) (St.ok, 0)

end Sys2Proof.Machine
end

