-- ==== Sys2Proof/Machine/Meter.lean ====
section
/-! DEFINITION. Meters, billing epochs, the wall clock, meter records and CMD_METER_READ (R352 to R364). -/

namespace Sys2Proof.Machine

/-! ### The wall clock (R357, R358) -/

/-- What WG_WALL reads: the value last written plus the waggle time since. -/
def State.wall (s : State) : Nat := (s.waggle.wallNs + (s.now - s.waggle.wallAt)) % 2 ^ 64

/-- WG_EPOCH: wraps of the 64-bit waggle counter (R63, R365). -/
def State.waggleEpoch (s : State) : Nat := capAt 0xFFFF (s.now / 2 ^ 64)

/-- Nanoseconds between boundaries of the open epoch's rule. -/
def Meters.spanNs (m : Meters) : Nat := m.lenS * sec

/-- Whether the open epoch closes at wall-clock boundaries. -/
def State.aligned (s : State) : Bool := s.meters.align_ && s.waggle.wallSet

/-- The latest boundary that the wall clock has reached. -/
def State.boundary (s : State) : Nat := s.wall / max 1 s.meters.spanNs * max 1 s.meters.spanNs

/-- Whether the open epoch is due to close (R355, R356). -/
def State.epochDue (s : State) : Bool :=
  if s.aligned then decide (s.meters.lastBoundary < s.boundary)
  else decide (s.meters.openWaggle + s.meters.spanNs ≤ s.now)

/-! ### The close of an epoch (R356, R359, R360) -/

/-- One record entry of 64 bytes. -/
def Tenant.meterEntry (x : Tenant) (ten : Nat) : List Byte :=
  toLE 2 ten ++ toLE 1 (sumL (((List.range 6).filter x.stuck.contains).map fun k => 2 ^ k)) ++ zeros 5
    ++ (List.range 6).flatMap (fun k => toLE 8 (nth0 x.meters k)) ++ zeros 8

/-- Tenants with a non-zero delta or a stuck meter, in ascending order. -/
def State.metered (s : State) : Tbl Tenant := s.tenants.filter fun p => p.2.meters.any (· != 0) || !p.2.stuck.isEmpty

/-- FLAGS of the record of the open epoch. -/
def State.recordFlags (s : State) : Nat :=
  let m := s.meters
  b2n s.aligned + b2n m.back * 2 + b2n m.fwd * 4 + b2n (!s.waggle.wallSet) * 8 + b2n m.heldOver * 16 + b2n m.cold * 32

/-- The record of the open epoch, closed now, up to the end of its entries. -/
def State.recordBody (s : State) : List Byte :=
  let m := s.meters
  ascii "LMTR" ++ toLE 1 1 ++ toLE 1 s.recordFlags ++ toLE 2 s.metered.length ++ toLE 8 m.epoch ++ toLE 8 s.fuses.serial
    ++ toLE 8 m.openWaggle ++ toLE 8 s.now ++ toLE 8 m.openWall ++ toLE 8 (if s.aligned then s.boundary else s.wall) ++ toLE 4 m.lenS
    ++ toLE 2 s.waggleEpoch ++ zeros 66 ++ s.metered.flatMap fun p => p.2.meterEntry p.1

/-- A tenant's meters at the opening of an epoch. -/
def Tenant.zeroMeters (x : Tenant) : Tenant := { x with meters := [0, 0, 0, 0, 0, 0], stuck := [] }

/-- Records the store holds. -/
def storeMax : Nat := 1024

/-- Closes the open epoch if it is due; with the store full the close waits. -/
def State.closeEpoch (s : State) : State :=
  if !s.epochDue then s
  else if storeMax ≤ s.meters.held.length then { s with meters := { s.meters with heldOver := true, evFull := true } }
  else
    let last := if s.aligned then s.boundary else s.meters.lastBoundary
    let opened := if s.settings.align_ && s.waggle.wallSet && last != 0 then last else s.wall
    let held := s.meters.held ++ [{ body := s.recordBody, sigs := none }]
    { s with
      tenants := s.tenants.map fun p => (p.1, p.2.zeroMeters)
      meters := { s.meters with
        epoch := s.meters.epoch + 1, openWaggle := s.now, openWall := opened, lenS := s.settings.lenS, align_ := s.settings.align_,
        lastBoundary := last, back := false, fwd := false, cold := false, heldOver := false, held := held,
        evFull := s.meters.evFull || decide (storeMax ≤ held.length) } }

/-- EPOCH_CLOSE (R355, R356, R360). -/
def execEpochClose (t : Nat) (s : State) : Host.Outcome State Fault Refusal := run t s State.closeEpoch

/-- Sets the wall clock (R357, R358): a close due at the same time comes first. -/
def State.setWall (s : State) (v : Nat) : State :=
  let s := s.closeEpoch
  let old := s.wall
  let span := max 1 s.meters.spanNs
  let back := decide (v < old)
  let fwd := s.meters.align_ && decide (old / span + 1 < v / span)
  { s with waggle := { s.waggle with wallNs := v, wallAt := s.now, wallSet := true }
           meters := { s.meters with back := s.meters.back || back, fwd := s.meters.fwd || fwd, evBack := s.meters.evBack || back } }

/-! ### The millisecond meters (R352) -/

/-- METER_MS_TICK: residency and session time, once for every millisecond passed. -/
def execMeterMsTick (t : Nat) (s : State) : Host.Outcome State Fault Refusal :=
  run t s fun s =>
    let n := s.now / msec - s.meters.lastMs
    let s := (s.tenants.map (·.1)).foldl (fun (s : State) ten =>
      (s.charge ten 2 (n * ceilDiv (s.dram.usedBytes ten) (2 ^ 20))).charge ten 3 (n * (s.ten ten).activeCount)) s
    { s with meters := { s.meters with lastMs := s.now / msec } }

/-! ### Signing (R361) -/

/-- Signs the first record of a list that has no signatures. -/
def signFirst (sig : List Byte → List Byte) : List MeterRecord → List MeterRecord
  | [] => []
  | r :: rest => if r.sigs.isNone then { r with sigs := some (sig r.body) } :: rest else r :: signFirst sig rest

/-- METER_RECORD_SIGN: the oldest unsigned record is signed once ID_READY is set and the DRBG can serve. -/
def execMeterRecordSign (t : Nat) (s : State) : Host.Outcome State Fault Refusal :=
  run t s fun s => s.onlyIf (s.sec.idReady && s.canServe && s.meters.held.any (·.sigs.isNone)) fun s =>
    let a := s.takeBytes 64
    let b := a.2.takeBytes 32
    let sig (body : List Byte) : List Byte :=
      slice (Config.identityEcdsa body (leNat a.1)) 0 96 ++ slice (Config.identityMldsa body (leNat b.1)) 0 3309
    { b.2 with meters := { b.2.meters with held := signFirst sig b.2.meters.held } }

/-! ### CMD_METER_READ (R362, R363) -/

def Cmd.meterOp (c : Cmd) : Nat := byteAt c.entry 0x50

/-- Bytes of a record once signed. -/
def MeterRecord.size (r : MeterRecord) : Nat := r.body.length + 3405

/-- What R362 refuses. -/
def meterCheck (ten : Nat) (s : State) (c : Cmd) : Option Err :=
  if 1 < c.meterOp ∨ (c.meterOp = 1 ∧ ten ≠ 0) then some (St.badField, 0x50)
  else if c.len 0 < (if c.meterOp = 0 then 72 else s.meters.held.head?.elim 0 (·.size)) then some (St.badField, 0x40)
  else none

/-- A take whose oldest record is not yet signed needs randomness (R363). -/
def meterNeeds (s : State) (c : Cmd) : Bool := c.meterOp == 1 && s.meters.held.head?.any (·.sigs.isNone)

/-- CMD_METER_READ. -/
def execCmdMeterRead (t ten lring seq : Nat) (s : State) : Host.Outcome State Fault Refusal :=
  run t s fun s => s.tryStart ten lring seq 0x40 onePosition (meterCheck ten) meterNeeds fun s _ => s

/-- METER_SNAPSHOT: EPOCH, waggle time, wall clock and the tenant's six meters. -/
def execMeterSnapshot (t ten lring seq : Nat) (h : HostView) (s : State) : Host.Outcome State Fault Refusal :=
  run t s fun s => s.onStarted ten lring seq 0x40 fun s c => s.onlyIf (c.meterOp == 0) fun s =>
    s.doneWriting h ten lring seq (c.iova 0)
      (toLE 8 s.meters.epoch ++ toLE 8 s.now ++ toLE 8 s.wall ++ (List.range 6).flatMap fun k => toLE 8 (nth0 (s.ten ten).meters k)) (St.ok, 0)

/-- Whether a take has written a record that its completion has not yet removed. -/
def State.takePending (s : State) : Bool :=
  s.rings.any fun r => r.1 / 256 == 0 && r.2.cmds.any fun x =>
    x.opcode == 0x40 && x.meterOp == 1 && x.runDone && x.status == St.ok && x.detail != 0xFFFF

/-- METER_TAKE: writes the oldest held record; its completion removes it (R363). -/
def execMeterTake (t ten lring seq : Nat) (h : HostView) (s : State) : Host.Outcome State Fault Refusal :=
  run t s fun s => s.onStarted ten lring seq 0x40 fun s c => s.onlyIf (c.meterOp == 1 && !s.takePending) fun s =>
    match s.meters.held with
    | [] => s.done ten lring seq (St.ok, 0xFFFF)
    | r :: rest =>
      match r.sigs with
      | none => s
      | some sigs =>
        if c.len 0 < r.size then s.done ten lring seq (St.badField, 0x40)
        else s.doneWriting h ten lring seq (c.iova 0) (r.body ++ sigs) (St.ok, rest.length)

end Sys2Proof.Machine
end

