-- ==== Sys2Proof/Machine/Copy.lean ====
section
/-! DEFINITION. CMD_COPY and COMMAND_FINISH (R238, R98, R99). -/

namespace Sys2Proof.Machine

/-! ### CMD_COPY (R238) -/

def Cmd.toHost (c : Cmd) : Bool := bitOf (byteAt c.entry 0x50) 0
def Cmd.copyOffset (c : Cmd) : Nat := fld c.entry 0x58 8

/-- The session, then the checks of R238 in its order: alignment, bounds, LEN. -/
def copyCheck (ten : Nat) (s : State) (c : Cmd) : Option Err :=
  match Tbl.look (s.ten ten).sessions (c.handle 0) with
  | none => some (St.badHandle, 0)
  | some x =>
    if !x.active || x.closing then some (St.badHandle, 0)
    else if c.iova 0 % 64 ≠ 0 ∨ c.copyOffset % 64 ≠ 0 ∨ c.len 0 % 64 ≠ 0 then some (St.stencilMisaligned, 0)
    else if x.arenaBytes < c.copyOffset + c.len 0 then some (St.stencilBounds, 0)
    else if c.len 0 = 0 then some (St.badField, 0x40)
    else none

/-- Home comb of a session's generation. -/
def State.sessionHome (s : State) (ten : Nat) (x : Session) : Nat := (s.genOf ten x.model x.gen).elim 0 (·.home)

/-- CMD_COPY: a forager of the home comb, or of the next comb in service, carries the copy. -/
def execCmdCopy (t ten lring seq : Nat) (_h : HostView) (s : State) : Host.Outcome State Fault Refusal :=
  run t s fun s => s.tryStart ten lring seq 0x50 onePosition (copyCheck ten) noNeed fun s c =>
    let comb := (Tbl.look (s.ten ten).sessions (c.handle 0)).bind fun x => s.combFor (s.sessionHome ten x)
    s.updCmd ten lring seq fun c => { c with comb := comb }

/-- The copy itself, and its end. -/
def State.finishCopy (s : State) (h : HostView) (ten lring : Nat) (c : Cmd) : State :=
  match Tbl.look (s.ten ten).sessions (c.handle 0), c.comb with
  | some x, some k =>
    s.onlyIf ((s.comb k).svc == .inService) fun s =>
      if c.toHost then
        match s.readObjAt x.arena c.copyOffset (c.len 0) with
        | .error e => s.finish ten lring c.seq e
        | .ok b =>
          let q := s.hostWrite h ten (c.iova 0) b
          if q.2 then q.1.finish ten lring c.seq (St.ok, 0)
          else (q.1.emit (.dmaUndefined ten (c.iova 0) b.length)).finish ten lring c.seq (St.translationFault, 0)
      else
        match hostRead h ten (c.iova 0) (c.len 0) with
        | none => s.finish ten lring c.seq (St.translationFault, 0)
        | some b => (s.writeObj x.arena c.copyOffset b).finish ten lring c.seq (St.ok, 0)
  | _, _ => s

/-! ### COMMAND_FINISH (R99) -/

/-- The end of a command whose work an operation row has done. -/
def State.finishDone (s : State) (ten lring : Nat) (c : Cmd) : State :=
  if c.runDone then s.finish ten lring c.seq (c.status, c.detail) else s

/-- COMMAND_FINISH: a started command ends its work and awaits its final completion. -/
def execCommandFinish (t ten lring seq : Nat) (h : HostView) (s : State) : Host.Outcome State Fault Refusal :=
  run t s fun s =>
    match s.cmd? ten lring seq with
    | none => s
    | some c =>
      if c.phase ≠ .started then s
      else if c.opcode = 0x02 then s.finishClose ten lring c
      else if c.opcode = 0x03 then s.finishKeyset ten lring c
      else if c.opcode = 0x04 then s.finishLoad ten lring c
      else if c.opcode = 0x10 then c.eval.elim s fun v => s.finishEval ten lring c v
      else if c.opcode = 0x50 then s.finishCopy h ten lring c
      else s.finishDone ten lring c

end Sys2Proof.Machine
end

