-- ==== Sys2Proof/Machine/Pace.lean ====
section
/-! DEFINITION. The pace governor and the power cap (R66 to R70, R72, R407). -/

namespace Sys2Proof.Machine

/-- Temperature of the hottest of the hive and the edge dies at the last sample. -/
def Power.coreTj (p : Power) : Nat := max p.hiveTj (max p.e0Tj p.e1Tj)

/-- Lowest code the governor may set on a comb: VMIN, and the class-0 floor (R66, R68). -/
def Comb.lowCode (k : Comb) (p : PaceSet) : Nat := if k.c0Floor then max p.vmin c0Code else p.vmin

/-- One step from v toward a target. -/
def towards (v target : Nat) : Nat := if v < target then v + 1 else if target < v then v - 1 else v

/-- The code that pacing alone asks for (R66, R67). -/
def pacedCode (p : PaceSet) (lo v : Nat) (occ : List Nat) : Nat :=
  if v < lo then v + 1
  else if p.vmax < v then v - 1
  else if !p.paced then max lo p.vfix
  else if occ.isEmpty then towards v (max lo p.vfix)
  else if occ.any fun o => decide (p.bandHi < o) then min (max lo p.vmax) (v + 1)
  else if occ.all fun o => decide (o < p.bandLo) then max lo (v - 1)
  else v

/-- The next code of a comb, and whether thermal override lowers it (R66 to R72, R407). `emergency` and `hotCore` are the device's, `exceed` and `capping` the power cap's. -/
def Comb.nextCode (k : Comb) (p : PaceSet) (emergency hotCore exceed capping : Bool) (occ : List Nat) : Nat × Bool :=
  let lo := k.lowCode p
  let v := k.vcode
  let capped := if exceed ∧ lo < v then v - 1 else v
  if emergency then
    if k.tj > 100 ∨ hotCore then (v - 1, true) else (capped, false)
  else if k.c0Floor ∧ v < c0Code then (min c0Code (v + 20), false)
  else if exceed then (capped, false)
  else
    let n := pacedCode p lo v occ
    (if capping then min v n else n, false)

/-- One interval of one comb; a comb whose supply is gated is left alone. -/
def State.paceComb (s : State) (c : Nat) (m : CombMeasure) (exceed : Bool) : State :=
  let k := s.comb c
  if k.rest then s
  else
    let q := k.nextCode (s.pace c) s.power.emergency (decide (100 < s.power.coreTj)) exceed s.elec.capping m.occupancy
    s.updComb c fun k => { k with vcode := q.1, thermal := q.2, occ := m.occupancy.foldl max 0, stageRate := m.stageRate }

/-- PACE_INTERVAL: what the governor measured over the last 5 µs, and its move on each comb. -/
def execPaceInterval (t : Nat) (meas : List CombMeasure) (inputW : Nat) (s : State) : Host.Outcome State Fault Refusal :=
  run t s fun s =>
    let exceed := decide (s.settings.capW < inputW)
    let s := { s with elec := { s.elec with inputW := inputW, capping := exceed || (s.elec.capping && inputW == s.settings.capW) } }
    (List.range 4).foldl (fun s c => s.paceComb c (meas.getD c { occupancy := [], stageRate := 0 }) exceed) s

/-- Class-0 runs that hold cells of a comb. -/
def State.c0Runs (s : State) (c : Nat) : Bool := s.segs.any fun g => g.cls == 0 && g.comb == c && !g.cells.isEmpty

/-- C0_HOLD_EXPIRE: the class-0 floor of a comb ends C0_HOLD µs after its last C0 segment (R68). -/
def execC0HoldExpire (t comb : Nat) (s : State) : Host.Outcome State Fault Refusal :=
  run t s fun s =>
    s.onlyIf ((s.comb comb).c0Floor && !s.c0Runs comb && decide ((s.comb comb).c0Last + (s.pace comb).c0Hold * usec ≤ s.now)) fun s =>
      s.updComb comb fun k => { k with c0Floor := false }

end Sys2Proof.Machine
end

