-- ==== Sys2Proof/Machine/Segments.lean ====
section
/-! DEFINITION. The start and the end of segments, and how a chain goes on (R147, R162, R177, R191, R217, R232, R244 to R247, R340, R353). -/

namespace Sys2Proof.Machine

/-! ### The start (R147, R158, R217, R232) -/

/-- A cell as the sequencer sets it for a run: the words of scratchpad and accumulators stay. -/
def Cell.start (c : Cell) (ten latMode : Nat) (prog : List (List InsWord)) : Cell :=
  { c with ftq := [], bank0 := prog.getD 0 [], bank1 := prog.getD 1 [], active := 0, pc := 0, loops := [], tokens := [], windows := [], closing := [],
           timers := [], latches := [], adv := [], selBase := 0, selStep := 0, selLevel := 0, latMode := latMode, halted := false,
           lastTen := some ten, flights := [], noise := none }

def State.startCells (s : State) (g : SegRun) (x : SegDef) : State :=
  ((List.range g.cells.length).zip g.cells).foldl (fun s p => s.updCell p.2 fun c =>
    c.start g.ten x.latMode (x.programs.getD (nth0 x.cellMap p.1) [])) s

/-- What a multicast stream reads: resolved object and base, dimensions and flags (R232). -/
def State.sourceKey (s : State) (g : SegRun) (st : Stencil) : Nat × List Nat × List Int × Nat :=
  (s.resolve g st, (List.range 5).map st.size, (List.range 5).map fun k => if 1 < st.size k then st.stride k else 0, st.flags)

/-- Member streams of a multicast group of a command: run, stream index, stream. -/
def State.members (s : State) (g : SegRun) (mcast : Nat) : List (SegRun × Nat × StreamDef) :=
  (s.segs.filter g.gangOf).flatMap fun r => ((s.runDef r).elim [] fun x =>
    ((List.range x.streams.length).zip x.streams).filter fun p => p.2.mcastId == mcast).map fun p => (r, p.1, p.2)

/-- Whether a multicast group breaks R232. -/
def State.mcastBad (s : State) (g : SegRun) (mcast : Nat) : Bool :=
  let ms := s.members g mcast
  let keys := ms.filterMap fun m => ((s.runDef m.1).bind fun x => x.stencils[m.2.2.src]?).map (s.sourceKey m.1)
  decide (¬(ms.map fun m => m.1.comb).Nodup) || decide (4 < ms.length) || keys.any fun k => some k != keys.head?

/-- Whether every member of a run's gang is assigned and clean, or running already. -/
def State.gangReady (s : State) (g : SegRun) : Bool :=
  (s.segs.filter g.gangOf).all fun x => x.phase == .running || (x.phase == .placed && x.scrubbed) || x.phase == .yielded

/-- Cells of the peer segments that a run's stencils name (R158). -/
def State.peersOf (s : State) (g : SegRun) (x : SegDef) : Tbl (List Nat) :=
  (x.stencils.filter fun st => st.space == 1 && st.peerSeg != 0).foldl (fun t st =>
    match s.peerRun g (st.peerSeg - 1) with
    | some p => Tbl.put t (st.peerSeg - 1) p.cells
    | none => t) []

/-- A run begins: its times, its streams, and the command's own start (R98, R101). -/
def State.beginRun (s : State) (g : SegRun) (x : SegDef) : State :=
  let fresh : StreamRun := { delivered := [], hopped := [], finals := [], granules := 0, ended := false }
  let s := s.updSeg g.id fun r => { r with
    phase := .running, startedAt := s.now, ranSince := s.now, progress := s.now, peers := s.peersOf g x
    streams := (List.range x.streams.length).map fun k => (k, fresh) }
  s.updCmd g.ten g.lring g.seq fun c => { c with startAt := if g.first && g.replay then some s.now else some (c.startAt.getD s.now) }

/-- Restores the saved cells of a yielded run (R337). -/
def State.restoreCells (s : State) (g : SegRun) : State :=
  let s := (g.cells.zip g.saved).foldl (fun s p => s.updCell p.1 fun c => { p.2 with seg := c.seg, group := c.group, lastTen := some g.ten }) s
  s.updSeg g.id fun r => { r with phase := .running, saved := [], ranSince := s.now, progress := s.now }

/-- SEGMENT_START: the cells are set, the stencils created, the banks loaded (R147, R162, R217). -/
def execSegmentStart (t seg : Nat) (s : State) : Host.Outcome State Fault Refusal :=
  run t s fun s =>
    match s.seg? seg with
    | none => s
    | some g =>
      match s.runDef g with
      | none => s
      | some x =>
        s.onlyIf (g.phase == .placed && g.scrubbed && g.fail.isNone && (s.comb g.comb).svc == .inService && s.gangReady g) fun s =>
          if !g.saved.isEmpty then s.restoreCells g
          else
            let s := (s.startCells g x).beginRun g x
            match s.seg? seg with
            | none => s
            | some g =>
              if x.mcasts.any (s.mcastBad g) then s.failSeg seg (g.cells.headD 0) (St.badField, 0x20)
              else match s.createFault g with
                | some e => s.failSeg seg (g.cells.headD 0) e
                | none => s

/-! ### The end (R177, R191, R247, R340) -/

/-- A trowel instruction without the finished tile it takes, or a flush without room for its tile, never ends once issue has stopped. -/
def Cell.stuck (c : Cell) (f : Flight) : Bool :=
  let i := ins f.raw
  (f.remote && !f.arrived) || (i.ftq && c.ftq.isEmpty) || ((i.op == Op.mact || i.op == Op.macv) && i.flush && !i.fdest && decide (4 ≤ c.ftq.length))

/-- Whether a run may end: halted and quiet, or failed with nothing left that can end. -/
def State.mayEnd (s : State) (g : SegRun) : Bool :=
  if g.fail.isNone then (g.cells.all fun c => (s.cell c).halted) && s.quiet g
  else g.cells.all fun c => (s.cell c).flights.all fun f => !(s.cell c).running f || (s.cell c).stuck f

/-- Work done by a run is charged to its tenant and its command (R195, R352, R353). -/
def State.chargeRun (s : State) (g : SegRun) : State := (s.chargeOps g.ten g.lring g.seq g.charged).charge g.ten 1 g.keyBytes

/-- The chain after a gang has ended: a round-trip point, or its end (R244 to R247). -/
def State.nextInChain (s : State) (ten lring seq : Nat) (v : Eval) (gang : List Nat) : State :=
  match s.genOf ten v.model v.gen with
  | none => s.updEval ten lring seq fun v => { v with done := true }
  | some g =>
    match g.pointOf gang with
    | none => s.updEval ten lring seq fun v => { v with done := true }
    | some (i, e) =>
      if v.rtEnable then s.startAttempt ten lring seq i 1
      else if e.fallbackSeg = 0xFFFF then s.failEval ten lring seq (St.badField, 0x6D)
      else s.continueAt ten lring seq e.fallbackSeg false

/-- After a run has gone: once its gang has none left, the chain goes on or the EVAL ends. -/
def State.afterRun (s : State) (g : SegRun) : State :=
  if s.segs.any fun x => x.ofCmd g.ten g.lring g.seq then s
  else match s.runEval g with
    | none => s
    | some v =>
      if v.failed.isSome then s.updEval g.ten g.lring g.seq fun v => { v with done := true }
      else s.nextInChain g.ten g.lring g.seq v g.gang

/-- SEGMENT_END: windows close, the cells are free, messages are sent, the chain goes on (R154, R177, R308). -/
def execSegmentEnd (t seg : Nat) (s : State) : Host.Outcome State Fault Refusal :=
  run t s fun s =>
    match s.seg? seg with
    | none => s
    | some g =>
      s.onlyIf (g.phase == .running && s.mayEnd g) fun s =>
        let s := ((((s.chargeRun g).creditClass g).releaseCells g.cells).unrefSeg seg).dropSeg seg
        let s := if g.fail.isNone then s.sendEdges g else s
        s.afterRun g

end Sys2Proof.Machine
end

