-- ==== Sys2Proof/Machine/Thermal.lean ====
section
/-! DEFINITION. Junction samples, the thermal emergency, critical combs, Rest, and the thermal trip (R71 to R74, R367, R405, R409). -/

namespace Sys2Proof.Machine

/-- The seven junctions in order: combs C0 to C3, hive, edge dies. -/
def junctions (j : Junctions) : List Nat := [j.c0, j.c1, j.c2, j.c3, j.hive, j.e0, j.e1]

/-- A run ends at once: its work is charged, its cells and shelf references go. -/
def State.abortRun (s : State) (g : SegRun) : State := (((s.chargeRun g).releaseCells g.cells).unrefSeg g.id).dropSeg g.id

/-- A run that a stopped comb ends: the failure is logged on its lowest cell, and its EVAL fails. -/
def State.abortWith (s : State) (g : SegRun) (e : Err) : State :=
  let first := g.cells.foldl min (g.cells.headD 0)
  ((s.abortRun g).logRec Rec.segment 0 g.ten first (e.1 + e.2 * 2 ^ 16) (g.seq % 2 ^ 32)).failEval g.ten g.lring g.seq e

/-- COMB_CRITICAL: dispatch stops, every run on the comb fails, and the comb enters Rest (R74). A group placed there that has not started waits again. -/
def State.combCritical (s : State) (c : Nat) : State :=
  let s := s.updComb c fun k => { k with critSeen := true, svc := if k.svc = .inService then .thermalRest else k.svc,
                                         rest := k.rest || k.svc == .inService }
  (s.segs.filter fun g => g.comb == c && !g.cells.isEmpty).foldl (fun s g =>
    match s.seg? g.id with
    | none => s
    | some g => if g.phase = .placed then s.requeueGang g id else s.abortWith g (St.thermalAbort, c)) s

/-- Runs begun or resumed after this sample count from here: a comb holds its place below 95 °C. -/
def coolFrom (now tj : Nat) (old : Option Nat) : Option Nat := if tj ≤ 95 then some (old.getD now) else none

/-- A thermal emergency begins: it is logged, and every comb block shows it (R71, R73). -/
def State.beginEmergency (s : State) : State :=
  let s := { s with power := { s.power with emergency := true } }
  let s := (List.range 4).foldl (fun s c => s.updComb c fun k => { k with emergSeen := true }) s
  s.logRec Rec.boundSuspended 1 Rec.deviceWide 0xFF 0 0

/-- THERMAL_SAMPLE: every sensor is read; an emergency may begin, and combs at 110 °C stop (R71, R74). -/
def execThermalSample (t : Nat) (tj : Junctions) (s : State) : Host.Outcome State Fault Refusal :=
  run t s fun s =>
    let js := junctions tj
    let s := { s with power := { s.power with
      hiveTj := tj.hive, e0Tj := tj.e0, e1Tj := tj.e1, hot := js.map fun x => decide (100 < x)
      coolSince := (List.range 7).map fun i => coolFrom s.now (nth0 js i) ((s.power.coolSince.getD i none)) } }
    let s := (List.range 4).foldl (fun s c => s.updComb c fun k => { k with tj := nth0 js c, tjMax := max k.tjMax (nth0 js c) }) s
    let s := if js.any (fun x => decide (100 < x)) && !s.power.emergency then s.beginEmergency else s
    (List.range 4).foldl (fun s c => if 110 ≤ nth0 js c then s.combCritical c else s) s

/-- Whether a die has stayed at or below 95 °C for 10 ms. -/
def State.cooled (s : State) (die : Nat) : Bool := (s.power.coolSince.getD die none).any fun t0 => decide (t0 + 10 * msec ≤ s.now)

/-- THERMAL_EMERGENCY_END: every die has stayed at or below 95 °C for 10 ms (R71, R73). -/
def execThermalEmergencyEnd (t : Nat) (s : State) : Host.Outcome State Fault Refusal :=
  run t s fun s => s.onlyIf (s.power.emergency && (List.range 7).all s.cooled) fun s =>
    let s := { s with power := { s.power with emergency := false } }
    let s := (List.range 4).foldl (fun s c => s.updComb c fun k => { k with thermal := false }) s
    s.logRec Rec.boundSuspended 2 Rec.deviceWide 0xFF 0 0

/-- COMB_THERMAL_RECOVER: a comb in thermal Rest returns to service (R74). -/
def execCombThermalRecover (t comb : Nat) (s : State) : Host.Outcome State Fault Refusal :=
  run t s fun s => s.onlyIf ((s.comb comb).svc == .thermalRest && s.cooled comb) fun s =>
    s.updComb comb fun k => { k with svc := .inService, idleSince := s.now }

/-- The module powers down (R405): the device is Off, and its next start is a cold start. -/
def State.powerDown (s : State) : State := { s with power := { s.power with off := true } }

/-- THERMAL_TRIP: a hive or edge die (4, 5 or 6) reached 115 °C (R409). -/
def execThermalTrip (t die : Nat) (s : State) : Host.Outcome State Fault Refusal :=
  run t s fun s => s.onlyIf (decide (4 ≤ die ∧ die ≤ 6)) State.powerDown

/-! ### Rest for idleness (R367) -/

/-- Commands whose copy a comb carries. -/
def State.copiesOn (s : State) (c : Nat) : Bool :=
  s.rings.any fun r => r.2.cmds.any fun x => x.opcode == 0x50 && x.phase == .started && x.comb == some c

/-- Class-0 cells reserved on a comb by any tenant. -/
def State.reservesC0 (s : State) (c : Nat) : Bool := s.settings.tn.any fun p => nth0 p.2.c0Cells c != 0

/-- COMB_REST_ENTRY: an idle comb enters Rest. -/
def execCombRestEntry (t comb : Nat) (s : State) : Host.Outcome State Fault Refusal :=
  run t s fun s =>
    let k := s.comb comb
    s.onlyIf (s.settings.restEn && s.power.phase == .ready && k.svc == .inService && !k.rest && !s.reservesC0 comb && !s.copiesOn comb
        && !(s.segs.any fun g => g.comb == comb && !g.cells.isEmpty) && decide (k.idleSince + s.settings.restIdle * usec ≤ s.now)) fun s =>
      s.updComb comb fun k => { k with rest := true }

end Sys2Proof.Machine
end

