-- ==== Sys2Proof/Machine/FaultCore.lean ====
section
/-! DEFINITION. The start of a comb fault, and what a link loses when its port leaves service (R341, R335, R351, R53, R374). -/

namespace Sys2Proof.Machine

/-! ### Detection and the first steps of a drain (R341) -/

/-- Every instruction and timer of a cell is stopped. -/
def Cell.stop (c : Cell) : Cell := { c with flights := [], timers := [], latches := [], closing := [] }

/-- A run stopped by a drain: it keeps its cells until it is classified. -/
def State.stopRun (s : State) (g : SegRun) : State :=
  (g.cells.foldl (fun s c => s.updCell c Cell.stop) s).updSeg g.id fun x => { x with phase := .drained }

/-- Stops the gang of a run that was on the faulted comb: a gang of which nothing has started waits again as a first dispatch. -/
def State.drainGang (s : State) (g : SegRun) : State :=
  let members := s.segs.filter fun x => g.gangOf x && !x.cells.isEmpty
  if members.all fun x => x.phase == .placed then s.requeueGang g id
  else members.foldl (fun s x => s.stopRun x) s

/-- A comb that is in service, or at rest for heat, and can fault. -/
def CombSvc.live : CombSvc → Bool
  | .inService | .thermalRest => true
  | _ => false

/-- A comb fault: the comb drains, the fault is counted and logged, and the class-0 bound is suspended (R335, R341, R351). -/
def State.faultComb (s : State) (c source cell : Nat) : State :=
  if !(s.comb c).svc.live then s
  else
    let s := s.updComb c fun k => { k with svc := .draining, suspended := true, faults := min 3 (k.faults + 1) }
    let s := { s with log := { s.log with combFaults := capAt 0xFFFF (s.log.combFaults + 1) } }
    let s := s.logRec Rec.combFault 0 Rec.deviceWide c source cell
    let s := s.logRec Rec.boundSuspended 1 Rec.deviceWide c 1 0
    (s.segs.filter fun g => g.comb == c && !g.cells.isEmpty).foldl (fun s g =>
      match s.seg? g.id with
      | none => s
      | some g => if g.phase = .drained ∨ g.cells.isEmpty then s else s.drainGang g) s

/-- Rows of the comb-fault source table, from 0 (log 45). -/
def Source.memory : Nat := 0
def Source.silence : Nat := 1
def Source.selfCheck : Nat := 2
def Source.isolated : Nat := 3
def Source.shelf : Nat := 4

/-! ### A link leaves service (R306, R311, R374) -/

/-- A port enters a state in which it holds no keys: frames sent and not acknowledged wait to be sent again, those of this link alone are dropped. -/
def Port.unkey (p : Port) (st : LinkState) (now : Nat) : Port :=
  { Port.fresh with
    state := st, since := now, peerId := p.peerId, tagFails := p.tagFails, rekeys := p.rekeys, light := p.light
    queue := (p.unacked ++ p.queue).filter fun f => f.kind == .relayed }

/-- What the peer of a port advertised goes when the port leaves LIVE; a device whose parent it was holds its rate (R321, R323). -/
def State.dropAdvert (s : State) (p : Nat) : State :=
  let w := { s.waggle with adverts := Tbl.del s.waggle.adverts p }
  { s with waggle := if w.parent = some p then { w with parent := none, noParentAt := some s.now, offsets := [], inBound := 0 } else w }

/-- A port goes to a state without keys. -/
def State.unkeyPort (s : State) (p : Nat) (st : LinkState) : State := (s.updPort p fun x => x.unkey st s.now).dropAdvert p

/-- Edge die of a port. -/
def portDie (p : Nat) : Nat := p / 16

end Sys2Proof.Machine
end

