-- ==== Sys2Proof/Machine/LanesOps.lean ====
section
/-! DEFINITION. Lane repair: replays, retraining, test results, widths, and the isolation of die pairs (R45 to R57). -/

namespace Sys2Proof.Machine

def bundleCount : Nat := 120

/-! ### Width of a direction (R48, R50, R51) -/

/-- Lanes of a direction that cannot be used. -/
def Direction.unusable (d : Direction) : Nat := ((List.range 18).filter fun i => bitOf (d.fusedOut ||| d.testFail) i).length

/-- The width that f unusable lanes leave. -/
def widthOf (f : Nat) : DirState := if f ≤ 2 then .full else if f ≤ 10 then .half else .failed

/-- Lanes that can be used, in ascending order. -/
def Direction.good (d : Direction) : List Nat := (List.range 18).filter fun i => !bitOf (d.fusedOut ||| d.testFail) i

/-- Lanes that carry traffic: data lanes, then the spares that replace the failed ones, at full width; the eight lowest good lanes at half width (R51). -/
def Direction.inUse (d : Direction) : List Nat :=
  match d.state with
  | .full => d.good.take 16
  | .half => d.good.take 8
  | .failed | .retraining => []

/-- SPARES_FREE: good spares not in use. -/
def Direction.sparesFree (d : Direction) : Nat := (d.good.filter fun i => decide (16 ≤ i) && !d.inUse.contains i).length

/-! ### Die pairs (R46, R53) -/

/-- Bundles of the die pair that holds bundle b: first, and how many. -/
def pairOf (b : Nat) : Nat × Nat :=
  if b < 64 then (b / 16 * 16, 16) else if b < 96 then (64 + (b - 64) / 8 * 8, 8) else (96 + (b - 96) / 12 * 12, 12)

/-- Whether every direction of one sense of bundle b's pair has failed. -/
def State.senseLost (s : State) (b d : Nat) : Bool :=
  (List.range (pairOf b).2).all fun i => (s.dir ((pairOf b).1 + i) d).state == .failed

/-- A lane event: its DL_EVENT bit is set, and the record names bundle and direction (R57). -/
def State.laneEvent (s : State) (b d bit : Nat) : State :=
  let l := s.lanes
  let l := if bit = 1 then { l with degraded := true } else if bit = 2 then { l with failedEv := true }
    else if bit = 4 then { l with retrained := true } else { l with isolated := true }
  State.logRec { s with lanes := l } Rec.lane 0 Rec.deviceWide (2 * b + d) bit 0

/-- An edge die is isolated: its 16 ports are held DARK. -/
def State.isolateEdge (s : State) (e : Nat) : State :=
  let s := { s with lanes := { s.lanes with edgeIsolated := if s.lanes.edgeIsolated.contains e then s.lanes.edgeIsolated else e :: s.lanes.edgeIsolated } }
  (List.range 16).foldl (fun s i => s.unkeyPort (16 * e + i) .dark) s

/-- A comb is isolated; in service its loss is a comb fault, otherwise the comb is out of service without one. -/
def State.isolateComb (s : State) (c : Nat) (service : Bool) : State :=
  let s := { s with lanes := { s.lanes with combIsolated := if s.lanes.combIsolated.contains c then s.lanes.combIsolated else c :: s.lanes.combIsolated } }
  if service then s.faultComb c Source.isolated 0xFFFF else s.updComb c fun k => { k with svc := .isolated }

/-- What follows when the pair of bundle b has just lost a sense (R53). -/
def State.loseSense (s : State) (b d : Nat) (service : Bool) : State :=
  let s := s.laneEvent b d 8
  if b < 64 then s.isolateComb (b / 16) service
  else if b < 96 then s
  else s.isolateEdge ((b - 96) / 12)

/-- A direction takes a width; half width and failure are events. -/
def State.setWidth (s : State) (b d : Nat) (w : DirState) : State :=
  let s := s.updDir b d fun x => { x with state := w }
  if w = .half then s.laneEvent b d 1 else if w = .failed then s.laneEvent b d 2 else s

/-- The result of a lane test of one direction (R49, R50, R54). -/
def State.testDirection (s : State) (b d mask : Nat) : State :=
  let s := s.updDir b d fun x => { x with testFail := mask % 2 ^ 18, recent := [] }
  s.setWidth b d (widthOf (s.dir b d).unusable)

/-- The mask that a list of results gives for a direction; a direction not listed has no failing lane. -/
def maskOf (fails : List (Nat × Nat × Nat)) (b d : Nat) : Nat :=
  ((fails.find? fun f => f.1 == b && f.2.1 == d).map (·.2.2)).getD 0

/-- A test of every direction of bundles lo to lo + n - 1, and the isolation of the pairs it leaves without a sense. -/
def State.testBundles (s : State) (lo n : Nat) (fails : List (Nat × Nat × Nat)) : State :=
  let bs := (List.range n).map (lo + ·)
  let s := bs.foldl (fun s b => (s.testDirection b 0 (maskOf fails b 0)).testDirection b 1 (maskOf fails b 1)) s
  bs.foldl (fun s b =>
    if (pairOf b).1 = b then
      [0, 1].foldl (fun s d => if s.senseLost b d then s.loseSense b d false else s) s
    else s) s

/-! ### In service (R54) -/

/-- FLIT_REPLAY: a direction in use replays a flit. -/
def execFlitReplay (t bundle dir : Nat) (s : State) : Host.Outcome State Fault Refusal :=
  run t s fun s =>
    let d := s.dir bundle dir
    s.onlyIf (decide (bundle < bundleCount ∧ dir < 2) && (d.state == .full || d.state == .half)) fun s =>
      s.updDir bundle dir fun x => { x with
        replays := capAt 0xFFFF (x.replays + 1)
        recent := s.now :: x.recent.filter fun r => decide (s.now < r + msec) }

/-- LANE_RETRAIN: more than 256 replays within 1 ms; the fifth trigger since the start marks the direction failed. -/
def execLaneRetrain (t bundle dir : Nat) (s : State) : Host.Outcome State Fault Refusal :=
  run t s fun s =>
    let d := s.dir bundle dir
    s.onlyIf (decide (bundle < bundleCount ∧ dir < 2) && (d.state == .full || d.state == .half) && decide (256 < d.recent.length)) fun s =>
      if 4 ≤ d.retrains then
        let s := s.setWidth bundle dir .failed
        if s.senseLost bundle dir then s.loseSense bundle dir true else s
      else s.updDir bundle dir fun x => { x with state := .retraining, retrains := x.retrains + 1, recent := [] }

/-- RETRAIN_TEST_DONE: the direction resumes at its new width. -/
def execRetrainTestDone (t bundle dir failMask : Nat) (s : State) : Host.Outcome State Fault Refusal :=
  run t s fun s => s.onlyIf ((s.dir bundle dir).state == .retraining) fun s =>
    let s := (s.laneEvent bundle dir 4).testDirection bundle dir failMask
    if s.senseLost bundle dir then s.loseSense bundle dir true else s

end Sys2Proof.Machine
end

