-- ==== Sys2Proof/Machine/CombFault.lean ====
section
/-! DEFINITION. Comb faults: detection, the end of the drain with its replays and failures, and the end of the comb reset (R341 to R347). -/

namespace Sys2Proof.Machine

/-- COMB_FAULT: a fault detected on a comb; `source` is its row in the comb-fault table, `cell` the linear cell or 0xFFFF. -/
def execCombFault (t comb source cell : Nat) (s : State) : Host.Outcome State Fault Refusal :=
  run t s fun s => s.onlyIf (decide (comb < 4)) fun s => s.faultComb comb source cell

/-- HEARTBEAT_TIMEOUT: no heartbeat of the sequencer for 300 µs. -/
def execHeartbeatTimeout (t comb : Nat) (s : State) : Host.Outcome State Fault Refusal :=
  run t s fun s => s.onlyIf (decide (comb < 4)) fun s => s.faultComb comb Source.silence 0xFFFF

/-! ### The end of the drain (R342 to R345) -/

/-- Whether a drained gang may be replayed: every member is idempotent, none has been replayed twice, and a comb is in service for it. -/
def State.replayable (s : State) (g : SegRun) : Bool :=
  (s.segs.filter g.gangOf).all fun x =>
    x.fail.isNone && (s.runDef x).any (·.idempotent) && decide (x.replays < 2) && (s.combFor (s.namedComb x)).isSome

/-- Classifies a drained run with its gang: replay, or the failure of its EVAL. A run of an EVAL that has failed already goes. -/
def State.classify (s : State) (comb : Nat) (g : SegRun) : State :=
  if g.fail.isSome then (((s.releaseCells g.cells).unrefSeg g.id).dropSeg g.id).afterRun g
  else if s.replayable g then s.requeueGang g fun x => { x with replay := true, replays := x.replays + 1 }
  else s.failEval g.ten g.lring g.seq (St.combFault, comb)

/-- A copy that the comb's forager carried runs again from its start on a substitute (R345). -/
def State.moveCopies (s : State) (comb : Nat) : State :=
  s.rings.foldl (fun s r => r.2.cmds.foldl (fun s c =>
    if c.opcode = 0x50 ∧ c.phase = .started ∧ c.comb = some comb then
      let ten := r.1 / 256
      let lring := r.1 % 256
      match s.combFor comb with
      | none => s.finish ten lring c.seq (St.combFault, comb)
      | some k =>
        let s := s.updCmd ten lring c.seq fun c => { c with comb := some k, replayed := true }
        State.logRec { s with log := { s.log with replays := capAt 0xFFFF (s.log.replays + 1) } } Rec.replay 0 ten k (c.seq % 2 ^ 32) lring
    else s) s) s

/-- A model load that was pinning weights on the comb fails (R345). -/
def State.failLoads (s : State) (comb : Nat) : State :=
  s.rings.foldl (fun s r => r.2.cmds.foldl (fun s c =>
    match c.phase, c.load, Tbl.look (s.ten (r.1 / 256)).models (c.handle 0) with
    | .started, some id, some m =>
      match Tbl.look m.loading id with
      | some g =>
        if c.opcode = 0x04 ∧ g.home = comb ∧ g.pinned then
          (s.dropLoad (r.1 / 256) (c.handle 0) id g).finish (r.1 / 256) (r.1 % 256) c.seq (St.combFault, comb)
        else s
      | none => s
    | _, _, _ => s) s) s

/-- COMB_DRAIN_COMPLETE: what ran on the comb is replayed or fails, and the comb is reset (R342). -/
def execCombDrainComplete (t comb : Nat) (s : State) : Host.Outcome State Fault Refusal :=
  run t s fun s => s.onlyIf ((s.comb comb).svc == .draining) fun s =>
    let s := (s.segs.filter fun g => g.comb == comb && g.phase == .drained).foldl (fun s g =>
      match s.seg? g.id with
      | none => s
      | some g => if g.phase = .drained then s.classify comb g else s) s
    ((s.moveCopies comb).failLoads comb).updComb comb fun k => { k with svc := .resetting }

/-! ### The end of the reset (R346) -/

/-- Bundles that join a comb: to the hive, and to its two ring neighbours. -/
def combBundles (c : Nat) : List (Nat × Nat) := [(16 * c, 16), (64 + 8 * c, 8), (64 + 8 * ((c + 3) % 4), 8)]

/-- A comb's cells are zero; those in a reservation stand scrubbed for their tenant (R330). -/
def State.zeroCells (s : State) (c : Nat) : State :=
  let s := { s with cells := s.cells.filter fun x => combOf x.1 != c }
  let s := (s.comb c).reserved.foldl (fun s r => s.updCell r.1 fun x => { x with lastTen := some r.2.1 }) s
  s.updComb c fun k => { k with reserved := k.reserved.map fun r => (r.1, r.2.1, true) }

/-- Shelves after a reset: cached runs are gone, pinned runs are reloaded from DRAM. -/
def Comb.reloadPins (k : Comb) : Comb :=
  { k with shelves := (k.shelves.filter fun r => !r.isCached).map fun r => { r with refs := [] } }

/-- A run that was yielded on a comb that does not return: it restarts elsewhere or its EVAL fails. -/
def State.moveYielded (s : State) (comb : Nat) : State :=
  (s.segs.filter fun g => g.comb == comb && g.phase == .yielded).foldl (fun s g =>
    match s.seg? g.id with
    | none => s
    | some g => if g.phase = .yielded then s.classify comb g else s) s

/-- COMB_RESET_COMPLETE: lane test, cleared shelves and scrubbed cells; the comb returns to service, unless this was its third fault or it is isolated (R346, R53). -/
def execCombResetComplete (t comb : Nat) (testFail : List (Nat × Nat × Nat)) (s : State) : Host.Outcome State Fault Refusal :=
  run t s fun s => s.onlyIf ((s.comb comb).svc == .resetting) fun s =>
    let s := (combBundles comb).foldl (fun s b => s.testBundles b.1 b.2 testFail) s
    let s := s.zeroCells comb
    let svc (k : Comb) : CombSvc :=
      if s.lanes.combIsolated.contains comb then .isolated else if 3 ≤ k.faults then .outUntilStart else .inService
    let s := s.updComb comb fun k =>
      { k.reloadPins with svc := svc k, suspended := false, rest := false, idleSince := s.now, seeded := false, drawn := 0,
                          stopped := [none, none, none, none] }
    let s := s.logRec Rec.boundSuspended 2 Rec.deviceWide comb 1 0
    if (s.comb comb).svc = .inService then s else s.moveYielded comb

end Sys2Proof.Machine
end

