-- ==== Sys2Proof/Machine/DramErr.lean ====
section
/-! DEFINITION. DRAM errors, shelf errors, patrol scrub, and the scrub of freed pages (R44, R113, R348 to R350). -/

namespace Sys2Proof.Machine

/-- DRAM_CORRECTED: a single-symbol error is corrected, counted and logged (R44, R351). -/
def execDramCorrected (t dpa : Nat) (s : State) : Host.Outcome State Fault Refusal :=
  run t s fun s => s.onlyIf (decide (dpa < dramPages * pageBytes)) fun s =>
    State.logRec { s with log := { s.log with dramCe := capAt 0xFFFF (s.log.dramCe + 1) } }
      Rec.dramCe 0 Rec.deviceWide (stackOf s.dram.localGib dpa).1 dpa 0

/-- The count and the record of an uncorrectable error. ARG1 names object kind and handle in a form that the manual does not give: a free value. -/
def State.logUncorrectable (s : State) (ten dpa : Nat) : State :=
  let q := s.takeFree
  State.logRec { q.2 with log := { q.2.log with dramUe := capAt 0xFFFF (q.2.log.dramUe + 1) } }
    Rec.dramUe 0 ten (stackOf s.dram.localGib dpa).1 dpa (q.1 % 2 ^ 64)

/-- Fails every started EVAL of a tenant that a test picks. -/
def State.failEvals (s : State) (ten : Nat) (p : Eval → Bool) : State :=
  s.rings.foldl (fun s r =>
    if r.1 / 256 = ten then
      r.2.cmds.foldl (fun s c =>
        if c.phase == .started && c.eval.any p then s.failEval ten (r.1 % 256) c.seq (St.memoryUncorrectable, 0) else s) s
    else s) s

/-- Key sets that lie in an object are invalidated, and the EVALs using them fail. -/
def State.hitKeysets (s : State) (ten obj : Nat) : State :=
  let hit := ((s.ten ten).keysets.filter fun k => k.2.obj == obj).map (·.1)
  let s := s.updTen ten fun x => { x with keysets := x.keysets.map fun k => (k.1, if k.2.obj = obj then { k.2 with invalid := true } else k.2) }
  s.failEvals ten fun v => hit.contains v.keyset

/-- Generations, ready or loading, that lie in an object are damaged, and the EVALs on them fail. -/
def State.hitWeights (s : State) (ten obj : Nat) : State :=
  let damage (g : Nat × Gen) : Nat × Gen := (g.1, if g.2.obj = obj then { g.2 with damaged := true } else g.2)
  let hit := (s.ten ten).models.flatMap fun m => (m.2.gens.filter fun g => g.2.obj == obj).map fun g => (m.1, g.1)
  let s := s.updTen ten fun x => { x with models := x.models.map fun m =>
    (m.1, { m.2 with gens := m.2.gens.map damage, loading := m.2.loading.map damage }) }
  s.failEvals ten fun v => hit.contains (v.model, v.gen)

/-- A gateway slot is invalidated until it is erased. -/
def invalidateGw (hit : Nat → GwSlot → Bool) (x : Tenant) : Tenant :=
  { x with gwSlots := x.gwSlots.map fun g => (g.1, if hit g.1 g.2 then { g.2 with invalid := true } else g.2) }

/-- Poisons blocks (R348). -/
def Dram.poisonBlocks (d : Dram) (bs : List Nat) : Dram := { d with poison := bs.filter (fun b => !d.poison.contains b) ++ d.poison }

/-- What an error does to an object, the blocks hit being given by number (R349). -/
def State.hitObject (s : State) (id : Nat) (o : DramObj) (blocks : List Nat) : State :=
  let s := { s with dram := s.dram.poisonBlocks blocks }
  match o.kind with
  | .keyset => s.hitKeysets o.ten id
  | .weights => s.hitWeights o.ten id
  | .arena => s
  | .gateway => s.updTen o.ten (invalidateGw fun _ g => g.obj == id)

/-- An uncorrectable error in a block, wherever it lies; free memory is logged only. -/
def State.hitBlock (s : State) (dpa : Nat) : State :=
  match s.dram.objs.find? fun o => inExtents o.2.extents (dpa / pageBytes) with
  | some (id, o) => (s.logUncorrectable o.ten dpa).hitObject id o [dpa / 64]
  | none => s.logUncorrectable Rec.deviceWide dpa

/-- DRAM_UNCORRECTABLE (R349). -/
def execDramUncorrectable (t : Nat) (hit : DramHit) (s : State) : Host.Outcome State Fault Refusal :=
  run t s fun s =>
    match hit with
    | .block dpa => s.onlyIf (decide (dpa < dramPages * pageBytes)) fun s => s.hitBlock dpa
    | .pageTable ten page both =>
      match s.dram.mapped ten (page * pageBytes) with
      | none => s
      | some (id, o) =>
        let dpa := (o.dpa (page * pageBytes - o.dva)).getD 0
        let s := s.logUncorrectable ten dpa
        if both then s.hitObject id o ((List.range 64).map fun i => dpa / pageBytes * 64 + i) else s
    | .parked ten lring seq =>
      s.onlyIf ((s.cmd? ten lring seq).any fun c => c.eval.any fun v => v.attempt.isSome) fun s =>
        let q := s.takeFree
        (q.2.logUncorrectable ten (q.1 % (dramPages * pageBytes))).failEval ten lring seq (St.memoryUncorrectable, 0)
    | .gatewaySlot ten slot =>
      let q := s.takeFree
      (q.2.logUncorrectable ten (q.1 % (dramPages * pageBytes))).updTen ten (invalidateGw fun n _ => n == slot)
    | .keySlot ten slot =>
      let q := s.takeFree
      (q.2.logUncorrectable ten (q.1 % (dramPages * pageBytes))).updTen ten fun x =>
        { x with keySlots := x.keySlots.map fun k => (k.1, if k.1 = slot then { k.2 with invalid := true } else k.2) }

/-- SHELF_UNCORRECTABLE: the shelf is reloaded from DRAM; no command fails and nothing else changes (R350). -/
def execShelfUncorrectable (t _comb _shelf : Nat) (s : State) : Host.Outcome State Fault Refusal := run t s id

/-- PATROL_SCRUB: a pass over every stack acts on each block it finds bad (R44, R348). -/
def execPatrolScrub (t : Nat) (bad : List Nat) (s : State) : Host.Outcome State Fault Refusal :=
  run t s fun s => bad.foldl (fun s dpa => if dpa < dramPages * pageBytes then s.hitBlock dpa else s) s

/-- FREED_PAGE_SCRUB_DONE: freed pages have been zeroed and may be allocated again (R113). -/
def execFreedPageScrubDone (t : Nat) (s : State) : Host.Outcome State Fault Refusal :=
  run t s fun s =>
    let d := s.dram.scrubPages (inExtents s.dram.dirty)
    { s with dram := { d with dirty := [] } }

end Sys2Proof.Machine
end

