-- ==== Sys2Proof/Machine/EntropyOps.lean ====
section
/-! DEFINITION. The entropy source, the DRBG, the noise samplers' seeds, and the end of ephemeral keys (R262, R275, R289 to R293). -/

namespace Sys2Proof.Machine

/-- Cutoffs and window of the health tests (R289). -/
def rctCutoff : Nat := 55
def aptCutoff : Nat := 855
def aptWindow : Nat := 1024

/-- Pool credit in thousandths of a bit: what one sample brings, and a full pool (R289, R290). -/
def sampleCredit : Nat := 375
def poolFull : Nat := 384000

/-- The run of the repetition count test with one more sample. -/
def Entropy.nextRun (e : Entropy) (x : Byte) : Nat := if e.last = some x then e.runLen + 1 else 1

/-- Occurrences of the window's first sample with one more sample; a new window begins with it. -/
def Entropy.nextRepeats (e : Entropy) (x : Byte) : Nat :=
  if e.winCount = 0 then 1 else if e.winFirst = x then e.winRepeats + 1 else e.winRepeats

/-- Failures within the last second, with one more. -/
def Entropy.recentFails (e : Entropy) (now : Nat) : List Nat := now :: e.failTimes.filter fun f => decide (now < f + sec)

/-- The source has failed: FAILED stays set until the next cold start. -/
def Entropy.fail (e : Entropy) : Entropy := { e with failed := true, evFailed := true }

/-- A continuous test has failed: the sample is discarded and the credit falls to zero; during the start-up test that test has failed too and starts again. -/
def Entropy.testFailed (e : Entropy) (now : Nat) (rct apt : Bool) : Entropy :=
  let times := e.recentFails now
  let starts := if e.startupOk then e.startupFails else e.startupFails + 1
  let n : Entropy := { e with
    poolMilli := 0, evRct := e.evRct || rct, evApt := e.evApt || apt, evStartup := e.evStartup || !e.startupOk
    rctFails := capAt 0xFFFF (e.rctFails + b2n rct), aptFails := capAt 0xFFFF (e.aptFails + b2n apt)
    startupCount := 0, startupFails := starts, last := none, runLen := 0, winCount := 0, winRepeats := 0, failTimes := times }
  if 16 ≤ times.length ∨ (!e.startupOk ∧ 3 ≤ starts) then n.fail else n

/-- A sample that passes both tests is credited to the pool. -/
def Entropy.testPassed (e : Entropy) (x : Byte) : Entropy :=
  let count := if e.startupOk then 0 else e.startupCount + 1
  let done := e.startupOk || decide (aptWindow ≤ count)
  { e with
    poolMilli := min poolFull (e.poolMilli + sampleCredit), startupOk := done, startupCount := if done then 0 else count
    startupFails := if done then 0 else e.startupFails, last := some x, runLen := e.nextRun x
    winFirst := if e.winCount = 0 then x else e.winFirst, winRepeats := e.nextRepeats x
    winCount := if e.winCount + 1 = aptWindow then 0 else e.winCount + 1 }

/-- One raw sample. -/
def Entropy.sample (e : Entropy) (now : Nat) (x : Byte) : Entropy :=
  let rct := decide (rctCutoff ≤ e.nextRun x)
  let apt := decide (aptCutoff ≤ e.nextRepeats x)
  if e.failed then e else if rct || apt then e.testFailed now rct apt else e.testPassed x

/-- ENTROPY_SAMPLE: the health tests and the pool (R289). -/
def execEntropySample (t : Nat) (sample : Byte) (s : State) : Host.Outcome State Fault Refusal :=
  run t s fun s => { s with entropy := s.entropy.sample s.now sample }

/-- DRBG_SEEDED: a full pool that has passed the start-up test seeds the DRBG (R290). -/
def execDrbgSeeded (t : Nat) (s : State) : Host.Outcome State Fault Refusal :=
  run t s fun s =>
    let e := s.entropy
    s.onlyIf (!e.seeded && !e.failed && e.startupOk && decide (poolFull ≤ e.poolMilli)) fun s =>
      { s with entropy := { e with seeded := true, seedTime := s.now, poolMilli := 0, requests := 0, reseeding := false } }

/-- DRBG_RESEED: a reseed that waits for its pool completes (R291, R293). -/
def execDrbgReseed (t : Nat) (s : State) : Host.Outcome State Fault Refusal :=
  run t s fun s =>
    let e := s.entropy
    s.onlyIf (e.seeded && e.reseeding && !e.failed && decide (poolFull ≤ e.poolMilli)) fun s =>
      { s with entropy := { e with poolMilli := 0, requests := 0, reseeding := false } }

/-- The combs are powered: from PHASE LANES on. -/
def Phase.combsOn : Phase → Bool
  | .lanes | .workers | .dram | .scrub | .ready => true
  | .rom | .queen | .failed => false

/-- Bytes and time after which a sampler takes a new seed (R262). -/
def samplerBytes : Nat := 2 ^ 30

/-- NOISE_RESEED: a comb's sampler takes its first seed, or a new one (R262); a request that the DRBG cannot serve waits. -/
def execNoiseReseed (t comb : Nat) (s : State) : Host.Outcome State Fault Refusal :=
  run t s fun s =>
    let k := s.comb comb
    s.onlyIf (decide (comb < 4) && s.power.phase.combsOn && s.canServe
        && (!k.seeded || decide (samplerBytes ≤ k.drawn) || decide (k.seededAt + sec ≤ s.now))) fun s =>
      State.updComb { s with entropy := s.entropy.request, draws := s.draws + 1 } comb fun k => { k with seeded := true, seededAt := s.now, drawn := 0 }

/-- EPH_KEY_EXPIRE: an ephemeral key ends at EPH_EXPIRES (R275). -/
def execEphKeyExpire (t ten ephId : Nat) (s : State) : Host.Outcome State Fault Refusal :=
  run t s fun s => s.updTen ten fun x => { x with ephs := x.ephs.filter fun k => !(k.id == ephId && decide (k.expires ≤ s.now)) }

end Sys2Proof.Machine
end

