-- ==== Sys2Proof/Machine/LinkCore.lean ====
section
/-! DEFINITION. What every link command shares: descriptors, link keys, sending one frame, quarantine, training (R304 to R317). -/

namespace Sys2Proof.Machine

/-! ### The swarm descriptor (R312) -/

def descriptorMagic : List Byte := toLE 4 0x4457534C

/-- FW_DIGEST: SHA-384 of MEAS[0] to MEAS[6]. -/
def State.fwDigest (s : State) : List Byte := sha384 (s.sec.meas.take 7).flatten

def State.descriptor (s : State) (c : SwarmCfg) (port : Nat) (rekey : Bool) (priv : Nat) (nonce : List Byte) : List Byte :=
  descriptorMagic ++ toLE 1 1 ++ toLE 1 (b2n rekey) ++ toLE 2 c.deviceId ++ toLE 8 s.fuses.serial ++ toLE 8 c.swarmId
    ++ toLE 2 s.waggleEpoch ++ toLE 1 port ++ zeros 5 ++ s.fwDigest ++ c.digest ++ p384.xyBytes (p384.mul priv p384.g) ++ nonce
    ++ toLE 8 s.now ++ zeros 56

def descRekey (d : List Byte) : Bool := bitOf (byteAt d 5) 0
def descId (d : List Byte) : Nat := fld d 6 2
def descSerial (d : List Byte) : Nat := fld d 8 8
def descPort (d : List Byte) : Nat := byteAt d 0x1A
def descPub (d : List Byte) : List Byte := slice d 0x80 96
def descNonce (d : List Byte) : List Byte := slice d 0xE0 32

/-- REASON codes (R325). -/
def Reason.firmware : Nat := 1
def Reason.config : Nat := 2
def Reason.swarm : Nat := 3
def Reason.epoch : Nat := 4
def Reason.wiring : Nat := 5
def Reason.attest : Nat := 6
def Reason.keyExhausted : Nat := 7

/-- A descriptor of the form of R312 that passes check 1 of R313. -/
def peerSigned (ours d certs sigs : List Byte) : Bool :=
  d.length == 320 && d.take 4 == descriptorMagic && byteAt d 4 == 1 && Config.peerAttests certs (d ++ descNonce ours) sigs

/-- The checks of R313, in order: the REASON of the first that fails, 0 where all hold. -/
def State.attestReason (s : State) (c : SwarmCfg) (port : Nat) (ours d certs sigs : List Byte) : Nat :=
  if !peerSigned ours d certs sigs then Reason.attest
  else if (p384.xyPoint (descPub d)).isNone then Reason.attest
  else if c.serials[descId d]? ≠ some (descSerial d) ∨ c.peer port ≠ some (descId d, descPort d) then Reason.wiring
  else if fld d 0x10 8 ≠ c.swarmId then Reason.swarm
  else if slice d 0x50 48 ≠ c.digest then Reason.config
  else if slice d 0x20 48 ≠ s.fwDigest then Reason.firmware
  else if fld d 0x18 2 ≠ s.waggleEpoch then Reason.epoch
  else 0

/-- The link keys of R314: sending key, receiving key. -/
def linkKeys (priv : Nat) (ours d : List Byte) : DirKey × DirKey :=
  let z := p384.ecdh priv ((p384.xyPoint (descPub d)).getD (0, 0))
  let up := decide (descId ours < descId d)
  let lo := if up then ours else d
  let hi := if up then d else ours
  let info := ascii "LUMREL-BALEL-LINK" ++ toLE 2 (descId lo) ++ toLE 2 (descId hi)
  let okm := hkdf384 z (sha384 (lo ++ hi)) info 72
  let kUp : DirKey := { key := slice okm 0 32, salt := slice okm 64 4 }
  let kDown : DirKey := { key := slice okm 32 32, salt := slice okm 68 4 }
  if up then (kUp, kDown) else (kDown, kUp)

/-! ### Frames of this link alone (R304, R307) -/

/-- Header of a frame that goes to the peer of a port and no further. -/
def State.linkHeader (s : State) (port type vc len off : Nat) : List Byte :=
  match s.settings.swarm with
  | none => frameHeader type vc 0 0 0 [] len 0 0 0 off
  | some c => frameHeader type vc 0 c.deviceId ((c.peer port).elim 0 (·.1)) [port] len 0 0 0 off

/-- The frames of bytes cut at 4,096: header and payload of each. -/
def State.linkFrames (s : State) (port type vc : Nat) (bytes : List Byte) : List (List Byte × List Byte) :=
  let parts := chunks 4096 bytes.length bytes
  ((List.range parts.length).zip parts).map fun p => (s.linkHeader port type vc p.2.length (4096 * p.1), p.2)

/-- Sends bytes in attestation frames, which carry no key. -/
def State.sendAttestation (s : State) (port : Nat) (bytes : List Byte) : State :=
  (s.linkFrames port 5 4 bytes).foldl (fun s f => s.emit (.frame port (f.1 ++ f.2))) s

/-- Fills COUNTER and KEY_PHASE into a header. -/
def stamp (h : List Byte) (counter phase : Nat) : List Byte :=
  h.take 2 ++ toLE 1 (byteAt h 2 / 2 * 2 + phase) ++ (h.drop 3).take 5 ++ toLE 8 counter ++ h.drop 16

/-- Frames after which a direction sends nothing more under its key (R317). -/
def keyLimit : Nat := 2 ^ 44

/-- Sends one frame under the sending key of a port, unless that key is used up (R306, R307, R315, R317). -/
def State.sendSealed (s : State) (port : Nat) (header payload : List Byte) : State :=
  let p := s.port port
  match p.tx with
  | none => s
  | some k => s.onlyIf (decide (p.txCounter < keyLimit)) fun s =>
    let h := stamp header p.txCounter p.keyPhase
    let c := gcmEncrypt k.key (k.salt ++ toLE 8 p.txCounter) h payload
    (s.emit (.frame port (h ++ c.1 ++ c.2))).updPort port fun p => { p with txCounter := p.txCounter + 1 }

/-- A link-local frame or KEY_CONFIRM whose payload the manual does not give (log 2). -/
def State.sendFreePayload (s : State) (port type vc : Nat) : State :=
  let body := Config.freeBytes s.free
  (s.skipFrees 1).sendSealed port (s.linkHeader port type vc body.length 0) body

/-- A credit and acknowledgement frame. -/
def State.sendCredit (s : State) (port : Nat) : State := s.sendFreePayload port 2 4

/-! ### Attestation (R312, R292) -/

/-- A fresh descriptor of this side, with its ephemeral key and nonce. -/
def State.drawDescriptor (s : State) (c : SwarmCfg) (port : Nat) (rekey : Bool) : State :=
  let a := s.takeBytes 48
  let b := a.2.takeBytes 32
  let priv := 1 + leNat a.1 % (p384.n - 1)
  b.2.updPort port fun p => { p with ourPriv := priv, ourDesc := s.descriptor c port rekey priv b.1, peerNonce := [] }

/-- The certificates that follow a descriptor. -/
def deviceCerts : List Byte := (List.range 4).flatMap Config.certificate

/-- Draws and sends this side's descriptor and certificates where none is out; held while the DRBG cannot serve (R292). -/
def State.attest (s : State) (port : Nat) : State :=
  match s.settings.swarm with
  | none => s
  | some c =>
    if !(s.port port).ourDesc.isEmpty || !s.canServe then s
    else
      let s := s.drawDescriptor c port false
      s.sendAttestation port ((s.port port).ourDesc ++ deviceCerts)

/-- The two signatures over this side's descriptor followed by the peer's nonce. -/
def State.attestSignatures (s : State) (port : Nat) (nonce : List Byte) : List Byte × State :=
  let msg := (s.port port).ourDesc ++ nonce
  let a := s.takeBytes 48
  let b := a.2.takeBytes 32
  (slice (Config.identityEcdsa msg (leNat a.1)) 0 96 ++ slice (Config.identityMldsa msg (leNat b.1)) 0 3309, b.2)

/-- Answers the nonce of the peer's descriptor with the signatures, once. -/
def State.answerNonce (s : State) (port : Nat) (nonce : List Byte) : State :=
  let p := s.port port
  if p.ourDesc.isEmpty ∨ p.peerNonce = nonce then s
  else
    let q := s.attestSignatures port nonce
    (q.2.sendAttestation port q.1).updPort port fun p => { p with peerNonce := nonce }

/-- A link goes to ATTESTING and sends its attestation. -/
def State.toAttesting (s : State) (port : Nat) : State := (s.unkeyPort port .attesting).attest port

/-! ### Quarantine and training -/

/-- A link goes to QUARANTINED with a REASON; frames of C0 to C3 and management wait. -/
def State.quarantine (s : State) (port reason : Nat) : State :=
  let first := (s.port port).state != .quarantined
  let s := (s.unkeyPort port .quarantined).updPort port fun p => { p with reason := reason }
  if first then { s with fabric := { s.fabric with evQuarantined := true } } else s

/-- Whether a port may leave DARK (R311, R299, R302, R53, R368). -/
def State.mayTrain (s : State) (port : Nat) : Bool :=
  let p := s.port port
  p.light && p.retryAt.isNone && !(s.portSet port).holdDark && (s.settings.swarm.bind fun c => c.peer port).isSome
    && s.power.phase == .ready && s.power.pf != .deepRest && !s.lanes.edgeIsolated.contains (portDie port)

/-- A DARK port that may train does. -/
def State.tryTrain (s : State) (port : Nat) : State :=
  if (s.port port).state = .dark ∧ s.mayTrain port then s.unkeyPort port .training else s

def State.tryTrainAll (s : State) : State := (List.range 32).foldl (fun s p => s.tryTrain p) s

end Sys2Proof.Machine
end

