-- ==== Sys2Proof/Machine/FabricOps.lean ====
section
/-! DEFINITION. Fabric messages at their receiver and answers at their sender (R308 to R310, R318). -/

namespace Sys2Proof.Machine

/-- The buffers that hold a message's frames let them go. -/
def State.releaseHeld (s : State) (m : FabricMsg) : State := m.held.foldl (fun s p => s.sendCredit p) s

def State.dropMsg (s : State) (m : FabricMsg) : State :=
  { s with fabric := { s.fabric with inbox := s.fabric.inbox.filter fun x => x.id != m.id } }

/-- The whole message is written at DST_OFFSET of the session's arena, and its range is taken until RECV_SEG starts. -/
def State.landMsg (s : State) (e : Edge) (x : Session) (m : FabricMsg) : State :=
  let s := m.got.foldl (fun s g => s.writeObj x.arena (e.dstOffset + g.1) g.2) s
  { s with fabric := { s.fabric with
      landed := (m.ten, m.session, m.edge, m.position) :: s.fabric.landed
      occupied := (m.ten, m.session, m.edge) :: s.fabric.occupied } }

/-- The open session that a message names. -/
def State.msgSession (s : State) (m : FabricMsg) : Option Session :=
  (Tbl.look (s.ten m.ten).sessions m.session).filter (·.active)

/-- FABRIC_MESSAGE_LAND: a message is admitted once its range is free, lands once it is whole, and is acknowledged. One that has landed before is acknowledged and discarded; one without a session is refused. -/
def execFabricMessageLand (t msg : Nat) (s : State) : Host.Outcome State Fault Refusal :=
  run t s fun s =>
    match s.fabric.inbox.find? fun m => m.id == msg with
    | none => s
    | some m =>
      match (s.settings.swarm.bind fun c => c.edges.find? fun e => e.edge == m.edge), s.msgSession m with
      | none, _ => (s.dropMsg m).releaseHeld m
      | some _, none => ((s.dropMsg m).releaseHeld m).sendMgmt m.src
      | some e, some x =>
        if s.fabric.landed.contains (m.ten, m.session, m.edge, m.position) then
          if m.complete then ((s.dropMsg m).releaseHeld m).sendMgmt m.src else s
        else if s.fabric.occupied.contains (m.ten, m.session, m.edge) then s
        else if m.complete then (((s.landMsg e x m).dropMsg m).releaseHeld m).sendMgmt m.src
        else { s.releaseHeld m with fabric := { (s.releaseHeld m).fabric with
                 inbox := (s.releaseHeld m).fabric.inbox.map fun y => if y.id = m.id then { y with held := [] } else y } }

/-- FABRIC_ACK_RECEIVE: the receiver has acknowledged the whole message; the final completion no longer waits for it. -/
def execFabricAckReceive (t ten lring seq edge : Nat) (s : State) : Host.Outcome State Fault Refusal :=
  run t s fun s => s.updEval ten lring seq fun v =>
    { v with sends := v.sends.map fun x => if x.edge = edge then { x with admitted := true, acked := true } else x }

/-- ROUTE_FAILURE_NOTICE: a hop of the route had no LIVE port; the sending EVAL fails, and the device that found it is logged (R318). -/
def execRouteFailureNotice (t ten lring seq edge port device : Nat) (mismatch : Bool) (s : State) : Host.Outcome State Fault Refusal :=
  run t s fun s =>
    match (s.cmd? ten lring seq).bind (·.eval) with
    | none => s
    | some v => s.onlyIf (v.sends.any fun x => x.edge == edge && !x.acked) fun s =>
      (s.logRec Rec.fabric 0 ten port device edge).failEval ten lring seq
        (if mismatch then St.swarmMismatch else St.linkQuarantined, port)

end Sys2Proof.Machine
end

