-- ==== Sys2Proof/Machine/FirmwareCore.lean ====
section
/-! DEFINITION. Slots, image checks, boot selection and the settings book (R384 to R400, R410, R108). -/

namespace Sys2Proof.Machine

/-! ### Results (R401) -/

def Fw.ok : Nat := 0x00
def Fw.locked : Nat := 0x01
def Fw.c0Active : Nat := 0x02
def Fw.holdupLow : Nat := 0x03
def Fw.tooHot : Nat := 0x04
def Fw.frozen : Nat := 0x05
def Fw.svnLow : Nat := 0x06
def Fw.busyXip : Nat := 0x07
def Fw.header : Nat := 0x08
def Fw.hwType : Nat := 0x09
def Fw.stepping : Nat := 0x0A
def Fw.unit : Nat := 0x0B
def Fw.sbRange : Nat := 0x0C
def Fw.signature : Nat := 0x0D
def Fw.readFault : Nat := 0x0E
def Fw.state : Nat := 0x0F
def Fw.busy : Nat := 0x10
def Fw.verify : Nat := 0x11
def Fw.aborted : Nat := 0x12

/-- Boot states (R401). -/
def Boot.empty : Nat := 0
def Boot.staged : Nat := 1
def Boot.trial : Nat := 2
def Boot.committed : Nat := 3
def Boot.rejected : Nat := 4
def Boot.superseded : Nat := 5

/-! ### Slots and the hold-up store -/

def Firmware.slot (f : Firmware) (k : Nat) : FwSlot := if k = 0 then f.slotA else f.slotB

def Firmware.updSlot (f : Firmware) (k : Nat) (g : FwSlot → FwSlot) : Firmware :=
  if k = 0 then { f with slotA := g f.slotA } else { f with slotB := g f.slotB }

/-- HOLDUP_COMMITS: commits that the hold-up store can fund (R410). -/
def Elec.commits (e : Elec) : Nat := capAt 15 (e.holdupMj / 750)

/-- A flash commit may begin (R384). -/
def State.canCommit (s : State) : Bool := decide (2 ≤ s.elec.commits)

/-! ### Image checks (R388) -/

/-- The hash that binds an image to this unit (R386). -/
def Fuses.unitHash (f : Fuses) : List Byte := (sha384 (ascii "LMRL-UNIT" ++ toLE 8 f.serial)).take 8

/-- The bit of STEPPING_MASK for the stepping in HV_IDENT: MAJOR × 8 + MINOR. -/
def Fuses.steppingBit (f : Fuses) : Nat := bits f.ident 12 4 * 8 + bits f.ident 8 4

/-- Checks 1 to 5, 7 and 8 in order: the result of the first that fails. `sb` adds check 6, `freeze` check 9, at the start of an update. -/
def State.imageFails (s : State) (im : FwImage) (sb freeze : Bool) : Option Nat :=
  let checks : List (Nat × Bool) :=
    [(Fw.header, !im.headerOk), (Fw.hwType, im.hwType != s.fuses.ident / 2 ^ 16), (Fw.stepping, !bitOf im.stepMask s.fuses.steppingBit),
     (Fw.unit, !(im.unitHashes.isEmpty || im.unitHashes.contains s.fuses.unitHash)), (Fw.svnLow, decide (im.svn < s.fuses.svn)),
     (Fw.sbRange, sb), (Fw.signature, !im.ecOk || !im.mlOk), (Fw.frozen, freeze)]
  (checks.find? (·.2)).map (·.1)

/-- A slot whose image boots (R388, R381). -/
def State.slotBoots (s : State) (k : Nat) : Bool := (s.fw.slot k).image.any fun im => (s.imageFails im false false).isNone

/-! ### Boot selection (R390) -/

/-- Slots in a boot state, in order. -/
def Firmware.slotsIn (f : Firmware) (b : Nat) : List Nat := [0, 1].filter fun k => (f.slot k).bootState == b

/-- Of two slots in one state, the one with the higher sequence number (R390 corner; for two on trial DEDUCED, log 109). -/
def Firmware.newer (f : Firmware) : List Nat → Option Nat
  | [a, b] => some (if (f.slot a).seqNo < (f.slot b).seqNo then b else a)
  | l => l.head?

/-- The COMMITTED slot. -/
def Firmware.committed (f : Firmware) : Option Nat := f.newer (f.slotsIn Boot.committed)

/-- A TRIAL slot with no attempt left is REJECTED (R390 step 2). -/
def FwSlot.spent (x : FwSlot) : FwSlot := if x.bootState = Boot.trial ∧ x.attempts = 0 then { x with bootState := Boot.rejected } else x

/-- The slot to boot first: a TRIAL slot with attempts left, of which one is counted; else the COMMITTED slot, once spent trials are REJECTED. -/
def Firmware.select (f : Firmware) : Firmware × Option Nat :=
  match f.newer ((f.slotsIn Boot.trial).filter fun k => decide (0 < (f.slot k).attempts)) with
  | some k => (f.updSlot k fun x => { x with attempts := x.attempts - 1 }, some k)
  | none => ({ f with slotA := f.slotA.spent, slotB := f.slotB.spent }, f.committed)

/-- The slot that boots, or none. -/
def State.bootSlot (s : State) : State × Option Nat :=
  let q := s.fw.select
  let s := { s with fw := q.1 }
  let other (k : Nat) : Option Nat :=
    let o := 1 - k
    let b := (s.fw.slot o).bootState
    if (b = Boot.committed ∨ b = Boot.trial) ∧ s.slotBoots o then some o else none
  match q.2 with
  | none => (s, none)
  | some k => (s, if s.slotBoots k then some k else other k)

/-! ### The settings book (R398, R399, R384) -/

/-- The valid copy with the higher sequence number. -/
def FwSlot.newest (x : FwSlot) : Option Book :=
  match x.book0, x.book1 with
  | some a, some b => some (if a.seqNo < b.seqNo then b else a)
  | some a, none => some a
  | none, b => b

/-- A write goes to the older copy. -/
def FwSlot.writeBook (x : FwSlot) (format : Nat) (v : Settings) : FwSlot :=
  let n := (x.newest.elim 0 (·.seqNo)) + 1
  let b : Book := { format := format, seqNo := n, settings := v }
  match x.book0, x.book1 with
  | none, _ => { x with book0 := some b }
  | some _, none => { x with book1 := some b }
  | some p, some q => if p.seqNo < q.seqNo then { x with book0 := some b } else { x with book1 := some b }

/-- The format that the running firmware writes. -/
def State.ownFormat (s : State) : Nat := (s.fw.slot s.fw.bootSlot).image.elim 0 (·.sbMax)

/-- Saves the settings in force; without the energy for a commit, or without running firmware, the save waits (R384). -/
def State.saveSettings (s : State) : State :=
  if s.fw.booted ∧ s.canCommit then
    { s with fw := { s.fw.updSlot s.fw.bootSlot fun x => x.writeBook s.ownFormat s.settings with bookDirty := false } }
  else { s with fw := { s.fw with bookDirty := true } }

/-- Format of the book in force; 0 without one (R401). -/
def State.sbFormat (s : State) : Nat :=
  if s.fw.bookDirty then s.ownFormat else (s.fw.slot s.fw.bootSlot).newest.elim 0 (·.format)

/-- Reads the booted slot's book, or converts the other slot's into the booted slot's area (R398). -/
def State.readBook (s : State) : State :=
  let own := (s.fw.slot s.fw.bootSlot).newest
  let other := (s.fw.slot (1 - s.fw.bootSlot)).newest
  match own.filter fun b => s.ownFormat ≤ b.format with
    | some b => { s with settings := b.settings, fw := { s.fw with bookDirty := false } }
    | none =>
      match other, own with
      | some b, _ => ({ s with settings := b.settings }).saveSettings
      | none, some b => ({ s with settings := b.settings }).saveSettings
      | none, none => { s with settings := Settings.reset, fw := { s.fw with bookDirty := false } }

/-- What a book holds, as numbers: the argument of its digest (R273). -/
def Settings.code (x : Settings) : List Nat :=
  x.ceil ++ [x.localGib] ++ x.pace.flatMap (fun p => [p.1, p.2.vmin, p.2.vmax, p.2.vfix, p.2.bandLo, p.2.bandHi, b2n p.2.paced, p.2.c0Hold])
    ++ x.poll ++ x.tn.flatMap (fun p => [p.1, p.2.ctl, p.2.dramMib, p.2.sess, p.2.model, p.2.shelf, p.2.c0Res])
    ++ x.port.flatMap (fun p => [p.1, b2n p.2.holdDark, (p.2.asymNs % 65536).toNat])
    ++ [x.lenS, b2n x.align_, x.restIdle, b2n x.restEn, x.capW, b2n x.ownerLock] ++ x.swarm.elim [] fun c => c.digest.map (·.toNat)

/-! ### The checks of a start on the TN_ values (R108, R109) -/

/-- Sum of a field over tenants. -/
def tnSum (l : Tbl TnSet) (f : TnSet → Nat) : Nat := sumL (l.map fun p => f p.2)

/-- WERR codes (R110). -/
def Werr.cells : Nat := 1
def Werr.shelves : Nat := 2
def Werr.bandwidth : Nat := 3
def Werr.msix : Nat := 4
def Werr.msixRing : Nat := 5

/-- What a tenant's restored values would break beside the tenants before it: WERR, offset and value of the register, and the corrected values. `base` counts the vectors of functions without an entry. -/
def tnRestore (done : Tbl TnSet) (base : Nat) (x : TnSet) : TnSet × List (Nat × Nat × Nat) :=
  let cellsOk := (List.range 4).map fun c => decide (tnSum done (fun y => nth0 y.c0Cells c) + nth0 x.c0Cells c ≤ 64)
  let shelvesOk := (List.range 4).map fun c => decide (tnSum done (fun y => nth0 y.c0Shelves c) + nth0 x.c0Shelves c ≤ 96)
  let bwOk := decide (x.bwPct ≤ 25 ∧ tnSum done (·.bwPct) + x.bwPct ≤ 50)
  let msixOk := decide (base + tnSum done (·.msixCount) + x.msixCount ≤ 2048)
  let kept (ok : List Bool) (l : List Nat) : List Nat := (List.range 4).map fun c => if ok.getD c true then nth0 l c else 0
  ({ x with c0Cells := kept cellsOk x.c0Cells, c0Shelves := kept shelvesOk x.c0Shelves
            bwPct := if bwOk then x.bwPct else 0, msixCount := if msixOk then x.msixCount else 0 },
   (if cellsOk.all id then [] else [(Werr.cells, 0x10030, x.c0Res)]) ++ (if shelvesOk.all id then [] else [(Werr.shelves, 0x10028, x.shelf)])
    ++ (if bwOk then [] else [(Werr.bandwidth, 0x10030, x.c0Res)]) ++ (if msixOk then [] else [(Werr.msix, 0x10008, x.ctl)]))

/-- Restores tenant after tenant; each value that breaks a sum becomes zero and is logged. -/
def State.tnRestoreAll (s : State) (base : Nat) (done : Tbl TnSet) (bad : Bool) : Tbl TnSet → State × Tbl TnSet × Bool
  | [] => (s, done, bad)
  | p :: r =>
    let q := tnRestore done base p.2
    let s := q.2.foldl (fun s e => (s.updTen p.1 fun x => { x with werr := e.1 }).logRec Rec.accessDropped 0 0 0 e.2.1 e.2.2) s
    State.tnRestoreAll s base (done ++ [(p.1, q.1)]) (bad || !q.2.isEmpty) r

/-- The checks of R108 at a start; the book is rewritten to match. -/
def State.restoreTn (s : State) : State :=
  let q := s.tnRestoreAll ((512 - s.settings.tn.length) * TnSet.reset.msixCount) [] false s.settings.tn
  let s := { q.1 with settings := { q.1.settings with tn := q.2.1 } }
  if q.2.2 then s.saveSettings else s

end Sys2Proof.Machine
end

