-- ==== Sys2Proof/Machine/StartOps.lean ====
section
/-! DEFINITION. The start sequence of a cold and a warm start, and what each clears (R375 to R379, R390, R404). -/

namespace Sys2Proof.Machine

/-! ### What a reset clears (R375) -/

/-- Lanes before the start test: the fused map stays. -/
def Lanes.cleared (l : Lanes) : Lanes :=
  { Lanes.reset with dirs := (l.dirs.filter fun d => d.2.fusedOut != 0).map fun d => (d.1, { Direction.fresh with fusedOut := d.2.fusedOut }) }

/-- A tenant after a warm start: its meters and its view of the log stay. -/
def Tenant.cleared (x : Tenant) : Tenant := { Tenant.fresh with meters := x.meters, stuck := x.stuck, view := x.view }

/-- A port after a start: DARK, with whatever light it has. -/
def Port.cleared (p : Port) : Port := { Port.fresh with light := p.light }

/-- An update cut off by a reset or a loss of power (R397). -/
def FwState.underWay : FwState → Bool
  | .checking | .writing | .verifying | .paused => true
  | _ => false

def FwSlot.emptied (x : FwSlot) : FwSlot := { x with bootState := Boot.empty, attempts := 0, image := none }

/-- The FW_ block after a reset: flash stays, and an update under way ends with its target EMPTY. -/
def Firmware.cleared (f : Firmware) : Firmware :=
  let g := if f.state.underWay then f.updSlot f.target FwSlot.emptied else f
  { Firmware.reset with
    state := if f.state.underWay then .aborted else .idle, result := if f.state.underWay then Fw.aborted else 0
    slotA := g.slotA, slotB := g.slotB, bootSlot := f.bootSlot, booted := f.booted, bookDirty := f.bookDirty }

/-- A warm reset: everything but the always-on hive domain (R371, R375). -/
def State.warmClear (s : State) (code : Nat) : State :=
  { s with
    power := { Power.reset with lastReset := code, releasedAt := s.now, emergency := s.power.emergency, hot := s.power.hot, coolSince := s.power.coolSince }
    elec := { s.elec with inputW := 0, capping := false }
    lanes := s.lanes.cleared
    waggle := { s.waggle with adverts := [], parent := none, offsets := [], inBound := 0, noLowerAt := s.now,
                              noParentAt := if s.waggle.parent.isSome then some s.now else s.waggle.noParentAt }
    rgTen := 0, tnSel := 0, pollAt := [0, 0, 0, 0], msixHeld := []
    tenants := s.tenants.map fun x => (x.1, x.2.cleared)
    rings := [], dram := { s.dram with objs := [], dirty := [], localGib := 0 }
    combs := (List.range 4).map fun c => (c, { Comb.fresh with tjMax := (s.comb c).tjMax, idleSince := s.now })
    cells := [], segs := []
    entropy := { Entropy.reset with failed := s.entropy.failed }
    meters := { s.meters with evStuck := false, evFull := false, evBack := false, evTickets := false }
    sec := Security.reset
    fabric := { Fabric.reset with ports := s.fabric.ports.map fun p => (p.1, p.2.cleared) }
    fw := s.fw.cleared }

/-- A loss of all supplies: what lives outside fuses and flash goes (R371, R375). -/
def State.coldClear (s : State) (t : Nat) : State :=
  { s with
    now := t, settings := Settings.reset, power := Power.reset, elec := Elec.reset, lanes := s.lanes.cleared, waggle := Waggle.reset
    rgTen := 0, tnSel := 0, pollAt := [0, 0, 0, 0], msixHeld := [], tenants := [], rings := [], dram := Dram.reset
    combs := [], cells := [], segs := [], entropy := Entropy.reset, log := Log.reset, meters := Meters.reset, sec := Security.reset
    fabric := { Fabric.reset with ports := s.fabric.ports.map fun p => (p.1, p.2.cleared) }
    fw := { s.fw.cleared with bookDirty := false } }

/-! ### The start sequence (R377, R379, R390, R391, R398) -/

/-- The code at which combs start: VFIX, or 0.55 V while a thermal emergency is in force (R375 corners). -/
def State.startCode (s : State) (c : Nat) : Nat := if s.power.emergency then 0 else (s.pace c).vfix

/-- Combs powered at their start code. -/
def State.combsUp (s : State) : State :=
  (List.range 4).foldl (fun s c => s.updComb c fun k => { k with vcode := s.startCode c, idleSince := s.now }) s

/-- The reservations of every tenant, on cells that a start leaves zero. -/
def State.reserveAll (s : State) : State :=
  s.settings.tn.foldl (fun s p => (List.range 4).foldl (fun s c => s.reserveCells p.1 c (nth0 p.2.c0Cells c) true) s) s

/-- No slot boots: the recovery loader runs if it passes its own check. -/
def State.recover (s : State) : State :=
  { s with power := { s.power with phase := .failed, failCause := if Config.recoveryOk then 1 else 4 }
           fw := { s.fw with booted := false, xip := Config.recoveryOk, trial := false } }

/-- The queen of a booted slot: measurements, identity keys, settings; then combs powered and the lane test (PHASE LANES). `keep`: a warm start on the slot that ran before keeps the settings in force (R375, log 52). -/
def State.queen (s : State) (slot : Nat) (keep : Bool) : State :=
  let x := s.fw.slot slot
  let s := { s with fw := { s.fw with bootSlot := slot, booted := true, xip := false, trial := x.bootState == Boot.trial } }
  let s := if keep then s else s.readBook.rebaseSteps
  let meas := Config.romDigest :: (x.image.elim [] (·.digests)) ++ [Config.bookDigest s.settings.code]
  let s := { s with sec := { s.sec with meas := meas, idReady := true } }
  let s := s.restoreTn.reserveAll
  { s.combsUp with power := { s.power with phase := .lanes } }

/-- The start from the boot ROM to the lane test. -/
def State.start (s : State) (cold : Bool) : State :=
  let was := if s.fw.booted then some s.fw.bootSlot else none
  let q := s.bootSlot
  match q.2 with
  | none => q.1.recover
  | some k => q.1.queen k (!cold && was == some k)

/-- COLD_START: power-on, or return from Off; waggle time starts again (R319, R371, R404). -/
def execColdStart (t : Nat) (s : State) : Host.Outcome State Fault Refusal :=
  let r := (s.coldClear t).start true
  .next { r with pending := s.pending, now := t, meters := { r.meters with lenS := r.settings.lenS, align_ := r.settings.align_ } }

/-- The start enters PHASE FAILED. -/
def State.failStart (s : State) (cause : Nat) : State := { s with power := { s.power with phase := .failed, failCause := cause } }

/-- START_LANE_TEST_DONE: widths, repair and isolation are applied; the workers are loaded and DRAM training begins, or the start fails with all combs isolated. -/
def execStartLaneTestDone (t : Nat) (testFail : List (Nat × Nat × Nat)) (s : State) : Host.Outcome State Fault Refusal :=
  run t s fun s => s.onlyIf (s.power.phase == .lanes) fun s =>
    let s := { s.testBundles 0 bundleCount testFail with lanes := { (s.testBundles 0 bundleCount testFail).lanes with tested := true } }
    if (List.range 4).all fun c => s.lanes.combIsolated.contains c then s.failStart 3
    else { s with power := { s.power with phase := .dram } }

/-- DRAM_TRAINING_DONE: the split is applied and the scrub begins, or the start fails (R43, R379). -/
def execDramTrainingDone (t : Nat) (ok : Bool) (s : State) : Host.Outcome State Fault Refusal :=
  run t s fun s => s.onlyIf (s.power.phase == .dram) fun s =>
    if ok then { s with dram := { s.dram with localGib := s.settings.localGib }, power := { s.power with phase := .scrub, startScrub := true } }
    else s.failStart 2

/-- START_SCRUB_DONE: DRAM is zero; PHASE READY, and configured ports train. -/
def execStartScrubDone (t : Nat) (s : State) : Host.Outcome State Fault Refusal :=
  run t s fun s => s.onlyIf (s.power.phase == .scrub) fun s =>
    let ms := capAt 0xFFFF ((s.now - s.power.releasedAt) / msec)
    let s := { s with dram := { s.dram with cells := [], poison := [], dirty := [] }
                      power := { s.power with phase := .ready, startScrub := false, startMs := ms } }
    s.tryTrainAll

end Sys2Proof.Machine
end

