-- ==== Sys2Proof/Machine/FirmwareOps.lean ====
section
/-! DEFINITION. Firmware update: START, its stages, and the other operations of FW_CTL (R386 to R397, R401). -/

namespace Sys2Proof.Machine

/-! ### The image (R386, R387) -/

def imageMagic : List Byte := ascii "LMRL"
def sigBytes : Nat := 3405

/-- KIND, byte offset and length of a section entry. -/
def sectionOf (b : List Byte) (i : Nat) : Nat × Nat × Nat := (byteAt b (0x20 + 8 * i), fld b (0x21 + 8 * i) 3 * 4096, fld b (0x24 + 8 * i) 4)

/-- Six sections, each kind once, inside the payload and apart; entries 6 and 7 zero. -/
def sectionsOk (b : List Byte) (payload : Nat) : Bool :=
  let l := (List.range 6).map (sectionOf b)
  ([1, 2, 3, 4, 5, 6].all fun k => l.any fun x => x.1 == k)
    && l.all (fun x => decide (x.2.1 + x.2.2 ≤ payload))
    && (List.range 6).all (fun i => (List.range i).all fun j =>
        let x := sectionOf b i
        let y := sectionOf b j
        decide (x.2.1 + x.2.2 ≤ y.2.1 ∨ y.2.1 + y.2.2 ≤ x.2.1))
    && fld b 0x50 16 == 0

/-- Check 1 of R388, with the length that FW_IMG_LEN gives. -/
def headerOk (b : List Byte) (len : Nat) : Bool :=
  let payload := fld b 0x14 4
  b.take 4 == imageMagic && byteAt b 4 == 1 && byteAt b 5 == 0 && byteAt b 0x18 == 6 && byteAt b 0x19 == 1 && byteAt b 0x1A == 2
    && fld b 0x1B 5 == 0 && fld b 0xE0 32 == 0 && decide (byteAt b 0x0A ≤ 16 ∧ byteAt b 0x0B ≤ 63)
    && fld b (0x60 + 8 * byteAt b 0x0A) (8 * (16 - byteAt b 0x0A)) == 0
    && decide (256 + payload + sigBytes ≤ 48 * 2 ^ 20) && len == 256 + payload + sigBytes && sectionsOk b payload

/-- Digest of the section of a kind. -/
def sectionDigest (b : List Byte) (kind : Nat) : List Byte :=
  match ((List.range 6).map (sectionOf b)).find? fun x => x.1 == kind with
  | some x => sha384 (slice b (256 + x.2.1) x.2.2)
  | none => []

/-- What the checks find in the staged bytes. -/
def parseImage (b : List Byte) : FwImage :=
  let signed := 256 + fld b 0x14 4
  let ok := headerOk b b.length
  { svn := byteAt b 0x0B, sbMin := fld b 0x0C 2, sbMax := fld b 0x0E 2, version := fld b 0x10 4, hwType := fld b 6 2, stepMask := fld b 8 2
    unitHashes := (List.range (min 16 (byteAt b 0x0A))).map fun j => slice b (0x60 + 8 * j) 8
    headerOk := ok
    ecOk := ok && Config.imageEcdsaOk (b.take signed) (slice b signed 96)
    mlOk := ok && Config.imageMldsaOk (b.take signed) (slice b (signed + 96) 3309)
    digests := if ok then (List.range 6).map fun k => sectionDigest b (k + 1) else [] }

/-! ### The state of an update -/

def State.setFw (s : State) (f : Firmware → Firmware) : State := { s with fw := f s.fw }

/-- An operation ends with a result and changes nothing else. -/
def State.fwResult (s : State) (r : Nat) : State := s.setFw fun f => { f with result := r }

/-- FW_ operations are served in READY, and by the recovery loader (R378). -/
def State.fwServed (s : State) : Bool := s.power.phase == .ready || (s.power.phase == .failed && s.fw.xip)

def fwCtlOff : Nat := 0x70008

/-- An operation where FW_ is served; a dropped and logged write elsewhere. -/
def State.fwOp (s : State) (value : Nat) (f : State → State) : State := if s.fwServed then f s else s.logDropped 0 fwCtlOff value

/-- Some die is above 95 °C. -/
def State.above95 (s : State) : Bool :=
  decide (95 < s.power.hiveTj ∨ 95 < s.power.e0Tj ∨ 95 < s.power.e1Tj) || (List.range 4).any fun c => decide (95 < (s.comb c).tj)

/-- The next commit may begin (R395). -/
def State.mayWrite (s : State) : Bool := s.canCommit && !s.above95

/-- An active class-0 session of any tenant. -/
def State.c0Active (s : State) : Bool := s.tenants.any fun t => t.2.sessions.any fun x => x.2.active && x.2.cls == 0

/-- The target of a START: TARGET 1 A, 2 B; automatic means the slot not booted, and B under the recovery loader. -/
def Firmware.targetOf (f : Firmware) (field : Nat) : Nat :=
  if field = 1 then 0 else if field = 2 then 1 else if f.xip then 1 else 1 - f.bootSlot

/-- The refusals of R393 before the image is read, in order. -/
def State.startRefusal (s : State) (target : Nat) (drain : Bool) : Option Nat :=
  let k := s.fw.targetOf target
  let l : List (Nat × Bool) :=
    [(Fw.busy, s.fw.state.underWay), (Fw.locked, s.settings.ownerLock), (Fw.busyXip, s.fw.xip && k == 0),
     (Fw.state, target == 3 || (s.fw.booted && k == s.fw.bootSlot)), (Fw.c0Active, s.c0Active && !drain), (Fw.holdupLow, !s.canCommit), (Fw.tooHot, s.above95)]
  (l.find? (·.2)).map (·.1)

/-- OWNER_LOCK as a write of FW_CTL leaves it. -/
def State.setOwnerLock (s : State) (v : Bool) : State :=
  if s.settings.ownerLock = v then s else ({ s with settings := { s.settings with ownerLock := v } }).saveSettings

/-- START: the image is copied into hive-reserved DRAM and its checks begin, or START is refused (R393, R394). -/
def State.fwStart (s : State) (value : Nat) (h : HostView) : State :=
  s.fwOp value fun s =>
    let s := s.setOwnerLock (bitOf value 8)
    let drain := bitOf value 3
    match s.startRefusal (bits value 4 2) drain with
    | some r => s.fwResult r
    | none =>
      let image := hostRead h 0 s.fw.imgAddr s.fw.imgLen
      s.setFw fun f => { f with
        state := .checking, before := f.state, result := Fw.ok, target := f.targetOf (bits value 4 2), draining := drain, drainBefore := f.draining
        staged := image.getD [], readFault := image.isNone }

/-- FW_START: a write of FW_CTL with OP 1. -/
def execFwStart (t value : Nat) (h : HostView) (s : State) : Host.Outcome State Fault Refusal := run t s fun s => s.fwStart value h

/-- An update whose checks fail: START is refused after all, and nothing was written. -/
def State.refuseStart (s : State) (r : Nat) : State :=
  s.setFw fun f => { f with state := f.before, result := r, draining := f.drainBefore, staged := [], readFault := false }

/-- Check 6: the book in force is outside what the image reads; without a book nothing is outside. -/
def State.sbOutside (s : State) (im : FwImage) : Bool :=
  s.sbFormat != 0 && !decide (im.sbMin ≤ s.sbFormat ∧ s.sbFormat ≤ im.sbMax)

/-- Check 9: the firmware version is frozen and the image is another (R396). -/
def State.frozenOut (s : State) (im : FwImage) : Bool :=
  s.settings.swarm.any fun c => c.freezeFw && sha384 (s.sec.meas.headD [] ++ im.digests.flatten) != c.fwDigest

/-- 64 KiB sectors of an image. -/
def sectorsOf (len : Nat) : Nat := ceilDiv len 65536

/-- IMAGE_CHECK_DONE: the staged image passes, and writing begins with as many erases as programs; or the update ends with the check's result. -/
def execImageCheckDone (t : Nat) (s : State) : Host.Outcome State Fault Refusal :=
  run t s fun s => s.onlyIf (s.fw.state == .checking) fun s =>
    if s.fw.readFault then s.refuseStart Fw.readFault
    else
      let im := parseImage s.fw.staged
      match s.imageFails im (s.sbOutside im) (s.frozenOut im) with
      | some r => s.refuseStart r
      | none => s.setFw fun f => { f with state := if s.mayWrite then .writing else .paused, before := .writing, sectorsDone := 0, sectorsLeft := 2 * sectorsOf f.staged.length }

/-- FLASH_COMMIT_DONE: one erase or program is complete; the next begins, the update pauses before it, or the read-back begins (R384, R395). -/
def execFlashCommitDone (t : Nat) (s : State) : Host.Outcome State Fault Refusal :=
  run t s fun s => s.onlyIf (s.fw.state == .writing) fun s =>
    s.setFw fun f =>
      let left := f.sectorsLeft - 1
      let f := if f.sectorsDone = 0 then f.updSlot f.target FwSlot.emptied else f
      let next : FwState := if left = 0 then .verifying else if s.mayWrite then .writing else .paused
      { f with sectorsDone := capAt 0xFFFF (f.sectorsDone + 1), sectorsLeft := left, state := next, before := .writing }

/-- UPDATE_RESUME: a paused update goes on. -/
def execUpdateResume (t : Nat) (s : State) : Host.Outcome State Fault Refusal :=
  run t s fun s => s.onlyIf (s.fw.state == .paused && s.mayWrite) fun s => s.setFw fun f => { f with state := f.before }

/-- READ_BACK_DONE: the slot equals the staged copy and is STAGED, or its header is erased and the update has FAILED. The commit that ends it waits like any other. -/
def execReadBackDone (t : Nat) (same : Bool) (s : State) : Host.Outcome State Fault Refusal :=
  run t s fun s => s.onlyIf (s.fw.state == .verifying) fun s =>
    if !s.mayWrite then s.setFw fun f => { f with state := .paused, before := .verifying }
    else s.setFw fun f =>
      if same then
        { f.updSlot f.target fun x => { x with bootState := Boot.staged, attempts := 0, image := some (parseImage f.staged) } with
          state := .staged, result := Fw.ok, staged := [] }
      else { f.updSlot f.target FwSlot.emptied with state := .failed, result := Fw.verify, staged := [], draining := false }

/-! ### The other operations (R397) -/

/-- An operation that writes a boot record: refused in another state, and without the energy for a commit. -/
def State.recordOp (s : State) (op : Nat) (allowed : Bool) (f : Firmware → Firmware) : State :=
  s.fwOp op fun s =>
    if !allowed then s.fwResult Fw.state
    else if !s.canCommit then s.fwResult Fw.holdupLow
    else s.setFw fun x => { f x with result := Fw.ok }

/-- ACTIVATE: the staged slot goes on trial. -/
def State.fwActivate (s : State) : State :=
  s.recordOp 2 (s.fw.state == .staged) fun f =>
    f.updSlot f.target fun x => { x with bootState := Boot.trial, attempts := 3, seqNo := (f.slot (1 - f.target)).seqNo + 1 }

/-- FW_ACTIVATE (R397). -/
def execFwActivate (t : Nat) (s : State) : Host.Outcome State Fault Refusal := run t s State.fwActivate

/-- COMMIT: the running trial is committed, the other slot superseded, and fuses burnt up to the image's security version (R392). -/
def State.fwCommit (s : State) : State :=
  let ok := s.fwServed && s.fw.trial && s.canCommit
  let svn := (s.fw.slot s.fw.bootSlot).image.elim 0 (·.svn)
  let s := s.recordOp 3 s.fw.trial fun f =>
    { (f.updSlot f.bootSlot fun x => { x with bootState := Boot.committed }).updSlot (1 - f.bootSlot) fun x =>
        { x with bootState := if x.image.isSome then Boot.superseded else Boot.empty } with trial := false }
  if ok then { s with fuses := { s.fuses with svn := max s.fuses.svn (min 63 svn) } } else s

/-- FW_COMMIT (R397, R392). -/
def execFwCommit (t : Nat) (s : State) : Host.Outcome State Fault Refusal := run t s State.fwCommit

/-- A slot on trial that has not been started. -/
def FwSlot.unstarted (x : FwSlot) : Bool := x.bootState == Boot.trial && x.attempts == 3

/-- ROLLBACK: the running trial is rejected, or a trial not yet started is staged again. -/
def State.fwRollback (s : State) : State :=
  let waiting := [0, 1].filter fun k => (s.fw.slot k).unstarted
  s.recordOp 4 (s.fw.trial || !waiting.isEmpty) fun f =>
    if f.trial then { f.updSlot f.bootSlot fun x => { x with bootState := Boot.rejected } with trial := false }
    else f.updSlot (waiting.headD 0) fun x => { x with bootState := Boot.staged, attempts := 0 }

/-- FW_ROLLBACK (R397). -/
def execFwRollback (t : Nat) (s : State) : Host.Outcome State Fault Refusal := run t s State.fwRollback

/-- ABORT: the update stops after the commit in progress, and the target is EMPTY. -/
def State.fwAbort (s : State) : State :=
  s.fwOp 5 fun s =>
    if s.fw.state.underWay || s.fw.state == .staged then
      s.setFw fun f => { f.updSlot f.target FwSlot.emptied with state := .aborted, result := Fw.aborted, staged := [], draining := false, readFault := false }
    else s.fwResult Fw.state

/-- FW_ABORT (R397). -/
def execFwAbort (t : Nat) (s : State) : Host.Outcome State Fault Refusal := run t s State.fwAbort

/-- A write of FW_CTL: its operation, or OWNER_LOCK alone. An operation code that the table does not list is one in no state. -/
def State.writeFwCtl (s : State) (v : Nat) (h : HostView) : State :=
  let op := bits v 0 3
  if op = 1 then s.fwStart v h
  else
    let s := s.setOwnerLock (bitOf v 8)
    if op = 0 then s else if op = 2 then s.fwActivate else if op = 3 then s.fwCommit else if op = 4 then s.fwRollback
    else if op = 5 then s.fwAbort else s.fwOp v fun s => s.fwResult Fw.state

end Sys2Proof.Machine
end

