-- ==== Sys2Proof/Machine/LinkOps.lean ====
section
/-! DEFINITION. The links: training, attestation, keys, frames, quarantine, rekeying (R303 to R318). -/

namespace Sys2Proof.Machine

/-! ### Light and training (R311) -/

/-- LINK_LIGHT_DETECT: light arrives; a DARK port that is configured and not held trains. -/
def execLinkLightDetect (t port : Nat) (s : State) : Host.Outcome State Fault Refusal :=
  run t s fun s => s.onlyIf (port < 32) fun s => (s.updPort port fun p => { p with light := true }).tryTrain port

/-- LANE_LOCK: lanes locked and deskewed; ATTESTING, and the attestation is sent once the DRBG serves (R292, R312). -/
def execLaneLock (t port : Nat) (s : State) : Host.Outcome State Fault Refusal :=
  run t s fun s => s.onlyIf ((s.port port).state == .training) fun s => s.toAttesting port

/-- TRAINING_TIMEOUT: not locked within 100 ms; DARK, with a retry after 1 s. -/
def execTrainingTimeout (t port : Nat) (s : State) : Host.Outcome State Fault Refusal :=
  run t s fun s =>
    let p := s.port port
    s.onlyIf (p.state == .training && decide (p.since + 100 * msec ≤ s.now)) fun s =>
      (s.unkeyPort port .dark).updPort port fun p => { p with retryAt := some (s.now + sec) }

/-- TRAINING_RETRY: the retry of a port that fell back to DARK. -/
def execTrainingRetry (t port : Nat) (s : State) : Host.Outcome State Fault Refusal :=
  run t s fun s => s.onlyIf ((s.port port).retryAt.any fun r => decide (r ≤ s.now)) fun s =>
    (s.updPort port fun p => { p with retryAt := none }).tryTrain port

/-- LIGHT_LOSS: the link goes DARK. -/
def execLightLoss (t port : Nat) (s : State) : Host.Outcome State Fault Refusal :=
  run t s fun s => s.onlyIf ((s.port port).light) fun s => (s.unkeyPort port .dark).updPort port fun p => { p with light := false }

/-! ### Attestation and keys (R311 to R314) -/

/-- Installs the keys of both descriptors: KEYED, or QUARANTINED for a disagreement, whose management channel runs under them. -/
def State.installKeys (s : State) (port reason : Nat) (d : List Byte) : State :=
  let p := s.port port
  let k := linkKeys p.ourPriv p.ourDesc d
  let s := if reason = 0 then s.unkeyPort port .keyed else s.quarantine port reason
  s.updPort port fun p =>
    { p with tx := some k.1, rx := some k.2, keyedAt := s.now, peerId := descId d, mgmtOnly := reason != 0 }

/-- A peer's ECDH_PUB that check 2 rejects is counted (R285, R313). -/
def State.countPoint (s : State) (port : Nat) (d certs sigs : List Byte) : State :=
  if peerSigned (s.port port).ourDesc d certs sigs && (p384.xyPoint (descPub d)).isNone then
    { s with sec := { s.sec with pointRej := capAt 0xFFFF (s.sec.pointRej + 1) } }
  else s

/-- Judges the peer's attestation: KEY_CONFIRM goes out, or the link is quarantined (R313, R317). -/
def State.judge (s : State) (c : SwarmCfg) (port : Nat) (d certs sigs : List Byte) : State :=
  let reason := s.attestReason c port (s.port port).ourDesc d certs sigs
  let s := s.countPoint port d certs sigs
  if reason = 0 then (s.installKeys port 0 d).sendFreePayload port 3 4
  else if reason = Reason.wiring ∨ reason = Reason.attest then s.quarantine port reason
  else s.installKeys port reason d

/-- Queues the frames of a rekey's descriptor on the management channel (R316). -/
def State.queueDescriptor (s : State) (port : Nat) : State :=
  (s.linkFrames port 3 4 ((s.port port).ourDesc ++ deviceCerts)).foldl (fun s f =>
    s.enqueue port { vc := 4, kind := .linkOnly, via := none, header := f.1, payload := f.2 }) s

/-- Judges a rekey's descriptor: the next keys wait for KEY_CONFIRM on each side, or the link is quarantined (R316). -/
def State.judgeRekey (s : State) (c : SwarmCfg) (port : Nat) (d certs sigs : List Byte) : State :=
  let p := s.port port
  if s.attestReason c port p.ourDesc d certs sigs = 0 then
    let k := linkKeys p.ourPriv p.ourDesc d
    let body := Config.freeBytes s.free
    let f : QFrame := { vc := 4, kind := .confirm, via := none, header := s.linkHeader port 3 4 body.length 0, payload := body }
    ((s.skipFrees 1).updPort port fun p =>
      { p with nextTx := some k.1, nextRx := some k.2, ourDesc := [], ourPriv := 0, peerNonce := [] }).enqueue port f
  else s.judge c port d certs sigs

/-- The descriptor of a rekey: the side that has not sent its own answers in the same way. -/
def State.rekeyReceive (s : State) (c : SwarmCfg) (port : Nat) (d certs sigs : List Byte) : State :=
  if !(s.port port).ourDesc.isEmpty then s.judgeRekey c port d certs sigs
  else if s.canServe then ((s.drawDescriptor c port true).queueDescriptor port).judgeRekey c port d certs sigs
  else s

/-- ATTESTATION_RECEIVE: a peer's whole attestation has come. A LIVE link takes one without REKEY as its cue to attest again. -/
def execAttestationReceive (t port : Nat) (descriptor certs sigs : List Byte) (s : State) : Host.Outcome State Fault Refusal :=
  run t s fun s =>
    match s.settings.swarm, (s.port port).state with
    | some c, .live =>
      if descRekey descriptor then s.rekeyReceive c port descriptor certs sigs
      else (s.toAttesting port).answerNonce port (descNonce descriptor)
    | some c, .attesting | some c, .quarantined =>
      if (s.port port).ourDesc.isEmpty then (s.attest port).answerNonce port (descNonce descriptor)
      else (s.answerNonce port (descNonce descriptor)).judge c port descriptor certs sigs
    | _, _ => s

/-- ATTEST_TIMEOUT: no answer within 500 ms; TRAINING. -/
def execAttestTimeout (t port : Nat) (s : State) : Host.Outcome State Fault Refusal :=
  run t s fun s =>
    let p := s.port port
    s.onlyIf (p.state == .attesting && decide (p.since + 500 * msec ≤ s.now)) fun s => s.unkeyPort port .training

/-- KEY_CONFIRM_TIMEOUT: no KEY_CONFIRM within 100 ms; TRAINING, and the keys are erased. -/
def execKeyConfirmTimeout (t port : Nat) (s : State) : Host.Outcome State Fault Refusal :=
  run t s fun s =>
    let p := s.port port
    s.onlyIf (p.state == .keyed && decide (p.since + 100 * msec ≤ s.now)) fun s => s.unkeyPort port .training

/-- QUARANTINE_REATTEST: 1 s after a key was exhausted the link returns to ATTESTING; for every other reason it attests again every 10 s and stays quarantined until that succeeds. -/
def execQuarantineReattest (t port : Nat) (s : State) : Host.Outcome State Fault Refusal :=
  run t s fun s =>
    let p := s.port port
    if p.state ≠ .quarantined then s
    else if p.reason = Reason.keyExhausted then s.onlyIf (decide (p.since + sec ≤ s.now)) fun s => s.toAttesting port
    else s.onlyIf (decide (p.since + 10 * sec ≤ s.now)) fun s =>
      (s.updPort port fun p => { p with ourDesc := [], ourPriv := 0, peerNonce := [], since := s.now }).attest port

/-! ### Sending (R304 to R306, R315) -/

/-- 64-byte units of header, payload and tag. -/
def QFrame.units (f : QFrame) : Nat := ceilDiv (f.header.length + f.payload.length + 16) 64

def Port.hasCredit (p : Port) (f : QFrame) : Bool := decide (f.units ≤ nth0 p.credits f.vc)

/-- What a link carries of its queue (R311, R317). -/
def Port.carries (p : Port) (f : QFrame) : Bool :=
  match p.state with
  | .live => true
  | .quarantined => p.mgmtOnly && f.vc == 4
  | _ => false

def Port.sendable (p : Port) (f : QFrame) : Bool := p.carries f && p.hasCredit f

/-- The first frame of a virtual channel, if it may go. -/
def Port.headOf (p : Port) (vc : Nat) : Option QFrame := (p.queue.find? fun f => f.vc == vc).filter p.sendable

/-- The next frame: resent ones in order, then management, C0, and one of C1 to C3 as a free value chooses (R304, log 46). -/
def State.nextFrame (s : State) (port : Nat) : Option QFrame × State :=
  let p := s.port port
  if 0 < p.resend then (p.queue.head?.filter p.sendable, s)
  else
    match p.headOf 4, p.headOf 0 with
    | some f, _ => (some f, s)
    | none, some f => (some f, s)
    | none, none =>
      let l := [1, 2, 3].filterMap p.headOf
      if l.isEmpty then (none, s) else let q := s.takeFree; (l[q.1 % l.length]?, q.2)

/-- A rekey is done once both directions have switched. -/
def Port.rekeyed (p : Port) (now : Nat) : Port :=
  if p.nextTx.isNone ∧ p.nextRx.isNone then { p with rekeys := capAt 0xFFFF (p.rekeys + 1), keyedAt := now, rekeying := none } else p

/-- KEY_CONFIRM of a rekey: sending switches at this frame. -/
def Port.switchTx (p : Port) (f : QFrame) (now : Nat) : Port :=
  match f.kind, p.nextTx with
  | .confirm, some k => { p with tx := some k, nextTx := none, keyPhase := 1 - p.keyPhase, txCounter := 0 }.rekeyed now
  | _, _ => p

/-- A frame of the queue goes out: its credit is taken, it waits for its acknowledgement, and the buffer it came through gives its credit back. -/
def State.transmit (s : State) (port : Nat) (f : QFrame) : State :=
  let s := (s.updPort port fun p => p.switchTx f s.now).sendSealed port f.header f.payload
  let s := s.updPort port fun p =>
    { p with queue := p.queue.erase f, resend := p.resend - 1, unacked := p.unacked ++ [{ f with via := none }]
             credits := p.credits.set f.vc (nth0 p.credits f.vc - f.units) }
  match f.via with
  | some q => s.sendCredit q
  | none => s

/-- LINK_FRAME_SEND: a port sends its next frame; a port that waits to attest sends its attestation. -/
def execLinkFrameSend (t port : Nat) (s : State) : Host.Outcome State Fault Refusal :=
  run t s fun s =>
    match (s.port port).state with
    | .attesting => s.attest port
    | _ => s.onlyIf (decide ((s.port port).txCounter < keyLimit)) fun s =>
      let q := s.nextFrame port
      match q.1 with
      | none => s
      | some f => q.2.transmit port f

/-! ### Receiving (R305 to R310, R318) -/

/-- Reads the payload of a frame under a key; none where its form or its tag is wrong. -/
def openFrame (k : DirKey) (frame : List Byte) : Option (List Byte) :=
  let len := fld frame 0x18 2
  if frame.length ≠ 48 + len + 16 ∨ 4096 < len then none
  else gcmDecrypt k.key (k.salt ++ slice frame 8 8) (frame.take 48) (slice frame 48 len) (frame.drop (48 + len))

/-- The key, the COUNTER expected and whether the frame opens the new key phase. -/
def Port.opener (p : Port) (frame : List Byte) : Option (DirKey × Nat × Bool) :=
  if byteAt frame 2 % 2 = p.rxPhase then p.rx.map fun k => (k, p.rxCounter, false)
  else p.nextRx.map fun k => (k, 0, true)

/-- A frame failed its tag: counted, and a resend asked for. -/
def State.tagFailed (s : State) (port : Nat) : State :=
  (s.updPort port fun p =>
    { p with tagFails := capAt 0xFFFF (p.tagFails + 1), asked := true
             tagTimes := s.now :: p.tagTimes.filter fun x => decide (s.now < x + msec) }).sendCredit port

/-- Fabric sends that wait for a device's acknowledgement: tenant, local ring, SEQ, edge. -/
def State.openSends (s : State) (dst : Nat) : List (Nat × Nat × Nat × Nat) :=
  let edges := s.settings.swarm.elim [] fun c => (c.edges.filter fun e => e.dst == dst).map (·.edge)
  s.rings.flatMap fun r => r.2.cmds.flatMap fun c => c.eval.elim [] fun v =>
    (v.sends.filter fun x => !x.acked && edges.contains x.edge).map fun x => (r.1 / 256, r.1 % 256, c.seq, x.edge)

/-- A management frame at its destination. Its format is not given: free values say whether it admits one of the messages sent there, or says that the session does not exist (R309, R310, log 47). -/
def State.mgmtArrive (s : State) (src : Nat) : State :=
  let l := s.openSends src
  if l.isEmpty then s
  else
    let what := nth0 (s.frees 2) 0 % 3
    let x := l.getD (nth0 (s.frees 2) 1 % l.length) (0, 0, 0, 0)
    let s := s.skipFrees 2
    if what = 1 then s.failEval x.1 x.2.1 x.2.2.1 (St.badHandle, 0)
    else if what = 2 then s.updEval x.1 x.2.1 x.2.2.1 fun v => { v with sends := v.sends.map fun f => if f.edge = x.2.2.2 then { f with admitted := true } else f }
    else s

def FabricMsg.same (m : FabricMsg) (ten session edge position src : Nat) : Bool :=
  m.ten == ten && m.session == session && m.edge == edge && m.position == position && m.src == src

/-- Whether a message may be admitted: its range is free, it has landed before, or it has no session to land in (R309, R310). -/
def State.admitsMsg (s : State) (ten session edge position : Nat) : Bool :=
  s.fabric.landed.contains (ten, session, edge, position) || !s.fabric.occupied.contains (ten, session, edge)
    || (Tbl.look (s.ten ten).sessions session).isNone

/-- Adds the payload of a frame to a message. -/
def FabricMsg.add (m : FabricMsg) (first : Bool) (off : Nat) (bytes : List Byte) (total : Nat) : FabricMsg :=
  let got := (if first then [] else m.got) ++ [(off, bytes)]
  { m with got := got, complete := sumL (got.map fun g => g.2.length) == total }

/-- A data frame of a declared edge at its destination: its message grows, and its buffer is freed once the message is admitted. -/
def State.collect (s : State) (port : Nat) (e : Edge) (h payload : List Byte) : State :=
  let session := fld h 0x1C 4
  let position := fld h 0x20 4
  let off := fld h 0x28 8
  let old := s.fabric.inbox.find? fun m => m.same e.ten session e.edge position e.src
  if off + payload.length > e.bytes ∨ old.any (·.complete) then s.sendCredit port
  else
    let fresh : FabricMsg := { id := s.nextId, ten := e.ten, session := session, edge := e.edge, position := position, src := e.src, got := [], complete := false, held := [] }
    let ok := s.admitsMsg e.ten session e.edge position
    let m := (old.getD fresh).add (bitOf (byteAt h 2) 1) off payload e.bytes
    let m := if ok then m else { m with held := m.held ++ [port] }
    let rest := s.fabric.inbox.filter fun x => x.id != m.id
    let s := { s with nextId := s.nextId + (if old.isNone then 1 else 0), fabric := { s.fabric with inbox := rest ++ [m] } }
    if ok then s.sendCredit port else s

/-- A data frame at its destination; one that matches no declared edge is dropped and logged (R310). -/
def State.dataArrive (s : State) (c : SwarmCfg) (port : Nat) (h payload : List Byte) : State :=
  let src := fld h 4 2
  match c.edges.find? fun e => e.src == src && e.dst == c.deviceId && e.cls == byteAt h 1 % 8 && e.edge == fld h 0x1A 2 with
  | some e => s.collect port e h payload
  | none => (s.logRec Rec.fabric 0 Rec.deviceWide port src (fld h 0x1A 2)).sendCredit port

/-- Forwards a frame out of the port its route names; without a LIVE port there, a notice goes back to the sender of data (R303, R318). -/
def State.forward (s : State) (port : Nat) (h payload : List Byte) : State :=
  let hop := byteAt h 3
  let egress := byteAt h (0x10 + hop)
  if 8 ≤ hop ∨ 32 ≤ egress then s.sendCredit port
  else if (s.port egress).state = .live then
    s.enqueue egress { vc := byteAt h 1 % 8, kind := .relayed, via := some port, header := h.take 3 ++ toLE 1 (hop + 1) ++ h.drop 4, payload := payload }
  else (if byteAt h 0 = 1 then s.sendMgmt (fld h 4 2) else s).sendCredit port

/-- A credit and acknowledgement frame: how many frames it acknowledges, what credits it returns and whether it asks for a resend are free values (log 47). -/
def Port.acknowledge (p : Port) (l : List Nat) : Port :=
  let left := p.unacked.drop (nth0 l 0 % (p.unacked.length + 1))
  let credits := (List.range 5).map fun i => min (nth0 fullCredits i) (nth0 p.credits i + nth0 l (i + 2))
  if nth0 l 1 % 2 = 1 then
    { p with unacked := [], queue := left ++ p.queue, resend := left.length
             credits := (List.range 5).map fun i => nth0 credits i + sumL ((left.filter fun f => f.vc == i).map QFrame.units) }
  else { p with unacked := left, credits := credits }

/-- An accepted frame is delivered or forwarded. -/
def State.deliver (s : State) (c : SwarmCfg) (port : Nat) (h payload : List Byte) : State :=
  let type := byteAt h 0
  if type = 2 then (s.skipFrees 7).updPort port fun p => p.acknowledge (s.frees 7)
  else if type = 1 ∨ type = 3 then
    if type = 1 ∧ (s.port port).state ≠ .live then s.sendCredit port
    else if fld h 6 2 ≠ c.deviceId then s.forward port h payload
    else if type = 1 then s.dataArrive c port h payload
    else (s.mgmtArrive (fld h 4 2)).sendCredit port
  else s

/-- The receiving side moves to the COUNTER after the one accepted, and to the new key phase with its first frame. -/
def Port.accepted (p : Port) (k : DirKey) (newPhase : Bool) (counter now : Nat) : Port :=
  let p := { p with rxCounter := counter + 1, asked := false }
  if newPhase then { p with rx := some k, nextRx := none, rxPhase := 1 - p.rxPhase }.rekeyed now else p

/-- A frame under keys: verified, taken in COUNTER order, delivered. After a resend was asked for, a free value says whether a frame with a later COUNTER is the first one resent (log 48). -/
def State.receiveSealed (s : State) (c : SwarmCfg) (port : Nat) (frame : List Byte) : State :=
  match (s.port port).opener frame with
  | none => s.tagFailed port
  | some (k, want, newPhase) =>
    match openFrame k frame with
    | none => s.tagFailed port
    | some payload =>
      let counter := fld frame 8 8
      let q := s.takeFree
      let take := counter == want || ((s.port port).asked && decide (want < counter) && q.1 % 2 == 1)
      if take then ((q.2.updPort port fun p => p.accepted k newPhase counter s.now)).deliver c port (frame.take 48) payload
      else if want < counter then (q.2.updPort port fun p => { p with asked := true }).sendCredit port
      else q.2

/-- An attestation frame: a LIVE link attests again; one that begins with a descriptor is answered (R311, R312, R317). -/
def State.receiveAttestation (s : State) (port : Nat) (frame : List Byte) : State :=
  let nonce := descNonce (frame.drop 48)
  let isDesc := slice frame 48 4 == descriptorMagic
  match (s.port port).state with
  | .live => let s := s.toAttesting port; if isDesc then s.answerNonce port nonce else s
  | .attesting | .quarantined => if isDesc then (s.attest port).answerNonce port nonce else s
  | _ => s

/-- LINK_FRAME_RECEIVE: a frame arrives at a port. -/
def execLinkFrameReceive (t port : Nat) (frame : List Byte) (s : State) : Host.Outcome State Fault Refusal :=
  run t s fun s =>
    match s.settings.swarm with
    | none => s
    | some c =>
      if byteAt frame 0 = 5 then s.receiveAttestation port frame
      else
        let p := s.port port
        s.onlyIf (p.state == .live || (p.state == .quarantined && p.mgmtOnly)) fun s => s.receiveSealed c port frame

/-- KEY_CONFIRM_RECEIVE: in KEYED an authentic one makes the link LIVE, and a false one erases the keys; on a LIVE link it ends a rekey (R311, R316). -/
def execKeyConfirmReceive (t port : Nat) (frame : List Byte) (s : State) : Host.Outcome State Fault Refusal :=
  run t s fun s =>
    let p := s.port port
    match p.state, s.settings.swarm, p.rx with
    | .keyed, _, some k =>
      match openFrame k frame with
      | some _ =>
        if byteAt frame 2 % 2 = p.rxPhase ∧ fld frame 8 8 = p.rxCounter then
          s.updPort port fun p => { p with state := .live, since := s.now, rxCounter := p.rxCounter + 1 }
        else s
      | none => (s.updPort port fun p => { p with tagFails := capAt 0xFFFF (p.tagFails + 1) }).unkeyPort port .training
    | .live, some c, _ => s.receiveSealed c port frame
    | _, _, _ => s

/-- TAG_FAILURE_LIMIT: more than 64 tag failures within 1 ms return the link to TRAINING. -/
def execTagFailureLimit (t port : Nat) (s : State) : Host.Outcome State Fault Refusal :=
  run t s fun s =>
    let p := s.port port
    s.onlyIf (decide (64 < (p.tagTimes.filter fun x => decide (s.now < x + msec)).length)) fun s =>
      let s := s.unkeyPort port .training
      { s with fabric := { s.fabric with evRetrained := true } }

/-! ### Rekeying and exhausted keys (R316, R317) -/

/-- The lower id sends a fresh descriptor with REKEY set; where the DRBG cannot serve, the retry sends it. -/
def State.sendRekey (s : State) (c : SwarmCfg) (port : Nat) : State :=
  let s := s.updPort port fun p => { p with rekeying := some s.now }
  if s.canServe then (s.drawDescriptor c port true).queueDescriptor port else s

/-- REKEY_TRIGGER: 2^40 frames under a key, or 3,600 s. -/
def execRekeyTrigger (t port : Nat) (s : State) : Host.Outcome State Fault Refusal :=
  run t s fun s =>
    let p := s.port port
    match s.settings.swarm with
    | none => s
    | some c =>
      s.onlyIf (p.state == .live && p.rekeying.isNone && p.nextTx.isNone && p.nextRx.isNone && decide (c.deviceId < p.peerId)
        && decide (2 ^ 40 ≤ p.txCounter ∨ 2 ^ 40 ≤ p.rxCounter ∨ p.keyedAt + 3600 * sec ≤ s.now)) fun s => s.sendRekey c port

/-- REKEY_RETRY: a rekey that has not succeeded is tried again every 100 ms. -/
def execRekeyRetry (t port : Nat) (s : State) : Host.Outcome State Fault Refusal :=
  run t s fun s =>
    let p := s.port port
    match s.settings.swarm with
    | none => s
    | some c =>
      s.onlyIf (p.state == .live && p.nextTx.isNone && p.nextRx.isNone && p.rekeying.any fun r => decide (r + 100 * msec ≤ s.now)) fun s =>
        s.sendRekey c port

/-- KEY_EXHAUSTED: a direction has sent 2^44 frames under one key. -/
def execKeyExhausted (t port : Nat) (s : State) : Host.Outcome State Fault Refusal :=
  run t s fun s =>
    let p := s.port port
    s.onlyIf ((p.state == .live || p.mgmtOnly) && decide (keyLimit ≤ p.txCounter ∨ keyLimit ≤ p.rxCounter)) fun s =>
      let s := s.quarantine port Reason.keyExhausted
      { s with fabric := { s.fabric with evExhausted := true } }

end Sys2Proof.Machine
end

