-- ==== Sys2Proof/Machine/Rings.lean ====
section
/-! DEFINITION. Rings: enable and disable, the watcher, kicks, final completions, interrupts, holds and fences (R79 to R104, R292). -/

namespace Sys2Proof.Machine

/-! ### Ring set-up (R78 to R84) -/

/-- The ring that a function's RG_SEL selects; a virtual function reaches its own tenant only (R78). -/
def State.selRing (s : State) (fn : Nat) : Nat × Nat := (if fn = 0 then s.rgTen else fn, (s.ten fn).rgLring)

/-- RG_RING_CFG.ENABLE. -/
def Ring.enabled (r : Ring) : Bool := r.state == .live || r.state == .error

/-- RG_RING_CFG as it reads. -/
def Ring.cfgValue (r : Ring) : Nat :=
  r.logEntries + r.cls * 2 ^ 4 + b2n r.enabled * 2 ^ 6 + r.gen * 2 ^ 8 + r.vector * 2 ^ 16 + r.modCount * 2 ^ 32
    + r.modUs * 2 ^ 40 + r.maxInflight * 2 ^ 56

/-- LOG_ENTRIES stores 6 to 12; another value stores the nearer of the two. -/
def clampLog (v : Nat) : Nat := if v < 6 then 6 else if v > 12 then 12 else v

/-- The fields of a RG_RING_CFG write but ENABLE: the first three only while OFF (R82). -/
def Ring.setCfg (r : Ring) (v : Nat) : Ring :=
  let r := { r with modCount := bits v 32 8, modUs := bits v 40 10, maxInflight := bits v 56 8 }
  if r.state = .off then { r with logEntries := clampLog (bits v 0 4), cls := bits v 4 2, vector := bits v 16 11 } else r

/-- Rings of a tenant that are not OFF; all of them. -/
def State.ringsHeld (s : State) (ten : Nat) : Nat := (s.rings.filter fun r => r.1 / 256 == ten && r.2.state != .off).length
def State.ringsInUse (s : State) : Nat := (s.rings.filter fun r => r.2.state != .off).length

/-- The check of an enable: ERR, zero where it passes (R83). -/
def State.enableErr (s : State) (ten lring : Nat) : Nat :=
  let r := s.ring ten lring
  if r.state ≠ .off then 4
  else if s.ringsHeld ten ≥ (s.tnSet ten).ringMax then 1
  else if s.ringsInUse ≥ 32768 then 2
  else if r.vector ≥ (s.tnSet ten).msixCount then 3
  else 0

/-- Enables a ring, or records why not (R83). -/
def State.enableRing (s : State) (ten lring : Nat) : State :=
  let e := s.enableErr ten lring
  s.updRing ten lring fun r =>
    if e = 0 then { r with state := .live, err := 0, gen := (r.gen + 1) % 256, sqHead := 0, sqTail := 0, cqHead := 0, cplPos := 0,
                           reserved := 0, hist := [], spanFailed := false, fromError := false, cplFull := false,
                           modSeen := 0, modSince := none }
    else { r with err := e }

/-- A fetched command that has not started finishes with a status (R84). -/
def Cmd.cancel (c : Cmd) (st now : Nat) : Cmd :=
  match c.phase with
  | .waiting => { c with phase := .finished, status := st, detail := 0, endAt := now }
  | .held _ => { c with phase := .finished, status := st, detail := 0, endAt := now }
  | _ => c

/-- Cancels every fetched command of a ring that has not started (R84). -/
def State.cancelUnstarted (s : State) (ten lring st : Nat) : State :=
  s.updRing ten lring fun r => { r with cmds := r.cmds.map fun c => c.cancel st s.now }

/-- Disables a LIVE or ERROR ring (R84). -/
def State.disableRing (s : State) (ten lring : Nat) : State :=
  let r := s.ring ten lring
  if r.state = .live ∨ r.state = .error then
    (s.updRing ten lring fun r => { r with fromError := r.state == .error, state := .draining }).cancelUnstarted ten lring St.cancelled
  else s

/-- A write of RG_RING_CFG for a ring: its fields, then ENABLE. The caller judges the phase (R378). -/
def State.writeRingCfg (s : State) (ten lring v : Nat) : State :=
  let s := s.updRing ten lring fun r => r.setCfg v
  if bitOf v 6 then s.enableRing ten lring else s.disableRing ten lring

/-- Register offset of RG_RING_CFG as function fn sees it (R77, R78). -/
def ringCfgOff (fn : Nat) : Nat := (if fn = 0 then 0x00020000 else 0x1000) + 0x20

/-- RING_ENABLE: a 64-bit write of RG_RING_CFG with ENABLE = 1; before READY it is dropped and logged (R83, R378). -/
def execRingEnable (t fn value : Nat) (s : State) : Host.Outcome State Fault Refusal :=
  run t s fun s =>
    s.onlyIf (bitOf value 6) fun s =>
      if s.power.phase = .ready then s.writeRingCfg (s.selRing fn).1 (s.selRing fn).2 value
      else s.logDropped fn (ringCfgOff fn) value

/-- RING_DISABLE: a 64-bit write of RG_RING_CFG with ENABLE = 0 (R84); before READY the register is not among those that may be written (R378). -/
def execRingDisable (t fn value : Nat) (s : State) : Host.Outcome State Fault Refusal :=
  run t s fun s =>
    s.onlyIf (!bitOf value 6) fun s =>
      if s.power.phase ≠ .ready then s.logDropped fn (ringCfgOff fn) value
      else s.writeRingCfg (s.selRing fn).1 (s.selRing fn).2 value

/-- RING_DRAINED: a DRAINING ring with no command left moves to OFF (R84). -/
def execRingDrained (t ten lring : Nat) (s : State) : Host.Outcome State Fault Refusal :=
  run t s fun s =>
    s.onlyIf ((s.ring ten lring).state == .draining && (s.ring ten lring).cmds.isEmpty) fun s =>
      s.updRing ten lring fun r => { r with state := .off, fromError := false }

/-! ### The watcher (R86 to R90) -/

/-- The interim positions that CQ_HEAD has passed are reserved again (R102). -/
def Ring.passInterims (r : Ring) : Ring :=
  let passed (c : Cmd) : Bool := c.eval.any fun e => e.lastInterim.any fun p => decide (p < r.cqHead)
  { r with
    reserved := r.reserved + (r.cmds.filter passed).length
    cmds := r.cmds.map fun c => if passed c then
        { c with reserved := c.reserved + 1, eval := c.eval.map fun e => { e with lastInterim := none } } else c }

/-- What a tail record does to a ring: stale, invalid, or taken (R88). -/
inductive TailJudge where
  | stale
  | invalid
  | valid (advance cqAdvance : Nat)
deriving DecidableEq, Repr

def Ring.judgeTail (r : Ring) (v : Nat) : TailJudge :=
  let adv := (bits v 0 32 + (2 ^ 32 - r.sqTail % 2 ^ 32)) % 2 ^ 32
  let cq := (bits v 32 16 + (2 ^ 16 - r.cqHead % 2 ^ 16)) % 2 ^ 16
  let oldest := (r.cmds.head?).elim r.sqHead (·.seq)
  if bits v 48 8 ≠ r.gen then .stale
  else if adv ≥ 2 ^ 31 ∨ (bits v 0 32 + (2 ^ 32 - oldest % 2 ^ 32)) % 2 ^ 32 > 2 ^ r.logEntries
      ∨ cq ≥ 2 ^ 15 ∨ cq > r.cplPos - r.cqHead then .invalid
  else .valid adv cq

/-- Takes a tail record (R88). -/
def State.takeTail (s : State) (ten lring v : Nat) : State :=
  match (s.ring ten lring).judgeTail v with
  | .stale => s.updRing ten lring fun r => { r with dbStale := true }
  | .invalid =>
    (s.updRing ten lring fun r => { r with dbInvalid := true }).logRec Rec.ring 0 ten lring ((s.ten ten).dbAddr + 8 * lring) v
  | .valid adv cq =>
    s.updRing ten lring fun r =>
      ({ r with sqTail := r.sqTail + adv, cqHead := r.cqHead + cq, cplFull := if cq = 0 then r.cplFull else false }).passInterims

/-- A freshly fetched command. An unknown opcode finishes at once (R91). -/
def Cmd.fetched (seq fetchNo now : Nat) (e : List Byte) : Cmd :=
  { seq := seq, entry := e, fetchNo := fetchNo
    phase := if opcodes.contains (byteAt e 0) then .waiting else .finished
    status := if opcodes.contains (byteAt e 0) then St.ok else St.badOpcode
    detail := 0, startAt := none, endAt := now, ops := 0, replayed := false, reserved := 0, block := [], load := none,
    runDone := false, comb := none, eval := none }

/-- Whether the watcher may fetch another entry of a ring now (R84, R85, R89, R372). -/
def State.mayFetch (s : State) (ten lring : Nat) : Bool :=
  let r := s.ring ten lring
  r.state == .live && decide (r.sqHead < r.sqTail) && decide (r.cmds.length ≤ r.maxInflight) && s.starts ten

/-- Fetches entries of a ring in index order, at most n (R89); one that cannot be read puts the ring in ERROR (R85). -/
def State.fetchRing (s : State) (h : HostView) (ten lring tail : Nat) : Nat → State
  | 0 => s
  | n + 1 =>
    if s.mayFetch ten lring then
      let r := s.ring ten lring
      let iova := r.subBase + 128 * (r.sqHead % 2 ^ r.logEntries)
      match hostRead h ten iova 128 with
      | none => s.ringError ten lring iova tail
      | some e =>
        let s := { s with fetches := s.fetches + 1 }
        State.fetchRing (s.updRing ten lring fun r => { r with
          sqHead := r.sqHead + 1
          cmds := r.cmds ++ [Cmd.fetched r.sqHead s.fetches s.now e] }) h ten lring tail n
    else s

/-- A ring whose tail records count: LIVE, or DRAINING, whose completions still need CQ_HEAD (R84, R90; DEDUCED, log 125). -/
def Ring.heard (r : Ring) : Bool := r.state == .live || r.state == .draining

/-- Reads the tail record of one ring and acts on it; a record that cannot be read changes nothing (log 17). -/
def State.scanRing (s : State) (h : HostView) (ten lring : Nat) : State :=
  if (s.ring ten lring).heard ∧ (s.ten ten).dbEn then
    match hostRead h ten ((s.ten ten).dbAddr + 8 * lring) 8 with
    | none => s
    | some b => (s.takeTail ten lring (leNat b)).fetchRing h ten lring (leNat b) 256
  else s

/-- RING_POLL: the watcher reads the tail record of every LIVE ring of a class (R87). -/
def execRingPoll (t cls : Nat) (h : HostView) (s : State) : Host.Outcome State Fault Refusal :=
  run t s fun s =>
    s.onlyIf (decide (cls < 4) && s.power.pf == .d0) fun s =>
      let s := { s with pollAt := s.pollAt.set cls s.now }
      (s.rings.filter fun r => r.2.cls == cls && r.2.state == .live).foldl (fun s r => s.scanRing h (r.1 / 256) (r.1 % 256)) s

/-- KICK: a write to a tenant's kick page. Only an aligned 32-bit or 64-bit write to offset 0 is a kick (R79, R90); before READY it is dropped and logged (R378). A scan is one step here (log 20). -/
def execKick (t fn off width : Nat) (h : HostView) (s : State) : Host.Outcome State Fault Refusal :=
  run t s fun s =>
    if (width ≠ 4 ∧ width ≠ 8) ∨ off % width ≠ 0 then s.logDropped fn off 0
    else if off ≠ 0 then s
    else if s.power.phase ≠ .ready then s.logDropped fn off 0
    else (s.rings.filter fun r => r.1 / 256 == fn).foldl (fun s r => s.scanRing h (r.1 / 256) (r.1 % 256)) s

/-! ### Final completions and interrupts -/

/-- The oldest command of a ring, if finished, gets its final completion (R98, R99). A command refused without a reservation needs a free position (R102). In ERROR, and in DRAINING from ERROR, completions are discarded (R84, R85). -/
def State.writeFinal (s : State) (h : HostView) (ten lring : Nat) : State :=
  let r := s.ring ten lring
  match r.cmds.head? with
  | none => s
  | some c =>
    if c.phase ≠ .finished then s
    else if r.state = .error ∨ r.fromError then s.retireCmd ten lring c false
    else if c.reserved = 0 ∧ r.freePositions = 0 then s.updRing ten lring fun r => { r with cplFull := true }
    else
      let w := s.hostWrite h ten r.cplIova (c.finalBytes r)
      if w.2 then
        let s := w.1.retireCmd ten lring c true
        if bitOf c.ctrl 2 ∨ c.status ≠ St.ok then s.eligible ten lring else s
      else (w.1.ringError ten lring r.cplIova 0).retireCmd ten lring c false

/-- MSIX_MOD_TIMER: MOD_US after the first unsignalled eligible completion the interrupt is sent (R103). -/
def execMsixModTimer (t ten lring : Nat) (s : State) : Host.Outcome State Fault Refusal :=
  run t s fun s =>
    let r := s.ring ten lring
    match r.modSince with
    | none => s
    | some w => s.onlyIf (decide (w + r.modUs * usec ≤ s.now)) fun s =>
        (s.updRing ten lring fun r => { r with modSeen := 0, modSince := none }).interrupt ten r.vector

/-! ### Holds and fences -/

/-- HELD_COMMAND_RELEASE: once the DRBG can serve, every held command may start (R292). -/
def execHeldCommandRelease (t : Nat) (s : State) : Host.Outcome State Fault Refusal :=
  run t s fun s =>
    s.onlyIf s.canServe fun s =>
      { s with rings := s.rings.map fun r => (r.1, { r.2 with cmds := r.2.cmds.map fun c =>
          match c.phase with
          | .held _ => { c with phase := .waiting }
          | _ => c }) }

/-- ENTROPY_HOLD_EXPIRE: a command held for 100 ms fails (R292). -/
def execEntropyHoldExpire (t ten lring seq : Nat) (s : State) : Host.Outcome State Fault Refusal :=
  run t s fun s =>
    match s.cmd? ten lring seq with
    | none => s
    | some c =>
      match c.phase with
      | .held since =>
        s.onlyIf (decide (since + 100 * msec ≤ s.now) && !s.canServe) fun s =>
          ({ s with entropy := { s.entropy with evHold := true } }).finish ten lring seq (St.entropyPending, 0)
      | _ => s

/-- CMD_FENCE: completes once every earlier command of its ring has its final completion (R96). -/
def execCmdFence (t ten lring seq : Nat) (s : State) : Host.Outcome State Fault Refusal :=
  run t s fun s =>
    let r := s.ring ten lring
    s.onlyIf ((r.cmds.head?).any fun c => c.seq == seq) fun s =>
      s.tryStart ten lring seq 0x60 onePosition noCheck noNeed fun s c =>
        if bitOf c.ctrl 3 ∧ r.spanFailed then s.finish ten lring seq (St.predecessorFailed, 0)
        else s.finish ten lring seq (St.ok, 0)

end Sys2Proof.Machine
end

