-- ==== Sys2Proof/Machine/Resets.lean ====
section
/-! DEFINITION. Warm, function-level and port resets, with and without a drain (R371 to R375). -/

namespace Sys2Proof.Machine

/-! ### Draining (R372) -/

/-- Ends a command that has not finished. -/
def State.killCmd (s : State) (ten lring seq : Nat) (e : Err) : State :=
  let s := (s.segs.filter fun g => g.ofCmd ten lring seq).foldl (fun s g => s.abortRun g) s
  s.finishLive ten lring seq e

/-- Whether an EVAL is parked at a round trip. -/
def Cmd.parked (c : Cmd) : Bool := c.eval.any fun v => v.attempt.isSome

/-- Ends the commands of the rings that `on` picks: those not started and parked EVALs, and with `all` the running ones too. -/
def State.endCmds (s : State) (on : Nat → Bool) (all : Bool) : State :=
  (s.rings.filter fun r => on (r.1 / 256)).foldl (fun s r =>
    r.2.cmds.foldl (fun s c =>
      if c.phase = .finished then s
      else if all ∨ c.phase ≠ .started ∨ c.parked then s.killCmd (r.1 / 256) (r.1 % 256) c.seq (St.deviceResetting, 0)
      else s) s) s

/-- Whether the rings that `on` picks hold no command. -/
def State.noCmds (s : State) (on : Nat → Bool) : Bool := s.rings.all fun r => !on (r.1 / 256) || r.2.cmds.isEmpty

/-! ### Warm resets (R372, R375, R377) -/

/-- A warm reset and the start that follows it. -/
def State.warm (s : State) (code : Nat) : State := (s.warmClear code).start false

/-- LAST_RESET of a PCIe reset (R380). -/
def resetCode : PcieReset → Nat
  | .perst => 1
  | .hotReset => 1
  | .pfFlr => 3

/-- WARM_RESET: every command ends without a completion. While PERST# is asserted the start waits. -/
def execWarmReset (t : Nat) (by_ : PcieReset) (s : State) : Host.Outcome State Fault Refusal :=
  run t s fun s =>
    if by_ = .perst ∨ s.power.heldByPerst then
      let s := s.warmClear (resetCode by_)
      { s with power := { s.power with heldByPerst := true } }
    else s.warm (resetCode by_)

/-- PERST_DEASSERT: the start that waited begins. -/
def execPerstDeassert (t : Nat) (s : State) : Host.Outcome State Fault Refusal :=
  run t s fun s => s.onlyIf s.power.heldByPerst fun s =>
    ({ s with power := { s.power with heldByPerst := false, releasedAt := s.now } }).start false

/-- Offset of PW_RESET. -/
def pwResetOff : Nat := 0xE0010

/-! ### Function-level resets (R373) -/

/-- Everything a tenant holds but its TN_ settings, its meters and its view of the log. -/
def Tenant.flr (x : Tenant) : Tenant := { x.cleared with werr := x.werr }

/-- A tenant's objects are freed, their pages waiting for the scrub. -/
def Dram.freeTenant (d : Dram) (ten : Nat) : Dram :=
  { d with objs := d.objs.filter fun o => o.2.ten != ten, dirty := (d.objs.filter fun o => o.2.ten == ten).flatMap (·.2.extents) ++ d.dirty }

/-- The function-level resets under way with one more; a second of the same tenant takes the first one's place. -/
def putFlr (l : List Flr) (f : Flr) : List Flr := (l.filter fun x => x.ten != f.ten) ++ [f]

/-- A tenant's ring goes OFF with every register reset but GEN. -/
def ringFlr (ten : Nat) (r : Nat × Ring) : Nat × Ring := (r.1, if r.1 / 256 = ten then { Ring.fresh with gen := r.2.gen } else r.2)

/-- Ends a tenant: commands, rings, cells, shelves, objects; its pages are scrubbed next. -/
def State.flr (s : State) (ten : Nat) : State :=
  let pages := (s.dram.objs.filter fun o => o.2.ten == ten).flatMap fun o => o.2.extents
  let s := (s.segs.filter fun g => g.ten == ten).foldl (fun s g => s.abortRun g) s
  let s := { s with
    rings := s.rings.map (ringFlr ten)
    cells := s.cells.filter fun c => c.2.lastTen != some ten
    dram := s.dram.freeTenant ten
    msixHeld := s.msixHeld.filter fun m => m.1 != ten
    fabric := { s.fabric with inbox := s.fabric.inbox.filter fun m => m.ten != ten, landed := s.fabric.landed.filter fun m => m.1 != ten
                              occupied := s.fabric.occupied.filter fun m => m.1 != ten }
    power := { s.power with flrs := putFlr s.power.flrs { ten := ten, draining := false, since := s.now, pages := pages } } }
  let s := s.updTen ten Tenant.flr
  (List.range 4).foldl (fun s c =>
    let s := s.updComb c fun k => { k with shelves := k.shelves.filter fun r => r.ten != ten }
    ((s.comb c).reserved.filter fun r => r.2.1 == ten && r.2.2).foldl (fun s r => s.updCell r.1 fun x => { x with lastTen := some ten }) s) s

/-- PW_RESET.TENANT_GO: needs READY; with DRAIN the tenant's rings drain first. -/
def State.resetTenant (s : State) (ten : Nat) (drain : Bool) : State :=
  if s.power.phase ≠ .ready then s.logDropped 0 pwResetOff (b2n drain * 2 + 4 + ten * 8)
  else if drain ∧ !s.noCmds (· == ten) then
    let s := s.endCmds (· == ten) false
    { s with power := { s.power with flrs := putFlr s.power.flrs { ten := ten, draining := true, since := s.now, pages := [] } } }
  else s.flr ten

/-- FUNCTION_LEVEL_RESET: through PCIe at once, or through PW_RESET. A function-level reset of the physical function by PCIe is a warm reset (R371), another command. -/
def execFunctionLevelReset (t ten : Nat) (pcie drain : Bool) (s : State) : Host.Outcome State Fault Refusal :=
  run t s fun s => s.onlyIf (decide (ten < 512) && !(pcie && ten == 0)) fun s => if pcie then s.flr ten else s.resetTenant ten drain

/-- FLR_SCRUB_DONE: the tenant's pages are zero, and the reset is complete. -/
def execFlrScrubDone (t ten : Nat) (s : State) : Host.Outcome State Fault Refusal :=
  run t s fun s =>
    match s.power.flrs.find? fun f => f.ten == ten && !f.draining with
    | none => s
    | some f =>
      let d := s.dram.scrubPages (inExtents f.pages)
      { s with dram := { d with dirty := d.dirty.filter fun e => !f.pages.contains e }
               power := { s.power with flrs := s.power.flrs.filter fun x => x.ten != ten } }

/-! ### The end of a drain -/

/-- A drain with nothing left goes on to its reset (R372, R373). -/
def State.afterDrain (s : State) : State :=
  if s.power.warmDrain.isSome && s.noCmds (fun _ => true) then s.warm 2
  else
    (s.power.flrs.filter fun f => f.draining && s.noCmds (· == f.ten)).foldl (fun s f => s.flr f.ten) s

/-- PW_RESET.WARM: a warm reset at once, or after a drain. -/
def State.resetWarm (s : State) (drain : Bool) : State :=
  if s.power.phase = .rom then s.logDropped 0 pwResetOff (1 + b2n drain * 2)
  else if drain then
    (({ s with power := { s.power with warmDrain := some (s.power.warmDrain.getD s.now) } }).endCmds (fun _ => true) false).afterDrain
  else s.warm 2

/-- PW_RESET_WARM (R372). -/
def execPwResetWarm (t : Nat) (drain : Bool) (s : State) : Host.Outcome State Fault Refusal := run t s fun s => s.resetWarm drain

/-- DRAIN_TIMEOUT: 10 ms into a drain, what still runs completes with ST_DEVICE_RESETTING. -/
def execDrainTimeout (t : Nat) (s : State) : Host.Outcome State Fault Refusal :=
  run t s fun s =>
    let late (since : Nat) : Bool := decide (since + 10 * msec ≤ s.now)
    let s := if s.power.warmDrain.any late then s.endCmds (fun _ => true) true else s
    let flrs := s.power.flrs.filter fun f => f.draining && late f.since
    (flrs.foldl (fun s f => s.endCmds (· == f.ten) true) s).afterDrain

/-- FINAL_COMPLETION_WRITE: the oldest command of a ring gets its final completion; the last one of a drain lets the reset proceed. -/
def execFinalCompletionWrite (t ten lring : Nat) (h : HostView) (s : State) : Host.Outcome State Fault Refusal :=
  run t s fun s => (s.writeFinal h ten lring).afterDrain

/-! ### Port reset (R374) -/

/-- PW_RESET.PORT_GO: the port goes DARK without its keys, then trains where it may. -/
def State.resetPort (s : State) (port : Nat) : State :=
  if s.power.phase ≠ .ready then s.logDropped 0 pwResetOff (2 ^ 12 + port * 2 ^ 13)
  else (s.unkeyPort port .dark).tryTrain port

/-- PW_RESET_PORT (R374). -/
def execPwResetPort (t port : Nat) (s : State) : Host.Outcome State Fault Refusal :=
  run t s fun s => s.onlyIf (decide (port < 32)) fun s => s.resetPort port

/-- A write of PW_RESET; one with more than one of WARM, TENANT_GO and PORT_GO set is dropped and logged (R380). -/
def State.writePwReset (s : State) (v : Nat) : State :=
  let drain := bitOf v 1
  match bitOf v 0, bitOf v 2, bitOf v 12 with
  | true, false, false => s.resetWarm drain
  | false, true, false => s.resetTenant (bits v 3 9) drain
  | false, false, true => s.resetPort (bits v 13 5)
  | false, false, false => s
  | _, _, _ => s.logDropped 0 pwResetOff v

end Sys2Proof.Machine
end

