-- ==== Sys2Proof/Machine/PowerOps.lean ====
section
/-! DEFINITION. Power states of the device and of its functions, the input supply and the hold-up store (R366 to R370, R402, R405, R410). -/

namespace Sys2Proof.Machine

/-! ### Deep rest (R368, R369) -/

/-- D3HOT_ENTRY: every ring that is not OFF enters ERROR. -/
def execD3hotEntry (t : Nat) (s : State) : Host.Outcome State Fault Refusal :=
  run t s fun s => s.onlyIf (s.power.pf == .d0) fun s =>
    { s with power := { s.power with pf := .d3hot }
             rings := s.rings.map fun r => (r.1, if r.2.state = .off then r.2 else { r.2 with state := .error, fromError := true }) }

/-- A started command is still in the device. -/
def State.anyRunning (s : State) : Bool := s.rings.any fun r => r.2.cmds.any fun c => c.phase == .started

/-- DEEP_REST_GATE: combs gated, key stores off, ports DARK, once nothing runs. -/
def execDeepRestGate (t : Nat) (s : State) : Host.Outcome State Fault Refusal :=
  run t s fun s => s.onlyIf (s.power.pf == .d3hot && !s.anyRunning) fun s =>
    let s := (List.range 32).foldl (fun s p => s.unkeyPort p .dark) s
    let s := (List.range 4).foldl (fun s c => s.updComb c fun k => { k.reloadPins with seeded := false, drawn := 0 }) s
    { s with power := { s.power with pf := .deepRest } }

/-- Wake from Deep rest: supplies, lane test, scrub, pins, READY; then ports train. -/
def State.wake (s : State) (testFail : List (Nat × Nat × Nat)) : State :=
  let s := s.combsUp.testBundles 0 bundleCount testFail
  let s := (List.range 4).foldl (fun s c => (s.zeroCells c).updComb c fun k => { k with rest := false }) s
  ({ s with power := { s.power with pf := .d0, phase := .ready } }).tryTrainAll

/-- D0_RETURN: the physical function returns to D0. -/
def execD0Return (t : Nat) (testFail : List (Nat × Nat × Nat)) (s : State) : Host.Outcome State Fault Refusal :=
  run t s fun s =>
    match s.power.pf with
    | .d0 => s
    | .d3hot => { s with power := { s.power with pf := .d0 } }
    | .deepRest => s.wake testFail

/-! ### Virtual functions (R370) -/

/-- VF_POWER_STATE: in D3hot a function's messages are kept; back in D0 they are sent. -/
def execVfPowerState (t ten : Nat) (d3hot : Bool) (s : State) : Host.Outcome State Fault Refusal :=
  run t s fun s => s.onlyIf (decide (0 < ten ∧ ten < 512)) fun s =>
    if d3hot then { s with power := { s.power with vfD3 := ten :: s.power.vfD3.filter (· != ten) } }
    else
      let held := s.msixHeld.filter fun m => m.1 == ten
      let s := { s with power := { s.power with vfD3 := s.power.vfD3.filter (· != ten) }, msixHeld := s.msixHeld.filter fun m => m.1 != ten }
      held.foldl (fun s m => s.emit (.msix m.1 m.2)) s

/-! ### Input supply and hold-up store (R402, R405, R410) -/

/-- LOW_INPUT_SET: the input has been below 44 V for more than 2 ms. -/
def execLowInputSet (t : Nat) (s : State) : Host.Outcome State Fault Refusal :=
  run t s fun s => { s with elec := { s.elec with lowInput := true } }

/-- LOW_INPUT_CLEAR: the input has stayed at 44 V or above for 100 ms. -/
def execLowInputClear (t : Nat) (s : State) : Host.Outcome State Fault Refusal :=
  run t s fun s => { s with elec := { s.elec with lowInput := false } }

/-- POWER_FAIL: the input has been below 42 V for more than 2 ms. A flash commit under way completes; the device is then Off. -/
def execPowerFail (t : Nat) (s : State) : Host.Outcome State Fault Refusal :=
  run t s fun s => { s.powerDown with elec := { s.elec with powerFail := true } }

/-- smb_alert_n is asserted (R415). -/
def State.smbAlert (s : State) : Bool :=
  s.power.emergency || s.power.phase == .failed || s.elec.lowInput || s.elec.capping || s.elec.powerFail

/-- HOLDUP_MEASURE: the usable energy, every 100 ms; settings that waited for a commit are saved. -/
def execHoldupMeasure (t millijoule : Nat) (s : State) : Host.Outcome State Fault Refusal :=
  run t s fun s =>
    let s := { s with elec := { s.elec with holdupMj := min 0xFFFF millijoule } }
    if s.fw.bookDirty then s.saveSettings else s

end Sys2Proof.Machine
end

