-- ==== Sys2Proof/Machine/Swarm.lean ====
section
/-! DEFINITION. Loading a swarm configuration (R297, R299 to R302). -/

namespace Sys2Proof.Machine

/-! ### Reading it (R300) -/

def swarmBytes (racks edges : Nat) : Nat := 128 + 512 * racks + 48 * edges

def parseEdge (b : List Byte) : Edge :=
  { edge := fld b 0 2, src := fld b 2 2, dst := fld b 4 2, ten := fld b 6 2, cls := byteAt b 8, sendSeg := fld b 0x0A 2
    recvSeg := fld b 0x0C 2, model := fld b 0x10 4, bytes := fld b 0x14 4, srcOffset := fld b 0x18 8, dstOffset := fld b 0x20 8 }

/-- The device entries and the edge entries, each as its bytes. -/
def swarmDevices (b : List Byte) : List (List Byte) := (List.range (32 * fld b 6 2)).map fun i => slice b (128 + 16 * i) 16
def swarmEdges (b : List Byte) : List (List Byte) :=
  (List.range (fld b 0x18 4)).map fun i => slice b (swarmBytes (fld b 6 2) 0 + 48 * i) 48

/-- No number twice. -/
def distinct : List Nat → Bool
  | [] => true
  | x :: r => !r.contains x && distinct r

/-! ### Checking it (R301) -/

/-- The header's fields and the length. -/
def swarmHeaderOk (b : List Byte) : Bool :=
  let racks := fld b 6 2
  let step (o : Nat) : Bool := decide (1 ≤ fld b o 4 ∧ fld b o 4 ≤ 10000)
  b.take 4 == ascii "LSWM" && byteAt b 4 == 1 && byteAt b 5 / 2 == 0 && decide (1 ≤ racks ∧ racks ≤ 64) && fld b 8 8 != 0
    && step 0x10 && step 0x14 && decide (fld b 0x18 4 ≤ 65535) && fld b 0x1C 4 == 0 && fld b 0x50 48 == 0
    && b.length == swarmBytes racks (fld b 0x18 4)

/-- The device entries: ids in order, reserved bytes zero, no serial twice. -/
def swarmDevicesOk (l : List (List Byte)) : Bool :=
  (List.range l.length).all (fun i => fld (l.getD i []) 0 2 == i && fld (l.getD i []) 2 6 == 0)
    && distinct (l.map fun e => fld e 8 8)

/-- One edge entry of a swarm of n devices. -/
def edgeOk (n : Nat) (b : List Byte) : Bool :=
  let e := parseEdge b
  e.edge != 0 && decide (e.src < n ∧ e.dst < n) && e.src != e.dst && decide (e.ten < 512 ∧ e.cls < 4) && byteAt b 9 == 0
    && fld b 0x0E 2 == 0 && fld b 0x28 8 == 0 && e.bytes % 64 == 0 && decide (64 ≤ e.bytes ∧ e.bytes ≤ 256 * 2 ^ 20)
    && e.srcOffset % 64 == 0 && e.dstOffset % 64 == 0

/-- Drops the arcs that start where no arc ends, as often as the fuel allows: what is left holds a cycle. -/
def cyclicArcs : Nat → List (Nat × Nat) → List (Nat × Nat)
  | 0, l => l
  | n + 1, l => cyclicArcs n (l.filter fun a => l.any fun b => b.2 == a.1)

/-- RESULT codes (R325). -/
def Cfg.loaded : Nat := 1
def Cfg.readFault : Nat := 2
def Cfg.format : Nat := 3
def Cfg.notListed : Nat := 4
def Cfg.cycle : Nat := 5

/-- The configuration, or the RESULT of its refusal. -/
def parseSwarm (serial : Nat) (b : List Byte) : Except Nat SwarmCfg :=
  if !swarmHeaderOk b then .error Cfg.format
  else
    let devices := swarmDevices b
    let raw := swarmEdges b
    let edges := raw.map parseEdge
    let serials := devices.map fun e => fld e 8 8
    if !swarmDevicesOk devices || !raw.all (edgeOk devices.length) || !distinct (edges.map (·.edge)) then .error Cfg.format
    else match serials.findIdx? (· == serial) with
      | none => .error Cfg.notListed
      | some me =>
        if !(cyclicArcs edges.length (edges.map fun e => (e.src, e.dst))).isEmpty then .error Cfg.cycle
        else .ok { swarmId := fld b 8 8, racks := fld b 6 2, freezeFw := bitOf (byteAt b 5) 0, step0Us := fld b 0x10 4, step1Us := fld b 0x14 4
                   fwDigest := slice b 0x20 48, serials := serials, edges := edges, digest := sha384 b, deviceId := me }

/-! ### Putting it in force (R302) -/

/-- Every link that is not DARK attests again, one without a peer goes DARK, and DARK ports that may train do. -/
def State.relink (s : State) (c : SwarmCfg) : State :=
  (List.range 32).foldl (fun s p =>
    if (s.port p).state = .dark then s.tryTrain p
    else if (c.peer p).isNone then s.unkeyPort p .dark
    else s.toAttesting p) s

/-- The configuration in force: saved, its steps counted from the next multiple (R65 corners), links attesting under it. -/
def State.useSwarm (s : State) (c : SwarmCfg) : State :=
  let s := ({ s with settings := { s.settings with swarm := some c } }).saveSettings
  let s := { s.rebaseSteps with waggle := { s.rebaseSteps.waggle with noLowerAt := s.now } }
  s.relink c

/-- FB_CFG_CTL.LOAD: before READY the load waits (R378). -/
def State.loadSwarm (s : State) (h : HostView) : State :=
  let done (s : State) (r : Nat) : State := { s with fabric := { s.fabric with result := r, busy := false } }
  if s.power.phase ≠ .ready then { s with fabric := { s.fabric with busy := true } }
  else match hostRead h 0 s.fabric.cfgAddr s.fabric.cfgLen with
    | none => done s Cfg.readFault
    | some b =>
      match parseSwarm s.fuses.serial b with
      | .error r => done s r
      | .ok c => done (s.useSwarm c) Cfg.loaded

/-- Offset of FB_CFG_CTL. -/
def cfgCtlOff : Nat := 0xD0008

/-- SWARM_CONFIG_LOAD: a write of FB_CFG_CTL with LOAD set, or the load that waited for READY. -/
def execSwarmConfigLoad (t : Nat) (h : HostView) (s : State) : Host.Outcome State Fault Refusal :=
  run t s fun s => if s.power.phase = .rom ∨ s.power.phase = .failed then s.logDropped 0 cfgCtlOff 1 else s.loadSwarm h

end Sys2Proof.Machine
end

