-- ==== Sys2Proof/Machine/RegMap.lean ====
section
/-! DEFINITION. The register map: which offsets hold a register of which width, and what each register reads (R6, R9, R33, R44, R57, R75 to R85, R106 to R110, R294, R325, R351, R364, R380, R401, R407). -/

namespace Sys2Proof.Machine

/-! ### Layout -/

/-- Width in bytes of the register that sits at an offset of the physical function's BAR0; 0 where none does. -/
def pfWidth (off : Nat) : Nat :=
  let one (l : List Nat) : Bool := l.contains off
  let span (lo n step : Nat) : Bool := decide (lo ≤ off ∧ off < lo + n * step) && (off - lo) % step == 0
  if one [0x0, 0x10000, 0x10038, 0x20000, 0x50000, 0x50010, 0x60208, 0x60218, 0x70008, 0xC0008, 0xC0010, 0xD0020, 0xE0008, 0xE0010, 0xE0020, 0xF0010]
      || span 0x100 6 4 || span 0x80110 4 0x10000 then 4
  else if one [0x8, 0x50008, 0x60000, 0x60008, 0x60100, 0x60200, 0x60210, 0x70000, 0x70010, 0x70018, 0x70020, 0x70028, 0xC0000, 0xE0000, 0xE0018, 0xE0028,
        0xF0000, 0xF0008]
      || span 0x10008 6 8 || span 0x20008 6 8 || span 0x40000 5 8 || span 0x50100 6 8 || span 0x80100 4 0x10000 || span 0x80108 4 0x10000
      || span 0xC0100 240 8 || span 0xD0000 4 8 || span 0xD0100 64 8 || span 0xF8000 4096 8 then 8
  else 0

/-- Width of the register at an offset of a virtual function's BAR0 (R78). -/
def vfWidth (off : Nat) : Nat :=
  let span (lo n : Nat) : Bool := decide (lo ≤ off ∧ off < lo + n * 8) && (off - lo) % 8 == 0
  if [0x0, 0x8, 0x1000].contains off then 4
  else if off = 0x3000 ∨ off = 0x4000 ∨ span 0x1008 6 ∨ span 0x2000 6 ∨ span 0x4100 256 then 8
  else 0

def regWidth (fn off : Nat) : Nat := if fn = 0 then pfWidth off else vfWidth off

/-- What an access of a width at an offset is (R9): wrong, unassigned, or an access to the low half, the high half or all of a register at a base. -/
inductive Access where
  | wrong
  | unassigned
  | reg (base : Nat) (lo hi : Bool)
deriving DecidableEq, Repr

def access (fn off width : Nat) : Access :=
  if (width ≠ 4 ∧ width ≠ 8) ∨ off % width ≠ 0 then .wrong
  else if width = 4 then
    if regWidth fn off = 4 then .reg off true false
    else if regWidth fn off = 8 then .reg off true false
    else if off % 8 = 4 ∧ regWidth fn (off - 4) = 8 then .reg (off - 4) false true
    else .unassigned
  else if regWidth fn off = 8 then .reg off true true
  else if regWidth fn off = 4 ∨ regWidth fn (off + 4) = 4 then .wrong
  else .unassigned

/-! ### Values -/

def SyncState.code : SyncState → Nat
  | .unsynced => 0 | .synced => 1 | .root => 2

def LinkState.code : LinkState → Nat
  | .dark => 0 | .training => 1 | .attesting => 2 | .keyed => 3 | .live => 4 | .quarantined => 5

def Phase.code : Phase → Nat
  | .rom => 0 | .queen => 1 | .lanes => 2 | .workers => 3 | .dram => 4 | .scrub => 5 | .ready => 6 | .failed => 7

def FwState.code : FwState → Nat
  | .idle => 0 | .checking => 1 | .writing => 2 | .verifying => 3 | .staged => 4 | .paused => 5 | .aborted => 6 | .failed => 7

def RingState.code : RingState → Nat
  | .off => 0 | .live => 1 | .draining => 2 | .error => 3

def CombSvc.code : CombSvc → Nat
  | .inService => 0 | .draining => 1 | .resetting => 2 | .outUntilStart => 3 | .isolated => 4 | .thermalRest => 5

def DirState.code : DirState → Nat
  | .full => 0 | .half => 1 | .failed => 2 | .retraining => 3

/-- A signed number as n bits, clamped to their range. -/
def signedBits (n : Nat) (x : Int) : Nat := ((max (-(2 ^ (n - 1))) (min (2 ^ (n - 1) - 1) x)) % 2 ^ n).toNat

/-- A log record as 32 bytes (R351). -/
def LogRec.bytes (r : LogRec) : List Byte :=
  toLE 1 r.type ++ toLE 1 r.flags ++ toLE 2 r.ten ++ toLE 4 r.source ++ toLE 8 r.waggle ++ toLE 8 r.arg0 ++ toLE 8 r.arg1

/-- The 8 bytes at word i of a run of records. -/
def recWord (l : Tbl LogRec) (i : Nat) : Nat := (Tbl.look l (i / 4)).elim 0 fun r => fld r.bytes (i % 4 * 8) 8

def boolBits (l : List Bool) : Nat := sumL ((List.range l.length).map fun i => b2n (l.getD i false) * 2 ^ i)

/-- CB_PACE_CTL. -/
def PaceSet.value (p : PaceSet) : Nat :=
  p.vmin + p.vmax * 2 ^ 8 + p.vfix * 2 ^ 16 + p.bandLo * 2 ^ 24 + p.bandHi * 2 ^ 32 + b2n p.paced * 2 ^ 40 + p.c0Hold * 2 ^ 48

/-- CB_ registers of a comb, by offset in its block. -/
def State.combReg (s : State) (c off : Nat) : Nat :=
  let k := s.comb c
  if off = 0x100 then (s.pace c).value
  else if off = 0x108 then k.vcode + b2n k.c0Floor * 2 ^ 8 + b2n k.thermal * 2 ^ 9 + k.occ * 2 ^ 16 + k.stageRate % 2 ^ 16 * 2 ^ 32
  else k.tj % 256 + k.tjMax % 256 * 2 ^ 8 + b2n s.power.emergency * 2 ^ 16 + b2n s.power.emergency * 2 ^ 17 + b2n k.emergSeen * 2 ^ 18 + b2n k.critSeen * 2 ^ 19

/-- Directions in a state after the last test. -/
def State.dirsIn (s : State) (d : DirState) : Nat :=
  ((List.range (2 * bundleCount)).filter fun i => (s.dir (i / 2) (i % 2)).state == d).length

def Direction.value (d : Direction) : Nat :=
  d.state.code + d.sparesFree * 2 ^ 2 + d.retrains * 2 ^ 4 + d.fusedOut * 2 ^ 8 + d.testFail * 2 ^ 26 + d.replays * 2 ^ 48

/-- DL_ registers; what the lane test decides reads zero until it has ended (R377). -/
def State.dlReg (s : State) (off : Nat) : Nat :=
  if off = 0xC0000 then
    if s.lanes.tested then s.dirsIn .full + s.dirsIn .half * 2 ^ 8 + s.dirsIn .failed * 2 ^ 16
      + boolBits ((List.range 4).map s.lanes.combIsolated.contains) * 2 ^ 24 + boolBits ((List.range 2).map s.lanes.edgeIsolated.contains) * 2 ^ 28
    else 0
  else if off = 0xC0008 then boolBits [s.lanes.degraded, s.lanes.failedEv, s.lanes.retrained, s.lanes.isolated]
  else if off = 0xC0010 then s.settings.localGib + s.dram.localGib * 2 ^ 8
  else
    let d := s.dir ((off - 0xC0100) / 16) ((off - 0xC0100) / 8 % 2)
    if s.lanes.tested then d.value else d.fusedOut * 2 ^ 8

/-- REASON of a port (R325). -/
def State.portReason (s : State) (p : Nat) : Nat :=
  let x := s.port p
  if x.state ≠ .dark then x.reason
  else if (s.portSet p).holdDark then 9
  else match s.settings.swarm with
    | none => 10
    | some c => if (c.peer p).isNone then 8 else 0

/-- FB_ registers. -/
def State.fbReg (s : State) (off : Nat) : Nat :=
  if off = 0xD0000 then s.fabric.cfgAddr
  else if off = 0xD0008 then s.fabric.result * 2 + b2n s.fabric.busy * 2 ^ 4 + s.fabric.cfgLen * 2 ^ 32
  else if off = 0xD0010 then s.settings.swarm.elim 0 fun c => c.deviceId + 2 ^ 11 + c.racks * 2 ^ 12
  else if off = 0xD0018 then s.settings.swarm.elim 0 (·.swarmId)
  else if off = 0xD0020 then boolBits [s.fabric.evQuarantined, s.fabric.evExhausted, s.fabric.evRetrained, s.fabric.evSyncLost]
  else
    let p := (off - 0xD0100) / 16
    let x := s.port p
    if (off - 0xD0100) / 8 % 2 = 0 then
      x.state.code + s.portReason p * 2 ^ 4 + x.peerId * 2 ^ 8 + x.tagFails * 2 ^ 32 + x.rekeys * 2 ^ 48
    else b2n (s.portSet p).holdDark + signedBits 16 (s.portSet p).asymNs * 2 ^ 16

/-- WG_ registers. -/
def State.wgReg (s : State) (off : Nat) : Nat :=
  if off = 0x40000 then s.now % 2 ^ 64
  else if off = 0x40008 then s.waggleEpoch
  else if off = 0x40010 then
    s.waggle.sync.code + s.waggle.parent.getD 0x3F * 2 ^ 2 + s.waggle.rootId * 2 ^ 8 + s.waggle.hops * 2 ^ 19 + signedBits 32 s.waggle.offsetNs * 2 ^ 32
  else if off = 0x40018 then s.stepUs 0 + s.stepUs 1 * 2 ^ 16
  else s.wall

/-- MT_ registers. -/
def State.mtReg (s : State) (off : Nat) : Nat :=
  if off = 0x50000 then s.settings.lenS + b2n s.settings.align_ * 2 ^ 11
  else if off = 0x50008 then s.meters.epoch + s.meters.held.length * 2 ^ 48
  else if off = 0x50010 then boolBits [s.meters.evStuck, s.meters.evFull, s.meters.evBack, s.meters.evTickets]
  else nth0 (s.ten s.tnSel).meters ((off - 0x50100) / 8)

/-- SC_KEYSTAT and TV_KEYSTAT of a tenant. -/
def State.keyStat (s : State) (ten : Nat) : Nat :=
  let x := s.ten ten
  x.keySlots.length + s.ephLive ten * 2 ^ 9 + x.gwSlots.length * 2 ^ 13 + b2n s.entropy.seeded * 2 ^ 18

/-- Commands that satisfy a test, over all rings. -/
def State.countCmds (s : State) (f : Cmd → Bool) : Nat := sumL (s.rings.map fun r => (r.2.cmds.filter f).length)

def Cmd.isHeld (c : Cmd) : Bool := match c.phase with | .held _ => true | _ => false

/-- SC_, PK_ and EN_ registers. -/
def State.scReg (s : State) (off : Nat) : Nat :=
  let e := s.entropy
  if off = 0x60000 then s.fuses.svn + b2n s.sec.idReady * 2 ^ 8 + sumL (s.tenants.map fun t => s.ephLive t.1) * 2 ^ 16
  else if off = 0x60008 then s.keyStat s.tnSel
  else if off = 0x60100 then
    min 16 (s.countCmds fun c => c.opcode == 0x30 && c.phase == .started) + s.sec.pointRej * 2 ^ 16 + s.sec.sigFail * 2 ^ 32
  else if off = 0x60200 then
    b2n e.seeded + b2n e.failed * 2 + b2n e.reseeding * 4 + e.poolMilli / 1000 * 2 ^ 3 + s.countCmds Cmd.isHeld % 2 ^ 16 * 2 ^ 32
  else if off = 0x60208 then boolBits [e.evRct, e.evApt, e.evStartup, e.evFailed, e.evHold]
  else if off = 0x60210 then e.seedTime % 2 ^ 64
  else e.rctFails + e.aptFails * 2 ^ 16

/-- FW_SLOT_A and FW_SLOT_B. -/
def FwSlot.value (x : FwSlot) : Nat :=
  x.bootState + x.attempts * 2 ^ 3 + x.image.elim 0 (·.svn) * 2 ^ 8 + x.newest.elim 0 (·.format) * 2 ^ 16 + x.image.elim 0 (·.version) * 2 ^ 32

/-- FW_ registers. -/
def State.fwReg (s : State) (off : Nat) : Nat :=
  let f := s.fw
  if off = 0x70000 then
    f.state.code + f.result * 2 ^ 4 + f.bootSlot * 2 ^ 12 + b2n f.xip * 2 ^ 13 + b2n f.trial * 2 ^ 14 + b2n f.draining * 2 ^ 15
      + s.elec.commits * 2 ^ 16 + s.sbFormat * 2 ^ 20 + f.sectorsDone * 2 ^ 48
  else if off = 0x70008 then b2n s.settings.ownerLock * 2 ^ 8
  else if off = 0x70010 then f.imgAddr
  else if off = 0x70018 then f.imgLen
  else (f.slot ((off - 0x70020) / 8)).value

/-- Pages whose scrub has not completed (R376): all of them at a start. -/
def State.scrubPages (s : State) : Nat := if s.power.startScrub then dramPages else sumL (s.dram.dirty.map (·.2))

/-- PW_ registers. -/
def State.pwReg (s : State) (off : Nat) : Nat :=
  let p := s.power
  if off = 0xE0000 then
    p.phase.code + p.failCause * 2 ^ 4 + boolBits ((List.range 4).map fun c => (s.comb c).rest) * 2 ^ 8 + p.lastReset * 2 ^ 12 + p.startMs * 2 ^ 16
  else if off = 0xE0008 then s.settings.restIdle + b2n s.settings.restEn * 2 ^ 16
  else if off = 0xE0018 then b2n (s.scrubPages != 0) + ceilDiv s.scrubPages 256 * 2 ^ 32
  else if off = 0xE0020 then p.hiveTj % 256 + p.e0Tj % 256 * 2 ^ 8 + p.e1Tj % 256 * 2 ^ 16
  else if off = 0xE0028 then
    s.elec.inputW % 2 ^ 11 + s.settings.capW * 2 ^ 16 + b2n s.elec.capping * 2 ^ 27 + b2n s.elec.lowInput * 2 ^ 28 + s.elec.holdupMj * 2 ^ 32
  else 0

/-- RS_ registers. -/
def State.rsReg (s : State) (off : Nat) : Nat :=
  let l := s.log
  if off = 0xF0000 then l.written + l.lost * 2 ^ 32
  else if off = 0xF0008 then l.dramCe + l.dramUe * 2 ^ 16 + l.combFaults * 2 ^ 32 + l.replays * 2 ^ 48
  else if off = 0xF0010 then sumL ((List.range 4).map fun c => (s.comb c).svc.code * 2 ^ (8 * c) + (s.comb c).faults * 2 ^ (8 * c + 3))
  else recWord l.recs ((off - 0xF8000) / 8)

/-- TN_ registers of the selected tenant. -/
def State.tnReg (s : State) (off : Nat) : Nat :=
  let x := s.tnSet s.tnSel
  if off = 0x10000 then s.tnSel
  else if off = 0x10008 then x.ctl
  else if off = 0x10010 then s.tnMem s.tnSel
  else if off = 0x10018 then x.sess
  else if off = 0x10020 then x.model
  else if off = 0x10028 then x.shelf
  else if off = 0x10030 then x.c0Res
  else (s.ten s.tnSel).werr

/-- RG_POLL. -/
def State.pollReg (s : State) : Nat := sumL ((List.range 4).map fun c => nth0 s.settings.poll c * 2 ^ (16 * c))

/-- RG_ registers by their offset in the ring block or page, as a function sees them. -/
def State.rgReg (s : State) (fn off : Nat) : Nat :=
  let q := s.selRing fn
  let r := s.ring q.1 q.2
  if off = 0 then q.2 + (if fn = 0 then s.rgTen * 2 ^ 16 else 0)
  else if off = 8 then b2n (s.ten q.1).dbEn + (s.ten q.1).dbAddr
  else if off = 0x10 then r.subBase
  else if off = 0x18 then r.cplBase
  else if off = 0x20 then r.cfgValue
  else if off = 0x28 then
    r.state.code + r.err * 2 ^ 4 + b2n r.dbInvalid * 2 ^ 8 + b2n r.dbStale * 2 ^ 9 + b2n r.cplFull * 2 ^ 10 + r.sqHead % 2 ^ 32 * 2 ^ 32
  else if fn = 0 then s.pollReg else 0

/-- What a register of the physical function reads. -/
def State.pfReg (s : State) (off : Nat) : Nat :=
  if off = 0 then s.fuses.ident
  else if off = 8 then s.fuses.serial
  else if off < 0x10000 then
    let k := (off - 0x100) / 4
    nth0 s.settings.ceil k + nth0 defaultCeilings k * 2 ^ 16
  else if off < 0x20000 then s.tnReg off
  else if off < 0x40000 then s.rgReg 0 (off - 0x20000)
  else if off < 0x50000 then s.wgReg off
  else if off < 0x60000 then s.mtReg off
  else if off < 0x70000 then s.scReg off
  else if off < 0x80000 then s.fwReg off
  else if off < 0xC0000 then s.combReg ((off - 0x80000) / 0x10000) (off % 0x10000)
  else if off < 0xD0000 then s.dlReg off
  else if off < 0xE0000 then s.fbReg off
  else if off < 0xF0000 then s.pwReg off
  else s.rsReg off

/-- What a register of virtual function fn reads. -/
def State.vfReg (s : State) (fn off : Nat) : Nat :=
  let v := (s.ten fn).view
  if off = 0 then s.fuses.ident
  else if off = 8 then fn
  else if off < 0x2000 then s.rgReg fn (off - 0x1000)
  else if off < 0x3000 then nth0 (s.ten fn).meters ((off - 0x2000) / 8)
  else if off < 0x4000 then s.keyStat fn
  else if off = 0x4000 then v.written + v.lost * 2 ^ 32
  else recWord v.recs ((off - 0x4100) / 8)

def State.regValue (s : State) (fn off : Nat) : Nat := if fn = 0 then s.pfReg off else s.vfReg fn off

/-- What a read access returns (R9). -/
def State.readAccess (s : State) (fn off width : Nat) : Nat :=
  match access fn off width with
  | .wrong => 2 ^ (8 * width) - 1
  | .unassigned => 0
  | .reg base true true => s.regValue fn base
  | .reg base true false => s.regValue fn base % 2 ^ 32
  | .reg base false _ => s.regValue fn base / 2 ^ 32 % 2 ^ 32

end Sys2Proof.Machine
end

