-- ==== Sys2Proof/Machine/Regs.lean ====
section
/-! DEFINITION. Register writes by the host, the TN_ checks, the wall clock, and the I3C sideband (R8, R9, R33, R43, R57, R75, R78 to R85, R106 to R110, R294, R325, R351, R357, R364, R378, R380, R401, R407, R414). -/

namespace Sys2Proof.Machine

/-! ### Small rules -/

/-- A counting field: writing zero restarts it, another value leaves it. -/
def restart (old v : Nat) : Nat := if v = 0 then 0 else old

/-- Write-1-to-clear. -/
def w1c (b : Bool) (v i : Nat) : Bool := b && !bitOf v i

/-- The value of a register after the halves written are replaced. -/
def merge (old v : Nat) (lo hi : Bool) : Nat :=
  (if lo then v % 2 ^ 32 else old % 2 ^ 32) + (if hi then v / 2 ^ 32 else old / 2 ^ 32) * 2 ^ 32

/-- Changes the settings and saves them in the book. -/
def State.setSettings (s : State) (f : Settings → Settings) : State := ({ s with settings := f s.settings }).saveSettings

/-! ### TN_ registers (R106 to R110) -/

/-- Vectors of all functions once tenant ten has n. -/
def State.msixSum (s : State) (ten n : Nat) : Nat :=
  let others := s.settings.tn.filter fun p => p.1 != ten
  tnSum others (·.msixCount) + n + (511 - others.length) * TnSet.reset.msixCount

/-- A field of all tenants summed once tenant ten has n. -/
def State.tnTotal (s : State) (ten : Nat) (f : TnSet → Nat) (n : Nat) : Nat := tnSum (s.settings.tn.filter fun p => p.1 != ten) f + n

/-- A TN_ write that is dropped whole: WERR gives the cause, and the error log has it. -/
def State.tnDrop (s : State) (ten off v cause : Nat) : State :=
  (s.updTen ten fun x => { x with werr := cause }).logDropped 0 off v

/-- An accepted TN_ write. -/
def State.tnAccept (s : State) (ten : Nat) (x : TnSet) : State := s.setSettings fun c => { c with tn := Tbl.put c.tn ten x }

/-- Writes TN_CTL. -/
def State.writeTnCtl (s : State) (ten v raw : Nat) : State :=
  let x := s.tnSet ten
  let n := bits v 32 12
  if n ≠ x.msixCount ∧ 2048 < s.msixSum ten n then s.tnDrop ten 0x10008 raw Werr.msix
  else if n ≠ x.msixCount ∧ 0 < s.ringsHeld ten then s.tnDrop ten 0x10008 raw Werr.msixRing
  else s.tnAccept ten { x with gateway := bitOf v 0, roundtrip := bitOf v 1, ringMax := min 256 (bits v 16 9), msixCount := n }

/-- Writes TN_SHELF. -/
def State.writeTnShelf (s : State) (ten v raw : Nat) : State :=
  let c0 := (List.range 4).map fun c => bits v (16 * c) 8
  let ok := (List.range 4).all fun c => decide (s.tnTotal ten (fun y => nth0 y.c0Shelves c) (nth0 c0 c) ≤ 96)
  if ok then s.tnAccept ten { s.tnSet ten with c0Shelves := c0, wShelves := (List.range 4).map fun c => min 192 (bits v (16 * c + 8) 8) }
  else s.tnDrop ten 0x10028 raw Werr.shelves

/-- Writes TN_C0_RES: cells move into and out of the tenant's reservation (R330). -/
def State.writeTnC0 (s : State) (ten v raw : Nat) : State :=
  let cells := (List.range 4).map fun c => bits v (8 * c) 7
  let bw := bits v 32 5
  if !((List.range 4).all fun c => decide (s.tnTotal ten (fun y => nth0 y.c0Cells c) (nth0 cells c) ≤ 64)) then s.tnDrop ten 0x10030 raw Werr.cells
  else if 25 < bw ∨ 50 < s.tnTotal ten (·.bwPct) bw then s.tnDrop ten 0x10030 raw Werr.bandwidth
  else
    let s := s.tnAccept ten { s.tnSet ten with c0Cells := cells, bwPct := bw }
    (List.range 4).foldl (fun s c => s.reserveCells ten c (nth0 cells c) false) s

/-- Writes a TN_ register of the selected tenant; `raw` is the value written. -/
def State.writeTn (s : State) (off v raw : Nat) : State :=
  let ten := s.tnSel
  let x := s.tnSet ten
  if off = 0x10000 then { s with tnSel := bits v 0 9 }
  else if off = 0x10008 then s.writeTnCtl ten v raw
  else if off = 0x10010 then s.tnAccept ten { x with dramMib := bits v 0 20 }
  else if off = 0x10018 then s.tnAccept ten { x with activeMax := bits v 0 17, recordMax := bits v 32 21 }
  else if off = 0x10020 then s.tnAccept ten { x with genMax := bits v 0 15, frameCeil := bits v 32 32 }
  else if off = 0x10028 then s.writeTnShelf ten v raw
  else if off = 0x10030 then s.writeTnC0 ten v raw
  else s

/-! ### RG_ registers (R78 to R85) -/

/-- Writes a register of the ring block or page. -/
def State.writeRg (s : State) (fn off v : Nat) (lo : Bool) : State :=
  let q := s.selRing fn
  if off = 0 then
    let s := if fn = 0 then { s with rgTen := bits v 16 9 } else s
    s.updTen fn fun x => { x with rgLring := bits v 0 8 }
  else if off = 8 then s.updTen q.1 fun x => { x with dbEn := bitOf v 0, dbAddr := v / 2 ^ 11 % 2 ^ 53 * 2 ^ 11 }
  else if off = 0x10 then s.updRing q.1 q.2 fun r => if r.state = .off then { r with subBase := v / 4096 % 2 ^ 52 * 4096 } else r
  else if off = 0x18 then s.updRing q.1 q.2 fun r => if r.state = .off then { r with cplBase := v / 4096 % 2 ^ 52 * 4096 } else r
  else if off = 0x20 then if lo then s.writeRingCfg q.1 q.2 v else s.updRing q.1 q.2 fun r => r.setCfg v
  else if off = 0x28 then
    if lo then s.updRing q.1 q.2 fun r => { r with dbInvalid := w1c r.dbInvalid v 8, dbStale := w1c r.dbStale v 9 } else s
  else if fn = 0 then s.setSettings fun c => { c with poll := (List.range 4).map fun k => max 1 (bits v (16 * k) 16) }
  else s

/-! ### The other blocks -/

/-- Writes an MT_ register (R359, R364). -/
def State.writeMt (s : State) (off v : Nat) : State :=
  if off = 0x50000 then s.setSettings fun c => { c with lenS := max 1 (min 1200 (bits v 0 11)), align_ := bitOf v 11 }
  else if off = 0x50010 then
    { s with meters := { s.meters with evStuck := w1c s.meters.evStuck v 0, evFull := w1c s.meters.evFull v 1,
                                       evBack := w1c s.meters.evBack v 2, evTickets := w1c s.meters.evTickets v 3 } }
  else s

/-- Writes a PK_ or EN_ register (R294). -/
def State.writeSc (s : State) (off v : Nat) (lo hi : Bool) : State :=
  let e := s.entropy
  if off = 0x60100 then
    { s with sec := { s.sec with pointRej := if lo then restart s.sec.pointRej (bits v 16 16) else s.sec.pointRej
                                 sigFail := if hi then restart s.sec.sigFail (bits v 32 16) else s.sec.sigFail } }
  else if off = 0x60208 then
    { s with entropy := { e with evRct := w1c e.evRct v 0, evApt := w1c e.evApt v 1, evStartup := w1c e.evStartup v 2,
                                 evFailed := w1c e.evFailed v 3, evHold := w1c e.evHold v 4 } }
  else if off = 0x60218 then { s with entropy := { e with rctFails := restart e.rctFails (bits v 0 16), aptFails := restart e.aptFails (bits v 16 16) } }
  else s

/-- Writes an FW_ register (R401). -/
def State.writeFw (s : State) (off v : Nat) (h : HostView) : State :=
  if off = 0x70008 then s.writeFwCtl v h
  else if off = 0x70010 then { s with fw := { s.fw with imgAddr := v / 4096 % 2 ^ 52 * 4096 } }
  else if off = 0x70018 then { s with fw := { s.fw with imgLen := v % 2 ^ 32 } }
  else s

/-- CB_PACE_CTL as a write leaves it: codes clamped (R75). -/
def paceFrom (v : Nat) : PaceSet :=
  let code (i : Nat) : Nat := min 60 (bits v i 6)
  let vmax := max 40 (code 8)
  let vmin := min (code 0) vmax
  { vmin := vmin, vmax := vmax, vfix := max vmin (min (code 16) vmax), bandLo := bits v 24 7, bandHi := bits v 32 7, paced := bitOf v 40, c0Hold := bits v 48 16 }

/-- Writes a CB_ register of a comb. -/
def State.writeCb (s : State) (off v raw : Nat) : State :=
  let c := (off - 0x80000) / 0x10000
  if off % 0x10000 = 0x100 then
    let p := paceFrom v
    if 100 < p.bandHi ∨ p.bandHi < p.bandLo + 10 then s.logDropped 0 off raw
    else s.setSettings fun x => { x with pace := Tbl.put x.pace c p }
  else if off % 0x10000 = 0x110 then s.updComb c fun k => { k with emergSeen := w1c k.emergSeen v 18, critSeen := w1c k.critSeen v 19 }
  else s

/-- Writes a DL_ register (R43, R57). -/
def State.writeDl (s : State) (off v : Nat) (hi : Bool) : State :=
  if off = 0xC0008 then
    { s with lanes := { s.lanes with degraded := w1c s.lanes.degraded v 0, failedEv := w1c s.lanes.failedEv v 1,
                                     retrained := w1c s.lanes.retrained v 2, isolated := w1c s.lanes.isolated v 3 } }
  else if off = 0xC0010 then s.setSettings fun c => { c with localGib := min 96 (bits v 0 7) }
  else if 0xC0100 ≤ off ∧ hi then
    s.updDir ((off - 0xC0100) / 16) ((off - 0xC0100) / 8 % 2) fun d => { d with replays := restart d.replays (bits v 48 16) }
  else s

/-- A 16-bit field as a signed number. -/
def signed16 (n : Nat) : Int := if n < 2 ^ 15 then (n : Int) else (n : Int) - 65536

/-- HOLD_DARK and ASYM_NS of a port: held, it goes DARK at once; released, it trains where it may (R311). -/
def State.writePortCtl (s : State) (p v : Nat) : State :=
  let x : PortSet := { holdDark := bitOf v 0, asymNs := signed16 (bits v 16 16) }
  let s := s.setSettings fun c => { c with port := Tbl.put c.port p x }
  if x.holdDark then (if (s.port p).state = .dark then s else s.unkeyPort p .dark) else s.tryTrain p

/-- Writes an FB_ register (R325). -/
def State.writeFb (s : State) (off v : Nat) (lo hi : Bool) (h : HostView) : State :=
  let f := s.fabric
  if off = 0xD0000 then { s with fabric := { f with cfgAddr := v / 4096 % 2 ^ 52 * 4096 } }
  else if off = 0xD0008 then
    let s := if hi then { s with fabric := { f with cfgLen := bits v 32 32 } } else s
    if lo && bitOf v 0 then s.loadSwarm h else s
  else if off = 0xD0020 then
    { s with fabric := { f with evQuarantined := w1c f.evQuarantined v 0, evExhausted := w1c f.evExhausted v 1,
                                evRetrained := w1c f.evRetrained v 2, evSyncLost := w1c f.evSyncLost v 3 } }
  else if 0xD0100 ≤ off then
    let p := (off - 0xD0100) / 16
    if (off - 0xD0100) / 8 % 2 = 1 then s.writePortCtl p v
    else if hi then s.updPort p fun x => { x with tagFails := restart x.tagFails (bits v 32 16) } else s
  else s

/-- Writes a PW_ register (R380, R407). -/
def State.writePw (s : State) (off v : Nat) : State :=
  if off = 0xE0008 then s.setSettings fun c => { c with restIdle := max 1 (bits v 0 16), restEn := bitOf v 16 }
  else if off = 0xE0010 then s.writePwReset v
  else if off = 0xE0028 then s.setSettings fun c => { c with capW := max 1250 (min 1500 (bits v 16 11)) }
  else s

/-- Writes an RS_ register (R351). -/
def State.writeRs (s : State) (off v : Nat) (lo hi : Bool) : State :=
  let l := s.log
  if off = 0xF0000 then if hi then { s with log := { l with lost := restart l.lost (bits v 32 16) } } else s
  else if off = 0xF0008 then
    { s with log := { l with dramCe := if lo then restart l.dramCe (bits v 0 16) else l.dramCe
                             dramUe := if lo then restart l.dramUe (bits v 16 16) else l.dramUe
                             combFaults := if hi then restart l.combFaults (bits v 32 16) else l.combFaults
                             replays := if hi then restart l.replays (bits v 48 16) else l.replays } }
  else s

/-- HV_PARAM_CEIL_k: a value above DEFAULT stores DEFAULT (R33, R34). -/
def State.writeCeil (s : State) (k v : Nat) : State :=
  s.setSettings fun c => { c with ceil := c.ceil.set k (min (bits v 0 12) (nth0 defaultCeilings k)) }

/-! ### The write of any register -/

/-- What one accepted access does to the register at a base: `v` the whole register with the halves written in place, `raw` what was written. -/
def State.writeBase (s : State) (fn base v raw : Nat) (lo hi : Bool) (h : HostView) : State :=
  if fn ≠ 0 then if 0x1000 ≤ base ∧ base < 0x2000 then s.writeRg fn (base - 0x1000) v lo else s
  else if base < 0x100 then s
  else if base < 0x10000 then s.writeCeil ((base - 0x100) / 4) v
  else if base < 0x20000 then s.writeTn base v raw
  else if base < 0x40000 then s.writeRg 0 (base - 0x20000) v lo
  else if base < 0x50000 then if base = 0x40020 then s.setWall v else s
  else if base < 0x60000 then s.writeMt base v
  else if base < 0x70000 then s.writeSc base v lo hi
  else if base < 0x80000 then s.writeFw base v h
  else if base < 0xC0000 then s.writeCb base v raw
  else if base < 0xD0000 then s.writeDl base v hi
  else if base < 0xE0000 then s.writeFb base v lo hi h
  else if base < 0xF0000 then s.writePw base v
  else s.writeRs base v lo hi

/-- Registers with an RWS field, the selectors that lead to them, and the others that may be written from QUEEN to SCRUB (R378; DEDUCED for the selectors, log 54). -/
def earlyOk (fn base v : Nat) : Bool :=
  if fn ≠ 0 then base == 0x1000
  else
    decide (0x100 ≤ base ∧ base < 0x20000) || [0x20000, 0x20030, 0x40020, 0x50000, 0xC0010, 0xD0000, 0xD0008, 0xE0008, 0xE0028, 0xF0000, 0xF0008].contains base
      || (decide (0x80000 ≤ base ∧ base < 0xC0000) && base % 0x10000 == 0x100) || (decide (0xD0100 ≤ base ∧ base < 0xE0000) && base / 8 % 2 == 1)
      || (base == 0x70008 && bits v 0 3 == 0) || (base == 0xE0010 && bitOf v 0 && !bitOf v 2 && !bitOf v 12)

/-- Whether the host may write a register in the present phase (R378). -/
def State.mayWriteReg (s : State) (fn base v : Nat) : Bool :=
  match s.power.phase with
  | .rom => false
  | .ready => true
  | .failed => fn == 0 && ((base == 0xE0010 && bitOf v 0 && !bitOf v 2 && !bitOf v 12) || (s.fw.xip && [0x70008, 0x70010, 0x70018].contains base))
  | _ => earlyOk fn base v

/-- A write access of function fn at an offset. -/
def State.writeAccess (s : State) (fn off width value : Nat) (h : HostView) : State :=
  match access fn off width with
  | .wrong => s.logDropped fn off value
  | .unassigned => s
  | .reg base lo hi =>
    let raw := if lo then value else value % 2 ^ 32 * 2 ^ 32
    let v := merge (s.regValue fn base) raw lo hi
    if s.mayWriteReg fn base raw then s.writeBase fn base v value lo hi h else s.logDropped fn off value

/-- REGISTER_WRITE: a host write to BAR0 (R9). -/
def execRegisterWrite (t fn off width value : Nat) (h : HostView) (s : State) : Host.Outcome State Fault Refusal :=
  run t s fun s => s.onlyIf (decide (fn < 512)) fun s => s.writeAccess fn off width (value % 2 ^ (8 * width)) h

/-- TN_WRITE: a write in the TN_ block of the physical function (R108). -/
def execTnWrite (t fn off width value : Nat) (s : State) : Host.Outcome State Fault Refusal :=
  run t s fun s => s.onlyIf (fn == 0 && decide (0x10000 ≤ off ∧ off < 0x20000)) fun s => s.writeAccess 0 off width (value % 2 ^ (8 * width)) []

/-- WALL_CLOCK_WRITE: a write of WG_WALL (R357). -/
def execWallClockWrite (t fn off width value : Nat) (s : State) : Host.Outcome State Fault Refusal :=
  run t s fun s => s.onlyIf (fn == 0 && decide (0x40020 ≤ off ∧ off < 0x40028)) fun s => s.writeAccess 0 off width (value % 2 ^ (8 * width)) []

/-! ### The I3C sideband (R414) -/

/-- Registers that the bus reaches. -/
def i3cRegs : List Nat := [0x0, 0x8, 0xE0000, 0xE0020, 0xE0028, 0x80110, 0x90110, 0xA0110, 0xB0110, 0x70000]

/-- Whether an access of the bus reaches one of them, judged as R9 judges an access. -/
def i3cReaches (off len : Nat) : Bool :=
  match access 0 off len with
  | .reg base _ _ => i3cRegs.contains base
  | .wrong => i3cRegs.contains off
  | .unassigned => false

/-- I3C_READ: 4 or 8 bytes of a register the bus reaches, judged as R9 judges an access; any other offset reads as zero. -/
def execI3cRead (t off len : Nat) (s : State) : Host.Outcome State Fault Refusal :=
  run t s fun s => s.onlyIf (len == 4 || len == 8) fun s =>
    s.emit (.i3cData (toLE len (if i3cReaches off len then s.readAccess 0 off len else 0)))

/-- I3C_WRITE: refused. -/
def execI3cWrite (t _off _value : Nat) (s : State) : Host.Outcome State Fault Refusal := run t s fun s => s.emit .i3cRefused

end Sys2Proof.Machine
end

