-- ==== Sys2Proof/Machine/Streams.lean ====
section
/-! DEFINITION. Forager streams, key multicast and relay chains (R151, R152, R225 to R237). -/

namespace Sys2Proof.Machine

/-- A receiving lane of a stream: group index g for tiles (b-halves with REGEN), 256 + g for the a-halves that A_OFFSET sends to cell g. -/
abbrev Lane := Nat

def laneCell (l : Lane) : Nat := l % 256
def laneIsA (l : Lane) : Bool := decide (256 ≤ l)

/-- Head of a lane: the DEST cell whose tiles it takes. -/
def StreamDef.laneHead (d : StreamDef) (l : Lane) : Nat := if laneIsA l then laneCell l - d.aOffset else l

/-- Whether a lane is one that the forager itself serves. -/
def StreamDef.isLane (d : StreamDef) (st : Stencil) (l : Lane) : Bool :=
  if laneIsA l then st.regen && d.aOffset != 0 && decide (d.aOffset ≤ laneCell l) && d.dest.contains (laneCell l - d.aOffset) else d.dest.contains l

/-- Number of the j-th tile of a head among all tiles (R226). -/
def StreamDef.tileOf (d : StreamDef) (head j : Nat) : Nat :=
  if d.split then
    let i := (d.dest.findIdx? fun h => h == head).getD 0
    j / max 1 d.run * (d.run * d.dest.length) + i * d.run + j % max 1 d.run
  else j

/-- Word addresses of a tile's slot: from the slot's start. -/
def StreamDef.slotOf (d : StreamDef) (j slot : Nat) : Nat := d.ringBase + j % max 1 d.ringTiles * slot

/-- Words of one slot of a lane. -/
def State.laneSlot (s : State) (g : SegRun) (d : StreamDef) (st : Stencil) : Nat := slotWords d st ((s.runKeys g).elim 0 (·.lweN))

/-- What a segment run's stream reads and is: its definition, its source. -/
def State.streamOf (s : State) (g : SegRun) (k : Nat) : Option (StreamDef × Stencil) :=
  (s.runDef g).bind fun x => (x.streams[k]?).bind fun d => (x.stencils[d.src]?).map fun st => (d, st)

/-- Words of tile k: those of its elements, and the regenerated a-half words (R226, R236, R237). -/
def State.tileData (s : State) (h : HostView) (g : SegRun) (d : StreamDef) (st : Stencil) (k : Nat) : Except Err (List Nat × List Nat) := do
  let base := s.resolve g st
  let es := (st.visit.drop (k * d.tileElems)).take (d.tileLen st k)
  let ws ← (es.flatMap (st.wordsAt base)).mapM fun a =>
    match a with
    | none => Except.ok 0
    | some a => if st.space = 4 then hostWord h g.ten a else s.dvaWord g.ten a
  if st.regen then
    match s.runKeys g, s.runComp g st with
    | some ks, some c =>
      let r := ks.regenInfo c.2
      let is := es.filterMap fun e => e.map fun (x : Int) => (((st.base / 4 : Nat) : Int) + x).toNat
      if r.kind = 4 then .ok ((is.zip ws).flatMap fun p => r.mask p.1 ++ [p.2], [])
      else .ok (ws, is.map r.word)
    | _, _ => .error (St.badHandle, 0)
  else .ok (ws, [])

/-- Words of a lane's slot, by address: b-halves first, then, in the same slot, the a-halves at TILE_ELEMS. -/
def StreamDef.landing (d : StreamDef) (l : Lane) (addr : Nat) (data : List Nat × List Nat) : List (Nat × Nat) :=
  let at_ (from_ : Nat) (ws : List Nat) : List (Nat × Nat) := ((List.range ws.length).map fun i => from_ + i).zip ws
  if laneIsA l then at_ addr data.2
  else if d.aOffset = 0 then at_ addr data.1 ++ at_ (addr + d.tileElems) data.2
  else at_ addr data.1

/-- Number that names a forager in DETAIL and in records (R152). -/
def foragerId (comb : Nat) (d : StreamDef) : Nat := 512 + 2 * comb + d.forager

/-- A forager-stream write reaches a cell: checked mode, the windows, the words, the token (R151, R152, R156, R187). -/
def State.foragerWrite (s : State) (g : SegRun) (d : StreamDef) (owner : Nat) (ws : List (Nat × Nat)) : State :=
  let e := extentOf (ws.map fun w => (owner, w.1))
  match s.cellRun owner with
  | none => s
  | some og =>
    match s.admits owner og g.ten g.comb e.1 e.2 none with
    | none => s.windowViolation g (foragerId g.comb d) owner e.1 e.2
    | some w =>
      match s.unfenced og none [] (ws.map fun w => (owner, w.1)) with
      | some c => s.failSeg og.id c (St.unfencedRead, c)
      | none => ((s.landWords none (ws.map fun w => (owner, w.1, w.2))).touch g.id).postToken owner w.2.queue

/-- Changes a stream's progress. -/
def State.updStream (s : State) (seg k : Nat) (f : StreamRun → StreamRun) : State :=
  s.updSeg seg fun g => { g with streams := Tbl.adjust g.streams k f }

/-- Takes a free token of a cell, if it holds one (R227). -/
def State.takeFreeToken (s : State) (cell q : Nat) : State := s.updCell cell fun c => c.takeTokens q 1

/-- Every receiving lane or chain cell, each with the key of its progress and its cell's group index. -/
def StreamDef.receivers (d : StreamDef) (st : Stencil) : List (Nat × Nat) :=
  let lanes := d.dest ++ (if st.regen ∧ d.aOffset ≠ 0 then d.dest.map fun h => 256 + h + d.aOffset else [])
  lanes.flatMap fun l =>
    let shift := if laneIsA l then d.aOffset else 0
    ((List.range (d.chain (d.laneHead l)).length).zip (d.chain (d.laneHead l))).map fun p => (16 * l + p.1, p.2 + shift)

/-- Tiles in all that a head takes. -/
def StreamDef.tilesOf (d : StreamDef) (st : Stencil) (head : Nat) : Nat :=
  let n := d.tiles st
  if d.split then ((List.range n).filter fun k => (d.tileHeads k).contains head).length else n

/-- The stream has ended: every receiver has given its last RING_TILES tokens (R227). -/
def StreamDef.ends (d : StreamDef) (st : Stencil) (r : StreamRun) : Bool :=
  (d.receivers st).all fun p => decide (d.ringTiles ≤ Tbl.lookD r.finals p.1 0)

/-- Takes the final free tokens that a receiver holds. -/
def State.takeFinals (s : State) (g : SegRun) (k : Nat) (d : StreamDef) (st : Stencil) (key cell : Nat) (r : StreamRun) : State :=
  let had := Tbl.lookD r.finals key 0
  let n := min ((s.cell cell).tokenCount d.freeQ) (d.ringTiles - had)
  let r' : StreamRun := { r with finals := Tbl.put r.finals key (had + n) }
  let s := (s.updCell cell fun c => c.takeTokens d.freeQ n).updStream g.id k fun _ => { r' with ended := d.ends st r' }
  if n = 0 then s else s.touch g.id

/-- Bytes of a tile that a key stream reads; the component's seeds are read with its first tile (R352). -/
def State.tileBytes (s : State) (g : SegRun) (d : StreamDef) (st : Stencil) (k : Nat) : Nat :=
  if st.bind_ = 4 then
    d.tileLen st k * st.elemBytes + (if k = 0 ∧ st.regen then 32 * ((s.runComp g st).elim 0 fun c => c.2.seeds.length) else 0)
  else 0

/-- A stream may deliver: its segment runs, on a comb in service. -/
def State.streams? (s : State) (g : SegRun) : Bool := g.phase == .running && g.fail.isNone && (s.comb g.comb).svc == .inService

/-- Delivers the next tile of a lane, whose cell holds a free token (R226, R227). -/
def State.deliverTile (s : State) (h : HostView) (g : SegRun) (k : Nat) (d : StreamDef) (st : Stencil) (l : Lane) (r : StreamRun) : State :=
  let j := Tbl.lookD r.delivered l 0
  let tile := d.tileOf (d.laneHead l) j
  let cell := g.cells.getD (laneCell l) 0
  match s.tileData h g d st tile with
  | .error e => s.failSeg g.id cell e
  | .ok data =>
    let firstRead := d.mcastId == 0 && !laneIsA l && d.dest.all fun o => !(d.tileHeads tile).contains o || decide (Tbl.lookD r.delivered o 0 ≤ j)
    let s := (s.useKey g st).takeFreeToken cell d.freeQ
    let s := s.updStream g.id k fun r => { r with delivered := Tbl.put r.delivered l (j + 1) }
    let s := if firstRead then s.updSeg g.id fun g => { g with keyBytes := g.keyBytes + s.tileBytes g d st tile } else s
    s.foragerWrite g d cell (d.landing l (d.slotOf j (s.laneSlot g d st)) data)

/-- Granules of a stream's source, and those that cover tile k (R232). -/
def StreamDef.granulesTo (d : StreamDef) (st : Stencil) (k : Nat) : Nat := ceilDiv (min st.total ((k + 1) * d.tileElems) * st.elemBytes) 4096

/-- FORAGER_TILE_DELIVER: the next tile of a lane, once its cell holds a free token; after the last tile, its final tokens (R227, R231, R232). -/
def execForagerTileDeliver (t seg stream dest : Nat) (h : HostView) (s : State) : Host.Outcome State Fault Refusal :=
  run t s fun s =>
    match s.seg? seg with
    | none => s
    | some g =>
      match s.streamOf g stream, Tbl.look g.streams stream with
      | some (d, st), some r =>
        s.onlyIf (s.streams? g && !r.ended && d.isLane st dest) fun s =>
          let j := Tbl.lookD r.delivered dest 0
          let cell := g.cells.getD (laneCell dest) 0
          if d.tilesOf st (d.laneHead dest) ≤ j then s.takeFinals g stream d st (16 * dest) cell r
          else if (s.cell cell).tokenCount d.freeQ = 0 then s
          else if d.mcastId ≠ 0 ∧ r.granules < d.granulesTo st (d.tileOf (d.laneHead dest) j) then s
          else s.deliverTile h g stream d st dest r
      | _, _ => s

/-! ### Multicast (R232, R233) -/

/-- The tile of a stream that holds granule n. -/
def StreamDef.granuleTile (d : StreamDef) (st : Stencil) (n : Nat) : Nat := n * 4096 / max 1 (d.tileElems * st.elemBytes)

/-- Whether a member can accept granule n under its own mode and free tokens; a member that has failed takes and discards it. -/
def State.canAccept (s : State) (m : SegRun × Nat × StreamDef) (n : Nat) : Bool :=
  let g := m.1
  if g.fail.isSome then true
  else if g.phase != .running then false
  else match s.streamOf g m.2.1, Tbl.look g.streams m.2.1 with
    | some (d, st), some r =>
      let tile := d.granuleTile st n
      let lanes := (d.tileHeads tile).flatMap fun h => h :: (d.aCell st h).toList.map (256 + ·)
      lanes.all fun l =>
        let ahead := d.tileNo tile - Tbl.lookD r.delivered l 0
        if d.fixedDepth then decide (ahead < d.depth) else decide (ahead < (s.cell (g.cells.getD (laneCell l) 0)).tokenCount d.freeQ)
    | _, _ => false

/-- The fetching comb: that whose stacks hold the source's first granule, when it has a member, else the lowest-numbered member's (R232). -/
def State.fetchingComb (s : State) (g : SegRun) (st : Stencil) (ms : List (SegRun × Nat × StreamDef)) : Nat :=
  let combs := ms.map fun m => m.1.comb
  let owner := (s.dram.translate g.ten (s.resolve g st)).bind fun a =>
    if a < 8 * s.dram.localGib * 2 ^ 30 then some ((stackOf s.dram.localGib a).1 / 2) else none
  match owner with
  | some c => if combs.contains c then c else (combs.min?).getD 0
  | none => (combs.min?).getD 0

/-- MULTICAST_GRANULE_FETCH: a granule is read once, when every member can accept it, and reaches every member (R232). -/
def execMulticastGranuleFetch (t seg stream : Nat) (h : HostView) (s : State) : Host.Outcome State Fault Refusal :=
  run t s fun s =>
    match s.seg? seg with
    | none => s
    | some g =>
      match s.streamOf g stream, Tbl.look g.streams stream with
      | some (d, st), some r =>
        let ms := s.members g d.mcastId
        s.onlyIf (s.streams? g && d.mcastId != 0 && decide (r.granules < d.granulesTo st (d.tiles st - 1)) && s.fetchingComb g st ms == g.comb
            && ms.all fun m => s.canAccept m r.granules) fun s =>
          match s.tileData h g d st (d.granuleTile st r.granules) with
          | .error e => s.failSeg seg (g.cells.headD 0) e
          | .ok _ =>
            let bytes := if st.bind_ = 4 then
                min 4096 (st.total * st.elemBytes - 4096 * r.granules)
                  + (if r.granules = 0 ∧ st.regen then 32 * ((s.runComp g st).elim 0 fun c => c.2.seeds.length) else 0)
              else 0
            let s := (s.useKey g st).updSeg seg fun g => { g with keyBytes := g.keyBytes + bytes }
            ms.foldl (fun s m => s.updStream m.1.id m.2.1 fun x => { x with granules := r.granules + 1 }) s
      | _, _ => s

/-! ### Relay chains (R235) -/

/-- RELAY_HOP: a chain cell passes a tile it has taken to the next cell of its chain, once it holds that cell's free token; `head` names the lane and `hop` the receiving place in the chain, from 1. -/
def execRelayHop (t seg stream head hop : Nat) (h : HostView) (s : State) : Host.Outcome State Fault Refusal :=
  run t s fun s =>
    match s.seg? seg with
    | none => s
    | some g =>
      match s.streamOf g stream, Tbl.look g.streams stream with
      | some (d, st), some r =>
        s.onlyIf (s.streams? g && !r.ended && d.relay && d.isLane st head && decide (0 < hop ∧ hop < d.chainLen)) fun s =>
          let key := 16 * head + hop
          let shift := if laneIsA head then d.aOffset else 0
          let cell := g.cells.getD ((d.chain (d.laneHead head)).getD hop 0 + shift) 0
          let j := Tbl.lookD r.hopped key 0
          let before := if hop = 1 then Tbl.lookD r.delivered head 0 else Tbl.lookD r.hopped (key - 1) 0
          if d.tilesOf st (d.laneHead head) ≤ j then s.takeFinals g stream d st key cell r
          else if before ≤ j ∨ (s.cell cell).tokenCount d.freeQ = 0 then s
          else match s.tileData h g d st (d.tileOf (d.laneHead head) j) with
            | .error e => s.failSeg seg cell e
            | .ok data =>
              let s := (s.takeFreeToken cell d.freeQ).updStream seg stream fun r => { r with hopped := Tbl.put r.hopped key (j + 1) }
              s.foragerWrite g d cell (d.landing head (d.slotOf j (s.laneSlot g d st)) data)
      | _, _ => s

end Sys2Proof.Machine
end

