-- ==== Sys2Proof/Machine/Sync.lean ====
section
/-! DEFINITION. Waggle synchronisation: exchanges, root and parent, slew (R319 to R324). -/

namespace Sys2Proof.Machine

def syncOf (n : Nat) : SyncState := if n = 1 then .synced else if n = 2 then .root else .unsynced

/-- Half of a number of ns; where it is odd, a free value rounds it (log 50). -/
def State.half (s : State) (x : Int) : Int × State :=
  let q := s.takeFree
  ((x + ((q.1 % 2 : Nat) : Int)) / 2, q.2)

/-- Insertion into a rising list. -/
def insertInt (x : Int) : List Int → List Int
  | [] => [x]
  | y :: r => if x ≤ y then x :: y :: r else y :: insertInt x r

/-- The median of a list that is not empty. -/
def State.median (s : State) (l : List Int) : Int × State :=
  let o := l.foldl (fun a x => insertInt x a) []
  let n := o.length
  if n % 2 = 1 then (o.getD (n / 2) 0, s) else s.half (o.getD (n / 2 - 1) 0 + o.getD (n / 2) 0)

/-- Bound of a port's link (R323): 100 ns on a hall port, else 25 ns. -/
def syncBound (port : Nat) : Int := if 13 ≤ port % 16 then 100 else 25

def within (x b : Int) : Bool := decide (-b ≤ x ∧ x ≤ b)

/-- What SYNCED and ROOT peers advertise. -/
def Waggle.rooted (w : Waggle) : Tbl Advert := w.adverts.filter fun a => a.2.state != .unsynced

/-- Whether a device takes its own id as root (R321). A root whose peers advertise its own id stays one (DEDUCED, log 132). -/
def Waggle.selfRoot (w : Waggle) (me now : Nat) : Bool :=
  (w.established && w.rooted.all fun a => decide (me ≤ a.2.rootId))
    || (w.adverts.all (fun a => !a.2.established) && decide (w.noLowerAt + 10 * msec ≤ now))

def Waggle.becomeRoot (w : Waggle) (me : Nat) : Waggle :=
  { w with sync := .root, parent := none, rootId := me, hops := 0, offsetNs := 0, offsets := [], inBound := 0, established := true, noParentAt := none }

/-- The device becomes UNSYNCED. -/
def State.unsync (s : State) : State :=
  { s with waggle := { s.waggle with sync := .unsynced, inBound := 0, noParentAt := none }, fabric := { s.fabric with evSyncLost := true } }

/-- The better parent of two: fewest hops, then the lowest port. -/
def betterParent (best : Option (Nat × Advert)) (a : Nat × Advert) : Option (Nat × Advert) :=
  match best with
  | none => some a
  | some b => if a.2.hops < b.2.hops ∨ (a.2.hops = b.2.hops ∧ a.1 < b.1) then some a else some b

/-- A follower's root, parent and hops; a root that finds a lower one follows it and is SYNCED until its offset says otherwise (log 51). -/
def Waggle.follow (w : Waggle) (now : Nat) : Waggle :=
  let sync := if w.sync = .root then SyncState.synced else w.sync
  match w.rooted.map fun a => a.2.rootId with
  | [] => { w with sync := sync, parent := none, offsets := [], inBound := 0, noParentAt := some (w.noParentAt.getD now) }
  | x :: r =>
    let root := r.foldl min x
    let cands := w.rooted.filter fun a => a.2.rootId == root
    let keep := w.parent.bind fun p => cands.find? fun a => a.1 == p
    match keep with
    | some a => { w with sync := sync, rootId := root, hops := min 8 (a.2.hops + 1), noParentAt := none }
    | none =>
      match cands.foldl betterParent none with
      | none => w
      | some a => { w with sync := sync, rootId := root, parent := some a.1, hops := min 8 (a.2.hops + 1), offsets := [], inBound := 0, noParentAt := none }

/-- Root and parent, chosen after every exchange. -/
def State.chooseRoot (s : State) (me : Nat) : State :=
  { s with waggle := if s.waggle.selfRoot me s.now then s.waggle.becomeRoot me else s.waggle.follow s.now }

/-- A follower steers by an offset measured with its parent: the median of the last 8, a rate within 200 ppm toward it, SYNCED after 8 within the bound, UNSYNCED past 1 us (R322, R323). How fast it steers is a free value (log 50). -/
def State.steer (s : State) (port : Nat) (offset : Int) : State :=
  let l := (offset :: s.waggle.offsets).take 8
  let m := s.median l
  let q := m.2.takeFree
  let n := if within offset (syncBound port) then s.waggle.inBound + 1 else 0
  let w := { q.2.waggle with offsets := l, offsetNs := m.1, inBound := n, ratePpm := m.1.sign * ((q.1 % 201 : Nat) : Int) }
  let s := { q.2 with waggle := w }
  if 8 ≤ n then { s with waggle := { s.waggle with sync := .synced, established := true } }
  else if s.waggle.sync == .synced && !within offset 1000 then s.unsync
  else s

/-- TIME_EXCHANGE: one exchange of time frames on a LIVE link. -/
def execTimeExchange (t port : Nat) (f : TimeFrame) (s : State) : Host.Outcome State Fault Refusal :=
  run t s fun s =>
    match s.deviceId with
    | none => s
    | some me => s.onlyIf ((s.port port).state == .live) fun s =>
      let s := s.sendFreePayload port 4 4
      let a : Advert := { rootId := f.rootId, hops := f.hops, state := syncOf f.peerState, established := f.established }
      let s := { s with waggle := { s.waggle with adverts := Tbl.put s.waggle.adverts port a
                                                  noLowerAt := if f.rootId < me then s.now else s.waggle.noLowerAt } }
      let s := s.chooseRoot me
      let diff : Int := ((f.t2 : Int) - (f.t1 : Int)) - ((f.t4 : Int) - (f.t3 : Int))
      let o := s.half diff
      if s.waggle.parent = some port then o.2.steer port (o.1 + (s.portSet port).asymNs) else s

/-- ROOT_SELF_ELECT: the device takes its own id as root. -/
def execRootSelfElect (t : Nat) (s : State) : Host.Outcome State Fault Refusal :=
  run t s fun s =>
    match s.deviceId with
    | none => s
    | some me => s.onlyIf (s.waggle.selfRoot me s.now) fun s => { s with waggle := s.waggle.becomeRoot me }

/-- SYNC_LOST: a SYNCED device without a parent for more than 1 s, or past 1 us. -/
def execSyncLost (t : Nat) (s : State) : Host.Outcome State Fault Refusal :=
  run t s fun s =>
    s.onlyIf (s.waggle.sync == .synced &&
      ((s.waggle.parent.isNone && s.waggle.noParentAt.any fun x => decide (x + sec < s.now)) || !within s.waggle.offsetNs 1000)) fun s => s.unsync

end Sys2Proof.Machine
end

