-- ==== Sys2Proof/Machine/Dispatch.lean ====
section
/-! DEFINITION. exec: one arm per command, each one direct call of its meaning. -/

namespace Sys2Proof.Machine

/-- The effect of a command on everything but the queue. -/
def exec (i : Instr) (s : State) : Host.Outcome State Fault Refusal :=
  match i with
  | .registerWrite t fn off width value h => Sys2Proof.Machine.execRegisterWrite t fn off width value h s
  | .i3cRead t off len => Sys2Proof.Machine.execI3cRead t off len s
  | .i3cWrite t off value => Sys2Proof.Machine.execI3cWrite t off value s
  | .ringEnable t fn value => Sys2Proof.Machine.execRingEnable t fn value s
  | .ringDisable t fn value => Sys2Proof.Machine.execRingDisable t fn value s
  | .ringDrained t ten lring => Sys2Proof.Machine.execRingDrained t ten lring s
  | .kick t fn off width h => Sys2Proof.Machine.execKick t fn off width h s
  | .ringPoll t cls h => Sys2Proof.Machine.execRingPoll t cls h s
  | .cmdSessionOpen t ten lring seq => Sys2Proof.Machine.execCmdSessionOpen t ten lring seq s
  | .cmdSessionClose t ten lring seq => Sys2Proof.Machine.execCmdSessionClose t ten lring seq s
  | .cmdKeysetLoad t ten lring seq h => Sys2Proof.Machine.execCmdKeysetLoad t ten lring seq h s
  | .cmdModelLoad t ten lring seq h => Sys2Proof.Machine.execCmdModelLoad t ten lring seq h s
  | .cmdModelRetire t ten lring seq => Sys2Proof.Machine.execCmdModelRetire t ten lring seq s
  | .cmdEval t ten lring seq => Sys2Proof.Machine.execCmdEval t ten lring seq s
  | .cmdRoundtripResume t ten lring seq h => Sys2Proof.Machine.execCmdRoundtripResume t ten lring seq h s
  | .cmdEncodeEncrypt t ten lring seq h => Sys2Proof.Machine.execCmdEncodeEncrypt t ten lring seq h s
  | .encodeAndEncrypt t ten lring seq cells h => Sys2Proof.Machine.execEncodeAndEncrypt t ten lring seq cells h s
  | .encryptPlaintext t ten lring seq cells h => Sys2Proof.Machine.execEncryptPlaintext t ten lring seq cells h s
  | .generateSecretKey t ten lring seq cells h => Sys2Proof.Machine.execGenerateSecretKey t ten lring seq cells h s
  | .generateKeySet t ten lring seq cells h => Sys2Proof.Machine.execGenerateKeySet t ten lring seq cells h s
  | .cmdDecryptDecode t ten lring seq h => Sys2Proof.Machine.execCmdDecryptDecode t ten lring seq h s
  | .decryptAndDecode t ten lring seq cells h => Sys2Proof.Machine.execDecryptAndDecode t ten lring seq cells h s
  | .decryptToPlaintext t ten lring seq cells h => Sys2Proof.Machine.execDecryptToPlaintext t ten lring seq cells h s
  | .eraseSlot t ten lring seq => Sys2Proof.Machine.execEraseSlot t ten lring seq s
  | .cmdPke t ten lring seq h => Sys2Proof.Machine.execCmdPke t ten lring seq h s
  | .sign t ten lring seq h => Sys2Proof.Machine.execSign t ten lring seq h s
  | .verify t ten lring seq h => Sys2Proof.Machine.execVerify t ten lring seq h s
  | .keygen t ten lring seq h => Sys2Proof.Machine.execKeygen t ten lring seq h s
  | .derive t ten lring seq h => Sys2Proof.Machine.execDerive t ten lring seq h s
  | .importKey t ten lring seq h => Sys2Proof.Machine.execImportKey t ten lring seq h s
  | .erase t ten lring seq => Sys2Proof.Machine.execErase t ten lring seq s
  | .publicKey t ten lring seq h => Sys2Proof.Machine.execPublicKey t ten lring seq h s
  | .quote t ten lring seq h => Sys2Proof.Machine.execQuote t ten lring seq h s
  | .ephRelease t ten lring seq => Sys2Proof.Machine.execEphRelease t ten lring seq s
  | .getCert t ten lring seq h => Sys2Proof.Machine.execGetCert t ten lring seq h s
  | .cmdMeterRead t ten lring seq => Sys2Proof.Machine.execCmdMeterRead t ten lring seq s
  | .meterSnapshot t ten lring seq h => Sys2Proof.Machine.execMeterSnapshot t ten lring seq h s
  | .meterTake t ten lring seq h => Sys2Proof.Machine.execMeterTake t ten lring seq h s
  | .cmdCopy t ten lring seq h => Sys2Proof.Machine.execCmdCopy t ten lring seq h s
  | .cmdFence t ten lring seq => Sys2Proof.Machine.execCmdFence t ten lring seq s
  | .heldCommandRelease t => Sys2Proof.Machine.execHeldCommandRelease t s
  | .entropyHoldExpire t ten lring seq => Sys2Proof.Machine.execEntropyHoldExpire t ten lring seq s
  | .finalCompletionWrite t ten lring h => Sys2Proof.Machine.execFinalCompletionWrite t ten lring h s
  | .msixModTimer t ten lring => Sys2Proof.Machine.execMsixModTimer t ten lring s
  | .dispatch t comb seg cells => Sys2Proof.Machine.execDispatch t comb seg cells s
  | .dispatchStarvation t comb cls => Sys2Proof.Machine.execDispatchStarvation t comb cls s
  | .segmentYield t seg => Sys2Proof.Machine.execSegmentYield t seg s
  | .cellScrubComplete t target => Sys2Proof.Machine.execCellScrubComplete t target s
  | .segmentStart t seg => Sys2Proof.Machine.execSegmentStart t seg s
  | .segmentEnd t seg => Sys2Proof.Machine.execSegmentEnd t seg s
  | .rtOutboundWrite t ten lring seq h => Sys2Proof.Machine.execRtOutboundWrite t ten lring seq h s
  | .rtAttemptExpire t ten lring seq => Sys2Proof.Machine.execRtAttemptExpire t ten lring seq s
  | .rtInterimDeadline t ten lring seq => Sys2Proof.Machine.execRtInterimDeadline t ten lring seq s
  | .wait t cell => Sys2Proof.Machine.execWait t cell s
  | .post t cell => Sys2Proof.Machine.execPost t cell s
  | .jump t cell => Sys2Proof.Machine.execJump t cell s
  | .loop t cell => Sys2Proof.Machine.execLoop t cell s
  | .handoff t cell => Sys2Proof.Machine.execHandoff t cell s
  | .halt t cell => Sys2Proof.Machine.execHalt t cell s
  | .setmod t cell => Sys2Proof.Machine.execSetmod t cell s
  | .setadv t cell => Sys2Proof.Machine.execSetadv t cell s
  | .timerLoad t cell => Sys2Proof.Machine.execTimerLoad t cell s
  | .timerStop t cell => Sys2Proof.Machine.execTimerStop t cell s
  | .latchArm t cell => Sys2Proof.Machine.execLatchArm t cell s
  | .latchDisarm t cell => Sys2Proof.Machine.execLatchDisarm t cell s
  | .moveDirect t cell => Sys2Proof.Machine.execMoveDirect t cell s
  | .moveStencil t cell h => Sys2Proof.Machine.execMoveStencil t cell h s
  | .moveBankLoad t cell => Sys2Proof.Machine.execMoveBankLoad t cell s
  | .winOpen t cell => Sys2Proof.Machine.execWinOpen t cell s
  | .winClose t cell => Sys2Proof.Machine.execWinClose t cell s
  | .mact t cell => Sys2Proof.Machine.execMact t cell s
  | .macv t cell => Sys2Proof.Machine.execMacv t cell s
  | .nttf t cell => Sys2Proof.Machine.execNttf t cell s
  | .ntti t cell => Sys2Proof.Machine.execNtti t cell s
  | .tadd t cell => Sys2Proof.Machine.execTadd t cell s
  | .tsub t cell => Sys2Proof.Machine.execTsub t cell s
  | .tmul t cell => Sys2Proof.Machine.execTmul t cell s
  | .tmulc t cell => Sys2Proof.Machine.execTmulc t cell s
  | .tperm t cell => Sys2Proof.Machine.execTperm t cell s
  | .tdec t cell => Sys2Proof.Machine.execTdec t cell s
  | .tresc t cell => Sys2Proof.Machine.execTresc t cell s
  | .tred t cell => Sys2Proof.Machine.execTred t cell s
  | .skim t cell => Sys2Proof.Machine.execSkim t cell s
  | .noise t cell => Sys2Proof.Machine.execNoise t cell s
  | .instructionComplete t cell flight h => Sys2Proof.Machine.execInstructionComplete t cell flight h s
  | .remoteWriteArrive t cell flight => Sys2Proof.Machine.execRemoteWriteArrive t cell flight s
  | .tokenMoveArrive t cell flight => Sys2Proof.Machine.execTokenMoveArrive t cell flight s
  | .remoteRead t cell flight => Sys2Proof.Machine.execRemoteRead t cell flight s
  | .timerExpire t cell timer => Sys2Proof.Machine.execTimerExpire t cell timer s
  | .waggleStepEdge t series => Sys2Proof.Machine.execWaggleStepEdge t series s
  | .segmentWatchdog t seg => Sys2Proof.Machine.execSegmentWatchdog t seg s
  | .foragerTileDeliver t seg stream dest h => Sys2Proof.Machine.execForagerTileDeliver t seg stream dest h s
  | .multicastGranuleFetch t seg stream h => Sys2Proof.Machine.execMulticastGranuleFetch t seg stream h s
  | .relayHop t seg stream head hop h => Sys2Proof.Machine.execRelayHop t seg stream head hop h s
  | .paceInterval t meas inputW => Sys2Proof.Machine.execPaceInterval t meas inputW s
  | .c0HoldExpire t comb => Sys2Proof.Machine.execC0HoldExpire t comb s
  | .thermalSample t tj => Sys2Proof.Machine.execThermalSample t tj s
  | .thermalEmergencyEnd t => Sys2Proof.Machine.execThermalEmergencyEnd t s
  | .combThermalRecover t comb => Sys2Proof.Machine.execCombThermalRecover t comb s
  | .thermalTrip t die => Sys2Proof.Machine.execThermalTrip t die s
  | .combRestEntry t comb => Sys2Proof.Machine.execCombRestEntry t comb s
  | .combFault t comb source cell => Sys2Proof.Machine.execCombFault t comb source cell s
  | .heartbeatTimeout t comb => Sys2Proof.Machine.execHeartbeatTimeout t comb s
  | .combDrainComplete t comb => Sys2Proof.Machine.execCombDrainComplete t comb s
  | .combResetComplete t comb testFail => Sys2Proof.Machine.execCombResetComplete t comb testFail s
  | .dramCorrected t dpa => Sys2Proof.Machine.execDramCorrected t dpa s
  | .dramUncorrectable t hit => Sys2Proof.Machine.execDramUncorrectable t hit s
  | .shelfUncorrectable t comb shelf => Sys2Proof.Machine.execShelfUncorrectable t comb shelf s
  | .patrolScrub t bad => Sys2Proof.Machine.execPatrolScrub t bad s
  | .flitReplay t bundle dir => Sys2Proof.Machine.execFlitReplay t bundle dir s
  | .laneRetrain t bundle dir => Sys2Proof.Machine.execLaneRetrain t bundle dir s
  | .retrainTestDone t bundle dir failMask => Sys2Proof.Machine.execRetrainTestDone t bundle dir failMask s
  | .entropySample t sample => Sys2Proof.Machine.execEntropySample t sample s
  | .drbgSeeded t => Sys2Proof.Machine.execDrbgSeeded t s
  | .drbgReseed t => Sys2Proof.Machine.execDrbgReseed t s
  | .noiseReseed t comb => Sys2Proof.Machine.execNoiseReseed t comb s
  | .ephKeyExpire t ten ephId => Sys2Proof.Machine.execEphKeyExpire t ten ephId s
  | .meterMsTick t => Sys2Proof.Machine.execMeterMsTick t s
  | .epochClose t => Sys2Proof.Machine.execEpochClose t s
  | .meterRecordSign t => Sys2Proof.Machine.execMeterRecordSign t s
  | .wallClockWrite t fn off width value => Sys2Proof.Machine.execWallClockWrite t fn off width value s
  | .tnWrite t fn off width value => Sys2Proof.Machine.execTnWrite t fn off width value s
  | .swarmConfigLoad t h => Sys2Proof.Machine.execSwarmConfigLoad t h s
  | .linkLightDetect t port => Sys2Proof.Machine.execLinkLightDetect t port s
  | .laneLock t port => Sys2Proof.Machine.execLaneLock t port s
  | .trainingTimeout t port => Sys2Proof.Machine.execTrainingTimeout t port s
  | .attestationReceive t port descriptor certs sigs => Sys2Proof.Machine.execAttestationReceive t port descriptor certs sigs s
  | .attestTimeout t port => Sys2Proof.Machine.execAttestTimeout t port s
  | .keyConfirmReceive t port frame => Sys2Proof.Machine.execKeyConfirmReceive t port frame s
  | .keyConfirmTimeout t port => Sys2Proof.Machine.execKeyConfirmTimeout t port s
  | .lightLoss t port => Sys2Proof.Machine.execLightLoss t port s
  | .quarantineReattest t port => Sys2Proof.Machine.execQuarantineReattest t port s
  | .linkFrameSend t port => Sys2Proof.Machine.execLinkFrameSend t port s
  | .linkFrameReceive t port frame => Sys2Proof.Machine.execLinkFrameReceive t port frame s
  | .tagFailureLimit t port => Sys2Proof.Machine.execTagFailureLimit t port s
  | .rekeyTrigger t port => Sys2Proof.Machine.execRekeyTrigger t port s
  | .rekeyRetry t port => Sys2Proof.Machine.execRekeyRetry t port s
  | .keyExhausted t port => Sys2Proof.Machine.execKeyExhausted t port s
  | .timeExchange t port f => Sys2Proof.Machine.execTimeExchange t port f s
  | .rootSelfElect t => Sys2Proof.Machine.execRootSelfElect t s
  | .syncLost t => Sys2Proof.Machine.execSyncLost t s
  | .fabricMessageLand t msg => Sys2Proof.Machine.execFabricMessageLand t msg s
  | .fabricAckReceive t ten lring seq edge => Sys2Proof.Machine.execFabricAckReceive t ten lring seq edge s
  | .fabricRecvStart t ten lring seq => Sys2Proof.Machine.execFabricRecvStart t ten lring seq s
  | .fabricDeadline t ten lring seq => Sys2Proof.Machine.execFabricDeadline t ten lring seq s
  | .routeFailureNotice t ten lring seq edge port device mismatch => Sys2Proof.Machine.execRouteFailureNotice t ten lring seq edge port device mismatch s
  | .coldStart t => Sys2Proof.Machine.execColdStart t s
  | .startLaneTestDone t testFail => Sys2Proof.Machine.execStartLaneTestDone t testFail s
  | .dramTrainingDone t ok => Sys2Proof.Machine.execDramTrainingDone t ok s
  | .startScrubDone t => Sys2Proof.Machine.execStartScrubDone t s
  | .warmReset t by_ => Sys2Proof.Machine.execWarmReset t by_ s
  | .pwResetWarm t drain => Sys2Proof.Machine.execPwResetWarm t drain s
  | .drainTimeout t => Sys2Proof.Machine.execDrainTimeout t s
  | .functionLevelReset t ten pcie drain => Sys2Proof.Machine.execFunctionLevelReset t ten pcie drain s
  | .flrScrubDone t ten => Sys2Proof.Machine.execFlrScrubDone t ten s
  | .pwResetPort t port => Sys2Proof.Machine.execPwResetPort t port s
  | .d3hotEntry t => Sys2Proof.Machine.execD3hotEntry t s
  | .deepRestGate t => Sys2Proof.Machine.execDeepRestGate t s
  | .d0Return t testFail => Sys2Proof.Machine.execD0Return t testFail s
  | .vfPowerState t ten d3hot => Sys2Proof.Machine.execVfPowerState t ten d3hot s
  | .lowInputSet t => Sys2Proof.Machine.execLowInputSet t s
  | .lowInputClear t => Sys2Proof.Machine.execLowInputClear t s
  | .powerFail t => Sys2Proof.Machine.execPowerFail t s
  | .holdupMeasure t millijoule => Sys2Proof.Machine.execHoldupMeasure t millijoule s
  | .fwStart t value h => Sys2Proof.Machine.execFwStart t value h s
  | .fwActivate t => Sys2Proof.Machine.execFwActivate t s
  | .fwCommit t => Sys2Proof.Machine.execFwCommit t s
  | .fwRollback t => Sys2Proof.Machine.execFwRollback t s
  | .fwAbort t => Sys2Proof.Machine.execFwAbort t s
  | .flashCommitDone t => Sys2Proof.Machine.execFlashCommitDone t s
  | .updateResume t => Sys2Proof.Machine.execUpdateResume t s
  | .trainingRetry t port => Sys2Proof.Machine.execTrainingRetry t port s
  | .perstDeassert t => Sys2Proof.Machine.execPerstDeassert t s
  | .commandFinish t ten lring seq h => Sys2Proof.Machine.execCommandFinish t ten lring seq h s
  | .imageCheckDone t => Sys2Proof.Machine.execImageCheckDone t s
  | .readBackDone t same => Sys2Proof.Machine.execReadBackDone t same s
  | .freedPageScrubDone t => Sys2Proof.Machine.execFreedPageScrubDone t s

end Sys2Proof.Machine
end

