-- ==== Sys2Proof/Safety.lean ====
section
/-! DEFINITION. What counts as a safe run (no command stops the block, its memory keeps its canonical form), and the frames that the statements speak of: everything but what is named stays as it was. -/

namespace Sys2Proof.Safety

open Sys2Proof.Machine

/-- The DRAM's canonical form. -/
def MemOk (s : State) : Prop := Memory.wf s.dram.cells = true

/-- A step that answers a next state. -/
def Goes (s : State) : Prop := ∃ s', step s = Host.Outcome.next s'

/-- Two tables that differ at key k at most. -/
def SameBut {α : Type} (k : Nat) (a b : Tbl α) : Prop := ∀ j, j ≠ k → Tbl.look a j = Tbl.look b j

/-- After a command at waggle time t, nothing has changed but waggle time. -/
def OnlyTime (s s' : State) (t : Nat) : Prop := s' = { s with now := max s.now t }

/-- After a command at waggle time t, nothing has changed but waggle time and one ring. -/
def OnlyRing (s s' : State) (t ten lring : Nat) : Prop :=
  s' = { s with now := max s.now t, rings := s'.rings } ∧ SameBut (ringKey ten lring) s'.rings s.rings

/-- After a command at waggle time t, nothing has changed but waggle time and one cell. -/
def OnlyCell (s s' : State) (t cell : Nat) : Prop :=
  s' = { s with now := max s.now t, cells := s'.cells } ∧ SameBut cell s'.cells s.cells

/-- After a command at waggle time t, nothing has changed but waggle time and one comb. -/
def OnlyComb (s s' : State) (t comb : Nat) : Prop :=
  s' = { s with now := max s.now t, combs := s'.combs } ∧ SameBut comb s'.combs s.combs

/-- After a command at waggle time t, nothing has changed but waggle time and one tenant's objects. -/
def OnlyTenant (s s' : State) (t ten : Nat) : Prop :=
  s' = { s with now := max s.now t, tenants := s'.tenants } ∧ SameBut ten s'.tenants s.tenants

/-- After a command at waggle time t, nothing has changed but waggle time and one port. -/
def OnlyPort (s s' : State) (t port : Nat) : Prop :=
  s' = { s with now := max s.now t, fabric := { s.fabric with ports := s'.fabric.ports } } ∧
    SameBut port s'.fabric.ports s.fabric.ports

/-! ### Commands at their start -/

/-- Command c of a LIVE ring waits to start, nothing but its own checks in its way: no fence before it, and no reference to the EVAL that it resumes (R97). -/
def Waits (s : State) (ten lring seq op : Nat) (c : Cmd) : Prop :=
  s.cmd? ten lring seq = some c ∧ c.opcode = op ∧ c.phase = .waiting ∧ (s.ring ten lring).state = .live ∧ s.starts ten = true ∧
    (s.ring ten lring).behindFence c = false ∧ s.ownEval ten lring seq = none

/-- It may start: every command it names has completed with ST_OK, its reserved and common fields are right, and n completion positions are free. -/
def Startable (s : State) (ten lring seq op n : Nat) (c : Cmd) : Prop :=
  Waits s ten lring seq op c ∧ (s.ring ten lring).afterGate c = .go ∧ commonFault c.entry c.seq = none ∧
    n ≤ (s.ring ten lring).freePositions

/-- The state in which a command has just started: its positions reserved, its start time noted. -/
def begun (s : State) (t ten lring seq n : Nat) : State :=
  ((s.advance t).updRing ten lring fun r => { r with cplFull := false, reserved := r.reserved + n }).updCmd ten lring seq fun c =>
    { c with phase := .started, startAt := some (max s.now t), reserved := n }

/-- A command finished with a status and detail at waggle time n: what is left of it. -/
def finished (c : Cmd) (e : Err) (n : Nat) : Cmd :=
  { c with phase := .finished, status := e.1, detail := e.2 % 2 ^ 16, endAt := n }

/-- A started command of an opcode whose work is still to be done. -/
def Running (s : State) (ten lring seq op : Nat) (c : Cmd) : Prop :=
  s.cmd? ten lring seq = some c ∧ c.opcode = op ∧ c.phase = .started ∧ c.runDone = false

/-- Its work has ended with a status and detail. -/
def ended (c : Cmd) (e : Err) : Cmd := { c with runDone := true, status := e.1, detail := e.2 % 2 ^ 16 }

/-! ### Failed EVALs -/

/-- What a failure leaves of an evaluation. -/
def evalFails (v : Eval) (e : Err) (noneLeft : Bool) : Eval :=
  { v with failed := some (v.failed.getD e), attempt := none, recvWait := none, sends := [], done := v.done || noneLeft }

/-- Runs after an EVAL's failure: its runs that have not started are gone, its running ones are stopped, others stand. -/
def runsAfter (l : List SegRun) (ten lring seq : Nat) (e : Err) : List SegRun :=
  (l.filter fun g => !(g.ofCmd ten lring seq && g.phase != SegPhase.running)).map fun g =>
    if g.ofCmd ten lring seq then { g with fail := some (g.fail.getD e) } else g

/-- The evaluation of a fetched CMD_EVAL. -/
def evalOf (s : State) (ten lring seq : Nat) : Option Eval := (s.cmd? ten lring seq).bind (·.eval)

/-- Between s and s', the EVAL of a command, whose evaluation was v, has failed with e: its evaluation says so, its runs are withdrawn or stopped, every other run and ring and the DRAM stay. -/
def FailsEval (s s' : State) (ten lring seq : Nat) (v : Eval) (e : Err) : Prop :=
  evalOf s' ten lring seq = some (evalFails v e (!((runsAfter s.segs ten lring seq e).any fun g => g.ofCmd ten lring seq))) ∧
    s'.segs = runsAfter s.segs ten lring seq e ∧ s'.dram = s.dram ∧ s'.settings = s.settings ∧
    SameBut (ringKey ten lring) s'.rings s.rings

/-- Between s and s', the gang of a segment of a command's generation has joined the runs: one ready run for each of its segments, in the command's class, on the segment's comb. -/
def AsksGang (s s' : State) (ten lring : Nat) (c : Cmd) (g : Gen) (idx : Nat) : Prop :=
  ∃ l, s'.segs = s.segs ++ l ∧ (∀ r ∈ l, r.ofCmd ten lring c.seq = true ∧ r.phase = .ready ∧ r.cells = []) ∧
    l.map (fun r => (r.idx, r.cls, r.comb)) = (g.gang idx).map fun i =>
      (i, c.cls (s.ring ten lring), (g.home + ((g.segs[i]?).elim 0 (·.combOff))) % 4)

/-- Between s and s', the chain of an EVAL whose evaluation was v has gone on at a segment: its gang has joined the runs where the messages it waits for have landed; else the EVAL waits for them from now on. -/
def ChainAt (s s' : State) (ten lring : Nat) (c : Cmd) (v : Eval) (g : Gen) (idx : Nat) : Prop :=
  ((∀ i ∈ g.gang idx, s.messagesLanded ten v i = true) →
    evalOf s' ten lring c.seq = some { v with chain := idx, rounds := v.rounds + 1 } ∧ AsksGang s s' ten lring c g idx) ∧
  ((∃ i ∈ g.gang idx, s.messagesLanded ten v i = false) →
    evalOf s' ten lring c.seq = some { v with chain := idx, rounds := v.rounds + 1, recvWait := some (idx, s'.now) } ∧ s'.segs = s.segs)

/-! ### Cells -/

/-- A cell may issue: it runs g, its comb issues, raw stands at its issue point, its waits are met, and its engine has room (R165). -/
def MayIssue (s : State) (cell : Nat) (g : SegRun) (c : Cell) (raw : InsWord) : Prop :=
  s.cellRun cell = some g ∧ s.cell cell = c ∧ c.current = some raw ∧ s.mayIssue cell g = true ∧ c.waitsMet (ins raw) = true ∧
    c.engineRoom (engineOf (ins raw).op) = true

/-- A cell once an instruction has issued: its tokens taken, its issue point moved on. -/
def stepped (c : Cell) (i : Ins) : Cell := ((c.takeTokens i.wqa i.countA).takeTokens i.wqb i.wcb).stepOn

/-- A cell with tokens posted, queue by queue; none where a queue would pass 63 (R189). -/
def postAll (c : Cell) : List (Nat × Nat) → Option Cell
  | [] => some c
  | (q, n) :: r => if 63 < c.tokenCount q + n then none else postAll { c with tokens := Tbl.putZ c.tokens q (c.tokenCount q + n) } r

/-- After a command at waggle time t one cell has become c and the run that it works for has made progress; nothing else has changed. -/
def CellBecomes (s s' : State) (t cell run : Nat) (c : Cell) : Prop :=
  s' = { s with now := max s.now t, cells := Tbl.put s.cells cell c, segs := s.segs.map fun g => if g.id = run then { g with progress := max s.now t } else g }

/-- A run has failed with e. -/
def RunFails (s' : State) (run : Nat) (e : Err) : Prop := ∃ g, s'.seg? run = some g ∧ g.fail = some e

/-- The post of an instruction with PE set, as a list. -/
def pePosts (i : Ins) : List (Nat × Nat) := if i.pe then [(i.pq, 1)] else []

/-- Instruction f of a cell's run g is under way and its turn has come (R166). -/
def UnderWay (s : State) (cell id : Nat) (f : Flight) (g : SegRun) : Prop :=
  s.flight? cell id = some f ∧ s.cellRun cell = some g ∧ (s.cell cell).running f = true

/-- No other instruction races with f: no word it reads or writes has been or is to be touched by one that is not ordered with it (R186). -/
def Quiet (s : State) (cell : Nat) (f : Flight) : Prop :=
  f.alts = [] ∧ f.contest = [] ∧ ∀ w ∈ f.reads, s.writePending cell f w = false

/-- The words at places of the scratchpads. -/
def wordsAt (s : State) (ws : List (Nat × Nat)) : List Nat := ws.map fun w => s.word w.1 w.2

/-- Between s and s', words have been written in order, modulo 2^32, and every other word of every scratchpad is as it was. -/
def Lands (s s' : State) (ws : List ((Nat × Nat) × Nat)) : Prop :=
  ∀ k a, s'.word k a = ((ws.reverse.find? fun w => w.1 == (k, a)).map fun w => w.2 % 2 ^ 32).getD (s.word k a)

/-- An instruction is no longer under way. -/
def Leaves (s' : State) (cell id : Nat) : Prop := ∀ x ∈ (s'.cell cell).flights, x.id ≠ id

end Sys2Proof.Safety
end

