-- ==== Sys2Proof/Certificates/Slice0/Obligations.lean ====
section
/-! DEFINITION. The statements for the provers: what each command and the whole block do, by the rules of spec/. -/

open Sys2Proof Sys2Proof.Machine Sys2Proof.Safety

/-- With command c at the front of the queue and rest behind it, a step is exec of c on the state with the queue rest; on an empty queue the block idles (log 15). (R99, the row's cut: a block takes commands from its queue.) -/
def Obligations.StepRunsFront : Prop :=
  ∀ (c : Instr) (rest : List Instr) (s : State),
    step { s with pending := c :: rest } = exec c { s with pending := rest } ∧
    step { s with pending := [] } = .next { s with pending := [] }

/-- In READY a write of RG_RING_CFG with ENABLE = 1 completes. The other fields of the write apply first. The check passes exactly where the ring is OFF, its tenant has a ring left of its quota, the pool of 32,768 has one left and VECTOR lies in the tenant's MSI-X table. Where it passes, the ring is LIVE, ERR is 0, GEN is one more mod 256, and the submission head, the tail, the completion position and the host's position are 0. Where it fails, ERR is 4, 1, 2 or 3 and the ring is otherwise as the write of the fields left it. No other ring and no other part of the device changes. (R83, R82, R78.) -/
def Obligations.RingEnableResult : Prop :=
  ∀ (t fn value : Nat) (s : State),
    s.power.off = false → s.power.phase = .ready → bitOf value 6 = true →
    let ten := (s.selRing fn).1
    let lring := (s.selRing fn).2
    let w := (s.ring ten lring).setCfg value
    let s1 := s.updRing ten lring fun r => r.setCfg value
    (s1.enableErr ten lring = 0 ↔
      w.state = .off ∧ s1.ringsHeld ten < (s.tnSet ten).ringMax ∧ s1.ringsInUse < 32768 ∧ w.vector < (s.tnSet ten).msixCount) ∧
    (s1.enableErr ten lring = 4 ↔ w.state ≠ .off) ∧
    ∃ s', exec (.ringEnable t fn value) s = .next s' ∧ OnlyRing s s' t ten lring ∧
      (s1.enableErr ten lring = 0 →
        s'.ring ten lring = { w with state := .live, err := 0, gen := (w.gen + 1) % 256, sqHead := 0, sqTail := 0, cqHead := 0,
                                     cplPos := 0, reserved := 0, hist := [], spanFailed := false, fromError := false,
                                     cplFull := false, modSeen := 0, modSince := none }) ∧
      (s1.enableErr ten lring ≠ 0 → s'.ring ten lring = { w with err := s1.enableErr ten lring })

/-- In READY a write of RG_RING_CFG with ENABLE = 0 to a LIVE or ERROR ring completes: the ring is DRAINING, every fetched command that has not started is finished with ST_CANCELLED, every other command stands as it was, and nothing else of the device changes. RING_DRAINED makes a DRAINING ring with no command left OFF. (R84, R82.) -/
def Obligations.RingDisableResult : Prop :=
  ∀ (t fn value : Nat) (s : State),
    s.power.off = false → s.power.phase = .ready → bitOf value 6 = false →
    let ten := (s.selRing fn).1
    let lring := (s.selRing fn).2
    let r := s.ring ten lring
    (r.state = .live ∨ r.state = .error →
      ∃ s', exec (.ringDisable t fn value) s = .next s' ∧ OnlyRing s s' t ten lring ∧
        (s'.ring ten lring).state = .draining ∧ (s'.ring ten lring).fromError = (r.state == .error) ∧
        (s'.ring ten lring).sqHead = r.sqHead ∧ (s'.ring ten lring).cplPos = r.cplPos ∧
        (s'.ring ten lring).cmds = r.cmds.map fun c =>
          if c.phase = .started ∨ c.phase = .finished then c
          else { c with phase := .finished, status := St.cancelled, detail := 0, endAt := max s.now t }) ∧
    (r.state = .draining → r.cmds = [] →
      ∃ s', exec (.ringDrained t ten lring) s = .next s' ∧ OnlyRing s s' t ten lring ∧
        s'.ring ten lring = { r with state := .off, fromError := false })

/-- With one ring, LIVE, in a tenant whose doorbells are enabled, whose tail record carries its GEN, says one entry more than was fetched and passes the other checks: RING_POLL of the ring's class and a kick of its tenant both take the tail and the host's position and fetch the entry at the index's slot as a waiting command (or, for an unknown opcode, a finished one with ST_BAD_OPCODE) whose sequence number is that index. The poll also notes its time; nothing else changes. (R87, R88, R89, R90, R91.) -/
def Obligations.WatcherFetchesEntry : Prop :=
  ∀ (t ten lring cq : Nat) (h : HostView) (b e : List Byte) (r : Ring) (s : State),
    s.power.off = false → s.power.phase = .ready → s.power.pf = .d0 → s.starts ten = true → lring < 256 →
    s.rings = [(ringKey ten lring, r)] → r.state = .live → r.cls < 4 → (s.ten ten).dbEn = true →
    hostRead h ten ((s.ten ten).dbAddr + 8 * lring) 8 = some b → r.judgeTail (leNat b) = .valid 1 cq →
    r.sqTail = r.sqHead → r.cmds.length ≤ r.maxInflight →
    hostRead h ten (r.subBase + 128 * (r.sqHead % 2 ^ r.logEntries)) 128 = some e →
    let r1 := ({ r with sqTail := r.sqTail + 1, cqHead := r.cqHead + cq, cplFull := if cq = 0 then r.cplFull else false } : Ring).passInterims
    let c := Cmd.fetched r.sqHead (s.fetches + 1) (max s.now t) e
    let r2 := { r1 with sqHead := r.sqHead + 1, cmds := r1.cmds ++ [c] }
    c.seq = r.sqHead ∧ c.entry = e ∧
    (c.phase = .waiting ↔ opcodes.contains (byteAt e 0) = true) ∧
    (opcodes.contains (byteAt e 0) = false → c.phase = .finished ∧ c.status = St.badOpcode) ∧
    exec (.ringPoll t r.cls h) s =
      .next { s with now := max s.now t, pollAt := s.pollAt.set r.cls (max s.now t), fetches := s.fetches + 1,
                     rings := [(ringKey ten lring, r2)] } ∧
    exec (.kick t ten 0 4 h) s =
      .next { s with now := max s.now t, fetches := s.fetches + 1, rings := [(ringKey ten lring, r2)] }

/-- With no reset draining, in a LIVE ring whose oldest command is finished and holds a position or finds one free, and whose completion slot lies in a mapped host page, FINAL_COMPLETION_WRITE writes the 32 bytes of the entry (status, phase and replay flags, DETAIL, SEQ, USER_TAG, times, operations) to the slot of the completion position as one write, removes that command and no other, and moves the position on by one. The bytes say the status in byte 0, and PHASE is 1 exactly where the position has passed the ring an even number of times. MSIX_MOD_TIMER, on a ring with an eligible completion not signalled for MOD_US µs, clears the ring's count and sends the MSI-X message of its vector at once; while the function is in D3hot the message is kept pending instead, once. Nothing else changes. (R98, R99, R102, R103, R370.) -/
def Obligations.CompletionsAndMessages : Prop :=
  (∀ (t ten lring : Nat) (h : HostView) (c : Cmd) (rest : List Cmd) (pg : HostPage) (s : State),
    s.power.off = false → s.power.warmDrain = none → s.power.flrs = [] →
    let r := s.ring ten lring
    r.cmds = c :: rest → c.phase = .finished → r.state = .live → r.fromError = false → (c.reserved ≠ 0 ∨ r.freePositions ≠ 0) →
    r.cplBase % 4096 = 0 → hostPage h ten r.cplIova = some pg →
    ∃ s', exec (.finalCompletionWrite t ten lring h) s = .next s' ∧
      (s'.ring ten lring).cmds = rest.filter (fun x => x.seq != c.seq) ∧
      (s'.ring ten lring).cplPos = r.cplPos + 1 ∧ (s'.ring ten lring).state = .live ∧
      (s'.ring ten lring).hist = ((c.seq, c.status) :: r.hist).take 256 ∧
      SameBut (ringKey ten lring) s'.rings s.rings ∧
      Out.dmaWrite ten r.cplIova (c.finalBytes r) ∈ s'.out ∧
      byteAt (c.finalBytes r) 0 = c.status % 256 ∧
      bitOf (byteAt (c.finalBytes r) 1) 0 = decide (r.cplPos / 2 ^ r.logEntries % 2 = 0) ∧
      bitOf (byteAt (c.finalBytes r) 1) 2 = c.replayed ∧
      s'.cells = s.cells ∧ s'.segs = s.segs ∧ s'.dram.cells = s.dram.cells ∧ s'.settings = s.settings ∧ s'.log = s.log) ∧
  (∀ (t ten lring since : Nat) (s : State), s.power.off = false →
    let r := s.ring ten lring
    let r' := { r with modSeen := 0, modSince := none }
    r.modSince = some since → since + r.modUs * 1000 ≤ max s.now t →
    ∃ s', exec (.msixModTimer t ten lring) s = .next s' ∧ s'.ring ten lring = r' ∧
      SameBut (ringKey ten lring) s'.rings s.rings ∧
      (s.power.vfD3.contains ten = false →
        s' = { s with now := max s.now t, rings := s'.rings, out := .msix ten r.vector :: s.out }) ∧
      (s.power.vfD3.contains ten = true →
        s' = { s with now := max s.now t, rings := s'.rings,
                      msixHeld := if s.msixHeld.contains (ten, r.vector) then s.msixHeld else s.msixHeld ++ [(ten, r.vector)] }))

/-- The commands that start fetched work: each with its opcode, its own checks, whether it needs randomness, and its completion positions (R94, R102, R292). CMD_FENCE stands apart. -/
def startRows (t ten lring seq : Nat) (h : HostView) :
    List (Instr × Nat × (State → Cmd → Option Err) × (State → Cmd → Bool) × (State → Nat)) :=
  [(.cmdSessionOpen t ten lring seq, 0x01, openCheck ten, noNeed, onePosition),
   (.cmdSessionClose t ten lring seq, 0x02, closeCheck ten, noNeed, onePosition),
   (.cmdKeysetLoad t ten lring seq h, 0x03, keysetCheck ten, noNeed, onePosition),
   (.cmdModelLoad t ten lring seq h, 0x04, modelCheck ten, noNeed, onePosition),
   (.cmdModelRetire t ten lring seq, 0x05, retireCheck ten, noNeed, onePosition),
   (.cmdEval t ten lring seq, 0x10, evalCheck ten, evalNeeds ten, evalPositions ten),
   (.cmdRoundtripResume t ten lring seq h, 0x11,
     (fun s c => if (Tbl.look (s.ten ten).sessions (c.handle 0)).isSome then none else some (St.badHandle, 0)), noNeed, onePosition),
   (.cmdEncodeEncrypt t ten lring seq h, 0x20, encryptCheck ten, (fun _ _ => true), onePosition),
   (.cmdDecryptDecode t ten lring seq h, 0x21, decryptCheck ten, noNeed, onePosition),
   (.cmdPke t ten lring seq h, 0x30, (fun _ c => if c.len 0 = 128 then none else some (St.badField, 0x40)),
     (fun _ c => (hostRead h ten (c.iova 0) 128).any pkNeeds), onePosition),
   (.cmdMeterRead t ten lring seq, 0x40, meterCheck ten, meterNeeds, onePosition),
   (.cmdCopy t ten lring seq h, 0x50, copyCheck ten, noNeed, onePosition)]

/-- For every command that starts fetched work and no longer waits for others: where a reserved or common field is wrong it finishes with ST_BAD_FIELD and the offset of the first such field, and otherwise where its own checks fail with what they say; it has not started, reserves no position, and nothing but its ring changes. (R91, R8, R99.) -/
def Obligations.ChecksRefuseBeforeStart : Prop :=
  ∀ (t ten lring seq : Nat) (h : HostView) (c : Cmd) (e : Err) (s : State),
    ∀ row ∈ startRows t ten lring seq h,
    s.power.off = false → Waits s ten lring seq row.2.1 c → (s.ring ten lring).afterGate c = .go →
    (commonFault c.entry c.seq = some e ∨ (commonFault c.entry c.seq = none ∧ row.2.2.1 s c = some e)) →
    (commonFault c.entry c.seq = some e → e.1 = St.badField) ∧
    ∃ s', exec row.1 s = .next s' ∧ OnlyRing s s' t ten lring ∧
      s'.cmd? ten lring seq = some (finished c e (max s.now t)) ∧ (s'.ring ten lring).reserved = (s.ring ten lring).reserved

/-- Startable and past their own checks, with the DRBG able to serve where they need it: CMD_ENCODE_ENCRYPT, CMD_DECRYPT_DECODE and CMD_METER_READ start and do nothing else; CMD_COPY starts with the comb in service that carries it; CMD_PKE, whose operand block is readable and right and whose tenant may still quote, starts with the block and adds one to the tenant's engine meter. The next state is exactly that. (R91, R102, R281, R288, R292, R354.) -/
def Obligations.EngineCommandsStart : Prop :=
  ∀ (t ten lring seq : Nat) (h : HostView) (c : Cmd) (s : State), s.power.off = false →
    (Startable s ten lring seq 0x20 1 c → encryptCheck ten s c = none → s.canServe = true →
      exec (.cmdEncodeEncrypt t ten lring seq h) s = .next (begun s t ten lring seq 1)) ∧
    (Startable s ten lring seq 0x21 1 c → decryptCheck ten s c = none →
      exec (.cmdDecryptDecode t ten lring seq h) s = .next (begun s t ten lring seq 1)) ∧
    (Startable s ten lring seq 0x40 1 c → meterCheck ten s c = none → (meterNeeds s c = false ∨ s.canServe = true) →
      exec (.cmdMeterRead t ten lring seq) s = .next (begun s t ten lring seq 1)) ∧
    (∀ x, Startable s ten lring seq 0x50 1 c → copyCheck ten s c = none → Tbl.look (s.ten ten).sessions (c.handle 0) = some x →
      exec (.cmdCopy t ten lring seq h) s =
        .next ((begun s t ten lring seq 1).updCmd ten lring seq fun c => { c with comb := s.combFor (s.sessionHome ten x) })) ∧
    (∀ b, Startable s ten lring seq 0x30 1 c → c.len 0 = 128 → hostRead h ten (c.iova 0) 128 = some b →
      firstFault (pkFaults b) = none → (pkNeeds b = false ∨ s.canServe = true) →
      (pkOp b = Pk.quote → (begun s t ten lring seq 1).ephLive ten + (begun s t ten lring seq 1).quotesOpen ten < 8) →
      exec (.cmdPke t ten lring seq h) s =
        .next (((begun s t ten lring seq 1).charge ten 4 1).updCmd ten lring seq fun c => { c with block := b }))

/-- Startable, past its checks and limits, with room for the arena: the command finishes with ST_OK; the handle names an active session with the key set, the class, the arena and the generation asked for, at position 0 (a resumed record keeps its own). Every other handle, every other tenant, every byte of DRAM, all cells and runs stay. (R115, R107, R124, R250.) -/
def Obligations.SessionOpens : Prop :=
  ∀ (t ten lring seq n obj : Nat) (c : Cmd) (g : Gen) (s s1 : State), s.power.off = false →
    Startable s ten lring seq 0x01 1 c → openCheck ten s c = none →
    let cls := c.cls (s.ring ten lring)
    let old := Tbl.look (s.ten ten).sessions (c.handle 0)
    openLimits s ten cls c.resume = none → (Tbl.look (s.ten ten).models (openModel (s.ten ten) c)).bind Model.newest = some (n, g) →
    (begun s t ten lring seq 1).alloc ten .arena (some g.home) c.arenaBytes = .ok (obj, s1) →
    ∃ s' x, exec (.cmdSessionOpen t ten lring seq) s = .next s' ∧
      Tbl.look (s'.ten ten).sessions (c.handle 0) = some x ∧
      x.active = true ∧ x.closing = false ∧ x.model = openModel (s.ten ten) c ∧ x.gen = n ∧ x.keyset = some (c.handle 1) ∧
      x.cls = cls ∧ x.arena = obj ∧ x.arenaBytes = c.arenaBytes ∧
      x.position = (if c.resume then old.elim 0 (·.position) else 0) ∧
      x.deadlineMs = (if c.rtDeadlineMs = 0 then 2000 else c.rtDeadlineMs) ∧
      SameBut (c.handle 0) (s'.ten ten).sessions (s.ten ten).sessions ∧
      SameBut ten s'.tenants s.tenants ∧ SameBut (ringKey ten lring) s'.rings s.rings ∧
      s'.dram.cells = s.dram.cells ∧ s'.cells = s.cells ∧ s'.segs = s.segs ∧ s'.settings = s.settings ∧
      s'.cmd? ten lring seq = some (finished { c with startAt := some (max s.now t), reserved := 1 } (St.ok, 0) (max s.now t))

/-- For every command that starts fetched work: while a command that its AFTER fields name has no final completion, nothing happens; once all have one and some ended otherwise than with ST_OK, it finishes with ST_PREDECESSOR_FAILED without running, and nothing but its ring changes. CMD_FENCE, waiting as the oldest command of its ring with a free position and a right entry, starts and finishes at once: with ST_PREDECESSOR_FAILED where STRICT is set and a command of its span failed, with ST_OK otherwise. It reserves one position; nothing but its ring changes. A waiting CMD_ROUNDTRIP_RESUME one of whose AFTER fields names the parked CMD_EVAL of its own ring whose open ticket it carries finishes with ST_BAD_FIELD without waiting for it, with that AFTER field's offset where no earlier field is at fault; nothing but its ring changes. (R95, R96, R97.) -/
def Obligations.PredecessorsAndFences : Prop :=
  ((∀ (t ten lring seq : Nat) (h : HostView) (c : Cmd) (s : State),
    ∀ row ∈ startRows t ten lring seq h,
    s.power.off = false → Waits s ten lring seq row.2.1 c →
    let r := s.ring ten lring
    let named := ((List.range 4).map c.after).filter (· != 0)
    (∀ d ∈ named, d ≤ c.seq) →
    ((∃ d ∈ named, r.finalStatus (c.seq - d) = none) →
      ∃ s', exec row.1 s = .next s' ∧ OnlyTime s s' t) ∧
    ((∀ d ∈ named, r.finalStatus (c.seq - d) ≠ none) → (∃ d ∈ named, r.finalStatus (c.seq - d) ≠ some St.ok) →
      ∃ s' e, exec row.1 s = .next s' ∧ OnlyRing s s' t ten lring ∧ e.1 = St.predecessorFailed ∧
        s'.cmd? ten lring seq = some (finished c e (max s.now t)))) ∧
  (∀ (t ten lring seq : Nat) (c : Cmd) (rest : List Cmd) (s : State),
    s.power.off = false → (s.ring ten lring).cmds = c :: rest → Startable s ten lring seq 0x60 1 c →
    ∃ s', exec (.cmdFence t ten lring seq) s = .next s' ∧ OnlyRing s s' t ten lring ∧
      (s'.ring ten lring).reserved = (s.ring ten lring).reserved + 1 ∧
      s'.cmd? ten lring seq = some (finished { c with startAt := some (max s.now t), reserved := 1 }
        (if bitOf c.ctrl 3 = true ∧ (s.ring ten lring).spanFailed = true then (St.predecessorFailed, 0) else (St.ok, 0)) (max s.now t)))) ∧
  (∀ (t ten lring seq j : Nat) (h : HostView) (c k : Cmd) (v : Eval) (a : Attempt) (s : State),
    s.power.off = false → s.cmd? ten lring seq = some c → c.opcode = 0x11 → c.phase = .waiting →
    (s.ring ten lring).state = .live → s.starts ten = true → j < 4 → 0 < c.after j → c.after j ≤ seq →
    s.cmd? ten lring (seq - c.after j) = some k → k.eval = some v → v.attempt = some a → v.session = c.handle 0 →
    a.ticket = fld c.entry 0x50 8 → s.sec.startId = some (fld c.entry 0x58 8) →
    ∃ s' e, exec (.cmdRoundtripResume t ten lring seq h) s = .next s' ∧ OnlyRing s s' t ten lring ∧ e.1 = St.badField ∧ e.2 ≤ 4 + j ∧
      (commonFault c.entry seq = none → (∀ i < j, c.after i = 0) → e.2 = 4 + j) ∧
      s'.cmd? ten lring seq = some (finished c e (max s.now t)))

/-- For every command that starts fetched work, waits for no other and passes its checks: if it needs randomness and the DRBG cannot serve it is held from now on, reserving nothing; else if fewer positions are free than it reserves the ring sets CPL_FULL and the command waits on. Nothing but its ring changes. HELD_COMMAND_RELEASE, once the DRBG can serve, makes every held command of every ring waiting and leaves every other command. ENTROPY_HOLD_EXPIRE on a command held for 100 ms of waggle time, while the DRBG cannot serve, finishes it with ST_ENTROPY_PENDING, keeps its start unset and sets EN_EVENT.HOLD_EXPIRED. Nothing else changes. (R292, R102.) -/
def Obligations.RandomnessAndSpaceHolds : Prop :=
  (∀ (t ten lring seq : Nat) (h : HostView) (c : Cmd) (s : State),
    ∀ row ∈ startRows t ten lring seq h,
    s.power.off = false → Waits s ten lring seq row.2.1 c → (s.ring ten lring).afterGate c = .go →
    commonFault c.entry c.seq = none → row.2.2.1 s c = none →
    (row.2.2.2.1 s c = true → s.canServe = false →
      ∃ s', exec row.1 s = .next s' ∧ OnlyRing s s' t ten lring ∧
        s'.cmd? ten lring seq = some { c with phase := .held (max s.now t) } ∧
        (s'.ring ten lring).reserved = (s.ring ten lring).reserved) ∧
    ((row.2.2.2.1 s c = false ∨ s.canServe = true) → (s.ring ten lring).freePositions < row.2.2.2.2 s →
      ∃ s', exec row.1 s = .next s' ∧ OnlyRing s s' t ten lring ∧
        s'.ring ten lring = { s.ring ten lring with cplFull := true })) ∧
  (∀ (t ten lring seq since : Nat) (c : Cmd) (s : State), s.power.off = false →
    (s.canServe = true →
      exec (.heldCommandRelease t) s = .next { s with
        now := max s.now t
        rings := s.rings.map fun r => (r.1, { r.2 with cmds := r.2.cmds.map fun c =>
          match c.phase with
          | .held _ => { c with phase := .waiting }
          | .waiting => c
          | .started => c
          | .finished => c }) }) ∧
    (s.cmd? ten lring seq = some c → c.phase = .held since → since + 100000000 ≤ max s.now t → s.canServe = false →
      ∃ s', exec (.entropyHoldExpire t ten lring seq) s = .next s' ∧
        s' = { s with now := max s.now t, rings := s'.rings, entropy := { s.entropy with evHold := true } } ∧
        SameBut (ringKey ten lring) s'.rings s.rings ∧
        s'.cmd? ten lring seq = some { c with phase := .finished, status := St.entropyPending, detail := 0, endAt := max s.now t }))

/-- Startable and past its checks, with no key set to release: a close of an active session starts and marks the session closing, nothing more. A close of a record without KEEP_RECORD removes the record and finishes with ST_OK. COMMAND_FINISH of a started close, while no EVAL or copy of the session is running, ends it: with KEEP_RECORD a record with the session's position stays, without it the handle is gone, and the command finishes with ST_OK. Every other handle of a session, every other tenant and every byte of DRAM stay. (R117, R121.) -/
def Obligations.SessionCloses : Prop :=
  ∀ (t ten lring seq : Nat) (h : HostView) (c : Cmd) (x : Session) (s : State), s.power.off = false →
    Tbl.look (s.ten ten).sessions (c.handle 0) = some x →
    (Startable s ten lring seq 0x02 1 c → closeCheck ten s c = none → c.handle 1 = 0 → x.active = true →
      exec (.cmdSessionClose t ten lring seq) s = .next ((begun s t ten lring seq 1).updTen ten fun n =>
        { n with sessions := Tbl.put n.sessions (c.handle 0) { x with closing := true } })) ∧
    (Startable s ten lring seq 0x02 1 c → closeCheck ten s c = none → c.handle 1 = 0 → x.active = false → c.keepRecord = false →
      ∃ s', exec (.cmdSessionClose t ten lring seq) s = .next s' ∧
        Tbl.look (s'.ten ten).sessions (c.handle 0) = none ∧
        SameBut (c.handle 0) (s'.ten ten).sessions (s.ten ten).sessions ∧ SameBut ten s'.tenants s.tenants ∧
        SameBut (ringKey ten lring) s'.rings s.rings ∧ s'.dram.cells = s.dram.cells ∧ s'.cells = s.cells ∧
        s'.cmd? ten lring seq = some (finished { c with startAt := some (max s.now t), reserved := 1 } (St.ok, 0) (max s.now t))) ∧
    (s.cmd? ten lring seq = some c → c.opcode = 0x02 → c.phase = .started → s.sessionBusy ten (c.handle 0) = false →
      ∃ s', exec (.commandFinish t ten lring seq h) s = .next s' ∧
        (Tbl.look (s'.ten ten).sessions (c.handle 0)).map (fun r => (r.active, r.position, r.recIndex)) =
          (if c.keepRecord then some (false, x.position, x.recIndex) else none) ∧
        SameBut (c.handle 0) (s'.ten ten).sessions (s.ten ten).sessions ∧ SameBut ten s'.tenants s.tenants ∧
        SameBut (ringKey ten lring) s'.rings s.rings ∧ s'.dram.cells = s.dram.cells ∧ s'.cells = s.cells ∧
        s'.cmd? ten lring seq = some (finished c (St.ok, 0) (max s.now t)))

/-- Startable and past its checks, with an image that can be read and whose header, parameter set, directory and component lengths pass, and room for it: the handle names a key set with the image's modulus table and components, not yet loaded, and the command's work has ended with ST_OK. COMMAND_FINISH of such a command makes the key set loaded and finishes the command; of one whose work failed it finishes with the failure. No other tenant and no register of a cell changes. (R118, R119, R111, R121.) -/
def Obligations.KeySetLoads : Prop :=
  ∀ (t ten lring seq obj : Nat) (h : HostView) (c : Cmd) (img : List Byte) (k : KeyHead) (s s1 : State), s.power.off = false →
    (Startable s ten lring seq 0x03 1 c → keysetCheck ten s c = none → hostRead h ten (c.iova 0) (c.len 0) = some img →
      keyHeader img (c.len 0) = .ok k → k.paramFault s.settings.ceil = none → k.dirFault img = none → k.badLength img = none →
      (begun s t ten lring seq 1).alloc ten .keyset ((s.ten ten).homeOf (c.handle 1)) k.objBytes = .ok (obj, s1) →
      ∃ s' x, exec (.cmdKeysetLoad t ten lring seq h) s = .next s' ∧
        Tbl.look (s'.ten ten).keysets (c.handle 0) = some x ∧ x.modtab = k.tab ∧ x.dnum = k.dnum ∧ x.obj = obj ∧
        x.comps = (k.layout img 0 0 k.kinds).map (·.1) ∧ x.loaded = false ∧ x.released = false ∧
        SameBut (c.handle 0) (s'.ten ten).keysets (s.ten ten).keysets ∧ SameBut ten s'.tenants s.tenants ∧
        SameBut (ringKey ten lring) s'.rings s.rings ∧ s'.cells = s.cells ∧ s'.settings = s.settings ∧
        s'.cmd? ten lring seq = some (ended { c with phase := .started, startAt := some (max s.now t), reserved := 1 } (St.ok, 0))) ∧
    (s.cmd? ten lring seq = some c → c.opcode = 0x03 → c.phase = .started →
      ∃ s', exec (.commandFinish t ten lring seq h) s = .next s' ∧
        Tbl.look (s'.ten ten).keysets (c.handle 0) = (Tbl.look (s.ten ten).keysets (c.handle 0)).map (fun x =>
          if c.status = St.ok then { x with loaded := true } else x) ∧
        SameBut (c.handle 0) (s'.ten ten).keysets (s.ten ten).keysets ∧ SameBut ten s'.tenants s.tenants ∧
        SameBut (ringKey ten lring) s'.rings s.rings ∧ s'.dram = s.dram ∧ s'.cells = s.cells ∧
        s'.cmd? ten lring seq = some (finished c (c.status, c.detail) (max s.now t)))

/-- CMD_MODEL_LOAD, startable, past its checks and quotas, with a package that opens and reads and finds a place, has its work done with ST_OK and a load under way that holds the modulus table, segments and round trips of the package; the generations stand as they were. COMMAND_FINISH of a load under way on a handle that is not retired makes its generation ready under the next number (and keeps it there, numbers of ready generations being below the next), frees nothing else but generations, and finishes with ST_OK. CMD_MODEL_RETIRE, startable and past its checks, finishes with ST_OK and leaves the handle retired or gone. No other tenant changes. (R126, R129, R130.) -/
def Obligations.ModelLoadsAndRetires : Prop :=
  ∀ (t ten lring seq id : Nat) (h : HostView) (c : Cmd) (g : Gen × List (List Byte)) (m : Model) (gen : Gen) (s s1 : State), s.power.off = false →
    (Startable s ten lring seq 0x04 1 c → modelCheck ten s c = none → (s.ten ten).gensHeld + 1 ≤ (s.tnSet ten).genMax →
      sumL (s.tenants.map fun t => t.2.gensHeld) + 1 ≤ 16384 →
      ((begun s t ten lring seq 1).openPackage h ten (c.iova 0) (c.len 0)).bind
        (fun p => readPlain p s.settings.ceil ((s.ten ten).paramsOf (c.handle 0))) = .ok g →
      (begun s t ten lring seq 1).placeGen ten c g.1 g.2 = .ok (id, s1) →
      ∃ s' m' g', exec (.cmdModelLoad t ten lring seq h) s = .next s' ∧
        Tbl.look (s'.ten ten).models (c.handle 0) = some m' ∧ Tbl.look m'.loading id = some g' ∧
        g'.modtab = g.1.modtab ∧ g'.segs = g.1.segs ∧ g'.rts = g.1.rts ∧ g'.obj = id ∧ m'.gens = ((Tbl.look (s.ten ten).models (c.handle 0)).elim [] (·.gens)) ∧
        s'.cmd? ten lring seq = some (ended { c with phase := .started, startAt := some (max s.now t), reserved := 1, load := some id } (St.ok, 0)) ∧
        SameBut ten s'.tenants s.tenants ∧ SameBut (ringKey ten lring) s'.rings s.rings ∧ s'.cells = s.cells ∧ s'.settings = s.settings) ∧
    (s.cmd? ten lring seq = some c → c.opcode = 0x04 → c.phase = .started → c.load = some id →
      Tbl.look (s.ten ten).models (c.handle 0) = some m → Tbl.look m.loading id = some gen → m.retired = false →
      ∃ s' m', exec (.commandFinish t ten lring seq h) s = .next s' ∧
        Tbl.look (s'.ten ten).models (c.handle 0) = some m' ∧ m'.next = m.next + 1 ∧ m'.retired = false ∧
        m'.loading = Tbl.del m.loading id ∧
        (∀ n x, Tbl.look m'.gens n = some x → Tbl.look (Tbl.put m.gens m.next gen) n = some x) ∧
        ((∀ p ∈ m.gens, p.1 < m.next) → Tbl.look m'.gens m.next = some gen) ∧
        SameBut ten s'.tenants s.tenants ∧ SameBut (ringKey ten lring) s'.rings s.rings ∧ s'.dram.cells = s.dram.cells ∧
        s'.cmd? ten lring seq = some (finished c (St.ok, 0) (max s.now t))) ∧
    (Startable s ten lring seq 0x05 1 c → retireCheck ten s c = none →
      ∃ s', exec (.cmdModelRetire t ten lring seq) s = .next s' ∧
        (∀ m', Tbl.look (s'.ten ten).models (c.handle 0) = some m' → m'.retired = true) ∧
        SameBut ten s'.tenants s.tenants ∧ SameBut (ringKey ten lring) s'.rings s.rings ∧ s'.dram.cells = s.dram.cells ∧
        s'.cmd? ten lring seq = some (finished { c with startAt := some (max s.now t), reserved := 1 } (St.ok, 0) (max s.now t)))

/-- The state of an EVAL that has just started: two positions reserved where its tenant may park, no start time yet, its session's position advanced by its frames and bound to the newest generation. -/
def evalAdvanced (s : State) (t ten lring seq n : Nat) (c : Cmd) (x : Session) : State :=
  ((((begun s t ten lring seq (evalPositions ten s)).updCmd ten lring seq fun c => { c with startAt := none }).updTen ten fun z =>
      { z with sessions := Tbl.put z.sessions (c.handle 0) { x with position := x.position + c.frames, gen := n } }).updCmd ten lring seq fun k =>
        { k with eval := some (c.newEval x n) }).sweepModel ten x.model

/-- The bytes of a reply that reach the arena: as they came, or transformed where the entry asks for the coefficient domain. -/
def replyBytes (s : State) (tab : ModTable) (e : RtEntry) (b : List Byte) : List Byte :=
  if bitOf e.flags 2 then
    let n := 2 ^ tab.logN
    let limbs := chunks n (2 * e.inLimbs * n) (words 4 (b.drop 64))
    let fwd (_ : Nat) (m : ModEntry) (l : List Nat) : List Nat := nttForward m tab.logN tab.logN l
    let x := s.mapLimbs tab fwd 0 (limbs.take e.inLimbs)
    unwords 4 (x.1.flatten ++ (x.2.mapLimbs tab fwd 0 (limbs.drop e.inLimbs)).1.flatten)
  else b.drop 64

/-- Startable with the positions it reserves, past its checks, with randomness where it needs it: where the position would pass FRAME_CEIL the command finishes with ST_SESSION_EXHAUSTED and nothing but its ring changes. Otherwise the position advances by FRAMES, the session is bound to the newest generation, and: where weights or keys are lost or a segment writes what it reads, the EVAL fails with that; where the messages of the entry segment's gang have landed, one ready run per segment of the gang joins the runs, in the command's class, on the comb (HOME_COMB + COMB_OFF) mod 4; where not, the EVAL waits for them. Every other session, tenant and ring, every byte of DRAM and every cell stay. (R116, R128, R102, R309, R326, R327, R349.) -/
def Obligations.EvalStarts : Prop :=
  ∀ (t ten lring seq n : Nat) (c : Cmd) (x : Session) (g : Gen) (s : State), s.power.off = false →
    Startable s ten lring seq 0x10 (evalPositions ten s) c → evalCheck ten s c = none → (evalNeeds ten s c = false ∨ s.canServe = true) →
    s.openSession? ten (c.handle 0) = some x → s.currentGen ten x = some (n, g) → s.genOf ten x.model n = some g →
    let s2 := evalAdvanced s t ten lring seq n c x
    (x.position + c.frames > (s.tnSet ten).frameCeil →
      ∃ s', exec (.cmdEval t ten lring seq) s = .next s' ∧ OnlyRing s s' t ten lring ∧
        s'.cmd? ten lring seq = some (finished { c with reserved := evalPositions ten s, startAt := none } (St.sessionExhausted, 0) (max s.now t))) ∧
    (x.position + c.frames ≤ (s.tnSet ten).frameCeil →
      ∃ s', exec (.cmdEval t ten lring seq) s = .next s' ∧
        Tbl.look (s'.ten ten).sessions (c.handle 0) = some { x with position := x.position + c.frames, gen := n } ∧
        SameBut (c.handle 0) (s'.ten ten).sessions (s.ten ten).sessions ∧ SameBut ten s'.tenants s.tenants ∧
        SameBut (ringKey ten lring) s'.rings s.rings ∧ s'.dram.cells = s.dram.cells ∧ s'.settings = s.settings ∧
        (∀ e, s2.startFault ten lring c x g = some e →
          evalOf s' ten lring seq = some (evalFails (c.newEval x n) e (!((runsAfter s.segs ten lring seq e).any fun g => g.ofCmd ten lring seq))) ∧
          s'.segs = runsAfter s.segs ten lring seq e) ∧
        (s2.startFault ten lring c x g = none → s'.cells = s.cells ∧
          ChainAt s s' ten lring c (c.newEval x n) g c.entrySeg))

/-- For an EVAL that has not failed: RT_ATTEMPT_EXPIRE past the deadline of an unclaimed attempt with no retry left, RT_INTERIM_DEADLINE while the previous interim has stood unread for one deadline period, and FABRIC_DEADLINE once a message has waited too long to be admitted or to arrive, fail it with ST_ROUNDTRIP_DEADLINE. ROUTE_FAILURE_NOTICE for an edge whose message is not acknowledged fails it with ST_SWARM_MISMATCH or ST_LINK_QUARANTINED and the port, and logs edge, port and device. The failed EVAL keeps no attempt, wait or send; its runs that have not started are withdrawn; every other run, the DRAM and every other ring stay. (R254, R255, R310, R318, R340.) -/
def Obligations.EvalDeadlines : Prop :=
  ∀ (t ten lring seq : Nat) (c : Cmd) (v : Eval) (s : State), s.power.off = false →
    s.cmd? ten lring seq = some c → c.eval = some v → v.failed = none →
    (∀ a d, v.attempt = some a → a.deadline = some d → d ≤ max s.now t → a.claimed = false → v.retries < a.attempt →
      ∃ s', exec (.rtAttemptExpire t ten lring seq) s = .next s' ∧
        FailsEval s s' ten lring seq v (St.roundtripDeadline, 0) ∧ s'.log = s.log ∧ s'.tenants = s.tenants) ∧
    (∀ a d p, v.lastInterim = some p → v.attempt = some a → a.written = false → a.waitUntil = some d → d ≤ max s.now t →
      ∃ s', exec (.rtInterimDeadline t ten lring seq) s = .next s' ∧
        FailsEval s s' ten lring seq v (St.roundtripDeadline, 0) ∧ s'.log = s.log ∧ s'.tenants = s.tenants) ∧
    (((∃ x ∈ v.sends, x.admitted = false ∧ x.acked = false ∧ x.until_ ≤ max s.now t) ∨
        (∃ w, v.recvWait = some w ∧ w.2 + ((Tbl.look (s.ten ten).sessions v.session).elim 0 (·.deadlineMs)) * msec < max s.now t)) →
      ∃ s', exec (.fabricDeadline t ten lring seq) s = .next s' ∧
        FailsEval s s' ten lring seq v (St.roundtripDeadline, 0) ∧ s'.log = s.log ∧ s'.tenants = s.tenants) ∧
    (∀ edge port device mismatch, (∃ x ∈ v.sends, x.edge = edge ∧ x.acked = false) →
      ∃ s', exec (.routeFailureNotice t ten lring seq edge port device mismatch) s = .next s' ∧
        FailsEval s s' ten lring seq v (if mismatch then St.swarmMismatch else St.linkQuarantined, port) ∧
        s'.log = s.log.add { type := Rec.fabric, flags := 0, ten := ten, source := port, waggle := max s.now t, arg0 := device, arg1 := edge })

/-- FABRIC_MESSAGE_LAND of a complete message of a configured edge to an active session, not landed before and with its range free: every part stands at DST_OFFSET plus its own offset in the arena, the message is noted as landed and its range as taken, and it leaves the inbox. FABRIC_ACK_RECEIVE marks the sends of that edge admitted and acknowledged and changes nothing else. FABRIC_RECV_START of an EVAL whose awaited messages have all landed puts the gang of its receiving segment with the dispatcher. Tenants, cells and settings stay throughout. (R308, R309, R310.) -/
def Obligations.FabricMessages : Prop :=
  ∀ (t ten lring seq edge : Nat) (m : FabricMsg) (c : Cmd) (v : Eval) (g : Gen) (e : Edge) (x : Session) (cfg : SwarmCfg) (s : State), s.power.off = false →
    ((s.fabric.inbox.find? fun y => y.id == m.id) = some m → s.settings.swarm = some cfg → (cfg.edges.find? fun e => e.edge == m.edge) = some e →
      Tbl.look (s.ten m.ten).sessions m.session = some x → x.active = true → m.complete = true →
      s.fabric.landed.contains (m.ten, m.session, m.edge, m.position) = false → s.fabric.occupied.contains (m.ten, m.session, m.edge) = false →
      ∃ s', exec (.fabricMessageLand t m.id) s = .next s' ∧
        s'.dram = (m.got.foldl (fun s g => s.writeObj x.arena (e.dstOffset + g.1) g.2) s).dram ∧
        s'.fabric.landed = (m.ten, m.session, m.edge, m.position) :: s.fabric.landed ∧
        s'.fabric.occupied = (m.ten, m.session, m.edge) :: s.fabric.occupied ∧
        s'.fabric.inbox = (s.fabric.inbox.filter fun y => y.id != m.id) ∧
        s'.tenants = s.tenants ∧ s'.rings = s.rings ∧ s'.cells = s.cells ∧ s'.segs = s.segs ∧ s'.settings = s.settings ∧ s'.log = s.log) ∧
    (s.cmd? ten lring seq = some c → c.eval = some v →
      ∃ s', exec (.fabricAckReceive t ten lring seq edge) s = .next s' ∧ OnlyRing s s' t ten lring ∧
        s'.cmd? ten lring seq = some { c with eval := some { v with
          sends := v.sends.map fun y => if y.edge = edge then { y with admitted := true, acked := true } else y } }) ∧
    (∀ idx w, s.cmd? ten lring seq = some c → c.eval = some v → v.recvWait = some (idx, w) → s.genOf ten v.model v.gen = some g →
      (∀ i ∈ g.gang idx, s.messagesLanded ten v i = true) →
      ∃ s', exec (.fabricRecvStart t ten lring seq) s = .next s' ∧
        evalOf s' ten lring seq = some { v with chain := idx, rounds := v.rounds + 1, recvWait := none } ∧ AsksGang s s' ten lring c g idx ∧
        s'.tenants = s.tenants ∧ s'.dram = s.dram ∧ s'.cells = s.cells ∧ s'.settings = s.settings ∧ SameBut (ringKey ten lring) s'.rings s.rings)

/-- COMMAND_FINISH of a started EVAL whose chain has ended and whose messages are all acknowledged finishes it with ST_OK, or, where it failed, with its first failure: every byte of DRAM that it wrote then holds a free value and every run of host memory that it wrote is given as undefined, while every other byte, the poison and everything but its ring stay; of an encryption, decryption, public-key or meter command, or a resume, whose work has ended, with the status and detail of that work; before that it does nothing. A copy to the device whose source reads writes it at its offset in the arena; one from the device writes the arena bytes to host memory; both finish with ST_OK. Nothing else changes. (R98, R99, R308, R340, R354.) -/
def Obligations.CommandsFinish : Prop :=
  ∀ (t ten lring seq : Nat) (h : HostView) (c : Cmd) (s : State), s.power.off = false → s.cmd? ten lring seq = some c → c.phase = .started →
    let fin (s' : State) (e : Err) := s'.cmd? ten lring seq = some (finished c e (max s.now t))
    (∀ v, c.opcode = 0x10 → c.eval = some v →
      (v.done = true → (∀ x ∈ v.sends, x.acked = true) → v.failed = none →
        ∃ s', exec (.commandFinish t ten lring seq h) s = .next s' ∧ OnlyRing s s' t ten lring ∧ fin s' (St.ok, 0)) ∧
      (∀ e, v.done = true → (∀ x ∈ v.sends, x.acked = true) → v.failed = some e →
        let l := v.wroteAt s.dram ten
        ∃ s', exec (.commandFinish t ten lring seq h) s = .next s' ∧ fin s' e ∧ SameBut (ringKey ten lring) s'.rings s.rings ∧
          s' = { s with now := max s.now t, rings := s'.rings, free := s.free + l.length, dram := { s.dram with cells := s'.dram.cells }, out := s'.out } ∧
          s'.out = (v.hostWrote.map fun r => Out.dmaUndefined ten r.1 r.2).reverse ++ s.out ∧
          s'.dram.cells = Memory.puts s.dram.cells (l.zip ((s.frees l.length).map (BitVec.ofNat 8))) ∧
          ∀ d, d ∉ l → s'.dram.byte d = s.dram.byte d) ∧
      (v.done = false ∨ (∃ x ∈ v.sends, x.acked = false) → ∃ s', exec (.commandFinish t ten lring seq h) s = .next s' ∧ OnlyTime s s' t)) ∧
    (c.opcode ∈ [0x11, 0x20, 0x21, 0x30, 0x40] →
      (c.runDone = true → ∃ s', exec (.commandFinish t ten lring seq h) s = .next s' ∧ OnlyRing s s' t ten lring ∧ fin s' (c.status, c.detail)) ∧
      (c.runDone = false → ∃ s', exec (.commandFinish t ten lring seq h) s = .next s' ∧ OnlyTime s s' t)) ∧
    (∀ x k b, c.opcode = 0x50 → Tbl.look (s.ten ten).sessions (c.handle 0) = some x → c.comb = some k → (s.comb k).svc = .inService →
      (c.toHost = false → hostRead h ten (c.iova 0) (c.len 0) = some b →
        ∃ s', exec (.commandFinish t ten lring seq h) s = .next s' ∧ fin s' (St.ok, 0) ∧ SameBut (ringKey ten lring) s'.rings s.rings ∧
          s' = { s with now := max s.now t, rings := s'.rings, dram := (s.writeObj x.arena c.copyOffset b).dram }) ∧
      (c.toHost = true → s.readObjAt x.arena c.copyOffset (c.len 0) = .ok b → (s.hostWrite h ten (c.iova 0) b).2 = true →
        ∃ s', exec (.commandFinish t ten lring seq h) s = .next s' ∧ fin s' (St.ok, 0) ∧ SameBut (ringKey ten lring) s'.rings s.rings ∧
          s' = { s with now := max s.now t, rings := s'.rings, out := (s.hostWrite h ten (c.iova 0) b).1.out }))

/-- RT_ATTEMPT_EXPIRE of an unclaimed attempt past its deadline, with a retry left, a region inside the arena, room in the output buffer, tickets left and readable words: the EVAL holds attempt k + 1 at the same point with the next ticket of the counter, which its session keeps, not yet written, and one deadline period from now for the host to read the last interim; its mask is noted as written; its message, mask and charges aside nothing of the rings, runs or cells changes. RT_OUTBOUND_WRITE of an attempt not yet written, with no interim outstanding and both host writes allowed on a ring not in error: the ciphertext and then the interim completion (DETAIL the attempt, INTERIM set) have been written, the completion position moves on by one out of the positions reserved, and the attempt stands written with its deadline running from now. Startable, on a session that is held: with a START_ID that is not that of this start it finishes with ST_CANCELLED; with a ticket that the session does not hold, with ST_BAD_FIELD and 0x50; with a ticket whose attempt is no longer open, with ST_CANCELLED; nothing but its ring changes. With an open attempt of a parked EVAL and a reply of the right length that reads and checks, the reply, converted where the entry asks for the coefficient domain, stands in the arena at IN_OFFSET, the command finishes with ST_OK, the attempt is over, and the chain of the EVAL goes on at RESUME_SEG. No object of a tenant, no cell and no other ring changes. (R100, R102, R248, R249, R250, R251, R252, R253, R254, R255.) -/
def Obligations.RoundTrips : Prop :=
  (∀ (t ten lring seq : Nat) (h : HostView) (c : Cmd) (v : Eval) (a : Attempt) (g : Gen) (x : Session) (e : RtEntry) (s : State), s.power.off = false →
    s.cmd? ten lring seq = some c → c.eval = some v → v.attempt = some a → s.genOf ten v.model v.gen = some g →
    Tbl.look (s.ten ten).sessions v.session = some x → g.rts[a.point]? = some e →
    let n := 2 ^ g.modtab.logN
    (∀ d ws, a.deadline = some d → d ≤ max s.now t → a.claimed = false → a.attempt ≤ v.retries → e.inside n x.arenaBytes = true →
      64 + 2 * e.outLimbs * n * 4 ≤ v.outLen → s.sec.rtCounter < 2 ^ 44 - 1 → s.arenaWords ten x.arena e.outOffset (2 * e.outLimbs * n) = .ok ws →
      ∃ s' b, exec (.rtAttemptExpire t ten lring seq) s = .next s' ∧ (∃ l, evalOf s' ten lring seq = some { v with attempt := some b, wrote := v.wrote ++ l } ∧
          ∀ d ∈ l, s.dvaOf x.arena + e.inOffset + 2 * e.inLimbs * n * 4 ≤ d) ∧
        (0 < a.attempt → b.waitUntil = v.lastInterim.map fun _ => max s.now t + x.deadlineMs * msec) ∧
        b.attempt = a.attempt + 1 ∧ b.point = a.point ∧ b.ticket = x.recIndex % 2 ^ 20 * 2 ^ 44 + s.sec.rtCounter ∧
        b.written = false ∧ b.deadline = none ∧ b.claimed = false ∧ s'.sec.rtCounter = s.sec.rtCounter + 1 ∧
        Tbl.look (s'.ten ten).sessions v.session = some { x with tickets := s.sec.rtCounter :: x.tickets } ∧
        SameBut v.session (s'.ten ten).sessions (s.ten ten).sessions ∧ SameBut (ringKey ten lring) s'.rings s.rings ∧
        s'.segs = s.segs ∧ s'.cells = s.cells ∧ s'.settings = s.settings ∧ s'.out = s.out) ∧
    (let w := (s.advance t).hostWrite h ten v.outIova (outboundHeader a e c v x g.modtab.logN (max s.now t) (s.sec.startId.getD 0) ++ a.outbound)
     let r := s.ring ten lring
     a.written = false → v.lastInterim = none → v.failed = none → w.2 = true → r.state ≠ .error → r.fromError = false →
     r.cplBase % 4096 = 0 → (hostPage h ten r.cplIova).isSome = true →
      ∃ s' runNs rest, exec (.rtOutboundWrite t ten lring seq h) s = .next s' ∧
        evalOf s' ten lring seq = some { v with attempt := some (a.sent (max s.now t + x.deadlineMs * msec)), lastInterim := some r.cplPos,
                                                   hostWrote := v.hostWrote ++ [(v.outIova, 64 + a.outbound.length)] } ∧
        (s'.ring ten lring).cplPos = r.cplPos + 1 ∧ (s'.ring ten lring).reserved = r.reserved - 1 ∧
        s'.out = rest ++ Out.dmaWrite ten r.cplIova (completionBytes St.ok (phaseBit r.logEntries r.cplPos + 2) a.attempt c.seq (slice c.entry 8 8)
          (c.startAt.elim 0 fun t => t / usec % 2 ^ 32) runNs c.ops) :: w.1.out ∧
        SameBut (ringKey ten lring) s'.rings s.rings ∧ s'.tenants = s.tenants ∧ s'.segs = s.segs ∧ s'.cells = s.cells ∧ s'.dram = s.dram)) ∧
  (∀ (t ten lring seq : Nat) (h : HostView) (c : Cmd) (x : Session) (s : State), s.power.off = false →
    Startable s ten lring seq 0x11 1 c → Tbl.look (s.ten ten).sessions (c.handle 0) = some x →
    let ticket := fld c.entry 0x50 8
    let b0 := begun s t ten lring seq 1
    let ends (s' : State) (e : Err) := s'.cmd? ten lring seq = some (finished { c with startAt := some (max s.now t), reserved := 1 } e (max s.now t))
    (s.sec.startId ≠ some (fld c.entry 0x58 8) →
      ∃ s', exec (.cmdRoundtripResume t ten lring seq h) s = .next s' ∧ OnlyRing s s' t ten lring ∧ ends s' (St.cancelled, 0)) ∧
    (s.sec.startId = some (fld c.entry 0x58 8) → (ticket / 2 ^ 44 ≠ x.recIndex % 2 ^ 20 ∨ x.tickets.contains (ticket % 2 ^ 44) = false) →
      ∃ s', exec (.cmdRoundtripResume t ten lring seq h) s = .next s' ∧ OnlyRing s s' t ten lring ∧ ends s' (St.badField, 0x50)) ∧
    (s.sec.startId = some (fld c.entry 0x58 8) → ticket / 2 ^ 44 = x.recIndex % 2 ^ 20 → x.tickets.contains (ticket % 2 ^ 44) = true →
      (b0.openAttempt ten (c.handle 0) ticket = none →
        ∃ s', exec (.cmdRoundtripResume t ten lring seq h) s = .next s' ∧ OnlyRing s s' t ten lring ∧ ends s' (St.cancelled, 0)) ∧
      (∀ lr k v a g e b, b0.openAttempt ten (c.handle 0) ticket = some (lr, k, v, a) → s.cmd? ten lr k.seq = some k → k.opcode = 0x10 → k.eval = some v →
        s.genOf ten v.model v.gen = some g → g.rts[a.point]? = some e → c.len 0 = 64 + 2 * e.inLimbs * 2 ^ g.modtab.logN * 4 →
        hostRead h ten (c.iova 0) (c.len 0) = some b → replyFault g.modtab e a.ticket (fld c.entry 0x58 8) b = none →
        ∃ s', exec (.cmdRoundtripResume t ten lring seq h) s = .next s' ∧ ends s' (St.ok, 0) ∧
          s'.dram = (s.writeObj x.arena e.inOffset (replyBytes s g.modtab e b)).dram ∧
          ChainAt s s' ten lr k { v with attempt := none, answeredAt := some (max s.now t) } g e.resumeSeg ∧
          s'.tenants = s.tenants ∧ s'.cells = s.cells ∧ s'.settings = s.settings ∧
          ∀ j, j ≠ ringKey ten lring → j ≠ ringKey ten lr → Tbl.look s'.rings j = Tbl.look s.rings j)))

/-- Only naturally aligned accesses of 4 and 8 bytes are right. An aligned 64-bit access is one to the 64-bit register that sits there; where either half holds a 32-bit register it is wrong; where both are unassigned it is unassigned. An aligned 32-bit access to a 32-bit register or to either half of a 64-bit register is valid, any other is unassigned. A wrong write of a function is dropped and logged (one record in the log, and in the view of the function), an unassigned one is dropped, and nothing else changes; a wrong read returns all ones, an unassigned one zero. (R9.) -/
def Obligations.RegisterAccesses : Prop :=
  ∀ (t fn off width value : Nat) (h : HostView) (s : State), s.power.off = false → fn < 512 →
    ((width ≠ 4 ∧ width ≠ 8) ∨ off % width ≠ 0 → access fn off width = .wrong) ∧
    (off % 8 = 0 → regWidth fn off = 8 → access fn off 8 = .reg off true true) ∧
    (off % 8 = 0 → regWidth fn off ≠ 8 → (regWidth fn off = 4 ∨ regWidth fn (off + 4) = 4) → access fn off 8 = .wrong) ∧
    (off % 8 = 0 → regWidth fn off ≠ 8 → regWidth fn off ≠ 4 → regWidth fn (off + 4) ≠ 4 → access fn off 8 = .unassigned) ∧
    (off % 4 = 0 → (regWidth fn off = 4 ∨ regWidth fn off = 8) → access fn off 4 = .reg off true false) ∧
    (off % 8 = 4 → regWidth fn off ≠ 4 → regWidth fn off ≠ 8 → regWidth fn (off - 4) = 8 → access fn off 4 = .reg (off - 4) false true) ∧
    (off % 4 = 0 → regWidth fn off ≠ 4 → regWidth fn off ≠ 8 → (off % 8 = 0 ∨ regWidth fn (off - 4) ≠ 8) → access fn off 4 = .unassigned) ∧
    (access fn off width = .wrong → s.readAccess fn off width = 2 ^ (8 * width) - 1 ∧
      ∃ s', exec (.registerWrite t fn off width value h) s = .next s' ∧
        s' = { s with now := max s.now t, tenants := s'.tenants,
                      log := (s.log.add { type := 0x01, flags := 0, ten := fn, source := fn, waggle := max s.now t, arg0 := off, arg1 := value % 2 ^ (8 * width) }) } ∧
        SameBut fn s'.tenants s.tenants) ∧
    (access fn off width = .unassigned → s.readAccess fn off width = 0 ∧
      ∃ s', exec (.registerWrite t fn off width value h) s = .next s' ∧ OnlyTime s s' t)

/-- In READY, a 32-bit write of HV_PARAM_CEIL_k stores MAX_BITS or DEFAULT, whichever is less; of DL_ILV, LOCAL_GIB up to 96, and the split in force stays; of PW_REST, REST_IDLE of at least 1 and REST_EN; of MT_EPOCH, LEN_S from 1 to 1,200 and ALIGN. A 64-bit write of CB_PACE_CTL clamps its codes and is dropped whole where the band is wrong; of PW_POWER, stores CAP_W from 1,250 to 1,500; of RG_POLL, four periods of at least 1. Nothing but the setting, the firmware store that saves it (or, for a dropped write, the log and the view) and time changes. (R33, R34, R43, R75, R82, R359, R367, R407.) -/
def Obligations.SettingsClamp : Prop :=
  ∀ (t v : Nat) (h : HostView) (s : State), s.power.off = false → s.power.phase = .ready →
    let sets (off w : Nat) (x : Settings) := ∃ s', exec (.registerWrite t 0 off w v h) s = .next s' ∧ s' = { s with now := max s.now t, settings := x, fw := s'.fw }
    (v < 2 ^ 32 →
      (∀ k < 6, sets (0x100 + 4 * k) 4 { s.settings with ceil := s.settings.ceil.set k (min (v % 4096) (nth0 [109, 218, 438, 881, 1761, 3500] k)) }) ∧
      sets 0xC0010 4 { s.settings with localGib := min 96 (v % 128) } ∧
      sets 0xE0008 4 { s.settings with restIdle := max 1 (v % 65536), restEn := bitOf v 16 } ∧
      sets 0x50000 4 { s.settings with lenS := max 1 (min 1200 (v % 2048)), align_ := bitOf v 11 }) ∧
    (v < 2 ^ 64 →
      sets 0xE0028 8 { s.settings with capW := max 1250 (min 1500 (bits v 16 11)) } ∧
      sets 0x20030 8 { s.settings with poll := [max 1 (bits v 0 16), max 1 (bits v 16 16), max 1 (bits v 32 16), max 1 (bits v 48 16)] } ∧
      ∀ c < 4,
        let vmax := max 40 (min 60 (bits v 8 6))
        let vmin := min (min 60 (bits v 0 6)) vmax
        let lo := bits v 24 7
        let hi := bits v 32 7
        (hi ≤ 100 → lo + 10 ≤ hi → sets (0x80100 + c * 0x10000) 8 { s.settings with
          pace := (Tbl.put s.settings.pace c { vmin := vmin, vmax := vmax, vfix := max vmin (min (min 60 (bits v 16 6)) vmax), bandLo := lo, bandHi := hi, paced := bitOf v 40, c0Hold := bits v 48 16 }) }) ∧
        (100 < hi ∨ hi < lo + 10 → ∃ s', exec (.registerWrite t 0 (0x80100 + c * 0x10000) 8 v h) s = .next s' ∧
          s' = { s with now := max s.now t, log := (s.log.add { type := 0x01, flags := 0, ten := 0, source := 0, waggle := max s.now t, arg0 := 0x80100 + c * 0x10000, arg1 := v }) }))

/-- In READY, a 64-bit TN_WRITE for the selected tenant. TN_SHELF: where the C0 shelves of all tenants, with the new ones, stay within 96 on every comb the whole register is taken (WEIGHT_SHELVES up to 192); TN_C0_RES: where the C0 cells stay within 64 on every comb, the new share within 25 and the shares of all tenants within 50 %, it is taken; TN_CTL: where MSIX_COUNT stays, or changes on a tenant without rings within the sum of 2,048, it is taken (RING_MAX up to 256). In every other case the settings stay, WERR gives the cause, and a record is logged. TN_MEM, TN_SESS and TN_MODEL are always taken. Rings, runs, scratchpads and DRAM never change. (R106, R107, R108, R109, R330.) -/
def Obligations.TenantSettings : Prop :=
  ∀ (t v : Nat) (s : State), s.power.off = false → s.power.phase = .ready → v < 2 ^ 64 →
    let ten := s.tnSel
    let x := s.tnSet ten
    let frame (s' : State) := s'.rings = s.rings ∧ s'.segs = s.segs ∧ s'.cells = s.cells ∧ s'.dram = s.dram
    let takes (off : Nat) (y : TnSet) := ∃ s', exec (.tnWrite t 0 off 8 v) s = .next s' ∧ frame s' ∧
      s'.settings = { s.settings with tn := Tbl.put s.settings.tn ten y } ∧ s'.tenants = s.tenants ∧ s'.log = s.log
    let drops (off cause : Nat) := ∃ s', exec (.tnWrite t 0 off 8 v) s = .next s' ∧ frame s' ∧ s'.settings = s.settings ∧
      (s'.ten ten).werr = cause ∧ s'.combs = s.combs ∧
      s'.log = s.log.add { type := 0x01, flags := 0, ten := 0, source := 0, waggle := max s.now t, arg0 := off, arg1 := v }
    let c0s := [bits v 0 8, bits v 16 8, bits v 32 8, bits v 48 8]
    let c0c := [bits v 0 7, bits v 8 7, bits v 16 7, bits v 24 7]
    let bw := bits v 32 5
    let n := bits v 32 12
    takes 0x10010 { x with dramMib := bits v 0 20 } ∧
    takes 0x10018 { x with activeMax := bits v 0 17, recordMax := bits v 32 21 } ∧
    takes 0x10020 { x with genMax := bits v 0 15, frameCeil := bits v 32 32 } ∧
    ((∀ c < 4, s.tnTotal ten (fun y => nth0 y.c0Shelves c) (nth0 c0s c) ≤ 96) →
      takes 0x10028 { x with c0Shelves := c0s, wShelves := [min 192 (bits v 8 8), min 192 (bits v 24 8), min 192 (bits v 40 8), min 192 (bits v 56 8)] }) ∧
    ((∃ c < 4, 96 < s.tnTotal ten (fun y => nth0 y.c0Shelves c) (nth0 c0s c)) → drops 0x10028 Werr.shelves) ∧
    ((∀ c < 4, s.tnTotal ten (fun y => nth0 y.c0Cells c) (nth0 c0c c) ≤ 64) → bw ≤ 25 → s.tnTotal ten (·.bwPct) bw ≤ 50 →
      takes 0x10030 { x with c0Cells := c0c, bwPct := bw }) ∧
    ((∃ c < 4, 64 < s.tnTotal ten (fun y => nth0 y.c0Cells c) (nth0 c0c c)) → drops 0x10030 Werr.cells) ∧
    ((∀ c < 4, s.tnTotal ten (fun y => nth0 y.c0Cells c) (nth0 c0c c) ≤ 64) → (25 < bw ∨ 50 < s.tnTotal ten (·.bwPct) bw) → drops 0x10030 Werr.bandwidth) ∧
    ((n = x.msixCount ∨ (s.msixSum ten n ≤ 2048 ∧ s.ringsHeld ten = 0)) →
      takes 0x10008 { x with gateway := bitOf v 0, roundtrip := bitOf v 1, ringMax := min 256 (bits v 16 9), msixCount := n }) ∧
    (n ≠ x.msixCount → 2048 < s.msixSum ten n → drops 0x10008 Werr.msix) ∧
    (n ≠ x.msixCount → s.msixSum ten n ≤ 2048 → 0 < s.ringsHeld ten → drops 0x10008 Werr.msixRing)

/-- I3C_READ of 4 or 8 bytes returns what the access to a register that the bus reaches reads, and zero at any other offset; I3C_WRITE is refused; neither changes anything but what was sent. In READY a 64-bit write of WG_WALL, with no epoch due to close, sets the wall clock to the value as of now and marks it set; a lower value sets WALL_STEPPED_BACK of the open epoch and its event, a step past more than one boundary sets WALL_STEPPED_FWD where epochs are aligned; waggle time, rings, settings and tenants stay. (R414, R357, R61.) -/
def Obligations.SidebandAndWallClock : Prop :=
  ∀ (t off len v : Nat) (s : State), s.power.off = false →
    ((len = 4 ∨ len = 8) → off ∈ [0x0, 0x8, 0xE0000, 0xE0020, 0xE0028, 0x80110, 0x90110, 0xA0110, 0xB0110, 0x70000] →
      exec (.i3cRead t off len) s = .next { s with now := max s.now t, out := .i3cData (toLE len ((s.advance t).readAccess 0 off len)) :: s.out }) ∧
    ((len = 4 ∨ len = 8) → (∀ r ∈ [0x0, 0x8, 0xE0000, 0xE0020, 0xE0028, 0x80110, 0x90110, 0xA0110, 0xB0110, 0x70000], off ≠ r ∧ off ≠ r + 4) →
      exec (.i3cRead t off len) s = .next { s with now := max s.now t, out := .i3cData (toLE len 0) :: s.out }) ∧
    exec (.i3cWrite t off v) s = .next { s with now := max s.now t, out := .i3cRefused :: s.out } ∧
    (s.power.phase = .ready → v < 2 ^ 64 → (s.advance t).closeEpoch = s.advance t →
      let old := (s.advance t).wall
      let back := decide (v < old)
      let fwd := s.meters.align_ && decide (old / max 1 s.meters.spanNs + 1 < v / max 1 s.meters.spanNs)
      exec (.wallClockWrite t 0 0x40020 8 v) s = .next { s with now := max s.now t, waggle := { s.waggle with wallNs := v, wallAt := max s.now t, wallSet := true }, meters := { s.meters with back := s.meters.back || back, fwd := s.meters.fwd || fwd, evBack := s.meters.evBack || back } })

/-- What was sent once bytes went to host memory: all pieces, or the pieces before the one refused and the note that the output is undefined (R418). -/
def writesOut (s : State) (h : HostView) (ten iova : Nat) (b : List Byte) : List Out :=
  if (s.hostWrite h ten iova b).2 then (s.hostWrite h ten iova b).1.out
  else .dmaUndefined ten iova b.length :: (s.hostWrite h ten iova b).1.out

/-- The result of a command whose output is b. -/
def outResult (s : State) (h : HostView) (ten iova : Nat) (b : List Byte) : Err :=
  if (s.hostWrite h ten iova b).2 then (St.ok, 0) else (St.translationFault, 0)

/-- A gateway OP may run on cells: the command has started, no earlier command holds its slot, the cells are free cells of one comb in service, and the comb's sampler is seeded where the OP draws. -/
def MayRun (s : State) (ten lring seq opcode op : Nat) (cells : List Nat) (draws : Bool) (c : Cmd) : Prop :=
  Running s ten lring seq opcode c ∧ c.gwOp = op ∧ s.slotHeld ten c = false ∧ s.gatewayCells cells = true ∧
    (draws = true → (s.comb (combOf (nth0 cells 0))).seeded = true)

/-- The state in which an OP's work begins: its operations, a free number, charged. -/
def gatewayBegun (s : State) (t ten lring seq : Nat) : State :=
  (s.advance t).takeFree.2.chargeOps ten lring seq (s.advance t).takeFree.1

/-- Between s and s', an OP has ended with result e: its command says so, its cells are scrubbed; runs, other rings, other tenants, DRAM, combs, settings and log stay, and of its tenant sessions, key sets, models and key slots. -/
def GatewayEnds (s s' : State) (ten lring seq : Nat) (c : Cmd) (cells : List Nat) (e : Err) : Prop :=
  (∃ n, s'.cmd? ten lring seq = some (ended { c with ops := n } e)) ∧ s'.cells = (s.gatewayScrub cells).cells ∧
    SameBut (ringKey ten lring) s'.rings s.rings ∧ SameBut ten s'.tenants s.tenants ∧ (s'.ten ten).sessions = (s.ten ten).sessions ∧
    (s'.ten ten).keysets = (s.ten ten).keysets ∧ (s'.ten ten).models = (s.ten ten).models ∧ (s'.ten ten).keySlots = (s.ten ten).keySlots ∧
    s'.segs = s.segs ∧ s'.dram.cells = s.dram.cells ∧ s'.combs = s.combs ∧ s'.settings = s.settings ∧ s'.log = s.log

/-- ENCRYPT_PLAINTEXT and ENCODE_AND_ENCRYPT, where they may run, with a valid slot, LIMBS within the slot's table, lengths as the fields say and a readable input (for ENCODE_AND_ENCRYPT one that encodes): the bytes written to IOVA_1 are the encryption of the plaintext limbs (of the transformed encoding) under the slot's secret; the command has ended with ST_OK, or with ST_TRANSLATION_FAULT where a page was refused; the cells are zero, the slot stays. An input that does not encode ends the command with the refusal and writes nothing. (R256, R257, R259, R260, R352, R418.) -/
def Obligations.GatewayEncrypts : Prop :=
  ∀ (t ten lring seq : Nat) (cells : List Nat) (h : HostView) (c : Cmd) (g : GwSlot) (b : List Byte) (s : State), s.power.off = false →
    Tbl.look (s.ten ten).gwSlots c.gwSlot = some g → g.invalid = false → c.limbs ≤ g.modtab.lCount → c.cipherBytes g.modtab.logN ≤ c.len 1 →
    let z := gatewayBegun s t ten lring seq
    (MayRun s ten lring seq 0x20 1 cells true c → c.len 0 = 4 * c.limbs * 2 ^ g.modtab.logN → hostRead h ten (c.iova 0) (c.len 0) = some b →
      let out := (z.encryption c g (limbsOf c.limbs g.modtab.logN b)).1
      ∃ s', exec (.encryptPlaintext t ten lring seq cells h) s = .next s' ∧ s'.out = writesOut s h ten (c.iova 1) out ∧
        (s'.ten ten).gwSlots = (s.ten ten).gwSlots ∧ GatewayEnds s s' ten lring seq c cells (outResult s h ten (c.iova 1) out)) ∧
    (MayRun s ten lring seq 0x20 0 cells true c → c.count ≤ c.countMax g.modtab.logN → c.count * formatBytes c.format ≤ c.len 0 →
      hostRead h ten (c.iova 0) (c.count * formatBytes c.format) = some b →
      (∀ e, (z.encode c g.modtab.logN b).1 = .error e →
        ∃ s', exec (.encodeAndEncrypt t ten lring seq cells h) s = .next s' ∧ s'.out = s.out ∧
          (s'.ten ten).gwSlots = (s.ten ten).gwSlots ∧ GatewayEnds s s' ten lring seq c cells e) ∧
      (∀ p, (z.encode c g.modtab.logN b).1 = .ok p →
        let q := (z.encode c g.modtab.logN b).2.mapLimbs g.modtab (fun _ e l => nttForward e g.modtab.logN g.modtab.logN l) 0 (polyLimbs g.modtab c.limbs p)
        let out := (q.2.encryption c g q.1).1
        ∃ s', exec (.encodeAndEncrypt t ten lring seq cells h) s = .next s' ∧ s'.out = writesOut s h ten (c.iova 1) out ∧
          (s'.ten ten).gwSlots = (s.ten ten).gwSlots ∧ GatewayEnds s s' ten lring seq c cells (outResult s h ten (c.iova 1) out)))

/-- DECRYPT_TO_PLAINTEXT and DECRYPT_AND_DECODE, where they may run, with a valid slot, a ciphertext of the slot's shape that reads, and room for the output: the bytes written to IOVA_1 are the limbs of c0 + c1 s, or the values that their lift decodes to; the command has ended with ST_OK, or with ST_TRANSLATION_FAULT where a page was refused. A ciphertext of another shape ends the command with ST_PARAM_OUT_OF_POLICY. (R256, R257, R261, R352, R418.) -/
def Obligations.GatewayDecrypts : Prop :=
  ∀ (t ten lring seq : Nat) (cells : List Nat) (h : HostView) (c : Cmd) (g : GwSlot) (b : List Byte) (s : State), s.power.off = false →
    Tbl.look (s.ten ten).gwSlots c.gwSlot = some g → g.invalid = false →
    let logN := g.modtab.logN
    let z := gatewayBegun s t ten lring seq
    let d := z.decryptLimbs c g b
    (MayRun s ten lring seq 0x21 1 cells false c → g.modtab.lCount < c.limbs ∨ c.len 0 ≠ c.cipherBytes logN →
      ∃ s', exec (.decryptToPlaintext t ten lring seq cells h) s = .next s' ∧ s'.out = s.out ∧
        (s'.ten ten).gwSlots = (s.ten ten).gwSlots ∧ GatewayEnds s s' ten lring seq c cells (St.outOfPolicy, 0)) ∧
    (c.limbs ≤ g.modtab.lCount → c.len 0 = c.cipherBytes logN → hostRead h ten (c.iova 0) (c.len 0) = some b →
      (MayRun s ten lring seq 0x21 1 cells false c → 4 * c.limbs * 2 ^ logN ≤ c.len 1 →
        ∃ s', exec (.decryptToPlaintext t ten lring seq cells h) s = .next s' ∧ s'.out = writesOut s h ten (c.iova 1) (limbBytes d.1) ∧
          (s'.ten ten).gwSlots = (s.ten ten).gwSlots ∧ GatewayEnds s s' ten lring seq c cells (outResult s h ten (c.iova 1) (limbBytes d.1))) ∧
      (MayRun s ten lring seq 0x21 0 cells false c → c.count ≤ c.countMax logN → c.count * formatBytes c.format ≤ c.len 1 →
        (c.scheme = 0 ∨ c.format ≠ 2 ∨ squarings c.plainT logN c.plainRoot = c.plainT - 1) →
        let x := d.2.mapLimbs g.modtab (fun _ e l => nttInverse e logN logN l) 0 d.1
        let m := x.2.liftLimbs g.modtab c.limbs x.1
        let out := (m.2.decode c g.modtab m.1).1
        ∃ s', exec (.decryptAndDecode t ten lring seq cells h) s = .next s' ∧ s'.out = writesOut s h ten (c.iova 1) out ∧
          (s'.ten ten).gwSlots = (s.ten ten).gwSlots ∧ GatewayEnds s s' ten lring seq c cells (outResult s h ten (c.iova 1) out)))

/-- GENERATE_SECRET_KEY, where it may run, on an empty slot with a readable modulus table that passes its check and room for it (a free size below 64 MiB by the choice of log 55): the slot holds the table and a ternary secret of N coefficients. GENERATE_KEY_SET, with a valid slot, parameters inside the rules, a readable list of rotations and room for the image: the image, its header first, is written to IOVA_1, and the slot keeps its table and secret. ERASE_SLOT of a started command whose slot no earlier one holds: the slot is empty and its memory free, whatever it held. The commands have ended, with ST_OK unless a page was refused. (R256, R257, R258, R119, R31, R418.) -/
def Obligations.GatewayKeys : Prop :=
  ∀ (t ten lring seq obj : Nat) (cells : List Nat) (h : HostView) (c : Cmd) (b : List Byte) (s s1 : State), s.power.off = false →
    let z := gatewayBegun s t ten lring seq
    (∀ tab, MayRun s ten lring seq 0x20 2 cells true c → Tbl.look (s.ten ten).gwSlots c.gwSlot = none → hostRead h ten (c.iova 0) (c.len 0) = some b →
      parseModTable b = .ok tab → tab.check s.settings.ceil (decide (12 ≤ tab.logN)) = none →
      z.takeFree.2.alloc ten .gateway none (z.takeFree.1 % slotBytesMax) = .ok (obj, s1) →
      ∃ s' secret, exec (.generateSecretKey t ten lring seq cells h) s = .next s' ∧ s'.out = s.out ∧
        (s'.ten ten).gwSlots = Tbl.put (s.ten ten).gwSlots c.gwSlot { modtab := tab, secret := secret, lwe := [], obj := obj, invalid := false } ∧
        secret.length = 2 ^ tab.logN ∧ (∀ x ∈ secret, x = -1 ∨ x = 0 ∨ x = 1) ∧ GatewayEnds s s' ten lring seq c cells (St.ok, 0)) ∧
    (∀ g, MayRun s ten lring seq 0x20 3 cells true c → Tbl.look (s.ten ten).gwSlots c.gwSlot = some g → g.invalid = false →
      let k := c.keyHead g.modtab
      dnumOk k.dnum k.tab.lCount = true → (k.boot = true → bootOk k.lweN k.logNb k.bootEll = true ∧ k.lweIdx < k.tab.count ∧ (k.tab.bootIdx k.lweIdx).isSome = true) →
      4 * k.rot ≤ c.len 0 → k.imageBytes ≤ c.len 1 → hostRead h ten (c.iova 0) (4 * k.rot) = some b →
      ∃ s' body lwe, exec (.generateKeySet t ten lring seq cells h) s = .next s' ∧
        s'.out = writesOut s h ten (c.iova 1) (k.front (words 4 b) ++ body) ∧
        (s'.ten ten).gwSlots = Tbl.put (s.ten ten).gwSlots c.gwSlot { g with lwe := lwe } ∧
        GatewayEnds s s' ten lring seq c cells (outResult s h ten (c.iova 1) (k.front (words 4 b) ++ body))) ∧
    (Running s ten lring seq 0x21 c → c.gwOp = 2 → s.slotHeld ten c = false →
      ∃ s', exec (.eraseSlot t ten lring seq) s = .next s' ∧ Tbl.look (s'.ten ten).gwSlots c.gwSlot = none ∧
        SameBut c.gwSlot (s'.ten ten).gwSlots (s.ten ten).gwSlots ∧ SameBut ten s'.tenants s.tenants ∧ SameBut (ringKey ten lring) s'.rings s.rings ∧
        s'.cmd? ten lring seq = some (ended c (St.ok, 0)) ∧ s'.cells = s.cells ∧ s'.dram.cells = s.dram.cells ∧
        (∀ g, Tbl.look (s.ten ten).gwSlots c.gwSlot = some g → s'.dram = (s.freeObj g.obj).dram))

/-- An operation of the public-key engine may run: its command has started with block b, and no earlier operation holds the key slot that the block names (R284). -/
def MayPk (s : State) (ten lring seq op : Nat) (b : List Byte) (c : Cmd) : Prop :=
  Running s ten lring seq 0x30 c ∧ c.block = b ∧ b.length = 128 ∧ pkOp b = op ∧ s.pkSlotHeld ten c = false

/-- Between s and s', an operation of the engine has ended with result e at waggle time t: its command says so. Nothing else has changed but free and random values, what was sent, the security counters, and the tenant's key slots and ephemeral keys. -/
def PkEnds (s s' : State) (t ten lring seq : Nat) (c : Cmd) (e : Err) : Prop :=
  s'.cmd? ten lring seq = some (ended c e) ∧ SameBut (ringKey ten lring) s'.rings s.rings ∧ SameBut ten s'.tenants s.tenants ∧
  s'.ten ten = { s.ten ten with keySlots := (s'.ten ten).keySlots, ephs := (s'.ten ten).ephs } ∧
  s' = { s with now := max s.now t, rings := s'.rings, tenants := s'.tenants, free := s'.free, draws := s'.draws, entropy := s'.entropy, out := s'.out, sec := s'.sec }

/-- An operation has ended having written b to OUT, or with a translation fault; the tenant's keys and the counters stay. -/
def PkWrites (s s' : State) (h : HostView) (t ten lring seq : Nat) (c : Cmd) (b : List Byte) : Prop :=
  PkEnds s s' t ten lring seq c (outResult s h ten (pkOutIova c.block) b) ∧ s'.out = writesOut s h ten (pkOutIova c.block) b ∧
  s'.ten ten = s.ten ten ∧ s'.sec = s.sec

/-- An operation has ended with result e; nothing was written, and the tenant's keys stay. -/
def PkSays (s s' : State) (t ten lring seq : Nat) (c : Cmd) (e : Err) : Prop :=
  PkEnds s s' t ten lring seq c e ∧ s'.out = s.out ∧ s'.ten ten = s.ten ten

/-- A rejected point, counted up to 0xFFFF. -/
def PointRejected (s s' : State) (t ten lring seq : Nat) (c : Cmd) : Prop :=
  PkSays s s' t ten lring seq c (St.pointNotOnCurve, 0) ∧ s'.sec = { s.sec with pointRej := min 0xFFFF (s.sec.pointRej + 1) }

/-- SIGN, with its private key (from the slot or the operand) and message at hand: with Ed25519 the signature of RFC 8032 goes to OUT; with a P curve and a scalar in [1, n - 1] the ECDSA signature of the digest under some nonce in [1, n - 1] goes to OUT (where that nonce gives none, the command runs on for another); with a scalar outside, ST_BAD_FIELD with DETAIL 0x08. VERIFY, with its operands at hand: ST_OK or, counted, ST_SIGNATURE_INVALID as the signature holds or not; a key that is no point is rejected with ST_POINT_NOT_ON_CURVE and counted; an even or small RSA exponent is ST_BAD_FIELD with DETAIL 0x08. VERIFY writes nothing. (R281, R282, R283, R285, R286, R294, R418.) -/
def Obligations.PkSignatures : Prop :=
  ∀ (t ten lring seq : Nat) (h : HostView) (c : Cmd) (b msg : List Byte) (s : State), s.power.off = false →
    operand h ten (pkMsgIova b) (pkMsgLen b) = .ok msg →
    (∀ priv, MayPk s ten lring seq Pk.sign b c → s.privKey h ten b = .ok priv →
      (pkAlg b = 3 → ∃ s', exec (.sign t ten lring seq h) s = .next s' ∧ PkWrites s s' h t ten lring seq c (edSign priv msg)) ∧
      (pkAlg b ≠ 3 → let cv := curve (pkAlg b)
        (cv.scalarOk (beNat priv) = false →
          ∃ s', exec (.sign t ten lring seq h) s = .next s' ∧ PkSays s s' t ten lring seq c (St.badField, 0x08) ∧ s'.sec = s.sec) ∧
        (cv.scalarOk (beNat priv) = true → ∃ s' k, 1 ≤ k ∧ k < cv.n ∧ exec (.sign t ten lring seq h) s = .next s' ∧
          (∀ sig, cv.sign (beNat priv) (cv.digest (pkDigest b msg)) k = some sig → PkWrites s s' h t ten lring seq c sig) ∧
          (cv.sign (beNat priv) (cv.digest (pkDigest b msg)) k = none → Running s' ten lring seq 0x30 c ∧ s'.out = s.out)))) ∧
    (∀ key sig, MayPk s ten lring seq Pk.verify b c → operand h ten (pkKeyIova b) (pkKeyLen b) = .ok key → operand h ten (pkAuxIova b) (pkAuxLen b) = .ok sig →
      ∃ s', exec (.verify t ten lring seq h) s = .next s' ∧
        (verifies b key msg sig = .ok true → PkSays s s' t ten lring seq c (St.ok, 0) ∧ s'.sec = s.sec) ∧
        (verifies b key msg sig = .ok false → PkSays s s' t ten lring seq c (St.signatureInvalid, 0) ∧
          s'.sec = { s.sec with sigFail := min 0xFFFF (s.sec.sigFail + 1) }) ∧
        (verifies b key msg sig = .error (St.pointNotOnCurve, 0) → PointRejected s s' t ten lring seq c) ∧
        (verifies b key msg sig = .error (St.badField, 0x08) → PkSays s s' t ten lring seq c (St.badField, 0x08) ∧ s'.sec = s.sec))

/-- KEYGEN makes a fresh private key, on a P curve a scalar in [1, n - 1]: with TO_SLOT and the slot empty, the public key goes to OUT and the slot holds the private key (where OUT is refused, no key is made); without TO_SLOT both go to OUT and the slots stay. On an occupied slot KEYGEN with TO_SLOT and IMPORT end with ST_BAD_FIELD and DETAIL 0x03, and change nothing. IMPORT of a readable key, on a P curve one in range, stores it. ERASE leaves the slot empty. PUBLIC writes the slot's public key. DERIVE with X25519: a peer that is no point of the curve, or an all-zero secret, is rejected and counted, and any other secret goes to OUT; with a P curve, likewise for a peer that fails its checks, and else the secret is the X coordinate of the product where there is one. (R281, R282, R283, R284, R285, R287, R418.) -/
def Obligations.PkKeySlots : Prop :=
  ∀ (t ten lring seq : Nat) (h : HostView) (c : Cmd) (b : List Byte) (s : State), s.power.off = false →
    let key := fun priv : List Byte => ({ curve := curveOf (pkAlg b), priv := priv, invalid := false } : KeySlot)
    (MayPk s ten lring seq Pk.keygen b c →
      (pkToSlot b = true → s.slotTaken ten b = true → ∃ s', exec (.keygen t ten lring seq h) s = .next s' ∧ PkSays s s' t ten lring seq c (St.badField, 0x03)) ∧
      ((pkToSlot b = true → s.slotTaken ten b = false) → ∃ s' priv, exec (.keygen t ten lring seq h) s = .next s' ∧
        (isP (pkAlg b) = true → (curve (pkAlg b)).scalarOk (beNat priv) = true) ∧
        let pub := publicOf (curveOf (pkAlg b)) priv
        (pkToSlot b = false → PkWrites s s' h t ten lring seq c (pub ++ priv)) ∧
        (pkToSlot b = true → PkEnds s s' t ten lring seq c (outResult s h ten (pkOutIova b) pub) ∧ s'.out = writesOut s h ten (pkOutIova b) pub ∧
          s'.ten ten = if (s.hostWrite h ten (pkOutIova b) pub).2 then { s.ten ten with keySlots := Tbl.put (s.ten ten).keySlots (pkSlot b) (key priv) } else s.ten ten))) ∧
    (MayPk s ten lring seq Pk.import_ b c →
      (s.slotTaken ten b = true → ∃ s', exec (.importKey t ten lring seq h) s = .next s' ∧ PkSays s s' t ten lring seq c (St.badField, 0x03)) ∧
      (∀ priv, s.slotTaken ten b = false → operand h ten (pkKeyIova b) (pkKeyLen b) = .ok priv → ∃ s', exec (.importKey t ten lring seq h) s = .next s' ∧
        let bad := isP (pkAlg b) = true ∧ (curve (pkAlg b)).scalarOk (beNat priv) = false
        (bad → PkSays s s' t ten lring seq c (St.badField, 0x08)) ∧
        (¬ bad → PkEnds s s' t ten lring seq c (St.ok, 0) ∧ s'.out = s.out ∧
          s'.ten ten = { s.ten ten with keySlots := Tbl.put (s.ten ten).keySlots (pkSlot b) (key priv) }))) ∧
    (MayPk s ten lring seq Pk.erase b c → ∃ s', exec (.erase t ten lring seq) s = .next s' ∧ PkEnds s s' t ten lring seq c (St.ok, 0) ∧ s'.out = s.out ∧
      s'.ten ten = { s.ten ten with keySlots := (s'.ten ten).keySlots } ∧ Tbl.look (s'.ten ten).keySlots (pkSlot b) = none ∧
      SameBut (pkSlot b) (s'.ten ten).keySlots (s.ten ten).keySlots) ∧
    (MayPk s ten lring seq Pk.public_ b c → ∃ s', exec (.publicKey t ten lring seq h) s = .next s' ∧
      (Tbl.look (s.ten ten).keySlots (pkSlot b) = none → PkSays s s' t ten lring seq c (St.badField, 0x03)) ∧
      (∀ k, Tbl.look (s.ten ten).keySlots (pkSlot b) = some k → k.invalid = false → pubLen k.curve ≤ pkOutLen b →
        PkWrites s s' h t ten lring seq c (publicOf k.curve k.priv))) ∧
    (∀ priv peer, MayPk s ten lring seq Pk.derive b c → s.privKey h ten b = .ok priv → operand h ten (pkAuxIova b) (pkAuxLen b) = .ok peer →
      ∃ s', exec (.derive t ten lring seq h) s = .next s' ∧
        (pkAlg b = 6 → (x25519Peer peer = none → PointRejected s s' t ten lring seq c) ∧
          (∀ u, x25519Peer peer = some u → let z := x25519 (clamp priv) u
            (z.all (· == 0#8) = true → PointRejected s s' t ten lring seq c) ∧ (z.all (· == 0#8) = false → PkWrites s s' h t ten lring seq c z))) ∧
        (pkAlg b ≠ 6 → let cv := curve (pkAlg b)
          (cv.decode peer = none → PointRejected s s' t ten lring seq c) ∧
          (∀ p, cv.decode peer = some p → (cv.mul (beNat priv) (some p)).isSome = true → PkWrites s s' h t ten lring seq c (cv.ecdh (beNat priv) p))))

/-- QUOTE draws an ephemeral P-384 key in [1, n - 1] and an EPH_ID, and writes to OUT 4,096 bytes: the 0x280 bytes of R272 over the nonce, the measurements, the tenant context, the public key and the expiry, then both identity signatures over them, then zeros; the tenant then holds that key, salted with the SHA-384 of the head, until LIFETIME has passed; where OUT is refused no key is made. EPH_RELEASE ends the keys of the issuing tenant that bear the EPH_ID and no others. GET_CERT writes the certificate that PARAM names. (R271, R272, R273, R274, R275, R418.) -/
def Obligations.QuotesAndCertificates : Prop :=
  ∀ (t ten lring seq : Nat) (h : HostView) (c : Cmd) (b : List Byte) (s : State), s.power.off = false →
    (MayPk s ten lring seq Pk.quote b c → ∃ s' d id n m, exec (.quote t ten lring seq h) s = .next s' ∧ 1 ≤ d ∧ d < p384.n ∧
      let expires := max s.now t + quoteLife b
      let head := (s.advance t).quoteHead ten (b.drop 0x40) (p384.xyBytes (p384.mul d p384.g)) (toLE 8 id) expires
      let out := head ++ slice (Config.identityEcdsa head n) 0 96 ++ slice (Config.identityMldsa head m) 0 3309 ++ zeros 51
      PkEnds s s' t ten lring seq c (outResult s h ten (pkOutIova b) out) ∧ s'.out = writesOut s h ten (pkOutIova b) out ∧ s'.sec = s.sec ∧
      s'.ten ten = if (s.hostWrite h ten (pkOutIova b) out).2 then
          { s.ten ten with ephs := (s.ten ten).ephs ++ [{ id := leNat (toLE 8 id), priv := d, salt := sha384 head, expires := expires }] } else s.ten ten) ∧
    (MayPk s ten lring seq Pk.ephRelease b c → ∃ s', exec (.ephRelease t ten lring seq) s = .next s' ∧ PkEnds s s' t ten lring seq c (St.ok, 0) ∧
      s'.out = s.out ∧ s'.sec = s.sec ∧ (s'.ten ten).keySlots = (s.ten ten).keySlots ∧
      ∀ k, k ∈ (s'.ten ten).ephs ↔ k ∈ (s.ten ten).ephs ∧ k.id ≠ fld b 0x38 8) ∧
    (MayPk s ten lring seq Pk.getCert b c → ∃ s', exec (.getCert t ten lring seq h) s = .next s' ∧
      PkWrites s s' h t ten lring seq c (Config.certificate (byteAt b 0x38)))

/-- Between s and s', a command has ended at waggle time t having written b to host memory at an IOVA, with result e, or with a translation fault where a page was refused: nothing else has changed but its ring's entry for it. -/
def EndsWriting (s s' : State) (h : HostView) (t ten lring seq : Nat) (c : Cmd) (iova : Nat) (b : List Byte) (e : Err) : Prop :=
  s'.cmd? ten lring seq = some (ended c (if (s.hostWrite h ten iova b).2 then e else (St.translationFault, 0))) ∧
  s'.out = writesOut s h ten iova b ∧ SameBut (ringKey ten lring) s'.rings s.rings ∧
  s' = { s with now := max s.now t, rings := s'.rings, out := s'.out }

/-- A command has ended with result e and no other change. -/
def EndsSaying (s s' : State) (t ten lring seq : Nat) (c : Cmd) (e : Err) : Prop :=
  s'.cmd? ten lring seq = some (ended c e) ∧ OnlyRing s s' t ten lring

/-- METER_SNAPSHOT of a started OP 0 writes EPOCH, waggle time, the wall clock and the tenant's six meters to IOVA[0] and ends with ST_OK. METER_TAKE of a started OP 1, no other take being between its write and its completion: with no record held it writes nothing and ends with DETAIL 0xFFFF; where the oldest record is signed and fits it writes its bytes and signatures and ends with DETAIL the number of records after it; where it does not fit it ends with ST_BAD_FIELD and DETAIL 0x40; where it is not yet signed, nothing happens. No meter and no record changes. A refused page is a translation fault. (R360, R361, R362, R363, R418.) -/
def Obligations.MeterReads : Prop :=
  ∀ (t ten lring seq : Nat) (h : HostView) (c : Cmd) (s : State), s.power.off = false → Running s ten lring seq 0x40 c →
    (c.meterOp = 0 → ∃ s', exec (.meterSnapshot t ten lring seq h) s = .next s' ∧
      EndsWriting s s' h t ten lring seq c (c.iova 0)
        (toLE 8 s.meters.epoch ++ toLE 8 (max s.now t) ++ toLE 8 (s.advance t).wall ++ (List.range 6).flatMap fun k => toLE 8 (nth0 (s.ten ten).meters k)) (St.ok, 0)) ∧
    (c.meterOp = 1 → s.takePending = false → ∃ s', exec (.meterTake t ten lring seq h) s = .next s' ∧
      (s.meters.held = [] → EndsSaying s s' t ten lring seq c (St.ok, 0xFFFF)) ∧
      (∀ r rest, s.meters.held = r :: rest →
        (r.sigs = none → OnlyTime s s' t) ∧
        (∀ sigs, r.sigs = some sigs → c.len 0 < r.size → EndsSaying s s' t ten lring seq c (St.badField, 0x40)) ∧
        (∀ sigs, r.sigs = some sigs → r.size ≤ c.len 0 →
          EndsWriting s s' h t ten lring seq c (c.iova 0) (r.body ++ sigs) (St.ok, rest.length))))

/-- EPOCH_CLOSE: before the epoch is due nothing changes. Due means, with the epoch not aligned, that LEN_S seconds of waggle time have passed since it opened, and aligned, that the wall clock has reached a boundary later than the last one closed. With 1,024 records held the close waits, and is marked HELD_OVER. Else one unsigned record joins the held ones, 128 bytes and 64 for every tenant that has a non-zero or stuck meter; every tenant's meters are zero and unstuck, its objects as before; EPOCH has gone up by one, the new epoch opens now under the LEN_S and ALIGN of the settings, and an aligned close notes the latest boundary passed. METER_RECORD_SIGN, once ID_READY is set, the DRBG can serve and a record is unsigned: the oldest unsigned record, and no other, is signed; no record's bytes change. (R355, R356, R359, R360, R361.) -/
def Obligations.EpochsClose : Prop :=
  ∀ (t : Nat) (s : State), s.power.off = false →
    let z := s.advance t
    (z.epochDue = true ↔ if z.aligned then s.meters.lastBoundary < z.boundary else s.meters.openWaggle + s.meters.lenS * sec ≤ max s.now t) ∧
    (∃ s', exec (.epochClose t) s = .next s' ∧
      (z.epochDue = false → OnlyTime s s' t) ∧
      (z.epochDue = true → 1024 ≤ s.meters.held.length → s' = { s with now := max s.now t, meters := { s.meters with heldOver := true, evFull := true } }) ∧
      (z.epochDue = true → s.meters.held.length < 1024 →
        s' = { s with now := max s.now t, tenants := s'.tenants, meters := s'.meters } ∧
        s'.meters.held = s.meters.held ++ [{ body := z.recordBody, sigs := none }] ∧ z.recordBody.length = 128 + 64 * z.metered.length ∧
        s'.tenants = s.tenants.map (fun p => (p.1, { p.2 with meters := [0, 0, 0, 0, 0, 0], stuck := [] })) ∧
        s'.meters.epoch = s.meters.epoch + 1 ∧ s'.meters.openWaggle = max s.now t ∧ s'.meters.lenS = s.settings.lenS ∧ s'.meters.align_ = s.settings.align_ ∧
        s'.meters.lastBoundary = (if z.aligned then z.boundary else s.meters.lastBoundary) ∧
        s'.meters.back = false ∧ s'.meters.fwd = false ∧ s'.meters.cold = false ∧ s'.meters.heldOver = false)) ∧
    (∀ l r rest, s.meters.held = l ++ r :: rest → (∀ x ∈ l, x.sigs.isSome = true) → r.sigs = none → s.sec.idReady = true → s.canServe = true →
      ∃ s' a m, exec (.meterRecordSign t) s = .next s' ∧
        s'.meters = { s.meters with held := l ++ { r with sigs := some (slice (Config.identityEcdsa r.body a) 0 96 ++ slice (Config.identityMldsa r.body m) 0 3309) } :: rest } ∧
        s' = { s with now := max s.now t, draws := s'.draws, entropy := s'.entropy, meters := s'.meters })

/-- METER_MS_TICK, over tenants with six meters each: for every whole millisecond of waggle time since the last tick, each tenant's meter 2 gains the mebibytes it uses, rounded up, and its meter 3 its active sessions; a meter that would pass 2^64 - 1 stays there and its tenant's STUCK bit is set, as is the event. Other meters and everything else stay. (R352, R354.) -/
def Obligations.MillisecondMeters : Prop :=
  ∀ (t : Nat) (s : State), s.power.off = false → Tbl.wf s.tenants = true → (∀ p ∈ s.tenants, p.2.meters.length = 6) →
    let n := max s.now t / msec - s.meters.lastMs
    ∃ s', exec (.meterMsTick t) s = .next s' ∧ s' = { s with now := max s.now t, tenants := s'.tenants, meters := s'.meters } ∧
      s'.meters = { s.meters with lastMs := max s.now t / msec, evStuck := s'.meters.evStuck } ∧
      (∀ ten, Tbl.look s.tenants ten = none → s'.ten ten = s.ten ten) ∧
      (∀ ten x, Tbl.look s.tenants ten = some x →
        let a := nth0 x.meters 2 + n * ceilDiv (s.dram.usedBytes ten) (2 ^ 20)
        let b := nth0 x.meters 3 + n * x.activeCount
        let y := s'.ten ten
        y = { x with meters := y.meters, stuck := y.stuck } ∧
        y.meters = (x.meters.set 2 (min (2 ^ 64 - 1) a)).set 3 (min (2 ^ 64 - 1) b) ∧
        (∀ k, k ∈ y.stuck ↔ k ∈ x.stuck ∨ (k = 2 ∧ 2 ^ 64 - 1 < a) ∨ (k = 3 ∧ 2 ^ 64 - 1 < b)) ∧
        ((2 ^ 64 - 1 < a ∨ 2 ^ 64 - 1 < b) → s'.meters.evStuck = true))

/-- The control instructions: each with the instructions it stands for, its effect at a waggle time on a cell that has stepped, and its posts there (R172 to R181). -/
def controlRows (t cell : Nat) : List (Instr × (Ins → Bool) × (Nat → Ins → Cell → Cell) × (Ins → Cell → List (Nat × Nat))) :=
  [(.wait t cell, (fun i => i.op == Op.wait), (fun _ _ c => c), fun i _ => pePosts i),
   (.post t cell, (fun i => i.op == Op.post), (fun _ _ c => c), fun i _ => [(i.pq, i.field 208 6)]),
   (.jump t cell, (fun i => i.op == Op.jump), (fun _ i c => { c with pc := i.field 192 11 }), fun i _ => pePosts i),
   (.loop t cell, (fun i => i.op == Op.loop),
     (fun _ i c => { c with loops := { start := c.pc, k := i.field 208 6, n := i.field 192 16, pass := 0 } :: c.loops }), fun i _ => pePosts i),
   (.handoff t cell, (fun i => i.op == Op.handoff), (fun _ i c => { c with active := 1 - c.active, pc := i.field 203 11, loops := [] }), fun i _ => pePosts i),
   (.halt t cell, (fun i => i.op == Op.halt), (fun _ _ c => { c with halted := true }), fun i _ => pePosts i),
   (.setmod t cell, (fun i => i.op == Op.setmod), (fun _ i c => { c with selBase := i.field 208 6, selStep := i.field 202 6, selLevel := i.field 200 2 }),
     fun i _ => pePosts i),
   (.setadv t cell, (fun i => i.op == Op.setadv), (fun _ i c => { c with adv := Tbl.put c.adv (i.field 210 4) (signed 16 (i.field 192 16), i.field 208 2) }),
     fun i _ => pePosts i),
   (.timerLoad t cell, (fun i => i.op == Op.timer && i.timerForm == (false, false)),
     (fun n i c => { c with timers := Tbl.put c.timers (i.field 212 1) (n + bits (i.opRaw 0) 0 32, i.field 205 6) }), fun i _ => pePosts i),
   (.timerStop t cell, (fun i => i.op == Op.timer && i.timerForm == (false, true)),
     (fun _ i c => { c with timers := Tbl.del c.timers (i.field 212 1) }), fun i _ => pePosts i),
   (.latchArm t cell, (fun i => i.op == Op.timer && i.timerForm == (true, false)),
     (fun _ i c => { c with latches := Tbl.put c.latches (i.field 212 1) { queue := some (i.field 205 6), pending := false } }),
     fun i c => (if (c.latch (i.field 212 1)).pending then [(i.field 205 6, 1)] else []) ++ pePosts i),
   (.latchDisarm t cell, (fun i => i.op == Op.timer && i.timerForm == (true, true)),
     (fun _ i c => { c with latches := Tbl.put c.latches (i.field 212 1) { c.latch (i.field 212 1) with queue := none } }), fun i _ => pePosts i)]

/-- For each of WAIT, POST, JUMP, LOOP, HANDOFF, HALT, SETMOD, SETADV and the four forms of TIMER at the issue point of a cell that may issue: the tokens it waits for are gone, issue has moved on, the cell has the effect of the instruction, and its posts are in their queues: COUNT to PQ for POST, one to PQ for the others where PE is set, and one for a pending edge to a latch being armed. Nothing else changes but the progress of the run. Where a post would take a queue past 63 tokens, the run fails with ST_TOKEN_OVERFLOW. Where the waits are not met, nothing happens. (R155, R165, R167, R172, R173, R174, R175, R176, R177, R179, R180, R181.) -/
def Obligations.ControlInstructions : Prop :=
  ∀ (t cell : Nat) (g : SegRun) (c : Cell) (raw : InsWord) (s : State), s.power.off = false → ∀ row ∈ controlRows t cell, row.2.1 (ins raw) = true →
    (MayIssue s cell g c raw →
      let d := stepped c (ins raw)
      let posts := row.2.2.2 (ins raw) d
      (∀ e, postAll (row.2.2.1 (max s.now t) (ins raw) d) posts = some e → ∃ s', exec row.1 s = .next s' ∧ CellBecomes s s' t cell g.id e) ∧
      (postAll (row.2.2.1 (max s.now t) (ins raw) d) posts = none → ∃ s', exec row.1 s = .next s' ∧ RunFails s' g.id (St.tokenOverflow, cell))) ∧
    (s.cell cell = c → c.current = some raw → c.waitsMet (ins raw) = false → ∃ s', exec row.1 s = .next s' ∧ OnlyTime s s' t)

/-- A cell after an edge of a series: a token for an armed latch, else the pending flag (R160). -/
def edgeCell (series : Nat) (c : Cell) : Cell :=
  match (c.latch series).queue with
  | some q => { c with tokens := Tbl.putZ c.tokens q (c.tokenCount q + 1) }
  | none => { c with latches := Tbl.put c.latches series { c.latch series with pending := true } }

/-- Two lists of runs that differ in progress at most. -/
def SameRuns (a b : List SegRun) : Prop := a.map (fun g => { g with progress := 0 }) = b.map fun g => { g with progress := 0 }

/-- WIN with CLOSE clear on a cell that may issue: its window is open with the fields of the instruction; where it was open with admitted writes under way, their close is noted without a post; then PE posts. WIN with CLOSE set: the window is closed; where no admitted write is under way PE posts at once, and else the close, with its post, waits for them. Nothing else changes but the progress of the run. (R150, R153, R167, R185.) -/
def Obligations.WindowsOpenAndClose : Prop :=
  ∀ (t cell : Nat) (g : SegRun) (c e : Cell) (raw : InsWord) (s : State), s.power.off = false → MayIssue s cell g c raw → (ins raw).op = Op.win →
    let i := ins raw
    let d := stepped c i
    let waits := if (Tbl.look d.windows i.window).isSome then (State.admittedTo { s with cells := Tbl.put s.cells cell d } cell i.window) else []
    let shut := { d with windows := Tbl.del d.windows i.window }
    (i.winClose = false →
      let d1 := { shut with windows := Tbl.put shut.windows i.window i.windowFields,
                            closing := if waits = [] then d.closing else d.closing ++ [{ window := i.window, post := none, waits := waits }] }
      postAll d1 (pePosts i) = some e → ∃ s', exec (.winOpen t cell) s = .next s' ∧ CellBecomes s s' t cell g.id e) ∧
    (i.winClose = true →
      (waits = [] → postAll shut (pePosts i) = some e → ∃ s', exec (.winClose t cell) s = .next s' ∧ CellBecomes s s' t cell g.id e) ∧
      (waits ≠ [] → ∃ s', exec (.winClose t cell) s = .next s' ∧
        CellBecomes s s' t cell g.id { shut with closing := d.closing ++ [{ window := i.window, post := i.post, waits := waits }] }))

/-- TIMER_EXPIRE: a timer whose count has not run out goes on; one that has, on a cell whose run goes on and whose queue has room, is stopped and has posted one token. WAGGLE_STEP_EDGE: before the next multiple of the series' step nothing happens; then the series has one edge more and every cell that runs a segment, none of their queues being full, has a token for an armed latch or a pending flag; other cells stay. SEGMENT_WATCHDOG: a run that is not due goes on; one that made no progress for its period, with no timer running, fails with ST_SEGMENT_TIMEOUT, its DETAIL the lowest cell stalled at a wait where there is one. (That DETAIL is a free value where none is stalled is the model's choice, log entry 33.) (R64, R65, R159, R160, R190.) -/
def Obligations.TimersEdgesAndWatchdog : Prop :=
  ∀ (t : Nat) (s : State), s.power.off = false →
    (∀ cell timer at_ q, Tbl.look (s.cell cell).timers timer = some (at_, q) → ∃ s', exec (.timerExpire t cell timer) s = .next s' ∧
      (max s.now t < at_ → OnlyTime s s' t) ∧
      (∀ g, at_ ≤ max s.now t → s.cellRun cell = some g → g.fail = none → g.phase ≠ .drained → (s.cell cell).tokenCount q < 63 →
        CellBecomes s s' t cell g.id { s.cell cell with timers := Tbl.del (s.cell cell).timers timer,
                                                        tokens := Tbl.putZ (s.cell cell).tokens q ((s.cell cell).tokenCount q + 1) })) ∧
    (∀ series, series < 2 → let k := s.waggle.edges series + 1
      ∃ s', exec (.waggleStepEdge t series) s = .next s' ∧
        (max s.now t < k * s.stepLen series → OnlyTime s s' t) ∧
        (k * s.stepLen series ≤ max s.now t → s.runningCells.Nodup →
          (∀ c ∈ s.runningCells, ∃ g, s.cellRun c = some g ∧ g.fail = none ∧ g.phase ≠ .drained ∧ ∀ q, ((s.cell c).latch series).queue = some q → (s.cell c).tokenCount q < 63) →
          s' = { s with now := max s.now t, waggle := s.waggle.setEdges series k, cells := s'.cells, segs := s'.segs } ∧ SameRuns s'.segs s.segs ∧
          ∀ c, s'.cell c = if c ∈ s.runningCells then edgeCell series (s.cell c) else s.cell c)) ∧
    (∀ seg g, s.seg? seg = some g → ∃ s', exec (.segmentWatchdog t seg) s = .next s' ∧
      ((s.advance t).watchdogDue g = false → OnlyTime s s' t) ∧
      ((s.advance t).watchdogDue g = true → g.phase = .running ∧ ∃ n, RunFails s' seg (St.segmentTimeout, n) ∧
        ∀ c, (g.cells.filter fun c => (s.cell c).stalled).min? = some c → n = c))

/-- The arithmetic instructions (R168). -/
def arithRows (t cell : Nat) : List (Instr × Nat) :=
  [(.mact t cell, Op.mact), (.macv t cell, Op.macv), (.nttf t cell, Op.nttf), (.ntti t cell, Op.ntti), (.tadd t cell, Op.tadd),
   (.tsub t cell, Op.tsub), (.tmul t cell, Op.tmul), (.tmulc t cell, Op.tmulc), (.tperm t cell, Op.tperm), (.tdec t cell, Op.tdec),
   (.tresc t cell, Op.tresc), (.tred t cell, Op.tred), (.skim t cell, Op.skim), (.noise t cell, Op.noise)]

/-- After a command at waggle time t, an instruction is under way: its cell has stepped, its accumulator bindings are b, and flight f, under the next number, is the last in the cell. The combs are cs; nothing else has changed but free values and the progress of the run. -/
def Launched (s s' : State) (t cell run : Nat) (c : Cell) (raw : InsWord) (b : Tbl (Nat × Bool)) (f : Flight) (cs : Tbl Comb) : Prop :=
  let d := stepped c (ins raw)
  s' = { s with now := max s.now t, free := s'.free, nextId := s.nextId + 1, combs := cs,
                cells := Tbl.put s.cells cell { d with bound := b, flights := d.flights ++ [{ f with id := s.nextId }] },
                segs := s.segs.map fun g => if g.id = run then { g with progress := max s.now t } else g }

/-- The instruction is under way, or checked mode has found an unfenced access and failed the run (R187). -/
def LaunchedOrUnfenced (s s' : State) (t cell : Nat) (g : SegRun) (c : Cell) (raw : InsWord) (b : Tbl (Nat × Bool)) (f : Flight) (cs : Tbl Comb) : Prop :=
  Launched s s' t cell g.id c raw b f cs ∨
    ((ins raw).chk = true ∧ (s.runDef g).any (·.checked) = true ∧ ∃ k, RunFails s' g.id (St.unfencedRead, k))

/-- For each of the 14 arithmetic opcodes at the issue point of a cell that may issue: where an extent or a group lies outside, a modulus index is not in the window, TRESC drops its own modulus, or an accumulator was bound otherwise, the run fails with the status that says so; else the cell has stepped and the instruction is under way with its effective addresses, modulus index, the words it reads and writes, and for TMULC its literal constants; MACT and MACV with ZERO bind their accumulator. With CHK set in a checked segment an unfenced access fails the run instead. No word of any scratchpad changes, and nothing else does but the progress of the run. (R165, R169, R171, R179, R187, R191, R196, R207, R212.) -/
def Obligations.ArithmeticIssues : Prop :=
  ∀ (t cell : Nat) (g : SegRun) (c : Cell) (raw : InsWord) (s : State), s.power.off = false → MayIssue s cell g c raw →
    ∀ row ∈ arithRows t cell, (ins raw).op = row.2 →
      let i := ins raw
      let eas := c.eas i
      (∀ e, arithFault (s.modWin g) g c i = some e → ∃ s', exec row.1 s = .next s' ∧ RunFails s' g.id e) ∧
      (arithFault (s.modWin g) g c i = none → ∃ s' consts, exec row.1 s = .next s' ∧
        LaunchedOrUnfenced s s' t cell g c raw
          (if (i.op = Op.mact ∨ i.op = Op.macv) ∧ i.zero = true then Tbl.put c.bound i.tile (c.modIndex i, i.colmod) else c.bound)
          { newFlight raw eas (i.readSet g.cells cell eas) (i.writeSet g.cells cell eas) false (!i.remoteSource) with
            modIdx := c.modIndex i, consts := consts } s.combs ∧
        (i.op = Op.tmulc → i.cind = false → consts = [bits (i.opRaw 1) 0 32, bits (i.opRaw 1) 32 32]))

/-- MOVE at the issue point of a cell that may issue. Direct: with a group or an extent outside the run fails with ST_STENCIL_BOUNDS; else it is under way with the words it reads and writes, marked remote where its destination is, and ready unless its source is remote. Bank load: into the active bank the run fails with ST_BAD_FIELD and DETAIL 1; else it is under way. Stencil: slices outside a stencil fail with ST_STENCIL_BOUNDS, a regenerated stream out of its order with ST_BAD_FIELD, and host words that cannot be read with what says so; else it is under way with the scratchpad words of its slices. With CHK set in a checked segment an unfenced access fails the run instead. Nothing else changes but the progress of the run and, for a stencil, the shelves of the run's comb. (That slices outside a stencil fail with ST_STENCIL_BOUNDS is the model's reading, log entry 35.) (R145, R146, R165, R169, R171, R182, R184, R187, R191, R218.) -/
def Obligations.MovesIssue : Prop :=
  ∀ (t cell : Nat) (g : SegRun) (c : Cell) (raw : InsWord) (h : HostView) (s : State), s.power.off = false → MayIssue s cell g c raw → (ins raw).op = Op.move →
    let i := ins raw
    let eas := c.eas i
    (i.moveForm = 0 →
      (i.groupsInside g.cells.length = false ∨ i.runsInside eas = false → ∃ s', exec (.moveDirect t cell) s = .next s' ∧ RunFails s' g.id (St.stencilBounds, 0)) ∧
      (i.groupsInside g.cells.length = true → i.runsInside eas = true → ∃ s', exec (.moveDirect t cell) s = .next s' ∧
        LaunchedOrUnfenced s s' t cell g c raw c.bound
          (newFlight raw eas (i.readSet g.cells cell eas) (i.writeSet g.cells cell eas) (i.opnd 1).remote (!i.remoteSource)) s.combs)) ∧
    (i.moveForm = 2 →
      (bits (i.opRaw 2) 8 1 = c.active → ∃ s', exec (.moveBankLoad t cell) s = .next s' ∧ RunFails s' g.id (St.badField, 1)) ∧
      (bits (i.opRaw 2) 8 1 ≠ c.active → ∃ s', exec (.moveBankLoad t cell) s = .next s' ∧
        Launched s s' t cell g.id c raw c.bound (newFlight raw [] [] [] false true) s.combs)) ∧
    (i.moveForm = 1 → ∀ d src dst, s.runDef g = some d → d.stencils[i.srcStencil]? = some src → d.stencils[i.dstStencil]? = some dst →
      let n := (i.opnd 0).len
      let a := eas.getD 0 0
      let b := eas.getD 1 0
      let fits := src.slicesInside a n = true ∧ dst.slicesInside b n = true
      let z := { s with now := max s.now t, cells := Tbl.put s.cells cell (stepped c i) }
      (¬ fits → ∃ s', exec (.moveStencil t cell h) s = .next s' ∧ RunFails s' g.id (St.stencilBounds, 0)) ∧
      (fits → s.regenOk g src a.toNat n = false → ∃ s', exec (.moveStencil t cell h) s = .next s' ∧ RunFails s' g.id (St.badField, 1)) ∧
      (∀ e, fits → s.regenOk g src a.toNat n = true → s.hostWordsOf h g src a.toNat n = .error e →
        ∃ s', exec (.moveStencil t cell h) s = .next s' ∧ RunFails s' g.id e) ∧
      (∀ hw, fits → s.regenOk g src a.toNat n = true → s.hostWordsOf h g src a.toNat n = .ok hw →
        ∃ s', exec (.moveStencil t cell h) s = .next s' ∧
          LaunchedOrUnfenced s s' t cell g c raw c.bound
            { newFlight raw eas (if src.inPad then (s.padRun g cell src a.toNat n).filterMap id else [])
                (if dst.inPad then (s.padRun g cell dst b.toNat n).filterMap id else []) (dst.space == 1) (src.space != 1 || n == 0) with hostWords := hw }
            (if n = 0 then s.combs else (z.useKey g src).combs)))

/-- A run goes on. -/
def Live (g : SegRun) : Prop := g.phase = .running ∧ g.fail = none

/-- Where the token of a MOVE without words goes: PQ of the cell that OP1 names; of the cell of its destination stencil, or its own where that is not in a scratchpad; or, to a peer segment, the queue of the window that admits the stencil's BASE (R157, R158, R183). -/
def TokenGoesTo (z : State) (g : SegRun) (cell : Nat) (i : Ins) (k q : Nat) : Prop :=
  (i.moveForm = 0 ∧ k = holderOf g.cells cell (i.opnd 1) ∧ q = i.pq) ∨
  (i.moveForm ≠ 0 ∧ ∃ dst, z.moveDst g i = some dst ∧
    ((¬ (dst.space = 1 ∧ dst.peerSeg ≠ 0) ∧ k = (if dst.inPad then z.stencilCell g cell dst else cell) ∧ q = i.pq) ∨
     (dst.space = 1 ∧ dst.peerSeg ≠ 0 ∧ k = z.stencilCell g cell dst ∧ ∃ w, z.windowFor g cell k dst.base dst.base = some w ∧ q = w.2.queue)))

/-- The words a stencil MOVE moves: those of its slices in a scratchpad, a PAD word being zero; host words as read at issue; or words of DRAM. -/
def movedWords (s : State) (cell : Nat) (g : SegRun) (f : Flight) (src : Stencil) (n : Nat) : Except Err (List Nat) :=
  if src.inPad then .ok ((s.padRun g cell src (f.eas.getD 0 0).toNat n).map fun w => w.elim 0 fun w => s.word w.1 w.2)
  else match f.hostWords with
    | some ws => .ok ws
    | none => s.readSlices [] g src (f.eas.getD 0 0).toNat n

/-- REMOTE_READ of a MOVE whose turn it is makes its source ready. REMOTE_WRITE_ARRIVE of a ready remote write whose turn it is: with no window of the owner that admits its extent it is dropped and its run fails with ST_WINDOW_VIOLATION, and no word changes; else it is marked as admitted by the lowest such window, unless the owner's checked mode finds an unfenced access. TOKEN_MOVE_ARRIVE of a MOVE without words whose turn it is, where the runs it posts to go on and their queues have room: it has left its engine, with PE one token more stands in the queue it goes to, and with SRC_PE one more in SRC_Q; no word changes. Where no window of the peer admits it, the run fails with ST_WINDOW_VIOLATION. (R145, R151, R152, R157, R158, R166, R183, R187.) -/
def Obligations.RemoteTraffic : Prop :=
  ∀ (t cell id : Nat) (f : Flight) (g : SegRun) (s : State), s.power.off = false → UnderWay s cell id f g →
    (f.ready = false → ∃ s', exec (.remoteRead t cell id) s = .next s' ∧ OnlyCell s s' t cell ∧
      s'.cell cell = { s.cell cell with flights := (s.cell cell).flights.map fun x => if x.id = id then { x with ready := true } else x }) ∧
    (f.ready = true → f.remote = true → f.arrived = false → f.writes ≠ [] →
      let owner := (f.writes.head?).elim cell (·.1)
      let e := extentOf f.writes
      (s.windowFor g cell owner e.1 e.2 = none → Live g → ∃ s', exec (.remoteWriteArrive t cell id) s = .next s' ∧ RunFails s' g.id (St.windowViolation, cell) ∧
        Leaves s' cell id ∧ s'.dram = s.dram ∧ ∀ k a, s'.word k a = s.word k a) ∧
      (∀ w, s.windowFor g cell owner e.1 e.2 = some w →
        let marked := { s.cell cell with flights := (s.cell cell).flights.map fun x => if x.id = id then { x with arrived := true, win := some (w.1, w.2.queue) } else x }
        let z := { s with now := max s.now t, cells := Tbl.put s.cells cell marked }
        ∃ s', exec (.remoteWriteArrive t cell id) s = .next s' ∧
          (z.arrivalFault cell owner f = none → OnlyCell s s' t cell ∧ s'.cell cell = marked) ∧
          (∀ p, z.arrivalFault cell owner f = some p → Live p.1 → RunFails s' p.1.id (St.unfencedRead, p.2)))) ∧
    (f.tokenOnly = true → f.writes = [] →
      let i := ins f.raw
      let z := (s.advance t).retireFlight cell f
      (∀ k q g0, TokenGoesTo z g cell i k q → Live g → s.cellRun k = some g0 → Live g0 →
        (s.cell k).tokenCount q + 2 ≤ 63 → (s.cell cell).tokenCount i.srcQ + 2 ≤ 63 →
        ∃ s', exec (.tokenMoveArrive t cell id) s = .next s' ∧ Leaves s' cell id ∧ s'.dram = s.dram ∧ (∀ j a, s'.word j a = s.word j a) ∧
          ∀ j p, (s'.cell j).tokenCount p = (s.cell j).tokenCount p + (if i.pe = true ∧ j = k ∧ p = q then 1 else 0) +
            (if i.srcPe = true ∧ j = cell ∧ p = i.srcQ then 1 else 0)) ∧
      (∀ dst, i.moveForm ≠ 0 → z.moveDst g i = some dst → dst.space = 1 → dst.peerSeg ≠ 0 →
        z.windowFor g cell (z.stencilCell g cell dst) dst.base dst.base = none → Live g →
        ∃ s', exec (.tokenMoveArrive t cell id) s = .next s' ∧ RunFails s' g.id (St.windowViolation, cell)))

/-- INSTRUCTION_COMPLETE of a MOVE with words whose turn it is, whose source is ready, which is admitted where it is remote, and which nothing races with. Direct: the words of its source land in order at its destination, and no other word of any scratchpad changes, nor DRAM. Bank load: the bank holds the part of the cell's program; no word changes. Stencil: where the source cannot be read the run fails with what says so; into a scratchpad the words of the source slices land in order; into DRAM they are written in order, or the run fails with ST_TRANSLATION_FAULT where an address is not mapped. The MOVE is no longer under way. (R156, R166, R182, R183, R184, R186, R214, R215, R218.) -/
def Obligations.MovesComplete : Prop :=
  ∀ (t cell id : Nat) (f : Flight) (g : SegRun) (h : HostView) (s : State), s.power.off = false → UnderWay s cell id f g → Live g →
    f.engine = 1 → f.ready = true → f.tokenOnly = false → (f.remote = true → f.arrived = true) → f.alts = [] → f.contest = [] → f.selfRaced = [] →
    let i := ins f.raw
    let exec1 := exec (.instructionComplete t cell id h) s
    (i.moveForm = 0 → Quiet s cell f → ∃ s', exec1 = .next s' ∧ Lands s s' (f.writes.zip (wordsAt s f.reads)) ∧ Leaves s' cell id ∧ s'.dram = s.dram) ∧
    (i.moveForm = 2 → ∃ s', exec1 = .next s' ∧ (∀ k a, s'.word k a = s.word k a) ∧ Leaves s' cell id ∧ s'.dram = s.dram ∧
      let part := (s.programOf g cell).getD (bits (i.opRaw 2) 0 8) []
      if bits (i.opRaw 2) 8 1 = 0 then (s'.cell cell).bank0 = part ∧ (s'.cell cell).bank1 = (s.cell cell).bank1
      else (s'.cell cell).bank1 = part ∧ (s'.cell cell).bank0 = (s.cell cell).bank0) ∧
    (i.moveForm ≠ 0 → i.moveForm ≠ 2 → ∀ d src dst, s.runDef g = some d → d.stencils[i.srcStencil]? = some src → s.moveDst g i = some dst →
      (∀ w, src.inPad = true → some w ∈ s.padRun g cell src (f.eas.getD 0 0).toNat (i.opnd 0).len → s.writePending cell f w = false) →
      (∀ e, movedWords s cell g f src (i.opnd 0).len = .error e → ∃ s' e', exec1 = .next s' ∧ RunFails s' g.id e' ∧ (f.win = none → e' = e) ∧ Leaves s' cell id ∧
        s'.dram = s.dram ∧ ∀ k a, s'.word k a = s.word k a) ∧
      (∀ ws, movedWords s cell g f src (i.opnd 0).len = .ok ws →
        (dst.inPad = true → ∃ s', exec1 = .next s' ∧ Lands s s' (f.writes.zip ws) ∧ Leaves s' cell id ∧ s'.dram = s.dram) ∧
        (dst.inPad = false → dst.space ≠ 4 →
          let w := (s.advance t).writeDva g.ten ((s.byteRun g dst (f.eas.getD 1 0).toNat (i.opnd 0).len).zip ws)
          ∃ s', exec1 = .next s' ∧ (∀ k a, s'.word k a = s.word k a) ∧ Leaves s' cell id ∧ s'.dram = w.1.dram ∧
            (w.2 = false → f.win = none → RunFails s' g.id (St.translationFault, 0)))))

/-- An arithmetic instruction under way for a run that goes on, its sources there; nothing races with it, and its destination overlaps no source in a way that leaves words undefined (R186, R194). -/
def Computes (s : State) (cell id : Nat) (f : Flight) (g : SegRun) : Prop :=
  UnderWay s cell id f g ∧ Live g ∧ f.ready = true ∧ f.tokenOnly = false ∧ Quiet s cell f ∧
    f.reads = (sourceLists g cell f).flatten ∧ undefinedDests f (sourceLists g cell f) = []

/-- It has completed with results out: they stand in its destination words, every other word, DRAM, and every other accumulator and plane is as it was; it has left its engine, and its operations are charged to its run. -/
def Computed (s s' : State) (cell id : Nat) (f : Flight) (g : SegRun) (out : List Nat) : Prop :=
  Lands s s' (f.writes.zip out) ∧ Leaves s' cell id ∧ s'.dram = s.dram ∧
    (∀ k, k ≠ cell → (s'.cell k).acc = (s.cell k).acc ∧ (s'.cell k).plane = (s.cell k).plane) ∧
    ∃ g', s'.seg? g.id = some g' ∧ g'.charged = g.charged + opsOf (s.modWin g) (ins f.raw) f.modIdx

/-- An integer that a distribution can draw (R210). -/
def InSupport (dist q : Nat) (z : Int) : Prop :=
  (dist = 0 → -41 ≤ z ∧ z ≤ 41) ∧ (dist = 1 → z = -1 ∨ z = 0 ∨ z = 1) ∧ (dist = 2 → 0 ≤ z ∧ z < (q : Int))

/-- INSTRUCTION_COMPLETE of an arithmetic instruction whose turn it is and whose sources are there, nothing racing with it and no undefined overlap. MAC array, except for a flush to a full finished-tile queue: the accumulators take the products of the plane, which is OP1 unless KEEPB keeps it; a flush writes the tile reduced, or queues it; with a full queue it waits. Trowel, under a prime modulus: OP2 holds the result of TADD, TSUB, TMUL, TMULC, TPERM, TDEC, TRESC or TRED on its sources or the head tile, and POP takes that tile off; without a tile it waits. NTT: OP2 holds the transform. SKIM: OP2 holds the sums of its streams. NOISE, on a comb whose sampler is seeded: OP2 holds draws of the distribution reduced, fresh ones that are kept, or with REPEAT the last kept, added to its old words with ADD; unseeded it waits. Words, accumulators and planes elsewhere and DRAM stay; the instruction has left its engine, and its run is charged its operations. (R166, R195, R197, R199, R200, R201, R202, R204, R205, R208, R209, R210.) -/
def Obligations.ArithmeticCompletes : Prop :=
  ∀ (t cell id : Nat) (h : HostView) (f : Flight) (g : SegRun) (s : State), s.power.off = false → Computes s cell id f g →
    let i := ins f.raw
    let w := s.modWin g
    let c := s.cell cell
    let src := (sourceLists g cell f).map (wordsAt s)
    (f.engine = 2 →
      let plane := if i.keepb = true then c.plane else src.getD 1 []
      let acc := macAccumulate w i f.modIdx (if i.zero = true then clearTile i.tile c.acc else c.acc) (macProducts i (src.getD 0 []) plane)
      (i.flush = true → i.fdest = true → 4 ≤ c.ftq.length → ∃ s', exec (.instructionComplete t cell id h) s = .next s' ∧ OnlyTime s s' t) ∧
      ((i.flush = true → i.fdest = true → c.ftq.length < 4) → ∀ tile, (i.flush = true → flushTile w i f.modIdx acc = tile.map some) →
        ∃ s', exec (.instructionComplete t cell id h) s = .next s' ∧
          Computed s s' cell id f g (if i.flush = true ∧ i.fdest = false then tile else []) ∧ (s'.cell cell).acc = acc ∧ (s'.cell cell).plane = plane ∧
          ((s'.cell cell).ftq = (if i.flush = true ∧ i.fdest = true then c.ftq ++ [tile] else c.ftq) ∨ (s'.cell cell).ftq = []))) ∧
    (f.engine = 3 → ∀ m, w.tab.entry (w.base + f.modIdx) = some m → primeWord m.q = true →
      ∃ s', exec (.instructionComplete t cell id h) s = .next s' ∧
        Computed s s' cell id f g (if i.op = Op.nttf then nttForward m w.tab.logN i.logn (src.getD 0 []) else nttInverse m w.tab.logN i.logn (src.getD 0 [])) ∧
        (s'.cell cell).acc = c.acc ∧ (s'.cell cell).plane = c.plane) ∧
    (f.engine = 4 →
      (i.ftq = true → c.ftq = [] → ∃ s', exec (.instructionComplete t cell id h) s = .next s' ∧ OnlyTime s s' t) ∧
      ((i.ftq = true → c.ftq ≠ []) → primeWord (w.q f.modIdx) = true → (i.op = Op.tresc → primeWord (w.q i.dropIdx) = true) →
        ∃ s', exec (.instructionComplete t cell id h) s = .next s' ∧
          Computed s s' cell id f g (trowelOut w i f.modIdx (trowelA i f c src) (trowelB i f src)) ∧
          (s'.cell cell).acc = c.acc ∧ (s'.cell cell).plane = c.plane ∧
          ((s'.cell cell).ftq = (if i.pop = true then c.ftq.drop 1 else c.ftq) ∨ (s'.cell cell).ftq = []))) ∧
    (f.engine = 5 → primeWord (w.q f.modIdx) = true →
      ∃ s', exec (.instructionComplete t cell id h) s = .next s' ∧
        Computed s s' cell id f g (skimOut (w.q f.modIdx) i.skimForm i.acc i.elems (src.take i.streams)
          ((src.drop i.streams).take (if i.skimForm = 1 then i.streams else 1)) (src.getLastD [])) ∧
        (s'.cell cell).acc = c.acc ∧ (s'.cell cell).plane = c.plane) ∧
    (f.engine = 6 →
      ((s.comb (combOf cell)).seeded = false → ∃ s', exec (.instructionComplete t cell id h) s = .next s' ∧ OnlyTime s s' t) ∧
      ((s.comb (combOf cell)).seeded = true → primeWord (w.q f.modIdx) = true →
        ∃ s' zs, exec (.instructionComplete t cell id h) s = .next s' ∧
          (i.repeat_ = true → zs = c.noise.elim [] (·.ints)) ∧
          (i.repeat_ = false → zs.length = i.elems ∧ ∀ z ∈ zs, InSupport i.dist (w.q f.modIdx) z) ∧
          Computed s s' cell id f g (if i.add = true then ((src.getD 0 []).zip (zs.map (resid (w.q f.modIdx)))).map fun x => madd (w.q f.modIdx) x.1 x.2 else zs.map (resid (w.q f.modIdx)))))

/-- DISPATCH may place run g on these cells: it waits, the comb is the one it goes to, the cells have the shape of R138 and may be taken under R329 to R331, no older run holds it back, and none goes before it. -/
def MayPlace (s : State) (comb : Nat) (cells : List Nat) (g : SegRun) : Prop :=
  g.waits = true ∧ s.power.phase = .ready ∧ s.targetComb g = some comb ∧ shapeOk comb (s.runCells g) cells = true ∧
    cells.all (s.avail g comb (s.runCells g)) = true ∧ s.isNext comb g = true

/-- Every word of every scratchpad as it was. -/
def SameWords (s s' : State) : Prop := ∀ k a, s'.word k a = s.word k a

/-- A scrubbed cell: words, accumulators, banks and token counts are zero (R148). -/
def Zeroed (c : Cell) : Prop := c.mem = [] ∧ c.acc = [] ∧ c.bank0 = [] ∧ c.bank1 = [] ∧ c.tokens = []

/-- DISPATCH of a waiting run whose turn it is, on cells that have its shape and that it may take, none of them lent to a borrower: the run is placed on exactly these cells of that comb, each cell works for it under its group index, a class-0 run makes its comb hold the class-0 floor from now on, no word of any scratchpad and no other run changes; a run that may not be placed so is not. DISPATCH_STARVATION once the oldest waiting run of a class on a comb has waited 1 ms stops placement behind it. CELL_SCRUB_COMPLETE of a placed group zeroes exactly its cells that come from another tenant, and the group is clean; of a reservation, it zeroes its free cells not yet scrubbed and counts them as reserved. (R68, R138, R148, R326, R327, R328, R329, R330, R331.) -/
def Obligations.SegmentsPlaced : Prop :=
  (∀ (t comb seg : Nat) (cells : List Nat) (g : SegRun) (s : State), s.power.off = false → s.seg? seg = some g →
    (MayPlace (s.advance t) comb cells g → (s.segs.all fun b => !(b.borrower && b.cells.any cells.contains)) = true →
      ∃ s', exec (.dispatch t comb seg cells) s = .next s' ∧
        (∃ g', s'.seg? seg = some g' ∧ g'.phase = .placed ∧ g'.cells = cells ∧ g'.comb = comb ∧ g'.cls = g.cls ∧ g'.saved = g.saved) ∧
        (∀ i c, cells[i]? = some c → (s'.cell c).seg = some g.id ∧ (s'.cell c).group = i) ∧
        (∀ c, c ∉ cells → (s'.cell c).seg = (s.cell c).seg) ∧ (∀ j, j ≠ seg → s'.seg? j = s.seg? j) ∧ SameWords s s' ∧ s'.dram = s.dram ∧
        (g.cls = 0 → (s'.comb comb).c0Floor = true)) ∧
    (¬ MayPlace (s.advance t) comb cells g → ∃ s', exec (.dispatch t comb seg cells) s = .next s' ∧ OnlyTime s s' t)) ∧
  (∀ (t comb cls : Nat) (g : SegRun) (s : State), s.power.off = false → comb < 4 → cls < 4 → g ∈ s.segs → g.waits = true → g.cls = cls → s.targetComb g = some comb →
    (∀ x ∈ s.segs, x.waits = true → x.cls = cls → s.targetComb x = some comb → x ≠ g → g.readyAt < x.readyAt) → g.readyAt + 1000000 ≤ max s.now t →
    ∃ s', exec (.dispatchStarvation t comb cls) s = .next s' ∧ OnlyComb s s' t comb ∧
      s'.comb comb = { s.comb comb with stopped := (s.comb comb).stopped.set cls (some g.id) }) ∧
  (∀ (t seg : Nat) (g : SegRun) (s : State), s.power.off = false → s.seg? seg = some g → g.phase = .placed → g.scrubbed = false → g.cells.Nodup →
    ∃ s', exec (.cellScrubComplete t (.group seg)) s = .next s' ∧ s'.seg? seg = some { g with scrubbed := true } ∧ s'.dram = s.dram ∧
      (∀ c ∈ g.cells, (s.cell c).lastTen ≠ some g.ten → Zeroed (s'.cell c) ∧ (s'.cell c).lastTen = some g.ten) ∧
      (∀ c, c ∉ g.cells ∨ (s.cell c).lastTen = some g.ten → s'.cell c = s.cell c)) ∧
  (∀ (t comb ten : Nat) (s : State), s.power.off = false → ((s.comb comb).reserved.map (·.1)).Nodup →
    ∃ s', exec (.cellScrubComplete t (.reservation comb ten)) s = .next s' ∧ s'.dram = s.dram ∧
      (∀ c, (c, ten, false) ∈ (s.comb comb).reserved → (s.cell c).seg = none → Zeroed (s'.cell c) ∧ (c, ten, true) ∈ (s'.comb comb).reserved) ∧
      (∀ c, (c, ten, false) ∉ (s.comb comb).reserved ∨ (s.cell c).seg ≠ none → s'.cell c = s.cell c))

/-- A placed run of segment x may start: its cells are clean, its comb in service, its gang all placed and clean or running. -/
def MayStart (s : State) (g : SegRun) (x : SegDef) : Prop :=
  s.runDef g = some x ∧ g.phase = .placed ∧ g.scrubbed = true ∧ g.fail = none ∧ (s.comb g.comb).svc = .inService ∧ s.gangReady g = true ∧ g.cells.Nodup

/-- A run as it begins: running from now, its streams at their first tile. -/
def begunRun (g : SegRun) (x : SegDef) (peers : Tbl (List Nat)) (n : Nat) : SegRun :=
  { g with phase := .running, startedAt := n, ranSince := n, progress := n, peers := peers
           streams := (List.range x.streams.length).map fun k => (k, { delivered := [], hopped := [], finals := [], granules := 0, ended := false }) }

/-- The state without a run. -/
def withoutRun (s : State) (seg n : Nat) : State := { s with now := n, segs := s.segs.filter fun g => g.id != seg }

/-- A run is over: its cells are free and no other cell, no word, no other run and no byte of DRAM has changed. -/
def RunOver (s s' : State) (g : SegRun) : Prop :=
  (∀ c ∈ g.cells, (s'.cell c).seg = none ∧ (s'.cell c).tokens = [] ∧ (s'.cell c).windows = [] ∧ (s'.cell c).flights = []) ∧
    (∀ c, c ∉ g.cells → s'.cell c = s.cell c) ∧ SameWords s s' ∧ s'.dram = s.dram ∧ s'.settings = s.settings

/-- Its work is charged to its tenant's meters 0 and 1. -/
def RunCharged (s s' : State) (g : SegRun) : Prop :=
  (s'.ten g.ten).meters = (((s.ten g.ten).meters.set 0 (capAt (2 ^ 64 - 1) (nth0 (s.ten g.ten).meters 0 + g.charged))).set 1
    (capAt (2 ^ 64 - 1) (nth0 (s.ten g.ten).meters 1 + g.keyBytes)))

/-- SEGMENT_START of a placed run whose gang is ready: every cell of the group keeps its words and accumulators, has empty queues, no windows, stopped timers, zero token counts, advance registers and selection, its banks loaded and its issue point at the start; the run runs from now with its streams at their first tile; its command has a start time; where a multicast group or a stencil breaks its rule the run fails with ST_BAD_FIELD and 0x20 or with that fault. A run that had yielded goes on with exactly the cell states it saved. SEGMENT_YIELD of a run of class 1 to 3 that has run 200 us, is quiet and stands in the way of higher-class work: it waits again with the states of its cells saved, the cells are free, and no word, no other cell and no other run changes. (R98, R147, R162, R217, R232, R336, R337.) -/
def Obligations.SegmentsStartAndYield : Prop :=
  ∀ (t seg : Nat) (g : SegRun) (s : State), s.power.off = false → s.seg? seg = some g →
    (∀ x, MayStart (s.advance t) g x → g.saved = [] →
      let z := ((s.advance t).startCells g x).beginRun g x
      let g1 := begunRun g x ((s.advance t).peersOf g x) (max s.now t)
      (z.createFault g1 = none → x.mcasts.any (z.mcastBad g1) = false →
        ∃ s', exec (.segmentStart t seg) s = .next s' ∧ s'.seg? seg = some g1 ∧ s'.dram = s.dram ∧ SameWords s s' ∧
          (∀ i c, g.cells[i]? = some c → s'.cell c = (s.cell c).start g.ten x.latMode (x.programs.getD (nth0 x.cellMap i) [])) ∧
          (∀ c, c ∉ g.cells → s'.cell c = s.cell c) ∧ (∀ j, j ≠ seg → s'.seg? j = s.seg? j) ∧
          (∀ c, s.cmd? g.ten g.lring g.seq = some c → s'.cmd? g.ten g.lring g.seq =
            some { c with startAt := if (g.first && g.replay) = true then some (max s.now t) else some (c.startAt.getD (max s.now t)) })) ∧
      (x.mcasts.any (z.mcastBad g1) = true → ∃ s', exec (.segmentStart t seg) s = .next s' ∧ RunFails s' seg (St.badField, 0x20)) ∧
      (∀ e, z.createFault g1 = some e → x.mcasts.any (z.mcastBad g1) = false → ∃ s', exec (.segmentStart t seg) s = .next s' ∧ RunFails s' seg e)) ∧
    (∀ x, MayStart (s.advance t) g x → g.saved ≠ [] → g.saved.length = g.cells.length →
      ∃ s', exec (.segmentStart t seg) s = .next s' ∧
        s'.seg? seg = some { g with phase := .running, saved := [], ranSince := max s.now t, progress := max s.now t } ∧ s'.dram = s.dram ∧
        (∀ (i c : Nat) (v : Cell), g.cells[i]? = some c → g.saved[i]? = some v →
          s'.cell c = { v with seg := (s.cell c).seg, group := (s.cell c).group, lastTen := some g.ten }) ∧
        (∀ c, c ∉ g.cells → s'.cell c = s.cell c) ∧ (∀ j, j ≠ seg → s'.seg? j = s.seg? j)) ∧
    (g.phase = .running → g.fail = none → g.cls ≠ 0 → g.ranSince + 200000 ≤ max s.now t → s.wantsYield g = true → s.quiet g = true → g.cells.Nodup →
      ∃ s', exec (.segmentYield t seg) s = .next s' ∧
        s'.seg? seg = some { g with phase := .yielded, saved := g.cells.map s.cell, scrubbed := false, readyAt := max s.now t, borrower := false } ∧
        RunOver s s' g ∧ ∀ j, j ≠ seg → s'.seg? j = s.seg? j)

/-- SEGMENT_END of a run whose cells have halted and are quiet, or that has failed with nothing left under way, where no edge leaves its segment: the run is gone, its cells are free, their words and every other cell, DRAM and the settings stay, and its work is charged. While other runs of the command remain nothing else happens. After the last: where the EVAL has failed, or no round-trip point lies behind the gang, the EVAL is done; at a point without round trips the chain goes on at FALLBACK_SEG, or, with none, the EVAL fails with ST_BAD_FIELD and 0x6D. A run that may not end stays. (R128, R177, R191, R195, R244, R245, R247, R340, R352, R353.) -/
def Obligations.SegmentsEnd : Prop :=
  ∀ (t seg : Nat) (g : SegRun) (s : State), s.power.off = false → s.seg? seg = some g → g.cells.Nodup →
    let others := (s.segs.filter fun x => x.id != seg).any fun x => x.ofCmd g.ten g.lring g.seq
    let s1 := withoutRun s seg (max s.now t)
    (¬ (g.phase = .running ∧ (s.advance t).mayEnd g = true) → ∃ s', exec (.segmentEnd t seg) s = .next s' ∧ OnlyTime s s' t) ∧
    (g.phase = .running → (s.advance t).mayEnd g = true → (g.fail = none → s.settings.swarm = none) →
      (others = true → ∃ s', exec (.segmentEnd t seg) s = .next s' ∧ RunOver s s' g ∧ RunCharged s s' g ∧ s'.segs = s1.segs ∧
        SameBut (ringKey g.ten g.lring) s'.rings s.rings) ∧
      (others = false → ∀ c v, s.cmd? g.ten g.lring g.seq = some c → c.eval = some v →
        ((v.failed ≠ none ∨ s.genOf g.ten v.model v.gen = none ∨ ∃ gn, s.genOf g.ten v.model v.gen = some gn ∧ gn.pointOf g.gang = none) →
          ∃ s', exec (.segmentEnd t seg) s = .next s' ∧ RunOver s s' g ∧ RunCharged s s' g ∧ s'.segs = s1.segs ∧
            evalOf s' g.ten g.lring g.seq = some { v with done := true } ∧ SameBut (ringKey g.ten g.lring) s'.rings s.rings) ∧
        (v.failed = none → ∀ gn i e, s.genOf g.ten v.model v.gen = some gn → gn.pointOf g.gang = some (i, e) → v.rtEnable = false →
          (e.fallbackSeg = 0xFFFF → ∃ s', exec (.segmentEnd t seg) s = .next s' ∧
            evalOf s' g.ten g.lring g.seq = some (evalFails v (St.badField, 0x6D) (!((runsAfter s1.segs g.ten g.lring g.seq (St.badField, 0x6D)).any fun x => x.ofCmd g.ten g.lring g.seq)))) ∧
          (e.fallbackSeg ≠ 0xFFFF → ∃ s', exec (.segmentEnd t seg) s = .next s' ∧ RunOver s s' g ∧ RunCharged s s' g ∧
            ChainAt s1 s' g.ten g.lring c v gn e.fallbackSeg ∧ SameBut (ringKey g.ten g.lring) s'.rings s.rings))))

/-- A stream of a run that delivers: its definition, its source, its progress. -/
def Streaming (s : State) (seg stream : Nat) (g : SegRun) (d : StreamDef) (st : Stencil) (r : StreamRun) : Prop :=
  s.seg? seg = some g ∧ s.streamOf g stream = some (d, st) ∧ Tbl.look g.streams stream = some r ∧ s.streams? g = true ∧ r.ended = false

/-- A stream's progress. -/
def streamAt (s : State) (seg stream : Nat) : Option StreamRun := (s.seg? seg).bind fun g => Tbl.look g.streams stream

/-- The words ws of a tile have landed in a cell that admitted them by window w, against one free token of it and with one token posted: nothing else has changed in any scratchpad, token count or in DRAM. -/
def TileLands (s s' : State) (cell freeQ queue : Nat) (ws : List (Nat × Nat)) : Prop :=
  Lands s s' (ws.map fun w => ((cell, w.1), w.2)) ∧ s'.dram = s.dram ∧
    (∀ j p, (s'.cell j).tokenCount p = (s.cell j).tokenCount p - (if j = cell ∧ p = freeQ then 1 else 0) + (if j = cell ∧ p = queue then 1 else 0))

/-- A receiver has given n of its last free tokens, and nothing else has changed but its stream's progress, which is now r. -/
def FinalsTaken (s s' : State) (seg stream cell freeQ n : Nat) (r : StreamRun) : Prop :=
  streamAt s' seg stream = some r ∧ (∀ j p, (s'.cell j).tokenCount p = (s.cell j).tokenCount p - (if j = cell ∧ p = freeQ then n else 0)) ∧
    SameWords s s' ∧ s'.dram = s.dram

/-- FORAGER_TILE_DELIVER and RELAY_HOP for a running stream, on a lane of it: after its last tile a receiver gives up to RING_TILES final free tokens, and the stream has ended once every receiver has given them; without a free token, or, for a hop, before the place before has the tile, or, in a multicast group, before its granules are fetched, nothing happens. Otherwise, where a window of the cell admits the slot and checked mode allows it, the words of the next tile land in the slot (tile number modulo RING_TILES), one free token is taken, one token is posted to the window's queue and the lane's progress moves on by one; where no window admits it the run fails with ST_WINDOW_VIOLATION and DETAIL 512 + 2 * comb + forager, and no word changes. MULTICAST_GRANULE_FETCH on the fetching comb, once every member can accept it: every member with the stream has one granule more, no word and no token changes. (R151, R152, R156, R226, R227, R231, R232, R235.) -/
def Obligations.StreamsDeliver : Prop :=
  ∀ (t seg stream : Nat) (h : HostView) (g : SegRun) (d : StreamDef) (st : Stencil) (r : StreamRun) (s : State), s.power.off = false →
    Streaming s seg stream g d st r →
    (∀ (l : Nat) (onChain : Bool) (hop : Nat), d.isLane st l = true → (onChain = true → d.relay = true ∧ 0 < hop ∧ hop < d.chainLen) → (onChain = false → hop = 0) →
      let ask : Instr := if onChain = true then .relayHop t seg stream l hop h else .foragerTileDeliver t seg stream l h
      let key := 16 * l + hop
      let shift := if onChain = true ∧ laneIsA l = true then d.aOffset else 0
      let cell := g.cells.getD (if onChain = true then (d.chain (d.laneHead l)).getD hop 0 + shift else laneCell l) 0
      let j := if onChain = true then Tbl.lookD r.hopped key 0 else Tbl.lookD r.delivered l 0
      let before := if hop ≤ 1 then Tbl.lookD r.delivered l 0 else Tbl.lookD r.hopped (key - 1) 0
      let tile := d.tileOf (d.laneHead l) j
      let n := min ((s.cell cell).tokenCount d.freeQ) (d.ringTiles - Tbl.lookD r.finals key 0)
      let last : StreamRun := { r with finals := Tbl.put r.finals key (Tbl.lookD r.finals key 0 + n) }
      let next : StreamRun := if onChain = true then { r with hopped := Tbl.put r.hopped key (j + 1) } else { r with delivered := Tbl.put r.delivered l (j + 1) }
      (d.tilesOf st (d.laneHead l) ≤ j → ∃ s', exec ask s = .next s' ∧ FinalsTaken s s' seg stream cell d.freeQ n { last with ended := d.ends st last }) ∧
      (j < d.tilesOf st (d.laneHead l) →
        ((s.cell cell).tokenCount d.freeQ = 0 ∨ (onChain = true ∧ before ≤ j) ∨ (onChain = false ∧ d.mcastId ≠ 0 ∧ r.granules < d.granulesTo st tile) →
          ∃ s', exec ask s = .next s' ∧ OnlyTime s s' t) ∧
        ((s.cell cell).tokenCount d.freeQ ≠ 0 → (onChain = true → j < before) → (onChain = false → d.mcastId ≠ 0 → d.granulesTo st tile ≤ r.granules) →
          ∀ data og, (s.advance t).tileData h g d st tile = .ok data → s.cellRun cell = some og →
            let ws := d.landing l (d.slotOf j (s.laneSlot g d st)) data
            let e := extentOf (ws.map fun w => (cell, w.1))
            (∀ w, s.admits cell og g.ten g.comb e.1 e.2 none = some w → og.fail = none → og.phase = .running → (s.cell cell).tokenCount w.2.queue + 1 ≤ 63 →
              ((s.advance t).updCell cell fun c => c.takeTokens d.freeQ 1).unfenced og none [] (ws.map fun w => (cell, w.1)) = none →
              ∃ s', exec ask s = .next s' ∧ TileLands s s' cell d.freeQ w.2.queue ws ∧ streamAt s' seg stream = some next) ∧
            (s.admits cell og g.ten g.comb e.1 e.2 none = none →
              ∃ s', exec ask s = .next s' ∧ RunFails s' seg (St.windowViolation, foragerId g.comb d) ∧ SameWords s s' ∧ s'.dram = s.dram)))) ∧
    (let ms := s.members g d.mcastId
     d.mcastId ≠ 0 → r.granules < d.granulesTo st (d.tiles st - 1) → s.fetchingComb g st ms = g.comb → (∀ m ∈ ms, s.canAccept m r.granules = true) →
      (∃ data, (s.advance t).tileData h g d st (d.granuleTile st r.granules) = .ok data) →
      ∃ s', exec (.multicastGranuleFetch t seg stream h) s = .next s' ∧ s'.cells = s.cells ∧ s'.dram = s.dram ∧
        ∀ m ∈ ms, ∀ x, streamAt s m.1.id m.2.1 = some x → streamAt s' m.1.id m.2.1 = some { x with granules := r.granules + 1 })

/-- Nothing but waggle time, the power inputs' state, combs, tenants' logs and the log may differ. -/
def PacesOnly (s s' : State) (t : Nat) : Prop := s' = { s with now := max s.now t, elec := s'.elec, combs := s'.combs }

/-- The supply code of a comb after one interval, by the rules: thermal override first, then the class-0 ramp, the power cap, fixed mode, streams' occupancy. -/
def CodeRule (k : Comb) (p : PaceSet) (emergency hotCore exceed capping : Bool) (occ : List Nat) (v : Nat) : Prop :=
  let lo := if k.c0Floor = true then max p.vmin 40 else p.vmin
  (emergency = true → (100 < k.tj ∨ hotCore = true → v = k.vcode - 1) ∧ v ≤ k.vcode) ∧
  (emergency = false → k.c0Floor = true → k.vcode < 40 → v = min 40 (k.vcode + 20)) ∧
  (emergency = false → (k.c0Floor = true → 40 ≤ k.vcode) →
    (exceed = true → v = if lo < k.vcode then k.vcode - 1 else k.vcode) ∧
    (exceed = false → capping = true → v ≤ k.vcode) ∧
    (exceed = false → capping = false →
      (k.vcode < lo → v = k.vcode + 1) ∧
      (lo ≤ k.vcode → k.vcode ≤ p.vmax →
        (p.paced = false → v = max lo p.vfix) ∧
        (p.paced = true → occ = [] → (k.vcode < max lo p.vfix → v = k.vcode + 1) ∧ (k.vcode = max lo p.vfix → v = k.vcode) ∧ (max lo p.vfix < k.vcode → v = k.vcode - 1)) ∧
        (p.paced = true → occ ≠ [] → ((∃ o ∈ occ, p.bandHi < o) → v = min (max lo p.vmax) (k.vcode + 1)) ∧
          ((∀ o ∈ occ, o < p.bandLo) → (∀ o ∈ occ, o ≤ p.bandHi) → v = max lo (k.vcode - 1)) ∧
          ((∀ o ∈ occ, o ≤ p.bandHi) → (∃ o ∈ occ, p.bandLo ≤ o) → v = k.vcode)))))

/-- PACE_INTERVAL sets each comb that is not in Rest to the code that CodeRule names and notes its occupancy and stage rate; nothing else of the combs changes. C0_HOLD_EXPIRE lifts a comb's class-0 floor C0_HOLD us after its last class-0 segment. THERMAL_SAMPLE notes every junction and its maximum; a junction above 100 C begins an emergency, seen in every comb block; a comb at 110 C or above has CRIT_SEEN set, leaves service for thermal Rest, and no run that ran on it still runs. With no comb at 110 C the log has one record, of the suspension, where an emergency begins, and else stays. THERMAL_EMERGENCY_END and COMB_THERMAL_RECOVER act once every die, or the comb, has stayed at or below 95 C for 10 ms. THERMAL_TRIP of a hive or edge die powers the module down. COMB_REST_ENTRY puts an idle comb to Rest where REST_EN and the rules allow. (R66, R67, R68, R69, R71, R72, R73, R74, R367, R405, R407, R409.) -/
def Obligations.PaceAndThermal : Prop :=
  (∀ (t inputW : Nat) (meas : List CombMeasure) (s : State), s.power.off = false →
    let exceed := decide (s.settings.capW < inputW)
    let capping := exceed || (s.elec.capping && inputW == s.settings.capW)
    ∃ s', exec (.paceInterval t meas inputW) s = .next s' ∧ PacesOnly s s' t ∧ s'.elec = { s.elec with inputW := inputW, capping := capping } ∧
      ∀ c, c < 4 → let k := s.comb c
        let m := meas.getD c { occupancy := [], stageRate := 0 }
        (k.rest = true → s'.comb c = k) ∧
        (k.rest = false → ∃ v hot, s'.comb c = { k with vcode := v, thermal := hot, occ := m.occupancy.foldl max 0, stageRate := m.stageRate } ∧
          CodeRule k (s.pace c) s.power.emergency (decide (100 < s.power.coreTj)) exceed capping m.occupancy v ∧
          (hot = true ↔ s.power.emergency = true ∧ (100 < k.tj ∨ 100 < s.power.coreTj)))) ∧
  (∀ (t comb : Nat) (s : State), s.power.off = false → (s.comb comb).c0Floor = true → s.c0Runs comb = false → (s.comb comb).c0Last + (s.pace comb).c0Hold * 1000 ≤ max s.now t →
    ∃ s', exec (.c0HoldExpire t comb) s = .next s' ∧ OnlyComb s s' t comb ∧ s'.comb comb = { s.comb comb with c0Floor := false }) ∧
  (∀ (t : Nat) (tj : Junctions) (s : State), s.power.off = false → (s.segs.map (·.id)).Nodup →
    let js := junctions tj
    let begins := js.any (fun x => decide (100 < x)) && !s.power.emergency
    ∃ s', exec (.thermalSample t tj) s = .next s' ∧
      s'.power = { s.power with hiveTj := tj.hive, e0Tj := tj.e0, e1Tj := tj.e1, hot := js.map fun x => decide (100 < x), emergency := s.power.emergency || begins
                                coolSince := (List.range 7).map fun i => coolFrom (max s.now t) (nth0 js i) (s.power.coolSince.getD i none) } ∧
      (∀ c, c < 4 → let k := s.comb c
        (s'.comb c).tj = nth0 js c ∧ (s'.comb c).tjMax = max k.tjMax (nth0 js c) ∧ (s'.comb c).emergSeen = (k.emergSeen || begins) ∧
        (nth0 js c < 110 → (s'.comb c).svc = k.svc ∧ (s'.comb c).critSeen = k.critSeen) ∧
        (110 ≤ nth0 js c → (s'.comb c).critSeen = true ∧ (s'.comb c).svc ≠ .inService ∧ (k.svc = .inService → (s'.comb c).svc = .thermalRest ∧ (s'.comb c).rest = true) ∧
          ∀ g ∈ s.segs, g.phase = .running → g.comb = c → g.cells ≠ [] → ∀ x ∈ s'.segs, x.id = g.id → x.phase = .ready)) ∧
      ((∀ c, c < 4 → nth0 js c < 110) → s'.segs = s.segs ∧ s'.rings = s.rings ∧ s'.cells = s.cells ∧
        s'.log = if begins = true then s.log.add { type := Rec.boundSuspended, flags := 1, ten := 0xFFFF, source := 0xFF, waggle := max s.now t, arg0 := 0, arg1 := 0 } else s.log)) ∧
  (∀ (t : Nat) (s : State), s.power.off = false →
    (s.power.emergency = true → (∀ d, d < 7 → (s.advance t).cooled d = true) → ∃ s', exec (.thermalEmergencyEnd t) s = .next s' ∧
      s'.power = { s.power with emergency := false } ∧ (∀ c, c < 4 → s'.comb c = { s.comb c with thermal := false }) ∧
      s'.log = s.log.add { type := Rec.boundSuspended, flags := 2, ten := 0xFFFF, source := 0xFF, waggle := max s.now t, arg0 := 0, arg1 := 0 } ∧
      s'.segs = s.segs ∧ s'.rings = s.rings ∧ s'.cells = s.cells) ∧
    (∀ c, (s.comb c).svc = .thermalRest → (s.advance t).cooled c = true → ∃ s', exec (.combThermalRecover t c) s = .next s' ∧ OnlyComb s s' t c ∧
      s'.comb c = { s.comb c with svc := .inService, idleSince := max s.now t }) ∧
    (∀ die, 4 ≤ die → die ≤ 6 → exec (.thermalTrip t die) s = .next { s with now := max s.now t, power := { s.power with off := true } }) ∧
    (∀ c, let k := s.comb c
      s.settings.restEn = true → s.power.phase = .ready → k.svc = .inService → k.rest = false → s.reservesC0 c = false → s.copiesOn c = false →
      (∀ g ∈ s.segs, g.comb = c → g.cells = []) → k.idleSince + s.settings.restIdle * 1000 ≤ max s.now t →
      ∃ s', exec (.combRestEntry t c) s = .next s' ∧ OnlyComb s s' t c ∧ s'.comb c = { k with rest := true }))

/-- A run that a comb fault has caught: it stands drained on its cells, or, where nothing of its gang had started, it waits again without cells (R341). -/
def Caught (x : SegRun) : Prop := x.phase = .drained ∨ (x.phase = .ready ∧ x.cells = [])

/-- Runs have their own numbers, and each is a member of its gang. -/
def RunsNamed (s : State) : Prop := (s.segs.map (·.id)).Nodup ∧ ∀ g ∈ s.segs, g.gang.contains g.idx = true

/-- No command on any ring is a copy or a model load that has started. -/
def NoCarried (s : State) : Prop := ∀ r ∈ s.rings, ∀ c ∈ r.2.cmds, c.phase = .started → c.opcode ≠ 0x50 ∧ c.opcode ≠ 0x04

/-- COMB_FAULT and HEARTBEAT_TIMEOUT of a comb in service or in thermal Rest: the comb is draining, the fault is counted and logged with the suspension of the bound, and every run that held cells of it stands drained, or, where nothing of its gang had started, waits again without cells; a comb already out of service is left alone. COMB_DRAIN_COMPLETE with one drained run on the comb, of an EVAL that has not failed, no copy or load being carried: the comb is resetting, and where every member of the run's gang is idempotent, not yet replayed twice and has a comb in service, the gang waits again from its start marked as a replay, one replay more; else its EVAL has failed with ST_COMB_FAULT and the comb's number. (R335, R341, R342, R344, R351.) -/
def Obligations.CombFaultsStop : Prop :=
  (∀ (t c source cell : Nat) (s : State), s.power.off = false → c < 4 → RunsNamed s →
    ((s.comb c).svc.live = true → ∀ ask, (ask = .combFault t c source cell ∨ (ask = .heartbeatTimeout t c ∧ source = 1 ∧ cell = 0xFFFF)) →
      ∃ s', exec ask s = .next s' ∧ (s'.comb c).svc = .draining ∧ (s'.comb c).tj = (s.comb c).tj ∧ (∀ j, j ≠ c → (s'.comb j).svc = (s.comb j).svc) ∧
        s'.log = (({ s.log with combFaults := capAt 0xFFFF (s.log.combFaults + 1) } : Log).add
          { type := Rec.combFault, flags := 0, ten := 0xFFFF, source := c, waggle := max s.now t, arg0 := source, arg1 := cell }).add
          { type := Rec.boundSuspended, flags := 1, ten := 0xFFFF, source := c, waggle := max s.now t, arg0 := 1, arg1 := 0 } ∧
        ∀ g ∈ s.segs, g.comb = c → g.cells ≠ [] → ∀ x ∈ s'.segs, x.id = g.id → Caught x) ∧
    ((s.comb c).svc.live = false → (∃ s', exec (.combFault t c source cell) s = .next s' ∧ OnlyTime s s' t) ∧ ∃ s', exec (.heartbeatTimeout t c) s = .next s' ∧ OnlyTime s s' t)) ∧
  (∀ (t c : Nat) (s : State), s.power.off = false → (s.comb c).svc = .draining → NoCarried s →
    (∀ g, s.segs.filter (fun g => g.comb == c && g.phase == .drained) = [g] → s.seg? g.id = some g → g.fail = none →
      (s.replayable g = true → ∃ s', exec (.combDrainComplete t c) s = .next s' ∧ (s'.comb c).svc = .resetting ∧ s'.dram = s.dram ∧ s'.log = s.log ∧
        s'.segs = s.segs.map fun m => if g.gangOf m then { m.restart (max s.now t) with replay := true, replays := m.replays + 1 } else m) ∧
      (s.replayable g = false → ∀ v, evalOf s g.ten g.lring g.seq = some v →
        ∃ s', exec (.combDrainComplete t c) s = .next s' ∧ (s'.comb c).svc = .resetting ∧ FailsEval s s' g.ten g.lring g.seq v (St.combFault, c))) ∧
    (s.segs.filter (fun g => g.comb == c && g.phase == .drained) = [] → ∃ s', exec (.combDrainComplete t c) s = .next s' ∧ OnlyComb s s' t c ∧
      s'.comb c = { s.comb c with svc := .resetting }))

/-- The width that a number of unusable lanes leaves (R50). -/
def WidthIs (f : Nat) (w : DirState) : Prop := (f ≤ 2 → w = .full) ∧ (2 < f → f ≤ 10 → w = .half) ∧ (10 < f → w = .failed)

/-- After a command at waggle time t, nothing but one direction of a bundle, the lane events and the log has changed. -/
def OnlyLane (s s' : State) (t b d : Nat) : Prop :=
  s' = { s with now := max s.now t, lanes := s'.lanes, log := s'.log } ∧ SameBut (b * 2 + d) s'.lanes.dirs s.lanes.dirs ∧
    s'.lanes.combIsolated = s.lanes.combIsolated ∧ s'.lanes.edgeIsolated = s.lanes.edgeIsolated

/-- Some other direction of the same die pair and the same sense has not failed. -/
def OtherWay (s : State) (b d : Nat) : Prop := ∃ i, i < (pairOf b).2 ∧ (pairOf b).1 + i ≠ b ∧ (s.dir ((pairOf b).1 + i) d).state ≠ .failed

/-- The record of a lane event (R57, R351). -/
def laneRecord (n b d bit : Nat) : LogRec := { type := Rec.lane, flags := 0, ten := 0xFFFF, source := 2 * b + d, waggle := n, arg0 := bit, arg1 := 0 }

/-- FLIT_REPLAY of a direction in use counts it, and keeps the replays of the last 1 ms. LANE_RETRAIN past 256 of them: the direction retrains, one retrain more, or, after four, has failed with its event and record, while another direction of its pair and sense remains. RETRAIN_TEST_DONE notes the failing lanes and sets the width of R50, with the events and records of retraining and of half width or failure; where the last direction of a sense of a comb-hive pair is lost, the comb is isolated and drains. COMB_RESET_COMPLETE of a comb that held no yielded run: it returns to service, unless isolated or faulted three times, with its bound no longer suspended, out of Rest, its sampler unseeded, only pinned shelves left; every one of its cells is zero, those in a reservation stand scrubbed for their tenant, and no other cell changes. (R49, R50, R53, R54, R57, R330, R346.) -/
def Obligations.LanesAndCombReset : Prop :=
  (∀ (t b d : Nat) (s : State), s.power.off = false → b < 120 → d < 2 → (s.dir b d).state = .full ∨ (s.dir b d).state = .half →
    (∃ s', exec (.flitReplay t b d) s = .next s' ∧ OnlyLane s s' t b d ∧ s'.log = s.log ∧
      s'.dir b d = { s.dir b d with replays := capAt 0xFFFF ((s.dir b d).replays + 1), recent := max s.now t :: (s.dir b d).recent.filter fun r => decide (max s.now t < r + 1000000) }) ∧
    (256 < (s.dir b d).recent.length →
      ((s.dir b d).retrains < 4 → ∃ s', exec (.laneRetrain t b d) s = .next s' ∧ OnlyLane s s' t b d ∧ s'.log = s.log ∧
        s'.dir b d = { s.dir b d with state := .retraining, retrains := (s.dir b d).retrains + 1, recent := [] }) ∧
      (4 ≤ (s.dir b d).retrains → OtherWay s b d → ∃ s', exec (.laneRetrain t b d) s = .next s' ∧ OnlyLane s s' t b d ∧
        s'.dir b d = { s.dir b d with state := .failed } ∧ s'.lanes.failedEv = true ∧ s'.log = s.log.add (laneRecord (max s.now t) b d 2)))) ∧
  (∀ (t b d mask : Nat) (s : State), s.power.off = false → b < 120 → d < 2 → (s.dir b d).state = .retraining →
    let tested := { s.dir b d with testFail := mask % 2 ^ 18, recent := [] }
    (OtherWay s b d → ∃ s' w, exec (.retrainTestDone t b d mask) s = .next s' ∧ OnlyLane s s' t b d ∧ WidthIs tested.unusable w ∧ s'.dir b d = { tested with state := w } ∧
      s'.lanes.retrained = true ∧ s'.lanes.degraded = (s.lanes.degraded || w == .half) ∧ s'.lanes.failedEv = (s.lanes.failedEv || w == .failed) ∧
      s'.log = (let l := s.log.add (laneRecord (max s.now t) b d 4)
        if w = .half then l.add (laneRecord (max s.now t) b d 1) else if w = .failed then l.add (laneRecord (max s.now t) b d 2) else l)) ∧
    (¬ OtherWay s b d → 10 < tested.unusable → b < 64 → (s.comb (b / 16)).svc.live = true → RunsNamed s →
      ∃ s', exec (.retrainTestDone t b d mask) s = .next s' ∧ (s'.comb (b / 16)).svc = .draining)) ∧
  (∀ (t c : Nat) (fails : List (Nat × Nat × Nat)) (s : State), s.power.off = false → (s.comb c).svc = .resetting → (∀ g ∈ s.segs, g.comb = c → g.phase ≠ .yielded) →
    ((s.comb c).reserved.map (·.1)).Nodup → (∀ r ∈ (s.comb c).reserved, combOf r.1 = c) →
    ∃ s', exec (.combResetComplete t c fails) s = .next s' ∧
      (s'.comb c).svc = (if s'.lanes.combIsolated.contains c = true then .isolated else if 3 ≤ (s.comb c).faults then .outUntilStart else .inService) ∧
      (s'.comb c).suspended = false ∧ (s'.comb c).rest = false ∧ (s'.comb c).seeded = false ∧ (s'.comb c).idleSince = max s.now t ∧
      (s'.comb c).shelves = ((s.comb c).shelves.filter fun r => !r.isCached).map (fun r => { r with refs := [] }) ∧
      (∀ k, combOf k = c → Zeroed (s'.cell k)) ∧ (∀ r ∈ (s.comb c).reserved, (s'.cell r.1).lastTen = some r.2.1 ∧ (r.1, r.2.1, true) ∈ (s'.comb c).reserved) ∧
      (∀ k, combOf k ≠ c → s'.cell k = s.cell k) ∧ s'.segs = s.segs ∧ s'.dram = s.dram)

/-- After a command at waggle time t, an uncorrectable error at a DPA has been counted and logged for a tenant (R44, R349, R351); what its ARG1 holds is open. -/
def UeLogged (s s' : State) (t ten dpa : Nat) : Prop :=
  ∃ v, s'.log = ({ s.log with dramUe := capAt 0xFFFF (s.log.dramUe + 1) } : Log).add
    { type := Rec.dramUe, flags := 0, ten := ten, source := (stackOf s.dram.localGib dpa).1, waggle := max s.now t, arg0 := dpa, arg1 := v }

/-- Rings have their own keys and commands on a ring their own numbers. -/
def RingsNamed (s : State) : Prop := (s.rings.map (·.1)).Nodup ∧ ∀ r ∈ s.rings, (r.2.cmds.map (·.seq)).Nodup

/-- Between s and s', exactly those started EVALs of a tenant that p picks have failed with ST_MEMORY_UNCORRECTABLE; no other tenant's ring has changed. -/
def EvalsFail (s s' : State) (ten : Nat) (p : Eval → Prop) : Prop :=
  (∀ l q c v, l < 256 → s.cmd? ten l q = some c → c.phase = .started → c.eval = some v → p v →
    ∃ v', evalOf s' ten l q = some v' ∧ v'.failed = some (v.failed.getD (St.memoryUncorrectable, 0)) ∧ v'.attempt = none ∧ v'.sends = []) ∧
  (∀ l q, l < 256 → (∀ c v, s.cmd? ten l q = some c → c.phase = .started → c.eval = some v → ¬ p v) → evalOf s' ten l q = evalOf s ten l q) ∧
  (∀ k, k / 256 ≠ ten → Tbl.look s'.rings k = Tbl.look s.rings k)

/-- No object of tenant k has changed. -/
def SameObjects (s s' : State) (k : Nat) : Prop := ∃ v, s'.ten k = { s.ten k with view := v }

/-- A generation in a DRAM object is marked damaged. -/
def markDamaged (id : Nat) (g : Nat × Gen) : Nat × Gen := (g.1, if g.2.obj = id then { g.2 with damaged := true } else g.2)

/-- What an uncorrectable error does to the object that it hits (R349). -/
def ObjectHit (s s' : State) (id : Nat) (o : DramObj) : Prop :=
  (∀ k, k ≠ o.ten → SameObjects s s' k) ∧
  match o.kind with
  | .arena => SameObjects s s' o.ten ∧ s'.rings = s.rings ∧ s'.segs = s.segs
  | .keyset => (∃ v ks, s'.ten o.ten = { s.ten o.ten with keysets := ks, view := v } ∧
      ∀ k, Tbl.look ks k = (Tbl.look (s.ten o.ten).keysets k).map fun x => if x.obj = id then { x with invalid := true } else x) ∧
      EvalsFail s s' o.ten fun v => ∃ x, (v.keyset, x) ∈ (s.ten o.ten).keysets ∧ x.obj = id
  | .weights => (∃ v ms, s'.ten o.ten = { s.ten o.ten with models := ms, view := v } ∧
      ∀ k, Tbl.look ms k = (Tbl.look (s.ten o.ten).models k).map fun m => { m with gens := m.gens.map (markDamaged id), loading := m.loading.map (markDamaged id) }) ∧
      EvalsFail s s' o.ten fun v => ∃ m g, (v.model, m) ∈ (s.ten o.ten).models ∧ (v.gen, g) ∈ m.gens ∧ g.obj = id
  | .gateway => (∃ v gs, s'.ten o.ten = { s.ten o.ten with gwSlots := gs, view := v } ∧
      ∀ k, Tbl.look gs k = (Tbl.look (s.ten o.ten).gwSlots k).map fun g => if g.obj = id then { g with invalid := true } else g) ∧ s'.rings = s.rings ∧ s'.segs = s.segs

/-- The blocks that are poisoned after a command are those poisoned before and the listed ones; no byte, object or page changes. -/
def Poisons (s s' : State) (bs : List Nat) : Prop :=
  (∀ b, b ∈ s'.dram.poison ↔ b ∈ bs ∨ b ∈ s.dram.poison) ∧ s'.dram = { s.dram with poison := s'.dram.poison }

/-- The object whose pages hold a DPA. -/
def Holds (s : State) (dpa id : Nat) (o : DramObj) : Prop := (s.dram.objs.find? fun o => inExtents o.2.extents (dpa / pageBytes)) = some (id, o)

/-- DRAM_CORRECTED: counted and logged, nothing else. DRAM_UNCORRECTABLE in a block: counted and logged for its owner; the block is poisoned and no byte changes; hit keys are invalidated and hit generations, ready or loading, are damaged, failing exactly the EVALs that use them with ST_MEMORY_UNCORRECTABLE; a gateway object's slot is invalidated; an arena only holds the poisoned block; free memory is logged only. A page-table error in one copy is logged only; in both, the object it maps is hit at all 64 blocks. A parked EVAL whose state is hit fails; a gateway or key slot hit is invalidated. SHELF_UNCORRECTABLE changes nothing. PATROL_SCRUB treats a bad block as such a hit. FREED_PAGE_SCRUB_DONE: the freed pages read as zero, their poison is gone, every other byte stays, none waits to be scrubbed. (R44, R113, R348, R349, R350, R351.) -/
def Obligations.MemoryErrors : Prop :=
  (∀ (t dpa : Nat) (s : State), s.power.off = false → dpa < dramPages * pageBytes →
    ∃ s', exec (.dramCorrected t dpa) s = .next s' ∧ s' = { s with now := max s.now t, log := s'.log } ∧
      s'.log = ({ s.log with dramCe := capAt 0xFFFF (s.log.dramCe + 1) } : Log).add
        { type := Rec.dramCe, flags := 0, ten := 0xFFFF, source := (stackOf s.dram.localGib dpa).1, waggle := max s.now t, arg0 := dpa, arg1 := 0 }) ∧
  (∀ (t dpa id : Nat) (o : DramObj) (s : State), s.power.off = false → RingsNamed s → dpa < dramPages * pageBytes → Holds s dpa id o →
    ∃ s', exec (.dramUncorrectable t (.block dpa)) s = .next s' ∧ UeLogged s s' t o.ten dpa ∧ Poisons s s' [dpa / 64] ∧ ObjectHit s s' id o) ∧
  (∀ (t dpa : Nat) (s : State), s.power.off = false → dpa < dramPages * pageBytes → (∀ id o, ¬ Holds s dpa id o) →
    ∃ s', exec (.dramUncorrectable t (.block dpa)) s = .next s' ∧ UeLogged s s' t 0xFFFF dpa ∧ s' = { s with now := max s.now t, free := s.free + 1, log := s'.log }) ∧
  (∀ (t ten page id : Nat) (o : DramObj) (s : State), s.power.off = false → RingsNamed s → s.dram.mapped ten (page * pageBytes) = some (id, o) →
    let dpa := (o.dpa (page * pageBytes - o.dva)).getD 0
    (∃ s', exec (.dramUncorrectable t (.pageTable ten page false)) s = .next s' ∧ UeLogged s s' t ten dpa ∧ (∀ k, SameObjects s s' k) ∧
      s' = { s with now := max s.now t, free := s.free + 1, log := s'.log, tenants := s'.tenants }) ∧
    (∃ s', exec (.dramUncorrectable t (.pageTable ten page true)) s = .next s' ∧ UeLogged s s' t ten dpa ∧
      Poisons s s' ((List.range 64).map fun i => dpa / pageBytes * 64 + i) ∧ ObjectHit s s' id o)) ∧
  (∀ (t ten l q : Nat) (c : Cmd) (v : Eval) (s : State), s.power.off = false → s.cmd? ten l q = some c → c.eval = some v → v.attempt.isSome = true →
    ∃ s' dpa, exec (.dramUncorrectable t (.parked ten l q)) s = .next s' ∧ FailsEval s s' ten l q v (St.memoryUncorrectable, 0) ∧ UeLogged s s' t ten dpa) ∧
  (∀ (t ten slot : Nat) (s : State), s.power.off = false →
    (∃ s' dpa v gs, exec (.dramUncorrectable t (.gatewaySlot ten slot)) s = .next s' ∧ UeLogged s s' t ten dpa ∧ (∀ k, k ≠ ten → SameObjects s s' k) ∧
      s'.ten ten = { s.ten ten with gwSlots := gs, view := v } ∧ (∀ k, k ≠ slot → Tbl.look gs k = Tbl.look (s.ten ten).gwSlots k) ∧
      Tbl.look gs slot = (Tbl.look (s.ten ten).gwSlots slot).map (fun g => { g with invalid := true })) ∧
    (∃ s' dpa v ks, exec (.dramUncorrectable t (.keySlot ten slot)) s = .next s' ∧ UeLogged s s' t ten dpa ∧ (∀ k, k ≠ ten → SameObjects s s' k) ∧
      s'.ten ten = { s.ten ten with keySlots := ks, view := v } ∧ (∀ k, k ≠ slot → Tbl.look ks k = Tbl.look (s.ten ten).keySlots k) ∧
      Tbl.look ks slot = (Tbl.look (s.ten ten).keySlots slot).map (fun g => { g with invalid := true }))) ∧
  (∀ (t comb shelf : Nat) (s : State), s.power.off = false → ∃ s', exec (.shelfUncorrectable t comb shelf) s = .next s' ∧ OnlyTime s s' t) ∧
  (∀ (t dpa : Nat) (s : State), s.power.off = false →
    exec (.patrolScrub t [dpa]) s = exec (.dramUncorrectable t (.block dpa)) s ∧ ∃ s', exec (.patrolScrub t []) s = .next s' ∧ OnlyTime s s' t) ∧
  (∀ (t : Nat) (s : State), s.power.off = false → MemOk s →
    ∃ s', exec (.freedPageScrubDone t) s = .next s' ∧ s' = { s with now := max s.now t, dram := s'.dram } ∧ s'.dram.dirty = [] ∧ s'.dram.objs = s.dram.objs ∧
      (∀ a, s'.dram.byte a = if inExtents s.dram.dirty (a / pageBytes) = true then 0#8 else s.dram.byte a) ∧
      (∀ b, b ∈ s'.dram.poison ↔ b ∈ s.dram.poison ∧ inExtents s.dram.dirty (b * 64 / pageBytes) = false))

/-- The repetition count test fails on one more sample: it makes the 55th identical one in a row (R289). -/
def RepeatsTooLong (e : Entropy) (x : Byte) : Prop := 55 ≤ (if e.last = some x then e.runLen + 1 else 1)

/-- The adaptive proportion test fails on one more sample: it is the 855th equal to the first of its window (R289). -/
def ProportionTooHigh (e : Entropy) (x : Byte) : Prop := 855 ≤ (if e.winCount = 0 then 1 else if e.winFirst = x then e.winRepeats + 1 else e.winRepeats)

/-- ENTROPY_SAMPLE of a source that has not failed, both tests passed: 0.375 bits more, to 384 at most, and the start-up test has passed after 1,024 samples; nothing else is marked. A test failed: the credit is zero, each failed test has its event and one more in its count, the start-up test begins again, and the source has failed after 16 failures within a second or the third failure of the start-up test. A failed source takes no sample. DRBG_SEEDED with a full pool past the start-up test: seeded at this waggle time, the pool spent. DRBG_RESEED of a reseed that waits, with a full pool: no request counted, no reseed waiting; with a failed source it changes nothing. NOISE_RESEED of a powered comb whose seed is missing, 1 s old or 2^30 bytes used, when the DRBG can serve: one request and a fresh seed, no other comb changed. EPH_KEY_EXPIRE at its time removes exactly that key; before, nothing. (R262, R275, R289, R290, R291, R293.) -/
def Obligations.EntropyAndSeeds : Prop :=
  (∀ (t : Nat) (x : Byte) (s : State), s.power.off = false →
    let e := s.entropy
    ∃ s', exec (.entropySample t x) s = .next s' ∧ s' = { s with now := max s.now t, entropy := s'.entropy } ∧
      (e.failed = true → s'.entropy = e) ∧
      (e.failed = false → ¬ RepeatsTooLong e x → ¬ ProportionTooHigh e x →
        s'.entropy.poolMilli = min 384000 (e.poolMilli + 375) ∧ s'.entropy.last = some x ∧
        s'.entropy.runLen = (if e.last = some x then e.runLen + 1 else 1) ∧
        s'.entropy.startupOk = (e.startupOk || decide (1024 ≤ e.startupCount + 1)) ∧
        s'.entropy = { e with poolMilli := s'.entropy.poolMilli, startupOk := s'.entropy.startupOk, startupCount := s'.entropy.startupCount, startupFails := s'.entropy.startupFails, last := s'.entropy.last, runLen := s'.entropy.runLen, winFirst := s'.entropy.winFirst, winCount := s'.entropy.winCount, winRepeats := s'.entropy.winRepeats }) ∧
      (e.failed = false → RepeatsTooLong e x ∨ ProportionTooHigh e x →
        s'.entropy.poolMilli = 0 ∧ s'.entropy.startupCount = 0 ∧ (e.startupOk = false → s'.entropy.evStartup = true) ∧
        (s'.entropy.evRct = true ↔ e.evRct = true ∨ RepeatsTooLong e x) ∧ (s'.entropy.evApt = true ↔ e.evApt = true ∨ ProportionTooHigh e x) ∧
        (RepeatsTooLong e x → s'.entropy.rctFails = capAt 0xFFFF (e.rctFails + 1)) ∧ (ProportionTooHigh e x → s'.entropy.aptFails = capAt 0xFFFF (e.aptFails + 1)) ∧
        (s'.entropy.failed = true ↔ 15 ≤ (e.failTimes.filter fun f => decide (max s.now t < f + 1000000000)).length ∨ (e.startupOk = false ∧ 2 ≤ e.startupFails)) ∧
        s'.entropy.seeded = e.seeded ∧ s'.entropy.requests = e.requests ∧ s'.entropy.reseeding = e.reseeding)) ∧
  (∀ (t : Nat) (s : State), s.power.off = false → s.entropy.failed = false → 384000 ≤ s.entropy.poolMilli →
    (s.entropy.seeded = false → s.entropy.startupOk = true → exec (.drbgSeeded t) s = .next { s with now := max s.now t, entropy := { s.entropy with seeded := true, seedTime := max s.now t, poolMilli := 0, requests := 0, reseeding := false } }) ∧
    (s.entropy.seeded = true → s.entropy.reseeding = true → exec (.drbgReseed t) s = .next { s with now := max s.now t, entropy := { s.entropy with poolMilli := 0, requests := 0, reseeding := false } })) ∧
  (∀ (t : Nat) (s : State), s.power.off = false → s.entropy.failed = true → ∃ s', exec (.drbgReseed t) s = .next s' ∧ OnlyTime s s' t) ∧
  (∀ (t c : Nat) (s : State), s.power.off = false → c < 4 → s.power.phase = .ready → s.entropy.seeded = true → s.entropy.reseeding = false →
    (s.comb c).seeded = false ∨ 2 ^ 30 ≤ (s.comb c).drawn ∨ (s.comb c).seededAt + 1000000000 ≤ max s.now t →
    ∃ s', exec (.noiseReseed t c) s = .next s' ∧
      s' = { s with now := max s.now t, draws := s.draws + 1, entropy := { s.entropy with requests := s.entropy.requests + 1, reseeding := decide (2 ^ 20 ≤ s.entropy.requests + 1) }, combs := s'.combs } ∧
      s'.comb c = { s.comb c with seeded := true, seededAt := max s.now t, drawn := 0 } ∧ SameBut c s'.combs s.combs) ∧
  (∀ (t ten id : Nat) (s : State), s.power.off = false →
    ∃ s', exec (.ephKeyExpire t ten id) s = .next s' ∧ OnlyTenant s s' t ten ∧ s'.ten ten = { s.ten ten with ephs := (s'.ten ten).ephs } ∧
      ∀ k, k ∈ (s'.ten ten).ephs ↔ k ∈ (s.ten ten).ephs ∧ ¬ (k.id = id ∧ k.expires ≤ max s.now t))

/-- A port in a state without keys since waggle time n: what it was to send and what was not acknowledged waits, its counts stay (R311). -/
def keyless (p : Port) (st : LinkState) (n : Nat) : Port :=
  { Port.fresh with state := st, since := n, peerId := p.peerId, tagFails := p.tagFails, rekeys := p.rekeys, light := p.light, queue := (p.unacked ++ p.queue).filter fun f => f.kind == .relayed }

/-- What a port's peer advertised is gone; a device whose parent it was has none any more (R321, R323). -/
def withoutAdvert (w : Waggle) (port n : Nat) : Waggle :=
  if w.parent = some port then { w with adverts := Tbl.del w.adverts port, parent := none, noParentAt := some n, offsets := [], inBound := 0 } else { w with adverts := Tbl.del w.adverts port }

/-- After a command at waggle time t nothing has changed but one port, which is now p, its advertisement, and the events of the fabric. -/
def PortGoes (s s' : State) (t port : Nat) (p : Port) (quarantined exhausted retrained : Bool) : Prop :=
  s'.port port = p ∧ SameBut port s'.fabric.ports s.fabric.ports ∧
    s' = { s with now := max s.now t, waggle := withoutAdvert s.waggle port (max s.now t), fabric := { s.fabric with ports := s'.fabric.ports, evQuarantined := s.fabric.evQuarantined || quarantined, evExhausted := s.fabric.evExhausted || exhausted, evRetrained := s.fabric.evRetrained || retrained } }

/-- A dark port trains once it has light, a listed peer and no hold, no retry to wait for, on a READY device out of Deep rest whose edge die is not cut off (R311, R299, R53, R368). -/
def Trains (s : State) (port : Nat) : Prop :=
  (s.portSet port).holdDark = false ∧ (∃ c, s.settings.swarm = some c ∧ (c.peer port).isSome = true) ∧ s.power.phase = .ready ∧ s.power.pf ≠ .deepRest ∧
    s.lanes.edgeIsolated.contains (port / 16) = false

/-- The frames in which a port sends its descriptor and the device's certificates. -/
def attestationFrames (s : State) (port : Nat) (d : List Byte) : List Out := (s.linkFrames port 5 4 (d ++ deviceCerts)).map fun f => .frame port (f.1 ++ f.2)

/-- After a command at waggle time t one port, which was p but for its attestation, attests: it has drawn a key and a nonce and sent the descriptor of this device with them and the certificates (R312). -/
def Attests (s s' : State) (t port : Nat) (p : Port) (w : Waggle) : Prop :=
  ∃ c priv nonce, s.settings.swarm = some c ∧ s'.port port = { p with ourPriv := priv, ourDesc := ({ s with now := max s.now t } : State).descriptor c port false priv nonce, peerNonce := [] } ∧
    s'.out = (attestationFrames s port (s'.port port).ourDesc).reverse ++ s.out ∧ SameBut port s'.fabric.ports s.fabric.ports ∧
    s' = { s with now := max s.now t, draws := s.draws + 2, out := s'.out, entropy := s'.entropy, waggle := w, fabric := { s.fabric with ports := s'.fabric.ports } }

/-- With light a dark port that is configured, not held and free to train goes to TRAINING; another only notes the light. A retry that is due does the same. LANE_LOCK goes to ATTESTING, and the attestation is sent at once where the DRBG serves. After 100 ms TRAINING falls back to DARK with a retry 1 s later; after 500 ms ATTESTING, and after 100 ms KEYED, fall back to TRAINING; loss of light goes to DARK. In KEYED an authentic KEY_CONFIRM of the expected counter makes the link LIVE, and one that fails its tag is counted and goes to TRAINING. More than 64 tag failures in 1 ms: TRAINING, with its event. 2^44 frames under a key: QUARANTINED, KEY_EXHAUSTED, with its event. A quarantined link attests again after 1 s where its key was exhausted, else every 10 s, staying quarantined. Every loss of a state with keys erases the keys and the peer's advertisement; nothing else changes. (R302, R306, R311, R312, R314, R316, R317, R321, R323, R292.) -/
def Obligations.LinkStates : Prop :=
  (∀ (t port : Nat) (s : State), s.power.off = false → port < 32 →
    let p := { s.port port with light := true }
    (p.state = .dark → p.retryAt = none → Trains s port → ∃ s', exec (.linkLightDetect t port) s = .next s' ∧ PortGoes s s' t port (keyless p .training (max s.now t)) false false false) ∧
    (p.state ≠ .dark ∨ p.retryAt ≠ none ∨ (s.portSet port).holdDark = true ∨ s.settings.swarm = none ∨ s.power.phase ≠ .ready →
      ∃ s', exec (.linkLightDetect t port) s = .next s' ∧ OnlyPort s s' t port ∧ s'.port port = p)) ∧
  (∀ (t port : Nat) (s : State), s.power.off = false → (s.port port).state = .training →
    let p := keyless (s.port port) .attesting (max s.now t)
    (s.canServe = true → s.settings.swarm ≠ none → ∃ s', exec (.laneLock t port) s = .next s' ∧ Attests s s' t port p (withoutAdvert s.waggle port (max s.now t))) ∧
    (s.canServe = false → ∃ s', exec (.laneLock t port) s = .next s' ∧ PortGoes s s' t port p false false false)) ∧
  (∀ (t port : Nat) (s : State), s.power.off = false →
    let n := max s.now t
    ((s.port port).state = .training → (s.port port).since + 100000000 ≤ n →
      ∃ s', exec (.trainingTimeout t port) s = .next s' ∧ PortGoes s s' t port { keyless (s.port port) .dark n with retryAt := some (n + 1000000000) } false false false) ∧
    ((s.port port).state = .training → n < (s.port port).since + 100000000 → ∃ s', exec (.trainingTimeout t port) s = .next s' ∧ OnlyTime s s' t) ∧
    (∀ r, (s.port port).retryAt = some r → r ≤ n → (s.port port).state = .dark → (s.port port).light = true → Trains s port →
      ∃ s', exec (.trainingRetry t port) s = .next s' ∧ PortGoes s s' t port (keyless (s.port port) .training n) false false false) ∧
    (∀ r, (s.port port).retryAt = some r → n < r → ∃ s', exec (.trainingRetry t port) s = .next s' ∧ OnlyTime s s' t) ∧
    ((s.port port).light = true → ∃ s', exec (.lightLoss t port) s = .next s' ∧ PortGoes s s' t port { keyless (s.port port) .dark n with light := false } false false false) ∧
    ((s.port port).state = .attesting → (s.port port).since + 500000000 ≤ n → ∃ s', exec (.attestTimeout t port) s = .next s' ∧ PortGoes s s' t port (keyless (s.port port) .training n) false false false) ∧
    ((s.port port).state = .keyed → (s.port port).since + 100000000 ≤ n → ∃ s', exec (.keyConfirmTimeout t port) s = .next s' ∧ PortGoes s s' t port (keyless (s.port port) .training n) false false false) ∧
    (64 < ((s.port port).tagTimes.filter fun x => decide (n < x + 1000000)).length → ∃ s', exec (.tagFailureLimit t port) s = .next s' ∧ PortGoes s s' t port (keyless (s.port port) .training n) false false true) ∧
    ((s.port port).state = .live ∨ (s.port port).state = .quarantined ∧ (s.port port).mgmtOnly = true → 2 ^ 44 ≤ (s.port port).txCounter ∨ 2 ^ 44 ≤ (s.port port).rxCounter →
      ∃ s', exec (.keyExhausted t port) s = .next s' ∧ PortGoes s s' t port { keyless (s.port port) .quarantined n with reason := 7 } ((s.port port).state != .quarantined) true false)) ∧
  (∀ (t port : Nat) (frame : List Byte) (c : SwarmCfg) (k : DirKey) (s : State), s.power.off = false → s.settings.swarm = some c → (s.port port).state = .keyed → (s.port port).rx = some k →
    (∀ b, openFrame k frame = some b → byteAt frame 2 % 2 = (s.port port).rxPhase → fld frame 8 8 = (s.port port).rxCounter →
      ∃ s', exec (.keyConfirmReceive t port frame) s = .next s' ∧ OnlyPort s s' t port ∧
        s'.port port = { s.port port with state := .live, since := max s.now t, rxCounter := (s.port port).rxCounter + 1 }) ∧
    (openFrame k frame = none → ∃ s', exec (.keyConfirmReceive t port frame) s = .next s' ∧
      PortGoes s s' t port (keyless { s.port port with tagFails := capAt 0xFFFF ((s.port port).tagFails + 1) } .training (max s.now t)) false false false)) ∧
  (∀ (t port : Nat) (s : State), s.power.off = false → (s.port port).state = .quarantined →
    let n := max s.now t
    ((s.port port).reason = 7 → (s.port port).since + 1000000000 ≤ n →
      (s.canServe = true → s.settings.swarm ≠ none → ∃ s', exec (.quarantineReattest t port) s = .next s' ∧ Attests s s' t port (keyless (s.port port) .attesting n) (withoutAdvert s.waggle port n)) ∧
      (s.canServe = false → ∃ s', exec (.quarantineReattest t port) s = .next s' ∧ PortGoes s s' t port (keyless (s.port port) .attesting n) false false false)) ∧
    ((s.port port).reason ≠ 7 → (s.port port).since + 10000000000 ≤ n →
      let p := { s.port port with ourDesc := [], ourPriv := 0, peerNonce := [], since := n }
      (s.canServe = true → s.settings.swarm ≠ none → ∃ s', exec (.quarantineReattest t port) s = .next s' ∧ Attests s s' t port p s.waggle) ∧
      (s.canServe = false → ∃ s', exec (.quarantineReattest t port) s = .next s' ∧ OnlyPort s s' t port ∧ s'.port port = p)))

/-- The first check of R313 holds: a descriptor of the right form, certificates and signatures that verify over it and this side's nonce, and a point on the curve. -/
def Authentic (ours d certs sigs : List Byte) : Prop :=
  d.length = 320 ∧ d.take 4 = toLE 4 0x4457534C ∧ byteAt d 4 = 1 ∧ Config.peerAttests certs (d ++ slice ours 0xE0 32) sigs = true ∧ (p384.xyPoint (slice d 0x80 96)).isSome = true

/-- The peer is the one that the wiring expects at this port (R298, R313). -/
def RightPeer (c : SwarmCfg) (port : Nat) (d : List Byte) : Prop := c.serials[fld d 6 2]? = some (fld d 8 8) ∧ c.peer port = some (fld d 6 2, byteAt d 0x1A)

/-- The REASON with which R313 judges an attestation, 0 where every check holds: the first that fails decides. -/
def ReasonOf (s : State) (c : SwarmCfg) (port : Nat) (ours d certs sigs : List Byte) (r : Nat) : Prop :=
  (¬ Authentic ours d certs sigs → r = 6) ∧
  (Authentic ours d certs sigs → (¬ RightPeer c port d → r = 5) ∧
    (RightPeer c port d → r = if fld d 0x10 8 ≠ c.swarmId then 3 else if slice d 0x50 48 ≠ c.digest then 2 else if slice d 0x20 48 ≠ s.fwDigest then 1 else if fld d 0x18 2 ≠ s.waggleEpoch then 4 else 0))

/-- A frame under a key with its COUNTER and KEY_PHASE: header, ciphertext, tag (R307, R315). -/
def sealedFrame (k : DirKey) (counter phase : Nat) (h body : List Byte) : List Byte :=
  stamp h counter phase ++ (gcmEncrypt k.key (k.salt ++ toLE 8 counter) (stamp h counter phase) body).1 ++ (gcmEncrypt k.key (k.salt ++ toLE 8 counter) (stamp h counter phase) body).2

/-- After a command at waggle time t, nothing has changed but one port, with its advertisement, what was sent and drawn, and that a link was quarantined. -/
def LinkJudged (s s' : State) (t port : Nat) (quarantined : Bool) : Prop :=
  SameBut port s'.fabric.ports s.fabric.ports ∧
    s' = { s with now := max s.now t, free := s'.free, draws := s'.draws, out := s'.out, entropy := s'.entropy, waggle := withoutAdvert s.waggle port (max s.now t), fabric := { s.fabric with ports := s'.fabric.ports, evQuarantined := s.fabric.evQuarantined || quarantined } }

/-- A port, which was p, after the verdict r on the descriptor d: KEYED with both keys and its KEY_CONFIRM sent; quarantined without keys; or quarantined with keys for the management channel (R311 to R317). -/
def Verdict (s s' : State) (t port r : Nat) (p : Port) (d : List Byte) : Prop :=
  let k := linkKeys p.ourPriv p.ourDesc d
  LinkJudged s s' t port (decide (r ≠ 0) && p.state != .quarantined) ∧
  (r = 0 → s'.port port = { keyless p .keyed (max s.now t) with tx := some k.1, rx := some k.2, keyedAt := max s.now t, peerId := fld d 6 2, txCounter := 1 } ∧
    ∃ body l, s'.out = .frame port (sealedFrame k.1 0 0 (s.linkHeader port 3 4 body.length 0) body) :: l ++ s.out) ∧
  (r = 5 ∨ r = 6 → s'.port port = { keyless p .quarantined (max s.now t) with reason := r }) ∧
  (1 ≤ r → r ≤ 4 → s'.port port = { keyless p .quarantined (max s.now t) with reason := r, tx := some k.1, rx := some k.2, keyedAt := max s.now t, peerId := fld d 6 2, mgmtOnly := true })

/-- The management frames that carry a rekey's descriptor. -/
def rekeyFrames (s : State) (port : Nat) (d : List Byte) : List QFrame :=
  (s.linkFrames port 3 4 (d ++ deviceCerts)).map fun f => { vc := 4, kind := .linkOnly, via := none, header := f.1, payload := f.2 }

/-- A port that has drawn the descriptor D for a rekey and queued it. -/
def withRekey (s : State) (port priv : Nat) (D : List Byte) (p : Port) : Port := { p with ourPriv := priv, ourDesc := D, peerNonce := [], queue := p.queue ++ rekeyFrames s port D }

/-- The verdict on a rekey's descriptor d at a port, which is p with this side's descriptor: the next keys and a KEY_CONFIRM wait in its queue, or it is quarantined (R316). -/
def RekeyVerdict (s s' : State) (t port r : Nat) (p : Port) (d : List Byte) : Prop :=
  let k := linkKeys p.ourPriv p.ourDesc d
  (r = 0 → SameBut port s'.fabric.ports s.fabric.ports ∧
    s' = { s with now := max s.now t, free := s.free + 1, draws := s'.draws, entropy := s'.entropy, fabric := { s.fabric with ports := s'.fabric.ports } } ∧
    ∃ body, s'.port port = { p with nextTx := some k.1, nextRx := some k.2, ourDesc := [], ourPriv := 0, peerNonce := [], queue := p.queue ++ [{ vc := 4, kind := .confirm, via := none, header := s.linkHeader port 3 4 body.length 0, payload := body }] }) ∧
  (r ≠ 0 → Verdict s s' t port r p d)

/-- After a command at waggle time t a port, which was p, has begun a rekey: with a fresh descriptor where the DRBG serves. -/
def RekeyBegins (s s' : State) (t port : Nat) (c : SwarmCfg) (p : Port) : Prop :=
  SameBut port s'.fabric.ports s.fabric.ports ∧ s' = { s with now := max s.now t, draws := s'.draws, entropy := s'.entropy, fabric := { s.fabric with ports := s'.fabric.ports } } ∧
    (s.canServe = true → ∃ priv nonce, s'.port port = withRekey s port priv (({ s with now := max s.now t } : State).descriptor c port true priv nonce) { p with rekeying := some (max s.now t) }) ∧
    (s.canServe = false → s'.port port = { p with rekeying := some (max s.now t) })

/-- Every link under a configuration that has just come into force (R299, R302). -/
def Relinked (s s' : State) (c : SwarmCfg) : Prop :=
  ∀ p, p < 32 → ((s.port p).state ≠ .dark → c.peer p = none → (s'.port p).state = .dark) ∧
    ((s.port p).state ≠ .dark → c.peer p ≠ none → (s'.port p).state = .attesting ∧ (s'.port p).tx = none ∧ (s'.port p).rx = none) ∧
    ((s.port p).state = .dark → (s'.port p).state = .dark ∨ (s'.port p).state = .training)

/-- A whole attestation, at an attesting or quarantined link that has sent its own: KEYED under the derived keys, with a KEY_CONFIRM sent; quarantined without keys for WIRING or ATTEST; quarantined with keys for a mismatch, the first that fails giving the REASON. On a LIVE link a rekey's descriptor is judged alike, this side answering with its own first: the next keys and a KEY_CONFIRM wait, or the link is quarantined. REKEY_TRIGGER at 2^40 frames or 3,600 s, by the lower id, and REKEY_RETRY 100 ms later, send a fresh descriptor. SWARM_CONFIG_LOAD on a READY device: an unreadable or refused configuration leaves the one in force with a RESULT of 2 to 5; an accepted one is in force and saved, with RESULT 1, its own serial listed, every link attesting under it or dark without a peer. Before READY the load waits. (R298, R300, R301, R302, R311, R312, R313, R314, R315, R316, R317, R292.) -/
def Obligations.AttestationAndKeys : Prop :=
  (∀ (t port : Nat) (d certs sigs : List Byte) (c : SwarmCfg) (r : Nat) (s : State), s.power.off = false → s.settings.swarm = some c →
    (s.port port).state = .attesting ∨ (s.port port).state = .quarantined → (s.port port).ourDesc ≠ [] →
    ReasonOf { s with now := max s.now t } c port (s.port port).ourDesc d certs sigs r →
    ∃ s', exec (.attestationReceive t port d certs sigs) s = .next s' ∧ Verdict s s' t port r (s.port port) d) ∧
  (∀ (t port : Nat) (d certs sigs : List Byte) (c : SwarmCfg) (s : State), s.power.off = false → s.settings.swarm = some c → (s.port port).state = .live → bitOf (byteAt d 5) 0 = true →
    (∀ r, (s.port port).ourDesc ≠ [] → ReasonOf { s with now := max s.now t } c port (s.port port).ourDesc d certs sigs r →
      ∃ s', exec (.attestationReceive t port d certs sigs) s = .next s' ∧ RekeyVerdict s s' t port r (s.port port) d) ∧
    ((s.port port).ourDesc = [] → s.canServe = true →
      ∃ s' priv nonce, exec (.attestationReceive t port d certs sigs) s = .next s' ∧ ∀ r,
        ReasonOf { s with now := max s.now t } c port (({ s with now := max s.now t } : State).descriptor c port true priv nonce) d certs sigs r →
        RekeyVerdict s s' t port r (withRekey s port priv (({ s with now := max s.now t } : State).descriptor c port true priv nonce) (s.port port)) d)) ∧
  (∀ (t port : Nat) (c : SwarmCfg) (s : State), s.power.off = false → s.settings.swarm = some c → (s.port port).state = .live → (s.port port).nextTx = none → (s.port port).nextRx = none →
    ((s.port port).rekeying = none → c.deviceId < (s.port port).peerId → 2 ^ 40 ≤ (s.port port).txCounter ∨ 2 ^ 40 ≤ (s.port port).rxCounter ∨ (s.port port).keyedAt + 3600000000000 ≤ max s.now t →
      ∃ s', exec (.rekeyTrigger t port) s = .next s' ∧ RekeyBegins s s' t port c (s.port port)) ∧
    (∀ r, (s.port port).rekeying = some r → r + 100000000 ≤ max s.now t → ∃ s', exec (.rekeyRetry t port) s = .next s' ∧ RekeyBegins s s' t port c (s.port port))) ∧
  (∀ (t : Nat) (h : HostView) (s : State), s.power.off = false →
    (s.power.phase = .ready → hostRead h 0 s.fabric.cfgAddr s.fabric.cfgLen = none →
      ∃ s', exec (.swarmConfigLoad t h) s = .next s' ∧ s' = { s with now := max s.now t, fabric := { s.fabric with result := 2, busy := false } }) ∧
    (∀ b r, s.power.phase = .ready → hostRead h 0 s.fabric.cfgAddr s.fabric.cfgLen = some b → parseSwarm s.fuses.serial b = .error r →
      3 ≤ r ∧ r ≤ 5 ∧ ∃ s', exec (.swarmConfigLoad t h) s = .next s' ∧ s' = { s with now := max s.now t, fabric := { s.fabric with result := r, busy := false } }) ∧
    (∀ b c, s.power.phase = .ready → hostRead h 0 s.fabric.cfgAddr s.fabric.cfgLen = some b → parseSwarm s.fuses.serial b = .ok c →
      c.serials[c.deviceId]? = some s.fuses.serial ∧ c.digest = sha384 b ∧
      ∃ s', exec (.swarmConfigLoad t h) s = .next s' ∧ s'.settings = { s.settings with swarm := some c } ∧ s'.fw = ({ s with now := max s.now t, settings := s'.settings } : State).saveSettings.fw ∧
        s'.fabric = { s.fabric with ports := s'.fabric.ports, result := 1, busy := false } ∧ Relinked s s' c ∧
        s' = { s with now := max s.now t, settings := s'.settings, fw := s'.fw, fabric := s'.fabric, waggle := s'.waggle, out := s'.out, draws := s'.draws, entropy := s'.entropy }) ∧
    (s.power.phase ≠ .ready → s.power.phase ≠ .rom → s.power.phase ≠ .failed →
      ∃ s', exec (.swarmConfigLoad t h) s = .next s' ∧ s' = { s with now := max s.now t, fabric := { s.fabric with busy := true } }))

/-- Units of 64 bytes that a frame takes of its channel's credit: header, payload and tag (R305). -/
def frameUnits (f : QFrame) : Nat := (f.header.length + f.payload.length + 16 + 63) / 64

/-- A frame may go now: the link carries it and holds the credit for it (R305, R311). -/
def Sendable (p : Port) (f : QFrame) : Prop := (p.state = .live ∨ p.state = .quarantined ∧ p.mgmtOnly = true ∧ f.vc = 4) ∧ frameUnits f ≤ p.credits.getD f.vc 0

/-- The first frame of its channel, which may go. -/
def HeadOf (p : Port) (vc : Nat) (f : QFrame) : Prop := (p.queue.find? fun f => f.vc == vc) = some f ∧ Sendable p f

/-- The frame whose turn it is: frames to be resent in order; else management, then C0, then one of C1 to C3 (R304, R306). -/
def TurnOf (p : Port) (f : QFrame) : Prop :=
  if 0 < p.resend then p.queue.head? = some f ∧ Sendable p f
  else HeadOf p 4 f ∨ (HeadOf p 0 f ∧ ∀ g, ¬ HeadOf p 4 g) ∨ ((HeadOf p 1 f ∨ HeadOf p 2 f ∨ HeadOf p 3 f) ∧ ∀ g, ¬ HeadOf p 4 g ∧ ¬ HeadOf p 0 g)

/-- A port that has sent f: it left the queue, waits for its acknowledgement, and took its credit. -/
def hasSent (p : Port) (f : QFrame) : Port :=
  { p with txCounter := p.txCounter + 1, queue := p.queue.erase f, resend := p.resend - 1, unacked := p.unacked ++ [{ f with via := none }], credits := p.credits.set f.vc (p.credits.getD f.vc 0 - frameUnits f) }

/-- After a command at waggle time t only ports, messages on their way, the log, and what was sent have changed. -/
def OnlyLink (s s' : State) (t : Nat) : Prop :=
  s' = { s with now := max s.now t, free := s'.free, out := s'.out, log := s'.log, nextId := s'.nextId, fabric := { s.fabric with ports := s'.fabric.ports, inbox := s'.fabric.inbox } }

/-- A port, which is p but for its counter, has sent a credit frame under its key k. -/
def Replies (s s' : State) (port : Nat) (k : DirKey) (p : Port) : Prop :=
  s'.port port = { p with txCounter := p.txCounter + 1 } ∧ ∃ body, s'.out = .frame port (sealedFrame k p.txCounter p.keyPhase (s.linkHeader port 2 4 body.length 0) body) :: s.out

/-- A frame at a port that takes sealed frames, in the key phase in use, under keys k to receive and kt to send. -/
def Comes (s : State) (port : Nat) (frame : List Byte) (c : SwarmCfg) (k kt : DirKey) : Prop :=
  s.settings.swarm = some c ∧ byteAt frame 0 ≠ 5 ∧ (s.port port).state = .live ∧ (s.port port).rx = some k ∧ (s.port port).tx = some kt ∧ byteAt frame 2 % 2 = (s.port port).rxPhase

/-- A port that has accepted the frame of a counter. -/
def taken (p : Port) (counter : Nat) : Port := { p with rxCounter := counter + 1, asked := false }

/-- LINK_FRAME_SEND with a key and fewer than 2^44 frames under it: a frame whose turn it is goes out sealed under the counter, takes its credit and waits for its acknowledgement; a rekey's KEY_CONFIRM switches to the next key first; where none may go, nothing changes. LINK_FRAME_RECEIVE on a LIVE link, in the key phase in use: a false tag is counted and a resend asked for; a counter past the next is not accepted and a resend is asked for, unless one was; an old one is dropped; the next one is accepted, and a frame for another device joins the queue of the LIVE port its route names with HOP one higher; a data frame of no declared edge is logged and dropped; one of a declared edge extends its message, whose buffers are freed at once only if it may be admitted. An attestation frame takes the link to ATTESTING, its keys gone. (R303, R304, R305, R306, R307, R309, R310, R311, R315, R316.) -/
def Obligations.LinkFrames : Prop :=
  (∀ (t port : Nat) (k : DirKey) (s : State), s.power.off = false → (s.port port).state ≠ .attesting → (s.port port).txCounter < 2 ^ 44 → (s.port port).tx = some k →
    ((∃ f, TurnOf (s.port port) f) → (∀ f, TurnOf (s.port port) f → f.via = none) →
      ∃ s' f, TurnOf (s.port port) f ∧ exec (.linkFrameSend t port) s = .next s' ∧ OnlyLink s s' t ∧ SameBut port s'.fabric.ports s.fabric.ports ∧ s'.log = s.log ∧ s'.fabric.inbox = s.fabric.inbox ∧
        (f.kind ≠ .confirm ∨ (s.port port).nextTx = none →
          s'.port port = hasSent (s.port port) f ∧ s'.out = .frame port (sealedFrame k (s.port port).txCounter (s.port port).keyPhase f.header f.payload) :: s.out) ∧
        (∀ k2, f.kind = .confirm → (s.port port).nextTx = some k2 →
          let q := { s.port port with tx := some k2, nextTx := none, keyPhase := 1 - (s.port port).keyPhase, txCounter := 0 }
          let q2 := if q.nextRx = none then { q with rekeys := capAt 0xFFFF (q.rekeys + 1), keyedAt := max s.now t, rekeying := none } else q
          s'.port port = hasSent q2 f ∧ s'.out = .frame port (sealedFrame k2 0 q.keyPhase f.header f.payload) :: s.out)) ∧
    ((∀ f, ¬ TurnOf (s.port port) f) → ∃ s', exec (.linkFrameSend t port) s = .next s' ∧ OnlyTime s s' t)) ∧
  (∀ (t port : Nat) (frame : List Byte) (c : SwarmCfg) (k kt : DirKey) (s : State), s.power.off = false → Comes s port frame c k kt →
    let p := s.port port
    let counter := fld frame 8 8
    (openFrame k frame = none → ∃ s', exec (.linkFrameReceive t port frame) s = .next s' ∧ OnlyLink s s' t ∧ SameBut port s'.fabric.ports s.fabric.ports ∧ s'.log = s.log ∧ s'.fabric.inbox = s.fabric.inbox ∧
      Replies s s' port kt { p with tagFails := capAt 0xFFFF (p.tagFails + 1), asked := true, tagTimes := max s.now t :: p.tagTimes.filter fun x => decide (max s.now t < x + 1000000) }) ∧
    (∀ b, openFrame k frame = some b →
      (p.rxCounter < counter → p.asked = false → ∃ s', exec (.linkFrameReceive t port frame) s = .next s' ∧ OnlyLink s s' t ∧ SameBut port s'.fabric.ports s.fabric.ports ∧ s'.log = s.log ∧
        s'.fabric.inbox = s.fabric.inbox ∧ Replies s s' port kt { p with asked := true }) ∧
      (counter < p.rxCounter → ∃ s', exec (.linkFrameReceive t port frame) s = .next s' ∧ s' = { s with now := max s.now t, free := s.free + 1 }) ∧
      (counter = p.rxCounter → byteAt frame 0 = 1 ∨ byteAt frame 0 = 3 → fld frame 6 2 ≠ c.deviceId → byteAt frame 3 < 8 →
        let egress := byteAt frame (0x10 + byteAt frame 3)
        egress < 32 → egress ≠ port → (s.port egress).state = .live →
        ∃ s', exec (.linkFrameReceive t port frame) s = .next s' ∧ OnlyLink s s' t ∧ s'.out = s.out ∧ s'.log = s.log ∧ s'.fabric.inbox = s.fabric.inbox ∧ s'.port port = taken p counter ∧
          (∀ q, q ≠ port → q ≠ egress → s'.port q = s.port q) ∧
          s'.port egress = { s.port egress with queue := (s.port egress).queue ++ [{ vc := byteAt frame 1 % 8, kind := .relayed, via := some port, payload := b, header := (frame.take 48).take 3 ++ toLE 1 (byteAt frame 3 + 1) ++ (frame.take 48).drop 4 }] }) ∧
      (counter = p.rxCounter → byteAt frame 0 = 1 → fld frame 6 2 = c.deviceId →
        ((∀ e ∈ c.edges, ¬ (e.src = fld frame 4 2 ∧ e.dst = c.deviceId ∧ e.cls = byteAt frame 1 % 8 ∧ e.edge = fld frame 0x1A 2)) →
          ∃ s', exec (.linkFrameReceive t port frame) s = .next s' ∧ OnlyLink s s' t ∧ SameBut port s'.fabric.ports s.fabric.ports ∧ s'.fabric.inbox = s.fabric.inbox ∧
            Replies s s' port kt (taken p counter) ∧
            s'.log = s.log.add { type := Rec.fabric, flags := 0, ten := 0xFFFF, source := port, waggle := max s.now t, arg0 := fld frame 4 2, arg1 := fld frame 0x1A 2 }) ∧
        (∀ e, (c.edges.find? fun e => e.src == fld frame 4 2 && e.dst == c.deviceId && e.cls == byteAt frame 1 % 8 && e.edge == fld frame 0x1A 2) = some e →
          let old := s.fabric.inbox.find? fun m => m.same e.ten (fld frame 0x1C 4) e.edge (fld frame 0x20 4) e.src
          let got := (if bitOf (byteAt frame 2) 1 = true then [] else old.elim [] (·.got)) ++ [(fld frame 0x28 8, b)]
          fld frame 0x28 8 + b.length ≤ e.bytes → old.any (·.complete) = false →
          ∃ s' m, exec (.linkFrameReceive t port frame) s = .next s' ∧ OnlyLink s s' t ∧ SameBut port s'.fabric.ports s.fabric.ports ∧ s'.log = s.log ∧
            m ∈ s'.fabric.inbox ∧ m.same e.ten (fld frame 0x1C 4) e.edge (fld frame 0x20 4) e.src = true ∧ m.got = got ∧ (m.complete = true ↔ sumL (got.map fun g => g.2.length) = e.bytes) ∧
            (∀ x, x.id ≠ m.id → (x ∈ s'.fabric.inbox ↔ x ∈ s.fabric.inbox)) ∧
            (s.admitsMsg e.ten (fld frame 0x1C 4) e.edge (fld frame 0x20 4) = true → Replies s s' port kt (taken p counter)) ∧
            (s.admitsMsg e.ten (fld frame 0x1C 4) e.edge (fld frame 0x20 4) = false → s'.port port = taken p counter ∧ s'.out = s.out ∧ port ∈ m.held))))) ∧
  (∀ (t port : Nat) (frame : List Byte) (s : State), s.power.off = false → s.settings.swarm ≠ none → byteAt frame 0 = 5 → (s.port port).state = .live →
    ∃ s', exec (.linkFrameReceive t port frame) s = .next s' ∧ (s'.port port).state = .attesting ∧ (s'.port port).tx = none ∧ (s'.port port).rx = none ∧ SameBut port s'.fabric.ports s.fabric.ports ∧
      s' = { s with now := max s.now t, draws := s'.draws, entropy := s'.entropy, out := s'.out, waggle := s'.waggle, fabric := { s.fabric with ports := s'.fabric.ports } })

/-- A device takes its own id as root (R321): it is established and every root that a SYNCED or ROOT peer advertises is higher, or no peer is established and none has advertised a lower id for 10 ms. -/
def TakesRoot (w : Waggle) (me n : Nat) : Prop :=
  (w.established = true ∧ ∀ x ∈ w.adverts, x.2.state ≠ .unsynced → me < x.2.rootId) ∨ ((∀ x ∈ w.adverts, x.2.established = false) ∧ w.noLowerAt + 10000000 ≤ n)

/-- The waggle of a device that is the root. -/
def asRoot (w : Waggle) (me : Nat) : Waggle :=
  { w with sync := .root, parent := none, rootId := me, hops := 0, offsetNs := 0, offsets := [], inBound := 0, established := true, noParentAt := none }

/-- An advertisement of the lowest root that a SYNCED or ROOT peer advertises. -/
def OfLowestRoot (w : Waggle) (x : Nat × Advert) : Prop :=
  x ∈ w.adverts ∧ x.2.state ≠ .unsynced ∧ ∀ y ∈ w.adverts, y.2.state ≠ .unsynced → x.2.rootId ≤ y.2.rootId

/-- w' follows a parent chosen from w's advertisements: its old one where that still qualifies, else the one of the fewest hops, then of the lowest port (R321). -/
def Follows (w w' : Waggle) : Prop :=
  ∃ x, OfLowestRoot w x ∧ w'.parent = some x.1 ∧ w'.rootId = x.2.rootId ∧ w'.hops = min 8 (x.2.hops + 1) ∧
    (w.parent = some x.1 ∨ ((∀ y, OfLowestRoot w y → w.parent ≠ some y.1) ∧ ∀ y, OfLowestRoot w y → x.2.hops < y.2.hops ∨ (x.2.hops = y.2.hops ∧ x.1 ≤ y.1)))

/-- TIME_EXCHANGE on a LIVE link: what the peer advertises is noted and a time frame goes out. A device that may take its own id as root is ROOT, established, without parent; else it follows the lowest root that a SYNCED or ROOT peer advertises, keeping a parent that still qualifies, else taking the one of the fewest hops and the lowest port; without such a peer it has no parent. With its parent it notes the offset, half of (t2 - t1) - (t4 - t3) to within a rounding plus ASYM_NS, among its last 8, steers within 200 ppm, is SYNCED after 8 in a row within 25 or 100 ns, and UNSYNCED with its event past 1 us. ROOT_SELF_ELECT makes it ROOT exactly where it may. SYNC_LOST: more than 1 s without a parent, or past 1 us, UNSYNCED with its event. Waggle time is stepped by none of them. (R319, R320, R321, R322, R323, R61.) -/
def Obligations.WaggleSynchronises : Prop :=
  (∀ (t port : Nat) (f : TimeFrame) (c : SwarmCfg) (k : DirKey) (s : State), s.power.off = false → s.settings.swarm = some c → (s.port port).state = .live → (s.port port).tx = some k →
    let n := max s.now t
    let w0 := { s.waggle with adverts := Tbl.put s.waggle.adverts port { rootId := f.rootId, hops := f.hops, state := syncOf f.peerState, established := f.established }, noLowerAt := if f.rootId < c.deviceId then n else s.waggle.noLowerAt }
    let sync0 := if s.waggle.sync = .root then SyncState.synced else s.waggle.sync
    ∃ s', exec (.timeExchange t port f) s = .next s' ∧
      s' = { s with now := n, free := s'.free, out := s'.out, waggle := s'.waggle, fabric := { s.fabric with ports := s'.fabric.ports, evSyncLost := s'.fabric.evSyncLost } } ∧
      SameBut port s'.fabric.ports s.fabric.ports ∧ s'.port port = { s.port port with txCounter := (s.port port).txCounter + 1 } ∧
      (∃ body, s'.out = .frame port (sealedFrame k (s.port port).txCounter (s.port port).keyPhase (s.linkHeader port 4 4 body.length 0) body) :: s.out) ∧
      (TakesRoot w0 c.deviceId n → s'.waggle = asRoot w0 c.deviceId ∧ s'.fabric.evSyncLost = s.fabric.evSyncLost) ∧
      (¬ TakesRoot w0 c.deviceId n → s'.waggle.adverts = w0.adverts ∧ s'.waggle.noLowerAt = w0.noLowerAt ∧
        ((∃ x ∈ w0.adverts, x.2.state ≠ .unsynced) → Follows w0 s'.waggle) ∧
        ((∀ x ∈ w0.adverts, x.2.state = .unsynced) → s'.waggle.parent = none) ∧
        (s'.waggle.parent ≠ some port → s'.waggle.sync = sync0 ∧ s'.fabric.evSyncLost = s.fabric.evSyncLost) ∧
        (s'.waggle.parent = some port → ∃ o : Int, -1 ≤ 2 * o - (((f.t2 : Int) - f.t1) - (f.t4 - f.t3)) ∧ 2 * o - (((f.t2 : Int) - f.t1) - (f.t4 - f.t3)) ≤ 1 ∧
          let x := o + (s.portSet port).asymNs
          let kept := if s.waggle.parent = some port then s.waggle.inBound else 0
          let bound : Int := if 13 ≤ port % 16 then 100 else 25
          let inBound := if -bound ≤ x ∧ x ≤ bound then kept + 1 else 0
          s'.waggle.offsets = (x :: if s.waggle.parent = some port then s.waggle.offsets else []).take 8 ∧ -200 ≤ s'.waggle.ratePpm ∧ s'.waggle.ratePpm ≤ 200 ∧
          (8 ≤ inBound → s'.waggle.sync = .synced ∧ s'.waggle.established = true ∧ s'.waggle.inBound = inBound ∧ s'.fabric.evSyncLost = s.fabric.evSyncLost) ∧
          (inBound < 8 → sync0 = .synced → (x < -1000 ∨ 1000 < x) → s'.waggle.sync = .unsynced ∧ s'.fabric.evSyncLost = true) ∧
          (inBound < 8 → (sync0 ≠ .synced ∨ (-1000 ≤ x ∧ x ≤ 1000)) → s'.waggle.sync = sync0 ∧ s'.waggle.inBound = inBound ∧ s'.fabric.evSyncLost = s.fabric.evSyncLost)))) ∧
  (∀ (t : Nat) (c : SwarmCfg) (s : State), s.power.off = false → s.settings.swarm = some c →
    (TakesRoot s.waggle c.deviceId (max s.now t) → exec (.rootSelfElect t) s = .next { s with now := max s.now t, waggle := asRoot s.waggle c.deviceId }) ∧
    (¬ TakesRoot s.waggle c.deviceId (max s.now t) → ∃ s', exec (.rootSelfElect t) s = .next s' ∧ OnlyTime s s' t)) ∧
  (∀ (t : Nat) (s : State), s.power.off = false → s.waggle.sync = .synced →
    ((∃ x, s.waggle.parent = none ∧ s.waggle.noParentAt = some x ∧ x + 1000000000 < max s.now t) ∨ s.waggle.offsetNs < -1000 ∨ 1000 < s.waggle.offsetNs →
      exec (.syncLost t) s = .next { s with now := max s.now t, waggle := { s.waggle with sync := .unsynced, inBound := 0, noParentAt := none }, fabric := { s.fabric with evSyncLost := true } }) ∧
    (s.waggle.parent ≠ none → -1000 ≤ s.waggle.offsetNs → s.waggle.offsetNs ≤ 1000 → ∃ s', exec (.syncLost t) s = .next s' ∧ OnlyTime s s' t))

/-- The firmware block with one slot replaced. -/
def withSlot (f : Firmware) (k : Nat) (x : FwSlot) : Firmware := if k = 0 then { f with slotA := x } else { f with slotB := x }

/-- A slot whose header sector is erased. -/
def erased (x : FwSlot) : FwSlot := { x with bootState := 0, attempts := 0, image := none }

/-- An update is in CHECKING, WRITING, VERIFYING or PAUSED. -/
abbrev Updating (f : Firmware) : Prop := f.state = .checking ∨ f.state = .writing ∨ f.state = .verifying ∨ f.state = .paused

/-- An EVAL parked at a round trip. -/
def Parked (c : Cmd) : Prop := ∃ v, c.eval = some v ∧ v.attempt ≠ none

/-- Between s and s' (waggle time n) the commands of the tenants that T picks have ended with ST_DEVICE_RESETTING: those that have not started and parked EVALs, and with `all` the running ones too. Every other command is as it was (R372). -/
def Drains (s s' : State) (n : Nat) (T : Nat → Prop) (all : Bool) : Prop :=
  ∀ u l c, l < 256 → s.cmd? u l c.seq = some c →
    (T u → c.phase ≠ .finished → (all = true ∨ c.phase ≠ .started ∨ Parked c) → ∃ ops, s'.cmd? u l c.seq = some (finished { c with ops := ops } (St.deviceResetting, 0) n)) ∧
    ((¬ T u ∨ c.phase = .finished ∨ (all = false ∧ c.phase = .started ∧ ¬ Parked c)) → Tbl.wf s.rings = true → (∀ r ∈ s.rings, (r.2.cmds.map (·.seq)).Nodup) → s'.cmd? u l c.seq = some c)

/-- What ending commands leaves: settings, memory, the log and what was sent; of a tenant all but its meters, of a ring all but its commands, of a comb all but the use of its shelves. -/
def EndsOnly (s s' : State) (t : Nat) : Prop :=
  s' = { s with now := max s.now t, power := s'.power, tenants := s'.tenants, rings := s'.rings, meters := s'.meters, combs := s'.combs, cells := s'.cells, segs := s'.segs } ∧
    (∀ u, ∃ m k, s'.ten u = { s.ten u with meters := m, stuck := k }) ∧ (∀ u l, ∃ cm, s'.ring u l = { s.ring u l with cmds := cm }) ∧
    (∀ c, ∃ sh, s'.comb c = { s.comb c with shelves := sh }) ∧ (∀ g ∈ s'.segs, g ∈ s.segs)

/-- No ring of the tenants that T picks holds a command; some ring does. -/
def NoneLeft (s : State) (T : Nat → Prop) : Prop := ∀ r ∈ s.rings, T (r.1 / 256) → r.2.cmds = []
def SomeLeft (s : State) (T : Nat → Prop) : Prop := ∃ u l, T u ∧ l < 256 ∧ (s.ring u l).cmds ≠ []

/-- The COMMITTED slot; of two, the one with the higher sequence number. -/
def CommittedIs (f : Firmware) (k : Option Nat) : Prop :=
  match k with
  | none => ∀ j < 2, (f.slot j).bootState ≠ 3
  | some c => c < 2 ∧ (f.slot c).bootState = 3 ∧ ((f.slot (1 - c)).bootState = 3 → (f.slot (1 - c)).seqNo ≤ (f.slot c).seqNo)

/-- Boot selection (R390, steps 1 to 3): from f the boot ROM goes on with g, to boot slot k first. -/
def Selects (f g : Firmware) (k : Option Nat) : Prop :=
  ((∀ j < 2, (f.slot j).bootState ≠ 2) ∧ g = f ∧ CommittedIs f k) ∨
  ∃ j, j < 2 ∧ (f.slot j).bootState = 2 ∧ (j = 1 → (f.slot 0).bootState ≠ 2) ∧
    ((0 < (f.slot j).attempts ∧ g = withSlot f j { f.slot j with attempts := (f.slot j).attempts - 1 } ∧ k = some j) ∨
     ((f.slot j).attempts = 0 ∧ g = withSlot f j { f.slot j with bootState := 4 } ∧ CommittedIs g k))

/-- A slot's image passes the checks of the boot ROM (R388). -/
def Bootable (z : Fuses) (f : Firmware) (k : Nat) : Prop :=
  ∃ im, (f.slot k).image = some im ∧ im.headerOk = true ∧ im.hwType = z.ident / 2 ^ 16 ∧ bitOf im.stepMask (bits z.ident 12 4 * 8 + bits z.ident 8 4) = true ∧
    (im.unitHashes = [] ∨ z.unitHash ∈ im.unitHashes) ∧ z.svn ≤ im.svn ∧ im.ecOk = true ∧ im.mlOk = true

/-- The slot that boots when k comes first (R390, step 4): k, or the other one where k fails and the other is COMMITTED or TRIAL and passes. -/
def Boots (z : Fuses) (f : Firmware) (k r : Option Nat) : Prop :=
  match k with
  | none => r = none
  | some j => (Bootable z f j ∧ r = some j) ∨
    (¬ Bootable z f j ∧ ((((f.slot (1 - j)).bootState = 3 ∨ (f.slot (1 - j)).bootState = 2) ∧ Bootable z f (1 - j) ∧ r = some (1 - j)) ∨
      (¬ (((f.slot (1 - j)).bootState = 3 ∨ (f.slot (1 - j)).bootState = 2) ∧ Bootable z f (1 - j)) ∧ r = none)))

/-- The firmware block as a reset leaves it: flash and the books stay, the registers are at reset, an update cut off is ABORTED with its target EMPTY (R375, R397). -/
def fwAfterReset (f : Firmware) : Firmware :=
  let g := if Updating f then withSlot f f.target (erased (f.slot f.target)) else f
  { Firmware.reset with state := if Updating f then .aborted else .idle, result := if Updating f then 0x12 else 0, slotA := g.slotA, slotB := g.slotB, bootSlot := f.bootSlot, booted := f.booted, bookDirty := f.bookDirty }

/-- A restored TN_ value set breaks no sum of R108. -/
def Fits (l : Tbl TnSet) : Prop :=
  (∀ c < 4, tnSum l (fun y => nth0 y.c0Cells c) ≤ 64 ∧ tnSum l (fun y => nth0 y.c0Shelves c) ≤ 96) ∧ (∀ p ∈ l, p.2.bwPct ≤ 25) ∧ tnSum l (·.bwPct) ≤ 50 ∧
    (512 - l.length) * TnSet.reset.msixCount + tnSum l (·.msixCount) ≤ 2048 ∧ ∀ p ∈ l, p.2.c0Cells.length = 4 ∧ p.2.c0Shelves.length = 4

/-- A start has come as far as the lane test (R377): slot k booted, identity keys there, its sections measured, the combs of the package powered at their start code. -/
def AtLaneTest (s' : State) (k : Nat) : Prop :=
  s'.power.phase = .lanes ∧ s'.fw.booted = true ∧ s'.fw.bootSlot = k ∧ s'.fw.xip = false ∧ (s'.fw.trial = true ↔ (s'.fw.slot k).bootState = 2) ∧ s'.sec.idReady = true ∧
    (∃ x, s'.sec.meas = Config.romDigest :: ((s'.fw.slot k).image.elim [] (·.digests)) ++ [x]) ∧ ∀ c < 4, (s'.comb c).vcode = if s'.power.emergency = true then 0 else (s'.pace c).vfix

/-- A start without a bootable slot (R379, R391). -/
def InRecovery (s' : State) : Prop :=
  s'.power.phase = .failed ∧ s'.fw.booted = false ∧ s'.fw.trial = false ∧ (Config.recoveryOk = true → s'.power.failCause = 1 ∧ s'.fw.xip = true) ∧
    (Config.recoveryOk = false → s'.power.failCause = 4 ∧ s'.fw.xip = false)

/-- What every warm reset leaves (R372, R375): no command, no completion, no run; rings OFF with GEN 0, cells zero, objects gone; fuses, meters, waggle time and wall clock as they were. -/
def WarmClears (s s' : State) (t code : Nat) : Prop :=
  s'.now = max s.now t ∧ s'.pending = s.pending ∧ s'.out = s.out ∧ s'.rings = [] ∧ s'.segs = [] ∧ s'.cells = [] ∧ s'.msixHeld = [] ∧ s'.fuses = s.fuses ∧
    s'.dram = { s.dram with objs := [], dirty := [], localGib := 0 } ∧ s'.meters = { s.meters with evStuck := false, evFull := false, evBack := false, evTickets := false } ∧
    s'.entropy = { Entropy.reset with failed := s.entropy.failed } ∧ s'.power.lastReset = code ∧ s'.power.emergency = s.power.emergency ∧
    s'.waggle.wallNs = s.waggle.wallNs ∧ s'.waggle.wallAt = s.waggle.wallAt ∧ s'.waggle.wallSet = s.waggle.wallSet ∧ s'.waggle.sync = s.waggle.sync ∧ s'.waggle.rootId = s.waggle.rootId ∧
    (∀ u x, Tbl.look s.tenants u = some x → (s'.ten u).meters = x.meters ∧ (s'.ten u).sessions = [] ∧ (s'.ten u).keysets = [] ∧ (s'.ten u).models = [] ∧ (s'.ten u).keySlots = [] ∧ (s'.ten u).gwSlots = [] ∧ (s'.ten u).ephs = []) ∧
    (∀ c < 4, (s'.comb c).shelves = [] ∧ (s'.comb c).svc = .inService ∧ (s'.comb c).rest = false) ∧ ∀ p, (s'.port p).state = .dark ∧ (s'.port p).tx = none ∧ (s'.port p).rx = none

/-- A warm start of a device whose firmware block is f, as far as the lane test or the recovery loader (R377, R390). On the slot that ran before, the settings in force stay (log 52). -/
def StartsFrom (s s' : State) (f : Firmware) : Prop :=
  ∃ g k r, Selects f g k ∧ Boots s.fuses g k r ∧
    (∀ j < 2, (s'.fw.slot j).image = (g.slot j).image ∧ (s'.fw.slot j).bootState = (g.slot j).bootState ∧ (s'.fw.slot j).attempts = (g.slot j).attempts) ∧
    match r with
    | none => InRecovery s' ∧ s'.settings = s.settings ∧ s'.log = s.log
    | some j => AtLaneTest s' j ∧ (f.booted = true → f.bootSlot = j → Fits s.settings.tn → s'.settings = s.settings ∧ s'.log = s.log)

/-- A warm reset and the start after it. -/
def WarmStarts (s s' : State) (t code : Nat) : Prop := WarmClears s s' t code ∧ StartsFrom s s' (fwAfterReset s.fw)

/-- What a cold start leaves (R319, R375): as a warm reset, and waggle time and wall clock, meters, memory, entropy and electrical state are new. -/
def ColdClears (s s' : State) (t : Nat) : Prop :=
  s'.now = t ∧ s'.pending = s.pending ∧ s'.out = s.out ∧ s'.rings = [] ∧ s'.segs = [] ∧ s'.cells = [] ∧ s'.msixHeld = [] ∧ s'.fuses = s.fuses ∧ s'.dram = Dram.reset ∧
    s'.entropy = Entropy.reset ∧ s'.elec = Elec.reset ∧ s'.power.lastReset = 0 ∧ s'.power.emergency = false ∧ s'.power.off = false ∧ (∃ a b, s'.waggle = { Waggle.reset with edges0 := a, edges1 := b }) ∧
    s'.meters = { Meters.reset with lenS := s'.settings.lenS, align_ := s'.settings.align_ } ∧ (∀ u, ∃ w, s'.ten u = { Tenant.fresh with werr := w }) ∧
    (∀ c < 4, (s'.comb c).shelves = [] ∧ (s'.comb c).svc = .inService ∧ (s'.comb c).rest = false) ∧ ∀ p, (s'.port p).state = .dark ∧ (s'.port p).tx = none ∧ (s'.port p).rx = none

/-- Every port that may train does (R311), after a command at waggle time n that changed of a state z no port: the others are as they were. -/
def TrainsAll (z s' : State) (n : Nat) : Prop :=
  ∀ p, (p < 32 → (z.port p).state = .dark → (z.port p).light = true → (z.port p).retryAt = none → Trains z p → s'.port p = keyless (z.port p) .training n) ∧
    ((32 ≤ p ∨ (z.port p).state ≠ .dark ∨ (z.port p).light = false ∨ (z.port p).retryAt ≠ none ∨ ¬ Trains z p) → s'.port p = z.port p)

/-- The record of a dropped write of PW_RESET. -/
def droppedReset (n v : Nat) : LogRec := { type := 0x01, flags := 0, ten := 0, source := 0, waggle := n, arg0 := 0xE0010, arg1 := v }

/-- WARM_RESET (hot reset: LAST_RESET 1, FLR of the physical function: 3) and a WARM write without DRAIN (2) end every command without a completion and start; PERST# holds the start until PERST_DEASSERT. With DRAIN, commands not started and parked EVALs finish with ST_DEVICE_RESETTING, the rest runs for 10 ms (DRAIN_TIMEOUT) and then finishes so; the reset follows once no command is left. In PHASE ROM a WARM write is dropped and logged. COLD_START clears everything outside fuses and flash and restores settings from the booted slot's book, else the other slot's, else defaults. A start boots a TRIAL slot with attempts left, else the COMMITTED one, else the other, by the checks of the boot ROM; none: FAILED with the recovery loader. The lane test sets every width, DRAM training applies the split, and the end of the scrub zeroes DRAM and makes the device READY; all four combs isolated or training failed: FAILED. (R371, R372, R375, R377, R379, R380, R381, R388, R390, R391, R398, R43.) -/
def Obligations.ResetsAndStarts : Prop :=
  (∀ (t : Nat) (b : PcieReset) (s : State), s.power.off = false →
    (s.power.heldByPerst = false → b = .hotReset → ∃ s', exec (.warmReset t b) s = .next s' ∧ WarmStarts s s' t 1) ∧
    (s.power.heldByPerst = false → b = .pfFlr → ∃ s', exec (.warmReset t b) s = .next s' ∧ WarmStarts s s' t 3) ∧
    (b = .perst → ∃ s', exec (.warmReset t b) s = .next s' ∧ WarmClears s s' t 1 ∧ s'.power.phase = .rom ∧ s'.power.heldByPerst = true ∧ s'.fw = fwAfterReset s.fw ∧ s'.settings = s.settings)) ∧
  (∀ (t : Nat) (s : State), s.power.off = false →
    (s.power.heldByPerst = true → ∃ s', exec (.perstDeassert t) s = .next s' ∧ StartsFrom s s' s.fw ∧ s'.rings = s.rings ∧ s'.segs = s.segs ∧ s'.cells = s.cells ∧ s'.dram = s.dram ∧
      s'.meters = s.meters ∧ s'.entropy = s.entropy ∧ s'.out = s.out ∧ s'.power.heldByPerst = false ∧ s'.power.releasedAt = max s.now t) ∧
    (s.power.heldByPerst = false → ∃ s', exec (.perstDeassert t) s = .next s' ∧ OnlyTime s s' t)) ∧
  (∀ (t : Nat) (s : State), s.power.off = false →
    (s.power.phase = .rom → ∀ drain, exec (.pwResetWarm t drain) s = .next { s with now := max s.now t, log := s.log.add (droppedReset (max s.now t) (1 + b2n drain * 2)) }) ∧
    (s.power.phase ≠ .rom →
      (∃ s', exec (.pwResetWarm t false) s = .next s' ∧ WarmStarts s s' t 2) ∧
      (NoneLeft s (fun _ => True) → ∃ s', exec (.pwResetWarm t true) s = .next s' ∧ WarmStarts s s' t 2) ∧
      (SomeLeft s (fun _ => True) → (∀ f ∈ s.power.flrs, f.draining = false) → ∃ s', exec (.pwResetWarm t true) s = .next s' ∧ Drains s s' (max s.now t) (fun _ => True) false ∧ EndsOnly s s' t ∧
        s'.power = { s.power with warmDrain := some (s.power.warmDrain.getD (max s.now t)) }))) ∧
  (∀ (t since : Nat) (s : State), s.power.off = false → s.power.warmDrain = some since → (∀ f ∈ s.power.flrs, f.draining = false) →
    (NoneLeft s (fun _ => True) → ∃ s', exec (.drainTimeout t) s = .next s' ∧ WarmStarts s s' t 2) ∧
    (SomeLeft s (fun _ => True) →
      (since + 10000000 ≤ max s.now t → ∃ s', exec (.drainTimeout t) s = .next s' ∧ Drains s s' (max s.now t) (fun _ => True) true ∧ EndsOnly s s' t ∧ s'.power = s.power) ∧
      (max s.now t < since + 10000000 → ∃ s', exec (.drainTimeout t) s = .next s' ∧ OnlyTime s s' t))) ∧
  (∀ (t : Nat) (s : State), ∃ s' g k r, exec (.coldStart t) s = .next s' ∧ ColdClears s s' t ∧ Selects { fwAfterReset s.fw with bookDirty := false } g k ∧ Boots s.fuses g k r ∧
    (∀ j < 2, (s'.fw.slot j).image = (g.slot j).image ∧ (s'.fw.slot j).bootState = (g.slot j).bootState ∧ (s'.fw.slot j).attempts = (g.slot j).attempts) ∧
    (r = none → InRecovery s' ∧ s'.settings = Settings.reset ∧ s'.log = Log.reset) ∧
    (∀ j, r = some j → AtLaneTest s' j ∧ ∀ im, (g.slot j).image = some im →
      (∀ b, (g.slot j).newest = some b → im.sbMax ≤ b.format → Fits b.settings.tn → s'.settings = b.settings ∧ s'.log = Log.reset) ∧
      ((g.slot j).newest = none → ∀ b, (g.slot (1 - j)).newest = some b → Fits b.settings.tn → s'.settings = b.settings ∧ s'.log = Log.reset) ∧
      ((g.slot j).newest = none → (g.slot (1 - j)).newest = none → s'.settings = Settings.reset ∧ s'.log = Log.reset))) ∧
  (∀ (t : Nat) (F : List (Nat × Nat × Nat)) (s : State), s.power.off = false →
    (s.power.phase = .lanes → ∃ s', exec (.startLaneTestDone t F) s = .next s' ∧
      s' = { s with now := max s.now t, power := { s.power with phase := s'.power.phase, failCause := s'.power.failCause }, lanes := s'.lanes, log := s'.log, waggle := s'.waggle, fabric := s'.fabric, combs := s'.combs } ∧
      (∀ c, ∃ v, s'.comb c = { s.comb c with svc := v }) ∧ s'.lanes.tested = true ∧
      (∀ b < 120, ∀ d < 2, (s'.dir b d).testFail = maskOf F b d % 2 ^ 18 ∧ WidthIs (s'.dir b d).unusable (s'.dir b d).state) ∧
      ((∀ c < 4, c ∈ s'.lanes.combIsolated) → s'.power.phase = .failed ∧ s'.power.failCause = 3) ∧
      ((∃ c < 4, c ∉ s'.lanes.combIsolated) → s'.power = { s.power with phase := .dram })) ∧
    (s.power.phase ≠ .lanes → ∃ s', exec (.startLaneTestDone t F) s = .next s' ∧ OnlyTime s s' t)) ∧
  (∀ (t : Nat) (s : State), s.power.off = false →
    (s.power.phase = .dram →
      exec (.dramTrainingDone t true) s = .next { s with now := max s.now t, dram := { s.dram with localGib := s.settings.localGib }, power := { s.power with phase := .scrub, startScrub := true } } ∧
      exec (.dramTrainingDone t false) s = .next { s with now := max s.now t, power := { s.power with phase := .failed, failCause := 2 } }) ∧
    (s.power.phase = .scrub →
      let z : State := { s with now := max s.now t, dram := { s.dram with cells := [], poison := [], dirty := [] }, power := { s.power with phase := .ready, startScrub := false, startMs := min 0xFFFF ((max s.now t - s.power.releasedAt) / 1000000) } }
      ∃ s', exec (.startScrubDone t) s = .next s' ∧ s' = { z with waggle := s'.waggle, fabric := { s.fabric with ports := s'.fabric.ports } } ∧ TrainsAll z s' (max s.now t)) ∧
    (s.power.phase ≠ .dram → ∀ ok, ∃ s', exec (.dramTrainingDone t ok) s = .next s' ∧ OnlyTime s s' t) ∧
    (s.power.phase ≠ .scrub → ∃ s', exec (.startScrubDone t) s = .next s' ∧ OnlyTime s s' t))

/-- Tenant ten has been reset (R373): no run of it is left, its rings are OFF and keep GEN, its objects are freed and their pages wait for the scrub, its sessions, records, key slots and shelves are gone, cells that it ran last are zero. Its settings, its meters and every other tenant are as they were, and nothing was sent. -/
def TenantReset (s s' : State) (t ten : Nat) : Prop :=
  let mine (o : Nat × DramObj) : Bool := o.2.ten == ten
  let pages := (s.dram.objs.filter mine).flatMap fun o => o.2.extents
  s' = { s with now := max s.now t, tenants := s'.tenants, rings := s'.rings, meters := s'.meters, combs := s'.combs, cells := s'.cells, segs := s'.segs
                dram := { s.dram with objs := s.dram.objs.filter fun o => !mine o, dirty := pages ++ s.dram.dirty }, msixHeld := s.msixHeld.filter fun m => m.1 != ten
                fabric := { s.fabric with inbox := s.fabric.inbox.filter fun m => m.ten != ten, landed := s.fabric.landed.filter fun m => m.1 != ten, occupied := s.fabric.occupied.filter fun m => m.1 != ten }
                power := { s.power with flrs := (s.power.flrs.filter fun x => x.ten != ten) ++ [{ ten := ten, draining := false, since := max s.now t, pages := pages }] } } ∧
  SameBut ten s'.tenants s.tenants ∧ (∃ m k, s'.ten ten = { Tenant.fresh with meters := m, stuck := k, view := (s.ten ten).view, werr := (s.ten ten).werr }) ∧
  ((∀ g ∈ s.segs, g.ten ≠ ten) → (s'.ten ten).meters = (s.ten ten).meters ∧ (s'.ten ten).stuck = (s.ten ten).stuck ∧ s'.meters = s.meters) ∧
  (∀ l < 256, s'.ring ten l = { Ring.fresh with gen := (s.ring ten l).gen } ∧ ∀ u ≠ ten, s'.ring u l = s.ring u l) ∧
  (∀ g ∈ s'.segs, g ∈ s.segs ∧ g.ten ≠ ten) ∧
  (∀ c, ∃ sh, s'.comb c = { s.comb c with shelves := sh } ∧ (c < 4 → ∀ r ∈ sh, r.ten ≠ ten) ∧ ∀ r ∈ (s.comb c).shelves, r.ten ≠ ten → ∃ rf, ({ r with refs := rf } : ShelfRun) ∈ sh) ∧
  (Tbl.wf s.cells = true → ∀ k,
    ((s.cell k).lastTen = some ten → ∃ x, s'.cell k = { Cell.zero with lastTen := x }) ∧
    ((s.cell k).lastTen ≠ some ten → (∀ g ∈ s.segs, g.ten = ten → k ∉ g.cells) → (∀ c < 4, ∀ r ∈ (s.comb c).reserved, r.1 = k → r.2.1 ≠ ten) → s'.cell k = s.cell k))

/-- The device has woken from Deep rest (R369): every comb at its start code and out of Rest, every cell zero, READY, and what was held in DRAM as it was. -/
def Woken (s s' : State) (t : Nat) : Prop :=
  s' = { s with now := max s.now t, power := { s.power with pf := .d0, phase := .ready }, lanes := s'.lanes, log := s'.log, waggle := s'.waggle, fabric := s'.fabric, combs := s'.combs, cells := s'.cells } ∧
  (∀ c < 4, (s'.comb c).vcode = (if s.power.emergency = true then 0 else (s.pace c).vfix) ∧ (s'.comb c).rest = false ∧ (s'.comb c).shelves = (s.comb c).shelves) ∧ (∀ k < 512, Zeroed (s'.cell k)) ∧
  (∀ b < 120, ∀ d < 2, WidthIs (s'.dir b d).unusable (s'.dir b d).state) ∧
  ∀ p < 32, (s.port p).state = .dark → (s.port p).light = true → (s.port p).retryAt = none → (s.portSet p).holdDark = false → (∃ c, s.settings.swarm = some c ∧ (c.peer p).isSome = true) →
    s'.lanes.edgeIsolated.contains (p / 16) = false → (s'.port p).state = .training

/-- FUNCTION_LEVEL_RESET through PCIe, or through TENANT_GO in READY without DRAIN or with no command left, resets the tenant; with DRAIN its commands end as a drain begins; before READY the write is dropped and logged. FLR_SCRUB_DONE: its pages read zero and the reset is over. PORT_GO takes a port to DARK without keys, and to TRAINING where it may train. D3HOT_ENTRY puts every ring that is not OFF into ERROR; DEEP_REST_GATE, once nothing runs, takes all ports DARK and leaves only pins in the shelves; D0_RETURN from Deep rest wakes the device, from D3hot only notes D0. In D3hot a virtual function's messages wait, back in D0 they are sent. LOW_INPUT follows the supply; a power fail turns the device off with smb_alert_n asserted, and no command but COLD_START then does anything. HOLDUP_MEASURE stores the energy, and saves settings that waited for it. (R366, R368, R369, R370, R372, R373, R374, R376, R402, R405, R410, R415.) -/
def Obligations.TenantResetsAndPower : Prop :=
  (∀ (t ten : Nat) (drain : Bool) (s : State), s.power.off = false → ten < 512 →
    ((∀ g ∈ s.segs, g.ten = ten → g.lring < 256) →
      (∃ s', exec (.functionLevelReset t ten true drain) s = .next s' ∧ TenantReset s s' t ten) ∧
      (s.power.phase = .ready → (drain = false ∨ NoneLeft s (· = ten)) → ∃ s', exec (.functionLevelReset t ten false drain) s = .next s' ∧ TenantReset s s' t ten)) ∧
    (s.power.phase = .ready → SomeLeft s (· = ten) → ∃ s', exec (.functionLevelReset t ten false true) s = .next s' ∧ Drains s s' (max s.now t) (· = ten) false ∧ EndsOnly s s' t ∧
      s'.power = { s.power with flrs := (s.power.flrs.filter fun x => x.ten != ten) ++ [{ ten := ten, draining := true, since := max s.now t, pages := [] }] }) ∧
    (s.power.phase ≠ .ready → exec (.functionLevelReset t ten false drain) s = .next { s with now := max s.now t, log := s.log.add (droppedReset (max s.now t) (b2n drain * 2 + 4 + ten * 8)) })) ∧
  (∀ (t ten : Nat) (pages : List (Nat × Nat)) (since : Nat) (s : State), s.power.off = false → (s.power.flrs.find? fun f => f.ten == ten && !f.draining) = some { ten := ten, draining := false, since := since, pages := pages } →
    ∃ s', exec (.flrScrubDone t ten) s = .next s' ∧ s' = { s with now := max s.now t, dram := s'.dram, power := { s.power with flrs := s.power.flrs.filter fun x => x.ten != ten } } ∧
      (∀ a, s'.dram.byte a = if ∃ e ∈ pages, e.1 ≤ a / 4096 ∧ a / 4096 < e.1 + e.2 then 0 else s.dram.byte a) ∧ s'.dram.objs = s.dram.objs ∧ s'.dram.dirty = s.dram.dirty.filter fun e => !pages.contains e) ∧
  (∀ (t port : Nat) (s : State), s.power.off = false → port < 32 →
    (s.power.phase = .ready → (s.port port).light = true → Trains s port → ∃ s', exec (.pwResetPort t port) s = .next s' ∧ PortGoes s s' t port (keyless (s.port port) .training (max s.now t)) false false false) ∧
    (s.power.phase = .ready → ((s.port port).light = false ∨ ¬ Trains s port) → ∃ s', exec (.pwResetPort t port) s = .next s' ∧ PortGoes s s' t port (keyless (s.port port) .dark (max s.now t)) false false false) ∧
    (s.power.phase ≠ .ready → exec (.pwResetPort t port) s = .next { s with now := max s.now t, log := s.log.add (droppedReset (max s.now t) (4096 + port * 8192)) })) ∧
  (∀ (t : Nat) (F : List (Nat × Nat × Nat)) (s : State), s.power.off = false →
    (s.power.pf = .d0 → ∃ s', exec (.d3hotEntry t) s = .next s' ∧ s' = { s with now := max s.now t, power := { s.power with pf := .d3hot }, rings := s'.rings } ∧
      (∀ u l, ((s.ring u l).state = .off → s'.ring u l = s.ring u l) ∧ ((s.ring u l).state ≠ .off → s'.ring u l = { s.ring u l with state := .error, fromError := true })) ∧
      ∃ s'', exec (.d0Return t F) s = .next s'' ∧ OnlyTime s s'' t) ∧
    (s.power.pf = .d3hot →
      exec (.d0Return t F) s = .next { s with now := max s.now t, power := { s.power with pf := .d0 } } ∧
      ((∀ r ∈ s.rings, ∀ c ∈ r.2.cmds, c.phase ≠ .started) → ∃ s', exec (.deepRestGate t) s = .next s' ∧
        s' = { s with now := max s.now t, power := { s.power with pf := .deepRest }, waggle := s'.waggle, fabric := { s.fabric with ports := s'.fabric.ports }, combs := s'.combs } ∧
        (∀ p < 32, s'.port p = keyless (s.port p) .dark (max s.now t)) ∧
        (∀ c < 4, s'.comb c = { s.comb c with shelves := ((s.comb c).shelves.filter fun r => !r.isCached).map fun r => { r with refs := [] }, seeded := false, drawn := 0 })) ∧
      ((∃ r ∈ s.rings, ∃ c ∈ r.2.cmds, c.phase = .started) → ∃ s', exec (.deepRestGate t) s = .next s' ∧ OnlyTime s s' t)) ∧
    (s.power.pf = .deepRest → ∃ s', exec (.d0Return t F) s = .next s' ∧ Woken s s' t)) ∧
  (∀ (t ten mj : Nat) (s : State), s.power.off = false →
    (0 < ten → ten < 512 →
      (∃ s', exec (.vfPowerState t ten true) s = .next s' ∧ s' = { s with now := max s.now t, power := { s.power with vfD3 := s'.power.vfD3 } } ∧ ∀ u, u ∈ s'.power.vfD3 ↔ u = ten ∨ u ∈ s.power.vfD3) ∧
      exec (.vfPowerState t ten false) s = .next { s with now := max s.now t, power := { s.power with vfD3 := s.power.vfD3.filter (· != ten) }, msixHeld := s.msixHeld.filter fun m => m.1 != ten, out := ((s.msixHeld.filter fun m => m.1 == ten).map fun m => Out.msix m.1 m.2).reverse ++ s.out }) ∧
    exec (.lowInputSet t) s = .next { s with now := max s.now t, elec := { s.elec with lowInput := true } } ∧
    exec (.lowInputClear t) s = .next { s with now := max s.now t, elec := { s.elec with lowInput := false } } ∧
    (∃ s', exec (.powerFail t) s = .next s' ∧ s' = { s with now := max s.now t, power := { s.power with off := true }, elec := { s.elec with powerFail := true } } ∧ s'.smbAlert = true ∧
      ∀ u c, exec (.lowInputSet u) s' = .next { s' with now := max s'.now u } ∧ exec (.perstDeassert u) s' = .next { s' with now := max s'.now u } ∧ exec (.combRestEntry u c) s' = .next { s' with now := max s'.now u }) ∧
    (s.fw.bookDirty = false → exec (.holdupMeasure t mj) s = .next { s with now := max s.now t, elec := { s.elec with holdupMj := min 0xFFFF mj } }) ∧
    (s.fw.bookDirty = true → s.fw.booted = true →
      (1500 ≤ mj → ∃ s', exec (.holdupMeasure t mj) s = .next s' ∧ s' = { s with now := max s.now t, elec := { s.elec with holdupMj := min 0xFFFF mj }, fw := s'.fw } ∧ s'.fw.bookDirty = false ∧
        (s.fw.bootSlot < 2 → ∃ n f, (s'.fw.slot s.fw.bootSlot).newest = some { format := f, seqNo := n, settings := s.settings })) ∧
      (mj < 1500 → exec (.holdupMeasure t mj) s = .next { s with now := max s.now t, elec := { s.elec with holdupMj := min 0xFFFF mj } })))

/-- The slot that a START writes (R385, R401): A, B, or the one not booted; under the recovery loader B. -/
def targetSlot (f : Firmware) (target : Nat) : Nat := if target = 1 then 0 else if target = 2 then 1 else if f.xip = true then 1 else 1 - f.bootSlot

/-- Some die is above 95 degrees. -/
abbrev tooHot (s : State) : Prop := 95 < s.power.hiveTj ∨ 95 < s.power.e0Tj ∨ 95 < s.power.e1Tj ∨ ∃ c ∈ [0, 1, 2, 3], 95 < (s.comb c).tj

/-- The first refusal of the update-refusals table that holds, before the image is read (R393). TARGET 3 counts as a slot that cannot be named. -/
def updateRefusal (s : State) (target : Nat) (drain : Bool) : Option Nat :=
  if Updating s.fw then some 0x10
  else if s.settings.ownerLock = true then some 0x01
  else if s.fw.xip = true ∧ targetSlot s.fw target = 0 then some 0x07
  else if target = 3 ∨ (s.fw.booted = true ∧ targetSlot s.fw target = s.fw.bootSlot) then some 0x0F
  else if drain = false ∧ ∃ x ∈ s.tenants, ∃ y ∈ x.2.sessions, y.2.active = true ∧ y.2.cls = 0 then some 0x02
  else if s.elec.holdupMj < 1500 then some 0x03
  else if tooHot s then some 0x04
  else none

/-- The first check of an image that fails, in the order of the image-check table (R388), with the checks that an update adds. -/
def imageRefusal (s : State) (im : FwImage) : Option Nat :=
  if im.headerOk = false then some 0x08
  else if im.hwType ≠ s.fuses.ident / 2 ^ 16 then some 0x09
  else if bitOf im.stepMask (bits s.fuses.ident 12 4 * 8 + bits s.fuses.ident 8 4) = false then some 0x0A
  else if im.unitHashes ≠ [] ∧ s.fuses.unitHash ∉ im.unitHashes then some 0x0B
  else if im.svn < s.fuses.svn then some 0x06
  else if s.sbFormat ≠ 0 ∧ (s.sbFormat < im.sbMin ∨ im.sbMax < s.sbFormat) then some 0x0C
  else if im.ecOk = false ∨ im.mlOk = false then some 0x0D
  else if ∃ c ∈ s.settings.swarm, c.freezeFw = true ∧ sha384 (s.sec.meas.headD [] ++ im.digests.flatten) ≠ c.fwDigest then some 0x05
  else none

/-- An operation of FW_CTL that is refused: its result, and nothing else. -/
def Refuses (i : Instr) (s : State) (t r : Nat) : Prop := exec i s = .next { s with now := max s.now t, fw := { s.fw with result := r } }

/-- A command whose only effect beside time is a new firmware block. -/
def FwBecomes (i : Instr) (s : State) (t : Nat) (f : Firmware) : Prop := exec i s = .next { s with now := max s.now t, fw := f }

/-- The record of a dropped write of FW_CTL. -/
def droppedFwCtl (n v : Nat) : LogRec := { type := 0x01, flags := 0, ten := 0, source := 0, waggle := n, arg0 := 0x70008, arg1 := v }

/-- Where FW_ is served (READY, or the recovery loader), FW_START stores OWNER_LOCK, then is refused with the first reason of the update-refusals table, changing RESULT only, or copies the image and is CHECKING. IMAGE_CHECK_DONE: FW_READ_FAULT, or the first image check that fails, puts the update back where it was; else WRITING, or PAUSED while a commit may not begin. FLASH_COMMIT_DONE counts a commit, the first of which leaves the target EMPTY, and goes on, pauses, or ends in VERIFYING. UPDATE_RESUME resumes a pause once the store funds two commits and no die is above 95 degrees. READ_BACK_DONE: STAGED, or the target EMPTY and FAILED with FW_VERIFY. ACTIVATE, COMMIT, ROLLBACK and ABORT act in their states, refused with FW_STATE in others and with FW_HOLDUP_LOW without the energy; COMMIT alone burns fuses, up to the image's security version. Elsewhere each is dropped and logged. (R384, R385, R388, R392, R393, R394, R395, R396, R397, R400, R401.) -/
def Obligations.FirmwareUpdates : Prop :=
  (∀ (t v : Nat) (h : HostView) (s : State), s.power.off = false → s.fwServed = true →
    let s1 := s.setOwnerLock (bitOf v 8)
    s1 = { s with settings := { s.settings with ownerLock := bitOf v 8 }, fw := s1.fw } ∧
    (∀ r, updateRefusal s1 (bits v 4 2) (bitOf v 3) = some r → exec (.fwStart t v h) s = .next { s1 with now := max s.now t, fw := { s1.fw with result := r } }) ∧
    (updateRefusal s1 (bits v 4 2) (bitOf v 3) = none →
      let image := hostRead h 0 s.fw.imgAddr s.fw.imgLen
      exec (.fwStart t v h) s = .next { s1 with now := max s.now t, fw := { s1.fw with
        state := .checking, before := s1.fw.state, result := 0, target := targetSlot s1.fw (bits v 4 2), draining := bitOf v 3, sectorsDone := 0, staged := image.getD [], readFault := image.isNone } })) ∧
  (∀ (t : Nat) (s : State), s.power.off = false → s.fw.state = .checking →
    let back (r : Nat) : Firmware := { s.fw with state := s.fw.before, result := r, draining := false, staged := [], readFault := false }
    (s.fw.readFault = true → FwBecomes (.imageCheckDone t) s t (back 0x0E)) ∧
    (s.fw.readFault = false → ∀ r, imageRefusal s (parseImage s.fw.staged) = some r → FwBecomes (.imageCheckDone t) s t (back r)) ∧
    (s.fw.readFault = false → imageRefusal s (parseImage s.fw.staged) = none →
      let go : Firmware := { s.fw with before := .writing, sectorsLeft := 2 * ((s.fw.staged.length + 65535) / 65536) }
      (1500 ≤ s.elec.holdupMj ∧ ¬ tooHot s → FwBecomes (.imageCheckDone t) s t { go with state := .writing }) ∧
      (s.elec.holdupMj < 1500 ∨ tooHot s → FwBecomes (.imageCheckDone t) s t { go with state := .paused }))) ∧
  (∀ (t : Nat) (s : State), s.power.off = false →
    (s.fw.state = .writing →
      let f := if s.fw.sectorsDone = 0 then withSlot s.fw s.fw.target (erased (s.fw.slot s.fw.target)) else s.fw
      let g : Firmware := { f with sectorsDone := min 0xFFFF (s.fw.sectorsDone + 1), sectorsLeft := s.fw.sectorsLeft - 1, before := .writing }
      (s.fw.sectorsLeft ≤ 1 → FwBecomes (.flashCommitDone t) s t { g with state := .verifying }) ∧
      (1 < s.fw.sectorsLeft → 1500 ≤ s.elec.holdupMj → ¬ tooHot s → FwBecomes (.flashCommitDone t) s t { g with state := .writing }) ∧
      (1 < s.fw.sectorsLeft → s.elec.holdupMj < 1500 ∨ tooHot s → FwBecomes (.flashCommitDone t) s t { g with state := .paused })) ∧
    (s.fw.state = .paused →
      (1500 ≤ s.elec.holdupMj → ¬ tooHot s → FwBecomes (.updateResume t) s t { s.fw with state := s.fw.before }) ∧
      (s.elec.holdupMj < 1500 ∨ tooHot s → FwBecomes (.updateResume t) s t s.fw)) ∧
    (s.fw.state = .verifying →
      (s.elec.holdupMj < 1500 ∨ tooHot s → ∀ same, FwBecomes (.readBackDone t same) s t { s.fw with state := .paused, before := .verifying }) ∧
      (1500 ≤ s.elec.holdupMj → ¬ tooHot s →
        FwBecomes (.readBackDone t true) s t { withSlot s.fw s.fw.target { s.fw.slot s.fw.target with bootState := 1, attempts := 0, image := some (parseImage s.fw.staged) } with state := .staged, result := 0, staged := [] } ∧
        FwBecomes (.readBackDone t false) s t { withSlot s.fw s.fw.target (erased (s.fw.slot s.fw.target)) with state := .failed, result := 0x11, staged := [], draining := false }))) ∧
  (∀ (t : Nat) (s : State), s.power.off = false → s.fwServed = true →
    (s.fw.state ≠ .staged → Refuses (.fwActivate t) s t 0x0F) ∧
    (s.fw.state = .staged → s.elec.holdupMj < 1500 → Refuses (.fwActivate t) s t 0x03) ∧
    (s.fw.state = .staged → 1500 ≤ s.elec.holdupMj → FwBecomes (.fwActivate t) s t
      { withSlot s.fw s.fw.target { s.fw.slot s.fw.target with bootState := 2, attempts := 3, seqNo := (s.fw.slot (1 - s.fw.target)).seqNo + 1 } with result := 0 }) ∧
    (s.fw.trial = false → Refuses (.fwCommit t) s t 0x0F) ∧
    (s.fw.trial = true → s.elec.holdupMj < 1500 → Refuses (.fwCommit t) s t 0x03) ∧
    (s.fw.trial = true → 1500 ≤ s.elec.holdupMj → s.fw.bootSlot < 2 → ∀ im, (s.fw.slot s.fw.bootSlot).image = some im →
      let b := s.fw.bootSlot
      let o := s.fw.slot (1 - b)
      exec (.fwCommit t) s = .next { s with now := max s.now t, fuses := { s.fuses with svn := max s.fuses.svn (min 63 im.svn) }, fw := { withSlot (withSlot s.fw b { s.fw.slot b with bootState := 3 }) (1 - b) { o with bootState := if o.image = none then 0 else 5 } with trial := false, result := 0 } }) ∧
    (s.fw.trial = true → s.elec.holdupMj < 1500 → Refuses (.fwRollback t) s t 0x03) ∧
    (s.fw.trial = true → 1500 ≤ s.elec.holdupMj → FwBecomes (.fwRollback t) s t
      { withSlot s.fw s.fw.bootSlot { s.fw.slot s.fw.bootSlot with bootState := 4 } with trial := false, result := 0 }) ∧
    (s.fw.trial = false → ∀ k < 2, (s.fw.slot k).bootState = 2 → (s.fw.slot k).attempts = 3 → ((s.fw.slot (1 - k)).bootState ≠ 2 ∨ (s.fw.slot (1 - k)).attempts ≠ 3) →
      (s.elec.holdupMj < 1500 → Refuses (.fwRollback t) s t 0x03) ∧
      (1500 ≤ s.elec.holdupMj → FwBecomes (.fwRollback t) s t { withSlot s.fw k { s.fw.slot k with bootState := 1, attempts := 0 } with result := 0 })) ∧
    (s.fw.trial = false → (∀ k < 2, (s.fw.slot k).bootState ≠ 2 ∨ (s.fw.slot k).attempts ≠ 3) → Refuses (.fwRollback t) s t 0x0F) ∧
    (Updating s.fw ∨ s.fw.state = .staged → FwBecomes (.fwAbort t) s t
      { withSlot s.fw s.fw.target (erased (s.fw.slot s.fw.target)) with state := .aborted, result := 0x12, staged := [], draining := false, readFault := false }) ∧
    (¬ Updating s.fw → s.fw.state ≠ .staged → Refuses (.fwAbort t) s t 0x0F)) ∧
  (∀ (t v : Nat) (h : HostView) (s : State), s.power.off = false → s.fwServed = false →
    ∀ p ∈ [(Instr.fwStart t v h, v), (.fwActivate t, 2), (.fwCommit t, 3), (.fwRollback t, 4), (.fwAbort t, 5)],
      exec p.1 s = .next { s with now := max s.now t, log := s.log.add (droppedFwCtl (max s.now t) p.2) })

/-- The invariant of every run: the DRAM's canonical form, and a fused security version that the thermometer of 63 fuses can hold. -/
abbrev SoundState (s : State) : Prop := MemOk s ∧ s.fuses.svn ≤ 63

/-- A step with a command at the front of the queue always answers a next state, never a fault and never a refusal, and leaves the rest of the queue as it was. Waggle time after it is not below waggle time before it, unless the command is COLD_START; after COLD_START it is the value that the command names. On an empty queue nothing changes. (R61, R319, the row's cut: a block takes commands from its queue.) -/
def Obligations.EveryStepGoes : Prop :=
  ∀ s : State, Goes s ∧
    (s.pending = [] → step s = .next s) ∧
    (∀ c rest s', s.pending = c :: rest → step s = .next s' →
      s'.pending = rest ∧ ((∀ t, c ≠ .coldStart t) → s.now ≤ s'.now) ∧ (∀ t, c = .coldStart t → s'.now = t))

/-- For every modulus of valid form and every x below 2^64, the folds end below 2^w, each of them has taken a multiple of q away, and at most three subtractions give the value the device returns, which is x mod q. (R28.) -/
def Obligations.FoldingReduces : Prop :=
  ∀ (m : ModEntry) (x : Nat), m.formOk = true → x < 2 ^ 64 →
    (2 ^ m.w ≤ x → foldOnce m x + x / 2 ^ m.w * m.q = x) ∧
    foldAll m x x < 2 ^ m.w ∧ foldReduce m x = reduce m.q x ∧ reduce m.q x = x % m.q

/-- The alert line is asserted exactly while a thermal emergency is in force, PHASE is FAILED, LOW_INPUT or CAPPING is set, or a power fail is being handled; it is released when none of these holds. (R415.) -/
def Obligations.SmbAlertLine : Prop :=
  ∀ s : State,
    (s.smbAlert = true ↔ s.power.emergency = true ∨ s.power.phase = .failed ∨ s.elec.lowInput = true ∨ s.elec.capping = true ∨ s.elec.powerFail = true) ∧
    (s.smbAlert = false ↔ s.power.emergency = false ∧ s.power.phase ≠ .failed ∧ s.elec.lowInput = false ∧ s.elec.capping = false ∧ s.elec.powerFail = false)

/-- Right after reset the invariant holds; no command waits; waggle time is 0 and the wall clock unset; PHASE is ROM; the ceilings are the defaults, LOCAL_GIB is 88, each comb has VMIN 0, VMAX 0x3C, VFIX 0x28, band 0x19 to 0x4B, MODE paced and C0_HOLD 0x03E8; every ring is OFF with GEN 0 and no command; every word of every cell is 0 and no cell runs; every port is DARK with no key; no tenant holds an object; the error log and the meters are empty. (R33, R43, R75, R319, R375, R377.) -/
def Obligations.ResetLeaves : Prop :=
  SoundState State.reset ∧ State.reset.pending = [] ∧ State.reset.now = 0 ∧ State.reset.waggle.wallSet = false ∧
    State.reset.power.phase = .rom ∧ State.reset.power.lastReset = 0 ∧
    State.reset.settings.ceil = [109, 218, 438, 881, 1761, 3500] ∧ State.reset.settings.localGib = 88 ∧
    (∀ c, State.reset.pace c = { vmin := 0, vmax := 0x3C, vfix := 0x28, bandLo := 0x19, bandHi := 0x4B, paced := true, c0Hold := 0x03E8 }) ∧
    (∀ ten lring, (State.reset.ring ten lring).state = .off ∧ (State.reset.ring ten lring).gen = 0 ∧ (State.reset.ring ten lring).cmds = []) ∧
    (∀ cell addr, State.reset.word cell addr = 0 ∧ (State.reset.cell cell).seg = none) ∧ State.reset.segs = [] ∧
    (∀ p, (State.reset.port p).state = .dark ∧ (State.reset.port p).tx = none ∧ (State.reset.port p).rx = none) ∧
    (∀ ten, (State.reset.ten ten).sessions = [] ∧ (State.reset.ten ten).keysets = [] ∧ (State.reset.ten ten).models = [] ∧
      (State.reset.ten ten).gwSlots = [] ∧ (State.reset.ten ten).keySlots = [] ∧ (State.reset.ten ten).meters = [0, 0, 0, 0, 0, 0]) ∧
    State.reset.dram.objs = [] ∧ State.reset.log.written = 0 ∧ State.reset.meters.held = []

/-- From every state that meets the invariant, each step gives a state that meets it: DRAM stays in its canonical form and the fused security version stays within 63. The step leaves the serial number and the variant alone. It leaves the fused security version alone too, unless an image on trial was running and no longer is on trial: then the version is raised to that image's, and sticks at 63. (R392, R375, R376.) -/
def Obligations.EveryStepKeepsInvariant : Prop :=
  ∀ s s' : State, SoundState s → step s = .next s' →
    SoundState s' ∧ s'.fuses.serial = s.fuses.serial ∧ s'.fuses.variant = s.fuses.variant ∧
    (s'.fuses.svn = s.fuses.svn ∨
      (s.fw.trial = true ∧ s'.fw.trial = false ∧
        s'.fuses.svn = max s.fuses.svn (min 63 ((s.fw.slot s.fw.bootSlot).image.elim 0 (·.svn)))))
end

