-- ==== Sys2Proof/Laws/Tbl.lean ====
section
/-! SUPPORT. Laws of tables: reading after a write, deletion, and the canonical form that every operation keeps. -/

namespace Sys2Proof.Machine

variable {α : Type}

@[simp] theorem Tbl.look_nil (k : Nat) : Tbl.look ([] : Tbl α) k = none := rfl

theorem Tbl.look_cons (i : Nat) (v : α) (r : Tbl α) (k : Nat) :
    Tbl.look ((i, v) :: r) k = if i = k then some v else Tbl.look r k := rfl

@[simp] theorem Tbl.lookD_nil (k : Nat) (d : α) : Tbl.lookD ([] : Tbl α) k d = d := rfl

@[simp] theorem Tbl.look_put_self (t : Tbl α) (k : Nat) (v : α) : Tbl.look (Tbl.put t k v) k = some v := by
  induction t with
  | nil => simp [Tbl.put, Tbl.look]
  | cons e r ih =>
    obtain ⟨i, w⟩ := e
    by_cases h : k < i
    · simp [Tbl.put, Tbl.look, h]
    · by_cases h' : k = i
      · simp [Tbl.put, Tbl.look, h']
      · have : i ≠ k := fun e => h' e.symm
        simp [Tbl.put, Tbl.look, h, h', this, ih]

theorem Tbl.look_put_other (t : Tbl α) {k j : Nat} (v : α) (hne : j ≠ k) :
    Tbl.look (Tbl.put t k v) j = Tbl.look t j := by
  have hkj : ¬ k = j := fun e => hne e.symm
  induction t with
  | nil => simp [Tbl.put, Tbl.look, hkj]
  | cons e r ih =>
    obtain ⟨i, w⟩ := e
    by_cases h : k < i
    · simp [Tbl.put, Tbl.look, h, hkj]
    · by_cases h' : k = i
      · subst h'; simp [Tbl.put, Tbl.look, hkj]
      · simp [Tbl.put, Tbl.look, h, h', ih]

@[simp] theorem Tbl.lookD_put_self (t : Tbl α) (k : Nat) (v d : α) : Tbl.lookD (Tbl.put t k v) k d = v := by
  simp [Tbl.lookD]

theorem Tbl.lookD_put_other (t : Tbl α) {k j : Nat} (v d : α) (hne : j ≠ k) :
    Tbl.lookD (Tbl.put t k v) j d = Tbl.lookD t j d := by
  simp [Tbl.lookD, Tbl.look_put_other t v hne]

@[simp] theorem Tbl.lookD_upd_self (t : Tbl α) (k : Nat) (d : α) (f : α → α) :
    Tbl.lookD (Tbl.upd t k d f) k d = f (Tbl.lookD t k d) := by simp [Tbl.upd]

theorem Tbl.lookD_upd_other (t : Tbl α) {k j : Nat} (d : α) (f : α → α) (hne : j ≠ k) :
    Tbl.lookD (Tbl.upd t k d f) j d = Tbl.lookD t j d := by simp [Tbl.upd, Tbl.lookD_put_other t _ d hne]

/-! ### Keys strictly rising -/

theorem Tbl.wf_tail {i : Nat} {v : α} {r : Tbl α} (h : Tbl.wf ((i, v) :: r) = true) : Tbl.wf r = true := by
  cases r with
  | nil => rfl
  | cons e r' =>
    obtain ⟨j, w⟩ := e
    simp only [Tbl.wf, Tbl.above, Bool.and_eq_true, decide_eq_true_eq] at h ⊢
    exact h.2

theorem Tbl.above_mono {lo lo' : Nat} (h : lo' ≤ lo) {t : Tbl α} (ha : Tbl.above lo t = true) :
    Tbl.above lo' t = true := by
  cases t with
  | nil => rfl
  | cons e r =>
    obtain ⟨i, w⟩ := e
    simp only [Tbl.above, Bool.and_eq_true, decide_eq_true_eq] at ha ⊢
    exact ⟨by omega, ha.2⟩

theorem Tbl.look_below {lo k : Nat} (hk : k ≤ lo) {t : Tbl α} (ha : Tbl.above lo t = true) :
    Tbl.look t k = none := by
  induction t generalizing lo with
  | nil => rfl
  | cons e r ih =>
    obtain ⟨i, w⟩ := e
    simp only [Tbl.above, Bool.and_eq_true, decide_eq_true_eq] at ha
    have hne : i ≠ k := by omega
    simp only [Tbl.look, hne, if_false]
    exact ih (by omega) ha.2

theorem Tbl.above_put {lo k : Nat} (hlo : lo < k) (v : α) {t : Tbl α} (ha : Tbl.above lo t = true) :
    Tbl.above lo (Tbl.put t k v) = true := by
  induction t generalizing lo with
  | nil => simp [Tbl.put, Tbl.above, hlo]
  | cons e r ih =>
    obtain ⟨i, w⟩ := e
    simp only [Tbl.above, Bool.and_eq_true, decide_eq_true_eq] at ha
    by_cases h : k < i
    · simp [Tbl.put, h, Tbl.above, hlo, ha.2]
    · by_cases h' : k = i
      · subst h'; simp [Tbl.put, Tbl.above, hlo, ha.2]
      · simp only [Tbl.put, h, h', if_false, Tbl.above, Bool.and_eq_true, decide_eq_true_eq]
        exact ⟨ha.1, ih (by omega) ha.2⟩

/-- Writing an entry keeps the keys strictly rising. -/
theorem Tbl.wf_put (t : Tbl α) (k : Nat) (v : α) (h : Tbl.wf t = true) : Tbl.wf (Tbl.put t k v) = true := by
  cases t with
  | nil => rfl
  | cons e r =>
    obtain ⟨i, w⟩ := e
    simp only [Tbl.wf] at h
    by_cases hk : k < i
    · simp [Tbl.put, hk, Tbl.wf, Tbl.above, h]
    · by_cases hki : k = i
      · subst hki; simpa [Tbl.put, Tbl.wf] using h
      · simp only [Tbl.put, hk, hki, if_false, Tbl.wf]
        exact Tbl.above_put (by omega) v h

theorem Tbl.above_filter {lo : Nat} (p : Nat × α → Bool) {t : Tbl α} (ha : Tbl.above lo t = true) :
    Tbl.above lo (t.filter p) = true := by
  induction t generalizing lo with
  | nil => rfl
  | cons e r ih =>
    obtain ⟨i, w⟩ := e
    simp only [Tbl.above, Bool.and_eq_true, decide_eq_true_eq] at ha
    by_cases h : p (i, w) = true
    · simp only [List.filter_cons_of_pos h, Tbl.above, Bool.and_eq_true, decide_eq_true_eq]
      exact ⟨ha.1, ih ha.2⟩
    · simp only [List.filter_cons_of_neg h]
      exact Tbl.above_mono (by omega) (ih ha.2)

/-- Dropping entries keeps the keys strictly rising. -/
theorem Tbl.wf_filter (p : Nat × α → Bool) (t : Tbl α) (h : Tbl.wf t = true) : Tbl.wf (t.filter p) = true := by
  cases t with
  | nil => rfl
  | cons e r =>
    obtain ⟨i, w⟩ := e
    by_cases hp : p (i, w) = true
    · simp only [List.filter_cons_of_pos hp]; exact Tbl.above_filter p h
    · simp only [List.filter_cons_of_neg hp]
      have := Tbl.above_filter p h
      cases hf : r.filter p with
      | nil => rfl
      | cons e' r' =>
        obtain ⟨j, u⟩ := e'
        rw [hf] at this
        simp only [Tbl.above, Bool.and_eq_true] at this
        exact this.2

/-- Deleting an entry keeps the keys strictly rising. -/
theorem Tbl.wf_del (t : Tbl α) (k : Nat) (h : Tbl.wf t = true) : Tbl.wf (Tbl.del t k) = true := Tbl.wf_filter _ t h

/-- A deleted key reads as not listed. -/
@[simp] theorem Tbl.look_del_self (t : Tbl α) (k : Nat) : Tbl.look (Tbl.del t k) k = none := by
  induction t with
  | nil => rfl
  | cons e r ih =>
    obtain ⟨i, w⟩ := e
    by_cases hk : i = k
    · simpa [Tbl.del, hk] using ih
    · simpa [Tbl.del, hk, Tbl.look] using ih

theorem Tbl.look_del_other (t : Tbl α) {k j : Nat} (hne : j ≠ k) : Tbl.look (Tbl.del t k) j = Tbl.look t j := by
  induction t with
  | nil => rfl
  | cons e r ih =>
    obtain ⟨i, w⟩ := e
    by_cases hk : i = k
    · have : ¬ k = j := fun e => hne e.symm
      simpa [Tbl.del, hk, Tbl.look, this] using ih
    · have h2 : Tbl.del ((i, w) :: r) k = (i, w) :: Tbl.del r k := by simp [Tbl.del, hk]
      rw [h2, Tbl.look, Tbl.look, ih]

theorem Tbl.mem_put_self (t : Tbl α) (k : Nat) (v : α) : (k, v) ∈ Tbl.put t k v := by
  induction t with
  | nil => simp [Tbl.put]
  | cons e r ih =>
    obtain ⟨i, w⟩ := e
    unfold Tbl.put
    split
    · exact List.mem_cons_self ..
    · split
      · exact List.mem_cons_self ..
      · exact List.mem_cons_of_mem _ ih

theorem Tbl.mem_put {t : Tbl α} {k : Nat} {v : α} {x : Nat × α} (h : x ∈ Tbl.put t k v) : x = (k, v) ∨ x ∈ t := by
  induction t with
  | nil => simpa [Tbl.put] using h
  | cons e r ih =>
    obtain ⟨i, w⟩ := e
    by_cases hk : k < i
    · simpa [Tbl.put, hk] using h
    · by_cases hki : k = i
      · subst hki
        simp only [Tbl.put, lt_irrefl, if_true, if_false, List.mem_cons] at h ⊢
        exact h.imp id .inr
      · simp only [Tbl.put, hk, hki, if_false, List.mem_cons] at h ⊢
        rcases h with h | h
        · exact .inr (.inl h)
        · rcases ih h with h | h
          · exact .inl h
          · exact .inr (.inr h)

theorem Tbl.mem_del {t : Tbl α} {k : Nat} {x : Nat × α} (h : x ∈ Tbl.del t k) : x ∈ t := List.mem_of_mem_filter h

end Sys2Proof.Machine
end

