-- ==== Sys2Proof/Laws/Memory.lean ====
section
/-! SUPPORT. Laws of the device DRAM: every memory operation keeps the canonical form, a read after a write gives the value written, and every other byte stays. -/

namespace Sys2Proof.Machine

/-- The canonical form says: addresses strictly rising, no zero byte listed. -/
theorem Memory.wf_iff (m : List Host.Cell) :
    Memory.wf m = true ↔ Tbl.wf (α := Byte) m = true ∧ ∀ c ∈ m, c.2 ≠ 0#8 := by
  simp [Memory.wf]

@[simp] theorem Memory.wf_nil : Memory.wf [] = true := rfl

theorem Memory.wf_put (m : List Host.Cell) (a : Nat) (b : Byte) (h : Memory.wf m = true) :
    Memory.wf (Memory.put m a b) = true := by
  rw [Memory.wf_iff] at h ⊢
  by_cases hb : b = 0#8
  · simp only [Memory.put, hb, if_true]
    exact ⟨Tbl.wf_del m a h.1, fun c hc => h.2 c (Tbl.mem_del hc)⟩
  · simp only [Memory.put, hb, if_false]
    refine ⟨Tbl.wf_put m a b h.1, fun c hc => ?_⟩
    rcases Tbl.mem_put hc with rfl | hc
    · exact hb
    · exact h.2 c hc

theorem Memory.wf_puts (ws : List (Nat × Byte)) (m : List Host.Cell) (h : Memory.wf m = true) :
    Memory.wf (Memory.puts m ws) = true := by
  induction ws generalizing m with
  | nil => exact h
  | cons w r ih => obtain ⟨a, b⟩ := w; exact ih _ (Memory.wf_put m a b h)

theorem Memory.wf_filter (p : Host.Cell → Bool) (m : List Host.Cell) (h : Memory.wf m = true) :
    Memory.wf (m.filter p) = true := by
  rw [Memory.wf_iff] at h ⊢
  exact ⟨Tbl.wf_filter p m h.1, fun c hc => h.2 c (List.mem_of_mem_filter hc)⟩

/-- A write keeps the canonical form. -/
theorem Dram.wf_write (d : Dram) (ws : List (Nat × Byte)) (h : Memory.wf d.cells = true) :
    Memory.wf (d.write ws).cells = true := Memory.wf_puts ws d.cells h

/-- A scrub of pages keeps the canonical form. -/
theorem Dram.wf_scrubPages (d : Dram) (f : Nat → Bool) (h : Memory.wf d.cells = true) :
    Memory.wf (d.scrubPages f).cells = true := Memory.wf_filter _ _ h

@[simp] theorem Dram.free_cells (d : Dram) (id : Nat) : (d.free id).cells = d.cells := by
  unfold Dram.free; split <;> rfl

@[simp] theorem Dram.free_poison (d : Dram) (id : Nat) : (d.free id).poison = d.poison := by
  unfold Dram.free; split <;> rfl

/-- The byte written is the byte read. -/
theorem Dram.byte_put_self (m : List Host.Cell) (a : Nat) (b : Byte) :
    Tbl.lookD (α := Byte) (Memory.put m a b) a 0#8 = b := by
  by_cases hb : b = 0#8
  · simp [Memory.put, hb, Tbl.lookD, Tbl.look_del_self (α := Byte) m a]
  · simp [Memory.put, hb]

/-- A write leaves every other byte. -/
theorem Dram.byte_put_other (m : List Host.Cell) {a x : Nat} (b : Byte) (hne : x ≠ a) :
    Tbl.lookD (α := Byte) (Memory.put m a b) x 0#8 = Tbl.lookD (α := Byte) m x 0#8 := by
  by_cases hb : b = 0#8
  · simp [Memory.put, hb, Tbl.lookD, Tbl.look_del_other m hne]
  · simp [Memory.put, hb, Tbl.lookD_put_other m b 0#8 hne]

theorem Memory.puts_other (ws : List (Nat × Byte)) (m : List Host.Cell) {x : Nat} (h : ∀ w ∈ ws, w.1 ≠ x) :
    Tbl.lookD (α := Byte) (Memory.puts m ws) x 0#8 = Tbl.lookD (α := Byte) m x 0#8 := by
  induction ws generalizing m with
  | nil => rfl
  | cons w r ih =>
    obtain ⟨a, b⟩ := w
    have ha : x ≠ a := fun e => h (a, b) (List.mem_cons_self ..) e.symm
    rw [Memory.puts, ih _ (fun w hw => h w (List.mem_cons_of_mem _ hw)), Dram.byte_put_other m b ha]

/-- A write leaves every byte that it does not list. -/
theorem Dram.byte_write_other (d : Dram) (ws : List (Nat × Byte)) {x : Nat} (h : ∀ w ∈ ws, w.1 ≠ x) :
    (d.write ws).byte x = d.byte x := Memory.puts_other ws d.cells h

end Sys2Proof.Machine
end

