-- ==== Sys2Proof/Laws/State.lean ====
section
/-! SUPPORT. What each shared update of State leaves and changes, field by field, and what reading the changed entry gives. -/

namespace Sys2Proof.Machine

section

variable (s : State)

@[simp] theorem State.advance_pending (t : Nat) : (s.advance t).pending = s.pending := rfl
@[simp] theorem State.advance_now (t : Nat) : (s.advance t).now = max s.now t := rfl
@[simp] theorem State.advance_free (t : Nat) : (s.advance t).free = s.free := rfl
@[simp] theorem State.advance_draws (t : Nat) : (s.advance t).draws = s.draws := rfl
@[simp] theorem State.advance_nextId (t : Nat) : (s.advance t).nextId = s.nextId := rfl
@[simp] theorem State.advance_fetches (t : Nat) : (s.advance t).fetches = s.fetches := rfl
@[simp] theorem State.advance_out (t : Nat) : (s.advance t).out = s.out := rfl
@[simp] theorem State.advance_fuses (t : Nat) : (s.advance t).fuses = s.fuses := rfl
@[simp] theorem State.advance_settings (t : Nat) : (s.advance t).settings = s.settings := rfl
@[simp] theorem State.advance_power (t : Nat) : (s.advance t).power = s.power := rfl
@[simp] theorem State.advance_elec (t : Nat) : (s.advance t).elec = s.elec := rfl
@[simp] theorem State.advance_lanes (t : Nat) : (s.advance t).lanes = s.lanes := rfl
@[simp] theorem State.advance_waggle (t : Nat) : (s.advance t).waggle = s.waggle := rfl
@[simp] theorem State.advance_rgTen (t : Nat) : (s.advance t).rgTen = s.rgTen := rfl
@[simp] theorem State.advance_tnSel (t : Nat) : (s.advance t).tnSel = s.tnSel := rfl
@[simp] theorem State.advance_pollAt (t : Nat) : (s.advance t).pollAt = s.pollAt := rfl
@[simp] theorem State.advance_msixHeld (t : Nat) : (s.advance t).msixHeld = s.msixHeld := rfl
@[simp] theorem State.advance_tenants (t : Nat) : (s.advance t).tenants = s.tenants := rfl
@[simp] theorem State.advance_rings (t : Nat) : (s.advance t).rings = s.rings := rfl
@[simp] theorem State.advance_dram (t : Nat) : (s.advance t).dram = s.dram := rfl
@[simp] theorem State.advance_combs (t : Nat) : (s.advance t).combs = s.combs := rfl
@[simp] theorem State.advance_cells (t : Nat) : (s.advance t).cells = s.cells := rfl
@[simp] theorem State.advance_segs (t : Nat) : (s.advance t).segs = s.segs := rfl
@[simp] theorem State.advance_entropy (t : Nat) : (s.advance t).entropy = s.entropy := rfl
@[simp] theorem State.advance_log (t : Nat) : (s.advance t).log = s.log := rfl
@[simp] theorem State.advance_meters (t : Nat) : (s.advance t).meters = s.meters := rfl
@[simp] theorem State.advance_sec (t : Nat) : (s.advance t).sec = s.sec := rfl
@[simp] theorem State.advance_fabric (t : Nat) : (s.advance t).fabric = s.fabric := rfl
@[simp] theorem State.advance_fw (t : Nat) : (s.advance t).fw = s.fw := rfl
@[simp] theorem State.advance_ten_entry (t : Nat) (i : Nat) : (s.advance t).ten i = s.ten i := rfl
@[simp] theorem State.advance_comb_entry (t : Nat) (i : Nat) : (s.advance t).comb i = s.comb i := rfl
@[simp] theorem State.advance_cell_entry (t : Nat) (i : Nat) : (s.advance t).cell i = s.cell i := rfl
@[simp] theorem State.advance_port_entry (t : Nat) (i : Nat) : (s.advance t).port i = s.port i := rfl
@[simp] theorem State.advance_tnSet_entry (t : Nat) (i : Nat) : (s.advance t).tnSet i = s.tnSet i := rfl
@[simp] theorem State.advance_pace_entry (t : Nat) (i : Nat) : (s.advance t).pace i = s.pace i := rfl
@[simp] theorem State.advance_portSet_entry (t : Nat) (i : Nat) : (s.advance t).portSet i = s.portSet i := rfl
@[simp] theorem State.advance_ring_entry (t : Nat) (i j : Nat) : (s.advance t).ring i j = s.ring i j := rfl
@[simp] theorem State.advance_dir_entry (t : Nat) (i j : Nat) : (s.advance t).dir i j = s.dir i j := rfl
@[simp] theorem State.advance_cmd_entry (t : Nat) (i j l : Nat) : (s.advance t).cmd? i j l = s.cmd? i j l := rfl
@[simp] theorem State.advance_seg_entry (t : Nat) (i : Nat) : (s.advance t).seg? i = s.seg? i := rfl

@[simp] theorem State.skipFrees_pending (n : Nat) : (s.skipFrees n).pending = s.pending := rfl
@[simp] theorem State.skipFrees_now (n : Nat) : (s.skipFrees n).now = s.now := rfl
@[simp] theorem State.skipFrees_free (n : Nat) : (s.skipFrees n).free = s.free + n := rfl
@[simp] theorem State.skipFrees_draws (n : Nat) : (s.skipFrees n).draws = s.draws := rfl
@[simp] theorem State.skipFrees_nextId (n : Nat) : (s.skipFrees n).nextId = s.nextId := rfl
@[simp] theorem State.skipFrees_fetches (n : Nat) : (s.skipFrees n).fetches = s.fetches := rfl
@[simp] theorem State.skipFrees_out (n : Nat) : (s.skipFrees n).out = s.out := rfl
@[simp] theorem State.skipFrees_fuses (n : Nat) : (s.skipFrees n).fuses = s.fuses := rfl
@[simp] theorem State.skipFrees_settings (n : Nat) : (s.skipFrees n).settings = s.settings := rfl
@[simp] theorem State.skipFrees_power (n : Nat) : (s.skipFrees n).power = s.power := rfl
@[simp] theorem State.skipFrees_elec (n : Nat) : (s.skipFrees n).elec = s.elec := rfl
@[simp] theorem State.skipFrees_lanes (n : Nat) : (s.skipFrees n).lanes = s.lanes := rfl
@[simp] theorem State.skipFrees_waggle (n : Nat) : (s.skipFrees n).waggle = s.waggle := rfl
@[simp] theorem State.skipFrees_rgTen (n : Nat) : (s.skipFrees n).rgTen = s.rgTen := rfl
@[simp] theorem State.skipFrees_tnSel (n : Nat) : (s.skipFrees n).tnSel = s.tnSel := rfl
@[simp] theorem State.skipFrees_pollAt (n : Nat) : (s.skipFrees n).pollAt = s.pollAt := rfl
@[simp] theorem State.skipFrees_msixHeld (n : Nat) : (s.skipFrees n).msixHeld = s.msixHeld := rfl
@[simp] theorem State.skipFrees_tenants (n : Nat) : (s.skipFrees n).tenants = s.tenants := rfl
@[simp] theorem State.skipFrees_rings (n : Nat) : (s.skipFrees n).rings = s.rings := rfl
@[simp] theorem State.skipFrees_dram (n : Nat) : (s.skipFrees n).dram = s.dram := rfl
@[simp] theorem State.skipFrees_combs (n : Nat) : (s.skipFrees n).combs = s.combs := rfl
@[simp] theorem State.skipFrees_cells (n : Nat) : (s.skipFrees n).cells = s.cells := rfl
@[simp] theorem State.skipFrees_segs (n : Nat) : (s.skipFrees n).segs = s.segs := rfl
@[simp] theorem State.skipFrees_entropy (n : Nat) : (s.skipFrees n).entropy = s.entropy := rfl
@[simp] theorem State.skipFrees_log (n : Nat) : (s.skipFrees n).log = s.log := rfl
@[simp] theorem State.skipFrees_meters (n : Nat) : (s.skipFrees n).meters = s.meters := rfl
@[simp] theorem State.skipFrees_sec (n : Nat) : (s.skipFrees n).sec = s.sec := rfl
@[simp] theorem State.skipFrees_fabric (n : Nat) : (s.skipFrees n).fabric = s.fabric := rfl
@[simp] theorem State.skipFrees_fw (n : Nat) : (s.skipFrees n).fw = s.fw := rfl
@[simp] theorem State.skipFrees_ten_entry (n : Nat) (i : Nat) : (s.skipFrees n).ten i = s.ten i := rfl
@[simp] theorem State.skipFrees_comb_entry (n : Nat) (i : Nat) : (s.skipFrees n).comb i = s.comb i := rfl
@[simp] theorem State.skipFrees_cell_entry (n : Nat) (i : Nat) : (s.skipFrees n).cell i = s.cell i := rfl
@[simp] theorem State.skipFrees_port_entry (n : Nat) (i : Nat) : (s.skipFrees n).port i = s.port i := rfl
@[simp] theorem State.skipFrees_tnSet_entry (n : Nat) (i : Nat) : (s.skipFrees n).tnSet i = s.tnSet i := rfl
@[simp] theorem State.skipFrees_pace_entry (n : Nat) (i : Nat) : (s.skipFrees n).pace i = s.pace i := rfl
@[simp] theorem State.skipFrees_portSet_entry (n : Nat) (i : Nat) : (s.skipFrees n).portSet i = s.portSet i := rfl
@[simp] theorem State.skipFrees_ring_entry (n : Nat) (i j : Nat) : (s.skipFrees n).ring i j = s.ring i j := rfl
@[simp] theorem State.skipFrees_dir_entry (n : Nat) (i j : Nat) : (s.skipFrees n).dir i j = s.dir i j := rfl
@[simp] theorem State.skipFrees_cmd_entry (n : Nat) (i j l : Nat) : (s.skipFrees n).cmd? i j l = s.cmd? i j l := rfl
@[simp] theorem State.skipFrees_seg_entry (n : Nat) (i : Nat) : (s.skipFrees n).seg? i = s.seg? i := rfl

@[simp] theorem State.skipRandoms_pending (n : Nat) : (s.skipRandoms n).pending = s.pending := rfl
@[simp] theorem State.skipRandoms_now (n : Nat) : (s.skipRandoms n).now = s.now := rfl
@[simp] theorem State.skipRandoms_free (n : Nat) : (s.skipRandoms n).free = s.free := rfl
@[simp] theorem State.skipRandoms_draws (n : Nat) : (s.skipRandoms n).draws = s.draws + n := rfl
@[simp] theorem State.skipRandoms_nextId (n : Nat) : (s.skipRandoms n).nextId = s.nextId := rfl
@[simp] theorem State.skipRandoms_fetches (n : Nat) : (s.skipRandoms n).fetches = s.fetches := rfl
@[simp] theorem State.skipRandoms_out (n : Nat) : (s.skipRandoms n).out = s.out := rfl
@[simp] theorem State.skipRandoms_fuses (n : Nat) : (s.skipRandoms n).fuses = s.fuses := rfl
@[simp] theorem State.skipRandoms_settings (n : Nat) : (s.skipRandoms n).settings = s.settings := rfl
@[simp] theorem State.skipRandoms_power (n : Nat) : (s.skipRandoms n).power = s.power := rfl
@[simp] theorem State.skipRandoms_elec (n : Nat) : (s.skipRandoms n).elec = s.elec := rfl
@[simp] theorem State.skipRandoms_lanes (n : Nat) : (s.skipRandoms n).lanes = s.lanes := rfl
@[simp] theorem State.skipRandoms_waggle (n : Nat) : (s.skipRandoms n).waggle = s.waggle := rfl
@[simp] theorem State.skipRandoms_rgTen (n : Nat) : (s.skipRandoms n).rgTen = s.rgTen := rfl
@[simp] theorem State.skipRandoms_tnSel (n : Nat) : (s.skipRandoms n).tnSel = s.tnSel := rfl
@[simp] theorem State.skipRandoms_pollAt (n : Nat) : (s.skipRandoms n).pollAt = s.pollAt := rfl
@[simp] theorem State.skipRandoms_msixHeld (n : Nat) : (s.skipRandoms n).msixHeld = s.msixHeld := rfl
@[simp] theorem State.skipRandoms_tenants (n : Nat) : (s.skipRandoms n).tenants = s.tenants := rfl
@[simp] theorem State.skipRandoms_rings (n : Nat) : (s.skipRandoms n).rings = s.rings := rfl
@[simp] theorem State.skipRandoms_dram (n : Nat) : (s.skipRandoms n).dram = s.dram := rfl
@[simp] theorem State.skipRandoms_combs (n : Nat) : (s.skipRandoms n).combs = s.combs := rfl
@[simp] theorem State.skipRandoms_cells (n : Nat) : (s.skipRandoms n).cells = s.cells := rfl
@[simp] theorem State.skipRandoms_segs (n : Nat) : (s.skipRandoms n).segs = s.segs := rfl
@[simp] theorem State.skipRandoms_entropy (n : Nat) : (s.skipRandoms n).entropy = s.entropy := rfl
@[simp] theorem State.skipRandoms_log (n : Nat) : (s.skipRandoms n).log = s.log := rfl
@[simp] theorem State.skipRandoms_meters (n : Nat) : (s.skipRandoms n).meters = s.meters := rfl
@[simp] theorem State.skipRandoms_sec (n : Nat) : (s.skipRandoms n).sec = s.sec := rfl
@[simp] theorem State.skipRandoms_fabric (n : Nat) : (s.skipRandoms n).fabric = s.fabric := rfl
@[simp] theorem State.skipRandoms_fw (n : Nat) : (s.skipRandoms n).fw = s.fw := rfl
@[simp] theorem State.skipRandoms_ten_entry (n : Nat) (i : Nat) : (s.skipRandoms n).ten i = s.ten i := rfl
@[simp] theorem State.skipRandoms_comb_entry (n : Nat) (i : Nat) : (s.skipRandoms n).comb i = s.comb i := rfl
@[simp] theorem State.skipRandoms_cell_entry (n : Nat) (i : Nat) : (s.skipRandoms n).cell i = s.cell i := rfl
@[simp] theorem State.skipRandoms_port_entry (n : Nat) (i : Nat) : (s.skipRandoms n).port i = s.port i := rfl
@[simp] theorem State.skipRandoms_tnSet_entry (n : Nat) (i : Nat) : (s.skipRandoms n).tnSet i = s.tnSet i := rfl
@[simp] theorem State.skipRandoms_pace_entry (n : Nat) (i : Nat) : (s.skipRandoms n).pace i = s.pace i := rfl
@[simp] theorem State.skipRandoms_portSet_entry (n : Nat) (i : Nat) : (s.skipRandoms n).portSet i = s.portSet i := rfl
@[simp] theorem State.skipRandoms_ring_entry (n : Nat) (i j : Nat) : (s.skipRandoms n).ring i j = s.ring i j := rfl
@[simp] theorem State.skipRandoms_dir_entry (n : Nat) (i j : Nat) : (s.skipRandoms n).dir i j = s.dir i j := rfl
@[simp] theorem State.skipRandoms_cmd_entry (n : Nat) (i j l : Nat) : (s.skipRandoms n).cmd? i j l = s.cmd? i j l := rfl
@[simp] theorem State.skipRandoms_seg_entry (n : Nat) (i : Nat) : (s.skipRandoms n).seg? i = s.seg? i := rfl

@[simp] theorem State.emit_pending (o : Out) : (s.emit o).pending = s.pending := rfl
@[simp] theorem State.emit_now (o : Out) : (s.emit o).now = s.now := rfl
@[simp] theorem State.emit_free (o : Out) : (s.emit o).free = s.free := rfl
@[simp] theorem State.emit_draws (o : Out) : (s.emit o).draws = s.draws := rfl
@[simp] theorem State.emit_nextId (o : Out) : (s.emit o).nextId = s.nextId := rfl
@[simp] theorem State.emit_fetches (o : Out) : (s.emit o).fetches = s.fetches := rfl
@[simp] theorem State.emit_out (o : Out) : (s.emit o).out = o :: s.out := rfl
@[simp] theorem State.emit_fuses (o : Out) : (s.emit o).fuses = s.fuses := rfl
@[simp] theorem State.emit_settings (o : Out) : (s.emit o).settings = s.settings := rfl
@[simp] theorem State.emit_power (o : Out) : (s.emit o).power = s.power := rfl
@[simp] theorem State.emit_elec (o : Out) : (s.emit o).elec = s.elec := rfl
@[simp] theorem State.emit_lanes (o : Out) : (s.emit o).lanes = s.lanes := rfl
@[simp] theorem State.emit_waggle (o : Out) : (s.emit o).waggle = s.waggle := rfl
@[simp] theorem State.emit_rgTen (o : Out) : (s.emit o).rgTen = s.rgTen := rfl
@[simp] theorem State.emit_tnSel (o : Out) : (s.emit o).tnSel = s.tnSel := rfl
@[simp] theorem State.emit_pollAt (o : Out) : (s.emit o).pollAt = s.pollAt := rfl
@[simp] theorem State.emit_msixHeld (o : Out) : (s.emit o).msixHeld = s.msixHeld := rfl
@[simp] theorem State.emit_tenants (o : Out) : (s.emit o).tenants = s.tenants := rfl
@[simp] theorem State.emit_rings (o : Out) : (s.emit o).rings = s.rings := rfl
@[simp] theorem State.emit_dram (o : Out) : (s.emit o).dram = s.dram := rfl
@[simp] theorem State.emit_combs (o : Out) : (s.emit o).combs = s.combs := rfl
@[simp] theorem State.emit_cells (o : Out) : (s.emit o).cells = s.cells := rfl
@[simp] theorem State.emit_segs (o : Out) : (s.emit o).segs = s.segs := rfl
@[simp] theorem State.emit_entropy (o : Out) : (s.emit o).entropy = s.entropy := rfl
@[simp] theorem State.emit_log (o : Out) : (s.emit o).log = s.log := rfl
@[simp] theorem State.emit_meters (o : Out) : (s.emit o).meters = s.meters := rfl
@[simp] theorem State.emit_sec (o : Out) : (s.emit o).sec = s.sec := rfl
@[simp] theorem State.emit_fabric (o : Out) : (s.emit o).fabric = s.fabric := rfl
@[simp] theorem State.emit_fw (o : Out) : (s.emit o).fw = s.fw := rfl
@[simp] theorem State.emit_ten_entry (o : Out) (i : Nat) : (s.emit o).ten i = s.ten i := rfl
@[simp] theorem State.emit_comb_entry (o : Out) (i : Nat) : (s.emit o).comb i = s.comb i := rfl
@[simp] theorem State.emit_cell_entry (o : Out) (i : Nat) : (s.emit o).cell i = s.cell i := rfl
@[simp] theorem State.emit_port_entry (o : Out) (i : Nat) : (s.emit o).port i = s.port i := rfl
@[simp] theorem State.emit_tnSet_entry (o : Out) (i : Nat) : (s.emit o).tnSet i = s.tnSet i := rfl
@[simp] theorem State.emit_pace_entry (o : Out) (i : Nat) : (s.emit o).pace i = s.pace i := rfl
@[simp] theorem State.emit_portSet_entry (o : Out) (i : Nat) : (s.emit o).portSet i = s.portSet i := rfl
@[simp] theorem State.emit_ring_entry (o : Out) (i j : Nat) : (s.emit o).ring i j = s.ring i j := rfl
@[simp] theorem State.emit_dir_entry (o : Out) (i j : Nat) : (s.emit o).dir i j = s.dir i j := rfl
@[simp] theorem State.emit_cmd_entry (o : Out) (i j l : Nat) : (s.emit o).cmd? i j l = s.cmd? i j l := rfl
@[simp] theorem State.emit_seg_entry (o : Out) (i : Nat) : (s.emit o).seg? i = s.seg? i := rfl

@[simp] theorem State.updTen_pending (k : Nat) (f : Tenant → Tenant) : (s.updTen k f).pending = s.pending := rfl
@[simp] theorem State.updTen_now (k : Nat) (f : Tenant → Tenant) : (s.updTen k f).now = s.now := rfl
@[simp] theorem State.updTen_free (k : Nat) (f : Tenant → Tenant) : (s.updTen k f).free = s.free := rfl
@[simp] theorem State.updTen_draws (k : Nat) (f : Tenant → Tenant) : (s.updTen k f).draws = s.draws := rfl
@[simp] theorem State.updTen_nextId (k : Nat) (f : Tenant → Tenant) : (s.updTen k f).nextId = s.nextId := rfl
@[simp] theorem State.updTen_fetches (k : Nat) (f : Tenant → Tenant) : (s.updTen k f).fetches = s.fetches := rfl
@[simp] theorem State.updTen_out (k : Nat) (f : Tenant → Tenant) : (s.updTen k f).out = s.out := rfl
@[simp] theorem State.updTen_fuses (k : Nat) (f : Tenant → Tenant) : (s.updTen k f).fuses = s.fuses := rfl
@[simp] theorem State.updTen_settings (k : Nat) (f : Tenant → Tenant) : (s.updTen k f).settings = s.settings := rfl
@[simp] theorem State.updTen_power (k : Nat) (f : Tenant → Tenant) : (s.updTen k f).power = s.power := rfl
@[simp] theorem State.updTen_elec (k : Nat) (f : Tenant → Tenant) : (s.updTen k f).elec = s.elec := rfl
@[simp] theorem State.updTen_lanes (k : Nat) (f : Tenant → Tenant) : (s.updTen k f).lanes = s.lanes := rfl
@[simp] theorem State.updTen_waggle (k : Nat) (f : Tenant → Tenant) : (s.updTen k f).waggle = s.waggle := rfl
@[simp] theorem State.updTen_rgTen (k : Nat) (f : Tenant → Tenant) : (s.updTen k f).rgTen = s.rgTen := rfl
@[simp] theorem State.updTen_tnSel (k : Nat) (f : Tenant → Tenant) : (s.updTen k f).tnSel = s.tnSel := rfl
@[simp] theorem State.updTen_pollAt (k : Nat) (f : Tenant → Tenant) : (s.updTen k f).pollAt = s.pollAt := rfl
@[simp] theorem State.updTen_msixHeld (k : Nat) (f : Tenant → Tenant) : (s.updTen k f).msixHeld = s.msixHeld := rfl
@[simp] theorem State.updTen_tenants (k : Nat) (f : Tenant → Tenant) : (s.updTen k f).tenants = Tbl.upd s.tenants k Tenant.fresh f := rfl
@[simp] theorem State.updTen_rings (k : Nat) (f : Tenant → Tenant) : (s.updTen k f).rings = s.rings := rfl
@[simp] theorem State.updTen_dram (k : Nat) (f : Tenant → Tenant) : (s.updTen k f).dram = s.dram := rfl
@[simp] theorem State.updTen_combs (k : Nat) (f : Tenant → Tenant) : (s.updTen k f).combs = s.combs := rfl
@[simp] theorem State.updTen_cells (k : Nat) (f : Tenant → Tenant) : (s.updTen k f).cells = s.cells := rfl
@[simp] theorem State.updTen_segs (k : Nat) (f : Tenant → Tenant) : (s.updTen k f).segs = s.segs := rfl
@[simp] theorem State.updTen_entropy (k : Nat) (f : Tenant → Tenant) : (s.updTen k f).entropy = s.entropy := rfl
@[simp] theorem State.updTen_log (k : Nat) (f : Tenant → Tenant) : (s.updTen k f).log = s.log := rfl
@[simp] theorem State.updTen_meters (k : Nat) (f : Tenant → Tenant) : (s.updTen k f).meters = s.meters := rfl
@[simp] theorem State.updTen_sec (k : Nat) (f : Tenant → Tenant) : (s.updTen k f).sec = s.sec := rfl
@[simp] theorem State.updTen_fabric (k : Nat) (f : Tenant → Tenant) : (s.updTen k f).fabric = s.fabric := rfl
@[simp] theorem State.updTen_fw (k : Nat) (f : Tenant → Tenant) : (s.updTen k f).fw = s.fw := rfl
@[simp] theorem State.updTen_comb_entry (k : Nat) (f : Tenant → Tenant) (i : Nat) : (s.updTen k f).comb i = s.comb i := rfl
@[simp] theorem State.updTen_cell_entry (k : Nat) (f : Tenant → Tenant) (i : Nat) : (s.updTen k f).cell i = s.cell i := rfl
@[simp] theorem State.updTen_port_entry (k : Nat) (f : Tenant → Tenant) (i : Nat) : (s.updTen k f).port i = s.port i := rfl
@[simp] theorem State.updTen_tnSet_entry (k : Nat) (f : Tenant → Tenant) (i : Nat) : (s.updTen k f).tnSet i = s.tnSet i := rfl
@[simp] theorem State.updTen_pace_entry (k : Nat) (f : Tenant → Tenant) (i : Nat) : (s.updTen k f).pace i = s.pace i := rfl
@[simp] theorem State.updTen_portSet_entry (k : Nat) (f : Tenant → Tenant) (i : Nat) : (s.updTen k f).portSet i = s.portSet i := rfl
@[simp] theorem State.updTen_ring_entry (k : Nat) (f : Tenant → Tenant) (i j : Nat) : (s.updTen k f).ring i j = s.ring i j := rfl
@[simp] theorem State.updTen_dir_entry (k : Nat) (f : Tenant → Tenant) (i j : Nat) : (s.updTen k f).dir i j = s.dir i j := rfl
@[simp] theorem State.updTen_cmd_entry (k : Nat) (f : Tenant → Tenant) (i j l : Nat) : (s.updTen k f).cmd? i j l = s.cmd? i j l := rfl
@[simp] theorem State.updTen_seg_entry (k : Nat) (f : Tenant → Tenant) (i : Nat) : (s.updTen k f).seg? i = s.seg? i := rfl

@[simp] theorem State.updComb_pending (k : Nat) (f : Comb → Comb) : (s.updComb k f).pending = s.pending := rfl
@[simp] theorem State.updComb_now (k : Nat) (f : Comb → Comb) : (s.updComb k f).now = s.now := rfl
@[simp] theorem State.updComb_free (k : Nat) (f : Comb → Comb) : (s.updComb k f).free = s.free := rfl
@[simp] theorem State.updComb_draws (k : Nat) (f : Comb → Comb) : (s.updComb k f).draws = s.draws := rfl
@[simp] theorem State.updComb_nextId (k : Nat) (f : Comb → Comb) : (s.updComb k f).nextId = s.nextId := rfl
@[simp] theorem State.updComb_fetches (k : Nat) (f : Comb → Comb) : (s.updComb k f).fetches = s.fetches := rfl
@[simp] theorem State.updComb_out (k : Nat) (f : Comb → Comb) : (s.updComb k f).out = s.out := rfl
@[simp] theorem State.updComb_fuses (k : Nat) (f : Comb → Comb) : (s.updComb k f).fuses = s.fuses := rfl
@[simp] theorem State.updComb_settings (k : Nat) (f : Comb → Comb) : (s.updComb k f).settings = s.settings := rfl
@[simp] theorem State.updComb_power (k : Nat) (f : Comb → Comb) : (s.updComb k f).power = s.power := rfl
@[simp] theorem State.updComb_elec (k : Nat) (f : Comb → Comb) : (s.updComb k f).elec = s.elec := rfl
@[simp] theorem State.updComb_lanes (k : Nat) (f : Comb → Comb) : (s.updComb k f).lanes = s.lanes := rfl
@[simp] theorem State.updComb_waggle (k : Nat) (f : Comb → Comb) : (s.updComb k f).waggle = s.waggle := rfl
@[simp] theorem State.updComb_rgTen (k : Nat) (f : Comb → Comb) : (s.updComb k f).rgTen = s.rgTen := rfl
@[simp] theorem State.updComb_tnSel (k : Nat) (f : Comb → Comb) : (s.updComb k f).tnSel = s.tnSel := rfl
@[simp] theorem State.updComb_pollAt (k : Nat) (f : Comb → Comb) : (s.updComb k f).pollAt = s.pollAt := rfl
@[simp] theorem State.updComb_msixHeld (k : Nat) (f : Comb → Comb) : (s.updComb k f).msixHeld = s.msixHeld := rfl
@[simp] theorem State.updComb_tenants (k : Nat) (f : Comb → Comb) : (s.updComb k f).tenants = s.tenants := rfl
@[simp] theorem State.updComb_rings (k : Nat) (f : Comb → Comb) : (s.updComb k f).rings = s.rings := rfl
@[simp] theorem State.updComb_dram (k : Nat) (f : Comb → Comb) : (s.updComb k f).dram = s.dram := rfl
@[simp] theorem State.updComb_combs (k : Nat) (f : Comb → Comb) : (s.updComb k f).combs = Tbl.upd s.combs k Comb.fresh f := rfl
@[simp] theorem State.updComb_cells (k : Nat) (f : Comb → Comb) : (s.updComb k f).cells = s.cells := rfl
@[simp] theorem State.updComb_segs (k : Nat) (f : Comb → Comb) : (s.updComb k f).segs = s.segs := rfl
@[simp] theorem State.updComb_entropy (k : Nat) (f : Comb → Comb) : (s.updComb k f).entropy = s.entropy := rfl
@[simp] theorem State.updComb_log (k : Nat) (f : Comb → Comb) : (s.updComb k f).log = s.log := rfl
@[simp] theorem State.updComb_meters (k : Nat) (f : Comb → Comb) : (s.updComb k f).meters = s.meters := rfl
@[simp] theorem State.updComb_sec (k : Nat) (f : Comb → Comb) : (s.updComb k f).sec = s.sec := rfl
@[simp] theorem State.updComb_fabric (k : Nat) (f : Comb → Comb) : (s.updComb k f).fabric = s.fabric := rfl
@[simp] theorem State.updComb_fw (k : Nat) (f : Comb → Comb) : (s.updComb k f).fw = s.fw := rfl
@[simp] theorem State.updComb_ten_entry (k : Nat) (f : Comb → Comb) (i : Nat) : (s.updComb k f).ten i = s.ten i := rfl
@[simp] theorem State.updComb_cell_entry (k : Nat) (f : Comb → Comb) (i : Nat) : (s.updComb k f).cell i = s.cell i := rfl
@[simp] theorem State.updComb_port_entry (k : Nat) (f : Comb → Comb) (i : Nat) : (s.updComb k f).port i = s.port i := rfl
@[simp] theorem State.updComb_tnSet_entry (k : Nat) (f : Comb → Comb) (i : Nat) : (s.updComb k f).tnSet i = s.tnSet i := rfl
@[simp] theorem State.updComb_pace_entry (k : Nat) (f : Comb → Comb) (i : Nat) : (s.updComb k f).pace i = s.pace i := rfl
@[simp] theorem State.updComb_portSet_entry (k : Nat) (f : Comb → Comb) (i : Nat) : (s.updComb k f).portSet i = s.portSet i := rfl
@[simp] theorem State.updComb_ring_entry (k : Nat) (f : Comb → Comb) (i j : Nat) : (s.updComb k f).ring i j = s.ring i j := rfl
@[simp] theorem State.updComb_dir_entry (k : Nat) (f : Comb → Comb) (i j : Nat) : (s.updComb k f).dir i j = s.dir i j := rfl
@[simp] theorem State.updComb_cmd_entry (k : Nat) (f : Comb → Comb) (i j l : Nat) : (s.updComb k f).cmd? i j l = s.cmd? i j l := rfl
@[simp] theorem State.updComb_seg_entry (k : Nat) (f : Comb → Comb) (i : Nat) : (s.updComb k f).seg? i = s.seg? i := rfl

@[simp] theorem State.updCell_pending (k : Nat) (f : Cell → Cell) : (s.updCell k f).pending = s.pending := rfl
@[simp] theorem State.updCell_now (k : Nat) (f : Cell → Cell) : (s.updCell k f).now = s.now := rfl
@[simp] theorem State.updCell_free (k : Nat) (f : Cell → Cell) : (s.updCell k f).free = s.free := rfl
@[simp] theorem State.updCell_draws (k : Nat) (f : Cell → Cell) : (s.updCell k f).draws = s.draws := rfl
@[simp] theorem State.updCell_nextId (k : Nat) (f : Cell → Cell) : (s.updCell k f).nextId = s.nextId := rfl
@[simp] theorem State.updCell_fetches (k : Nat) (f : Cell → Cell) : (s.updCell k f).fetches = s.fetches := rfl
@[simp] theorem State.updCell_out (k : Nat) (f : Cell → Cell) : (s.updCell k f).out = s.out := rfl
@[simp] theorem State.updCell_fuses (k : Nat) (f : Cell → Cell) : (s.updCell k f).fuses = s.fuses := rfl
@[simp] theorem State.updCell_settings (k : Nat) (f : Cell → Cell) : (s.updCell k f).settings = s.settings := rfl
@[simp] theorem State.updCell_power (k : Nat) (f : Cell → Cell) : (s.updCell k f).power = s.power := rfl
@[simp] theorem State.updCell_elec (k : Nat) (f : Cell → Cell) : (s.updCell k f).elec = s.elec := rfl
@[simp] theorem State.updCell_lanes (k : Nat) (f : Cell → Cell) : (s.updCell k f).lanes = s.lanes := rfl
@[simp] theorem State.updCell_waggle (k : Nat) (f : Cell → Cell) : (s.updCell k f).waggle = s.waggle := rfl
@[simp] theorem State.updCell_rgTen (k : Nat) (f : Cell → Cell) : (s.updCell k f).rgTen = s.rgTen := rfl
@[simp] theorem State.updCell_tnSel (k : Nat) (f : Cell → Cell) : (s.updCell k f).tnSel = s.tnSel := rfl
@[simp] theorem State.updCell_pollAt (k : Nat) (f : Cell → Cell) : (s.updCell k f).pollAt = s.pollAt := rfl
@[simp] theorem State.updCell_msixHeld (k : Nat) (f : Cell → Cell) : (s.updCell k f).msixHeld = s.msixHeld := rfl
@[simp] theorem State.updCell_tenants (k : Nat) (f : Cell → Cell) : (s.updCell k f).tenants = s.tenants := rfl
@[simp] theorem State.updCell_rings (k : Nat) (f : Cell → Cell) : (s.updCell k f).rings = s.rings := rfl
@[simp] theorem State.updCell_dram (k : Nat) (f : Cell → Cell) : (s.updCell k f).dram = s.dram := rfl
@[simp] theorem State.updCell_combs (k : Nat) (f : Cell → Cell) : (s.updCell k f).combs = s.combs := rfl
@[simp] theorem State.updCell_cells (k : Nat) (f : Cell → Cell) : (s.updCell k f).cells = Tbl.upd s.cells k Cell.zero f := rfl
@[simp] theorem State.updCell_segs (k : Nat) (f : Cell → Cell) : (s.updCell k f).segs = s.segs := rfl
@[simp] theorem State.updCell_entropy (k : Nat) (f : Cell → Cell) : (s.updCell k f).entropy = s.entropy := rfl
@[simp] theorem State.updCell_log (k : Nat) (f : Cell → Cell) : (s.updCell k f).log = s.log := rfl
@[simp] theorem State.updCell_meters (k : Nat) (f : Cell → Cell) : (s.updCell k f).meters = s.meters := rfl
@[simp] theorem State.updCell_sec (k : Nat) (f : Cell → Cell) : (s.updCell k f).sec = s.sec := rfl
@[simp] theorem State.updCell_fabric (k : Nat) (f : Cell → Cell) : (s.updCell k f).fabric = s.fabric := rfl
@[simp] theorem State.updCell_fw (k : Nat) (f : Cell → Cell) : (s.updCell k f).fw = s.fw := rfl
@[simp] theorem State.updCell_ten_entry (k : Nat) (f : Cell → Cell) (i : Nat) : (s.updCell k f).ten i = s.ten i := rfl
@[simp] theorem State.updCell_comb_entry (k : Nat) (f : Cell → Cell) (i : Nat) : (s.updCell k f).comb i = s.comb i := rfl
@[simp] theorem State.updCell_port_entry (k : Nat) (f : Cell → Cell) (i : Nat) : (s.updCell k f).port i = s.port i := rfl
@[simp] theorem State.updCell_tnSet_entry (k : Nat) (f : Cell → Cell) (i : Nat) : (s.updCell k f).tnSet i = s.tnSet i := rfl
@[simp] theorem State.updCell_pace_entry (k : Nat) (f : Cell → Cell) (i : Nat) : (s.updCell k f).pace i = s.pace i := rfl
@[simp] theorem State.updCell_portSet_entry (k : Nat) (f : Cell → Cell) (i : Nat) : (s.updCell k f).portSet i = s.portSet i := rfl
@[simp] theorem State.updCell_ring_entry (k : Nat) (f : Cell → Cell) (i j : Nat) : (s.updCell k f).ring i j = s.ring i j := rfl
@[simp] theorem State.updCell_dir_entry (k : Nat) (f : Cell → Cell) (i j : Nat) : (s.updCell k f).dir i j = s.dir i j := rfl
@[simp] theorem State.updCell_cmd_entry (k : Nat) (f : Cell → Cell) (i j l : Nat) : (s.updCell k f).cmd? i j l = s.cmd? i j l := rfl
@[simp] theorem State.updCell_seg_entry (k : Nat) (f : Cell → Cell) (i : Nat) : (s.updCell k f).seg? i = s.seg? i := rfl

@[simp] theorem State.updDir_pending (b d : Nat) (f : Direction → Direction) : (s.updDir b d f).pending = s.pending := rfl
@[simp] theorem State.updDir_now (b d : Nat) (f : Direction → Direction) : (s.updDir b d f).now = s.now := rfl
@[simp] theorem State.updDir_free (b d : Nat) (f : Direction → Direction) : (s.updDir b d f).free = s.free := rfl
@[simp] theorem State.updDir_draws (b d : Nat) (f : Direction → Direction) : (s.updDir b d f).draws = s.draws := rfl
@[simp] theorem State.updDir_nextId (b d : Nat) (f : Direction → Direction) : (s.updDir b d f).nextId = s.nextId := rfl
@[simp] theorem State.updDir_fetches (b d : Nat) (f : Direction → Direction) : (s.updDir b d f).fetches = s.fetches := rfl
@[simp] theorem State.updDir_out (b d : Nat) (f : Direction → Direction) : (s.updDir b d f).out = s.out := rfl
@[simp] theorem State.updDir_fuses (b d : Nat) (f : Direction → Direction) : (s.updDir b d f).fuses = s.fuses := rfl
@[simp] theorem State.updDir_settings (b d : Nat) (f : Direction → Direction) : (s.updDir b d f).settings = s.settings := rfl
@[simp] theorem State.updDir_power (b d : Nat) (f : Direction → Direction) : (s.updDir b d f).power = s.power := rfl
@[simp] theorem State.updDir_elec (b d : Nat) (f : Direction → Direction) : (s.updDir b d f).elec = s.elec := rfl
@[simp] theorem State.updDir_lanes (b d : Nat) (f : Direction → Direction) : (s.updDir b d f).lanes = { s.lanes with dirs := Tbl.upd s.lanes.dirs (b * 2 + d) Direction.fresh f } := rfl
@[simp] theorem State.updDir_waggle (b d : Nat) (f : Direction → Direction) : (s.updDir b d f).waggle = s.waggle := rfl
@[simp] theorem State.updDir_rgTen (b d : Nat) (f : Direction → Direction) : (s.updDir b d f).rgTen = s.rgTen := rfl
@[simp] theorem State.updDir_tnSel (b d : Nat) (f : Direction → Direction) : (s.updDir b d f).tnSel = s.tnSel := rfl
@[simp] theorem State.updDir_pollAt (b d : Nat) (f : Direction → Direction) : (s.updDir b d f).pollAt = s.pollAt := rfl
@[simp] theorem State.updDir_msixHeld (b d : Nat) (f : Direction → Direction) : (s.updDir b d f).msixHeld = s.msixHeld := rfl
@[simp] theorem State.updDir_tenants (b d : Nat) (f : Direction → Direction) : (s.updDir b d f).tenants = s.tenants := rfl
@[simp] theorem State.updDir_rings (b d : Nat) (f : Direction → Direction) : (s.updDir b d f).rings = s.rings := rfl
@[simp] theorem State.updDir_dram (b d : Nat) (f : Direction → Direction) : (s.updDir b d f).dram = s.dram := rfl
@[simp] theorem State.updDir_combs (b d : Nat) (f : Direction → Direction) : (s.updDir b d f).combs = s.combs := rfl
@[simp] theorem State.updDir_cells (b d : Nat) (f : Direction → Direction) : (s.updDir b d f).cells = s.cells := rfl
@[simp] theorem State.updDir_segs (b d : Nat) (f : Direction → Direction) : (s.updDir b d f).segs = s.segs := rfl
@[simp] theorem State.updDir_entropy (b d : Nat) (f : Direction → Direction) : (s.updDir b d f).entropy = s.entropy := rfl
@[simp] theorem State.updDir_log (b d : Nat) (f : Direction → Direction) : (s.updDir b d f).log = s.log := rfl
@[simp] theorem State.updDir_meters (b d : Nat) (f : Direction → Direction) : (s.updDir b d f).meters = s.meters := rfl
@[simp] theorem State.updDir_sec (b d : Nat) (f : Direction → Direction) : (s.updDir b d f).sec = s.sec := rfl
@[simp] theorem State.updDir_fabric (b d : Nat) (f : Direction → Direction) : (s.updDir b d f).fabric = s.fabric := rfl
@[simp] theorem State.updDir_fw (b d : Nat) (f : Direction → Direction) : (s.updDir b d f).fw = s.fw := rfl
@[simp] theorem State.updDir_ten_entry (b d : Nat) (f : Direction → Direction) (i : Nat) : (s.updDir b d f).ten i = s.ten i := rfl
@[simp] theorem State.updDir_comb_entry (b d : Nat) (f : Direction → Direction) (i : Nat) : (s.updDir b d f).comb i = s.comb i := rfl
@[simp] theorem State.updDir_cell_entry (b d : Nat) (f : Direction → Direction) (i : Nat) : (s.updDir b d f).cell i = s.cell i := rfl
@[simp] theorem State.updDir_port_entry (b d : Nat) (f : Direction → Direction) (i : Nat) : (s.updDir b d f).port i = s.port i := rfl
@[simp] theorem State.updDir_tnSet_entry (b d : Nat) (f : Direction → Direction) (i : Nat) : (s.updDir b d f).tnSet i = s.tnSet i := rfl
@[simp] theorem State.updDir_pace_entry (b d : Nat) (f : Direction → Direction) (i : Nat) : (s.updDir b d f).pace i = s.pace i := rfl
@[simp] theorem State.updDir_portSet_entry (b d : Nat) (f : Direction → Direction) (i : Nat) : (s.updDir b d f).portSet i = s.portSet i := rfl
@[simp] theorem State.updDir_ring_entry (b d : Nat) (f : Direction → Direction) (i j : Nat) : (s.updDir b d f).ring i j = s.ring i j := rfl
@[simp] theorem State.updDir_cmd_entry (b d : Nat) (f : Direction → Direction) (i j l : Nat) : (s.updDir b d f).cmd? i j l = s.cmd? i j l := rfl
@[simp] theorem State.updDir_seg_entry (b d : Nat) (f : Direction → Direction) (i : Nat) : (s.updDir b d f).seg? i = s.seg? i := rfl

@[simp] theorem State.updPort_pending (k : Nat) (f : Port → Port) : (s.updPort k f).pending = s.pending := rfl
@[simp] theorem State.updPort_now (k : Nat) (f : Port → Port) : (s.updPort k f).now = s.now := rfl
@[simp] theorem State.updPort_free (k : Nat) (f : Port → Port) : (s.updPort k f).free = s.free := rfl
@[simp] theorem State.updPort_draws (k : Nat) (f : Port → Port) : (s.updPort k f).draws = s.draws := rfl
@[simp] theorem State.updPort_nextId (k : Nat) (f : Port → Port) : (s.updPort k f).nextId = s.nextId := rfl
@[simp] theorem State.updPort_fetches (k : Nat) (f : Port → Port) : (s.updPort k f).fetches = s.fetches := rfl
@[simp] theorem State.updPort_out (k : Nat) (f : Port → Port) : (s.updPort k f).out = s.out := rfl
@[simp] theorem State.updPort_fuses (k : Nat) (f : Port → Port) : (s.updPort k f).fuses = s.fuses := rfl
@[simp] theorem State.updPort_settings (k : Nat) (f : Port → Port) : (s.updPort k f).settings = s.settings := rfl
@[simp] theorem State.updPort_power (k : Nat) (f : Port → Port) : (s.updPort k f).power = s.power := rfl
@[simp] theorem State.updPort_elec (k : Nat) (f : Port → Port) : (s.updPort k f).elec = s.elec := rfl
@[simp] theorem State.updPort_lanes (k : Nat) (f : Port → Port) : (s.updPort k f).lanes = s.lanes := rfl
@[simp] theorem State.updPort_waggle (k : Nat) (f : Port → Port) : (s.updPort k f).waggle = s.waggle := rfl
@[simp] theorem State.updPort_rgTen (k : Nat) (f : Port → Port) : (s.updPort k f).rgTen = s.rgTen := rfl
@[simp] theorem State.updPort_tnSel (k : Nat) (f : Port → Port) : (s.updPort k f).tnSel = s.tnSel := rfl
@[simp] theorem State.updPort_pollAt (k : Nat) (f : Port → Port) : (s.updPort k f).pollAt = s.pollAt := rfl
@[simp] theorem State.updPort_msixHeld (k : Nat) (f : Port → Port) : (s.updPort k f).msixHeld = s.msixHeld := rfl
@[simp] theorem State.updPort_tenants (k : Nat) (f : Port → Port) : (s.updPort k f).tenants = s.tenants := rfl
@[simp] theorem State.updPort_rings (k : Nat) (f : Port → Port) : (s.updPort k f).rings = s.rings := rfl
@[simp] theorem State.updPort_dram (k : Nat) (f : Port → Port) : (s.updPort k f).dram = s.dram := rfl
@[simp] theorem State.updPort_combs (k : Nat) (f : Port → Port) : (s.updPort k f).combs = s.combs := rfl
@[simp] theorem State.updPort_cells (k : Nat) (f : Port → Port) : (s.updPort k f).cells = s.cells := rfl
@[simp] theorem State.updPort_segs (k : Nat) (f : Port → Port) : (s.updPort k f).segs = s.segs := rfl
@[simp] theorem State.updPort_entropy (k : Nat) (f : Port → Port) : (s.updPort k f).entropy = s.entropy := rfl
@[simp] theorem State.updPort_log (k : Nat) (f : Port → Port) : (s.updPort k f).log = s.log := rfl
@[simp] theorem State.updPort_meters (k : Nat) (f : Port → Port) : (s.updPort k f).meters = s.meters := rfl
@[simp] theorem State.updPort_sec (k : Nat) (f : Port → Port) : (s.updPort k f).sec = s.sec := rfl
@[simp] theorem State.updPort_fabric (k : Nat) (f : Port → Port) : (s.updPort k f).fabric = { s.fabric with ports := Tbl.upd s.fabric.ports k Port.fresh f } := rfl
@[simp] theorem State.updPort_fw (k : Nat) (f : Port → Port) : (s.updPort k f).fw = s.fw := rfl
@[simp] theorem State.updPort_ten_entry (k : Nat) (f : Port → Port) (i : Nat) : (s.updPort k f).ten i = s.ten i := rfl
@[simp] theorem State.updPort_comb_entry (k : Nat) (f : Port → Port) (i : Nat) : (s.updPort k f).comb i = s.comb i := rfl
@[simp] theorem State.updPort_cell_entry (k : Nat) (f : Port → Port) (i : Nat) : (s.updPort k f).cell i = s.cell i := rfl
@[simp] theorem State.updPort_tnSet_entry (k : Nat) (f : Port → Port) (i : Nat) : (s.updPort k f).tnSet i = s.tnSet i := rfl
@[simp] theorem State.updPort_pace_entry (k : Nat) (f : Port → Port) (i : Nat) : (s.updPort k f).pace i = s.pace i := rfl
@[simp] theorem State.updPort_portSet_entry (k : Nat) (f : Port → Port) (i : Nat) : (s.updPort k f).portSet i = s.portSet i := rfl
@[simp] theorem State.updPort_ring_entry (k : Nat) (f : Port → Port) (i j : Nat) : (s.updPort k f).ring i j = s.ring i j := rfl
@[simp] theorem State.updPort_dir_entry (k : Nat) (f : Port → Port) (i j : Nat) : (s.updPort k f).dir i j = s.dir i j := rfl
@[simp] theorem State.updPort_cmd_entry (k : Nat) (f : Port → Port) (i j l : Nat) : (s.updPort k f).cmd? i j l = s.cmd? i j l := rfl
@[simp] theorem State.updPort_seg_entry (k : Nat) (f : Port → Port) (i : Nat) : (s.updPort k f).seg? i = s.seg? i := rfl

@[simp] theorem State.updRing_pending (a b : Nat) (f : Ring → Ring) : (s.updRing a b f).pending = s.pending := rfl
@[simp] theorem State.updRing_now (a b : Nat) (f : Ring → Ring) : (s.updRing a b f).now = s.now := rfl
@[simp] theorem State.updRing_free (a b : Nat) (f : Ring → Ring) : (s.updRing a b f).free = s.free := rfl
@[simp] theorem State.updRing_draws (a b : Nat) (f : Ring → Ring) : (s.updRing a b f).draws = s.draws := rfl
@[simp] theorem State.updRing_nextId (a b : Nat) (f : Ring → Ring) : (s.updRing a b f).nextId = s.nextId := rfl
@[simp] theorem State.updRing_fetches (a b : Nat) (f : Ring → Ring) : (s.updRing a b f).fetches = s.fetches := rfl
@[simp] theorem State.updRing_out (a b : Nat) (f : Ring → Ring) : (s.updRing a b f).out = s.out := rfl
@[simp] theorem State.updRing_fuses (a b : Nat) (f : Ring → Ring) : (s.updRing a b f).fuses = s.fuses := rfl
@[simp] theorem State.updRing_settings (a b : Nat) (f : Ring → Ring) : (s.updRing a b f).settings = s.settings := rfl
@[simp] theorem State.updRing_power (a b : Nat) (f : Ring → Ring) : (s.updRing a b f).power = s.power := rfl
@[simp] theorem State.updRing_elec (a b : Nat) (f : Ring → Ring) : (s.updRing a b f).elec = s.elec := rfl
@[simp] theorem State.updRing_lanes (a b : Nat) (f : Ring → Ring) : (s.updRing a b f).lanes = s.lanes := rfl
@[simp] theorem State.updRing_waggle (a b : Nat) (f : Ring → Ring) : (s.updRing a b f).waggle = s.waggle := rfl
@[simp] theorem State.updRing_rgTen (a b : Nat) (f : Ring → Ring) : (s.updRing a b f).rgTen = s.rgTen := rfl
@[simp] theorem State.updRing_tnSel (a b : Nat) (f : Ring → Ring) : (s.updRing a b f).tnSel = s.tnSel := rfl
@[simp] theorem State.updRing_pollAt (a b : Nat) (f : Ring → Ring) : (s.updRing a b f).pollAt = s.pollAt := rfl
@[simp] theorem State.updRing_msixHeld (a b : Nat) (f : Ring → Ring) : (s.updRing a b f).msixHeld = s.msixHeld := rfl
@[simp] theorem State.updRing_tenants (a b : Nat) (f : Ring → Ring) : (s.updRing a b f).tenants = s.tenants := rfl
@[simp] theorem State.updRing_rings (a b : Nat) (f : Ring → Ring) : (s.updRing a b f).rings = Tbl.upd s.rings (ringKey a b) Ring.fresh f := rfl
@[simp] theorem State.updRing_dram (a b : Nat) (f : Ring → Ring) : (s.updRing a b f).dram = s.dram := rfl
@[simp] theorem State.updRing_combs (a b : Nat) (f : Ring → Ring) : (s.updRing a b f).combs = s.combs := rfl
@[simp] theorem State.updRing_cells (a b : Nat) (f : Ring → Ring) : (s.updRing a b f).cells = s.cells := rfl
@[simp] theorem State.updRing_segs (a b : Nat) (f : Ring → Ring) : (s.updRing a b f).segs = s.segs := rfl
@[simp] theorem State.updRing_entropy (a b : Nat) (f : Ring → Ring) : (s.updRing a b f).entropy = s.entropy := rfl
@[simp] theorem State.updRing_log (a b : Nat) (f : Ring → Ring) : (s.updRing a b f).log = s.log := rfl
@[simp] theorem State.updRing_meters (a b : Nat) (f : Ring → Ring) : (s.updRing a b f).meters = s.meters := rfl
@[simp] theorem State.updRing_sec (a b : Nat) (f : Ring → Ring) : (s.updRing a b f).sec = s.sec := rfl
@[simp] theorem State.updRing_fabric (a b : Nat) (f : Ring → Ring) : (s.updRing a b f).fabric = s.fabric := rfl
@[simp] theorem State.updRing_fw (a b : Nat) (f : Ring → Ring) : (s.updRing a b f).fw = s.fw := rfl
@[simp] theorem State.updRing_ten_entry (a b : Nat) (f : Ring → Ring) (i : Nat) : (s.updRing a b f).ten i = s.ten i := rfl
@[simp] theorem State.updRing_comb_entry (a b : Nat) (f : Ring → Ring) (i : Nat) : (s.updRing a b f).comb i = s.comb i := rfl
@[simp] theorem State.updRing_cell_entry (a b : Nat) (f : Ring → Ring) (i : Nat) : (s.updRing a b f).cell i = s.cell i := rfl
@[simp] theorem State.updRing_port_entry (a b : Nat) (f : Ring → Ring) (i : Nat) : (s.updRing a b f).port i = s.port i := rfl
@[simp] theorem State.updRing_tnSet_entry (a b : Nat) (f : Ring → Ring) (i : Nat) : (s.updRing a b f).tnSet i = s.tnSet i := rfl
@[simp] theorem State.updRing_pace_entry (a b : Nat) (f : Ring → Ring) (i : Nat) : (s.updRing a b f).pace i = s.pace i := rfl
@[simp] theorem State.updRing_portSet_entry (a b : Nat) (f : Ring → Ring) (i : Nat) : (s.updRing a b f).portSet i = s.portSet i := rfl
@[simp] theorem State.updRing_dir_entry (a b : Nat) (f : Ring → Ring) (i j : Nat) : (s.updRing a b f).dir i j = s.dir i j := rfl
@[simp] theorem State.updRing_seg_entry (a b : Nat) (f : Ring → Ring) (i : Nat) : (s.updRing a b f).seg? i = s.seg? i := rfl

@[simp] theorem State.updCmd_pending (a b n : Nat) (f : Cmd → Cmd) : (s.updCmd a b n f).pending = s.pending := rfl
@[simp] theorem State.updCmd_now (a b n : Nat) (f : Cmd → Cmd) : (s.updCmd a b n f).now = s.now := rfl
@[simp] theorem State.updCmd_free (a b n : Nat) (f : Cmd → Cmd) : (s.updCmd a b n f).free = s.free := rfl
@[simp] theorem State.updCmd_draws (a b n : Nat) (f : Cmd → Cmd) : (s.updCmd a b n f).draws = s.draws := rfl
@[simp] theorem State.updCmd_nextId (a b n : Nat) (f : Cmd → Cmd) : (s.updCmd a b n f).nextId = s.nextId := rfl
@[simp] theorem State.updCmd_fetches (a b n : Nat) (f : Cmd → Cmd) : (s.updCmd a b n f).fetches = s.fetches := rfl
@[simp] theorem State.updCmd_out (a b n : Nat) (f : Cmd → Cmd) : (s.updCmd a b n f).out = s.out := rfl
@[simp] theorem State.updCmd_fuses (a b n : Nat) (f : Cmd → Cmd) : (s.updCmd a b n f).fuses = s.fuses := rfl
@[simp] theorem State.updCmd_settings (a b n : Nat) (f : Cmd → Cmd) : (s.updCmd a b n f).settings = s.settings := rfl
@[simp] theorem State.updCmd_power (a b n : Nat) (f : Cmd → Cmd) : (s.updCmd a b n f).power = s.power := rfl
@[simp] theorem State.updCmd_elec (a b n : Nat) (f : Cmd → Cmd) : (s.updCmd a b n f).elec = s.elec := rfl
@[simp] theorem State.updCmd_lanes (a b n : Nat) (f : Cmd → Cmd) : (s.updCmd a b n f).lanes = s.lanes := rfl
@[simp] theorem State.updCmd_waggle (a b n : Nat) (f : Cmd → Cmd) : (s.updCmd a b n f).waggle = s.waggle := rfl
@[simp] theorem State.updCmd_rgTen (a b n : Nat) (f : Cmd → Cmd) : (s.updCmd a b n f).rgTen = s.rgTen := rfl
@[simp] theorem State.updCmd_tnSel (a b n : Nat) (f : Cmd → Cmd) : (s.updCmd a b n f).tnSel = s.tnSel := rfl
@[simp] theorem State.updCmd_pollAt (a b n : Nat) (f : Cmd → Cmd) : (s.updCmd a b n f).pollAt = s.pollAt := rfl
@[simp] theorem State.updCmd_msixHeld (a b n : Nat) (f : Cmd → Cmd) : (s.updCmd a b n f).msixHeld = s.msixHeld := rfl
@[simp] theorem State.updCmd_tenants (a b n : Nat) (f : Cmd → Cmd) : (s.updCmd a b n f).tenants = s.tenants := rfl
@[simp] theorem State.updCmd_dram (a b n : Nat) (f : Cmd → Cmd) : (s.updCmd a b n f).dram = s.dram := rfl
@[simp] theorem State.updCmd_combs (a b n : Nat) (f : Cmd → Cmd) : (s.updCmd a b n f).combs = s.combs := rfl
@[simp] theorem State.updCmd_cells (a b n : Nat) (f : Cmd → Cmd) : (s.updCmd a b n f).cells = s.cells := rfl
@[simp] theorem State.updCmd_segs (a b n : Nat) (f : Cmd → Cmd) : (s.updCmd a b n f).segs = s.segs := rfl
@[simp] theorem State.updCmd_entropy (a b n : Nat) (f : Cmd → Cmd) : (s.updCmd a b n f).entropy = s.entropy := rfl
@[simp] theorem State.updCmd_log (a b n : Nat) (f : Cmd → Cmd) : (s.updCmd a b n f).log = s.log := rfl
@[simp] theorem State.updCmd_meters (a b n : Nat) (f : Cmd → Cmd) : (s.updCmd a b n f).meters = s.meters := rfl
@[simp] theorem State.updCmd_sec (a b n : Nat) (f : Cmd → Cmd) : (s.updCmd a b n f).sec = s.sec := rfl
@[simp] theorem State.updCmd_fabric (a b n : Nat) (f : Cmd → Cmd) : (s.updCmd a b n f).fabric = s.fabric := rfl
@[simp] theorem State.updCmd_fw (a b n : Nat) (f : Cmd → Cmd) : (s.updCmd a b n f).fw = s.fw := rfl
@[simp] theorem State.updCmd_ten_entry (a b n : Nat) (f : Cmd → Cmd) (i : Nat) : (s.updCmd a b n f).ten i = s.ten i := rfl
@[simp] theorem State.updCmd_comb_entry (a b n : Nat) (f : Cmd → Cmd) (i : Nat) : (s.updCmd a b n f).comb i = s.comb i := rfl
@[simp] theorem State.updCmd_cell_entry (a b n : Nat) (f : Cmd → Cmd) (i : Nat) : (s.updCmd a b n f).cell i = s.cell i := rfl
@[simp] theorem State.updCmd_port_entry (a b n : Nat) (f : Cmd → Cmd) (i : Nat) : (s.updCmd a b n f).port i = s.port i := rfl
@[simp] theorem State.updCmd_tnSet_entry (a b n : Nat) (f : Cmd → Cmd) (i : Nat) : (s.updCmd a b n f).tnSet i = s.tnSet i := rfl
@[simp] theorem State.updCmd_pace_entry (a b n : Nat) (f : Cmd → Cmd) (i : Nat) : (s.updCmd a b n f).pace i = s.pace i := rfl
@[simp] theorem State.updCmd_portSet_entry (a b n : Nat) (f : Cmd → Cmd) (i : Nat) : (s.updCmd a b n f).portSet i = s.portSet i := rfl
@[simp] theorem State.updCmd_dir_entry (a b n : Nat) (f : Cmd → Cmd) (i j : Nat) : (s.updCmd a b n f).dir i j = s.dir i j := rfl
@[simp] theorem State.updCmd_seg_entry (a b n : Nat) (f : Cmd → Cmd) (i : Nat) : (s.updCmd a b n f).seg? i = s.seg? i := rfl

@[simp] theorem State.updEval_pending (a b n : Nat) (f : Eval → Eval) : (s.updEval a b n f).pending = s.pending := rfl
@[simp] theorem State.updEval_now (a b n : Nat) (f : Eval → Eval) : (s.updEval a b n f).now = s.now := rfl
@[simp] theorem State.updEval_free (a b n : Nat) (f : Eval → Eval) : (s.updEval a b n f).free = s.free := rfl
@[simp] theorem State.updEval_draws (a b n : Nat) (f : Eval → Eval) : (s.updEval a b n f).draws = s.draws := rfl
@[simp] theorem State.updEval_nextId (a b n : Nat) (f : Eval → Eval) : (s.updEval a b n f).nextId = s.nextId := rfl
@[simp] theorem State.updEval_fetches (a b n : Nat) (f : Eval → Eval) : (s.updEval a b n f).fetches = s.fetches := rfl
@[simp] theorem State.updEval_out (a b n : Nat) (f : Eval → Eval) : (s.updEval a b n f).out = s.out := rfl
@[simp] theorem State.updEval_fuses (a b n : Nat) (f : Eval → Eval) : (s.updEval a b n f).fuses = s.fuses := rfl
@[simp] theorem State.updEval_settings (a b n : Nat) (f : Eval → Eval) : (s.updEval a b n f).settings = s.settings := rfl
@[simp] theorem State.updEval_power (a b n : Nat) (f : Eval → Eval) : (s.updEval a b n f).power = s.power := rfl
@[simp] theorem State.updEval_elec (a b n : Nat) (f : Eval → Eval) : (s.updEval a b n f).elec = s.elec := rfl
@[simp] theorem State.updEval_lanes (a b n : Nat) (f : Eval → Eval) : (s.updEval a b n f).lanes = s.lanes := rfl
@[simp] theorem State.updEval_waggle (a b n : Nat) (f : Eval → Eval) : (s.updEval a b n f).waggle = s.waggle := rfl
@[simp] theorem State.updEval_rgTen (a b n : Nat) (f : Eval → Eval) : (s.updEval a b n f).rgTen = s.rgTen := rfl
@[simp] theorem State.updEval_tnSel (a b n : Nat) (f : Eval → Eval) : (s.updEval a b n f).tnSel = s.tnSel := rfl
@[simp] theorem State.updEval_pollAt (a b n : Nat) (f : Eval → Eval) : (s.updEval a b n f).pollAt = s.pollAt := rfl
@[simp] theorem State.updEval_msixHeld (a b n : Nat) (f : Eval → Eval) : (s.updEval a b n f).msixHeld = s.msixHeld := rfl
@[simp] theorem State.updEval_tenants (a b n : Nat) (f : Eval → Eval) : (s.updEval a b n f).tenants = s.tenants := rfl
@[simp] theorem State.updEval_dram (a b n : Nat) (f : Eval → Eval) : (s.updEval a b n f).dram = s.dram := rfl
@[simp] theorem State.updEval_combs (a b n : Nat) (f : Eval → Eval) : (s.updEval a b n f).combs = s.combs := rfl
@[simp] theorem State.updEval_cells (a b n : Nat) (f : Eval → Eval) : (s.updEval a b n f).cells = s.cells := rfl
@[simp] theorem State.updEval_segs (a b n : Nat) (f : Eval → Eval) : (s.updEval a b n f).segs = s.segs := rfl
@[simp] theorem State.updEval_entropy (a b n : Nat) (f : Eval → Eval) : (s.updEval a b n f).entropy = s.entropy := rfl
@[simp] theorem State.updEval_log (a b n : Nat) (f : Eval → Eval) : (s.updEval a b n f).log = s.log := rfl
@[simp] theorem State.updEval_meters (a b n : Nat) (f : Eval → Eval) : (s.updEval a b n f).meters = s.meters := rfl
@[simp] theorem State.updEval_sec (a b n : Nat) (f : Eval → Eval) : (s.updEval a b n f).sec = s.sec := rfl
@[simp] theorem State.updEval_fabric (a b n : Nat) (f : Eval → Eval) : (s.updEval a b n f).fabric = s.fabric := rfl
@[simp] theorem State.updEval_fw (a b n : Nat) (f : Eval → Eval) : (s.updEval a b n f).fw = s.fw := rfl
@[simp] theorem State.updEval_ten_entry (a b n : Nat) (f : Eval → Eval) (i : Nat) : (s.updEval a b n f).ten i = s.ten i := rfl
@[simp] theorem State.updEval_comb_entry (a b n : Nat) (f : Eval → Eval) (i : Nat) : (s.updEval a b n f).comb i = s.comb i := rfl
@[simp] theorem State.updEval_cell_entry (a b n : Nat) (f : Eval → Eval) (i : Nat) : (s.updEval a b n f).cell i = s.cell i := rfl
@[simp] theorem State.updEval_port_entry (a b n : Nat) (f : Eval → Eval) (i : Nat) : (s.updEval a b n f).port i = s.port i := rfl
@[simp] theorem State.updEval_tnSet_entry (a b n : Nat) (f : Eval → Eval) (i : Nat) : (s.updEval a b n f).tnSet i = s.tnSet i := rfl
@[simp] theorem State.updEval_pace_entry (a b n : Nat) (f : Eval → Eval) (i : Nat) : (s.updEval a b n f).pace i = s.pace i := rfl
@[simp] theorem State.updEval_portSet_entry (a b n : Nat) (f : Eval → Eval) (i : Nat) : (s.updEval a b n f).portSet i = s.portSet i := rfl
@[simp] theorem State.updEval_dir_entry (a b n : Nat) (f : Eval → Eval) (i j : Nat) : (s.updEval a b n f).dir i j = s.dir i j := rfl
@[simp] theorem State.updEval_seg_entry (a b n : Nat) (f : Eval → Eval) (i : Nat) : (s.updEval a b n f).seg? i = s.seg? i := rfl

@[simp] theorem State.updSeg_pending (id : Nat) (f : SegRun → SegRun) : (s.updSeg id f).pending = s.pending := rfl
@[simp] theorem State.updSeg_now (id : Nat) (f : SegRun → SegRun) : (s.updSeg id f).now = s.now := rfl
@[simp] theorem State.updSeg_free (id : Nat) (f : SegRun → SegRun) : (s.updSeg id f).free = s.free := rfl
@[simp] theorem State.updSeg_draws (id : Nat) (f : SegRun → SegRun) : (s.updSeg id f).draws = s.draws := rfl
@[simp] theorem State.updSeg_nextId (id : Nat) (f : SegRun → SegRun) : (s.updSeg id f).nextId = s.nextId := rfl
@[simp] theorem State.updSeg_fetches (id : Nat) (f : SegRun → SegRun) : (s.updSeg id f).fetches = s.fetches := rfl
@[simp] theorem State.updSeg_out (id : Nat) (f : SegRun → SegRun) : (s.updSeg id f).out = s.out := rfl
@[simp] theorem State.updSeg_fuses (id : Nat) (f : SegRun → SegRun) : (s.updSeg id f).fuses = s.fuses := rfl
@[simp] theorem State.updSeg_settings (id : Nat) (f : SegRun → SegRun) : (s.updSeg id f).settings = s.settings := rfl
@[simp] theorem State.updSeg_power (id : Nat) (f : SegRun → SegRun) : (s.updSeg id f).power = s.power := rfl
@[simp] theorem State.updSeg_elec (id : Nat) (f : SegRun → SegRun) : (s.updSeg id f).elec = s.elec := rfl
@[simp] theorem State.updSeg_lanes (id : Nat) (f : SegRun → SegRun) : (s.updSeg id f).lanes = s.lanes := rfl
@[simp] theorem State.updSeg_waggle (id : Nat) (f : SegRun → SegRun) : (s.updSeg id f).waggle = s.waggle := rfl
@[simp] theorem State.updSeg_rgTen (id : Nat) (f : SegRun → SegRun) : (s.updSeg id f).rgTen = s.rgTen := rfl
@[simp] theorem State.updSeg_tnSel (id : Nat) (f : SegRun → SegRun) : (s.updSeg id f).tnSel = s.tnSel := rfl
@[simp] theorem State.updSeg_pollAt (id : Nat) (f : SegRun → SegRun) : (s.updSeg id f).pollAt = s.pollAt := rfl
@[simp] theorem State.updSeg_msixHeld (id : Nat) (f : SegRun → SegRun) : (s.updSeg id f).msixHeld = s.msixHeld := rfl
@[simp] theorem State.updSeg_tenants (id : Nat) (f : SegRun → SegRun) : (s.updSeg id f).tenants = s.tenants := rfl
@[simp] theorem State.updSeg_rings (id : Nat) (f : SegRun → SegRun) : (s.updSeg id f).rings = s.rings := rfl
@[simp] theorem State.updSeg_dram (id : Nat) (f : SegRun → SegRun) : (s.updSeg id f).dram = s.dram := rfl
@[simp] theorem State.updSeg_combs (id : Nat) (f : SegRun → SegRun) : (s.updSeg id f).combs = s.combs := rfl
@[simp] theorem State.updSeg_cells (id : Nat) (f : SegRun → SegRun) : (s.updSeg id f).cells = s.cells := rfl
@[simp] theorem State.updSeg_segs (id : Nat) (f : SegRun → SegRun) : (s.updSeg id f).segs = s.segs.map fun g => if g.id = id then f g else g := rfl
@[simp] theorem State.updSeg_entropy (id : Nat) (f : SegRun → SegRun) : (s.updSeg id f).entropy = s.entropy := rfl
@[simp] theorem State.updSeg_log (id : Nat) (f : SegRun → SegRun) : (s.updSeg id f).log = s.log := rfl
@[simp] theorem State.updSeg_meters (id : Nat) (f : SegRun → SegRun) : (s.updSeg id f).meters = s.meters := rfl
@[simp] theorem State.updSeg_sec (id : Nat) (f : SegRun → SegRun) : (s.updSeg id f).sec = s.sec := rfl
@[simp] theorem State.updSeg_fabric (id : Nat) (f : SegRun → SegRun) : (s.updSeg id f).fabric = s.fabric := rfl
@[simp] theorem State.updSeg_fw (id : Nat) (f : SegRun → SegRun) : (s.updSeg id f).fw = s.fw := rfl
@[simp] theorem State.updSeg_ten_entry (id : Nat) (f : SegRun → SegRun) (i : Nat) : (s.updSeg id f).ten i = s.ten i := rfl
@[simp] theorem State.updSeg_comb_entry (id : Nat) (f : SegRun → SegRun) (i : Nat) : (s.updSeg id f).comb i = s.comb i := rfl
@[simp] theorem State.updSeg_cell_entry (id : Nat) (f : SegRun → SegRun) (i : Nat) : (s.updSeg id f).cell i = s.cell i := rfl
@[simp] theorem State.updSeg_port_entry (id : Nat) (f : SegRun → SegRun) (i : Nat) : (s.updSeg id f).port i = s.port i := rfl
@[simp] theorem State.updSeg_tnSet_entry (id : Nat) (f : SegRun → SegRun) (i : Nat) : (s.updSeg id f).tnSet i = s.tnSet i := rfl
@[simp] theorem State.updSeg_pace_entry (id : Nat) (f : SegRun → SegRun) (i : Nat) : (s.updSeg id f).pace i = s.pace i := rfl
@[simp] theorem State.updSeg_portSet_entry (id : Nat) (f : SegRun → SegRun) (i : Nat) : (s.updSeg id f).portSet i = s.portSet i := rfl
@[simp] theorem State.updSeg_ring_entry (id : Nat) (f : SegRun → SegRun) (i j : Nat) : (s.updSeg id f).ring i j = s.ring i j := rfl
@[simp] theorem State.updSeg_dir_entry (id : Nat) (f : SegRun → SegRun) (i j : Nat) : (s.updSeg id f).dir i j = s.dir i j := rfl
@[simp] theorem State.updSeg_cmd_entry (id : Nat) (f : SegRun → SegRun) (i j l : Nat) : (s.updSeg id f).cmd? i j l = s.cmd? i j l := rfl

@[simp] theorem State.dropSeg_pending (id : Nat) : (s.dropSeg id).pending = s.pending := rfl
@[simp] theorem State.dropSeg_now (id : Nat) : (s.dropSeg id).now = s.now := rfl
@[simp] theorem State.dropSeg_free (id : Nat) : (s.dropSeg id).free = s.free := rfl
@[simp] theorem State.dropSeg_draws (id : Nat) : (s.dropSeg id).draws = s.draws := rfl
@[simp] theorem State.dropSeg_nextId (id : Nat) : (s.dropSeg id).nextId = s.nextId := rfl
@[simp] theorem State.dropSeg_fetches (id : Nat) : (s.dropSeg id).fetches = s.fetches := rfl
@[simp] theorem State.dropSeg_out (id : Nat) : (s.dropSeg id).out = s.out := rfl
@[simp] theorem State.dropSeg_fuses (id : Nat) : (s.dropSeg id).fuses = s.fuses := rfl
@[simp] theorem State.dropSeg_settings (id : Nat) : (s.dropSeg id).settings = s.settings := rfl
@[simp] theorem State.dropSeg_power (id : Nat) : (s.dropSeg id).power = s.power := rfl
@[simp] theorem State.dropSeg_elec (id : Nat) : (s.dropSeg id).elec = s.elec := rfl
@[simp] theorem State.dropSeg_lanes (id : Nat) : (s.dropSeg id).lanes = s.lanes := rfl
@[simp] theorem State.dropSeg_waggle (id : Nat) : (s.dropSeg id).waggle = s.waggle := rfl
@[simp] theorem State.dropSeg_rgTen (id : Nat) : (s.dropSeg id).rgTen = s.rgTen := rfl
@[simp] theorem State.dropSeg_tnSel (id : Nat) : (s.dropSeg id).tnSel = s.tnSel := rfl
@[simp] theorem State.dropSeg_pollAt (id : Nat) : (s.dropSeg id).pollAt = s.pollAt := rfl
@[simp] theorem State.dropSeg_msixHeld (id : Nat) : (s.dropSeg id).msixHeld = s.msixHeld := rfl
@[simp] theorem State.dropSeg_tenants (id : Nat) : (s.dropSeg id).tenants = s.tenants := rfl
@[simp] theorem State.dropSeg_rings (id : Nat) : (s.dropSeg id).rings = s.rings := rfl
@[simp] theorem State.dropSeg_dram (id : Nat) : (s.dropSeg id).dram = s.dram := rfl
@[simp] theorem State.dropSeg_combs (id : Nat) : (s.dropSeg id).combs = s.combs := rfl
@[simp] theorem State.dropSeg_cells (id : Nat) : (s.dropSeg id).cells = s.cells := rfl
@[simp] theorem State.dropSeg_segs (id : Nat) : (s.dropSeg id).segs = s.segs.filter fun g => g.id != id := rfl
@[simp] theorem State.dropSeg_entropy (id : Nat) : (s.dropSeg id).entropy = s.entropy := rfl
@[simp] theorem State.dropSeg_log (id : Nat) : (s.dropSeg id).log = s.log := rfl
@[simp] theorem State.dropSeg_meters (id : Nat) : (s.dropSeg id).meters = s.meters := rfl
@[simp] theorem State.dropSeg_sec (id : Nat) : (s.dropSeg id).sec = s.sec := rfl
@[simp] theorem State.dropSeg_fabric (id : Nat) : (s.dropSeg id).fabric = s.fabric := rfl
@[simp] theorem State.dropSeg_fw (id : Nat) : (s.dropSeg id).fw = s.fw := rfl
@[simp] theorem State.dropSeg_ten_entry (id : Nat) (i : Nat) : (s.dropSeg id).ten i = s.ten i := rfl
@[simp] theorem State.dropSeg_comb_entry (id : Nat) (i : Nat) : (s.dropSeg id).comb i = s.comb i := rfl
@[simp] theorem State.dropSeg_cell_entry (id : Nat) (i : Nat) : (s.dropSeg id).cell i = s.cell i := rfl
@[simp] theorem State.dropSeg_port_entry (id : Nat) (i : Nat) : (s.dropSeg id).port i = s.port i := rfl
@[simp] theorem State.dropSeg_tnSet_entry (id : Nat) (i : Nat) : (s.dropSeg id).tnSet i = s.tnSet i := rfl
@[simp] theorem State.dropSeg_pace_entry (id : Nat) (i : Nat) : (s.dropSeg id).pace i = s.pace i := rfl
@[simp] theorem State.dropSeg_portSet_entry (id : Nat) (i : Nat) : (s.dropSeg id).portSet i = s.portSet i := rfl
@[simp] theorem State.dropSeg_ring_entry (id : Nat) (i j : Nat) : (s.dropSeg id).ring i j = s.ring i j := rfl
@[simp] theorem State.dropSeg_dir_entry (id : Nat) (i j : Nat) : (s.dropSeg id).dir i j = s.dir i j := rfl
@[simp] theorem State.dropSeg_cmd_entry (id : Nat) (i j l : Nat) : (s.dropSeg id).cmd? i j l = s.cmd? i j l := rfl

@[simp] theorem State.freeObj_pending (id : Nat) : (s.freeObj id).pending = s.pending := rfl
@[simp] theorem State.freeObj_now (id : Nat) : (s.freeObj id).now = s.now := rfl
@[simp] theorem State.freeObj_free (id : Nat) : (s.freeObj id).free = s.free := rfl
@[simp] theorem State.freeObj_draws (id : Nat) : (s.freeObj id).draws = s.draws := rfl
@[simp] theorem State.freeObj_nextId (id : Nat) : (s.freeObj id).nextId = s.nextId := rfl
@[simp] theorem State.freeObj_fetches (id : Nat) : (s.freeObj id).fetches = s.fetches := rfl
@[simp] theorem State.freeObj_out (id : Nat) : (s.freeObj id).out = s.out := rfl
@[simp] theorem State.freeObj_fuses (id : Nat) : (s.freeObj id).fuses = s.fuses := rfl
@[simp] theorem State.freeObj_settings (id : Nat) : (s.freeObj id).settings = s.settings := rfl
@[simp] theorem State.freeObj_power (id : Nat) : (s.freeObj id).power = s.power := rfl
@[simp] theorem State.freeObj_elec (id : Nat) : (s.freeObj id).elec = s.elec := rfl
@[simp] theorem State.freeObj_lanes (id : Nat) : (s.freeObj id).lanes = s.lanes := rfl
@[simp] theorem State.freeObj_waggle (id : Nat) : (s.freeObj id).waggle = s.waggle := rfl
@[simp] theorem State.freeObj_rgTen (id : Nat) : (s.freeObj id).rgTen = s.rgTen := rfl
@[simp] theorem State.freeObj_tnSel (id : Nat) : (s.freeObj id).tnSel = s.tnSel := rfl
@[simp] theorem State.freeObj_pollAt (id : Nat) : (s.freeObj id).pollAt = s.pollAt := rfl
@[simp] theorem State.freeObj_msixHeld (id : Nat) : (s.freeObj id).msixHeld = s.msixHeld := rfl
@[simp] theorem State.freeObj_tenants (id : Nat) : (s.freeObj id).tenants = s.tenants := rfl
@[simp] theorem State.freeObj_rings (id : Nat) : (s.freeObj id).rings = s.rings := rfl
@[simp] theorem State.freeObj_dram (id : Nat) : (s.freeObj id).dram = s.dram.free id := rfl
@[simp] theorem State.freeObj_combs (id : Nat) : (s.freeObj id).combs = s.combs := rfl
@[simp] theorem State.freeObj_cells (id : Nat) : (s.freeObj id).cells = s.cells := rfl
@[simp] theorem State.freeObj_segs (id : Nat) : (s.freeObj id).segs = s.segs := rfl
@[simp] theorem State.freeObj_entropy (id : Nat) : (s.freeObj id).entropy = s.entropy := rfl
@[simp] theorem State.freeObj_log (id : Nat) : (s.freeObj id).log = s.log := rfl
@[simp] theorem State.freeObj_meters (id : Nat) : (s.freeObj id).meters = s.meters := rfl
@[simp] theorem State.freeObj_sec (id : Nat) : (s.freeObj id).sec = s.sec := rfl
@[simp] theorem State.freeObj_fabric (id : Nat) : (s.freeObj id).fabric = s.fabric := rfl
@[simp] theorem State.freeObj_fw (id : Nat) : (s.freeObj id).fw = s.fw := rfl
@[simp] theorem State.freeObj_ten_entry (id : Nat) (i : Nat) : (s.freeObj id).ten i = s.ten i := rfl
@[simp] theorem State.freeObj_comb_entry (id : Nat) (i : Nat) : (s.freeObj id).comb i = s.comb i := rfl
@[simp] theorem State.freeObj_cell_entry (id : Nat) (i : Nat) : (s.freeObj id).cell i = s.cell i := rfl
@[simp] theorem State.freeObj_port_entry (id : Nat) (i : Nat) : (s.freeObj id).port i = s.port i := rfl
@[simp] theorem State.freeObj_tnSet_entry (id : Nat) (i : Nat) : (s.freeObj id).tnSet i = s.tnSet i := rfl
@[simp] theorem State.freeObj_pace_entry (id : Nat) (i : Nat) : (s.freeObj id).pace i = s.pace i := rfl
@[simp] theorem State.freeObj_portSet_entry (id : Nat) (i : Nat) : (s.freeObj id).portSet i = s.portSet i := rfl
@[simp] theorem State.freeObj_ring_entry (id : Nat) (i j : Nat) : (s.freeObj id).ring i j = s.ring i j := rfl
@[simp] theorem State.freeObj_dir_entry (id : Nat) (i j : Nat) : (s.freeObj id).dir i j = s.dir i j := rfl
@[simp] theorem State.freeObj_cmd_entry (id : Nat) (i j l : Nat) : (s.freeObj id).cmd? i j l = s.cmd? i j l := rfl
@[simp] theorem State.freeObj_seg_entry (id : Nat) (i : Nat) : (s.freeObj id).seg? i = s.seg? i := rfl

@[simp] theorem State.finish_pending (a b n : Nat) (e : Err) : (s.finish a b n e).pending = s.pending := rfl
@[simp] theorem State.finish_now (a b n : Nat) (e : Err) : (s.finish a b n e).now = s.now := rfl
@[simp] theorem State.finish_free (a b n : Nat) (e : Err) : (s.finish a b n e).free = s.free := rfl
@[simp] theorem State.finish_draws (a b n : Nat) (e : Err) : (s.finish a b n e).draws = s.draws := rfl
@[simp] theorem State.finish_nextId (a b n : Nat) (e : Err) : (s.finish a b n e).nextId = s.nextId := rfl
@[simp] theorem State.finish_fetches (a b n : Nat) (e : Err) : (s.finish a b n e).fetches = s.fetches := rfl
@[simp] theorem State.finish_out (a b n : Nat) (e : Err) : (s.finish a b n e).out = s.out := rfl
@[simp] theorem State.finish_fuses (a b n : Nat) (e : Err) : (s.finish a b n e).fuses = s.fuses := rfl
@[simp] theorem State.finish_settings (a b n : Nat) (e : Err) : (s.finish a b n e).settings = s.settings := rfl
@[simp] theorem State.finish_power (a b n : Nat) (e : Err) : (s.finish a b n e).power = s.power := rfl
@[simp] theorem State.finish_elec (a b n : Nat) (e : Err) : (s.finish a b n e).elec = s.elec := rfl
@[simp] theorem State.finish_lanes (a b n : Nat) (e : Err) : (s.finish a b n e).lanes = s.lanes := rfl
@[simp] theorem State.finish_waggle (a b n : Nat) (e : Err) : (s.finish a b n e).waggle = s.waggle := rfl
@[simp] theorem State.finish_rgTen (a b n : Nat) (e : Err) : (s.finish a b n e).rgTen = s.rgTen := rfl
@[simp] theorem State.finish_tnSel (a b n : Nat) (e : Err) : (s.finish a b n e).tnSel = s.tnSel := rfl
@[simp] theorem State.finish_pollAt (a b n : Nat) (e : Err) : (s.finish a b n e).pollAt = s.pollAt := rfl
@[simp] theorem State.finish_msixHeld (a b n : Nat) (e : Err) : (s.finish a b n e).msixHeld = s.msixHeld := rfl
@[simp] theorem State.finish_tenants (a b n : Nat) (e : Err) : (s.finish a b n e).tenants = s.tenants := rfl
@[simp] theorem State.finish_dram (a b n : Nat) (e : Err) : (s.finish a b n e).dram = s.dram := rfl
@[simp] theorem State.finish_combs (a b n : Nat) (e : Err) : (s.finish a b n e).combs = s.combs := rfl
@[simp] theorem State.finish_cells (a b n : Nat) (e : Err) : (s.finish a b n e).cells = s.cells := rfl
@[simp] theorem State.finish_segs (a b n : Nat) (e : Err) : (s.finish a b n e).segs = s.segs := rfl
@[simp] theorem State.finish_entropy (a b n : Nat) (e : Err) : (s.finish a b n e).entropy = s.entropy := rfl
@[simp] theorem State.finish_log (a b n : Nat) (e : Err) : (s.finish a b n e).log = s.log := rfl
@[simp] theorem State.finish_meters (a b n : Nat) (e : Err) : (s.finish a b n e).meters = s.meters := rfl
@[simp] theorem State.finish_sec (a b n : Nat) (e : Err) : (s.finish a b n e).sec = s.sec := rfl
@[simp] theorem State.finish_fabric (a b n : Nat) (e : Err) : (s.finish a b n e).fabric = s.fabric := rfl
@[simp] theorem State.finish_fw (a b n : Nat) (e : Err) : (s.finish a b n e).fw = s.fw := rfl
@[simp] theorem State.finish_ten_entry (a b n : Nat) (e : Err) (i : Nat) : (s.finish a b n e).ten i = s.ten i := rfl
@[simp] theorem State.finish_comb_entry (a b n : Nat) (e : Err) (i : Nat) : (s.finish a b n e).comb i = s.comb i := rfl
@[simp] theorem State.finish_cell_entry (a b n : Nat) (e : Err) (i : Nat) : (s.finish a b n e).cell i = s.cell i := rfl
@[simp] theorem State.finish_port_entry (a b n : Nat) (e : Err) (i : Nat) : (s.finish a b n e).port i = s.port i := rfl
@[simp] theorem State.finish_tnSet_entry (a b n : Nat) (e : Err) (i : Nat) : (s.finish a b n e).tnSet i = s.tnSet i := rfl
@[simp] theorem State.finish_pace_entry (a b n : Nat) (e : Err) (i : Nat) : (s.finish a b n e).pace i = s.pace i := rfl
@[simp] theorem State.finish_portSet_entry (a b n : Nat) (e : Err) (i : Nat) : (s.finish a b n e).portSet i = s.portSet i := rfl
@[simp] theorem State.finish_dir_entry (a b n : Nat) (e : Err) (i j : Nat) : (s.finish a b n e).dir i j = s.dir i j := rfl
@[simp] theorem State.finish_seg_entry (a b n : Nat) (e : Err) (i : Nat) : (s.finish a b n e).seg? i = s.seg? i := rfl

@[simp] theorem State.done_pending (a b n : Nat) (e : Err) : (s.done a b n e).pending = s.pending := rfl
@[simp] theorem State.done_now (a b n : Nat) (e : Err) : (s.done a b n e).now = s.now := rfl
@[simp] theorem State.done_free (a b n : Nat) (e : Err) : (s.done a b n e).free = s.free := rfl
@[simp] theorem State.done_draws (a b n : Nat) (e : Err) : (s.done a b n e).draws = s.draws := rfl
@[simp] theorem State.done_nextId (a b n : Nat) (e : Err) : (s.done a b n e).nextId = s.nextId := rfl
@[simp] theorem State.done_fetches (a b n : Nat) (e : Err) : (s.done a b n e).fetches = s.fetches := rfl
@[simp] theorem State.done_out (a b n : Nat) (e : Err) : (s.done a b n e).out = s.out := rfl
@[simp] theorem State.done_fuses (a b n : Nat) (e : Err) : (s.done a b n e).fuses = s.fuses := rfl
@[simp] theorem State.done_settings (a b n : Nat) (e : Err) : (s.done a b n e).settings = s.settings := rfl
@[simp] theorem State.done_power (a b n : Nat) (e : Err) : (s.done a b n e).power = s.power := rfl
@[simp] theorem State.done_elec (a b n : Nat) (e : Err) : (s.done a b n e).elec = s.elec := rfl
@[simp] theorem State.done_lanes (a b n : Nat) (e : Err) : (s.done a b n e).lanes = s.lanes := rfl
@[simp] theorem State.done_waggle (a b n : Nat) (e : Err) : (s.done a b n e).waggle = s.waggle := rfl
@[simp] theorem State.done_rgTen (a b n : Nat) (e : Err) : (s.done a b n e).rgTen = s.rgTen := rfl
@[simp] theorem State.done_tnSel (a b n : Nat) (e : Err) : (s.done a b n e).tnSel = s.tnSel := rfl
@[simp] theorem State.done_pollAt (a b n : Nat) (e : Err) : (s.done a b n e).pollAt = s.pollAt := rfl
@[simp] theorem State.done_msixHeld (a b n : Nat) (e : Err) : (s.done a b n e).msixHeld = s.msixHeld := rfl
@[simp] theorem State.done_tenants (a b n : Nat) (e : Err) : (s.done a b n e).tenants = s.tenants := rfl
@[simp] theorem State.done_dram (a b n : Nat) (e : Err) : (s.done a b n e).dram = s.dram := rfl
@[simp] theorem State.done_combs (a b n : Nat) (e : Err) : (s.done a b n e).combs = s.combs := rfl
@[simp] theorem State.done_cells (a b n : Nat) (e : Err) : (s.done a b n e).cells = s.cells := rfl
@[simp] theorem State.done_segs (a b n : Nat) (e : Err) : (s.done a b n e).segs = s.segs := rfl
@[simp] theorem State.done_entropy (a b n : Nat) (e : Err) : (s.done a b n e).entropy = s.entropy := rfl
@[simp] theorem State.done_log (a b n : Nat) (e : Err) : (s.done a b n e).log = s.log := rfl
@[simp] theorem State.done_meters (a b n : Nat) (e : Err) : (s.done a b n e).meters = s.meters := rfl
@[simp] theorem State.done_sec (a b n : Nat) (e : Err) : (s.done a b n e).sec = s.sec := rfl
@[simp] theorem State.done_fabric (a b n : Nat) (e : Err) : (s.done a b n e).fabric = s.fabric := rfl
@[simp] theorem State.done_fw (a b n : Nat) (e : Err) : (s.done a b n e).fw = s.fw := rfl
@[simp] theorem State.done_ten_entry (a b n : Nat) (e : Err) (i : Nat) : (s.done a b n e).ten i = s.ten i := rfl
@[simp] theorem State.done_comb_entry (a b n : Nat) (e : Err) (i : Nat) : (s.done a b n e).comb i = s.comb i := rfl
@[simp] theorem State.done_cell_entry (a b n : Nat) (e : Err) (i : Nat) : (s.done a b n e).cell i = s.cell i := rfl
@[simp] theorem State.done_port_entry (a b n : Nat) (e : Err) (i : Nat) : (s.done a b n e).port i = s.port i := rfl
@[simp] theorem State.done_tnSet_entry (a b n : Nat) (e : Err) (i : Nat) : (s.done a b n e).tnSet i = s.tnSet i := rfl
@[simp] theorem State.done_pace_entry (a b n : Nat) (e : Err) (i : Nat) : (s.done a b n e).pace i = s.pace i := rfl
@[simp] theorem State.done_portSet_entry (a b n : Nat) (e : Err) (i : Nat) : (s.done a b n e).portSet i = s.portSet i := rfl
@[simp] theorem State.done_dir_entry (a b n : Nat) (e : Err) (i j : Nat) : (s.done a b n e).dir i j = s.dir i j := rfl
@[simp] theorem State.done_seg_entry (a b n : Nat) (e : Err) (i : Nat) : (s.done a b n e).seg? i = s.seg? i := rfl

end

/-! ### Reading the changed entry -/

@[simp] theorem State.ten_updTen_self (s : State) (k : Nat) (f : Tenant → Tenant) : (s.updTen k f).ten k = f (s.ten k) :=
  Tbl.lookD_upd_self ..

theorem State.ten_updTen_other (s : State) {k j : Nat} (f : Tenant → Tenant) (h : j ≠ k) : (s.updTen k f).ten j = s.ten j :=
  Tbl.lookD_upd_other _ _ _ h

@[simp] theorem State.comb_updComb_self (s : State) (k : Nat) (f : Comb → Comb) : (s.updComb k f).comb k = f (s.comb k) :=
  Tbl.lookD_upd_self ..

theorem State.comb_updComb_other (s : State) {k j : Nat} (f : Comb → Comb) (h : j ≠ k) : (s.updComb k f).comb j = s.comb j :=
  Tbl.lookD_upd_other _ _ _ h

@[simp] theorem State.cell_updCell_self (s : State) (k : Nat) (f : Cell → Cell) : (s.updCell k f).cell k = f (s.cell k) :=
  Tbl.lookD_upd_self ..

theorem State.cell_updCell_other (s : State) {k j : Nat} (f : Cell → Cell) (h : j ≠ k) : (s.updCell k f).cell j = s.cell j :=
  Tbl.lookD_upd_other _ _ _ h

@[simp] theorem State.port_updPort_self (s : State) (k : Nat) (f : Port → Port) : (s.updPort k f).port k = f (s.port k) :=
  Tbl.lookD_upd_self ..

theorem State.port_updPort_other (s : State) {k j : Nat} (f : Port → Port) (h : j ≠ k) : (s.updPort k f).port j = s.port j :=
  Tbl.lookD_upd_other _ _ _ h

@[simp] theorem State.ring_updRing_self (s : State) (a b : Nat) (f : Ring → Ring) : (s.updRing a b f).ring a b = f (s.ring a b) :=
  Tbl.lookD_upd_self ..

theorem State.ring_updRing_other (s : State) {a b c d : Nat} (f : Ring → Ring) (h : ringKey c d ≠ ringKey a b) :
    (s.updRing a b f).ring c d = s.ring c d := Tbl.lookD_upd_other _ _ _ h

@[simp] theorem State.dir_updDir_self (s : State) (b d : Nat) (f : Direction → Direction) : (s.updDir b d f).dir b d = f (s.dir b d) :=
  Tbl.lookD_upd_self ..

end Sys2Proof.Machine
end

