-- ==== Sys2Proof/Laws/Run.lean ====
section
/-! SUPPORT. What the shared runner `run` does: the effect acts on the state at the command's time, the queue and waggle time are the runner's. -/

namespace Sys2Proof.Machine

/-- The state a command of state s at time t leaves, its effect having answered x. -/
def settled (t : Nat) (s x : State) : State := { x with pending := s.pending, now := max s.now t }

theorem run_next {t : Nat} {s : State} {f : State → State} (h : s.power.off = false) :
    run t s f = .next (settled t s (f (s.advance t))) := by
  simp [run, h, settled]

theorem run_off {t : Nat} {s : State} {f : State → State} (h : s.power.off = true) :
    run t s f = .next (s.advance t) := by
  simp [run, h]

/-- Whatever the effect, the runner answers a next state with the queue as it was and time moved on. -/
theorem run_goes (t : Nat) (s : State) (f : State → State) :
    ∃ s', run t s f = .next s' ∧ s'.pending = s.pending ∧ s'.now = max s.now t := by
  unfold run; split
  · exact ⟨_, rfl, rfl, rfl⟩
  · exact ⟨_, rfl, rfl, rfl⟩

@[simp] theorem onlyIf_true (s : State) (f : State → State) : s.onlyIf true f = f s := rfl
@[simp] theorem onlyIf_false (s : State) (f : State → State) : s.onlyIf false f = s := rfl

@[simp] theorem settled_pending (t : Nat) (s x : State) : (settled t s x).pending = s.pending := rfl
@[simp] theorem settled_now (t : Nat) (s x : State) : (settled t s x).now = max s.now t := rfl
@[simp] theorem settled_free (t : Nat) (s x : State) : (settled t s x).free = x.free := rfl
@[simp] theorem settled_draws (t : Nat) (s x : State) : (settled t s x).draws = x.draws := rfl
@[simp] theorem settled_nextId (t : Nat) (s x : State) : (settled t s x).nextId = x.nextId := rfl
@[simp] theorem settled_fetches (t : Nat) (s x : State) : (settled t s x).fetches = x.fetches := rfl
@[simp] theorem settled_out (t : Nat) (s x : State) : (settled t s x).out = x.out := rfl
@[simp] theorem settled_fuses (t : Nat) (s x : State) : (settled t s x).fuses = x.fuses := rfl
@[simp] theorem settled_settings (t : Nat) (s x : State) : (settled t s x).settings = x.settings := rfl
@[simp] theorem settled_power (t : Nat) (s x : State) : (settled t s x).power = x.power := rfl
@[simp] theorem settled_elec (t : Nat) (s x : State) : (settled t s x).elec = x.elec := rfl
@[simp] theorem settled_lanes (t : Nat) (s x : State) : (settled t s x).lanes = x.lanes := rfl
@[simp] theorem settled_waggle (t : Nat) (s x : State) : (settled t s x).waggle = x.waggle := rfl
@[simp] theorem settled_rgTen (t : Nat) (s x : State) : (settled t s x).rgTen = x.rgTen := rfl
@[simp] theorem settled_tnSel (t : Nat) (s x : State) : (settled t s x).tnSel = x.tnSel := rfl
@[simp] theorem settled_pollAt (t : Nat) (s x : State) : (settled t s x).pollAt = x.pollAt := rfl
@[simp] theorem settled_msixHeld (t : Nat) (s x : State) : (settled t s x).msixHeld = x.msixHeld := rfl
@[simp] theorem settled_tenants (t : Nat) (s x : State) : (settled t s x).tenants = x.tenants := rfl
@[simp] theorem settled_rings (t : Nat) (s x : State) : (settled t s x).rings = x.rings := rfl
@[simp] theorem settled_dram (t : Nat) (s x : State) : (settled t s x).dram = x.dram := rfl
@[simp] theorem settled_combs (t : Nat) (s x : State) : (settled t s x).combs = x.combs := rfl
@[simp] theorem settled_cells (t : Nat) (s x : State) : (settled t s x).cells = x.cells := rfl
@[simp] theorem settled_segs (t : Nat) (s x : State) : (settled t s x).segs = x.segs := rfl
@[simp] theorem settled_entropy (t : Nat) (s x : State) : (settled t s x).entropy = x.entropy := rfl
@[simp] theorem settled_log (t : Nat) (s x : State) : (settled t s x).log = x.log := rfl
@[simp] theorem settled_meters (t : Nat) (s x : State) : (settled t s x).meters = x.meters := rfl
@[simp] theorem settled_sec (t : Nat) (s x : State) : (settled t s x).sec = x.sec := rfl
@[simp] theorem settled_fabric (t : Nat) (s x : State) : (settled t s x).fabric = x.fabric := rfl
@[simp] theorem settled_fw (t : Nat) (s x : State) : (settled t s x).fw = x.fw := rfl
@[simp] theorem settled_ten (t : Nat) (s x : State) (k : Nat) : (settled t s x).ten k = x.ten k := rfl
@[simp] theorem advance_ten (t : Nat) (s : State) (k : Nat) : (s.advance t).ten k = s.ten k := rfl
@[simp] theorem settled_comb (t : Nat) (s x : State) (k : Nat) : (settled t s x).comb k = x.comb k := rfl
@[simp] theorem advance_comb (t : Nat) (s : State) (k : Nat) : (s.advance t).comb k = s.comb k := rfl
@[simp] theorem settled_cell (t : Nat) (s x : State) (k : Nat) : (settled t s x).cell k = x.cell k := rfl
@[simp] theorem advance_cell (t : Nat) (s : State) (k : Nat) : (s.advance t).cell k = s.cell k := rfl
@[simp] theorem settled_port (t : Nat) (s x : State) (k : Nat) : (settled t s x).port k = x.port k := rfl
@[simp] theorem advance_port (t : Nat) (s : State) (k : Nat) : (s.advance t).port k = s.port k := rfl
@[simp] theorem settled_tnSet (t : Nat) (s x : State) (k : Nat) : (settled t s x).tnSet k = x.tnSet k := rfl
@[simp] theorem advance_tnSet (t : Nat) (s : State) (k : Nat) : (s.advance t).tnSet k = s.tnSet k := rfl
@[simp] theorem settled_pace (t : Nat) (s x : State) (k : Nat) : (settled t s x).pace k = x.pace k := rfl
@[simp] theorem advance_pace (t : Nat) (s : State) (k : Nat) : (s.advance t).pace k = s.pace k := rfl
@[simp] theorem settled_portSet (t : Nat) (s x : State) (k : Nat) : (settled t s x).portSet k = x.portSet k := rfl
@[simp] theorem advance_portSet (t : Nat) (s : State) (k : Nat) : (s.advance t).portSet k = s.portSet k := rfl
@[simp] theorem settled_ring (t : Nat) (s x : State) (k j : Nat) : (settled t s x).ring k j = x.ring k j := rfl
@[simp] theorem advance_ring (t : Nat) (s : State) (k j : Nat) : (s.advance t).ring k j = s.ring k j := rfl
@[simp] theorem settled_dir (t : Nat) (s x : State) (k j : Nat) : (settled t s x).dir k j = x.dir k j := rfl
@[simp] theorem advance_dir (t : Nat) (s : State) (k j : Nat) : (s.advance t).dir k j = s.dir k j := rfl
@[simp] theorem settled_cmd (t : Nat) (s x : State) (k j n : Nat) : (settled t s x).cmd? k j n = x.cmd? k j n := rfl
@[simp] theorem advance_cmd (t : Nat) (s : State) (k j n : Nat) : (s.advance t).cmd? k j n = s.cmd? k j n := rfl
@[simp] theorem settled_seg (t : Nat) (s x : State) (k : Nat) : (settled t s x).seg? k = x.seg? k := rfl
@[simp] theorem advance_seg (t : Nat) (s : State) (k : Nat) : (s.advance t).seg? k = s.seg? k := rfl

/-- A table changed at one key is the same at every other. -/
theorem look_upd_other {α : Type} (tb : Tbl α) {k j : Nat} (d : α) (f : α → α) (h : j ≠ k) :
    Tbl.look (Tbl.upd tb k d f) j = Tbl.look tb j := Tbl.look_put_other _ _ h

end Sys2Proof.Machine
end

