-- ==== Sys2Proof/Laws/Cmd.lean ====
section
/-! SUPPORT. Laws of the life of a fetched command: what changing, finishing or ending one leaves in its ring, and what stays. -/

namespace Sys2Proof.Machine

open Sys2Proof.Safety

variable {α : Type}

theorem sameBut_refl (k : Nat) (a : Tbl α) : SameBut k a a := fun _ _ => rfl

theorem sameBut_trans {k : Nat} {a b c : Tbl α} (h : SameBut k a b) (g : SameBut k b c) : SameBut k a c :=
  fun j hj => (h j hj).trans (g j hj)

theorem sameBut_put (k : Nat) (a : Tbl α) (v : α) : SameBut k (Tbl.put a k v) a :=
  fun _ hj => Tbl.look_put_other a v hj

theorem sameBut_upd (k : Nat) (a : Tbl α) (d : α) (f : α → α) : SameBut k (Tbl.upd a k d f) a :=
  fun _ hj => look_upd_other a d f hj

theorem sameBut_updRing (s : State) (a b : Nat) (f : Ring → Ring) : SameBut (ringKey a b) (s.updRing a b f).rings s.rings :=
  sameBut_upd _ _ _ _

theorem sameBut_updTen (s : State) (k : Nat) (f : Tenant → Tenant) : SameBut k (s.updTen k f).tenants s.tenants :=
  sameBut_upd _ _ _ _

theorem sameBut_updComb (s : State) (k : Nat) (f : Comb → Comb) : SameBut k (s.updComb k f).combs s.combs :=
  sameBut_upd _ _ _ _

theorem sameBut_updCell (s : State) (k : Nat) (f : Cell → Cell) : SameBut k (s.updCell k f).cells s.cells :=
  sameBut_upd _ _ _ _

theorem sameBut_updPort (s : State) (k : Nat) (f : Port → Port) : SameBut k (s.updPort k f).fabric.ports s.fabric.ports :=
  sameBut_upd _ _ _ _

/-- Writing bytes of an object changes DRAM only. -/
theorem writeObj_dram (s : State) (id off : Nat) (b : List Byte) : ∃ d, s.writeObj id off b = { s with dram := d } := by
  unfold State.writeObj; split
  · exact ⟨s.dram, rfl⟩
  · exact ⟨_, rfl⟩

theorem foldl_writeObj_dram {α : Type} (id : Nat) (off : α → Nat) (b : α → List Byte) (l : List α) (s : State) :
    ∃ d, l.foldl (fun s p => s.writeObj id (off p) (b p)) s = { s with dram := d } := by
  induction l generalizing s with
  | nil => exact ⟨s.dram, rfl⟩
  | cons p r ih =>
    obtain ⟨d, hd⟩ := writeObj_dram s id (off p) (b p)
    obtain ⟨d', hd'⟩ := ih (s.writeObj id (off p) (b p))
    exact ⟨d', by rw [List.foldl_cons, hd', hd]⟩

theorem sameBut_updCmd (s : State) (a b n : Nat) (f : Cmd → Cmd) : SameBut (ringKey a b) (s.updCmd a b n f).rings s.rings :=
  sameBut_updRing s a b _

/-- A change that keeps sequence numbers is what reading the command gives. -/
theorem State.cmd_updCmd_self (s : State) (a b n : Nat) (f : Cmd → Cmd) (hf : ∀ c, (f c).seq = c.seq) :
    (s.updCmd a b n f).cmd? a b n = (s.cmd? a b n).map f := by
  unfold State.cmd? State.updCmd
  rw [State.ring_updRing_self]
  simp only [List.find?_map]
  have h1 : ((fun c : Cmd => c.seq == n) ∘ fun c => if c.seq = n then f c else c) = fun c => c.seq == n := by
    funext c; simp only [Function.comp]; split <;> simp_all
  rw [h1]
  cases hfd : List.find? (fun c : Cmd => c.seq == n) (s.ring a b).cmds with
  | none => rfl
  | some c => have := List.find?_some hfd; simp_all

theorem State.cmd_seq {s : State} {a b n : Nat} {c : Cmd} (h : s.cmd? a b n = some c) : c.seq = n := by
  have := List.find?_some h; simpa using this

/-- A finished command: its phase, status, detail and end; the rest of it is as it was. -/
theorem State.cmd_finish (s : State) (a b n : Nat) (e : Err) :
    (s.finish a b n e).cmd? a b n =
      (s.cmd? a b n).map fun c => { c with phase := .finished, status := e.1, detail := e.2 % 2 ^ 16, endAt := s.now } :=
  State.cmd_updCmd_self _ _ _ _ _ fun _ => rfl

/-- A command whose work has ended. -/
theorem State.cmd_done (s : State) (a b n : Nat) (e : Err) :
    (s.done a b n e).cmd? a b n = (s.cmd? a b n).map fun c => { c with runDone := true, status := e.1, detail := e.2 % 2 ^ 16 } :=
  State.cmd_updCmd_self _ _ _ _ _ fun _ => rfl

/-- Changing commands of a ring leaves the ring's registers. -/
theorem State.ring_updCmd_self (s : State) (a b n : Nat) (f : Cmd → Cmd) :
    (s.updCmd a b n f).ring a b = { s.ring a b with cmds := (s.ring a b).cmds.map fun c => if c.seq = n then f c else c } :=
  State.ring_updRing_self ..

/-! ### What a final completion brings about -/

/-- Everything but tenants, combs and the objects of DRAM is the same in two states. -/
structure SameOutside (s z : State) : Prop where
  rings : z.rings = s.rings
  out : z.out = s.out
  cells : z.cells = s.cells
  segs : z.segs = s.segs
  mem : z.dram.cells = s.dram.cells
  settings : z.settings = s.settings
  log : z.log = s.log
  power : z.power = s.power
  meters : z.meters = s.meters
  msixHeld : z.msixHeld = s.msixHeld
  now : z.now = s.now

theorem sameOutside_refl (s : State) : SameOutside s s := ⟨rfl, rfl, rfl, rfl, rfl, rfl, rfl, rfl, rfl, rfl, rfl⟩

theorem sameOutside_trans {s z y : State} (h : SameOutside s z) (g : SameOutside z y) : SameOutside s y :=
  ⟨g.rings.trans h.rings, g.out.trans h.out, g.cells.trans h.cells, g.segs.trans h.segs, g.mem.trans h.mem,
   g.settings.trans h.settings, g.log.trans h.log, g.power.trans h.power, g.meters.trans h.meters,
   g.msixHeld.trans h.msixHeld, g.now.trans h.now⟩

theorem sameOutside_freeGen (s : State) (ten m g : Nat) : SameOutside s (s.freeGen ten m g) := by
  unfold State.freeGen
  split
  · exact sameOutside_refl s
  · exact ⟨rfl, rfl, rfl, rfl, Dram.free_cells _ _, rfl, rfl, rfl, rfl, rfl, rfl⟩

theorem sameOutside_foldl {α : Type} (f : State → α → State) (hf : ∀ s a, SameOutside s (f s a)) (l : List α) (s : State) :
    SameOutside s (l.foldl f s) := by
  induction l generalizing s with
  | nil => exact sameOutside_refl s
  | cons a r ih => exact sameOutside_trans (hf s a) (ih _)

theorem sameOutside_sweepModel (s : State) (ten m : Nat) : SameOutside s (s.sweepModel ten m) := by
  unfold State.sweepModel
  split
  · exact sameOutside_refl s
  · dsimp only
    have h := sameOutside_foldl (fun s g => s.freeGen ten m g) (fun s g => sameOutside_freeGen s ten m g)
    split
    · split
      · exact sameOutside_trans (h _ s) ⟨rfl, rfl, rfl, rfl, rfl, rfl, rfl, rfl, rfl, rfl, rfl⟩
      · exact h _ s
    · exact h _ s

/-- Retiring generations without references touches tenants, combs and DRAM objects only. -/
theorem sameOutside_sweepModels (s : State) (ten : Nat) : SameOutside s (s.sweepModels ten) :=
  sameOutside_foldl _ (fun s m => sameOutside_sweepModel s ten m) _ s

/-- What a final completion leaves in the ring. -/
def Ring.retired (r : Ring) (c : Cmd) (written : Bool) : Ring :=
  { r with cmds := r.cmds.filter fun x => x.seq != c.seq
           reserved := r.reserved - c.reserved
           cplPos := r.cplPos + b2n written
           hist := ((c.seq, c.status) :: r.hist).take 256
           spanFailed := if c.opcode = 0x60 then false else r.spanFailed || c.status != St.ok }

/-- Retiring a command changes its ring, held meter records, tenants, combs and DRAM objects only. -/
theorem sameOutside_retireCmd (s : State) (ten lring : Nat) (c : Cmd) (w : Bool) :
    SameOutside { s with rings := (s.updRing ten lring fun r => r.retired c w).rings, meters := (s.retireCmd ten lring c w).meters }
      (s.retireCmd ten lring c w) := by
  unfold State.retireCmd
  dsimp only
  split
  · have h := sameOutside_sweepModels ({ (s.updRing ten lring fun r => r.retired c w) with meters := { s.meters with held := s.meters.held.drop 1 } }) ten
    exact ⟨h.rings, h.out, h.cells, h.segs, h.mem, h.settings, h.log, h.power, rfl, h.msixHeld, h.now⟩
  · have h := sameOutside_sweepModels (s.updRing ten lring fun r => r.retired c w) ten
    exact ⟨h.rings, h.out, h.cells, h.segs, h.mem, h.settings, h.log, h.power, rfl, h.msixHeld, h.now⟩

theorem ring_retireCmd (s : State) (ten lring : Nat) (c : Cmd) (w : Bool) :
    (s.retireCmd ten lring c w).ring ten lring = (s.ring ten lring).retired c w := by
  have h := (sameOutside_retireCmd s ten lring c w).rings
  unfold State.ring
  rw [h]
  exact State.ring_updRing_self s ten lring fun r => r.retired c w

/-- In D3hot a function's interrupt is kept pending, once. -/
theorem interrupt_held {s : State} {ten v : Nat} (h : s.power.vfD3.contains ten = true) :
    s.interrupt ten v = { s with msixHeld := if s.msixHeld.contains (ten, v) then s.msixHeld else s.msixHeld ++ [(ten, v)] } := by
  unfold State.interrupt
  rw [if_pos h]
  split <;> rfl

/-- Otherwise it is sent. -/
theorem interrupt_sent {s : State} {ten v : Nat} (h : s.power.vfD3.contains ten = false) :
    s.interrupt ten v = s.emit (.msix ten v) := by
  unfold State.interrupt
  rw [if_neg (by rw [h]; decide)]

/-- An eligible completion changes its ring's count and may send an interrupt; nothing else. -/
theorem eligible_frame (s : State) (ten lring : Nat) :
    (s.eligible ten lring).cells = s.cells ∧ (s.eligible ten lring).segs = s.segs ∧ (s.eligible ten lring).dram = s.dram ∧
    (s.eligible ten lring).settings = s.settings ∧ (s.eligible ten lring).log = s.log ∧ (s.eligible ten lring).power = s.power ∧
    SameBut (ringKey ten lring) (s.eligible ten lring).rings s.rings ∧
    ((s.eligible ten lring).ring ten lring).cmds = (s.ring ten lring).cmds ∧
    ((s.eligible ten lring).ring ten lring).cplPos = (s.ring ten lring).cplPos ∧
    ((s.eligible ten lring).ring ten lring).state = (s.ring ten lring).state ∧
    ((s.eligible ten lring).ring ten lring).hist = (s.ring ten lring).hist ∧
    (∀ o, o ∈ s.out → o ∈ (s.eligible ten lring).out) := by
  have key : ∀ (f : Ring → Ring) (v : Nat), (∀ r, (f r).cmds = r.cmds ∧ (f r).cplPos = r.cplPos ∧ (f r).state = r.state ∧ (f r).hist = r.hist) →
      ∀ z, (z = s.updRing ten lring f ∨ z = (s.updRing ten lring f).interrupt ten v) →
      z.cells = s.cells ∧ z.segs = s.segs ∧ z.dram = s.dram ∧ z.settings = s.settings ∧ z.log = s.log ∧ z.power = s.power ∧
      SameBut (ringKey ten lring) z.rings s.rings ∧ (z.ring ten lring).cmds = (s.ring ten lring).cmds ∧
      (z.ring ten lring).cplPos = (s.ring ten lring).cplPos ∧ (z.ring ten lring).state = (s.ring ten lring).state ∧
      (z.ring ten lring).hist = (s.ring ten lring).hist ∧ (∀ o, o ∈ s.out → o ∈ z.out) := by
    intro f v hf z hz
    have hr : z.rings = (s.updRing ten lring f).rings := by
      rcases hz with rfl | rfl
      · rfl
      · unfold State.interrupt; split <;> [split; skip] <;> rfl
    have hrr : z.ring ten lring = f (s.ring ten lring) := by
      unfold State.ring; rw [hr]; exact State.ring_updRing_self s ten lring f
    obtain ⟨f1, f2, f3, f4⟩ := hf (s.ring ten lring)
    have rest : z.cells = s.cells ∧ z.segs = s.segs ∧ z.dram = s.dram ∧ z.settings = s.settings ∧ z.log = s.log ∧ z.power = s.power ∧
        (∀ o, o ∈ s.out → o ∈ z.out) := by
      rcases hz with rfl | rfl
      · exact ⟨rfl, rfl, rfl, rfl, rfl, rfl, fun _ h => h⟩
      · unfold State.interrupt
        split
        · split <;> exact ⟨rfl, rfl, rfl, rfl, rfl, rfl, fun _ h => h⟩
        · exact ⟨rfl, rfl, rfl, rfl, rfl, rfl, fun _ h => List.mem_cons_of_mem _ h⟩
    obtain ⟨a, b, c, d, e, g, i⟩ := rest
    rw [hrr]
    exact ⟨a, b, c, d, e, g, by rw [hr]; exact sameBut_updRing s ten lring f, f1, f2, f3, f4, i⟩
  unfold State.eligible
  dsimp only
  split
  · exact key (fun r => { r with modSeen := 0, modSince := none }) (s.ring ten lring).vector (fun _ => ⟨rfl, rfl, rfl, rfl⟩) _ (.inr rfl)
  · exact key (fun r => { r with modSeen := r.modSeen + 1, modSince := some (r.modSince.getD s.now) }) 0 (fun _ => ⟨rfl, rfl, rfl, rfl⟩) _ (.inl rfl)

end Sys2Proof.Machine
end

