-- ==== Sys2Proof/Laws/Objects.lean ====
section
/-! SUPPORT. Laws of a tenant's objects: what opening and closing a session, loading a key set, placing and retiring a generation, and an allocation change, and what they leave. -/

namespace Sys2Proof.Machine

open Sys2Proof.Safety

theorem length_toLE (n v : Nat) : (toLE n v).length = n := by
  induction n generalizing v with
  | zero => rfl
  | succ n ih => simp [toLE, ih]

theorem openLimits_congr {s s' : State} {ten cls : Nat} {b : Bool} (h1 : s'.tenants = s.tenants) (h2 : s'.settings = s.settings) (h3 : s'.fw = s.fw) :
    openLimits s' ten cls b = openLimits s ten cls b := by
  have e1 : s'.ten ten = s.ten ten := by simp only [State.ten, h1]
  have e2 : s'.tnSet ten = s.tnSet ten := by simp only [State.tnSet, h2]
  have e3 : s'.activeTotal = s.activeTotal := by simp only [State.activeTotal, h1]
  have e4 : s'.recordTotal = s.recordTotal := by simp only [State.recordTotal, h1]
  simp only [openLimits, e1, e2, e3, e4, h3]

theorem openSession_ok {s s1 : State} {ten lring n obj : Nat} {c : Cmd} {g : Gen}
    (h1 : openLimits s ten (c.cls (s.ring ten lring)) c.resume = none)
    (h2 : (Tbl.look (s.ten ten).models (openModel (s.ten ten) c)).bind Model.newest = some (n, g))
    (h3 : s.alloc ten .arena (some g.home) c.arenaBytes = .ok (obj, s1)) :
    s.openSession ten lring c =
        let x := s.ten ten
        let cls := c.cls (s.ring ten lring)
        let old := Tbl.look x.sessions (c.handle 0)
        let n : Session :=
          { active := true, closing := false, position := if c.resume then old.elim 0 (·.position) else 0, model := openModel x c, gen := n,
            keyset := some (c.handle 1), cls := cls, arenaBytes := c.arenaBytes, arena := obj,
            deadlineMs := if c.rtDeadlineMs = 0 then 2000 else c.rtDeadlineMs,
            recIndex := if c.resume then old.elim s1.freeRecord (·.recIndex) else s1.freeRecord,
            tickets := if c.resume then old.elim [] (·.tickets) else [] }
        let s := s1.updTen ten fun x => { x with sessions := Tbl.put x.sessions (c.handle 0) n }
        let s :=
          if cls = 0 then
            s.pinComps g.home ten (c.handle 1) (c.handle 0) 0 ((Tbl.look x.keysets (c.handle 1)).elim [] (·.comps)) else s
        s.finish ten lring c.seq (St.ok, 0) := by
  unfold State.openSession
  simp only [h1, h2, h3]

theorem pinComp_combs (s s' : State) (a b c d e f : Nat) (h : s.pinComp a b c d e f = some s') : ∃ k, s' = { s with combs := k } := by
  unfold State.pinComp at h
  dsimp only at h
  split at h
  · simp only [Option.some.injEq] at h; exact ⟨_, h.symm⟩
  · split at h
    · simp at h
    · split at h
      · simp only [Option.some.injEq] at h; exact ⟨_, h.symm⟩
      · simp at h

theorem pinComps_combs (s : State) (a b c d e : Nat) (l : List KeyComp) : ∃ k, s.pinComps a b c d e l = { s with combs := k } := by
  induction l generalizing s e with
  | nil => exact ⟨s.combs, rfl⟩
  | cons x r ih =>
    unfold State.pinComps
    split
    · rename_i s' h
      obtain ⟨k, hk⟩ := pinComp_combs _ _ _ _ _ _ _ _ h
      obtain ⟨k', hk'⟩ := ih s' (e + 1)
      exact ⟨k', by rw [hk', hk]⟩
    · exact ⟨s.combs, rfl⟩

theorem sweepKeySet_frame (s : State) (ten k : Nat) : SameOutside s (s.sweepKeySet ten k) ∧
    ((s.sweepKeySet ten k).ten ten).sessions = (s.ten ten).sessions ∧ SameBut ten (s.sweepKeySet ten k).tenants s.tenants := by
  unfold State.sweepKeySet
  split
  · exact ⟨sameOutside_refl s, rfl, sameBut_refl _ _⟩
  · split
    · have hd : ∀ z : State, ∃ cs, z.dropKeyShelves ten k = { z with combs := cs } := fun z => ⟨_, rfl⟩
      obtain ⟨cs, hcs⟩ := hd (s.freeObj ‹KeySet›.obj)
      rw [hcs]
      refine ⟨⟨rfl, rfl, rfl, rfl, Dram.free_cells _ _, rfl, rfl, rfl, rfl, rfl, rfl⟩, ?_, sameBut_updTen { s.freeObj ‹KeySet›.obj with combs := cs } ten _⟩
      rw [State.ten_updTen_self]; rfl
    · exact ⟨sameOutside_refl s, rfl, sameBut_refl _ _⟩

theorem freeGen_ten (s : State) (ten m g : Nat) : ((s.freeGen ten m g).ten ten).sessions = (s.ten ten).sessions ∧
    SameBut ten (s.freeGen ten m g).tenants s.tenants ∧
    ∀ k, (Tbl.look ((s.freeGen ten m g).ten ten).models k).map (·.retired) = (Tbl.look (s.ten ten).models k).map (·.retired) := by
  unfold State.freeGen
  split
  · exact ⟨rfl, sameBut_refl _ _, fun _ => rfl⟩
  · dsimp only
    rw [State.ten_updTen_self]
    refine ⟨rfl, sameBut_updTen (State.updComb _ _ _) _ _, fun k => ?_⟩
    show (Tbl.look (Tbl.adjust (s.ten ten).models m _) k).map _ = _
    unfold Tbl.adjust
    split
    · rename_i v hv
      by_cases hk : k = m
      · subst hk; rw [Tbl.look_put_self, hv]; rfl
      · rw [Tbl.look_put_other _ _ hk]
    · rfl

theorem sweepModel_ten (s : State) (ten m : Nat) : ((s.sweepModel ten m).ten ten).sessions = (s.ten ten).sessions ∧
    SameBut ten (s.sweepModel ten m).tenants s.tenants ∧
    (∀ m', Tbl.look ((s.sweepModel ten m).ten ten).models m = some m' → (Tbl.look (s.ten ten).models m).map (·.retired) = some m'.retired) := by
  have hf : ∀ (l : List Nat) (z : State), ((l.foldl (fun s g => s.freeGen ten m g) z).ten ten).sessions = (z.ten ten).sessions ∧
      SameBut ten (l.foldl (fun s g => s.freeGen ten m g) z).tenants z.tenants ∧
      ∀ k, (Tbl.look ((l.foldl (fun s g => s.freeGen ten m g) z).ten ten).models k).map (·.retired) = (Tbl.look (z.ten ten).models k).map (·.retired) := by
    intro l
    induction l with
    | nil => intro z; exact ⟨rfl, sameBut_refl _ _, fun _ => rfl⟩
    | cons g r ih =>
      intro z
      obtain ⟨a, b, c⟩ := ih (z.freeGen ten m g)
      obtain ⟨a', b', c'⟩ := freeGen_ten z ten m g
      exact ⟨a.trans a', sameBut_trans b b', fun k => (c k).trans (c' k)⟩
  unfold State.sweepModel
  split
  · exact ⟨rfl, sameBut_refl _ _, fun m' h => by rw [h]; rfl⟩
  · dsimp only
    rename_i mm hmm
    obtain ⟨a, b, c⟩ := hf ((mm.gens.map (·.1)).filter fun g => (mm.retired || mm.newest.any fun n => n.1 != g) && s.genRefs ten m g == 0) s
    split
    · split
      · refine ⟨?_, sameBut_trans (sameBut_updTen _ _ _) b, fun m' h => ?_⟩
        · rw [State.ten_updTen_self]; exact a
        · rw [State.ten_updTen_self] at h
          exact absurd h (by rw [show Tbl.look (Tbl.del _ m) m = none from Tbl.look_del_self _ _]; simp)
      · exact ⟨a, b, fun m' h => by rw [← c m, h]; rfl⟩
    · exact ⟨a, b, fun m' h => by rw [← c m, h]; rfl⟩

theorem alloc_frame {s0 s1 : State} {ten b obj : Nat} {kind : ObjKind} {home : Option Nat} (h : s0.alloc ten kind home b = .ok (obj, s1)) :
    s1.tenants = s0.tenants ∧ s1.rings = s0.rings ∧ s1.dram.cells = s0.dram.cells ∧ s1.cells = s0.cells ∧
      s1.segs = s0.segs ∧ s1.settings = s0.settings ∧ s1.now = s0.now := by
  unfold State.alloc at h
  split at h
  · exact absurd h (by simp)
  · split at h
    · exact absurd h (by simp)
    · simp only [Except.ok.injEq, Prod.mk.injEq] at h
      rw [← h.2]; exact ⟨rfl, rfl, rfl, rfl, rfl, rfl, rfl⟩

theorem pinWeights_combs {s s' : State} {a b c d e : Nat} (h : s.pinWeights a b c d e = .ok s') : ∃ cs, s' = { s with combs := cs } := by
  unfold State.pinWeights at h
  dsimp only at h
  split at h
  · simp at h
  · split at h
    · simp at h
    · simp only [Except.ok.injEq] at h; exact ⟨_, h.symm⟩

theorem put_last {α : Type} (l : Tbl α) (k : Nat) (v : α) (h : ∀ p ∈ l, p.1 < k) : (Tbl.put l k v).getLast? = some (k, v) := by
  have : Tbl.put l k v = l ++ [(k, v)] := by
    induction l with
    | nil => rfl
    | cons e r ih =>
      obtain ⟨i, w⟩ := e
      have h1 : i < k := h (i, w) (List.mem_cons_self ..)
      have h2 : ¬ k < i := by omega
      have h3 : ¬ k = i := by omega
      simp only [Tbl.put, h2, h3, if_false]
      rw [ih fun p hp => h p (List.mem_cons_of_mem _ hp)]; rfl
  rw [this]; simp

theorem freeGen_live (s : State) {ten mo : Nat} (g : Nat) {m : Model} (h : Tbl.look (s.ten ten).models mo = some m) :
    ∃ m', Tbl.look ((s.freeGen ten mo g).ten ten).models mo = some m' ∧ m'.next = m.next ∧ m'.retired = m.retired ∧ m'.loading = m.loading ∧
      (∀ n x, Tbl.look m'.gens n = some x → Tbl.look m.gens n = some x) ∧ (∀ n, n ≠ g → Tbl.look m'.gens n = Tbl.look m.gens n) := by
  unfold State.freeGen
  split
  · exact ⟨m, h, rfl, rfl, rfl, fun _ _ h => h, fun _ _ => rfl⟩
  · dsimp only
    rw [State.ten_updTen_self]
    refine ⟨{ m with gens := Tbl.del m.gens g }, ?_, rfl, rfl, rfl, fun n x hx => ?_, fun n hn => Tbl.look_del_other _ hn⟩
    · show Tbl.look (Tbl.adjust (s.ten ten).models mo _) mo = _
      unfold Tbl.adjust; rw [h]; exact Tbl.look_put_self _ _ _
    · by_cases hn : n = g
      · subst hn; dsimp only at hx; rw [Tbl.look_del_self] at hx; simp at hx
      · dsimp only at hx; rwa [Tbl.look_del_other _ hn] at hx

theorem sweepModel_live {z : State} {ten mo : Nat} {m : Model} (h : Tbl.look (z.ten ten).models mo = some m) (hret : m.retired = false) :
    ∃ m', Tbl.look ((z.sweepModel ten mo).ten ten).models mo = some m' ∧ m'.next = m.next ∧ m'.retired = false ∧ m'.loading = m.loading ∧
      (∀ n x, Tbl.look m'.gens n = some x → Tbl.look m.gens n = some x) ∧
      (∀ n x, m.gens.getLast? = some (n, x) → Tbl.look m'.gens n = Tbl.look m.gens n) := by
  have hf : ∀ (l : List Nat) (z : State) (m : Model), Tbl.look (z.ten ten).models mo = some m →
      ∃ m', Tbl.look ((l.foldl (fun s g => s.freeGen ten mo g) z).ten ten).models mo = some m' ∧ m'.next = m.next ∧ m'.retired = m.retired ∧ m'.loading = m.loading ∧
      (∀ n x, Tbl.look m'.gens n = some x → Tbl.look m.gens n = some x) ∧ (∀ n, n ∉ l → Tbl.look m'.gens n = Tbl.look m.gens n) := by
    intro l
    induction l with
    | nil => intro z m h; exact ⟨m, h, rfl, rfl, rfl, fun _ _ h => h, fun _ _ => rfl⟩
    | cons g r ih =>
      intro z m h
      obtain ⟨m1, a1, a2, a3, a4, a5, a6⟩ := freeGen_live z g h
      obtain ⟨m2, b1, b2, b3, b4, b5, b6⟩ := ih _ m1 a1
      exact ⟨m2, b1, b2.trans a2, b3.trans a3, b4.trans a4, fun n x hx => a5 n x (b5 n x hx),
        fun n hn => (b6 n (fun h => hn (List.mem_cons_of_mem _ h))).trans (a6 n (fun h => hn (h ▸ List.mem_cons_self ..)))⟩
  unfold State.sweepModel
  simp only [h]
  generalize hd : List.filter _ (List.map _ m.gens) = dead
  obtain ⟨m', b1, b2, b3, b4, b5, b6⟩ := hf dead z m h
  rw [b1]
  simp only [b3, hret, Bool.false_and, Bool.false_eq_true, if_false]
  refine ⟨m', b1, b2, b3.trans hret, b4, b5, fun n x hn => b6 n ?_⟩
  rw [← hd]
  simp [List.mem_filter, hret, Model.newest, hn]

theorem placeGen_spec {s0 s1 : State} {ten id : Nat} {c : Cmd} {g : Gen} {data : List (List Byte)} (h : s0.placeGen ten c g data = .ok (id, s1)) :
    s1.rings = s0.rings ∧ ∃ m' g', Tbl.look (s1.ten ten).models (c.handle 0) = some m' ∧ Tbl.look m'.loading id = some g' ∧ g'.modtab = g.modtab ∧
      g'.segs = g.segs ∧ g'.rts = g.rts ∧ g'.obj = id ∧ m'.gens = ((Tbl.look (s0.ten ten).models (c.handle 0)).elim [] (·.gens)) ∧
      SameBut ten s1.tenants s0.tenants ∧ s1.cells = s0.cells ∧ s1.settings = s0.settings ∧ s1.now = s0.now := by
  unfold State.placeGen at h
  simp only [bind, Except.bind, pure, Except.pure] at h
  split at h
  · simp at h
  · rename_i v hv
    obtain ⟨obj, sa⟩ := v
    obtain ⟨a1, a2, a3, a4, a5, a6, a7⟩ := alloc_frame hv
    split at h
    · simp at h
    · rename_i sb hb
      have hpin : ∃ cs, sb = { sa with combs := cs } := by
        unfold State.pinLoad at hb
        split at hb
        · exact pinWeights_combs hb
        · simp only [Except.ok.injEq] at hb; exact ⟨sa.combs, by rw [← hb]⟩
      obtain ⟨cs, hsb⟩ := hpin
      simp only [Except.ok.injEq, Prod.mk.injEq] at h
      obtain ⟨h1, h2⟩ := h
      generalize hz : (List.foldl (fun s w => State.writeObj s obj w.1.1 w.2) sb (g.weights.zip data)) = z at h2
      have hw : ∃ d, z = { sb with dram := d } := by
        rw [← hz]; exact foldl_writeObj_dram obj (fun w : (Nat × Nat) × List Byte => w.1.1) (fun w => w.2) _ sb
      obtain ⟨d, hw⟩ := hw
      have zt : z.tenants = s0.tenants := by rw [hw, hsb]; exact a1
      subst h1
      rw [← h2]
      refine ⟨by rw [State.updTen_rings, hw, hsb]; exact a2, ?_⟩
      rw [State.ten_updTen_self]
      have hmod : (z.ten ten) = s0.ten ten := by unfold State.ten; rw [zt]
      refine ⟨_, _, Tbl.look_put_self _ _ _, Tbl.look_put_self _ _ _, rfl, rfl, rfl, rfl, ?_, ?_, ?_, ?_, ?_⟩
      · rw [hmod]; unfold Tbl.lookD; cases Tbl.look (s0.ten ten).models (c.handle 0) <;> rfl
      · refine sameBut_trans (sameBut_updTen _ _ _) ?_; rw [zt]; exact sameBut_refl _ _
      · rw [State.updTen_cells, hw, hsb]; exact a4
      · rw [State.updTen_settings, hw, hsb]; exact a6
      · rw [State.updTen_now, hw, hsb]; exact a7

theorem endSession_frame (s : State) (ten handle : Nat) (keep : Bool) {x : Session} (hx : Tbl.look (s.ten ten).sessions handle = some x) :
    SameOutside s (s.endSession ten handle keep) ∧
    (Tbl.look ((s.endSession ten handle keep).ten ten).sessions handle).map (fun r => (r.active, r.position, r.recIndex)) =
      (if keep then some (false, x.position, x.recIndex) else none) ∧
    SameBut handle ((s.endSession ten handle keep).ten ten).sessions (s.ten ten).sessions ∧
    SameBut ten (s.endSession ten handle keep).tenants s.tenants := by
  unfold State.endSession
  simp only [hx]
  have hu : ∀ z : State, ∃ cs, z.unpinSessions ten handle = { z with combs := cs } := fun z => ⟨_, rfl⟩
  obtain ⟨cs, hcs⟩ := hu (s.freeObj x.arena)
  rw [hcs]
  generalize hz : (State.updTen (State.dropMessages { s.freeObj x.arena with combs := cs } ten handle) ten fun n =>
    { n with sessions := if keep = true then Tbl.put n.sessions handle { x with active := false, closing := false, keyset := none, gen := 0, arenaBytes := 0, arena := 0 } else Tbl.del n.sessions handle }) = z
  have z1 : SameOutside s z := by rw [← hz]; exact ⟨rfl, rfl, rfl, rfl, Dram.free_cells _ _, rfl, rfl, rfl, rfl, rfl, rfl⟩
  have z2 : (z.ten ten).sessions = if keep = true then Tbl.put (s.ten ten).sessions handle { x with active := false, closing := false, keyset := none, gen := 0, arenaBytes := 0, arena := 0 } else Tbl.del (s.ten ten).sessions handle := by
    rw [← hz, State.ten_updTen_self]; rfl
  have z3 : SameBut ten z.tenants s.tenants := by rw [← hz]; exact sameBut_updTen _ _ _
  obtain ⟨y1, y2, -⟩ := sweepModel_ten z ten x.model
  have fin : ∀ y : State, SameOutside (z.sweepModel ten x.model) y → (y.ten ten).sessions = ((z.sweepModel ten x.model).ten ten).sessions →
      SameBut ten y.tenants (z.sweepModel ten x.model).tenants →
      SameOutside s y ∧ (Tbl.look (y.ten ten).sessions handle).map (fun r => (r.active, r.position, r.recIndex)) =
      (if keep then some (false, x.position, x.recIndex) else none) ∧
      SameBut handle (y.ten ten).sessions (s.ten ten).sessions ∧ SameBut ten y.tenants s.tenants := by
    intro y h1 h2 h3
    refine ⟨sameOutside_trans z1 (sameOutside_trans (sameOutside_sweepModel _ _ _) h1), ?_, ?_, sameBut_trans h3 (sameBut_trans y2 z3)⟩
    · rw [h2, y1, z2]; cases keep
      · simp
      · simp
    · rw [h2, y1, z2]; cases keep
      · intro j hj; exact Tbl.look_del_other _ hj
      · exact sameBut_put _ _ _
  split
  · obtain ⟨f1, f2, f3⟩ := sweepKeySet_frame (z.sweepModel ten x.model) ten ‹Nat›
    exact fin _ f1 f2 f3
  · exact fin _ (sameOutside_refl _) rfl (sameBut_refl _ _)

theorem loadKeySet_ok {s s1 : State} {ten lring obj : Nat} {c : Cmd} {img : List Byte} {k : KeyHead}
    (h1 : keyHeader img (c.len 0) = .ok k) (h2 : k.paramFault s.settings.ceil = none) (h3 : k.dirFault img = none)
    (h4 : k.badLength img = none) (h5 : s.alloc ten .keyset ((s.ten ten).homeOf (c.handle 1)) k.objBytes = .ok (obj, s1)) :
    s.loadKeySet ten lring c img =
      ((((k.layout img 0 0 k.kinds).foldl (fun s p => s.writeObj obj p.1.off p.2) s1).updTen ten fun x => { x with keysets := Tbl.put x.keysets (c.handle 0) { modtab := k.tab, dnum := k.dnum, bootEll := k.bootEll, lweN := k.lweN, logNb := k.logNb, ksEll := k.ksEll, ksBits := k.ksBits, lweIdx := k.lweIdx, comps := (k.layout img 0 0 k.kinds).map (·.1), obj := obj, loaded := false, released := false, invalid := false } }).done ten lring c.seq (St.ok, 0)) := by
  have h23 : ((k.paramFault s.settings.ceil).orElse fun _ => k.dirFault img) = none := by rw [h2]; exact h3
  unfold State.loadKeySet
  simp only [h1, h23, h4, h5]

/-- Generations that are not on the list of those to free stay. -/
theorem foldl_freeGen_keeps {ten mo n : Nat} (l : List Nat) (hn : n ∉ l) :
    ∀ (z : State), (l.foldl (fun s g => s.freeGen ten mo g) z).genOf ten mo n = z.genOf ten mo n := by
  induction l with
  | nil => intro z; rfl
  | cons g r ih =>
    intro z
    have h1 : n ≠ g := fun h => hn (h ▸ List.mem_cons_self ..)
    have h2 : n ∉ r := fun h => hn (List.mem_cons_of_mem _ h)
    rw [List.foldl_cons, ih h2]
    unfold State.genOf
    cases hm : Tbl.look (z.ten ten).models mo with
    | none =>
      have : z.freeGen ten mo g = z := by unfold State.freeGen; simp [hm]
      rw [this, hm]
    | some m =>
      obtain ⟨m', a1, -, -, -, -, a6⟩ := freeGen_live z g hm
      rw [a1]; exact a6 n h1

/-- A generation with a reference survives the sweep of its handle. -/
theorem sweepModel_keeps {z : State} {ten mo n : Nat} {g : Gen} (hg : z.genOf ten mo n = some g) (hr : z.genRefs ten mo n ≠ 0) :
    (z.sweepModel ten mo).genOf ten mo n = some g := by
  obtain ⟨m, hm, hmg⟩ : ∃ m, Tbl.look (z.ten ten).models mo = some m ∧ Tbl.look m.gens n = some g := by
    unfold State.genOf at hg
    cases hm : Tbl.look (z.ten ten).models mo with
    | none => rw [hm] at hg; simp at hg
    | some m => rw [hm] at hg; exact ⟨m, rfl, hg⟩
  unfold State.sweepModel
  simp only [hm]
  generalize hd : List.filter _ (List.map _ m.gens) = dead
  have hnd : n ∉ dead := by rw [← hd]; simp [hr]
  have hk := foldl_freeGen_keeps (ten := ten) (mo := mo) dead hnd z
  rw [hg] at hk
  split
  · rename_i m2 hm2
    have hm3 : Tbl.look m2.gens n = some g := by unfold State.genOf at hk; rw [hm2] at hk; exact hk
    have : m2.gens.isEmpty = false := by
      cases hq : m2.gens with
      | nil => rw [hq] at hm3; simp at hm3
      | cons => rfl
    simp only [this, Bool.and_false, Bool.false_and, Bool.false_eq_true, if_false]; exact hk
  · exact hk

theorem foldl_combs_cells {α : Type} (f : State → α → State) (hf : ∀ s a, ∃ cs es, f s a = { s with combs := cs, cells := es }) (l : List α) (s : State) :
    ∃ cs es, l.foldl f s = { s with combs := cs, cells := es } := by
  induction l generalizing s with
  | nil => exact ⟨s.combs, s.cells, rfl⟩
  | cons a r ih =>
    obtain ⟨cs, es, h⟩ := hf s a
    obtain ⟨cs', es', h'⟩ := ih (f s a)
    exact ⟨cs', es', by rw [List.foldl_cons, h', h]⟩

theorem releaseCells_cells (s : State) (l : List Nat) : ∃ es, s.releaseCells l = { s with cells := es } := by
  unfold State.releaseCells
  induction l generalizing s with
  | nil => exact ⟨s.cells, rfl⟩
  | cons a r ih => obtain ⟨es, h⟩ := ih (s.updCell a Cell.release); exact ⟨es, by rw [List.foldl_cons, h]; rfl⟩

/-- An EVAL's failure changes its evaluation, its runs, the cells and shelves that they held; nothing else. -/
theorem failEval_eq (s : State) (ten lring seq : Nat) (e : Err) :
    ∃ cs es, s.failEval ten lring seq e =
      { (s.updEval ten lring seq fun v => evalFails v e (!((runsAfter s.segs ten lring seq e).any fun g => g.ofCmd ten lring seq)))
        with combs := cs, cells := es, segs := runsAfter s.segs ten lring seq e } := by
  unfold State.failEval
  obtain ⟨cs, es, h⟩ := foldl_combs_cells (fun s (g : SegRun) => (s.releaseCells g.cells).unrefSeg g.id) (fun s g => by
    obtain ⟨es, h⟩ := releaseCells_cells s g.cells
    rw [h]; exact ⟨_, es, rfl⟩) (s.segs.filter fun g => g.ofCmd ten lring seq && g.phase != .running) s
  dsimp only
  rw [h]
  exact ⟨cs, es, rfl⟩
/-- What changing an evaluation leaves. -/
theorem evalOf_updEval (s : State) (ten lring seq : Nat) (f : Eval → Eval) :
    evalOf (s.updEval ten lring seq f) ten lring seq = (evalOf s ten lring seq).map f := by
  unfold evalOf State.updEval
  rw [State.cmd_updCmd_self s ten lring seq (fun c => { c with eval := c.eval.map f }) fun _ => rfl]
  cases s.cmd? ten lring seq <;> rfl

theorem foldl_takeMessages (ten : Nat) (v : Eval) (l : List Nat) (y : State) :
    ∃ fb, l.foldl (fun s i => s.takeMessages ten v i) y = { y with fabric := fb } := by
  induction l generalizing y with
  | nil => exact ⟨y.fabric, rfl⟩
  | cons a r ih =>
    obtain ⟨fb, h⟩ : ∃ fb, y.takeMessages ten v a = { y with fabric := fb } := by
      unfold State.takeMessages; split
      · exact ⟨y.fabric, rfl⟩
      · exact ⟨_, rfl⟩
    obtain ⟨fb', h'⟩ := ih (y.takeMessages ten v a)
    exact ⟨fb', by rw [List.foldl_cons, h', h]⟩

theorem map_zip_range {α β : Type} (F : α → β) (l : List α) : ((List.range l.length).zip l).map (fun p => F p.2) = l.map F := by
  have h : ∀ m, ((List.range' m l.length).zip l).map (fun p => F p.2) = l.map F := by
    induction l with
    | nil => intro m; rfl
    | cons a r ih => intro m; simp [List.range'_succ, ih (m + 1)]
  rw [List.range_eq_range']; exact h 0

/-- Putting a gang with the dispatcher adds its runs and takes their numbers; nothing else. -/
theorem requestGang_asks (s : State) (ten lring : Nat) (c : Cmd) (g : Gen) (idx : Nat) (first : Bool) :
    AsksGang s (s.requestGang ten lring c g idx first) ten lring c g idx ∧
      ∃ n l, s.requestGang ten lring c g idx first = { s with nextId := n, segs := s.segs ++ l } := by
  refine ⟨⟨_, rfl, ?_, ?_⟩, _, _, rfl⟩
  · intro r hr
    rw [List.mem_map] at hr
    obtain ⟨p, -, hp⟩ := hr
    rw [← hp]; simp [SegRun.ofCmd, SegRun.ready]
  · rw [List.map_map]
    rw [← map_zip_range (fun i => (i, c.cls (s.ring ten lring), (g.home + ((g.segs[i]?).elim 0 (·.combOff))) % 4)) (g.gang idx)]
    rfl

/-- The chain goes on at a segment; only the EVAL's ring, the runs, their numbers and the ranges that messages take change. -/
theorem continueAt_chain {s : State} {ten lring idx : Nat} {c : Cmd} {v : Eval} {g : Gen} (first : Bool)
    (hc : s.cmd? ten lring c.seq = some c) (hv : c.eval = some v) (hg : s.genOf ten v.model v.gen = some g) :
    ChainAt s (s.continueAt ten lring c.seq idx first) ten lring c v g idx ∧
      ∃ rs n gs fb, s.continueAt ten lring c.seq idx first = { s with rings := rs, nextId := n, segs := gs, fabric := fb } ∧
        SameBut (ringKey ten lring) rs s.rings := by
  have hcont : s.continueAt ten lring c.seq idx first =
      let u := s.updEval ten lring c.seq fun v => { v with chain := idx, rounds := v.rounds + 1 }
      if (g.gang idx).all fun i => s.messagesLanded ten v i then
        ((g.gang idx).foldl (fun s i => s.takeMessages ten v i) u).requestGang ten lring c g idx first
      else u.updEval ten lring c.seq fun v => { v with recvWait := some (idx, u.now) } := by
    unfold State.continueAt
    simp only [hc, hv, hg]
    rfl
  have he : evalOf s ten lring c.seq = some v := by unfold evalOf; rw [hc]; exact hv
  have hev : ∀ f : Eval → Eval, evalOf (s.updEval ten lring c.seq f) ten lring c.seq = some (f v) := fun f => by
    rw [evalOf_updEval, he]; rfl
  rw [hcont]
  dsimp only
  cases hall : (g.gang idx).all fun i => s.messagesLanded ten v i with
  | true =>
    simp only [if_true]
    obtain ⟨fb, hfb⟩ := foldl_takeMessages ten v (g.gang idx) (s.updEval ten lring c.seq fun v => { v with chain := idx, rounds := v.rounds + 1 })
    rw [hfb]
    obtain ⟨⟨l, h1, h2, h3⟩, n, l', h4⟩ := requestGang_asks { (s.updEval ten lring c.seq fun v => { v with chain := idx, rounds := v.rounds + 1 }) with fabric := fb } ten lring c g idx first
    refine ⟨⟨fun _ => ⟨?_, l, h1, h2, ?_⟩, fun ⟨i, hi, hf⟩ => ?_⟩, _, n, _, fb, h4, sameBut_updCmd _ _ _ _ _⟩
    · rw [h4]; exact hev _
    · rw [h3]
      have : ∀ (fb : Fabric), State.ring { (s.updEval ten lring c.seq fun v => { v with chain := idx, rounds := v.rounds + 1 }) with fabric := fb } ten lring =
          (s.updEval ten lring c.seq fun v => { v with chain := idx, rounds := v.rounds + 1 }).ring ten lring := fun _ => rfl
      have hr : c.cls (State.ring { (s.updEval ten lring c.seq fun v => { v with chain := idx, rounds := v.rounds + 1 }) with fabric := fb } ten lring) = c.cls (s.ring ten lring) := by
        rw [this]; unfold State.updEval Cmd.cls; rw [State.ring_updCmd_self]
      rw [hr]
    · rw [List.all_eq_true] at hall; have := hall i hi; rw [hf] at this; simp at this
  | false =>
    simp only [Bool.false_eq_true, if_false]
    refine ⟨⟨fun h => absurd (List.all_eq_true.2 h) (by rw [hall]; decide), fun _ => ⟨?_, rfl⟩⟩, _, _, _, _, rfl,
      sameBut_trans (sameBut_updCmd _ _ _ _ _) (sameBut_updCmd _ _ _ _ _)⟩
    rw [evalOf_updEval, hev]; rfl

/-- The runner keeps where a chain stands. -/
theorem chainAt_settled {t : Nat} {s0 s x : State} {ten lring idx : Nat} {c : Cmd} {v : Eval} {g : Gen}
    (h : ChainAt s x ten lring c v g idx) (hn : x.now = max s0.now t) : ChainAt s (settled t s0 x) ten lring c v g idx := by
  unfold ChainAt at *
  rw [settled_now, ← hn]
  exact h

/-- Where a chain stands depends on runs, messages, the ring's class and the command's number and entry only. -/
theorem chainAt_congr {s z s' : State} {ten lring idx : Nat} {c k : Cmd} {v : Eval} {g : Gen}
    (h : ChainAt z s' ten lring k v g idx) (h1 : z.segs = s.segs) (h2 : z.settings = s.settings) (h3 : z.fabric = s.fabric)
    (h4 : (z.ring ten lring).cls = (s.ring ten lring).cls) (h5 : k.seq = c.seq) (h6 : k.entry = c.entry) :
    ChainAt s s' ten lring c v g idx := by
  have hm : ∀ i, z.messagesLanded ten v i = s.messagesLanded ten v i := by
    intro i; unfold State.messagesLanded; rw [h2, h3]
  have hcl : k.cls (z.ring ten lring) = c.cls (s.ring ten lring) := by unfold Cmd.cls Cmd.ctrl; rw [h4, h6]
  unfold ChainAt AsksGang at *
  simp only [hm, hcl, h1, h5] at h
  exact h

/-- Changing one command leaves every other of its ring. -/
theorem cmd_updCmd_other (s : State) {a b n m : Nat} (f : Cmd → Cmd) (hf : ∀ c, (f c).seq = c.seq) (h : m ≠ n) :
    (s.updCmd a b n f).cmd? a b m = s.cmd? a b m := by
  unfold State.cmd? State.updCmd
  rw [State.ring_updRing_self]
  simp only [List.find?_map]
  have h1 : ((fun c : Cmd => c.seq == m) ∘ fun c => if c.seq = n then f c else c) = fun c => c.seq == m := by
    funext c; simp only [Function.comp]; split <;> simp_all
  rw [h1]
  cases hfd : List.find? (fun c : Cmd => c.seq == m) (s.ring a b).cmds with
  | none => rfl
  | some c =>
    have := List.find?_some hfd
    have h2 : c.seq = m := by simpa using this
    simp only [Option.map_some]; rw [if_neg (by rw [h2]; exact h)]

/-- Changing a ring leaves the commands of every other ring. -/
theorem cmd_updRing_other (s : State) {a b a' b' m : Nat} (f : Ring → Ring) (h : ringKey a' b' ≠ ringKey a b) :
    (s.updRing a b f).cmd? a' b' m = s.cmd? a' b' m := by
  unfold State.cmd? State.ring State.updRing
  rw [Tbl.lookD_upd_other _ _ _ h]

/-- Writing an object depends on the DRAM only. -/
theorem writeObj_eq {s s0 : State} (h : s.dram = s0.dram) (id off : Nat) (b : List Byte) :
    s.writeObj id off b = { s with dram := (s0.writeObj id off b).dram } := by
  unfold State.writeObj
  rw [h]
  split
  · rw [← h]
  · rfl

/-- Transforming limbs takes free values at most. -/
theorem mapLimbs_eq (tab : ModTable) (f : Nat → ModEntry → List Nat → List Nat) (l : List (List Nat)) :
    ∀ (s s' : State) (i : Nat), s'.free = s.free →
      (s'.mapLimbs tab f i l).1 = (s.mapLimbs tab f i l).1 ∧
      (s'.mapLimbs tab f i l).2 = { s' with free := (s.mapLimbs tab f i l).2.free } := by
  induction l with
  | nil => intro s s' i h; exact ⟨rfl, by unfold State.mapLimbs; rw [← h]⟩
  | cons a r ih =>
    intro s s' i h
    unfold State.mapLimbs
    cases hm : tab.entry i with
    | none => exact ⟨rfl, by dsimp only; rw [← h]⟩
    | some m =>
      have h1 : (s'.freeIfComposite m.q (f i m a)).1 = (s.freeIfComposite m.q (f i m a)).1 ∧
          ∃ n, (s'.freeIfComposite m.q (f i m a)).2 = s'.skipFrees n ∧ (s.freeIfComposite m.q (f i m a)).2 = s.skipFrees n := by
        unfold State.freeIfComposite State.frees
        split
        · exact ⟨rfl, 0, rfl, rfl⟩
        · exact ⟨by rw [h], _, rfl, rfl⟩
      obtain ⟨e1, n, e2, e3⟩ := h1
      dsimp only
      rw [e2, e3]
      obtain ⟨i1, i2⟩ := ih (s.skipFrees n) (s'.skipFrees n) (i + 1) (by show s'.free + n = s.free + n; rw [h])
      rw [e1, i1, i2]
      exact ⟨rfl, rfl⟩

/-- Two places of a command in a tenant's rings. -/
theorem cmd_updCmd_elsewhere (s : State) {a b n b' m : Nat} (f : Cmd → Cmd) (hf : ∀ c, (f c).seq = c.seq)
    (h : ¬ (b' = b ∧ m = n)) : (s.updCmd a b n f).cmd? a b' m = s.cmd? a b' m := by
  by_cases q : b' = b
  · subst q; exact cmd_updCmd_other s f hf fun q2 => h ⟨rfl, q2⟩
  · exact cmd_updRing_other s _ fun e => q (by unfold ringKey at e; omega)

/-- A chain that goes on leaves every other command of its tenant. -/
theorem continueAt_cmd (s : State) (ten lring seq idx : Nat) (first : Bool) {b m : Nat} (h : ¬ (b = lring ∧ m = seq)) :
    (s.continueAt ten lring seq idx first).cmd? ten b m = s.cmd? ten b m := by
  have hU : ∀ (y : State) (f : Eval → Eval), (y.updEval ten lring seq f).cmd? ten b m = y.cmd? ten b m := by
    intro y f; exact cmd_updCmd_elsewhere y (fun c => { c with eval := c.eval.map f }) (fun _ => rfl) h
  unfold State.continueAt
  split
  · rfl
  · split
    · rfl
    · split
      · rfl
      · rename_i v _ _ g _
        dsimp only
        split
        · obtain ⟨fb, hfb⟩ := foldl_takeMessages ten v (g.gang idx) (s.updEval ten lring seq fun v => { v with chain := idx, rounds := v.rounds + 1 })
          rw [hfb]
          exact hU s _
        · rw [hU, hU]

/-- Writing to host memory only emits writes; which, and whether all landed, does not depend on the state. -/
theorem hostWrite_out (h : HostView) (fn iova : Nat) (b : List Byte) :
    ∃ l ok, ∀ s : State, s.hostWrite h fn iova b = ({ s with out := l ++ s.out }, ok) := by
  unfold State.hostWrite
  generalize pieces iova b.length = ps
  induction ps with
  | nil => exact ⟨[], true, fun s => rfl⟩
  | cons p r ih =>
    obtain ⟨l, ok, hl⟩ := ih
    unfold State.hostPieces
    cases hp : hostPage h fn p.1 with
    | none => exact ⟨[], false, fun s => rfl⟩
    | some pg =>
      refine ⟨l ++ [.dmaWrite fn p.1 ((b.drop (p.1 - iova)).take p.2)], ok, fun s => ?_⟩
      dsimp only
      rw [hl]; simp [State.emit]

/-- A failure of an EVAL, as the statements say it. -/
theorem failsEval_failEval {t : Nat} {s z : State} {ten lring seq : Nat} {v : Eval} (e : Err)
    (h : evalOf z ten lring seq = some v) (h1 : z.segs = s.segs) (h2 : z.dram = s.dram) (h3 : z.settings = s.settings) (h4 : z.rings = s.rings) :
    FailsEval s (settled t s (z.failEval ten lring seq e)) ten lring seq v e := by
  obtain ⟨cs, es, hf⟩ := failEval_eq z ten lring seq e
  rw [hf]
  refine ⟨?_, by rw [← h1]; rfl, h2, h3, ?_⟩
  · refine (evalOf_updEval z ten lring seq _).trans ?_
    rw [h, ← h1]; rfl
  · rw [← h4]; exact sameBut_updCmd _ _ _ _ _

/-- A failure of an EVAL keeps the log, the tenants' objects and the devices' state. -/
theorem failEval_keeps (s : State) (ten lring seq : Nat) (e : Err) :
    (s.failEval ten lring seq e).log = s.log ∧ (s.failEval ten lring seq e).tenants = s.tenants ∧ (s.failEval ten lring seq e).fabric = s.fabric := by
  obtain ⟨cs, es, hf⟩ := failEval_eq s ten lring seq e
  rw [hf]; exact ⟨rfl, rfl, rfl⟩

/-- A log record enters the log and the view of the tenant it names; nothing else changes. -/
theorem logRec_eq (s : State) (type flags ten source arg0 arg1 : Nat) :
    ∃ tn, s.logRec type flags ten source arg0 arg1 = { s with
      tenants := tn, log := s.log.add { type := type, flags := flags, ten := ten, source := source, waggle := s.now, arg0 := arg0, arg1 := arg1 } } := by
  unfold State.logRec State.logBoth
  dsimp only
  split
  · exact ⟨_, rfl⟩
  · exact ⟨_, rfl⟩

/-- Drawing START_ID changes the DRBG's draws and the identifier only. -/
theorem needStartId_eq (s : State) : ∃ d en i, s.needStartId = { s with draws := d, entropy := en, sec := { s.sec with startId := i } } := by
  unfold State.needStartId
  split
  · exact ⟨s.draws, s.entropy, s.sec.startId, rfl⟩
  · exact ⟨_, _, _, rfl⟩

theorem mapLimbs_free (tab : ModTable) (f : Nat → ModEntry → List Nat → List Nat) (l : List (List Nat)) (s : State) (i : Nat) :
    ∃ fr, (s.mapLimbs tab f i l).2 = { s with free := fr } := ⟨_, (mapLimbs_eq tab f l s s i rfl).2⟩

/-- The outbound tail takes free values and random draws; nothing else changes. -/
theorem outboundTail_eq (s : State) (tab : ModTable) (e : RtEntry) (c0 c1 : List (List Nat)) :
    ∃ fr d, (s.outboundTail tab e c0 c1).2 = { s with free := fr, draws := d } := by
  unfold State.outboundTail
  dsimp only
  generalize hs1 : (if bitOf e.flags 1 = true then s.skipRandoms (2 ^ tab.logN) else s) = s1
  have h1 : ∃ d, s1 = { s with draws := d } := by
    rw [← hs1]; split
    · exact ⟨_, rfl⟩
    · exact ⟨s.draws, rfl⟩
  obtain ⟨d1, h1⟩ := h1
  generalize (if bitOf e.flags 1 = true then List.map _ _ else [] : List Int) = es
  generalize hs2 : (if bitOf e.flags 1 = true then s1.mapLimbs tab (fun x m l => addLimbs m.q l (nttForward m tab.logN tab.logN (List.map (resid m.q) es))) 0 c0 else (c0, s1)) = a
  have h2 : ∃ fr, a.2 = { s1 with free := fr } := by
    rw [← hs2]; split
    · exact mapLimbs_free ..
    · exact ⟨s1.free, rfl⟩
  obtain ⟨f2, h2⟩ := h2
  generalize (if bitOf e.flags 0 = true then List.map _ _ else [] : List (List Nat)) = mask
  generalize hs3 : (if bitOf e.flags 0 = true then a.2.skipRandoms (e.outLimbs * 2 ^ tab.logN) else a.2) = s3
  have h3 : ∃ d, s3 = { a.2 with draws := d } := by
    rw [← hs3]; split
    · exact ⟨_, rfl⟩
    · exact ⟨a.2.draws, rfl⟩
  obtain ⟨d3, h3⟩ := h3
  generalize hs4 : (if bitOf e.flags 0 = true then s3.mapLimbs tab (fun i m l => addLimbs m.q l (mask.getD i [])) 0 a.1 else (a.1, s3)) = b
  have h4 : ∃ fr, b.2 = { s3 with free := fr } := by
    rw [← hs4]; split
    · exact mapLimbs_free ..
    · exact ⟨s3.free, rfl⟩
  obtain ⟨f4, h4⟩ := h4
  split
  · obtain ⟨f5, h5⟩ := mapLimbs_free tab (fun _ m l => nttInverse m tab.logN tab.logN l) b.1 b.2 0
    obtain ⟨f6, h6⟩ := mapLimbs_free tab (fun _ m l => nttInverse m tab.logN tab.logN l) c1 (b.2.mapLimbs tab (fun _ m l => nttInverse m tab.logN tab.logN l) 0 b.1).2 0
    exact ⟨f6, d3, by dsimp only; rw [h6, h5, h4, h3, h2, h1]⟩
  · exact ⟨f4, d3, by dsimp only; rw [h4, h3, h2, h1]⟩

/-- Charging operations changes the tenant's meters and the command's count. -/
theorem charge_eq (s : State) (ten m n : Nat) : ∃ l k mt, s.charge ten m n =
    { (s.updTen ten fun x => { x with meters := l, stuck := k }) with meters := mt } := by
  unfold State.charge
  dsimp only
  split
  · exact ⟨_, _, _, rfl⟩
  · exact ⟨_, _, s.meters, rfl⟩

/-- A completion entry is written as one piece, where its page is mapped. -/
theorem hostWrite_entry (s : State) (h : HostView) (ten : Nat) (r : Ring) (b : List Byte) (hlen : b.length = 32) (hbase : r.cplBase % 4096 = 0)
    (hpg : (hostPage h ten r.cplIova).isSome = true) : s.hostWrite h ten r.cplIova b = (s.emit (.dmaWrite ten r.cplIova b), true) := by
  obtain ⟨pg, hpg⟩ := Option.isSome_iff_exists.1 hpg
  have hpieces : pieces r.cplIova 32 = [(r.cplIova, 32)] := by
    unfold pieces
    have h1 : r.cplIova / pageBytes = r.cplBase / 4096 + 32 * (r.cplPos % 2 ^ r.logEntries) / 4096 := by
      unfold Ring.cplIova pageBytes; omega
    have h3 : (r.cplIova + 32 - 1) / pageBytes = r.cplIova / pageBytes := by
      unfold Ring.cplIova pageBytes; omega
    rw [h3]
    simp only [Nat.sub_self, Nat.zero_add, List.range_one, List.map_cons, List.map_nil]
    have h4 : r.cplIova / pageBytes * pageBytes ≤ r.cplIova := Nat.div_mul_le_self _ _
    have h5 : r.cplIova + 32 ≤ (r.cplIova / pageBytes + 1) * pageBytes := by
      unfold Ring.cplIova pageBytes; omega
    simp; omega
  simp [State.hostWrite, hlen, hpieces, State.hostPieces, hpg, List.take_of_length_le]

theorem length_completionBytes (a b c d : Nat) (e : List Byte) (f g i : Nat) (he : e.length = 8) : (completionBytes a b c d e f g i).length = 32 := by
  simp [completionBytes, length_toLE, he]

/-- An eligible completion adds at most one message to what was sent, and keeps tenants and positions. -/
theorem eligible_more (s : State) (ten lring : Nat) :
    (∃ l, (s.eligible ten lring).out = l ++ s.out) ∧ (s.eligible ten lring).tenants = s.tenants ∧
    ((s.eligible ten lring).ring ten lring).reserved = (s.ring ten lring).reserved := by
  unfold State.eligible State.interrupt
  dsimp only
  split
  · split
    · split
      · exact ⟨⟨[], rfl⟩, rfl, by rw [State.ring_updRing_self]⟩
      · exact ⟨⟨[], rfl⟩, rfl, Eq.trans (b := ((s.updRing ten lring fun r => { r with modSeen := 0, modSince := none }).ring ten lring).reserved) rfl (by rw [State.ring_updRing_self])⟩
    · exact ⟨⟨[_], rfl⟩, rfl, Eq.trans (b := ((s.updRing ten lring fun r => { r with modSeen := 0, modSince := none }).ring ten lring).reserved) rfl (by rw [State.ring_updRing_self])⟩
  · exact ⟨⟨[], rfl⟩, rfl, by rw [State.ring_updRing_self]⟩

theorem foldl_writeObj_eq {α : Type} (id : Nat) (off : α → Nat) (b : α → List Byte) (l : List α) {s s0 : State} (h : s.dram = s0.dram) :
    l.foldl (fun s p => s.writeObj id (off p) (b p)) s = { s with dram := (l.foldl (fun s p => s.writeObj id (off p) (b p)) s0).dram } := by
  induction l generalizing s s0 with
  | nil => show s = _; rw [List.foldl_nil, ← h]
  | cons p r ih =>
    rw [List.foldl_cons, List.foldl_cons, ih (s0 := s0.writeObj id (off p) (b p)) (by rw [writeObj_eq h]), writeObj_eq h]

/-- A frame sealed by a port takes free values, sends at most one frame, and counts it at the port. -/
theorem sendCredit_frame (s : State) (port : Nat) : ∃ fr out ports, s.sendCredit port = { s with free := fr, out := out, fabric := { s.fabric with ports := ports } } := by
  unfold State.sendCredit State.sendFreePayload State.sendSealed
  dsimp only
  split
  · exact ⟨_, s.out, s.fabric.ports, rfl⟩
  · unfold State.onlyIf
    split
    · exact ⟨_, _, _, rfl⟩
    · exact ⟨_, s.out, s.fabric.ports, rfl⟩

theorem releaseHeld_frame (s : State) (m : FabricMsg) : ∃ fr out ports, s.releaseHeld m = { s with free := fr, out := out, fabric := { s.fabric with ports := ports } } := by
  unfold State.releaseHeld
  induction m.held generalizing s with
  | nil => exact ⟨s.free, s.out, s.fabric.ports, rfl⟩
  | cons p r ih =>
    obtain ⟨a, b, c, h⟩ := sendCredit_frame s p
    obtain ⟨a', b', c', h'⟩ := ih (s.sendCredit p)
    exact ⟨a', b', c', by rw [List.foldl_cons, h', h]⟩

theorem pickRoute_frame (l : List (List Nat)) (s : State) : ∃ fr, (s.pickRoute l).2 = { s with free := fr } := by
  induction l generalizing s with
  | nil => exact ⟨s.free, rfl⟩
  | cons a r ih =>
    unfold State.pickRoute
    obtain ⟨fr, h⟩ := ih (s.pickPort a).2
    exact ⟨fr, h⟩

theorem sendMgmt_frame (s : State) (dst : Nat) : ∃ fr out ports, s.sendMgmt dst = { s with free := fr, out := out, fabric := { s.fabric with ports := ports } } := by
  unfold State.sendMgmt
  split
  · exact ⟨s.free, s.out, s.fabric.ports, rfl⟩
  · split
    · exact ⟨s.free, s.out, s.fabric.ports, rfl⟩
    · split
      · exact ⟨s.free, s.out, s.fabric.ports, rfl⟩
      · rename_i me _ _ l r _ _ _
        obtain ⟨fr, h⟩ := pickRoute_frame (s.livePorts l :: r) s
        dsimp only
        rw [h]
        exact ⟨_, s.out, _, rfl⟩

end Sys2Proof.Machine
end

