-- ==== Sys2Proof/Laws/Cells.lean ====
section
/-! SUPPORT. Cells: the state in which an instruction has just issued, posts one after another, failures of a run, and reads of words. -/

namespace Sys2Proof.Machine

open Sys2Proof.Safety

theorem put_put {α : Type} (l : Tbl α) (k : Nat) (v w : α) : Tbl.put (Tbl.put l k v) k w = Tbl.put l k w := by
  induction l with
  | nil => simp [Tbl.put]
  | cons a r ih =>
    simp only [Tbl.put]
    split
    · simp [Tbl.put]
    · split
      · simp [Tbl.put]
      · rename_i h1 h2
        simp only [Tbl.put, h1, h2, if_false, ih]

def touched (s : State) (run n : Nat) : List SegRun := s.segs.map fun g => if g.id = run then { g with progress := n } else g

/-- Normal form of a state after an issue. -/
def issued (s : State) (t cell run : Nat) (c : Cell) : State := { s with now := max s.now t, cells := Tbl.put s.cells cell c, segs := touched s run (max s.now t) }

theorem issued_cell (s : State) (t cell run : Nat) (c : Cell) : (issued s t cell run c).cell cell = c := by
  unfold State.cell issued; exact Tbl.lookD_put_self ..

theorem issued_upd (s : State) (t cell run : Nat) (c : Cell) (f : Cell → Cell) : (issued s t cell run c).updCell cell f = issued s t cell run (f c) := by
  have h := issued_cell s t cell run c
  unfold State.cell at h
  unfold State.updCell Tbl.upd
  rw [h]
  unfold issued
  simp only [put_put]

theorem issued_touch (s : State) (t cell run : Nat) (c : Cell) : (issued s t cell run c).touch run = issued s t cell run c := by
  unfold State.touch State.updSeg issued touched
  simp only [List.map_map]
  congr 1
  refine List.map_congr_left fun x hx => ?_
  simp only [Function.comp]
  by_cases h : x.id = run
  · simp [h]
  · simp [h]

theorem find_touched (l : List SegRun) (run id n : Nat) :
    (l.map fun g => if g.id = run then { g with progress := n } else g).find? (fun g => g.id == id) =
      (l.find? fun g => g.id == id).map fun g => if g.id = run then { g with progress := n } else g := by
  induction l with
  | nil => rfl
  | cons a r ih =>
    simp only [List.map_cons, List.find?_cons]
    have hid : (if a.id = run then { a with progress := n } else a).id = a.id := by split <;> rfl
    rw [hid]
    cases a.id == id with
    | true => rfl
    | false => exact ih

theorem seg_id {s : State} {id : Nat} {g : SegRun} (h : s.seg? id = some g) : g.id = id := by
  have := List.find?_some h; simpa using this

theorem cellRun_id {s : State} {cell : Nat} {g : SegRun} (h : s.cellRun cell = some g) : (s.cell cell).seg = some g.id ∧ s.seg? g.id = some g := by
  unfold State.cellRun at h
  cases hs : (s.cell cell).seg with
  | none => rw [hs] at h; simp at h
  | some id =>
    rw [hs] at h
    have h' : s.seg? id = some g := h
    rw [seg_id h']; exact ⟨rfl, h'⟩

theorem cellRun_issued {s : State} {t cell : Nat} {g : SegRun} {c0 c : Cell} {raw : InsWord} (h : MayIssue s cell g c0 raw) (hc : c.seg = c0.seg := by rfl) :
    (issued s t cell g.id c).cellRun cell = some { g with progress := max s.now t } := by
  obtain ⟨h1, h2, -⟩ := h
  obtain ⟨i1, i2⟩ := cellRun_id h1
  unfold State.cellRun
  rw [issued_cell, hc, ← h2, i1]
  show (touched s g.id (max s.now t)).find? _ = _
  unfold touched
  rw [find_touched, show s.segs.find? (fun x => x.id == g.id) = some g from i2]
  simp

theorem run_live {s : State} {cell : Nat} {g : SegRun} {c : Cell} {raw : InsWord} (h : MayIssue s cell g c raw) : g.phase = .running ∧ g.fail = none := by
  have := h.2.2.2.1
  unfold State.mayIssue at this
  simp only [Bool.and_eq_true, beq_iff_eq, Option.isNone_iff_eq_none] at this
  exact ⟨this.1.1.1, this.1.1.2⟩

/-- Posts one after another. -/
def postsIn (s : State) (cell : Nat) (l : List (Nat × Nat)) : State := l.foldl (fun s p => s.postTokens cell p.1 p.2) s

theorem posts_ok {s : State} {t cell : Nat} {g : SegRun} {c0 : Cell} {raw : InsWord} (h : MayIssue s cell g c0 raw) (l : List (Nat × Nat)) (c e : Cell)
    (hc : c.seg = c0.seg) (he : postAll c l = some e) : postsIn (issued s t cell g.id c) cell l = issued s t cell g.id e := by
  induction l generalizing c with
  | nil => simp only [postAll, Option.some.injEq] at he; rw [← he]; rfl
  | cons p r ih =>
    obtain ⟨q, n⟩ := p
    simp only [postAll] at he
    split at he
    · exact absurd he (by simp)
    · rename_i h63
      unfold postsIn
      rw [List.foldl_cons]
      have : (issued s t cell g.id c).postTokens cell q n = issued s t cell g.id { c with tokens := Tbl.putZ c.tokens q (c.tokenCount q + n) } := by
        unfold State.postTokens
        rw [cellRun_issued h hc]
        obtain ⟨h1, h2⟩ := run_live h
        simp only [h1, h2, Option.isSome_none, Bool.false_or]
        rw [if_neg (by decide), issued_cell, if_neg (by omega), issued_upd, issued_touch]
      rw [this]
      exact ih _ hc he

theorem find_runsAfter (l : List SegRun) (g : SegRun) (ten lring seq : Nat) (e : Err) (h : l.find? (fun x => x.id == g.id) = some g) (h1 : g.ofCmd ten lring seq = true)
    (h2 : g.phase = .running) : (runsAfter l ten lring seq e).find? (fun x => x.id == g.id) = some { g with fail := some (g.fail.getD e) } := by
  unfold runsAfter
  induction l with
  | nil => simp at h
  | cons a r ih =>
    rw [List.find?_cons] at h
    cases hq : a.id == g.id with
    | true =>
      rw [hq] at h
      simp only [Option.some.injEq] at h; subst h
      rw [List.filter_cons_of_pos (by rw [h1, h2]; rfl), List.map_cons, List.find?_cons, if_pos h1]
      simp
    | false =>
      rw [hq] at h
      have := ih h
      cases hk : (!(a.ofCmd ten lring seq && a.phase != SegPhase.running)) with
      | false => rw [List.filter_cons_of_neg (by rw [hk]; simp)]; exact this
      | true =>
        rw [List.filter_cons_of_pos (by rw [hk]), List.map_cons, List.find?_cons]
        have hid : ((if a.ofCmd ten lring seq = true then { a with fail := some (a.fail.getD e) } else a).id == g.id) = false := by split <;> exact hq
        rw [hid]; exact this

theorem failSeg_run {s : State} {g : SegRun} {cell : Nat} {e : Err} (h : s.seg? g.id = some g) (h1 : g.phase = .running) (h2 : g.fail = none) :
    (s.failSeg g.id cell e).seg? g.id = some { g with fail := some e } := by
  unfold State.failSeg
  rw [h]
  simp only [h2, Option.isSome_none, Bool.false_eq_true, if_false]
  obtain ⟨tn, hl⟩ := logRec_eq s Rec.segment 0 g.ten cell (e.1 + e.2 * 2 ^ 16) (g.seq % 2 ^ 32)
  rw [hl]
  obtain ⟨cs, es, hf⟩ := failEval_eq ({ s with tenants := tn, log := s.log.add { type := Rec.segment, flags := 0, ten := g.ten, source := cell, waggle := s.now, arg0 := e.1 + e.2 * 2 ^ 16, arg1 := g.seq % 2 ^ 32 } }) g.ten g.lring g.seq e
  rw [hf]
  refine (find_runsAfter s.segs g g.ten g.lring g.seq e h (by unfold SegRun.ofCmd; simp) h1).trans ?_
  rw [h2]; rfl

/-- Once a run has failed, posts to its cells change nothing. -/
theorem posts_dead {s : State} {cell : Nat} (h : ∀ g, s.cellRun cell = some g → g.fail.isSome = true) (l : List (Nat × Nat)) : postsIn s cell l = s := by
  induction l with
  | nil => rfl
  | cons p r ih =>
    unfold postsIn
    rw [List.foldl_cons]
    have : s.postTokens cell p.1 p.2 = s := by
      unfold State.postTokens
      cases hq : s.cellRun cell with
      | none => rfl
      | some g => simp only [h g hq, Bool.true_or, if_true]
    rw [this]; exact ih

theorem release_seg (s : State) (cells : List Nat) (k : Nat) : ((s.releaseCells cells).cell k).seg = (s.cell k).seg ∨ ((s.releaseCells cells).cell k).seg = none := by
  unfold State.releaseCells
  induction cells generalizing s with
  | nil => exact .inl rfl
  | cons a r ih =>
    rw [List.foldl_cons]
    have h1 : ((s.updCell a Cell.release).cell k).seg = (s.cell k).seg ∨ ((s.updCell a Cell.release).cell k).seg = none := by
      by_cases h : k = a
      · subst h; right
        unfold State.cell State.updCell; rw [Tbl.lookD_upd_self]; rfl
      · left; unfold State.cell State.updCell; rw [Tbl.lookD_upd_other _ _ _ h]
    rcases ih (s.updCell a Cell.release) with q | q
    · rw [q]; exact h1
    · exact .inr q

theorem failEval_seg (s : State) (ten lring seq : Nat) (e : Err) (k : Nat) :
    ((s.failEval ten lring seq e).cell k).seg = (s.cell k).seg ∨ ((s.failEval ten lring seq e).cell k).seg = none := by
  unfold State.failEval
  dsimp only
  have : ∀ (l : List SegRun) (s : State), ((l.foldl (fun s (g : SegRun) => (s.releaseCells g.cells).unrefSeg g.id) s).cell k).seg = (s.cell k).seg ∨
      ((l.foldl (fun s (g : SegRun) => (s.releaseCells g.cells).unrefSeg g.id) s).cell k).seg = none := by
    intro l
    induction l with
    | nil => exact fun s => .inl rfl
    | cons a r ih =>
      intro s
      rw [List.foldl_cons]
      have h1 : (((s.releaseCells a.cells).unrefSeg a.id).cell k).seg = ((s.releaseCells a.cells).cell k).seg := rfl
      rcases ih ((s.releaseCells a.cells).unrefSeg a.id) with q | q
      · rw [q, h1]; exact release_seg ..
      · exact .inr q
  exact this _ s

theorem failSeg_seg (s : State) (id cell k : Nat) (e : Err) :
    ((s.failSeg id cell e).cell k).seg = (s.cell k).seg ∨ ((s.failSeg id cell e).cell k).seg = none := by
  unfold State.failSeg
  split
  · exact .inl rfl
  · rename_i g hg
    split
    · exact .inl rfl
    · obtain ⟨tn, hl⟩ := logRec_eq s Rec.segment 0 g.ten cell (e.1 + e.2 * 2 ^ 16) (g.seq % 2 ^ 32)
      rw [hl]
      exact failEval_seg _ _ _ _ _ _

theorem posts_fail {s : State} {t cell : Nat} {g : SegRun} {c0 : Cell} {raw : InsWord} (h : MayIssue s cell g c0 raw) (l : List (Nat × Nat)) (c : Cell)
    (hc : c.seg = c0.seg) (he : postAll c l = none) : RunFails (settled t s (postsIn (issued s t cell g.id c) cell l)) g.id (St.tokenOverflow, cell) := by
  induction l generalizing c with
  | nil => simp [postAll] at he
  | cons p r ih =>
    obtain ⟨q, n⟩ := p
    simp only [postAll] at he
    obtain ⟨h1, h2⟩ := run_live h
    unfold postsIn
    rw [List.foldl_cons]
    have hr := cellRun_issued (t := t) h hc
    split at he
    · rename_i h63
      have hp : (issued s t cell g.id c).postTokens cell q n = (issued s t cell g.id c).failSeg g.id cell (St.tokenOverflow, cell) := by
        unfold State.postTokens
        rw [hr]
        simp only [h1, h2, Option.isSome_none, Bool.false_or]
        rw [if_neg (by decide), issued_cell, if_pos (by omega)]
      rw [hp]
      have hs : (issued s t cell g.id c).seg? g.id = some { g with progress := max s.now t } := (cellRun_id hr).2
      have hf : ((issued s t cell g.id c).failSeg g.id cell (St.tokenOverflow, cell)).seg? g.id = some { g with progress := max s.now t, fail := some (St.tokenOverflow, cell) } := failSeg_run (g := { g with progress := max s.now t }) hs h1 h2
      have hd := posts_dead (s := (issued s t cell g.id c).failSeg g.id cell (St.tokenOverflow, cell)) (cell := cell) (fun g' hg' => by
        obtain ⟨i1, i2⟩ := cellRun_id hg'
        rcases failSeg_seg (issued s t cell g.id c) g.id cell cell (St.tokenOverflow, cell) with w | w
        · rw [w, (cellRun_id hr).1] at i1
          simp only [Option.some.injEq] at i1
          have i1' : g.id = g'.id := i1
          rw [← i1', hf] at i2
          simp only [Option.some.injEq] at i2
          rw [← i2]; rfl
        · rw [w] at i1; simp at i1) r
      unfold postsIn at hd
      rw [hd]
      exact ⟨_, hf, rfl⟩
    · rename_i h63
      have : (issued s t cell g.id c).postTokens cell q n = issued s t cell g.id { c with tokens := Tbl.putZ c.tokens q (c.tokenCount q + n) } := by
        unfold State.postTokens
        rw [hr]
        simp only [h1, h2, Option.isSome_none, Bool.false_or]
        rw [if_neg (by decide), issued_cell, if_neg (by omega), issued_upd, issued_touch]
      rw [this]
      exact ih _ hc he

theorem issue_may {s : State} {t cell : Nat} {g : SegRun} {c : Cell} {raw : InsWord} {isIt : Ins → Bool} {f : State → SegRun → Cell → InsWord → State}
    (h : MayIssue s cell g c raw) (hi : isIt (ins raw) = true) :
    (s.advance t).issue cell isIt f = f (issued s t cell g.id (stepped c (ins raw))) g c raw := by
  obtain ⟨h1, h2, h3, h4, h5, h6⟩ := h
  unfold State.issue
  have h1' : (s.advance t).cellRun cell = some g := h1
  have h2' : (s.advance t).cell cell = c := h2
  rw [h1', h2', h3]
  have h4' : (s.advance t).mayIssue cell g = true := h4
  simp only [h4', hi, h5, h6, Bool.and_self, if_true]
  congr 1
  show State.touch (State.updCell (s.advance t) cell _) g.id = _
  unfold State.touch State.updSeg State.updCell Tbl.upd issued
  rw [show Tbl.lookD (s.advance t).cells cell Cell.zero = c from h2']
  rfl

theorem issue_waits {s : State} {t cell : Nat} {c : Cell} {raw : InsWord} {isIt : Ins → Bool} {f : State → SegRun → Cell → InsWord → State}
    (h1 : s.cell cell = c) (h2 : c.current = some raw) (h3 : c.waitsMet (ins raw) = false) : (s.advance t).issue cell isIt f = s.advance t := by
  unfold State.issue
  have h1' : (s.advance t).cell cell = c := h1
  rw [h1', h2]
  cases (s.advance t).cellRun cell with
  | none => rfl
  | some g => simp only [h3, Bool.and_false, Bool.false_and, Bool.false_eq_true, if_false]

theorem post_pe (s : State) (cell : Nat) (i : Ins) : s.postOpt cell i.post = postsIn s cell (pePosts i) := by
  unfold Ins.post pePosts
  cases i.pe <;> rfl



theorem touch_cell (s : State) (id k : Nat) : (s.touch id).cell k = s.cell k := rfl


theorem fail_issued {s : State} {t cell : Nat} {g : SegRun} {c0 : Cell} {raw : InsWord} (h : MayIssue s cell g c0 raw) (c : Cell) (k : Nat) (e : Err) :
    RunFails (settled t s ((issued s t cell g.id c).failSeg g.id k e)) g.id e := by
  obtain ⟨h1, h2⟩ := run_live h
  have hs : (issued s t cell g.id c).seg? g.id = some { g with progress := max s.now t } := by
    show (touched s g.id (max s.now t)).find? _ = _
    unfold touched
    rw [find_touched, show s.segs.find? (fun x => x.id == g.id) = some g from (cellRun_id h.1).2]
    simp
  exact ⟨_, failSeg_run (g := { g with progress := max s.now t }) hs h1 h2, rfl⟩

theorem readRaced_free (s : State) (cell : Nat) (f : Flight) (raced : List (Nat × Nat)) (w : Nat × Nat) :
    ∃ v fr, s.readRaced cell f raced w = (v, { s with free := fr }) := by
  unfold State.readRaced
  dsimp only
  split
  · exact ⟨_, _, rfl⟩
  · split
    · exact ⟨_, s.free, rfl⟩
    · exact ⟨_, _, rfl⟩

theorem readRun_free (cell : Nat) (f : Flight) (raced : List (Nat × Nat)) (ws : List (Option (Nat × Nat))) (s : State) :
    ∃ v fr, s.readRun cell f raced ws = (v, { s with free := fr }) := by
  induction ws generalizing s with
  | nil => exact ⟨[], s.free, rfl⟩
  | cons a r ih =>
    cases a with
    | none =>
      obtain ⟨v, fr, h⟩ := ih s
      unfold State.readRun
      rw [h]; exact ⟨_, _, rfl⟩
    | some w =>
      obtain ⟨v, fr, h⟩ := readRaced_free s cell f raced w
      unfold State.readRun
      rw [h]
      obtain ⟨v2, fr2, h2⟩ := ih { s with free := fr }
      dsimp only
      rw [h2]; exact ⟨_, _, rfl⟩

theorem readWords_free (cell : Nat) (f : Flight) (ws : List (Nat × Nat)) (s : State) : ∃ v fr, s.readWords cell f ws = (v, { s with free := fr }) :=
  readRun_free cell f [] (ws.map some) s

theorem useKey_issued (s : State) (t cell run : Nat) (d e : Cell) (g : SegRun) (src : Stencil) : (issued s t cell run d).useKey g src =
    { issued s t cell run d with combs := (({ s with now := max s.now t, cells := Tbl.put s.cells cell e } : State).useKey g src).combs } := by
  have h1 : (issued s t cell run d).runEval g = s.runEval g := rfl
  have h2 : (issued s t cell run d).runComp g src = s.runComp g src := rfl
  have h3 : ({ s with now := max s.now t, cells := Tbl.put s.cells cell e } : State).runEval g = s.runEval g := rfl
  have h4 : ({ s with now := max s.now t, cells := Tbl.put s.cells cell e } : State).runComp g src = s.runComp g src := rfl
  unfold State.useKey
  rw [h1, h2, h3, h4]
  split
  · split
    · rename_i e2 c2 _ _
      generalize hz : ({ s with now := max s.now t, cells := Tbl.put s.cells cell e } : State) = z
      have hr : (issued s t cell run d).shelfRoom g.comb none = z.shelfRoom g.comb none := by rw [← hz]; rfl
      have hc : (issued s t cell run d).comb g.comb = z.comb g.comb := by rw [← hz]; rfl
      have : (issued s t cell run d).cacheComp g.comb g.ten e2.keyset c2.1 c2.2.bytes =
          { issued s t cell run d with combs := (z.cacheComp g.comb g.ten e2.keyset c2.1 c2.2.bytes).combs } := by
        unfold State.cacheComp
        dsimp only
        rw [hr, hc]
        split
        · rw [← hz]; rfl
        · split
          · rw [← hz]; rfl
          · rw [← hz]; rfl
      rw [this]
      rfl
    · rfl
  · rfl

theorem find_touched' (l : List SegRun) (p : SegRun → Bool) (run n : Nat) (hp : ∀ g : SegRun, p { g with progress := n } = p g) :
    ((l.map fun g => if g.id = run then { g with progress := n } else g).find? p).map (·.cells) = (l.find? p).map (·.cells) := by
  induction l with
  | nil => rfl
  | cons a r ih =>
    simp only [List.map_cons, List.find?_cons]
    have hid : p (if a.id = run then { a with progress := n } else a) = p a := by split; exact hp a; rfl
    rw [hid]
    cases p a with
    | true => simp only [Option.map_some]; split <;> rfl
    | false => exact ih

theorem padRun_issued (s : State) (t cell run : Nat) (d : Cell) (g : SegRun) (k : Nat) (st : Stencil) (first n : Nat) :
    (issued s t cell run d).padRun g k st first n = s.padRun g k st first n := by
  have h : (issued s t cell run d).stencilGroup g st = s.stencilGroup g st := by
    unfold State.stencilGroup State.peerRun
    rw [show (issued s t cell run d).segs = s.segs.map fun g => if g.id = run then { g with progress := max s.now t } else g from rfl,
      find_touched' s.segs _ run (max s.now t) fun _ => rfl]
  unfold State.padRun State.stencilCell
  rw [h]

/-! ### Tokens, failures and retirement leave words, accumulators and DRAM -/

/-- What posts, failures and progress leave as it was: every scratchpad, accumulator and plane, DRAM, and the charges of running runs; a cell keeps its instructions and finished tiles or loses them all. -/
def Mild (s x : State) : Prop :=
  x.dram = s.dram ∧
  (∀ k, (x.cell k).mem = (s.cell k).mem ∧ (x.cell k).acc = (s.cell k).acc ∧ (x.cell k).plane = (s.cell k).plane ∧
    (x.cell k).bank0 = (s.cell k).bank0 ∧ (x.cell k).bank1 = (s.cell k).bank1 ∧
    ((x.cell k).flights = (s.cell k).flights ∨ (x.cell k).flights = []) ∧ ((x.cell k).ftq = (s.cell k).ftq ∨ (x.cell k).ftq = [])) ∧
  ∀ id g, s.seg? id = some g → g.phase = .running → ∃ g', x.seg? id = some g' ∧ g'.phase = .running ∧ g'.charged = g.charged

theorem mild_refl (s : State) : Mild s s :=
  ⟨rfl, fun _ => ⟨rfl, rfl, rfl, rfl, rfl, .inl rfl, .inl rfl⟩, fun _ g h h1 => ⟨g, h, h1, rfl⟩⟩

theorem mild_trans {s x y : State} (h : Mild s x) (g : Mild x y) : Mild s y := by
  obtain ⟨h1, h2, h3⟩ := h
  obtain ⟨g1, g2, g3⟩ := g
  refine ⟨g1.trans h1, fun k => ?_, fun id r hr hp => ?_⟩
  · obtain ⟨a1, a2, a3, a4, a5, a6, a7⟩ := h2 k
    obtain ⟨b1, b2, b3, b4, b5, b6, b7⟩ := g2 k
    refine ⟨b1.trans a1, b2.trans a2, b3.trans a3, b4.trans a4, b5.trans a5, ?_, ?_⟩
    · rcases b6 with q | q
      · rw [q]; exact a6
      · exact .inr q
    · rcases b7 with q | q
      · rw [q]; exact a7
      · exact .inr q
  · obtain ⟨r1, i1, i2, i3⟩ := h3 id r hr hp
    obtain ⟨r2, j1, j2, j3⟩ := g3 id r1 i1 i2
    exact ⟨r2, j1, j2, j3.trans i3⟩

theorem mild_updCell (s : State) (k : Nat) (f : Cell → Cell)
    (hf : ∀ c, (f c).mem = c.mem ∧ (f c).acc = c.acc ∧ (f c).plane = c.plane ∧ (f c).bank0 = c.bank0 ∧ (f c).bank1 = c.bank1 ∧
      ((f c).flights = c.flights ∨ (f c).flights = []) ∧ ((f c).ftq = c.ftq ∨ (f c).ftq = [])) : Mild s (s.updCell k f) := by
  refine ⟨rfl, fun j => ?_, fun _ g h h1 => ⟨g, h, h1, rfl⟩⟩
  by_cases h : j = k
  · subst h; rw [State.cell_updCell_self]; exact hf _
  · rw [State.cell_updCell_other _ _ h]; exact ⟨rfl, rfl, rfl, rfl, rfl, .inl rfl, .inl rfl⟩

theorem mild_touch (s : State) (id : Nat) : Mild s (s.touch id) := by
  refine ⟨rfl, fun _ => ⟨rfl, rfl, rfl, rfl, rfl, .inl rfl, .inl rfl⟩, fun j g h h1 => ?_⟩
  have : (s.touch id).seg? j = (s.seg? j).map fun g => if g.id = id then { g with progress := s.now } else g := find_touched s.segs id j s.now
  rw [this, h]
  refine ⟨_, rfl, ?_, ?_⟩
  · dsimp only; split <;> exact h1
  · dsimp only; split <;> rfl

theorem mild_releaseCells (s : State) (l : List Nat) : Mild s (s.releaseCells l) := by
  unfold State.releaseCells
  induction l generalizing s with
  | nil => exact mild_refl s
  | cons a r ih =>
    exact mild_trans (mild_updCell s a Cell.release fun c => ⟨rfl, rfl, rfl, rfl, rfl, .inr rfl, .inr rfl⟩) (ih _)

theorem seg_runsAfter (l : List SegRun) (id : Nat) (g : SegRun) (ten lring seq : Nat) (e : Err) (h : l.find? (fun x => x.id == id) = some g) (h2 : g.phase = .running) :
    ∃ g', (runsAfter l ten lring seq e).find? (fun x => x.id == id) = some g' ∧ g'.phase = .running ∧ g'.charged = g.charged := by
  unfold runsAfter
  induction l with
  | nil => simp at h
  | cons a r ih =>
    rw [List.find?_cons] at h
    cases hq : a.id == id with
    | true =>
      rw [hq] at h
      simp only [Option.some.injEq] at h; subst h
      have hk : (!(a.ofCmd ten lring seq && a.phase != SegPhase.running)) = true := by rw [h2]; simp
      rw [List.filter_cons_of_pos (by rw [hk]), List.map_cons, List.find?_cons]
      have hid : ((if a.ofCmd ten lring seq = true then { a with fail := some (a.fail.getD e) } else a).id == id) = true := by split <;> exact hq
      rw [hid]
      refine ⟨_, rfl, ?_, ?_⟩
      · split <;> exact h2
      · split <;> rfl
    | false =>
      rw [hq] at h
      have := ih h
      cases hk : (!(a.ofCmd ten lring seq && a.phase != SegPhase.running)) with
      | false => rw [List.filter_cons_of_neg (by rw [hk]; simp)]; exact this
      | true =>
        rw [List.filter_cons_of_pos (by rw [hk]), List.map_cons, List.find?_cons]
        have hid : ((if a.ofCmd ten lring seq = true then { a with fail := some (a.fail.getD e) } else a).id == id) = false := by split <;> exact hq
        rw [hid]; exact this

theorem mild_failEval (s : State) (ten lring seq : Nat) (e : Err) : Mild s (s.failEval ten lring seq e) := by
  have h : ∀ (l : List SegRun) (s : State), Mild s (l.foldl (fun s (g : SegRun) => (s.releaseCells g.cells).unrefSeg g.id) s) ∧
      (l.foldl (fun s (g : SegRun) => (s.releaseCells g.cells).unrefSeg g.id) s).segs = s.segs := by
    intro l
    induction l with
    | nil => exact fun s => ⟨mild_refl s, rfl⟩
    | cons a r ih =>
      intro s
      rw [List.foldl_cons]
      obtain ⟨i1, i2⟩ := ih ((s.releaseCells a.cells).unrefSeg a.id)
      obtain ⟨es, hs⟩ := releaseCells_cells s a.cells
      refine ⟨mild_trans (mild_trans (mild_releaseCells s a.cells) ?_) i1, i2.trans (by rw [hs]; rfl)⟩
      exact ⟨rfl, fun _ => ⟨rfl, rfl, rfl, rfl, rfl, .inl rfl, .inl rfl⟩, fun _ g h h1 => ⟨g, h, h1, rfl⟩⟩
  unfold State.failEval
  dsimp only
  obtain ⟨h1, h2⟩ := h (s.segs.filter fun g => g.ofCmd ten lring seq && g.phase != .running) s
  refine ⟨h1.1, h1.2.1, fun id g hg hp => ?_⟩
  have := seg_runsAfter s.segs id g ten lring seq e hg hp
  rw [← h2] at this
  exact this

theorem mild_failSeg (s : State) (id cell : Nat) (e : Err) : Mild s (s.failSeg id cell e) := by
  unfold State.failSeg
  split
  · exact mild_refl s
  · rename_i g hg
    split
    · exact mild_refl s
    · obtain ⟨tn, hl⟩ := logRec_eq s Rec.segment 0 g.ten cell (e.1 + e.2 * 2 ^ 16) (g.seq % 2 ^ 32)
      rw [hl]
      refine mild_trans ?_ (mild_failEval _ _ _ _ _)
      exact ⟨rfl, fun _ => ⟨rfl, rfl, rfl, rfl, rfl, .inl rfl, .inl rfl⟩, fun _ g h h1 => ⟨g, h, h1, rfl⟩⟩

theorem mild_postTokens (s : State) (cell q n : Nat) : Mild s (s.postTokens cell q n) := by
  unfold State.postTokens
  split
  · exact mild_refl s
  · split
    · exact mild_refl s
    · split
      · exact mild_failSeg ..
      · refine mild_trans ?_ (mild_touch _ _)
        exact mild_updCell s cell _ fun c => ⟨rfl, rfl, rfl, rfl, rfl, .inl rfl, .inl rfl⟩

theorem mild_postOpt (s : State) (cell : Nat) (o : Option Nat) : Mild s (s.postOpt cell o) := by
  cases o with
  | none => exact mild_refl s
  | some q => exact mild_postTokens s cell q 1

theorem mild_touchCell (s : State) (cell : Nat) : Mild s (s.touchCell cell) := by
  unfold State.touchCell
  cases s.cellRun cell with
  | none => exact mild_refl s
  | some g => exact mild_touch s g.id

theorem mild_landed (s : State) (owner id : Nat) : Mild s (s.landed owner id) := by
  unfold State.landed
  dsimp only
  have h : ∀ (l : List WinClosing) (s : State), Mild s (l.foldl (fun s w => s.postOpt owner w.post) s) := by
    intro l
    induction l with
    | nil => exact mild_refl
    | cons a r ih => exact fun s => mild_trans (mild_postOpt s owner a.post) (ih _)
  refine mild_trans ?_ (h _ _)
  exact mild_updCell s owner _ fun c => ⟨rfl, rfl, rfl, rfl, rfl, .inl rfl, .inl rfl⟩

theorem mild_postSrc (s : State) (cell : Nat) (i : Ins) : Mild s (s.postSrc cell i) := by
  unfold State.postSrc State.postToken
  split
  · exact mild_postTokens ..
  · exact mild_refl s

theorem mild_movePost (s : State) (cell : Nat) (f : Flight) : Mild s (s.movePost cell f) := by
  unfold State.movePost State.postToken
  dsimp only
  refine mild_trans ?_ (mild_postSrc _ _ _)
  split
  · exact mild_refl s
  · split
    · split
      · exact mild_postTokens ..
      · exact mild_refl s
    · exact mild_postTokens ..

/-- A retired instruction has left its cell; words, accumulators, DRAM and charges stay. -/
theorem retireFlight_spec (s : State) (cell : Nat) (f : Flight) :
    (s.retireFlight cell f).dram = s.dram ∧
    (∀ k, ((s.retireFlight cell f).cell k).mem = (s.cell k).mem ∧ ((s.retireFlight cell f).cell k).acc = (s.cell k).acc ∧
      ((s.retireFlight cell f).cell k).plane = (s.cell k).plane ∧ ((s.retireFlight cell f).cell k).bank0 = (s.cell k).bank0 ∧
      ((s.retireFlight cell f).cell k).bank1 = (s.cell k).bank1) ∧
    Leaves (s.retireFlight cell f) cell f.id ∧
    (∀ id g, s.seg? id = some g → g.phase = .running → ∃ g', (s.retireFlight cell f).seg? id = some g' ∧ g'.phase = .running ∧ g'.charged = g.charged) := by
  have key : ∀ y, Mild (s.updCell cell fun c => { c with flights := c.flights.filter fun o => o.id != f.id }) y →
      y.dram = s.dram ∧ (∀ k, (y.cell k).mem = (s.cell k).mem ∧ (y.cell k).acc = (s.cell k).acc ∧ (y.cell k).plane = (s.cell k).plane ∧
        (y.cell k).bank0 = (s.cell k).bank0 ∧ (y.cell k).bank1 = (s.cell k).bank1) ∧ Leaves y cell f.id ∧
      (∀ id g, s.seg? id = some g → g.phase = .running → ∃ g', y.seg? id = some g' ∧ g'.phase = .running ∧ g'.charged = g.charged) := by
    intro y hy
    obtain ⟨h1, h2, h3⟩ := hy
    refine ⟨h1, fun k => ?_, fun x hx => ?_, h3⟩
    · obtain ⟨a1, a2, a3, a4, a5, -⟩ := h2 k
      have hc : ∀ (α : Type) (φ : Cell → α), (∀ c : Cell, φ { c with flights := c.flights.filter fun o => o.id != f.id } = φ c) →
          φ ((s.updCell cell fun c => { c with flights := c.flights.filter fun o => o.id != f.id }).cell k) = φ (s.cell k) := by
        intro α φ hφ
        by_cases h : k = cell
        · subst h; rw [State.cell_updCell_self]; exact hφ _
        · rw [State.cell_updCell_other _ _ h]
      exact ⟨a1.trans (hc _ (·.mem) fun _ => rfl), a2.trans (hc _ (·.acc) fun _ => rfl), a3.trans (hc _ (·.plane) fun _ => rfl),
        a4.trans (hc _ (·.bank0) fun _ => rfl), a5.trans (hc _ (·.bank1) fun _ => rfl)⟩
    · obtain ⟨-, -, -, -, -, a6, -⟩ := h2 cell
      rw [State.cell_updCell_self] at a6
      rcases a6 with q | q
      · rw [q] at hx
        have := (List.mem_filter.1 hx).2
        simpa using this
      · rw [q] at hx; simp at hx
  unfold State.retireFlight
  dsimp only
  split
  · exact key _ (mild_trans (mild_touchCell _ _) (mild_landed _ _ _))
  · exact key _ (mild_touchCell _ _)

theorem mild_word {s x : State} (h : Mild s x) (k a : Nat) : x.word k a = s.word k a := by
  unfold State.word; rw [(h.2.1 k).1]

/-! ### Landing words -/

theorem lookD_putZ (t : Tbl Nat) (k v j : Nat) : Tbl.lookD (Tbl.putZ t k v) j 0 = if j = k then v else Tbl.lookD t j 0 := by
  unfold Tbl.putZ
  split
  · rename_i hv
    unfold Tbl.lookD
    by_cases h : j = k
    · subst h; rw [if_pos rfl, Tbl.look_del_self, hv]; rfl
    · rw [if_neg h, Tbl.look_del_other _ h]
  · by_cases h : j = k
    · subst h; rw [if_pos rfl]; exact Tbl.lookD_put_self ..
    · rw [if_neg h]; exact Tbl.lookD_put_other _ _ _ h

theorem word_putWord (s : State) (w : Nat × Nat × Nat) (k a : Nat) :
    (s.updCell w.1 fun c => c.putWord w.2.1 w.2.2).word k a = if (w.1, w.2.1) = (k, a) then w.2.2 % 2 ^ 32 else s.word k a := by
  unfold State.word
  by_cases h : k = w.1
  · subst h
    rw [State.cell_updCell_self]
    show Tbl.lookD (Tbl.putZ _ _ _) a 0 = _
    rw [lookD_putZ]
    by_cases h2 : a = w.2.1
    · subst h2; simp
    · rw [if_neg h2, if_neg (fun q => h2 (Prod.mk.inj q).2.symm)]
  · rw [State.cell_updCell_other _ _ h, if_neg (fun q => h (Prod.mk.inj q).1.symm)]

/-- Words written one after another. -/
theorem foldl_putWord (ws : List (Nat × Nat × Nat)) (s : State) :
    Lands s (ws.foldl (fun s w => s.updCell w.1 fun c => c.putWord w.2.1 w.2.2) s) (ws.map fun w => ((w.1, w.2.1), w.2.2)) := by
  induction ws generalizing s with
  | nil => exact fun k a => rfl
  | cons w r ih =>
    intro k a
    rw [List.foldl_cons, ih]
    rw [List.map_cons, List.reverse_cons, List.find?_append]
    cases h : (r.map fun w => ((w.1, w.2.1), w.2.2)).reverse.find? (fun w => w.1 == (k, a)) with
    | some v => rfl
    | none =>
      simp only [Option.map_none, Option.getD_none, Option.none_or, List.find?_cons, List.find?_nil]
      rw [word_putWord]
      by_cases hq : (w.1, w.2.1) = (k, a)
      · rw [if_pos hq, hq]; simp
      · rw [if_neg hq]
        have : ((w.1, w.2.1) == (k, a)) = false := by simpa using hq
        rw [this]; rfl

theorem look_map {α β : Type} (t : Tbl α) (f : α → β) (k : Nat) : Tbl.look (t.map fun c => (c.1, f c.2)) k = (Tbl.look t k).map f := by
  induction t with
  | nil => rfl
  | cons a r ih =>
    simp only [List.map_cons, Tbl.look]
    split
    · rfl
    · exact ih

/-- Landing words leaves everything but scratchpads and the marks of races. -/
theorem landWords_spec (s : State) (wr : Option (Nat × Nat × Nat)) (ws : List (Nat × Nat × Nat)) :
    Lands s (s.landWords wr ws) (ws.map fun w => ((w.1, w.2.1), w.2.2)) ∧
    s.landWords wr ws = { s with cells := (s.landWords wr ws).cells } ∧
    ∀ k, ((s.landWords wr ws).cell k).acc = (s.cell k).acc ∧ ((s.landWords wr ws).cell k).plane = (s.cell k).plane ∧
      ((s.landWords wr ws).cell k).bank0 = (s.cell k).bank0 ∧ ((s.landWords wr ws).cell k).bank1 = (s.cell k).bank1 ∧
      ((s.landWords wr ws).cell k).seg = (s.cell k).seg ∧ ((s.landWords wr ws).cell k).tokens = (s.cell k).tokens ∧
      ((s.landWords wr ws).cell k).ftq = (s.cell k).ftq ∧ ((s.landWords wr ws).cell k).flights.map (·.id) = (s.cell k).flights.map (·.id) := by
  unfold State.landWords
  dsimp only
  generalize hg : (fun (c : Nat) (f : Flight) => if (wr.any fun w => w.2.2 == f.id || sameEngine w.1 w.2.1 c f.engine) = true then f else f.race s.word ws) = G
  have hG : ∀ c f, (G c f).id = f.id := by
    intro c f; rw [← hg]; dsimp only; split <;> rfl
  have hcell : ∀ k, ({ s with cells := s.cells.map fun c => (c.1, { c.2 with flights := c.2.flights.map fun f => G c.1 f }) } : State).cell k =
      { s.cell k with flights := (s.cell k).flights.map fun f => G k f } := by
    intro k
    unfold State.cell Tbl.lookD
    have : ∀ t : Tbl Cell, Tbl.look (t.map fun c => (c.1, { c.2 with flights := c.2.flights.map fun f => G c.1 f })) k =
        (Tbl.look t k).map fun c => { c with flights := c.flights.map fun f => G k f } := by
      intro t
      induction t with
      | nil => rfl
      | cons a r ih =>
        simp only [List.map_cons, Tbl.look]
        split
        · rename_i h; subst h; rfl
        · exact ih
    show (Tbl.look (s.cells.map _) k).getD _ = _
    rw [this]
    cases Tbl.look s.cells k <;> rfl
  generalize hz : ({ s with cells := s.cells.map fun c => (c.1, { c.2 with flights := c.2.flights.map fun f => G c.1 f }) } : State) = z at hcell
  have hzs : z = { s with cells := z.cells } := by rw [← hz]
  have hz' : ({ s with cells := s.cells.map fun c => (c.1, { c.2 with flights := c.2.flights.map fun f => if (wr.any fun w => w.2.2 == f.id || sameEngine w.1 w.2.1 c.1 f.engine) = true then f else f.race s.word ws }) } : State) = z := by
    rw [← hz, ← hg]
  rw [hz']
  have hfold : ∀ (ws : List (Nat × Nat × Nat)) (z : State), (ws.foldl (fun s w => s.updCell w.1 fun c => c.putWord w.2.1 w.2.2) z =
      { z with cells := (ws.foldl (fun s w => s.updCell w.1 fun c => c.putWord w.2.1 w.2.2) z).cells }) ∧
      ∀ (α : Type) (φ : Cell → α), (∀ (c : Cell) a v, φ (c.putWord a v) = φ c) → ∀ k, φ ((ws.foldl (fun s w => s.updCell w.1 fun c => c.putWord w.2.1 w.2.2) z).cell k) = φ (z.cell k) := by
    intro ws
    induction ws with
    | nil => exact fun z => ⟨rfl, fun _ _ _ _ => rfl⟩
    | cons w r ih =>
      intro z
      obtain ⟨i1, i2⟩ := ih (z.updCell w.1 fun c => c.putWord w.2.1 w.2.2)
      rw [List.foldl_cons]
      refine ⟨i1, fun α φ hφ k => ?_⟩
      rw [i2 α φ hφ]
      by_cases h : k = w.1
      · subst h; rw [State.cell_updCell_self]; exact hφ _ _ _
      · rw [State.cell_updCell_other _ _ h]
  obtain ⟨f1, f2⟩ := hfold ws z
  refine ⟨fun k a => ?_, ?_, fun k => ?_⟩
  · rw [foldl_putWord ws z k a]
    have : z.word k a = s.word k a := by unfold State.word; rw [hcell]
    rw [this]
  · rw [f1]
    generalize (ws.foldl (fun s w => s.updCell w.1 fun c => c.putWord w.2.1 w.2.2) z).cells = cs
    rw [hzs]
  · have hc := hcell k
    refine ⟨(f2 _ (·.acc) (fun _ _ _ => rfl) k).trans (by rw [hc]), (f2 _ (·.plane) (fun _ _ _ => rfl) k).trans (by rw [hc]),
      (f2 _ (·.bank0) (fun _ _ _ => rfl) k).trans (by rw [hc]), (f2 _ (·.bank1) (fun _ _ _ => rfl) k).trans (by rw [hc]),
      (f2 _ (·.seg) (fun _ _ _ => rfl) k).trans (by rw [hc]), (f2 _ (·.tokens) (fun _ _ _ => rfl) k).trans (by rw [hc]),
      (f2 _ (·.ftq) (fun _ _ _ => rfl) k).trans (by rw [hc]), (f2 _ (fun c => c.flights.map (·.id)) (fun _ _ _ => rfl) k).trans ?_⟩
    rw [hc]
    simp [List.map_map, Function.comp_def, hG]

theorem settleAll_quiet {f : Flight} (h : f.contest = []) (l : List ((Nat × Nat) × Nat)) (s : State) :
    s.settleAll f l = (l.map fun p => (p.1.1, p.1.2, p.2), s) := by
  induction l with
  | nil => rfl
  | cons a r ih =>
    obtain ⟨w, v⟩ := a
    simp only [State.settleAll, State.settle, h, List.contains_nil, Bool.false_eq_true, if_false]
    rw [ih]; rfl

/-- The words of an instruction that nothing races with land in order. -/
theorem landFlight_spec {f : Flight} (h : f.contest = []) (s : State) (cell : Nat) (dests : List (Nat × Nat)) (vals : List Nat) :
    Lands s (s.landFlight cell f dests vals) (dests.zip vals) ∧ (s.landFlight cell f dests vals).dram = s.dram ∧
    (∀ k, ((s.landFlight cell f dests vals).cell k).acc = (s.cell k).acc ∧ ((s.landFlight cell f dests vals).cell k).plane = (s.cell k).plane ∧
      ((s.landFlight cell f dests vals).cell k).bank0 = (s.cell k).bank0 ∧ ((s.landFlight cell f dests vals).cell k).bank1 = (s.cell k).bank1) ∧
    ∀ id g, s.seg? id = some g → g.phase = .running → ∃ g', (s.landFlight cell f dests vals).seg? id = some g' ∧ g'.phase = .running ∧ g'.charged = g.charged ∧ g'.fail = g.fail := by
  unfold State.landFlight
  rw [settleAll_quiet h]
  dsimp only
  obtain ⟨l1, l2, l3⟩ := landWords_spec s (some (cell, f.engine, f.id)) ((dests.zip vals).map fun p => (p.1.1, p.1.2, p.2))
  generalize s.landWords (some (cell, f.engine, f.id)) ((dests.zip vals).map fun p => (p.1.1, p.1.2, p.2)) = z at l1 l2 l3
  have hm : Mild z ((dests.head?).elim z fun w => z.touchCell w.1) := by
    cases dests.head? with
    | none => exact mild_refl z
    | some w => exact mild_touchCell z w.1
  have hseg : z.segs = s.segs := by generalize z.cells = q at l2; rw [l2]
  have hdr : z.dram = s.dram := by generalize z.cells = q at l2; rw [l2]
  have hseg2 : ∀ id g, s.seg? id = some g → g.phase = .running → ∃ g', ((dests.head?).elim z fun w => z.touchCell w.1).seg? id = some g' ∧ g'.phase = .running ∧ g'.charged = g.charged ∧ g'.fail = g.fail := by
    intro id g hg hp
    have hz : z.seg? id = some g := by unfold State.seg?; rw [hseg]; exact hg
    cases dests.head? with
    | none => exact ⟨g, hz, hp, rfl, rfl⟩
    | some w =>
      show ∃ g', (z.touchCell w.1).seg? id = some g' ∧ _
      unfold State.touchCell
      cases z.cellRun w.1 with
      | none => exact ⟨g, hz, hp, rfl, rfl⟩
      | some gr =>
        have : (z.touch gr.id).seg? id = (z.seg? id).map fun x => if x.id = gr.id then { x with progress := z.now } else x := find_touched z.segs gr.id id z.now
        show ∃ g', (z.touch gr.id).seg? id = some g' ∧ _
        rw [this, hz]
        refine ⟨_, rfl, ?_⟩
        dsimp only
        split
        · exact ⟨hp, rfl, rfl⟩
        · exact ⟨hp, rfl, rfl⟩
  refine ⟨fun k a => ?_, hm.1.trans hdr, fun k => ?_, hseg2⟩
  · rw [mild_word hm, l1]
    simp only [List.map_map, Function.comp_def, Prod.mk.eta, List.map_id']
  · obtain ⟨a1, a2, a3, a4, a5, -⟩ := hm.2.1 k
    obtain ⟨b1, b2, b3, b4, -⟩ := l3 k
    exact ⟨a2.trans b1, a3.trans b2, a4.trans b3, a5.trans b4⟩

theorem readRun_quiet {s : State} {cell : Nat} {f : Flight} (h : f.alts = []) (ws : List (Option (Nat × Nat)))
    (hw : ∀ w, some w ∈ ws → s.writePending cell f w = false) :
    s.readRun cell f [] ws = (ws.map fun w => w.elim 0 fun w => s.word w.1 w.2, s) := by
  induction ws with
  | nil => rfl
  | cons a r ih =>
    have ih' := ih fun w hq => hw w (List.mem_cons_of_mem _ hq)
    cases a with
    | none => unfold State.readRun; rw [ih']; rfl
    | some w =>
      have hr : s.readRaced cell f [] w = (s.word w.1 w.2, s) := by
        unfold State.readRaced
        simp [h, hw w (by simp)]
      unfold State.readRun
      rw [hr]
      dsimp only
      rw [ih']; rfl

theorem readWords_quiet {s : State} {cell : Nat} {f : Flight} (h : Quiet s cell f) (ws : List (Nat × Nat)) (hs : ∀ w ∈ ws, w ∈ f.reads) :
    s.readWords cell f ws = (wordsAt s ws, s) := by
  unfold State.readWords
  rw [readRun_quiet h.1 _ fun w hw => ?_]
  · unfold wordsAt; simp [List.map_map, Function.comp_def]
  · rw [List.mem_map] at hw
    obtain ⟨w', hw', he⟩ := hw
    simp only [Option.some.injEq] at he; subst he
    exact h.2.2 _ (hs _ hw')

/-! ### Tokens of live runs -/

/-- What does not change a run but its progress: every cell works for the same run, which has failed or not and is in the same phase. -/
def RunsKept (s y : State) : Prop :=
  ∀ j g, s.cellRun j = some g → ∃ g', y.cellRun j = some g' ∧ g'.id = g.id ∧ g'.ten = g.ten ∧ g'.fail = g.fail ∧ g'.phase = g.phase

theorem runsKept_trans {s x y : State} (h : RunsKept s x) (g : RunsKept x y) : RunsKept s y := by
  intro j r hr
  obtain ⟨a, a1, a2, a3, a4, a5⟩ := h j r hr
  obtain ⟨b, b1, b2, b3, b4, b5⟩ := g j a a1
  exact ⟨b, b1, b2.trans a2, b3.trans a3, b4.trans a4, b5.trans a5⟩

theorem runsKept_touch (s : State) (id : Nat) : RunsKept s (s.touch id) := by
  intro j g h
  obtain ⟨h1, h2⟩ := cellRun_id h
  have hx : (s.touch id).cellRun j = (s.seg? g.id).map fun x => if x.id = id then { x with progress := s.now } else x := by
    unfold State.cellRun
    show ((s.cell j).seg.bind fun i => (s.touch id).seg? i) = _
    rw [h1]
    exact find_touched s.segs id g.id s.now
  rw [hx, h2]
  refine ⟨_, rfl, ?_⟩
  dsimp only
  split
  · exact ⟨rfl, rfl, rfl, rfl⟩
  · exact ⟨rfl, rfl, rfl, rfl⟩

theorem runsKept_updCell (s : State) (k : Nat) (f : Cell → Cell) (hf : ∀ c, (f c).seg = c.seg) : RunsKept s (s.updCell k f) := by
  intro j g h
  refine ⟨g, ?_, rfl, rfl, rfl, rfl⟩
  unfold State.cellRun at h ⊢
  have : ((s.updCell k f).cell j).seg = (s.cell j).seg := by
    by_cases hj : j = k
    · subst hj; rw [State.cell_updCell_self]; exact hf _
    · rw [State.cell_updCell_other _ _ hj]
  rw [this]; exact h

/-- Tokens posted to a cell whose run goes on, in a queue with room, are in that queue and nowhere else. -/
theorem post_spec {s : State} {k q n : Nat} {g : SegRun} (hr : s.cellRun k = some g) (h1 : g.fail = none) (h2 : g.phase ≠ .drained)
    (h3 : (s.cell k).tokenCount q + n ≤ 63) :
    (∀ j p, ((s.postTokens k q n).cell j).tokenCount p = (s.cell j).tokenCount p + if j = k ∧ p = q then n else 0) ∧ RunsKept s (s.postTokens k q n) := by
  have h2' : (g.phase == SegPhase.drained) = false := by simpa using h2
  have hp : s.postTokens k q n = (s.updCell k fun c => { c with tokens := Tbl.putZ c.tokens q (c.tokenCount q + n) }).touch g.id := by
    unfold State.postTokens
    rw [hr]
    simp only [h1, h2', Option.isSome_none, Bool.or_self, Bool.false_eq_true, if_false]
    rw [if_neg (by omega)]
  rw [hp]
  refine ⟨fun j p => ?_, runsKept_trans ?_ (runsKept_touch _ _)⟩
  rotate_left
  · exact runsKept_updCell s k _ fun _ => rfl
  rw [touch_cell]
  by_cases hj : j = k
  · subst hj
    rw [State.cell_updCell_self]
    show Tbl.lookD (Tbl.putZ _ _ _) p 0 = _
    rw [lookD_putZ]
    by_cases hq : p = q
    · subst hq; simp
    · rw [if_neg hq, if_neg (by tauto)]; rfl
  · rw [State.cell_updCell_other _ _ hj, if_neg (by tauto)]; rfl

/-- An instruction that no window admitted leaves its engine: tokens and runs stay. -/
theorem retire_tokens (s : State) (cell : Nat) {f : Flight} (hw : f.writes = []) :
    (∀ j p, ((s.retireFlight cell f).cell j).tokenCount p = (s.cell j).tokenCount p) ∧ RunsKept s (s.retireFlight cell f) := by
  have he : s.retireFlight cell f = (s.updCell cell fun c => { c with flights := c.flights.filter fun o => o.id != f.id }).touchCell cell := by
    unfold State.retireFlight
    rw [hw]
    simp only [List.head?_nil]
    cases f.win <;> rfl
  rw [he]
  have hk : RunsKept s (s.updCell cell fun c => { c with flights := c.flights.filter fun o => o.id != f.id }) := runsKept_updCell s cell _ fun _ => rfl
  have ht : ∀ y : State, (∀ j, (y.touchCell cell).cell j = y.cell j) ∧ RunsKept y (y.touchCell cell) := by
    intro y
    unfold State.touchCell
    cases y.cellRun cell with
    | none => exact ⟨fun _ => rfl, fun j g h => ⟨g, h, rfl, rfl, rfl, rfl⟩⟩
    | some g => exact ⟨fun _ => rfl, runsKept_touch y g.id⟩
  refine ⟨fun j p => ?_, runsKept_trans hk (ht _).2⟩
  rw [(ht _).1]
  by_cases hj : j = cell
  · subst hj; rw [State.cell_updCell_self]; rfl
  · rw [State.cell_updCell_other _ _ hj]

/-- A record for one or two tenants changes the log and their views. -/
theorem logBoth_eq (s : State) (type flags ten : Nat) (also : Option Nat) (source arg0 arg1 : Nat) :
    ∃ tn lg, s.logBoth type flags ten also source arg0 arg1 = { s with tenants := tn, log := lg } := by
  unfold State.logBoth
  dsimp only
  by_cases h1 : 0 < ten ∧ ten < 512
  · rw [if_pos h1]
    cases also with
    | none => exact ⟨_, _, rfl⟩
    | some o =>
      by_cases h2 : 0 < o ∧ o < 512 ∧ o ≠ ten
      · dsimp only; rw [if_pos h2]; exact ⟨_, _, rfl⟩
      · dsimp only; rw [if_neg h2]; exact ⟨_, _, rfl⟩
  · rw [if_neg h1]
    cases also with
    | none => exact ⟨s.tenants, _, rfl⟩
    | some o =>
      by_cases h2 : 0 < o ∧ o < 512 ∧ o ≠ ten
      · dsimp only; rw [if_pos h2]; exact ⟨_, _, rfl⟩
      · dsimp only; rw [if_neg h2]; exact ⟨s.tenants, _, rfl⟩

/-- The failure of a running run. -/
theorem failSeg_fails {s : State} {g : SegRun} {cell : Nat} {e : Err} (h : s.seg? g.id = some g) (h1 : g.phase = .running) (h2 : g.fail = none) :
    RunFails (s.failSeg g.id cell e) g.id e := ⟨_, failSeg_run h h1 h2, rfl⟩

/-! ### The end of an arithmetic instruction -/

theorem readLists_quiet {s : State} {cell : Nat} {f : Flight} (h : Quiet s cell f) (l : List (List (Nat × Nat))) (hs : ∀ ws ∈ l, ∀ w ∈ ws, w ∈ f.reads) :
    s.readLists cell f l = (l.map (wordsAt s), s) := by
  induction l with
  | nil => rfl
  | cons a r ih =>
    unfold State.readLists
    rw [readWords_quiet h a (hs a (by simp))]
    dsimp only
    rw [ih fun ws hw => hs ws (by simp [hw])]; rfl

theorem fill_some (s : State) (l : List Nat) : s.fill (l.map some) = (l, s) := by
  induction l with
  | nil => rfl
  | cons a r ih =>
    simp only [List.map_cons, State.fill]
    rw [ih]

theorem zip_map_snd {α β : Type} (a : List α) (b : List β) : a.zip ((a.zip b).map (·.2)) = a.zip b := by
  induction a generalizing b with
  | nil => simp
  | cons x r ih =>
    cases b with
    | nil => simp
    | cons y q => simp [ih]

/-- Results that nothing races with and that no overlap spoils land in order; the instruction leaves and its operations are charged. -/
theorem endArith_spec {y : State} {cell : Nat} {g : SegRun} {w : ModWin} {f : Flight} {srcs : List (List (Nat × Nat))} (vals : List Nat)
    (hc : f.contest = []) (hu : undefinedDests f srcs = []) (hg : y.seg? g.id = some g) (h1 : g.phase = .running) (h2 : g.fail = none) :
    Lands y (y.endArith cell g w f srcs (vals.map some)) (f.writes.zip vals) ∧ Leaves (y.endArith cell g w f srcs (vals.map some)) cell f.id ∧
    (y.endArith cell g w f srcs (vals.map some)).dram = y.dram ∧
    (∀ k, ((y.endArith cell g w f srcs (vals.map some)).cell k).acc = (y.cell k).acc ∧ ((y.endArith cell g w f srcs (vals.map some)).cell k).plane = (y.cell k).plane) ∧
    ∃ g', (y.endArith cell g w f srcs (vals.map some)).seg? g.id = some g' ∧ g'.charged = g.charged + opsOf w (ins f.raw) f.modIdx := by
  unfold State.endArith
  dsimp only
  rw [hu]
  have hv : ((f.writes.zip (vals.map some)).map fun x => if ([] : List (Nat × Nat)).contains x.1 = true then none else x.2) = ((f.writes.zip vals).map (·.2)).map some := by
    simp [List.zip_map_right, List.map_map, Function.comp_def]
  rw [hv, fill_some]
  dsimp only
  obtain ⟨l1, l2, l3, l4⟩ := landFlight_spec hc y cell f.writes ((f.writes.zip vals).map (·.2))
  rw [zip_map_snd] at l1
  generalize y.landFlight cell f f.writes ((f.writes.zip vals).map (·.2)) = z at l1 l2 l3 l4
  obtain ⟨g1, i1, i2, i3, i4⟩ := l4 g.id g hg h1
  generalize hx : z.updSeg g.id (fun g => { g with charged := if g.fail.isNone = true then g.charged + opsOf w (ins f.raw) f.modIdx else g.charged }) = x
  have hxc : ∀ k, x.cell k = z.cell k := by rw [← hx]; exact fun _ => rfl
  have hxd : x.dram = z.dram := by rw [← hx]; rfl
  have hxs : x.seg? g.id = some { g1 with charged := g.charged + opsOf w (ins f.raw) f.modIdx } := by
    rw [← hx]
    have : ∀ l : List SegRun, (l.map fun a => if a.id = g.id then { a with charged := if a.fail.isNone = true then a.charged + opsOf w (ins f.raw) f.modIdx else a.charged } else a).find? (fun a => a.id == g.id) =
        (l.find? fun a => a.id == g.id).map fun a => { a with charged := if a.fail.isNone = true then a.charged + opsOf w (ins f.raw) f.modIdx else a.charged } := by
      intro l
      induction l with
      | nil => rfl
      | cons a r ih =>
        simp only [List.map_cons, List.find?_cons]
        cases hq : a.id == g.id with
        | true =>
          have : a.id = g.id := by simpa using hq
          simp [this]
        | false =>
          have hne : ¬ a.id = g.id := by simpa using hq
          rw [if_neg hne, hq]; exact ih
    refine (this z.segs).trans ?_
    rw [show z.segs.find? (fun a => a.id == g.id) = some g1 from i1]
    simp [i4, h2, i3]
  have hm := mild_postOpt x cell (ins f.raw).post
  obtain ⟨r1, r2, r3, r4⟩ := retireFlight_spec (x.postOpt cell (ins f.raw).post) cell f
  refine ⟨fun k a => ?_, r3, r1.trans (hm.1.trans (hxd.trans l2)), fun k => ?_, ?_⟩
  · rw [← l1 k a]
    unfold State.word
    rw [(r2 k).1, (hm.2.1 k).1, hxc]
  · refine ⟨(r2 k).2.1.trans ((hm.2.1 k).2.1.trans ?_), (r2 k).2.2.1.trans ((hm.2.1 k).2.2.1.trans ?_)⟩
    · rw [hxc]; exact (l3 k).1
    · rw [hxc]; exact (l3 k).2.1
  · obtain ⟨g2, j1, j2, j3⟩ := hm.2.2 g.id _ hxs i2
    obtain ⟨g3, k1, k2, k3⟩ := r4 g.id g2 j1 j2
    exact ⟨g3, k1, k3.trans j3⟩

end Sys2Proof.Machine
end

