-- ==== Sys2Proof/Laws/Draws.lean ====
section
/-! SUPPORT. Operations that take free values and random bytes and change nothing else. -/

namespace Sys2Proof.Machine

/-- Nothing but the counters of free and random values and the DRBG differs. -/
def Draws (s z : State) : Prop := ∃ fr d en, z = { s with free := fr, draws := d, entropy := en }

theorem draws_refl (s : State) : Draws s s := ⟨s.free, s.draws, s.entropy, rfl⟩

theorem draws_trans {s z y : State} (h : Draws s z) (g : Draws z y) : Draws s y := by
  obtain ⟨a, b, c, rfl⟩ := h
  obtain ⟨a', b', c', rfl⟩ := g
  exact ⟨a', b', c', rfl⟩

theorem draws_takeFree (s : State) : Draws s s.takeFree.2 := ⟨_, _, _, rfl⟩
theorem draws_skipFrees (s : State) (n : Nat) : Draws s (s.skipFrees n) := ⟨_, _, _, rfl⟩
theorem draws_skipRandoms (s : State) (n : Nat) : Draws s (s.skipRandoms n) := ⟨_, _, _, rfl⟩
theorem draws_takeBytes (s : State) (n : Nat) : Draws s (s.takeBytes n).2 := ⟨_, _, _, rfl⟩

theorem draws_mapLimbs (s : State) (tab : ModTable) (f : Nat → ModEntry → List Nat → List Nat) (i : Nat) (l : List (List Nat)) :
    Draws s (s.mapLimbs tab f i l).2 := by
  obtain ⟨fr, h⟩ := mapLimbs_free tab f l s i
  exact ⟨fr, s.draws, s.entropy, h⟩

theorem draws_drawA (s : State) (tab : ModTable) (n : Nat) (b : Bool) : Draws s (s.drawA tab n b).2.2 := by
  unfold State.drawA
  dsimp only
  split
  · exact draws_takeBytes s 32
  · exact draws_skipRandoms s _

theorem draws_encryption (s : State) (c : Cmd) (g : GwSlot) (m : List (List Nat)) : Draws s (s.encryption c g m).2 := by
  unfold State.encryption
  dsimp only
  exact draws_trans (draws_trans (draws_trans (draws_trans (draws_drawA ..) (draws_skipRandoms ..)) (draws_mapLimbs ..)) (draws_mapLimbs ..)) (draws_mapLimbs ..)

theorem draws_encode (s : State) (c : Cmd) (n : Nat) (b : List Byte) : Draws s (s.encode c n b).2 := by
  unfold State.encode
  dsimp only
  split
  · split
    · exact draws_refl s
    · split
      · exact draws_refl s
      · exact draws_skipFrees s _
  · split
    · exact draws_refl s
    · split
      · exact draws_refl s
      · split
        · exact draws_refl s
        · split
          · exact draws_refl s
          · exact draws_skipFrees s _

theorem draws_decryptLimbs (s : State) (c : Cmd) (g : GwSlot) (b : List Byte) : Draws s (s.decryptLimbs c g b).2 := by
  unfold State.decryptLimbs
  exact draws_trans (draws_mapLimbs ..) (draws_mapLimbs ..)

theorem draws_liftLimbs (s : State) (tab : ModTable) (n : Nat) (ls : List (List Nat)) : Draws s (s.liftLimbs tab n ls).2 := by
  unfold State.liftLimbs
  dsimp only
  split
  · exact draws_refl s
  · exact draws_skipFrees s _

theorem draws_decode (s : State) (c : Cmd) (tab : ModTable) (m : List Int) : Draws s (s.decode c tab m).2 := by
  unfold State.decode
  dsimp only
  split
  · exact draws_refl s
  · split
    · exact draws_refl s
    · split
      · exact draws_refl s
      · exact draws_skipFrees s _

theorem draws_freeWords (s : State) (q n : Nat) : Draws s (s.freeWords q n).2 := draws_skipFrees s n

theorem draws_freeLimbs (tab : ModTable) (n : Nat) (s : State) (i : Nat) : Draws s (s.freeLimbs tab n i).2 := by
  induction n generalizing s i with
  | zero => exact draws_refl s
  | succ n ih => exact draws_trans (draws_freeWords ..) (ih ..)

theorem draws_seeds (n : Nat) (s : State) : Draws s (s.seeds n).2 := by
  induction n generalizing s with
  | zero => exact draws_refl s
  | succ n ih => exact draws_trans (draws_takeBytes ..) (ih ..)

theorem draws_freeDigits (tab : ModTable) (n : Nat) (s : State) : Draws s (s.freeDigits tab n).2 := by
  induction n generalizing s with
  | zero => exact draws_refl s
  | succ n ih => exact draws_trans (draws_freeLimbs ..) (ih ..)

theorem draws_bootRows (q nb n : Nat) (s : State) : Draws s (s.bootRows q nb n).2 := by
  induction n generalizing s with
  | zero => exact draws_refl s
  | succ n ih => exact draws_trans (draws_trans (draws_takeBytes ..) (draws_freeWords ..)) (ih ..)

theorem draws_component (s : State) (k : KeyHead) (g : GwSlot) (kind : Nat) : Draws s (s.component k g kind).2 := by
  unfold State.component
  split
  · exact draws_trans (draws_takeBytes s 32) (draws_skipRandoms ..)
  · split
    · exact draws_bootRows ..
    · exact draws_trans (draws_seeds ..) (draws_freeDigits ..)

theorem draws_components (k : KeyHead) (g : GwSlot) (l : List Nat) (s : State) : Draws s (s.components k g l).2 := by
  induction l generalizing s with
  | nil => exact draws_refl s
  | cons a r ih => exact draws_trans (draws_component ..) (ih ..)

end Sys2Proof.Machine
end

