-- ==== Sys2Proof/Laws/Exec.lean ====
section
/-! SUPPORT. exec on each command is its meaning; a step on a queue is exec of its front. -/

namespace Sys2Proof.Machine

@[simp] theorem step_cons (c : Instr) (rest : List Instr) (s : State) :
    step { s with pending := c :: rest } = exec c { s with pending := rest } := rfl

@[simp] theorem step_nil (s : State) : step { s with pending := [] } = .next { s with pending := [] } := rfl

section

variable (s : State)

@[simp] theorem exec_registerWrite (t fn off width value : Nat) (h : HostView) : exec (.registerWrite t fn off width value h) s = execRegisterWrite t fn off width value h s := rfl
@[simp] theorem exec_i3cRead (t off len : Nat) : exec (.i3cRead t off len) s = execI3cRead t off len s := rfl
@[simp] theorem exec_i3cWrite (t off value : Nat) : exec (.i3cWrite t off value) s = execI3cWrite t off value s := rfl
@[simp] theorem exec_ringEnable (t fn value : Nat) : exec (.ringEnable t fn value) s = execRingEnable t fn value s := rfl
@[simp] theorem exec_ringDisable (t fn value : Nat) : exec (.ringDisable t fn value) s = execRingDisable t fn value s := rfl
@[simp] theorem exec_ringDrained (t ten lring : Nat) : exec (.ringDrained t ten lring) s = execRingDrained t ten lring s := rfl
@[simp] theorem exec_kick (t fn off width : Nat) (h : HostView) : exec (.kick t fn off width h) s = execKick t fn off width h s := rfl
@[simp] theorem exec_ringPoll (t cls : Nat) (h : HostView) : exec (.ringPoll t cls h) s = execRingPoll t cls h s := rfl
@[simp] theorem exec_cmdSessionOpen (t ten lring seq : Nat) : exec (.cmdSessionOpen t ten lring seq) s = execCmdSessionOpen t ten lring seq s := rfl
@[simp] theorem exec_cmdSessionClose (t ten lring seq : Nat) : exec (.cmdSessionClose t ten lring seq) s = execCmdSessionClose t ten lring seq s := rfl
@[simp] theorem exec_cmdKeysetLoad (t ten lring seq : Nat) (h : HostView) : exec (.cmdKeysetLoad t ten lring seq h) s = execCmdKeysetLoad t ten lring seq h s := rfl
@[simp] theorem exec_cmdModelLoad (t ten lring seq : Nat) (h : HostView) : exec (.cmdModelLoad t ten lring seq h) s = execCmdModelLoad t ten lring seq h s := rfl
@[simp] theorem exec_cmdModelRetire (t ten lring seq : Nat) : exec (.cmdModelRetire t ten lring seq) s = execCmdModelRetire t ten lring seq s := rfl
@[simp] theorem exec_cmdEval (t ten lring seq : Nat) : exec (.cmdEval t ten lring seq) s = execCmdEval t ten lring seq s := rfl
@[simp] theorem exec_cmdRoundtripResume (t ten lring seq : Nat) (h : HostView) : exec (.cmdRoundtripResume t ten lring seq h) s = execCmdRoundtripResume t ten lring seq h s := rfl
@[simp] theorem exec_cmdEncodeEncrypt (t ten lring seq : Nat) (h : HostView) : exec (.cmdEncodeEncrypt t ten lring seq h) s = execCmdEncodeEncrypt t ten lring seq h s := rfl
@[simp] theorem exec_encodeAndEncrypt (t ten lring seq : Nat) (cells : List Nat) (h : HostView) : exec (.encodeAndEncrypt t ten lring seq cells h) s = execEncodeAndEncrypt t ten lring seq cells h s := rfl
@[simp] theorem exec_encryptPlaintext (t ten lring seq : Nat) (cells : List Nat) (h : HostView) : exec (.encryptPlaintext t ten lring seq cells h) s = execEncryptPlaintext t ten lring seq cells h s := rfl
@[simp] theorem exec_generateSecretKey (t ten lring seq : Nat) (cells : List Nat) (h : HostView) : exec (.generateSecretKey t ten lring seq cells h) s = execGenerateSecretKey t ten lring seq cells h s := rfl
@[simp] theorem exec_generateKeySet (t ten lring seq : Nat) (cells : List Nat) (h : HostView) : exec (.generateKeySet t ten lring seq cells h) s = execGenerateKeySet t ten lring seq cells h s := rfl
@[simp] theorem exec_cmdDecryptDecode (t ten lring seq : Nat) (h : HostView) : exec (.cmdDecryptDecode t ten lring seq h) s = execCmdDecryptDecode t ten lring seq h s := rfl
@[simp] theorem exec_decryptAndDecode (t ten lring seq : Nat) (cells : List Nat) (h : HostView) : exec (.decryptAndDecode t ten lring seq cells h) s = execDecryptAndDecode t ten lring seq cells h s := rfl
@[simp] theorem exec_decryptToPlaintext (t ten lring seq : Nat) (cells : List Nat) (h : HostView) : exec (.decryptToPlaintext t ten lring seq cells h) s = execDecryptToPlaintext t ten lring seq cells h s := rfl
@[simp] theorem exec_eraseSlot (t ten lring seq : Nat) : exec (.eraseSlot t ten lring seq) s = execEraseSlot t ten lring seq s := rfl
@[simp] theorem exec_cmdPke (t ten lring seq : Nat) (h : HostView) : exec (.cmdPke t ten lring seq h) s = execCmdPke t ten lring seq h s := rfl
@[simp] theorem exec_sign (t ten lring seq : Nat) (h : HostView) : exec (.sign t ten lring seq h) s = execSign t ten lring seq h s := rfl
@[simp] theorem exec_verify (t ten lring seq : Nat) (h : HostView) : exec (.verify t ten lring seq h) s = execVerify t ten lring seq h s := rfl
@[simp] theorem exec_keygen (t ten lring seq : Nat) (h : HostView) : exec (.keygen t ten lring seq h) s = execKeygen t ten lring seq h s := rfl
@[simp] theorem exec_derive (t ten lring seq : Nat) (h : HostView) : exec (.derive t ten lring seq h) s = execDerive t ten lring seq h s := rfl
@[simp] theorem exec_importKey (t ten lring seq : Nat) (h : HostView) : exec (.importKey t ten lring seq h) s = execImportKey t ten lring seq h s := rfl
@[simp] theorem exec_erase (t ten lring seq : Nat) : exec (.erase t ten lring seq) s = execErase t ten lring seq s := rfl
@[simp] theorem exec_publicKey (t ten lring seq : Nat) (h : HostView) : exec (.publicKey t ten lring seq h) s = execPublicKey t ten lring seq h s := rfl
@[simp] theorem exec_quote (t ten lring seq : Nat) (h : HostView) : exec (.quote t ten lring seq h) s = execQuote t ten lring seq h s := rfl
@[simp] theorem exec_ephRelease (t ten lring seq : Nat) : exec (.ephRelease t ten lring seq) s = execEphRelease t ten lring seq s := rfl
@[simp] theorem exec_getCert (t ten lring seq : Nat) (h : HostView) : exec (.getCert t ten lring seq h) s = execGetCert t ten lring seq h s := rfl
@[simp] theorem exec_cmdMeterRead (t ten lring seq : Nat) : exec (.cmdMeterRead t ten lring seq) s = execCmdMeterRead t ten lring seq s := rfl
@[simp] theorem exec_meterSnapshot (t ten lring seq : Nat) (h : HostView) : exec (.meterSnapshot t ten lring seq h) s = execMeterSnapshot t ten lring seq h s := rfl
@[simp] theorem exec_meterTake (t ten lring seq : Nat) (h : HostView) : exec (.meterTake t ten lring seq h) s = execMeterTake t ten lring seq h s := rfl
@[simp] theorem exec_cmdCopy (t ten lring seq : Nat) (h : HostView) : exec (.cmdCopy t ten lring seq h) s = execCmdCopy t ten lring seq h s := rfl
@[simp] theorem exec_cmdFence (t ten lring seq : Nat) : exec (.cmdFence t ten lring seq) s = execCmdFence t ten lring seq s := rfl
@[simp] theorem exec_heldCommandRelease (t : Nat) : exec (.heldCommandRelease t) s = execHeldCommandRelease t s := rfl
@[simp] theorem exec_entropyHoldExpire (t ten lring seq : Nat) : exec (.entropyHoldExpire t ten lring seq) s = execEntropyHoldExpire t ten lring seq s := rfl
@[simp] theorem exec_finalCompletionWrite (t ten lring : Nat) (h : HostView) : exec (.finalCompletionWrite t ten lring h) s = execFinalCompletionWrite t ten lring h s := rfl
@[simp] theorem exec_msixModTimer (t ten lring : Nat) : exec (.msixModTimer t ten lring) s = execMsixModTimer t ten lring s := rfl
@[simp] theorem exec_dispatch (t comb seg : Nat) (cells : List Nat) : exec (.dispatch t comb seg cells) s = execDispatch t comb seg cells s := rfl
@[simp] theorem exec_dispatchStarvation (t comb cls : Nat) : exec (.dispatchStarvation t comb cls) s = execDispatchStarvation t comb cls s := rfl
@[simp] theorem exec_segmentYield (t seg : Nat) : exec (.segmentYield t seg) s = execSegmentYield t seg s := rfl
@[simp] theorem exec_cellScrubComplete (t : Nat) (target : ScrubTarget) : exec (.cellScrubComplete t target) s = execCellScrubComplete t target s := rfl
@[simp] theorem exec_segmentStart (t seg : Nat) : exec (.segmentStart t seg) s = execSegmentStart t seg s := rfl
@[simp] theorem exec_segmentEnd (t seg : Nat) : exec (.segmentEnd t seg) s = execSegmentEnd t seg s := rfl
@[simp] theorem exec_rtOutboundWrite (t ten lring seq : Nat) (h : HostView) : exec (.rtOutboundWrite t ten lring seq h) s = execRtOutboundWrite t ten lring seq h s := rfl
@[simp] theorem exec_rtAttemptExpire (t ten lring seq : Nat) : exec (.rtAttemptExpire t ten lring seq) s = execRtAttemptExpire t ten lring seq s := rfl
@[simp] theorem exec_rtInterimDeadline (t ten lring seq : Nat) : exec (.rtInterimDeadline t ten lring seq) s = execRtInterimDeadline t ten lring seq s := rfl
@[simp] theorem exec_wait (t cell : Nat) : exec (.wait t cell) s = execWait t cell s := rfl
@[simp] theorem exec_post (t cell : Nat) : exec (.post t cell) s = execPost t cell s := rfl
@[simp] theorem exec_jump (t cell : Nat) : exec (.jump t cell) s = execJump t cell s := rfl
@[simp] theorem exec_loop (t cell : Nat) : exec (.loop t cell) s = execLoop t cell s := rfl
@[simp] theorem exec_handoff (t cell : Nat) : exec (.handoff t cell) s = execHandoff t cell s := rfl
@[simp] theorem exec_halt (t cell : Nat) : exec (.halt t cell) s = execHalt t cell s := rfl
@[simp] theorem exec_setmod (t cell : Nat) : exec (.setmod t cell) s = execSetmod t cell s := rfl
@[simp] theorem exec_setadv (t cell : Nat) : exec (.setadv t cell) s = execSetadv t cell s := rfl
@[simp] theorem exec_timerLoad (t cell : Nat) : exec (.timerLoad t cell) s = execTimerLoad t cell s := rfl
@[simp] theorem exec_timerStop (t cell : Nat) : exec (.timerStop t cell) s = execTimerStop t cell s := rfl
@[simp] theorem exec_latchArm (t cell : Nat) : exec (.latchArm t cell) s = execLatchArm t cell s := rfl
@[simp] theorem exec_latchDisarm (t cell : Nat) : exec (.latchDisarm t cell) s = execLatchDisarm t cell s := rfl
@[simp] theorem exec_moveDirect (t cell : Nat) : exec (.moveDirect t cell) s = execMoveDirect t cell s := rfl
@[simp] theorem exec_moveStencil (t cell : Nat) (h : HostView) : exec (.moveStencil t cell h) s = execMoveStencil t cell h s := rfl
@[simp] theorem exec_moveBankLoad (t cell : Nat) : exec (.moveBankLoad t cell) s = execMoveBankLoad t cell s := rfl
@[simp] theorem exec_winOpen (t cell : Nat) : exec (.winOpen t cell) s = execWinOpen t cell s := rfl
@[simp] theorem exec_winClose (t cell : Nat) : exec (.winClose t cell) s = execWinClose t cell s := rfl
@[simp] theorem exec_mact (t cell : Nat) : exec (.mact t cell) s = execMact t cell s := rfl
@[simp] theorem exec_macv (t cell : Nat) : exec (.macv t cell) s = execMacv t cell s := rfl
@[simp] theorem exec_nttf (t cell : Nat) : exec (.nttf t cell) s = execNttf t cell s := rfl
@[simp] theorem exec_ntti (t cell : Nat) : exec (.ntti t cell) s = execNtti t cell s := rfl
@[simp] theorem exec_tadd (t cell : Nat) : exec (.tadd t cell) s = execTadd t cell s := rfl
@[simp] theorem exec_tsub (t cell : Nat) : exec (.tsub t cell) s = execTsub t cell s := rfl
@[simp] theorem exec_tmul (t cell : Nat) : exec (.tmul t cell) s = execTmul t cell s := rfl
@[simp] theorem exec_tmulc (t cell : Nat) : exec (.tmulc t cell) s = execTmulc t cell s := rfl
@[simp] theorem exec_tperm (t cell : Nat) : exec (.tperm t cell) s = execTperm t cell s := rfl
@[simp] theorem exec_tdec (t cell : Nat) : exec (.tdec t cell) s = execTdec t cell s := rfl
@[simp] theorem exec_tresc (t cell : Nat) : exec (.tresc t cell) s = execTresc t cell s := rfl
@[simp] theorem exec_tred (t cell : Nat) : exec (.tred t cell) s = execTred t cell s := rfl
@[simp] theorem exec_skim (t cell : Nat) : exec (.skim t cell) s = execSkim t cell s := rfl
@[simp] theorem exec_noise (t cell : Nat) : exec (.noise t cell) s = execNoise t cell s := rfl
@[simp] theorem exec_instructionComplete (t cell flight : Nat) (h : HostView) : exec (.instructionComplete t cell flight h) s = execInstructionComplete t cell flight h s := rfl
@[simp] theorem exec_remoteWriteArrive (t cell flight : Nat) : exec (.remoteWriteArrive t cell flight) s = execRemoteWriteArrive t cell flight s := rfl
@[simp] theorem exec_tokenMoveArrive (t cell flight : Nat) : exec (.tokenMoveArrive t cell flight) s = execTokenMoveArrive t cell flight s := rfl
@[simp] theorem exec_remoteRead (t cell flight : Nat) : exec (.remoteRead t cell flight) s = execRemoteRead t cell flight s := rfl
@[simp] theorem exec_timerExpire (t cell timer : Nat) : exec (.timerExpire t cell timer) s = execTimerExpire t cell timer s := rfl
@[simp] theorem exec_waggleStepEdge (t series : Nat) : exec (.waggleStepEdge t series) s = execWaggleStepEdge t series s := rfl
@[simp] theorem exec_segmentWatchdog (t seg : Nat) : exec (.segmentWatchdog t seg) s = execSegmentWatchdog t seg s := rfl
@[simp] theorem exec_foragerTileDeliver (t seg stream dest : Nat) (h : HostView) : exec (.foragerTileDeliver t seg stream dest h) s = execForagerTileDeliver t seg stream dest h s := rfl
@[simp] theorem exec_multicastGranuleFetch (t seg stream : Nat) (h : HostView) : exec (.multicastGranuleFetch t seg stream h) s = execMulticastGranuleFetch t seg stream h s := rfl
@[simp] theorem exec_relayHop (t seg stream head hop : Nat) (h : HostView) : exec (.relayHop t seg stream head hop h) s = execRelayHop t seg stream head hop h s := rfl
@[simp] theorem exec_paceInterval (t : Nat) (meas : List CombMeasure) (inputW : Nat) : exec (.paceInterval t meas inputW) s = execPaceInterval t meas inputW s := rfl
@[simp] theorem exec_c0HoldExpire (t comb : Nat) : exec (.c0HoldExpire t comb) s = execC0HoldExpire t comb s := rfl
@[simp] theorem exec_thermalSample (t : Nat) (tj : Junctions) : exec (.thermalSample t tj) s = execThermalSample t tj s := rfl
@[simp] theorem exec_thermalEmergencyEnd (t : Nat) : exec (.thermalEmergencyEnd t) s = execThermalEmergencyEnd t s := rfl
@[simp] theorem exec_combThermalRecover (t comb : Nat) : exec (.combThermalRecover t comb) s = execCombThermalRecover t comb s := rfl
@[simp] theorem exec_thermalTrip (t die : Nat) : exec (.thermalTrip t die) s = execThermalTrip t die s := rfl
@[simp] theorem exec_combRestEntry (t comb : Nat) : exec (.combRestEntry t comb) s = execCombRestEntry t comb s := rfl
@[simp] theorem exec_combFault (t comb source cell : Nat) : exec (.combFault t comb source cell) s = execCombFault t comb source cell s := rfl
@[simp] theorem exec_heartbeatTimeout (t comb : Nat) : exec (.heartbeatTimeout t comb) s = execHeartbeatTimeout t comb s := rfl
@[simp] theorem exec_combDrainComplete (t comb : Nat) : exec (.combDrainComplete t comb) s = execCombDrainComplete t comb s := rfl
@[simp] theorem exec_combResetComplete (t comb : Nat) (testFail : List (Nat × Nat × Nat)) : exec (.combResetComplete t comb testFail) s = execCombResetComplete t comb testFail s := rfl
@[simp] theorem exec_dramCorrected (t dpa : Nat) : exec (.dramCorrected t dpa) s = execDramCorrected t dpa s := rfl
@[simp] theorem exec_dramUncorrectable (t : Nat) (hit : DramHit) : exec (.dramUncorrectable t hit) s = execDramUncorrectable t hit s := rfl
@[simp] theorem exec_shelfUncorrectable (t comb shelf : Nat) : exec (.shelfUncorrectable t comb shelf) s = execShelfUncorrectable t comb shelf s := rfl
@[simp] theorem exec_patrolScrub (t : Nat) (bad : List Nat) : exec (.patrolScrub t bad) s = execPatrolScrub t bad s := rfl
@[simp] theorem exec_flitReplay (t bundle dir : Nat) : exec (.flitReplay t bundle dir) s = execFlitReplay t bundle dir s := rfl
@[simp] theorem exec_laneRetrain (t bundle dir : Nat) : exec (.laneRetrain t bundle dir) s = execLaneRetrain t bundle dir s := rfl
@[simp] theorem exec_retrainTestDone (t bundle dir failMask : Nat) : exec (.retrainTestDone t bundle dir failMask) s = execRetrainTestDone t bundle dir failMask s := rfl
@[simp] theorem exec_entropySample (t : Nat) (sample : Byte) : exec (.entropySample t sample) s = execEntropySample t sample s := rfl
@[simp] theorem exec_drbgSeeded (t : Nat) : exec (.drbgSeeded t) s = execDrbgSeeded t s := rfl
@[simp] theorem exec_drbgReseed (t : Nat) : exec (.drbgReseed t) s = execDrbgReseed t s := rfl
@[simp] theorem exec_noiseReseed (t comb : Nat) : exec (.noiseReseed t comb) s = execNoiseReseed t comb s := rfl
@[simp] theorem exec_ephKeyExpire (t ten ephId : Nat) : exec (.ephKeyExpire t ten ephId) s = execEphKeyExpire t ten ephId s := rfl
@[simp] theorem exec_meterMsTick (t : Nat) : exec (.meterMsTick t) s = execMeterMsTick t s := rfl
@[simp] theorem exec_epochClose (t : Nat) : exec (.epochClose t) s = execEpochClose t s := rfl
@[simp] theorem exec_meterRecordSign (t : Nat) : exec (.meterRecordSign t) s = execMeterRecordSign t s := rfl
@[simp] theorem exec_wallClockWrite (t fn off width value : Nat) : exec (.wallClockWrite t fn off width value) s = execWallClockWrite t fn off width value s := rfl
@[simp] theorem exec_tnWrite (t fn off width value : Nat) : exec (.tnWrite t fn off width value) s = execTnWrite t fn off width value s := rfl
@[simp] theorem exec_swarmConfigLoad (t : Nat) (h : HostView) : exec (.swarmConfigLoad t h) s = execSwarmConfigLoad t h s := rfl
@[simp] theorem exec_linkLightDetect (t port : Nat) : exec (.linkLightDetect t port) s = execLinkLightDetect t port s := rfl
@[simp] theorem exec_laneLock (t port : Nat) : exec (.laneLock t port) s = execLaneLock t port s := rfl
@[simp] theorem exec_trainingTimeout (t port : Nat) : exec (.trainingTimeout t port) s = execTrainingTimeout t port s := rfl
@[simp] theorem exec_attestationReceive (t port : Nat) (descriptor certs sigs : List Byte) : exec (.attestationReceive t port descriptor certs sigs) s = execAttestationReceive t port descriptor certs sigs s := rfl
@[simp] theorem exec_attestTimeout (t port : Nat) : exec (.attestTimeout t port) s = execAttestTimeout t port s := rfl
@[simp] theorem exec_keyConfirmReceive (t port : Nat) (frame : List Byte) : exec (.keyConfirmReceive t port frame) s = execKeyConfirmReceive t port frame s := rfl
@[simp] theorem exec_keyConfirmTimeout (t port : Nat) : exec (.keyConfirmTimeout t port) s = execKeyConfirmTimeout t port s := rfl
@[simp] theorem exec_lightLoss (t port : Nat) : exec (.lightLoss t port) s = execLightLoss t port s := rfl
@[simp] theorem exec_quarantineReattest (t port : Nat) : exec (.quarantineReattest t port) s = execQuarantineReattest t port s := rfl
@[simp] theorem exec_linkFrameSend (t port : Nat) : exec (.linkFrameSend t port) s = execLinkFrameSend t port s := rfl
@[simp] theorem exec_linkFrameReceive (t port : Nat) (frame : List Byte) : exec (.linkFrameReceive t port frame) s = execLinkFrameReceive t port frame s := rfl
@[simp] theorem exec_tagFailureLimit (t port : Nat) : exec (.tagFailureLimit t port) s = execTagFailureLimit t port s := rfl
@[simp] theorem exec_rekeyTrigger (t port : Nat) : exec (.rekeyTrigger t port) s = execRekeyTrigger t port s := rfl
@[simp] theorem exec_rekeyRetry (t port : Nat) : exec (.rekeyRetry t port) s = execRekeyRetry t port s := rfl
@[simp] theorem exec_keyExhausted (t port : Nat) : exec (.keyExhausted t port) s = execKeyExhausted t port s := rfl
@[simp] theorem exec_timeExchange (t port : Nat) (f : TimeFrame) : exec (.timeExchange t port f) s = execTimeExchange t port f s := rfl
@[simp] theorem exec_rootSelfElect (t : Nat) : exec (.rootSelfElect t) s = execRootSelfElect t s := rfl
@[simp] theorem exec_syncLost (t : Nat) : exec (.syncLost t) s = execSyncLost t s := rfl
@[simp] theorem exec_fabricMessageLand (t msg : Nat) : exec (.fabricMessageLand t msg) s = execFabricMessageLand t msg s := rfl
@[simp] theorem exec_fabricAckReceive (t ten lring seq edge : Nat) : exec (.fabricAckReceive t ten lring seq edge) s = execFabricAckReceive t ten lring seq edge s := rfl
@[simp] theorem exec_fabricRecvStart (t ten lring seq : Nat) : exec (.fabricRecvStart t ten lring seq) s = execFabricRecvStart t ten lring seq s := rfl
@[simp] theorem exec_fabricDeadline (t ten lring seq : Nat) : exec (.fabricDeadline t ten lring seq) s = execFabricDeadline t ten lring seq s := rfl
@[simp] theorem exec_routeFailureNotice (t ten lring seq edge port device : Nat) (mismatch : Bool) : exec (.routeFailureNotice t ten lring seq edge port device mismatch) s = execRouteFailureNotice t ten lring seq edge port device mismatch s := rfl
@[simp] theorem exec_coldStart (t : Nat) : exec (.coldStart t) s = execColdStart t s := rfl
@[simp] theorem exec_startLaneTestDone (t : Nat) (testFail : List (Nat × Nat × Nat)) : exec (.startLaneTestDone t testFail) s = execStartLaneTestDone t testFail s := rfl
@[simp] theorem exec_dramTrainingDone (t : Nat) (ok : Bool) : exec (.dramTrainingDone t ok) s = execDramTrainingDone t ok s := rfl
@[simp] theorem exec_startScrubDone (t : Nat) : exec (.startScrubDone t) s = execStartScrubDone t s := rfl
@[simp] theorem exec_warmReset (t : Nat) (by_ : PcieReset) : exec (.warmReset t by_) s = execWarmReset t by_ s := rfl
@[simp] theorem exec_pwResetWarm (t : Nat) (drain : Bool) : exec (.pwResetWarm t drain) s = execPwResetWarm t drain s := rfl
@[simp] theorem exec_drainTimeout (t : Nat) : exec (.drainTimeout t) s = execDrainTimeout t s := rfl
@[simp] theorem exec_functionLevelReset (t ten : Nat) (pcie drain : Bool) : exec (.functionLevelReset t ten pcie drain) s = execFunctionLevelReset t ten pcie drain s := rfl
@[simp] theorem exec_flrScrubDone (t ten : Nat) : exec (.flrScrubDone t ten) s = execFlrScrubDone t ten s := rfl
@[simp] theorem exec_pwResetPort (t port : Nat) : exec (.pwResetPort t port) s = execPwResetPort t port s := rfl
@[simp] theorem exec_d3hotEntry (t : Nat) : exec (.d3hotEntry t) s = execD3hotEntry t s := rfl
@[simp] theorem exec_deepRestGate (t : Nat) : exec (.deepRestGate t) s = execDeepRestGate t s := rfl
@[simp] theorem exec_d0Return (t : Nat) (testFail : List (Nat × Nat × Nat)) : exec (.d0Return t testFail) s = execD0Return t testFail s := rfl
@[simp] theorem exec_vfPowerState (t ten : Nat) (d3hot : Bool) : exec (.vfPowerState t ten d3hot) s = execVfPowerState t ten d3hot s := rfl
@[simp] theorem exec_lowInputSet (t : Nat) : exec (.lowInputSet t) s = execLowInputSet t s := rfl
@[simp] theorem exec_lowInputClear (t : Nat) : exec (.lowInputClear t) s = execLowInputClear t s := rfl
@[simp] theorem exec_powerFail (t : Nat) : exec (.powerFail t) s = execPowerFail t s := rfl
@[simp] theorem exec_holdupMeasure (t millijoule : Nat) : exec (.holdupMeasure t millijoule) s = execHoldupMeasure t millijoule s := rfl
@[simp] theorem exec_fwStart (t value : Nat) (h : HostView) : exec (.fwStart t value h) s = execFwStart t value h s := rfl
@[simp] theorem exec_fwActivate (t : Nat) : exec (.fwActivate t) s = execFwActivate t s := rfl
@[simp] theorem exec_fwCommit (t : Nat) : exec (.fwCommit t) s = execFwCommit t s := rfl
@[simp] theorem exec_fwRollback (t : Nat) : exec (.fwRollback t) s = execFwRollback t s := rfl
@[simp] theorem exec_fwAbort (t : Nat) : exec (.fwAbort t) s = execFwAbort t s := rfl
@[simp] theorem exec_flashCommitDone (t : Nat) : exec (.flashCommitDone t) s = execFlashCommitDone t s := rfl
@[simp] theorem exec_updateResume (t : Nat) : exec (.updateResume t) s = execUpdateResume t s := rfl
@[simp] theorem exec_trainingRetry (t port : Nat) : exec (.trainingRetry t port) s = execTrainingRetry t port s := rfl
@[simp] theorem exec_perstDeassert (t : Nat) : exec (.perstDeassert t) s = execPerstDeassert t s := rfl
@[simp] theorem exec_commandFinish (t ten lring seq : Nat) (h : HostView) : exec (.commandFinish t ten lring seq h) s = execCommandFinish t ten lring seq h s := rfl
@[simp] theorem exec_imageCheckDone (t : Nat) : exec (.imageCheckDone t) s = execImageCheckDone t s := rfl
@[simp] theorem exec_readBackDone (t : Nat) (same : Bool) : exec (.readBackDone t same) s = execReadBackDone t same s := rfl
@[simp] theorem exec_freedPageScrubDone (t : Nat) : exec (.freedPageScrubDone t) s = execFreedPageScrubDone t s := rfl

end

end Sys2Proof.Machine
end

