-- ==== Sys2Proof/Laws/Start.lean ====
section
/-! SUPPORT. Laws of tryStart: where a command waits, is refused, is held, or starts. -/

namespace Sys2Proof.Machine

open Sys2Proof.Safety

variable {s : State} {ten lring seq op : Nat} {pos : State → Nat} {check : State → Cmd → Option Err}
  {needs : State → Cmd → Bool} {start : State → Cmd → State} {c : Cmd}

/-- Nothing but time differs for one that waits. -/
theorem waits_advance {t : Nat} (h : Waits s ten lring seq op c) : Waits (s.advance t) ten lring seq op c := h

theorem tryStart_waits (h : Waits s ten lring seq op c) :
    s.tryStart ten lring seq op pos check needs start =
      match (s.ring ten lring).afterGate c with
      | .wait => s
      | .fail e => s.finish ten lring seq e
      | .go =>
        match (commonFault c.entry c.seq).orElse fun _ => check s c with
        | some e => s.finish ten lring seq e
        | none =>
          if needs s c && !s.canServe then s.updCmd ten lring seq fun c => { c with phase := .held s.now }
          else if (s.ring ten lring).freePositions < pos s then s.updRing ten lring fun r => { r with cplFull := true }
          else
            let s := s.updRing ten lring fun r => { r with cplFull := false, reserved := r.reserved + pos s }
            let s := s.updCmd ten lring seq fun c => { c with phase := .started, startAt := some s.now, reserved := pos s }
            start s c := by
  obtain ⟨hc, ho, hp, hl, hs, hf, -⟩ := h
  unfold State.tryStart
  simp only [hc]
  rw [if_neg (by simp [ho, hp, hl, hs, hf])] <;> rfl

theorem tryStart_gateWait (h : Waits s ten lring seq op c) (hg : (s.ring ten lring).afterGate c = .wait) :
    s.tryStart ten lring seq op pos check needs start = s := by
  rw [tryStart_waits h, hg]

theorem tryStart_gateFail {e : Err} (h : Waits s ten lring seq op c) (hg : (s.ring ten lring).afterGate c = .fail e) :
    s.tryStart ten lring seq op pos check needs start = s.finish ten lring seq e := by
  rw [tryStart_waits h, hg]

theorem tryStart_refused {e : Err} (h : Waits s ten lring seq op c) (hg : (s.ring ten lring).afterGate c = .go)
    (he : ((commonFault c.entry c.seq).orElse fun _ => check s c) = some e) :
    s.tryStart ten lring seq op pos check needs start = s.finish ten lring seq e := by
  rw [tryStart_waits h, hg]; simp only [he]

theorem tryStart_held (h : Waits s ten lring seq op c) (hg : (s.ring ten lring).afterGate c = .go)
    (he : ((commonFault c.entry c.seq).orElse fun _ => check s c) = none) (hn : needs s c = true) (hc : s.canServe = false) :
    s.tryStart ten lring seq op pos check needs start = s.updCmd ten lring seq fun c => { c with phase := .held s.now } := by
  rw [tryStart_waits h, hg]; simp only [he]; simp [hn, hc]

theorem tryStart_full (h : Waits s ten lring seq op c) (hg : (s.ring ten lring).afterGate c = .go)
    (he : ((commonFault c.entry c.seq).orElse fun _ => check s c) = none) (hn : needs s c = false ∨ s.canServe = true)
    (hp : (s.ring ten lring).freePositions < pos s) :
    s.tryStart ten lring seq op pos check needs start = s.updRing ten lring fun r => { r with cplFull := true } := by
  rw [tryStart_waits h, hg]; simp only [he]; rcases hn with hn | hn <;> simp [hn, hp]

theorem tryStart_go {n : Nat} (h : Startable s ten lring seq op n c) (hn : pos s = n)
    (hp : ∀ f, pos (s.updRing ten lring f) = n) (hc : check s c = none) (hd : needs s c = false ∨ s.canServe = true) :
    s.tryStart ten lring seq op pos check needs start =
      start ((s.updRing ten lring fun r => { r with cplFull := false, reserved := r.reserved + n }).updCmd ten lring seq fun c =>
        { c with phase := .started, startAt := some s.now, reserved := n }) c := by
  obtain ⟨hw, hg, hf, hfree⟩ := h
  rw [tryStart_waits hw, hg]
  have hnot : ¬ (s.ring ten lring).freePositions < n := by omega
  have he : ((commonFault c.entry c.seq).orElse fun _ => check s c) = none := by rw [hf]; exact hc
  simp only [he]
  rcases hd with hd | hd <;> simp [hd, hnot, hn, hp]

/-- A command of one position starts at waggle time t. -/
theorem tryStart_begun {t : Nat} (h : Startable s ten lring seq op 1 c) (hc : check (s.advance t) c = none)
    (hd : needs (s.advance t) c = false ∨ s.canServe = true) :
    (s.advance t).tryStart ten lring seq op onePosition check needs start = start (begun s t ten lring seq 1) c :=
  tryStart_go (s := s.advance t) h rfl (fun _ => rfl) hc hd

/-- The command as it stands once started. -/
theorem cmd_begun (s : State) (t ten lring seq n : Nat) :
    (begun s t ten lring seq n).cmd? ten lring seq =
      (s.cmd? ten lring seq).map fun c => { c with phase := .started, startAt := some (max s.now t), reserved := n } := by
  unfold begun
  rw [State.cmd_updCmd_self]
  · congr 1
    unfold State.cmd?
    rw [State.ring_updRing_self]
    rfl
  · intro _; rfl

theorem onStarted_running {f : State → Cmd → State} (h : Running s ten lring seq op c) :
    s.onStarted ten lring seq op f = f s c := by
  obtain ⟨hc, ho, hp, hr⟩ := h
  unfold State.onStarted
  simp [hc, ho, hp, hr]

theorem cmd_finish_some {e : Err} (h : s.cmd? ten lring seq = some c) :
    (s.finish ten lring seq e).cmd? ten lring seq = some (finished c e s.now) := by
  rw [State.cmd_finish, h]; rfl

theorem cmd_done_some {e : Err} (h : s.cmd? ten lring seq = some c) :
    (s.done ten lring seq e).cmd? ten lring seq = some (ended c e) := by
  rw [State.cmd_done, h]; rfl

end Sys2Proof.Machine
end

