-- ==== Sys2Proof/Laws/Steady.lean ====
section
/-! SUPPORT. What no operation of the device breaks: the canonical form of DRAM and the fuses. One lemma for every operation on State: from a state that is steady on from s0, it leads to a state that is. -/

namespace Sys2Proof.Laws

open Sys2Proof Sys2Proof.Machine

/-- From a to b, the canonical form of DRAM is kept and the fuses stand. -/
structure Steady (a b : State) : Prop where
  mem : Memory.wf a.dram.cells = true → Memory.wf b.dram.cells = true
  fuses : b.fuses = a.fuses

theorem Steady.refl (s : State) : Steady s s := ⟨id, rfl⟩

theorem Steady.trans {a b c : State} (h : Steady a b) (g : Steady b c) : Steady a c := ⟨fun w => g.1 (h.1 w), g.2.trans h.2⟩

/-- A state that differs from e neither in DRAM nor in the fuses. -/
theorem Steady.same {s e b : State} (h : Steady s e) (hd : b.dram = e.dram) (hf : b.fuses = e.fuses) : Steady s b :=
  ⟨fun w => by rw [hd]; exact h.1 w, hf.trans h.2⟩

theorem Steady.foldl {s0 : State} {α : Type} {F : State → α → State} {l : List α} {s : State} (hF : ∀ z a, Steady z (F z a)) (h : Steady s0 s) :
    Steady s0 (l.foldl F s) := by
  induction l generalizing s with
  | nil => exact h
  | cons a r ih => exact ih (h.trans (hF _ _))

theorem Steady.ite {s a b : State} {p : Prop} [Decidable p] (h : Steady s a) (g : Steady s b) : Steady s (if p then a else b) := by
  split <;> assumption

theorem Steady.ite_fst {α : Type} {s : State} {a b : State × α} {p : Prop} [Decidable p] (h : Steady s a.1) (g : Steady s b.1) : Steady s (if p then a else b).1 := by
  split <;> assumption

theorem Steady.ite_snd {α : Type} {s : State} {a b : α × State} {p : Prop} [Decidable p] (h : Steady s a.2) (g : Steady s b.2) : Steady s (if p then a else b).2 := by
  split <;> assumption

theorem Steady.elim {α : Type} {s a : State} {f : α → State} {o : Option α} (h : Steady s a) (hf : ∀ x, Steady s (f x)) : Steady s (o.elim a f) := by
  cases o
  · exact h
  · exact hf _

theorem Steady.onlyIf {s0 s : State} {b : Bool} {f : State → State} (h : Steady s0 s) (hf : Steady s0 (f s)) : Steady s0 (s.onlyIf b f) := by
  unfold State.onlyIf; split <;> assumption

theorem Steady.now (s : State) (t : Nat) : Steady s (s.advance t) := ⟨id, rfl⟩

/-- A step whose effect is steady. -/
theorem Steady.run {t : Nat} {s s' : State} {f : State → State} (hf : Steady s (f (s.advance t))) (h : run t s f = .next s') : Steady s s' := by
  unfold Sys2Proof.Machine.run at h
  split at h
  · cases h; exact ⟨id, rfl⟩
  · cases h; exact ⟨hf.1, hf.2⟩

/-- A state written out with the DRAM and the fuses of e. -/
theorem steady_mk {s e : State} {x_pending x_now x_free x_draws x_nextId x_fetches x_out x_settings x_power x_elec x_lanes x_waggle x_rgTen x_tnSel x_pollAt x_msixHeld x_tenants x_rings x_combs x_cells x_segs x_entropy x_log x_meters x_sec x_fabric x_fw} : Steady s (State.mk x_pending x_now x_free x_draws x_nextId x_fetches x_out e.fuses x_settings x_power x_elec x_lanes x_waggle x_rgTen x_tnSel x_pollAt x_msixHeld x_tenants x_rings e.dram x_combs x_cells x_segs x_entropy x_log x_meters x_sec x_fabric x_fw) ↔ Steady s e :=
  ⟨fun h => ⟨h.1, h.2⟩, fun h => ⟨h.1, h.2⟩⟩

theorem steady_advance {s0 s : State} {t : Nat} (h0 : Steady s0 s) : Steady s0 (State.advance s t) := ⟨h0.1, h0.2⟩

theorem steady_takeId {s0 s : State} (h0 : Steady s0 s) : Steady s0 (State.takeId s).2 := ⟨h0.1, h0.2⟩

theorem steady_takeFree {s0 s : State} (h0 : Steady s0 s) : Steady s0 (State.takeFree s).2 := ⟨h0.1, h0.2⟩

theorem steady_skipFrees {s0 s : State} {n : Nat} (h0 : Steady s0 s) : Steady s0 (State.skipFrees s n) := ⟨h0.1, h0.2⟩

theorem steady_skipRandoms {s0 s : State} {n : Nat} (h0 : Steady s0 s) : Steady s0 (State.skipRandoms s n) := ⟨h0.1, h0.2⟩

theorem steady_takeBytes {s0 s : State} {n : Nat} (h0 : Steady s0 s) : Steady s0 (State.takeBytes s n).2 := ⟨h0.1, h0.2⟩

theorem steady_emit {s0 s : State} {o : Out} (h0 : Steady s0 s) : Steady s0 (State.emit s o) := ⟨h0.1, h0.2⟩

theorem steady_updTen {s0 s : State} {k : Nat} {f : Tenant → Tenant} (h0 : Steady s0 s) : Steady s0 (State.updTen s k f) := ⟨h0.1, h0.2⟩

theorem steady_updComb {s0 s : State} {c : Nat} {f : Comb → Comb} (h0 : Steady s0 s) : Steady s0 (State.updComb s c f) := ⟨h0.1, h0.2⟩

theorem steady_updCell {s0 s : State} {c : Nat} {f : Cell → Cell} (h0 : Steady s0 s) : Steady s0 (State.updCell s c f) := ⟨h0.1, h0.2⟩

theorem steady_updDir {s0 s : State} {b d : Nat} {f : Direction → Direction} (h0 : Steady s0 s) : Steady s0 (State.updDir s b d f) := ⟨h0.1, h0.2⟩

theorem steady_updPort {s0 s : State} {p : Nat} {f : Port → Port} (h0 : Steady s0 s) : Steady s0 (State.updPort s p f) := ⟨h0.1, h0.2⟩

theorem steady_updRing {s0 s : State} {ten lring : Nat} {f : Ring → Ring} (h0 : Steady s0 s) : Steady s0 (State.updRing s ten lring f) := ⟨h0.1, h0.2⟩

theorem steady_updCmd {s0 s : State} {ten lring seq : Nat} {f : Cmd → Cmd} (h0 : Steady s0 s) : Steady s0 (State.updCmd s ten lring seq f) := steady_updRing h0

theorem steady_updEval {s0 s : State} {ten lring seq : Nat} {f : Eval → Eval} (h0 : Steady s0 s) : Steady s0 (State.updEval s ten lring seq f) := steady_updCmd h0

theorem steady_updSeg {s0 s : State} {id : Nat} {f : SegRun → SegRun} (h0 : Steady s0 s) : Steady s0 (State.updSeg s id f) := ⟨h0.1, h0.2⟩

theorem steady_dropSeg {s0 s : State} {id : Nat} (h0 : Steady s0 s) : Steady s0 (State.dropSeg s id) := ⟨h0.1, h0.2⟩

theorem steady_logBoth {s0 s : State} {type flags ten : Nat} {also : Option Nat} {source arg0 arg1 : Nat} (h0 : Steady s0 s) : Steady s0 (State.logBoth s type flags ten also source arg0 arg1) := by
  unfold State.logBoth
  with_reducible repeat' first | assumption | apply steady_updTen | simp only [steady_mk] | split

theorem steady_logRec {s0 s : State} {type flags ten source arg0 arg1 : Nat} (h0 : Steady s0 s) : Steady s0 (State.logRec s type flags ten source arg0 arg1) := steady_logBoth h0

theorem steady_logDropped {s0 s : State} {fn off value : Nat} (h0 : Steady s0 s) : Steady s0 (State.logDropped s fn off value) := steady_logRec h0

theorem steady_hostPieces {s0 s : State} {h : HostView} {fn iova : Nat} {bytes : List Byte} {l : List (Nat × Nat)} (h0 : Steady s0 s) : Steady s0 (State.hostPieces s h fn iova bytes l).1 := by
  induction l generalizing s with
  | nil => unfold State.hostPieces; exact h0
  | cons a r ih =>
    unfold State.hostPieces
    try dsimp only
    with_reducible repeat' first | assumption | apply ih | apply steady_emit | split

theorem steady_hostWrite {s0 s : State} {h : HostView} {fn iova : Nat} {bytes : List Byte} (h0 : Steady s0 s) : Steady s0 (State.hostWrite s h fn iova bytes).1 := steady_hostPieces h0

theorem steady_alloc {s0 s : State} {ten : Nat} {kind : ObjKind} {home : Option Nat} {bytes id : Nat} {r : State} (h : s.alloc ten kind home bytes = .ok (id, r)) (h0 : Steady s0 s) : Steady s0 r := by
  unfold State.alloc at h
  split at h
  · cases h
  · split at h
    · cases h
    · cases h; exact ⟨h0.1, h0.2⟩

theorem steady_freeObj {s0 s : State} {id : Nat} (h0 : Steady s0 s) : Steady s0 (s.freeObj id) :=
  ⟨fun w => by rw [State.freeObj, Dram.free_cells]; exact h0.1 w, h0.2⟩

theorem steady_writeObj {s0 s : State} {id off : Nat} {bytes : List Byte} (h0 : Steady s0 s) : Steady s0 (s.writeObj id off bytes) := by
  unfold State.writeObj
  split
  · exact h0
  · exact ⟨fun w => Dram.wf_write _ _ (h0.1 w), h0.2⟩

theorem steady_charge {s0 s : State} {ten m n : Nat} (h0 : Steady s0 s) : Steady s0 (State.charge s ten m n) := by
  unfold State.charge
  with_reducible repeat' first | assumption | apply Steady.ite | apply steady_updTen | simp only [steady_mk]

theorem steady_finish {s0 s : State} {ten lring seq : Nat} {e : Err} (h0 : Steady s0 s) : Steady s0 (State.finish s ten lring seq e) := steady_updCmd h0

theorem steady_finishLive {s0 s : State} {ten lring seq : Nat} {e : Err} (h0 : Steady s0 s) : Steady s0 (State.finishLive s ten lring seq e) := by
  unfold State.finishLive
  with_reducible repeat' first | assumption | apply steady_finish | split

theorem steady_chargeOps {s0 s : State} {ten lring seq n : Nat} (h0 : Steady s0 s) : Steady s0 (State.chargeOps s ten lring seq n) := by
  unfold State.chargeOps
  with_reducible repeat' first | assumption | apply steady_updCmd | apply steady_charge

theorem steady_tryStart {s0 s : State} {ten lring seq op : Nat} {positions : State → Nat} {check : State → Cmd → Option Err} {needs : State → Cmd → Bool} {start : State → Cmd → State} (h_start : ∀ z x1, Steady z (start z x1)) (h0 : Steady s0 s) : Steady s0 (State.tryStart s ten lring seq op positions check needs start) := by
  unfold State.tryStart
  dsimp only
  with_reducible repeat' first | assumption | apply steady_updRing | apply steady_updCmd | apply steady_finish | apply Steady.trans _ (h_start ..) | split

theorem steady_onStarted {s0 s : State} {ten lring seq op : Nat} {f : State → Cmd → State} (h_f : ∀ z x1, Steady z (f z x1)) (h0 : Steady s0 s) : Steady s0 (State.onStarted s ten lring seq op f) := by
  unfold State.onStarted
  with_reducible repeat' first | assumption | apply Steady.trans _ (h_f ..) | split

theorem steady_done {s0 s : State} {ten lring seq : Nat} {e : Err} (h0 : Steady s0 s) : Steady s0 (State.done s ten lring seq e) := steady_updCmd h0

theorem steady_doneWriting {s0 s : State} {h : HostView} {ten lring seq iova : Nat} {bytes : List Byte} {e : Err} (h0 : Steady s0 s) : Steady s0 (State.doneWriting s h ten lring seq iova bytes e) := by
  unfold State.doneWriting
  with_reducible repeat' first | assumption | apply Steady.ite | apply steady_emit | apply steady_hostWrite | apply steady_done

theorem steady_interrupt {s0 s : State} {ten vector : Nat} (h0 : Steady s0 s) : Steady s0 (State.interrupt s ten vector) := by
  unfold State.interrupt
  with_reducible repeat' first | assumption | apply Steady.ite | apply steady_emit | simp only [steady_mk]

theorem steady_eligible {s0 s : State} {ten lring : Nat} (h0 : Steady s0 s) : Steady s0 (State.eligible s ten lring) := by
  unfold State.eligible
  with_reducible repeat' first | assumption | apply Steady.ite | apply steady_updRing | apply steady_interrupt

theorem steady_ringError {s0 s : State} {ten lring iova tail : Nat} (h0 : Steady s0 s) : Steady s0 (State.ringError s ten lring iova tail) := by
  unfold State.ringError
  with_reducible repeat' first | assumption | apply steady_updRing | apply steady_logRec

theorem steady_freeGen {s0 s : State} {ten model gen : Nat} (h0 : Steady s0 s) : Steady s0 (State.freeGen s ten model gen) := by
  unfold State.freeGen
  with_reducible repeat' first | assumption | apply steady_updTen | apply steady_updComb | apply steady_freeObj | split

theorem steady_sweepModel {s0 s : State} {ten model : Nat} (h0 : Steady s0 s) : Steady s0 (State.sweepModel s ten model) := by
  unfold State.sweepModel
  dsimp only
  with_reducible repeat' first | exact Steady.refl _ | assumption | intro _ | apply steady_updTen | apply steady_freeGen | apply Steady.foldl | split

theorem steady_sweepModels {s0 s : State} {ten : Nat} (h0 : Steady s0 s) : Steady s0 (State.sweepModels s ten) := by
  unfold State.sweepModels
  with_reducible repeat' first | exact Steady.refl _ | assumption | intro _ | apply steady_sweepModel | apply Steady.foldl

theorem steady_retireCmd {s0 s : State} {ten lring : Nat} {c : Cmd} {written : Bool} (h0 : Steady s0 s) : Steady s0 (State.retireCmd s ten lring c written) := by
  unfold State.retireCmd
  with_reducible repeat' first | assumption | apply Steady.ite | apply steady_updRing | apply steady_sweepModels | simp only [steady_mk]

theorem steady_enableRing {s0 s : State} {ten lring : Nat} (h0 : Steady s0 s) : Steady s0 (State.enableRing s ten lring) := steady_updRing h0

theorem steady_cancelUnstarted {s0 s : State} {ten lring st : Nat} (h0 : Steady s0 s) : Steady s0 (State.cancelUnstarted s ten lring st) := steady_updRing h0

theorem steady_disableRing {s0 s : State} {ten lring : Nat} (h0 : Steady s0 s) : Steady s0 (State.disableRing s ten lring) := by
  unfold State.disableRing
  with_reducible repeat' first | assumption | apply Steady.ite | apply steady_updRing | apply steady_cancelUnstarted

theorem steady_writeRingCfg {s0 s : State} {ten lring v : Nat} (h0 : Steady s0 s) : Steady s0 (State.writeRingCfg s ten lring v) := by
  unfold State.writeRingCfg
  with_reducible repeat' first | assumption | apply Steady.ite | apply steady_updRing | apply steady_enableRing | apply steady_disableRing

theorem steady_takeTail {s0 s : State} {ten lring v : Nat} (h0 : Steady s0 s) : Steady s0 (State.takeTail s ten lring v) := by
  unfold State.takeTail
  with_reducible repeat' first | assumption | apply steady_updRing | apply steady_logRec | split

theorem steady_fetchRing {s0 s : State} {h : HostView} {ten lring tail n : Nat} (h0 : Steady s0 s) : Steady s0 (State.fetchRing s h ten lring tail n) := by
  induction n generalizing s with
  | zero => unfold State.fetchRing; exact h0
  | succ m ih =>
    unfold State.fetchRing
    try dsimp only
    with_reducible repeat' first | assumption | apply ih | apply steady_updRing | apply steady_ringError | simp only [steady_mk] | split

theorem steady_scanRing {s0 s : State} {h : HostView} {ten lring : Nat} (h0 : Steady s0 s) : Steady s0 (State.scanRing s h ten lring) := by
  unfold State.scanRing
  with_reducible repeat' first | assumption | apply steady_takeTail | apply steady_fetchRing | split

theorem steady_writeFinal {s0 s : State} {h : HostView} {ten lring : Nat} (h0 : Steady s0 s) : Steady s0 (State.writeFinal s h ten lring) := by
  unfold State.writeFinal
  dsimp only
  with_reducible repeat' first | assumption | apply steady_updRing | apply steady_hostWrite | apply steady_eligible | apply steady_ringError | apply steady_retireCmd | split

theorem steady_cacheComp {s0 s : State} {comb ten keyset comp bytes : Nat} (h0 : Steady s0 s) : Steady s0 (State.cacheComp s comb ten keyset comp bytes) := by
  unfold State.cacheComp
  with_reducible repeat' first | assumption | apply Steady.ite | apply steady_updComb

theorem steady_refComp {s0 s : State} {comb ten keyset comp seg : Nat} (h0 : Steady s0 s) : Steady s0 (State.refComp s comb ten keyset comp seg) := steady_updComb h0

theorem steady_unrefSeg {s0 s : State} {seg : Nat} (h0 : Steady s0 s) : Steady s0 (State.unrefSeg s seg) := ⟨h0.1, h0.2⟩

theorem steady_pinComp {s0 s : State} {comb ten keyset comp bytes session : Nat} {r : State} (h : s.pinComp comb ten keyset comp bytes session = some r) (h0 : Steady s0 s) : Steady s0 r := by
  unfold State.pinComp at h
  dsimp only at h
  split at h
  · cases h; exact steady_updComb h0
  · split at h
    · cases h
    · split at h
      · cases h; exact steady_updComb (steady_updComb h0)
      · cases h

theorem steady_pinComps {s0 s : State} {comb ten keyset session i : Nat} {l : List KeyComp} (h0 : Steady s0 s) : Steady s0 (State.pinComps s comb ten keyset session i l) := by
  induction l generalizing s i with
  | nil => unfold State.pinComps; exact h0
  | cons a r ih =>
    unfold State.pinComps
    try dsimp only
    with_reducible repeat' first | assumption | apply ih | (apply steady_pinComp; · assumption) | split

theorem steady_unpinSessions {s0 s : State} {ten session : Nat} (h0 : Steady s0 s) : Steady s0 (State.unpinSessions s ten session) := ⟨h0.1, h0.2⟩

theorem steady_dropKeyShelves {s0 s : State} {ten keyset : Nat} (h0 : Steady s0 s) : Steady s0 (State.dropKeyShelves s ten keyset) := ⟨h0.1, h0.2⟩

theorem steady_pinWeights {s0 s : State} {comb ten model gen k : Nat} {r : State} (h : s.pinWeights comb ten model gen k = .ok r) (h0 : Steady s0 s) : Steady s0 r := by
  unfold State.pinWeights at h
  dsimp only at h
  split at h
  · cases h
  · split at h
    · cases h
    · cases h; exact steady_updComb h0

theorem steady_openSession {s0 s : State} {ten lring : Nat} {c : Cmd} (h0 : Steady s0 s) : Steady s0 (State.openSession s ten lring c) := by
  unfold State.openSession
  dsimp only
  with_reducible repeat' first | assumption | apply steady_updTen | (apply steady_alloc; · assumption) | apply steady_finish | apply steady_pinComps | split

theorem steady_sweepKeySet {s0 s : State} {ten keyset : Nat} (h0 : Steady s0 s) : Steady s0 (State.sweepKeySet s ten keyset) := by
  unfold State.sweepKeySet
  with_reducible repeat' first | assumption | apply steady_updTen | apply steady_freeObj | apply steady_dropKeyShelves | split

theorem steady_dropMessages {s0 s : State} {ten handle : Nat} (h0 : Steady s0 s) : Steady s0 (State.dropMessages s ten handle) := ⟨h0.1, h0.2⟩

theorem steady_endSession {s0 s : State} {ten handle : Nat} {keep : Bool} (h0 : Steady s0 s) : Steady s0 (State.endSession s ten handle keep) := by
  unfold State.endSession
  with_reducible repeat' first | assumption | apply steady_updTen | apply steady_freeObj | apply steady_sweepModel | apply steady_unpinSessions | apply steady_sweepKeySet | apply steady_dropMessages | split

theorem steady_startClose {s0 s : State} {ten lring : Nat} {c : Cmd} (h0 : Steady s0 s) : Steady s0 (State.startClose s ten lring c) := by
  unfold State.startClose
  dsimp only
  with_reducible repeat' first | assumption | apply steady_updTen | apply steady_finish | apply steady_sweepKeySet | split

theorem steady_finishClose {s0 s : State} {ten lring : Nat} {c : Cmd} (h0 : Steady s0 s) : Steady s0 (State.finishClose s ten lring c) := by
  unfold State.finishClose
  with_reducible repeat' first | assumption | apply Steady.ite | apply steady_finish | apply steady_sweepKeySet | apply steady_endSession

theorem steady_loadKeySet {s0 s : State} {ten lring : Nat} {c : Cmd} {img : List Byte} (h0 : Steady s0 s) : Steady s0 (State.loadKeySet s ten lring c img) := by
  unfold State.loadKeySet
  with_reducible repeat' first | exact Steady.refl _ | assumption | intro _ | apply steady_updTen | apply steady_logRec | (apply steady_alloc; · assumption) | apply steady_writeObj | apply steady_done | apply Steady.foldl | split

theorem steady_finishKeyset {s0 s : State} {ten lring : Nat} {c : Cmd} (h0 : Steady s0 s) : Steady s0 (State.finishKeyset s ten lring c) := by
  unfold State.finishKeyset
  with_reducible repeat' first | assumption | apply Steady.ite | apply steady_updTen | apply steady_finish

theorem steady_touch {s0 s : State} {id : Nat} (h0 : Steady s0 s) : Steady s0 (State.touch s id) := steady_updSeg h0

theorem steady_releaseCells {s0 s : State} {cells : List Nat} (h0 : Steady s0 s) : Steady s0 (State.releaseCells s cells) := by
  unfold State.releaseCells
  with_reducible repeat' first | exact Steady.refl _ | assumption | intro _ | apply steady_updCell | apply Steady.foldl

theorem steady_failEval {s0 s : State} {ten lring seq : Nat} {e : Err} (h0 : Steady s0 s) : Steady s0 (State.failEval s ten lring seq e) := by
  unfold State.failEval
  with_reducible repeat' first | exact Steady.refl _ | assumption | intro _ | apply steady_updEval | apply steady_unrefSeg | apply steady_releaseCells | apply Steady.foldl | simp only [steady_mk]

theorem steady_failSeg {s0 s : State} {id cell : Nat} {e : Err} (h0 : Steady s0 s) : Steady s0 (State.failSeg s id cell e) := by
  unfold State.failSeg
  with_reducible repeat' first | assumption | apply steady_logRec | apply steady_failEval | split

theorem steady_postTokens {s0 s : State} {cell q n : Nat} (h0 : Steady s0 s) : Steady s0 (State.postTokens s cell q n) := by
  unfold State.postTokens
  with_reducible repeat' first | assumption | apply steady_updCell | apply steady_touch | apply steady_failSeg | split

theorem steady_postToken {s0 s : State} {cell q : Nat} (h0 : Steady s0 s) : Steady s0 (State.postToken s cell q) := steady_postTokens h0

theorem steady_postOpt {s0 s : State} {cell : Nat} {o : Option Nat} (h0 : Steady s0 s) : Steady s0 (s.postOpt cell o) := by
  unfold State.postOpt
  split
  · exact steady_postToken h0
  · exact h0

theorem steady_landWords {s0 s : State} {writer : Option (Nat × Nat × Nat)} {ws : List (Nat × Nat × Nat)} (h0 : Steady s0 s) : Steady s0 (State.landWords s writer ws) := by
  unfold State.landWords
  with_reducible repeat' first | exact Steady.refl _ | assumption | intro _ | apply steady_updCell | apply Steady.foldl | simp only [steady_mk]

theorem steady_windowViolation {s0 s : State} {run : SegRun} {writer owner lo hi : Nat} (h0 : Steady s0 s) : Steady s0 (State.windowViolation s run writer owner lo hi) := by
  unfold State.windowViolation
  with_reducible repeat' first | assumption | apply steady_logBoth | apply steady_failSeg

theorem steady_landed {s0 s : State} {owner id : Nat} (h0 : Steady s0 s) : Steady s0 (State.landed s owner id) := by
  unfold State.landed
  with_reducible repeat' first | exact Steady.refl _ | assumption | intro _ | apply steady_updCell | apply steady_postOpt | apply Steady.foldl

theorem steady_closeWindow {s0 s : State} {cell window : Nat} {post : Option Nat} (h0 : Steady s0 s) : Steady s0 (State.closeWindow s cell window post) := by
  unfold State.closeWindow
  with_reducible repeat' first | assumption | apply Steady.ite | apply steady_updCell | apply steady_postOpt

theorem steady_issue {s0 s : State} {cell : Nat} {isIt : Ins → Bool} {f : State → SegRun → Cell → InsWord → State} (h_f : ∀ z x1 x2 x3, Steady z (f z x1 x2 x3)) (h0 : Steady s0 s) : Steady s0 (State.issue s cell isIt f) := by
  unfold State.issue
  dsimp only
  with_reducible repeat' first | assumption | apply steady_updCell | apply steady_touch | apply Steady.trans _ (h_f ..) | split

theorem steady_control {s0 s : State} {cell op : Nat} {f : State → SegRun → Cell → Ins → State} (h_f : ∀ z x1 x2 x3, Steady z (f z x1 x2 x3)) (h0 : Steady s0 s) : Steady s0 (State.control s cell op f) := by
  unfold State.control
  with_reducible repeat' first | exact Steady.refl _ | assumption | intro _ | apply steady_postOpt | apply steady_issue | apply Steady.trans _ (h_f ..)

theorem steady_launch {s0 s : State} {cell : Nat} {f : Flight} (h0 : Steady s0 s) : Steady s0 (State.launch s cell f) := by
  unfold State.launch
  with_reducible repeat' first | assumption | apply steady_updCell | simp only [steady_mk]

theorem steady_launchChecked {s0 s : State} {g : SegRun} {cell : Nat} {f : Flight} (h0 : Steady s0 s) : Steady s0 (State.launchChecked s g cell f) := by
  unfold State.launchChecked
  dsimp only
  with_reducible repeat' first | assumption | apply steady_failSeg | apply steady_launch | split

theorem steady_timerOp {s0 s : State} {cell : Nat} {form : Bool × Bool} {f : State → Ins → State} (h_f : ∀ z x1, Steady z (f z x1)) (h0 : Steady s0 s) : Steady s0 (State.timerOp s cell form f) := by
  unfold State.timerOp
  with_reducible repeat' first | exact Steady.refl _ | assumption | intro _ | apply steady_postOpt | apply steady_issue | apply Steady.trans _ (h_f ..)

theorem steady_edgeAt {s0 s : State} {series cell : Nat} (h0 : Steady s0 s) : Steady s0 (State.edgeAt s series cell) := by
  unfold State.edgeAt
  dsimp only
  with_reducible repeat' first | assumption | apply steady_updCell | apply steady_postToken | split

theorem steady_rebaseSteps {s0 s : State} (h0 : Steady s0 s) : Steady s0 (State.rebaseSteps s) := ⟨h0.1, h0.2⟩

theorem steady_readRaced {s0 s : State} {cell : Nat} {f : Flight} {raced : List (Nat × Nat)} {w : Nat × Nat} (h0 : Steady s0 s) : Steady s0 (State.readRaced s cell f raced w).2 := by
  unfold State.readRaced
  with_reducible repeat' first | assumption | apply Steady.ite_snd | apply steady_takeFree

theorem steady_readRun {s0 s : State} {cell : Nat} {f : Flight} {raced : List (Nat × Nat)} {l : List (Option (Nat × Nat))} (h0 : Steady s0 s) : Steady s0 (State.readRun s cell f raced l).2 := by
  induction l generalizing s with
  | nil => unfold State.readRun; exact h0
  | cons a r ih =>
    rcases a with _ | a <;> unfold State.readRun
    try dsimp only
    all_goals with_reducible repeat' first | assumption | apply ih | apply steady_readRaced

theorem steady_readWords {s0 s : State} {cell : Nat} {f : Flight} {ws : List (Nat × Nat)} (h0 : Steady s0 s) : Steady s0 (State.readWords s cell f ws).2 := steady_readRun h0

theorem steady_touchCell {s0 s : State} {cell : Nat} (h0 : Steady s0 s) : Steady s0 (State.touchCell s cell) := by
  unfold State.touchCell
  with_reducible repeat' first | assumption | intro _ | apply Steady.elim | apply steady_touch

theorem steady_settle {s0 s : State} {f : Flight} {w : Nat × Nat} {v : Nat} (h0 : Steady s0 s) : Steady s0 (State.settle s f w v).2 := by
  unfold State.settle
  with_reducible repeat' first | assumption | apply Steady.ite_snd | apply steady_takeFree

theorem steady_settleAll {s0 s : State} {f : Flight} {l : List ((Nat × Nat) × Nat)} (h0 : Steady s0 s) : Steady s0 (State.settleAll s f l).2 := by
  induction l generalizing s with
  | nil => unfold State.settleAll; exact h0
  | cons a r ih =>
    unfold State.settleAll
    try dsimp only
    with_reducible repeat' first | assumption | apply ih | apply steady_settle

theorem steady_landFlight {s0 s : State} {cell : Nat} {f : Flight} {dests : List (Nat × Nat)} {vals : List Nat} (h0 : Steady s0 s) : Steady s0 (State.landFlight s cell f dests vals) := by
  unfold State.landFlight
  with_reducible repeat' first | assumption | intro _ | apply Steady.elim | apply steady_landWords | apply steady_touchCell | apply steady_settleAll

theorem steady_retireFlight {s0 s : State} {cell : Nat} {f : Flight} (h0 : Steady s0 s) : Steady s0 (State.retireFlight s cell f) := by
  unfold State.retireFlight
  with_reducible repeat' first | assumption | apply steady_updCell | apply steady_landed | apply steady_touchCell | split

theorem steady_useKey {s0 s : State} {g : SegRun} {st : Stencil} (h0 : Steady s0 s) : Steady s0 (State.useKey s g st) := by
  unfold State.useKey
  with_reducible repeat' first | assumption | apply steady_cacheComp | apply steady_refComp | split

theorem steady_updFlight {s0 s : State} {cell id : Nat} {f : Flight → Flight} (h0 : Steady s0 s) : Steady s0 (State.updFlight s cell id f) := steady_updCell h0

theorem steady_dropFlight {s0 s : State} {cell id : Nat} (h0 : Steady s0 s) : Steady s0 (State.dropFlight s cell id) := steady_updCell h0

theorem steady_postSrc {s0 s : State} {cell : Nat} {i : Ins} (h0 : Steady s0 s) : Steady s0 (State.postSrc s cell i) := by
  unfold State.postSrc
  with_reducible repeat' first | assumption | apply Steady.ite | apply steady_postToken

theorem steady_writeDva {s0 s : State} {ten : Nat} {l : List (Int × Nat)} (h0 : Steady s0 s) : Steady s0 (s.writeDva ten l).1 := by
  induction l generalizing s with
  | nil => exact h0
  | cons a r ih =>
    unfold State.writeDva
    split
    · exact h0
    · split
      · exact h0
      · exact ih ⟨fun w => Dram.wf_write _ _ (h0.1 w), h0.2⟩

theorem steady_writeHostRuns {s0 s : State} {h : HostView} {ten : Nat} {l : List (Int × List Byte)} (h0 : Steady s0 s) : Steady s0 (State.writeHostRuns s h ten l).1 := by
  induction l generalizing s with
  | nil => unfold State.writeHostRuns; exact h0
  | cons a r ih =>
    unfold State.writeHostRuns
    try dsimp only
    with_reducible repeat' first | assumption | apply Steady.ite_fst | apply ih | apply steady_hostWrite

theorem steady_moveWords {s0 s : State} {cell : Nat} {g : SegRun} {f : Flight} {src : Stencil} {n : Nat} (h0 : Steady s0 s) : Steady s0 (State.moveWords s cell g f src n).2 := by
  unfold State.moveWords
  with_reducible repeat' first | assumption | apply steady_readRun | split
theorem steady_moveWords' {s0 s : State} {cell : Nat} {g : SegRun} {f : Flight} {src : Stencil} {n : Nat} {ra rb} (heq : State.moveWords s cell g f src n = (ra, rb)) (h0 : Steady s0 s) : Steady s0 rb := by
  have := steady_moveWords (s := s) (cell := cell) (g := g) (f := f) (src := src) (n := n) h0
  rw [heq] at this
  exact this

theorem steady_movePost {s0 s : State} {cell : Nat} {f : Flight} (h0 : Steady s0 s) : Steady s0 (State.movePost s cell f) := by
  unfold State.movePost
  with_reducible repeat' first | assumption | apply steady_postToken | apply steady_postSrc | split

theorem steady_noteWrote {s0 s : State} {ten lring seq : Nat} {ws : List Nat} {runs : List (Nat × Nat)} (h0 : Steady s0 s) :
    Steady s0 (State.noteWrote s ten lring seq ws runs) := steady_updEval h0

theorem steady_endStencilMove {s0 s : State} {h : HostView} {cell : Nat} {g : SegRun} {f : Flight} {src dst : Stencil} (h0 : Steady s0 s) : Steady s0 (State.endStencilMove s h cell g f src dst) := by
  unfold State.endStencilMove
  dsimp only
  with_reducible repeat' first | assumption | apply steady_failSeg | apply steady_landFlight | apply steady_retireFlight | apply steady_writeDva | apply steady_writeHostRuns | apply steady_noteWrote | (apply steady_moveWords'; · assumption) | apply steady_movePost | split

theorem steady_completeMove {s0 s : State} {h : HostView} {cell : Nat} {g : SegRun} {f : Flight} (h0 : Steady s0 s) : Steady s0 (State.completeMove s h cell g f) := by
  unfold State.completeMove
  dsimp only
  with_reducible repeat' first | assumption | apply steady_updCell | apply steady_readRun | apply steady_landFlight | apply steady_retireFlight | apply steady_movePost | apply steady_endStencilMove | split

theorem steady_arith {s0 s : State} {cell op : Nat} (h0 : Steady s0 s) : Steady s0 (State.arith s cell op) := by
  unfold State.arith
  dsimp only
  with_reducible repeat' first | exact Steady.refl _ | assumption | intro _ | apply steady_updCell | apply steady_failSeg | apply steady_issue | apply steady_launchChecked | apply steady_readWords | split

theorem steady_readLists {s0 s : State} {cell : Nat} {f : Flight} {l : List (List (Nat × Nat))} (h0 : Steady s0 s) : Steady s0 (State.readLists s cell f l).2 := by
  induction l generalizing s with
  | nil => unfold State.readLists; exact h0
  | cons a r ih =>
    unfold State.readLists
    try dsimp only
    with_reducible repeat' first | assumption | apply ih | apply steady_readWords

theorem steady_fill {s0 s : State} {l : List (Option Nat)} (h0 : Steady s0 s) : Steady s0 (State.fill s l).2 := by
  induction l generalizing s with
  | nil => unfold State.fill; exact h0
  | cons a r ih =>
    rcases a with _ | a <;> unfold State.fill
    try dsimp only
    all_goals with_reducible repeat' first | assumption | apply ih | apply steady_takeFree

theorem steady_endArith {s0 s : State} {cell : Nat} {g : SegRun} {w : ModWin} {f : Flight} {srcs : List (List (Nat × Nat))} {out : List (Option Nat)} (h0 : Steady s0 s) : Steady s0 (State.endArith s cell g w f srcs out) := by
  unfold State.endArith
  with_reducible repeat' first | assumption | apply steady_updSeg | apply steady_postOpt | apply steady_landFlight | apply steady_retireFlight | apply steady_fill

theorem steady_completeMac {s0 s : State} {cell : Nat} {g : SegRun} {w : ModWin} {f : Flight} (h0 : Steady s0 s) : Steady s0 (State.completeMac s cell g w f) := by
  unfold State.completeMac
  with_reducible repeat' first | assumption | apply Steady.ite | apply steady_updCell | apply steady_readLists | apply steady_fill | apply steady_endArith

theorem steady_completeTrowel {s0 s : State} {cell : Nat} {g : SegRun} {w : ModWin} {f : Flight} (h0 : Steady s0 s) : Steady s0 (State.completeTrowel s cell g w f) := by
  unfold State.completeTrowel
  with_reducible repeat' first | assumption | apply Steady.ite | apply steady_updCell | apply steady_readLists | apply steady_endArith

theorem steady_completeNtt {s0 s : State} {cell : Nat} {g : SegRun} {w : ModWin} {f : Flight} (h0 : Steady s0 s) : Steady s0 (State.completeNtt s cell g w f) := by
  unfold State.completeNtt
  with_reducible repeat' first | assumption | apply steady_readLists | apply steady_endArith | split

theorem steady_completeSkim {s0 s : State} {cell : Nat} {g : SegRun} {w : ModWin} {f : Flight} (h0 : Steady s0 s) : Steady s0 (State.completeSkim s cell g w f) := by
  unfold State.completeSkim
  with_reducible repeat' first | assumption | apply steady_readLists | apply steady_endArith

theorem steady_noiseDraws {s0 s : State} {cell : Nat} {i : Ins} {q : Nat} (h0 : Steady s0 s) : Steady s0 (State.noiseDraws s cell i q).2 := by
  unfold State.noiseDraws
  with_reducible repeat' first | assumption | apply steady_skipRandoms | apply steady_updComb | apply steady_updCell | split

theorem steady_completeNoise {s0 s : State} {cell : Nat} {g : SegRun} {w : ModWin} {f : Flight} (h0 : Steady s0 s) : Steady s0 (State.completeNoise s cell g w f) := by
  unfold State.completeNoise
  with_reducible repeat' first | assumption | apply Steady.ite | apply steady_readLists | apply steady_endArith | apply steady_noiseDraws

theorem steady_pinLoad {s0 s : State} {ten model home id : Nat} {pin : Bool} {weights : List (Nat × Nat)} {r : State} (h : s.pinLoad ten model home id pin weights = .ok r) (h0 : Steady s0 s) : Steady s0 r := by
  unfold State.pinLoad at h
  split at h
  · exact steady_pinWeights h h0
  · cases h; exact h0

theorem steady_placeGen {s0 s : State} {ten : Nat} {c : Cmd} {g : Gen} {data : List (List Byte)} {id : Nat} {r : State} (h : s.placeGen ten c g data = .ok (id, r)) (h0 : Steady s0 s) : Steady s0 r := by
  unfold State.placeGen at h
  dsimp only [bind, Except.bind] at h
  split at h
  · cases h
  · rename_i p hp
    split at h
    · cases h
    · rename_i q hq
      cases h
      exact steady_updTen (Steady.foldl (fun _ _ => steady_writeObj (Steady.refl _)) (steady_pinLoad hq (steady_alloc hp h0)))

theorem steady_loadFails {s0 s : State} {ten lring : Nat} {c : Cmd} {f : LoadFault} (h0 : Steady s0 s) : Steady s0 (State.loadFails s ten lring c f) := by
  unfold State.loadFails
  with_reducible repeat' first | assumption | apply steady_logRec | apply steady_done | simp only [steady_mk] | split

theorem steady_loadModel {s0 s : State} {h : HostView} {ten lring : Nat} {c : Cmd} (h0 : Steady s0 s) : Steady s0 (State.loadModel s h ten lring c) := by
  unfold State.loadModel
  with_reducible repeat' first | assumption | apply steady_updCmd | apply steady_done | (apply steady_placeGen; · assumption) | apply steady_loadFails | split

theorem steady_dropLoad {s0 s : State} {ten model id : Nat} {g : Gen} (h0 : Steady s0 s) : Steady s0 (State.dropLoad s ten model id g) := by
  unfold State.dropLoad
  with_reducible repeat' first | assumption | apply steady_updTen | apply steady_updComb | apply steady_freeObj

theorem steady_finishLoad {s0 s : State} {ten lring : Nat} {c : Cmd} (h0 : Steady s0 s) : Steady s0 (State.finishLoad s ten lring c) := by
  unfold State.finishLoad
  dsimp only
  with_reducible repeat' first | assumption | apply steady_updTen | apply steady_updComb | apply steady_finish | apply steady_sweepModel | apply steady_dropLoad | split

theorem steady_pickPort {s0 s : State} {l : List Nat} (h0 : Steady s0 s) : Steady s0 (State.pickPort s l).2 := steady_takeFree h0

theorem steady_pickRoute {s0 s : State} {l : List (List Nat)} (h0 : Steady s0 s) : Steady s0 (State.pickRoute s l).2 := by
  induction l generalizing s with
  | nil => unfold State.pickRoute; exact h0
  | cons a r ih =>
    unfold State.pickRoute
    try dsimp only
    with_reducible repeat' first | assumption | apply ih | apply steady_pickPort

theorem steady_enqueue {s0 s : State} {port : Nat} {f : QFrame} (h0 : Steady s0 s) : Steady s0 (State.enqueue s port f) := steady_updPort h0

theorem steady_sendMgmt {s0 s : State} {dst : Nat} (h0 : Steady s0 s) : Steady s0 (State.sendMgmt s dst) := by
  unfold State.sendMgmt
  with_reducible repeat' first | assumption | apply steady_skipFrees | apply steady_pickRoute | apply steady_enqueue | split

theorem steady_fabricSend {s0 s : State} {ten lring seq : Nat} {v : Eval} {x : Session} {me : Nat} {e : Edge} (h0 : Steady s0 s) : Steady s0 (State.fabricSend s ten lring seq v x me e) := by
  unfold State.fabricSend
  with_reducible repeat' first | exact Steady.refl _ | assumption | intro _ | apply steady_updEval | apply steady_logRec | apply steady_charge | apply steady_failEval | apply steady_pickRoute | apply steady_enqueue | apply Steady.foldl | split

theorem steady_sendEdges {s0 s : State} {g : SegRun} (h0 : Steady s0 s) : Steady s0 (State.sendEdges s g) := by
  unfold State.sendEdges
  with_reducible repeat' first | exact Steady.refl _ | assumption | intro _ | apply steady_fabricSend | apply Steady.foldl | split

theorem steady_takeMessages {s0 s : State} {ten : Nat} {v : Eval} {idx : Nat} (h0 : Steady s0 s) : Steady s0 (State.takeMessages s ten v idx) := by
  unfold State.takeMessages
  with_reducible repeat' first | assumption | simp only [steady_mk] | split

theorem steady_requestGang {s0 s : State} {ten lring : Nat} {c : Cmd} {g : Gen} {idx : Nat} {first : Bool} (h0 : Steady s0 s) : Steady s0 (State.requestGang s ten lring c g idx first) := ⟨h0.1, h0.2⟩

theorem steady_continueAt {s0 s : State} {ten lring seq idx : Nat} {first : Bool} (h0 : Steady s0 s) : Steady s0 (State.continueAt s ten lring seq idx first) := by
  unfold State.continueAt
  dsimp only
  with_reducible repeat' first | exact Steady.refl _ | assumption | intro _ | apply steady_updEval | apply steady_takeMessages | apply steady_requestGang | apply Steady.foldl | split

theorem steady_startEval {s0 s : State} {ten lring : Nat} {c : Cmd} (h0 : Steady s0 s) : Steady s0 (State.startEval s ten lring c) := by
  unfold State.startEval
  dsimp only
  with_reducible repeat' first | assumption | apply steady_updTen | apply steady_updCmd | apply steady_finish | apply steady_sweepModel | apply steady_failEval | apply steady_continueAt | split

theorem steady_undefine {s0 s : State} {ten : Nat} {v : Eval} (h0 : Steady s0 s) : Steady s0 (State.undefine s ten v) := by
  unfold State.undefine
  refine Steady.foldl (fun z a => steady_emit (Steady.refl z)) ⟨fun w => Memory.wf_puts _ _ (h0.1 w), h0.2⟩

theorem steady_finishEval {s0 s : State} {ten lring : Nat} {c : Cmd} {v : Eval} (h0 : Steady s0 s) : Steady s0 (State.finishEval s ten lring c v) := by
  unfold State.finishEval
  with_reducible repeat' first | assumption | apply steady_undefine | apply steady_finish | split

theorem steady_requeueGang {s0 s : State} {g : SegRun} {f : SegRun → SegRun} (h0 : Steady s0 s) : Steady s0 (State.requeueGang s g f) := by
  unfold State.requeueGang
  with_reducible repeat' first | exact Steady.refl _ | assumption | intro _ | apply steady_unrefSeg | apply steady_releaseCells | apply Steady.foldl | simp only [steady_mk]

theorem steady_stopBorrowers {s0 s : State} {cells : List Nat} (h0 : Steady s0 s) : Steady s0 (State.stopBorrowers s cells) := by
  unfold State.stopBorrowers
  with_reducible repeat' first | exact Steady.refl _ | assumption | intro _ | apply steady_requeueGang | apply Steady.foldl | split

theorem steady_refKeys {s0 s : State} {g : SegRun} (h0 : Steady s0 s) : Steady s0 (State.refKeys s g) := by
  unfold State.refKeys
  with_reducible repeat' first | exact Steady.refl _ | assumption | intro _ | apply steady_refComp | apply Steady.foldl | split

theorem steady_renameCells {s0 s : State} {g : SegRun} {new : List Nat} (h0 : Steady s0 s) : Steady s0 (State.renameCells s g new) := ⟨h0.1, h0.2⟩

theorem steady_wakeComb {s0 s : State} {c : Nat} (h0 : Steady s0 s) : Steady s0 (State.wakeComb s c) := by
  unfold State.wakeComb
  with_reducible repeat' first | assumption | apply Steady.ite | apply steady_updComb | simp only [steady_mk]

theorem steady_holdC0 {s0 s : State} {c : Nat} (h0 : Steady s0 s) : Steady s0 (State.holdC0 s c) := steady_updComb h0

theorem steady_countReplay {s0 s : State} {g : SegRun} {comb : Nat} (h0 : Steady s0 s) : Steady s0 (State.countReplay s g comb) := by
  unfold State.countReplay
  with_reducible repeat' first | assumption | apply Steady.ite | apply steady_updCmd | apply steady_logRec | simp only [steady_mk]

theorem steady_assign {s0 s : State} {g : SegRun} {comb : Nat} {cells : List Nat} (h0 : Steady s0 s) : Steady s0 (State.assign s g comb cells) := by
  unfold State.assign
  with_reducible repeat' first | exact Steady.refl _ | assumption | intro _ | apply Steady.ite | apply steady_updComb | apply steady_updCell | apply steady_updSeg | apply steady_stopBorrowers | apply steady_refKeys | apply steady_renameCells | apply steady_wakeComb | apply steady_holdC0 | apply steady_countReplay | apply Steady.foldl

theorem steady_creditClass {s0 s : State} {g : SegRun} (h0 : Steady s0 s) : Steady s0 (State.creditClass s g) := steady_updComb h0

theorem steady_freeIfComposite {s0 s : State} {q : Nat} {l : List Nat} (h0 : Steady s0 s) : Steady s0 (State.freeIfComposite s q l).2 := by
  unfold State.freeIfComposite
  with_reducible repeat' first | assumption | apply steady_skipFrees | split

theorem steady_mapLimbs {s0 s : State} {tab : ModTable} {f : Nat → ModEntry → List Nat → List Nat} {i : Nat} {l : List (List Nat)} (h0 : Steady s0 s) : Steady s0 (State.mapLimbs s tab f i l).2 := by
  induction l generalizing s i with
  | nil => unfold State.mapLimbs; exact h0
  | cons a r ih =>
    unfold State.mapLimbs
    try dsimp only
    with_reducible repeat' first | assumption | apply ih | apply steady_freeIfComposite | split

theorem steady_outboundTail {s0 s : State} {tab : ModTable} {e : RtEntry} {c0 c1 : List (List Nat)} (h0 : Steady s0 s) : Steady s0 (State.outboundTail s tab e c0 c1).2 := by
  unfold State.outboundTail
  with_reducible repeat' first | assumption | apply Steady.ite | apply Steady.ite_snd | apply steady_skipRandoms | apply steady_mapLimbs

theorem steady_needStartId {s0 s : State} (h0 : Steady s0 s) : Steady s0 (State.needStartId s) := by
  unfold State.needStartId
  with_reducible repeat' first | assumption | apply steady_takeBytes | simp only [steady_mk] | split

theorem steady_newTicket {s0 s : State} {ten session : Nat} {x : Session} (h0 : Steady s0 s) : Steady s0 (State.newTicket s ten session x).2 := by
  unfold State.newTicket
  with_reducible repeat' first | assumption | apply steady_updTen | simp only [steady_mk]

theorem steady_startAttempt {s0 s : State} {ten lring seq point k : Nat} (h0 : Steady s0 s) : Steady s0 (State.startAttempt s ten lring seq point k) := by
  unfold State.startAttempt
  dsimp only
  with_reducible repeat' first | assumption | apply steady_updEval | apply steady_writeObj | apply steady_chargeOps | apply steady_failEval | apply steady_outboundTail | apply steady_needStartId | apply steady_newTicket | apply steady_noteWrote | split

theorem steady_postInterim {s0 s : State} {h : HostView} {ten lring : Nat} {c : Cmd} {a : Attempt} {deadlineMs : Nat} (h0 : Steady s0 s) : Steady s0 (State.postInterim s h ten lring c a deadlineMs) := by
  unfold State.postInterim
  with_reducible repeat' first | assumption | apply Steady.ite | apply steady_takeFree | apply steady_updRing | apply steady_updCmd | apply steady_hostWrite | apply steady_eligible | apply steady_ringError

theorem steady_takeReply {s0 s : State} {h : HostView} {ten lring : Nat} {c : Cmd} {lr : Nat} {k : Cmd} {v : Eval} {a : Attempt} {g : Gen} {e : RtEntry} {arena : Nat} (h0 : Steady s0 s) : Steady s0 (State.takeReply s h ten lring c lr k v a g e arena) := by
  unfold State.takeReply
  dsimp only
  with_reducible repeat' first | assumption | apply steady_updEval | apply steady_writeObj | apply steady_finish | apply steady_continueAt | apply steady_mapLimbs | split

theorem steady_resume {s0 s : State} {h : HostView} {ten lring : Nat} {c : Cmd} (h0 : Steady s0 s) : Steady s0 (State.resume s h ten lring c) := by
  unfold State.resume
  dsimp only
  with_reducible repeat' first | assumption | intro _ | apply Steady.elim | apply steady_finish | apply steady_takeReply | split

theorem steady_startCells {s0 s : State} {g : SegRun} {x : SegDef} (h0 : Steady s0 s) : Steady s0 (State.startCells s g x) := by
  unfold State.startCells
  with_reducible repeat' first | exact Steady.refl _ | assumption | intro _ | apply steady_updCell | apply Steady.foldl

theorem steady_beginRun {s0 s : State} {g : SegRun} {x : SegDef} (h0 : Steady s0 s) : Steady s0 (State.beginRun s g x) := by
  unfold State.beginRun
  with_reducible repeat' first | assumption | apply steady_updCmd | apply steady_updSeg

theorem steady_restoreCells {s0 s : State} {g : SegRun} (h0 : Steady s0 s) : Steady s0 (State.restoreCells s g) := by
  unfold State.restoreCells
  with_reducible repeat' first | exact Steady.refl _ | assumption | intro _ | apply steady_updCell | apply steady_updSeg | apply Steady.foldl

theorem steady_chargeRun {s0 s : State} {g : SegRun} (h0 : Steady s0 s) : Steady s0 (State.chargeRun s g) := by
  unfold State.chargeRun
  with_reducible repeat' first | assumption | apply steady_charge | apply steady_chargeOps

theorem steady_nextInChain {s0 s : State} {ten lring seq : Nat} {v : Eval} {gang : List Nat} (h0 : Steady s0 s) : Steady s0 (State.nextInChain s ten lring seq v gang) := by
  unfold State.nextInChain
  with_reducible repeat' first | assumption | apply steady_updEval | apply steady_failEval | apply steady_continueAt | apply steady_startAttempt | split

theorem steady_afterRun {s0 s : State} {g : SegRun} (h0 : Steady s0 s) : Steady s0 (State.afterRun s g) := by
  unfold State.afterRun
  with_reducible repeat' first | assumption | apply steady_updEval | apply steady_nextInChain | split

theorem steady_foragerWrite {s0 s : State} {g : SegRun} {d : StreamDef} {owner : Nat} {ws : List (Nat × Nat)} (h0 : Steady s0 s) : Steady s0 (State.foragerWrite s g d owner ws) := by
  unfold State.foragerWrite
  dsimp only
  with_reducible repeat' first | assumption | apply steady_touch | apply steady_failSeg | apply steady_postToken | apply steady_landWords | apply steady_windowViolation | split

theorem steady_updStream {s0 s : State} {seg k : Nat} {f : StreamRun → StreamRun} (h0 : Steady s0 s) : Steady s0 (State.updStream s seg k f) := steady_updSeg h0

theorem steady_takeFreeToken {s0 s : State} {cell q : Nat} (h0 : Steady s0 s) : Steady s0 (State.takeFreeToken s cell q) := steady_updCell h0

theorem steady_takeFinals {s0 s : State} {g : SegRun} {k : Nat} {d : StreamDef} {st : Stencil} {key cell : Nat} {r : StreamRun} (h0 : Steady s0 s) : Steady s0 (State.takeFinals s g k d st key cell r) := by
  unfold State.takeFinals
  with_reducible repeat' first | assumption | apply Steady.ite | apply steady_updCell | apply steady_touch | apply steady_updStream

theorem steady_deliverTile {s0 s : State} {h : HostView} {g : SegRun} {k : Nat} {d : StreamDef} {st : Stencil} {l : Lane} {r : StreamRun} (h0 : Steady s0 s) : Steady s0 (State.deliverTile s h g k d st l r) := by
  unfold State.deliverTile
  dsimp only
  with_reducible repeat' first | assumption | apply steady_updSeg | apply steady_failSeg | apply steady_useKey | apply steady_foragerWrite | apply steady_updStream | apply steady_takeFreeToken | split

theorem steady_gatewayScrub {s0 s : State} {cells : List Nat} (h0 : Steady s0 s) : Steady s0 (State.gatewayScrub s cells) := by
  unfold State.gatewayScrub
  with_reducible repeat' first | exact Steady.refl _ | assumption | intro _ | apply steady_updCell | apply Steady.foldl

theorem steady_gateway {s0 s : State} {ten lring seq opcode op : Nat} {cells : List Nat} {draws : Bool} {f : State → Cmd → State} (h_f : ∀ z x1, Steady z (f z x1)) (h0 : Steady s0 s) : Steady s0 (State.gateway s ten lring seq opcode op cells draws f) := by
  unfold State.gateway
  with_reducible repeat' first | exact Steady.refl _ | assumption | intro _ | apply Steady.onlyIf | apply steady_takeFree | apply steady_chargeOps | apply steady_onStarted | apply steady_gatewayScrub | apply Steady.trans _ (h_f ..)

theorem steady_withSlot {s0 s : State} {ten lring : Nat} {c : Cmd} {f : State → GwSlot → State} (h_f : ∀ z x1, Steady z (f z x1)) (h0 : Steady s0 s) : Steady s0 (State.withSlot s ten lring c f) := by
  unfold State.withSlot
  with_reducible repeat' first | assumption | apply steady_done | apply Steady.trans _ (h_f ..) | split

theorem steady_drawTernary {s0 s : State} {n : Nat} (h0 : Steady s0 s) : Steady s0 (State.drawTernary s n).2 := steady_skipRandoms h0

theorem steady_drawA {s0 s : State} {tab : ModTable} {limbs : Nat} {seeded : Bool} (h0 : Steady s0 s) : Steady s0 (s.drawA tab limbs seeded).2.2 := by
  unfold State.drawA
  dsimp only
  split
  · exact steady_takeBytes (n := 32) h0
  · exact steady_skipRandoms (n := limbs * 2 ^ tab.logN) h0

theorem steady_encryption {s0 s : State} {c : Cmd} {g : GwSlot} {m : List (List Nat)} (h0 : Steady s0 s) : Steady s0 (State.encryption s c g m).2 := by
  unfold State.encryption
  with_reducible repeat' first | assumption | apply steady_skipRandoms | apply steady_mapLimbs | apply steady_drawA

theorem steady_encrypt {s0 s : State} {h : HostView} {ten lring : Nat} {c : Cmd} {g : GwSlot} {m : List (List Nat)} (h0 : Steady s0 s) : Steady s0 (State.encrypt s h ten lring c g m) := by
  unfold State.encrypt
  with_reducible repeat' first | assumption | apply steady_doneWriting | apply steady_encryption

theorem steady_encode {s0 s : State} {c : Cmd} {logN : Nat} {b : List Byte} (h0 : Steady s0 s) : Steady s0 (State.encode s c logN b).2 := by
  unfold State.encode
  dsimp only
  with_reducible repeat' first | assumption | apply steady_skipFrees | split

theorem steady_decryptLimbs {s0 s : State} {c : Cmd} {g : GwSlot} {b : List Byte} (h0 : Steady s0 s) : Steady s0 (State.decryptLimbs s c g b).2 := by
  unfold State.decryptLimbs
  with_reducible repeat' first | assumption | apply steady_mapLimbs

theorem steady_liftLimbs {s0 s : State} {tab : ModTable} {n : Nat} {ls : List (List Nat)} (h0 : Steady s0 s) : Steady s0 (State.liftLimbs s tab n ls).2 := by
  unfold State.liftLimbs
  dsimp only
  with_reducible repeat' first | assumption | apply steady_skipFrees | split

theorem steady_decode {s0 s : State} {c : Cmd} {tab : ModTable} {m : List Int} (h0 : Steady s0 s) : Steady s0 (State.decode s c tab m).2 := by
  unfold State.decode
  dsimp only
  with_reducible repeat' first | assumption | apply steady_skipFrees | split

theorem steady_decrypting {s0 s : State} {h : HostView} {ten lring : Nat} {c : Cmd} {g : GwSlot} {outBytes : Nat} {f : State → List (List Nat) → List Byte × State} (h_f : ∀ z x1, Steady z (f z x1).2) (h0 : Steady s0 s) : Steady s0 (State.decrypting s h ten lring c g outBytes f) := by
  unfold State.decrypting
  dsimp only
  with_reducible repeat' first | assumption | apply steady_done | apply steady_doneWriting | apply steady_decryptLimbs | apply Steady.trans _ (h_f ..) | split

theorem steady_freeWords {s0 s : State} {q n : Nat} (h0 : Steady s0 s) : Steady s0 (State.freeWords s q n).2 := steady_skipFrees h0

theorem steady_freeLimbs {s0 s : State} {tab : ModTable} {n i : Nat} (h0 : Steady s0 s) : Steady s0 (State.freeLimbs s tab n i).2 := by
  induction n generalizing s i with
  | zero => unfold State.freeLimbs; exact h0
  | succ m ih =>
    unfold State.freeLimbs
    try dsimp only
    with_reducible repeat' first | assumption | apply ih | apply steady_freeWords

theorem steady_seeds {s0 s : State} {n : Nat} (h0 : Steady s0 s) : Steady s0 (State.seeds s n).2 := by
  induction n generalizing s with
  | zero => unfold State.seeds; exact h0
  | succ m ih =>
    unfold State.seeds
    try dsimp only
    with_reducible repeat' first | assumption | apply ih | apply steady_takeBytes

theorem steady_freeDigits {s0 s : State} {tab : ModTable} {n : Nat} (h0 : Steady s0 s) : Steady s0 (State.freeDigits s tab n).2 := by
  induction n generalizing s with
  | zero => unfold State.freeDigits; exact h0
  | succ m ih =>
    unfold State.freeDigits
    try dsimp only
    with_reducible repeat' first | assumption | apply ih | apply steady_freeLimbs

theorem steady_bootRows {s0 s : State} {q nb n : Nat} (h0 : Steady s0 s) : Steady s0 (State.bootRows s q nb n).2 := by
  induction n generalizing s with
  | zero => unfold State.bootRows; exact h0
  | succ m ih =>
    unfold State.bootRows
    try dsimp only
    with_reducible repeat' first | assumption | apply ih | apply steady_takeBytes | apply steady_freeWords

theorem steady_component {s0 s : State} {k : KeyHead} {g : GwSlot} {kind : Nat} (h0 : Steady s0 s) : Steady s0 (State.component s k g kind).2 := by
  unfold State.component
  with_reducible repeat' first | assumption | apply Steady.ite_snd | apply steady_skipRandoms | apply steady_takeBytes | apply steady_seeds | apply steady_freeDigits | apply steady_bootRows

theorem steady_components {s0 s : State} {k : KeyHead} {g : GwSlot} {l : List Nat} (h0 : Steady s0 s) : Steady s0 (State.components s k g l).2 := by
  induction l generalizing s with
  | nil => unfold State.components; exact h0
  | cons a r ih =>
    unfold State.components
    try dsimp only
    with_reducible repeat' first | assumption | apply ih | apply steady_component

theorem steady_pickSome {s0 s : State} {n : Nat} {l : List Nat} (h0 : Steady s0 s) : Steady s0 (State.pickSome s n l).2 := by
  induction n generalizing s l with
  | zero => unfold State.pickSome; exact h0
  | succ m ih =>
    unfold State.pickSome
    try dsimp only
    with_reducible repeat' first | assumption | apply Steady.ite_snd | apply ih | apply steady_takeFree

theorem steady_reserveCells {s0 s : State} {ten comb n : Nat} {scrubbed : Bool} (h0 : Steady s0 s) : Steady s0 (State.reserveCells s ten comb n scrubbed) := by
  unfold State.reserveCells
  with_reducible repeat' first | assumption | apply Steady.ite | apply steady_updComb | apply steady_pickSome

theorem steady_startPke {s0 s : State} {h : HostView} {ten lring : Nat} {c : Cmd} (h0 : Steady s0 s) : Steady s0 (State.startPke s h ten lring c) := by
  unfold State.startPke
  with_reducible repeat' first | assumption | apply steady_updCmd | apply steady_charge | apply steady_done | split

theorem steady_pke {s0 s : State} {ten lring seq op : Nat} {f : State → Cmd → State} (h_f : ∀ z x1, Steady z (f z x1)) (h0 : Steady s0 s) : Steady s0 (State.pke s ten lring seq op f) := by
  unfold State.pke
  with_reducible repeat' first | exact Steady.refl _ | assumption | intro _ | apply Steady.onlyIf | apply steady_onStarted | apply Steady.trans _ (h_f ..)

theorem steady_rejectPoint {s0 s : State} (h0 : Steady s0 s) : Steady s0 (State.rejectPoint s) := ⟨h0.1, h0.2⟩

theorem steady_storeKey {s0 s : State} {ten : Nat} {b priv : List Byte} (h0 : Steady s0 s) : Steady s0 (State.storeKey s ten b priv) := steady_updTen h0

theorem steady_closeEpoch {s0 s : State} (h0 : Steady s0 s) : Steady s0 (State.closeEpoch s) := by
  unfold State.closeEpoch
  with_reducible repeat' first | assumption | apply Steady.ite | simp only [steady_mk]

theorem steady_setWall {s0 s : State} {v : Nat} (h0 : Steady s0 s) : Steady s0 (State.setWall s v) := by
  unfold State.setWall
  with_reducible repeat' first | assumption | apply steady_closeEpoch | simp only [steady_mk]

theorem steady_finishCopy {s0 s : State} {h : HostView} {ten lring : Nat} {c : Cmd} (h0 : Steady s0 s) : Steady s0 (State.finishCopy s h ten lring c) := by
  unfold State.finishCopy
  dsimp only
  with_reducible repeat' first | assumption | apply Steady.onlyIf | apply steady_emit | apply steady_hostWrite | apply steady_writeObj | apply steady_finish | split

theorem steady_finishDone {s0 s : State} {ten lring : Nat} {c : Cmd} (h0 : Steady s0 s) : Steady s0 (State.finishDone s ten lring c) := by
  unfold State.finishDone
  with_reducible repeat' first | assumption | apply Steady.ite | apply steady_finish

theorem steady_paceComb {s0 s : State} {c : Nat} {m : CombMeasure} {exceed : Bool} (h0 : Steady s0 s) : Steady s0 (State.paceComb s c m exceed) := by
  unfold State.paceComb
  with_reducible repeat' first | assumption | apply Steady.ite | apply steady_updComb

theorem steady_abortRun {s0 s : State} {g : SegRun} (h0 : Steady s0 s) : Steady s0 (State.abortRun s g) := by
  unfold State.abortRun
  with_reducible repeat' first | assumption | apply steady_dropSeg | apply steady_unrefSeg | apply steady_releaseCells | apply steady_chargeRun

theorem steady_abortWith {s0 s : State} {g : SegRun} {e : Err} (h0 : Steady s0 s) : Steady s0 (State.abortWith s g e) := by
  unfold State.abortWith
  with_reducible repeat' first | assumption | apply steady_logRec | apply steady_failEval | apply steady_abortRun

theorem steady_combCritical {s0 s : State} {c : Nat} (h0 : Steady s0 s) : Steady s0 (State.combCritical s c) := by
  unfold State.combCritical
  with_reducible repeat' first | exact Steady.refl _ | assumption | intro _ | apply steady_updComb | apply steady_requeueGang | apply steady_abortWith | apply Steady.foldl | split

theorem steady_beginEmergency {s0 s : State} (h0 : Steady s0 s) : Steady s0 (State.beginEmergency s) := by
  unfold State.beginEmergency
  with_reducible repeat' first | exact Steady.refl _ | assumption | intro _ | apply steady_updComb | apply steady_logRec | apply Steady.foldl | simp only [steady_mk]

theorem steady_powerDown {s0 s : State} (h0 : Steady s0 s) : Steady s0 (State.powerDown s) := ⟨h0.1, h0.2⟩

theorem steady_stopRun {s0 s : State} {g : SegRun} (h0 : Steady s0 s) : Steady s0 (State.stopRun s g) := by
  unfold State.stopRun
  with_reducible repeat' first | exact Steady.refl _ | assumption | intro _ | apply steady_updCell | apply steady_updSeg | apply Steady.foldl

theorem steady_drainGang {s0 s : State} {g : SegRun} (h0 : Steady s0 s) : Steady s0 (State.drainGang s g) := by
  unfold State.drainGang
  with_reducible repeat' first | exact Steady.refl _ | assumption | intro _ | apply Steady.ite | apply steady_requeueGang | apply steady_stopRun | apply Steady.foldl

theorem steady_faultComb {s0 s : State} {c source cell : Nat} (h0 : Steady s0 s) : Steady s0 (State.faultComb s c source cell) := by
  unfold State.faultComb
  with_reducible repeat' first | exact Steady.refl _ | assumption | intro _ | apply steady_updComb | apply steady_logRec | apply steady_drainGang | apply Steady.foldl | simp only [steady_mk] | split

theorem steady_dropAdvert {s0 s : State} {p : Nat} (h0 : Steady s0 s) : Steady s0 (State.dropAdvert s p) := ⟨h0.1, h0.2⟩

theorem steady_unkeyPort {s0 s : State} {p : Nat} {st : LinkState} (h0 : Steady s0 s) : Steady s0 (State.unkeyPort s p st) := by
  unfold State.unkeyPort
  with_reducible repeat' first | assumption | apply steady_updPort | apply steady_dropAdvert

theorem steady_laneEvent {s0 s : State} {b d bit : Nat} (h0 : Steady s0 s) : Steady s0 (State.laneEvent s b d bit) := by
  unfold State.laneEvent
  with_reducible repeat' first | assumption | apply steady_logRec | simp only [steady_mk]

theorem steady_isolateEdge {s0 s : State} {e : Nat} (h0 : Steady s0 s) : Steady s0 (State.isolateEdge s e) := by
  unfold State.isolateEdge
  with_reducible repeat' first | exact Steady.refl _ | assumption | intro _ | apply steady_unkeyPort | apply Steady.foldl | simp only [steady_mk]

theorem steady_isolateComb {s0 s : State} {c : Nat} {service : Bool} (h0 : Steady s0 s) : Steady s0 (State.isolateComb s c service) := by
  unfold State.isolateComb
  with_reducible repeat' first | assumption | apply Steady.ite | apply steady_updComb | apply steady_faultComb | simp only [steady_mk]

theorem steady_loseSense {s0 s : State} {b d : Nat} {service : Bool} (h0 : Steady s0 s) : Steady s0 (State.loseSense s b d service) := by
  unfold State.loseSense
  with_reducible repeat' first | assumption | apply Steady.ite | apply steady_laneEvent | apply steady_isolateEdge | apply steady_isolateComb

theorem steady_setWidth {s0 s : State} {b d : Nat} {w : DirState} (h0 : Steady s0 s) : Steady s0 (State.setWidth s b d w) := by
  unfold State.setWidth
  with_reducible repeat' first | assumption | apply Steady.ite | apply steady_updDir | apply steady_laneEvent

theorem steady_testDirection {s0 s : State} {b d mask : Nat} (h0 : Steady s0 s) : Steady s0 (State.testDirection s b d mask) := by
  unfold State.testDirection
  with_reducible repeat' first | assumption | apply steady_updDir | apply steady_setWidth

theorem steady_testBundles {s0 s : State} {lo n : Nat} {fails : List (Nat × Nat × Nat)} (h0 : Steady s0 s) : Steady s0 (State.testBundles s lo n fails) := by
  unfold State.testBundles
  with_reducible repeat' first | exact Steady.refl _ | assumption | intro _ | apply Steady.ite | apply steady_loseSense | apply steady_testDirection | apply Steady.foldl

theorem steady_classify {s0 s : State} {comb : Nat} {g : SegRun} (h0 : Steady s0 s) : Steady s0 (State.classify s comb g) := by
  unfold State.classify
  with_reducible repeat' first | assumption | apply Steady.ite | apply steady_dropSeg | apply steady_unrefSeg | apply steady_releaseCells | apply steady_failEval | apply steady_requeueGang | apply steady_afterRun

theorem steady_moveCopies {s0 s : State} {comb : Nat} (h0 : Steady s0 s) : Steady s0 (State.moveCopies s comb) := by
  unfold State.moveCopies
  with_reducible repeat' first | exact Steady.refl _ | assumption | intro _ | apply steady_updCmd | apply steady_logRec | apply steady_finish | apply Steady.foldl | simp only [steady_mk] | split

theorem steady_failLoads {s0 s : State} {comb : Nat} (h0 : Steady s0 s) : Steady s0 (State.failLoads s comb) := by
  unfold State.failLoads
  with_reducible repeat' first | exact Steady.refl _ | assumption | intro _ | apply steady_finish | apply steady_dropLoad | apply Steady.foldl | split

theorem steady_zeroCells {s0 s : State} {c : Nat} (h0 : Steady s0 s) : Steady s0 (State.zeroCells s c) := by
  unfold State.zeroCells
  with_reducible repeat' first | exact Steady.refl _ | assumption | intro _ | apply steady_updComb | apply steady_updCell | apply Steady.foldl | simp only [steady_mk]

theorem steady_moveYielded {s0 s : State} {comb : Nat} (h0 : Steady s0 s) : Steady s0 (State.moveYielded s comb) := by
  unfold State.moveYielded
  with_reducible repeat' first | exact Steady.refl _ | assumption | intro _ | apply steady_classify | apply Steady.foldl | split

theorem steady_logUncorrectable {s0 s : State} {ten dpa : Nat} (h0 : Steady s0 s) : Steady s0 (State.logUncorrectable s ten dpa) := by
  unfold State.logUncorrectable
  with_reducible repeat' first | assumption | apply steady_takeFree | apply steady_logRec | simp only [steady_mk]

theorem steady_failEvals {s0 s : State} {ten : Nat} {p : Eval → Bool} (h0 : Steady s0 s) : Steady s0 (State.failEvals s ten p) := by
  unfold State.failEvals
  with_reducible repeat' first | exact Steady.refl _ | assumption | intro _ | apply Steady.ite | apply steady_failEval | apply Steady.foldl

theorem steady_hitKeysets {s0 s : State} {ten obj : Nat} (h0 : Steady s0 s) : Steady s0 (State.hitKeysets s ten obj) := by
  unfold State.hitKeysets
  with_reducible repeat' first | assumption | apply steady_updTen | apply steady_failEvals

theorem steady_hitWeights {s0 s : State} {ten obj : Nat} (h0 : Steady s0 s) : Steady s0 (State.hitWeights s ten obj) := by
  unfold State.hitWeights
  with_reducible repeat' first | assumption | apply steady_updTen | apply steady_failEvals

theorem steady_hitObject {s0 s : State} {id : Nat} {o : DramObj} {blocks : List Nat} (h0 : Steady s0 s) : Steady s0 (s.hitObject id o blocks) := by
  unfold State.hitObject
  dsimp only
  have h1 : Steady s0 { s with dram := s.dram.poisonBlocks blocks } := ⟨h0.1, h0.2⟩
  generalize ({ s with dram := s.dram.poisonBlocks blocks } : State) = x at h1
  split
  · exact steady_hitKeysets h1
  · exact steady_hitWeights h1
  · exact h1
  · exact steady_updTen h1

theorem steady_hitBlock {s0 s : State} {dpa : Nat} (h0 : Steady s0 s) : Steady s0 (State.hitBlock s dpa) := by
  unfold State.hitBlock
  with_reducible repeat' first | assumption | apply steady_logUncorrectable | apply steady_hitObject | split

theorem steady_sendAttestation {s0 s : State} {port : Nat} {bytes : List Byte} (h0 : Steady s0 s) : Steady s0 (State.sendAttestation s port bytes) := by
  unfold State.sendAttestation
  with_reducible repeat' first | exact Steady.refl _ | assumption | intro _ | apply steady_emit | apply Steady.foldl

theorem steady_sendSealed {s0 s : State} {port : Nat} {header payload : List Byte} (h0 : Steady s0 s) : Steady s0 (State.sendSealed s port header payload) := by
  unfold State.sendSealed
  dsimp only
  with_reducible repeat' first | assumption | apply Steady.onlyIf | apply steady_emit | apply steady_updPort | split

theorem steady_sendFreePayload {s0 s : State} {port type vc : Nat} (h0 : Steady s0 s) : Steady s0 (State.sendFreePayload s port type vc) := by
  unfold State.sendFreePayload
  with_reducible repeat' first | assumption | apply steady_skipFrees | apply steady_sendSealed

theorem steady_sendCredit {s0 s : State} {port : Nat} (h0 : Steady s0 s) : Steady s0 (State.sendCredit s port) := steady_sendFreePayload h0

theorem steady_drawDescriptor {s0 s : State} {c : SwarmCfg} {port : Nat} {rekey : Bool} (h0 : Steady s0 s) : Steady s0 (State.drawDescriptor s c port rekey) := by
  unfold State.drawDescriptor
  with_reducible repeat' first | assumption | apply steady_takeBytes | apply steady_updPort

theorem steady_attest {s0 s : State} {port : Nat} (h0 : Steady s0 s) : Steady s0 (State.attest s port) := by
  unfold State.attest
  with_reducible repeat' first | assumption | apply steady_sendAttestation | apply steady_drawDescriptor | split

theorem steady_attestSignatures {s0 s : State} {port : Nat} {nonce : List Byte} (h0 : Steady s0 s) : Steady s0 (State.attestSignatures s port nonce).2 := by
  unfold State.attestSignatures
  with_reducible repeat' first | assumption | apply steady_takeBytes

theorem steady_answerNonce {s0 s : State} {port : Nat} {nonce : List Byte} (h0 : Steady s0 s) : Steady s0 (State.answerNonce s port nonce) := by
  unfold State.answerNonce
  with_reducible repeat' first | assumption | apply Steady.ite | apply steady_updPort | apply steady_sendAttestation | apply steady_attestSignatures

theorem steady_toAttesting {s0 s : State} {port : Nat} (h0 : Steady s0 s) : Steady s0 (State.toAttesting s port) := by
  unfold State.toAttesting
  with_reducible repeat' first | assumption | apply steady_unkeyPort | apply steady_attest

theorem steady_quarantine {s0 s : State} {port reason : Nat} (h0 : Steady s0 s) : Steady s0 (State.quarantine s port reason) := by
  unfold State.quarantine
  with_reducible repeat' first | assumption | apply Steady.ite | apply steady_updPort | apply steady_unkeyPort | simp only [steady_mk]

theorem steady_tryTrain {s0 s : State} {port : Nat} (h0 : Steady s0 s) : Steady s0 (State.tryTrain s port) := by
  unfold State.tryTrain
  with_reducible repeat' first | assumption | apply Steady.ite | apply steady_unkeyPort

theorem steady_tryTrainAll {s0 s : State} (h0 : Steady s0 s) : Steady s0 (State.tryTrainAll s) := by
  unfold State.tryTrainAll
  with_reducible repeat' first | exact Steady.refl _ | assumption | intro _ | apply steady_tryTrain | apply Steady.foldl

theorem steady_installKeys {s0 s : State} {port reason : Nat} {d : List Byte} (h0 : Steady s0 s) : Steady s0 (State.installKeys s port reason d) := by
  unfold State.installKeys
  with_reducible repeat' first | assumption | apply Steady.ite | apply steady_updPort | apply steady_unkeyPort | apply steady_quarantine

theorem steady_countPoint {s0 s : State} {port : Nat} {d certs sigs : List Byte} (h0 : Steady s0 s) : Steady s0 (State.countPoint s port d certs sigs) := by
  unfold State.countPoint
  with_reducible repeat' first | assumption | apply Steady.ite | simp only [steady_mk]

theorem steady_judge {s0 s : State} {c : SwarmCfg} {port : Nat} {d certs sigs : List Byte} (h0 : Steady s0 s) : Steady s0 (State.judge s c port d certs sigs) := by
  unfold State.judge
  with_reducible repeat' first | assumption | apply steady_countPoint | apply Steady.ite | apply steady_sendFreePayload | apply steady_quarantine | apply steady_installKeys

theorem steady_queueDescriptor {s0 s : State} {port : Nat} (h0 : Steady s0 s) : Steady s0 (State.queueDescriptor s port) := by
  unfold State.queueDescriptor
  with_reducible repeat' first | exact Steady.refl _ | assumption | intro _ | apply steady_enqueue | apply Steady.foldl

theorem steady_judgeRekey {s0 s : State} {c : SwarmCfg} {port : Nat} {d certs sigs : List Byte} (h0 : Steady s0 s) : Steady s0 (State.judgeRekey s c port d certs sigs) := by
  unfold State.judgeRekey
  with_reducible repeat' first | assumption | apply Steady.ite | apply steady_skipFrees | apply steady_updPort | apply steady_enqueue | apply steady_judge

theorem steady_rekeyReceive {s0 s : State} {c : SwarmCfg} {port : Nat} {d certs sigs : List Byte} (h0 : Steady s0 s) : Steady s0 (State.rekeyReceive s c port d certs sigs) := by
  unfold State.rekeyReceive
  with_reducible repeat' first | assumption | apply Steady.ite | apply steady_drawDescriptor | apply steady_queueDescriptor | apply steady_judgeRekey

theorem steady_nextFrame {s0 s : State} {port : Nat} (h0 : Steady s0 s) : Steady s0 (State.nextFrame s port).2 := by
  unfold State.nextFrame
  dsimp only
  with_reducible repeat' first | assumption | apply steady_takeFree | split

theorem steady_transmit {s0 s : State} {port : Nat} {f : QFrame} (h0 : Steady s0 s) : Steady s0 (State.transmit s port f) := by
  unfold State.transmit
  with_reducible repeat' first | assumption | apply steady_updPort | apply steady_sendSealed | apply steady_sendCredit | split

theorem steady_tagFailed {s0 s : State} {port : Nat} (h0 : Steady s0 s) : Steady s0 (State.tagFailed s port) := by
  unfold State.tagFailed
  with_reducible repeat' first | assumption | apply steady_updPort | apply steady_sendCredit

theorem steady_mgmtArrive {s0 s : State} {src : Nat} (h0 : Steady s0 s) : Steady s0 (State.mgmtArrive s src) := by
  unfold State.mgmtArrive
  with_reducible repeat' first | assumption | apply Steady.ite | apply steady_skipFrees | apply steady_updEval | apply steady_failEval

theorem steady_collect {s0 s : State} {port : Nat} {e : Edge} {h payload : List Byte} (h0 : Steady s0 s) : Steady s0 (State.collect s port e h payload) := by
  unfold State.collect
  with_reducible repeat' first | assumption | apply Steady.ite | apply steady_sendCredit | simp only [steady_mk]

theorem steady_dataArrive {s0 s : State} {c : SwarmCfg} {port : Nat} {h payload : List Byte} (h0 : Steady s0 s) : Steady s0 (State.dataArrive s c port h payload) := by
  unfold State.dataArrive
  dsimp only
  with_reducible repeat' first | assumption | apply steady_logRec | apply steady_sendCredit | apply steady_collect | split

theorem steady_forward {s0 s : State} {port : Nat} {h payload : List Byte} (h0 : Steady s0 s) : Steady s0 (State.forward s port h payload) := by
  unfold State.forward
  with_reducible repeat' first | assumption | apply Steady.ite | apply steady_enqueue | apply steady_sendMgmt | apply steady_sendCredit

theorem steady_deliver {s0 s : State} {c : SwarmCfg} {port : Nat} {h payload : List Byte} (h0 : Steady s0 s) : Steady s0 (State.deliver s c port h payload) := by
  unfold State.deliver
  with_reducible repeat' first | assumption | apply Steady.ite | apply steady_skipFrees | apply steady_updPort | apply steady_sendCredit | apply steady_mgmtArrive | apply steady_dataArrive | apply steady_forward

theorem steady_receiveSealed {s0 s : State} {c : SwarmCfg} {port : Nat} {frame : List Byte} (h0 : Steady s0 s) : Steady s0 (State.receiveSealed s c port frame) := by
  unfold State.receiveSealed
  dsimp only
  with_reducible repeat' first | assumption | apply steady_takeFree | apply steady_updPort | apply steady_sendCredit | apply steady_tagFailed | apply steady_deliver | split

theorem steady_receiveAttestation {s0 s : State} {port : Nat} {frame : List Byte} (h0 : Steady s0 s) : Steady s0 (State.receiveAttestation s port frame) := by
  unfold State.receiveAttestation
  dsimp only
  with_reducible repeat' first | assumption | apply steady_attest | apply steady_answerNonce | apply steady_toAttesting | split

theorem steady_sendRekey {s0 s : State} {c : SwarmCfg} {port : Nat} (h0 : Steady s0 s) : Steady s0 (State.sendRekey s c port) := by
  unfold State.sendRekey
  with_reducible repeat' first | assumption | apply Steady.ite | apply steady_updPort | apply steady_drawDescriptor | apply steady_queueDescriptor

theorem steady_releaseHeld {s0 s : State} {m : FabricMsg} (h0 : Steady s0 s) : Steady s0 (State.releaseHeld s m) := by
  unfold State.releaseHeld
  with_reducible repeat' first | exact Steady.refl _ | assumption | intro _ | apply steady_sendCredit | apply Steady.foldl

theorem steady_dropMsg {s0 s : State} {m : FabricMsg} (h0 : Steady s0 s) : Steady s0 (State.dropMsg s m) := ⟨h0.1, h0.2⟩

theorem steady_landMsg {s0 s : State} {e : Edge} {x : Session} {m : FabricMsg} (h0 : Steady s0 s) : Steady s0 (State.landMsg s e x m) := by
  unfold State.landMsg
  with_reducible repeat' first | exact Steady.refl _ | assumption | intro _ | apply steady_writeObj | apply Steady.foldl | simp only [steady_mk]

theorem steady_half {s0 s : State} {x : Int} (h0 : Steady s0 s) : Steady s0 (State.half s x).2 := steady_takeFree h0

theorem steady_median {s0 s : State} {l : List Int} (h0 : Steady s0 s) : Steady s0 (State.median s l).2 := by
  unfold State.median
  dsimp only
  with_reducible repeat' first | assumption | apply steady_half | split

theorem steady_unsync {s0 s : State} (h0 : Steady s0 s) : Steady s0 (State.unsync s) := ⟨h0.1, h0.2⟩

theorem steady_chooseRoot {s0 s : State} {me : Nat} (h0 : Steady s0 s) : Steady s0 (State.chooseRoot s me) := ⟨h0.1, h0.2⟩

theorem steady_steer {s0 s : State} {port : Nat} {offset : Int} (h0 : Steady s0 s) : Steady s0 (State.steer s port offset) := by
  unfold State.steer
  with_reducible repeat' first | assumption | apply Steady.ite | apply steady_takeFree | apply steady_median | apply steady_unsync | simp only [steady_mk]

theorem steady_bootSlot {s0 s : State} (h0 : Steady s0 s) : Steady s0 (State.bootSlot s).1 := by
  unfold State.bootSlot
  with_reducible repeat' first | assumption | simp only [steady_mk] | split

theorem steady_saveSettings {s0 s : State} (h0 : Steady s0 s) : Steady s0 (State.saveSettings s) := by
  unfold State.saveSettings
  with_reducible repeat' first | assumption | apply Steady.ite | simp only [steady_mk]

theorem steady_readBook {s0 s : State} (h0 : Steady s0 s) : Steady s0 (State.readBook s) := by
  unfold State.readBook
  with_reducible repeat' first | assumption | apply steady_saveSettings | simp only [steady_mk] | split

theorem steady_tnRestoreAll {s0 s : State} {base : Nat} {done : Tbl TnSet} {bad : Bool} {l : Tbl TnSet} (h0 : Steady s0 s) : Steady s0 (State.tnRestoreAll s base done bad l).1 := by
  induction l generalizing s done bad with
  | nil => unfold State.tnRestoreAll; exact h0
  | cons a r ih =>
    unfold State.tnRestoreAll
    try dsimp only
    with_reducible repeat' first | exact Steady.refl _ | assumption | intro _ | apply ih | apply steady_updTen | apply steady_logRec | apply Steady.foldl

theorem steady_restoreTn {s0 s : State} (h0 : Steady s0 s) : Steady s0 (State.restoreTn s) := by
  unfold State.restoreTn
  with_reducible repeat' first | assumption | apply Steady.ite | apply steady_saveSettings | apply steady_tnRestoreAll | simp only [steady_mk]

theorem steady_warmClear {s0 s : State} {code : Nat} (h0 : Steady s0 s) : Steady s0 (s.warmClear code) := ⟨h0.1, h0.2⟩

theorem steady_coldClear {s0 s : State} {t : Nat} (h0 : Steady s0 s) : Steady s0 (s.coldClear t) := ⟨fun _ => rfl, h0.2⟩

theorem steady_combsUp {s0 s : State} (h0 : Steady s0 s) : Steady s0 (State.combsUp s) := by
  unfold State.combsUp
  with_reducible repeat' first | exact Steady.refl _ | assumption | intro _ | apply steady_updComb | apply Steady.foldl

theorem steady_reserveAll {s0 s : State} (h0 : Steady s0 s) : Steady s0 (State.reserveAll s) := by
  unfold State.reserveAll
  with_reducible repeat' first | exact Steady.refl _ | assumption | intro _ | apply steady_reserveCells | apply Steady.foldl

theorem steady_recover {s0 s : State} (h0 : Steady s0 s) : Steady s0 (State.recover s) := ⟨h0.1, h0.2⟩

theorem steady_queen {s0 s : State} {slot : Nat} {keep : Bool} (h0 : Steady s0 s) : Steady s0 (State.queen s slot keep) := by
  unfold State.queen
  with_reducible repeat' first | assumption | apply Steady.ite | apply steady_rebaseSteps | apply steady_readBook | apply steady_restoreTn | apply steady_combsUp | apply steady_reserveAll | simp only [steady_mk]

theorem steady_start {s0 s : State} {cold : Bool} (h0 : Steady s0 s) : Steady s0 (State.start s cold) := by
  unfold State.start
  dsimp only
  with_reducible repeat' first | assumption | apply steady_bootSlot | apply steady_recover | apply steady_queen | split

theorem steady_failStart {s0 s : State} {cause : Nat} (h0 : Steady s0 s) : Steady s0 (State.failStart s cause) := ⟨h0.1, h0.2⟩

theorem steady_killCmd {s0 s : State} {ten lring seq : Nat} {e : Err} (h0 : Steady s0 s) : Steady s0 (State.killCmd s ten lring seq e) := by
  unfold State.killCmd
  with_reducible repeat' first | exact Steady.refl _ | assumption | intro _ | apply steady_finishLive | apply steady_abortRun | apply Steady.foldl

theorem steady_endCmds {s0 s : State} {on : Nat → Bool} {all : Bool} (h0 : Steady s0 s) : Steady s0 (State.endCmds s on all) := by
  unfold State.endCmds
  with_reducible repeat' first | exact Steady.refl _ | assumption | intro _ | apply Steady.ite | apply steady_killCmd | apply Steady.foldl

theorem steady_warm {s0 s : State} {code : Nat} (h0 : Steady s0 s) : Steady s0 (State.warm s code) := by
  unfold State.warm
  with_reducible repeat' first | assumption | apply steady_warmClear | apply steady_start

theorem steady_flr {s0 s : State} {ten : Nat} (h0 : Steady s0 s) : Steady s0 (s.flr ten) := by
  unfold State.flr
  dsimp only
  have h1 : Steady s0 ((s.segs.filter fun g => g.ten == ten).foldl (fun s g => s.abortRun g) s) := Steady.foldl (fun _ _ => steady_abortRun (Steady.refl _)) h0
  generalize (s.segs.filter fun g => g.ten == ten).foldl (fun s g => s.abortRun g) s = x at h1
  refine Steady.foldl (fun _ _ => Steady.foldl (fun _ _ => steady_updCell (Steady.refl _)) (steady_updComb (Steady.refl _))) (steady_updTen ?_)
  exact ⟨h1.1, h1.2⟩

theorem steady_resetTenant {s0 s : State} {ten : Nat} {drain : Bool} (h0 : Steady s0 s) : Steady s0 (State.resetTenant s ten drain) := by
  unfold State.resetTenant
  with_reducible repeat' first | assumption | apply Steady.ite | apply steady_logDropped | apply steady_endCmds | apply steady_flr | simp only [steady_mk]

theorem steady_afterDrain {s0 s : State} (h0 : Steady s0 s) : Steady s0 (State.afterDrain s) := by
  unfold State.afterDrain
  with_reducible repeat' first | exact Steady.refl _ | assumption | intro _ | apply Steady.ite | apply steady_warm | apply steady_flr | apply Steady.foldl

theorem steady_resetWarm {s0 s : State} {drain : Bool} (h0 : Steady s0 s) : Steady s0 (State.resetWarm s drain) := by
  unfold State.resetWarm
  with_reducible repeat' first | assumption | apply Steady.ite | apply steady_logDropped | apply steady_endCmds | apply steady_warm | apply steady_afterDrain | simp only [steady_mk]

theorem steady_resetPort {s0 s : State} {port : Nat} (h0 : Steady s0 s) : Steady s0 (State.resetPort s port) := by
  unfold State.resetPort
  with_reducible repeat' first | assumption | apply Steady.ite | apply steady_logDropped | apply steady_unkeyPort | apply steady_tryTrain

theorem steady_writePwReset {s0 s : State} {v : Nat} (h0 : Steady s0 s) : Steady s0 (State.writePwReset s v) := by
  unfold State.writePwReset
  with_reducible repeat' first | assumption | apply steady_logDropped | apply steady_resetTenant | apply steady_resetWarm | apply steady_resetPort | split

theorem steady_wake {s0 s : State} {testFail : List (Nat × Nat × Nat)} (h0 : Steady s0 s) : Steady s0 (State.wake s testFail) := by
  unfold State.wake
  with_reducible repeat' first | exact Steady.refl _ | assumption | intro _ | apply steady_updComb | apply steady_testBundles | apply steady_zeroCells | apply steady_tryTrainAll | apply steady_combsUp | apply Steady.foldl | simp only [steady_mk]

theorem steady_setFw {s0 s : State} {f : Firmware → Firmware} (h0 : Steady s0 s) : Steady s0 (State.setFw s f) := ⟨h0.1, h0.2⟩

theorem steady_fwResult {s0 s : State} {r : Nat} (h0 : Steady s0 s) : Steady s0 (State.fwResult s r) := steady_setFw h0

theorem steady_fwOp {s0 s : State} {value : Nat} {f : State → State} (h_f : ∀ z, Steady z (f z)) (h0 : Steady s0 s) : Steady s0 (State.fwOp s value f) := by
  unfold State.fwOp
  with_reducible repeat' first | assumption | apply Steady.ite | apply steady_logDropped | apply Steady.trans _ (h_f ..)

theorem steady_setOwnerLock {s0 s : State} {v : Bool} (h0 : Steady s0 s) : Steady s0 (State.setOwnerLock s v) := by
  unfold State.setOwnerLock
  with_reducible repeat' first | assumption | apply Steady.ite | apply steady_saveSettings | simp only [steady_mk]

theorem steady_fwStart {s0 s : State} {value : Nat} {h : HostView} (h0 : Steady s0 s) : Steady s0 (State.fwStart s value h) := by
  unfold State.fwStart
  dsimp only
  with_reducible repeat' first | exact Steady.refl _ | assumption | intro _ | apply steady_setFw | apply steady_fwResult | apply steady_fwOp | apply steady_setOwnerLock | split

theorem steady_refuseStart {s0 s : State} {r : Nat} (h0 : Steady s0 s) : Steady s0 (State.refuseStart s r) := steady_setFw h0

theorem steady_recordOp {s0 s : State} {op : Nat} {allowed : Bool} {f : Firmware → Firmware} (h0 : Steady s0 s) : Steady s0 (State.recordOp s op allowed f) := by
  unfold State.recordOp
  with_reducible repeat' first | exact Steady.refl _ | assumption | intro _ | apply Steady.ite | apply steady_setFw | apply steady_fwResult | apply steady_fwOp

theorem steady_fwActivate {s0 s : State} (h0 : Steady s0 s) : Steady s0 (State.fwActivate s) := steady_recordOp h0

theorem steady_fwRollback {s0 s : State} (h0 : Steady s0 s) : Steady s0 (State.fwRollback s) := steady_recordOp h0

theorem steady_fwAbort {s0 s : State} (h0 : Steady s0 s) : Steady s0 (State.fwAbort s) := by
  unfold State.fwAbort
  with_reducible repeat' first | exact Steady.refl _ | assumption | intro _ | apply Steady.ite | apply steady_setFw | apply steady_fwResult | apply steady_fwOp

theorem steady_relink {s0 s : State} {c : SwarmCfg} (h0 : Steady s0 s) : Steady s0 (State.relink s c) := by
  unfold State.relink
  with_reducible repeat' first | exact Steady.refl _ | assumption | intro _ | apply Steady.ite | apply steady_unkeyPort | apply steady_toAttesting | apply steady_tryTrain | apply Steady.foldl

theorem steady_useSwarm {s0 s : State} {c : SwarmCfg} (h0 : Steady s0 s) : Steady s0 (State.useSwarm s c) := by
  unfold State.useSwarm
  with_reducible repeat' first | assumption | apply steady_rebaseSteps | apply steady_saveSettings | apply steady_relink | simp only [steady_mk]

theorem steady_loadSwarm {s0 s : State} {h : HostView} (h0 : Steady s0 s) : Steady s0 (State.loadSwarm s h) := by
  unfold State.loadSwarm
  with_reducible repeat' first | assumption | apply steady_useSwarm | simp only [steady_mk] | split

theorem steady_setSettings {s0 s : State} {f : Settings → Settings} (h0 : Steady s0 s) : Steady s0 (State.setSettings s f) := by
  unfold State.setSettings
  with_reducible repeat' first | assumption | apply steady_saveSettings | simp only [steady_mk]

theorem steady_tnDrop {s0 s : State} {ten off v cause : Nat} (h0 : Steady s0 s) : Steady s0 (State.tnDrop s ten off v cause) := by
  unfold State.tnDrop
  with_reducible repeat' first | assumption | apply steady_updTen | apply steady_logDropped

theorem steady_tnAccept {s0 s : State} {ten : Nat} {x : TnSet} (h0 : Steady s0 s) : Steady s0 (State.tnAccept s ten x) := steady_setSettings h0

theorem steady_writeTnCtl {s0 s : State} {ten v raw : Nat} (h0 : Steady s0 s) : Steady s0 (State.writeTnCtl s ten v raw) := by
  unfold State.writeTnCtl
  with_reducible repeat' first | assumption | apply Steady.ite | apply steady_tnDrop | apply steady_tnAccept

theorem steady_writeTnShelf {s0 s : State} {ten v raw : Nat} (h0 : Steady s0 s) : Steady s0 (State.writeTnShelf s ten v raw) := by
  unfold State.writeTnShelf
  with_reducible repeat' first | assumption | apply Steady.ite | apply steady_tnDrop | apply steady_tnAccept

theorem steady_writeTnC0 {s0 s : State} {ten v raw : Nat} (h0 : Steady s0 s) : Steady s0 (State.writeTnC0 s ten v raw) := by
  unfold State.writeTnC0
  with_reducible repeat' first | exact Steady.refl _ | assumption | intro _ | apply Steady.ite | apply steady_reserveCells | apply steady_tnDrop | apply steady_tnAccept | apply Steady.foldl

theorem steady_writeTn {s0 s : State} {off v raw : Nat} (h0 : Steady s0 s) : Steady s0 (State.writeTn s off v raw) := by
  unfold State.writeTn
  with_reducible repeat' first | assumption | apply Steady.ite | apply steady_tnAccept | apply steady_writeTnCtl | apply steady_writeTnShelf | apply steady_writeTnC0 | simp only [steady_mk]

theorem steady_writeRg {s0 s : State} {fn off v : Nat} {lo : Bool} (h0 : Steady s0 s) : Steady s0 (State.writeRg s fn off v lo) := by
  unfold State.writeRg
  with_reducible repeat' first | assumption | apply Steady.ite | apply steady_updTen | apply steady_updRing | apply steady_writeRingCfg | apply steady_setSettings | simp only [steady_mk]

theorem steady_writeMt {s0 s : State} {off v : Nat} (h0 : Steady s0 s) : Steady s0 (State.writeMt s off v) := by
  unfold State.writeMt
  with_reducible repeat' first | assumption | apply Steady.ite | apply steady_setSettings | simp only [steady_mk]

theorem steady_writeSc {s0 s : State} {off v : Nat} {lo hi : Bool} (h0 : Steady s0 s) : Steady s0 (State.writeSc s off v lo hi) := by
  unfold State.writeSc
  with_reducible repeat' first | assumption | apply Steady.ite | simp only [steady_mk]

theorem steady_writeCb {s0 s : State} {off v raw : Nat} (h0 : Steady s0 s) : Steady s0 (State.writeCb s off v raw) := by
  unfold State.writeCb
  with_reducible repeat' first | assumption | apply Steady.ite | apply steady_updComb | apply steady_logDropped | apply steady_setSettings

theorem steady_writeDl {s0 s : State} {off v : Nat} {hi : Bool} (h0 : Steady s0 s) : Steady s0 (State.writeDl s off v hi) := by
  unfold State.writeDl
  with_reducible repeat' first | assumption | apply Steady.ite | apply steady_updDir | apply steady_setSettings | simp only [steady_mk]

theorem steady_writePortCtl {s0 s : State} {p v : Nat} (h0 : Steady s0 s) : Steady s0 (State.writePortCtl s p v) := by
  unfold State.writePortCtl
  with_reducible repeat' first | assumption | apply Steady.ite | apply steady_unkeyPort | apply steady_tryTrain | apply steady_setSettings

theorem steady_writeFb {s0 s : State} {off v : Nat} {lo hi : Bool} {h : HostView} (h0 : Steady s0 s) : Steady s0 (State.writeFb s off v lo hi h) := by
  unfold State.writeFb
  with_reducible repeat' first | assumption | apply Steady.ite | apply steady_updPort | apply steady_loadSwarm | apply steady_writePortCtl | simp only [steady_mk]

theorem steady_writePw {s0 s : State} {off v : Nat} (h0 : Steady s0 s) : Steady s0 (State.writePw s off v) := by
  unfold State.writePw
  with_reducible repeat' first | assumption | apply Steady.ite | apply steady_writePwReset | apply steady_setSettings

theorem steady_writeRs {s0 s : State} {off v : Nat} {lo hi : Bool} (h0 : Steady s0 s) : Steady s0 (State.writeRs s off v lo hi) := by
  unfold State.writeRs
  with_reducible repeat' first | assumption | apply Steady.ite | simp only [steady_mk]

theorem steady_writeCeil {s0 s : State} {k v : Nat} (h0 : Steady s0 s) : Steady s0 (State.writeCeil s k v) := steady_setSettings h0

end Sys2Proof.Laws
end

