-- ==== Sys2Proof/Laws/SteadyCommands.lean ====
section
/-! SUPPORT. What no command breaks: the canonical form of DRAM and, but for a commit, the fuses. One lemma for every command. -/

namespace Sys2Proof.Laws

open Sys2Proof Sys2Proof.Machine

theorem steady_execRingEnable {t fn value : Nat} {s s' : State} (h : execRingEnable t fn value s = .next s') : Steady s s' := by
  unfold execRingEnable at h
  refine Steady.run ?_ h
  try dsimp only
  with_reducible repeat' first | exact Steady.now _ _ | apply Steady.ite | apply Steady.onlyIf | apply steady_logDropped | apply steady_writeRingCfg

theorem steady_execRingDisable {t fn value : Nat} {s s' : State} (h : execRingDisable t fn value s = .next s') : Steady s s' := by
  unfold execRingDisable at h
  refine Steady.run ?_ h
  try dsimp only
  with_reducible repeat' first | exact Steady.now _ _ | apply Steady.ite | apply Steady.onlyIf | apply steady_logDropped | apply steady_writeRingCfg

theorem steady_execRingDrained {t ten lring : Nat} {s s' : State} (h : execRingDrained t ten lring s = .next s') : Steady s s' := by
  unfold execRingDrained at h
  refine Steady.run ?_ h
  try dsimp only
  with_reducible repeat' first | exact Steady.now _ _ | apply Steady.onlyIf | apply steady_updRing

theorem steady_execRingPoll {t cls : Nat} {h : HostView} {s s' : State} (h : execRingPoll t cls h s = .next s') : Steady s s' := by
  unfold execRingPoll at h
  refine Steady.run ?_ h
  try dsimp only
  with_reducible repeat' first | exact Steady.refl _ | exact Steady.now _ _ | intro _ | apply Steady.onlyIf | apply steady_scanRing | apply Steady.foldl | simp only [steady_mk]

theorem steady_execKick {t fn off width : Nat} {h : HostView} {s s' : State} (h : execKick t fn off width h s = .next s') : Steady s s' := by
  unfold execKick at h
  refine Steady.run ?_ h
  try dsimp only
  with_reducible repeat' first | exact Steady.refl _ | exact Steady.now _ _ | intro _ | apply Steady.ite | apply steady_logDropped | apply steady_scanRing | apply Steady.foldl

theorem steady_execMsixModTimer {t ten lring : Nat} {s s' : State} (h : execMsixModTimer t ten lring s = .next s') : Steady s s' := by
  unfold execMsixModTimer at h
  refine Steady.run ?_ h
  try dsimp only
  with_reducible repeat' first | exact Steady.now _ _ | apply Steady.onlyIf | apply steady_updRing | apply steady_interrupt | split

theorem steady_execHeldCommandRelease {t : Nat} {s s' : State} (h : execHeldCommandRelease t s = .next s') : Steady s s' := by
  unfold execHeldCommandRelease at h
  refine Steady.run ?_ h
  try dsimp only
  with_reducible repeat' first | exact Steady.now _ _ | apply Steady.onlyIf | simp only [steady_mk]

theorem steady_execEntropyHoldExpire {t ten lring seq : Nat} {s s' : State} (h : execEntropyHoldExpire t ten lring seq s = .next s') : Steady s s' := by
  unfold execEntropyHoldExpire at h
  refine Steady.run ?_ h
  try dsimp only
  with_reducible repeat' first | exact Steady.now _ _ | apply Steady.onlyIf | apply steady_finish | simp only [steady_mk] | split

theorem steady_execCmdFence {t ten lring seq : Nat} {s s' : State} (h : execCmdFence t ten lring seq s = .next s') : Steady s s' := by
  unfold execCmdFence at h
  refine Steady.run ?_ h
  try dsimp only
  with_reducible repeat' first | exact Steady.refl _ | exact Steady.now _ _ | intro _ | apply Steady.ite | apply Steady.onlyIf | apply steady_finish | apply steady_tryStart

theorem steady_execCmdSessionOpen {t ten lring seq : Nat} {s s' : State} (h : execCmdSessionOpen t ten lring seq s = .next s') : Steady s s' := by
  unfold execCmdSessionOpen at h
  refine Steady.run ?_ h
  try dsimp only
  with_reducible repeat' first | exact Steady.refl _ | exact Steady.now _ _ | intro _ | apply steady_tryStart | apply steady_openSession

theorem steady_execCmdSessionClose {t ten lring seq : Nat} {s s' : State} (h : execCmdSessionClose t ten lring seq s = .next s') : Steady s s' := by
  unfold execCmdSessionClose at h
  refine Steady.run ?_ h
  try dsimp only
  with_reducible repeat' first | exact Steady.refl _ | exact Steady.now _ _ | intro _ | apply steady_tryStart | apply steady_startClose

theorem steady_execCmdKeysetLoad {t ten lring seq : Nat} {h : HostView} {s s' : State} (h : execCmdKeysetLoad t ten lring seq h s = .next s') : Steady s s' := by
  unfold execCmdKeysetLoad at h
  refine Steady.run ?_ h
  try dsimp only
  with_reducible repeat' first | exact Steady.refl _ | exact Steady.now _ _ | intro _ | apply steady_tryStart | apply steady_done | apply steady_loadKeySet | split

theorem steady_execCmdModelRetire {t ten lring seq : Nat} {s s' : State} (h : execCmdModelRetire t ten lring seq s = .next s') : Steady s s' := by
  unfold execCmdModelRetire at h
  refine Steady.run ?_ h
  try dsimp only
  with_reducible repeat' first | exact Steady.refl _ | exact Steady.now _ _ | intro _ | apply steady_updTen | apply steady_finish | apply steady_tryStart | apply steady_sweepModel

theorem steady_execWait {t cell : Nat} {s s' : State} (h : execWait t cell s = .next s') : Steady s s' := by
  unfold execWait at h
  refine Steady.run ?_ h
  try dsimp only
  with_reducible repeat' first | exact Steady.refl _ | exact Steady.now _ _ | intro _ | apply steady_control

theorem steady_execPost {t cell : Nat} {s s' : State} (h : execPost t cell s = .next s') : Steady s s' := by
  unfold execPost at h
  refine Steady.run ?_ h
  try dsimp only
  with_reducible repeat' first | exact Steady.refl _ | exact Steady.now _ _ | intro _ | apply steady_postTokens | apply steady_control

theorem steady_execJump {t cell : Nat} {s s' : State} (h : execJump t cell s = .next s') : Steady s s' := by
  unfold execJump at h
  refine Steady.run ?_ h
  try dsimp only
  with_reducible repeat' first | exact Steady.refl _ | exact Steady.now _ _ | intro _ | apply steady_updCell | apply steady_control

theorem steady_execLoop {t cell : Nat} {s s' : State} (h : execLoop t cell s = .next s') : Steady s s' := by
  unfold execLoop at h
  refine Steady.run ?_ h
  try dsimp only
  with_reducible repeat' first | exact Steady.refl _ | exact Steady.now _ _ | intro _ | apply steady_updCell | apply steady_control

theorem steady_execHandoff {t cell : Nat} {s s' : State} (h : execHandoff t cell s = .next s') : Steady s s' := by
  unfold execHandoff at h
  refine Steady.run ?_ h
  try dsimp only
  with_reducible repeat' first | exact Steady.refl _ | exact Steady.now _ _ | intro _ | apply steady_updCell | apply steady_control

theorem steady_execHalt {t cell : Nat} {s s' : State} (h : execHalt t cell s = .next s') : Steady s s' := by
  unfold execHalt at h
  refine Steady.run ?_ h
  try dsimp only
  with_reducible repeat' first | exact Steady.refl _ | exact Steady.now _ _ | intro _ | apply steady_updCell | apply steady_control

theorem steady_execSetmod {t cell : Nat} {s s' : State} (h : execSetmod t cell s = .next s') : Steady s s' := by
  unfold execSetmod at h
  refine Steady.run ?_ h
  try dsimp only
  with_reducible repeat' first | exact Steady.refl _ | exact Steady.now _ _ | intro _ | apply steady_updCell | apply steady_control

theorem steady_execSetadv {t cell : Nat} {s s' : State} (h : execSetadv t cell s = .next s') : Steady s s' := by
  unfold execSetadv at h
  refine Steady.run ?_ h
  try dsimp only
  with_reducible repeat' first | exact Steady.refl _ | exact Steady.now _ _ | intro _ | apply steady_updCell | apply steady_control

theorem steady_execTimerLoad {t cell : Nat} {s s' : State} (h : execTimerLoad t cell s = .next s') : Steady s s' := by
  unfold execTimerLoad at h
  refine Steady.run ?_ h
  try dsimp only
  with_reducible repeat' first | exact Steady.refl _ | exact Steady.now _ _ | intro _ | apply steady_updCell | apply steady_timerOp

theorem steady_execTimerStop {t cell : Nat} {s s' : State} (h : execTimerStop t cell s = .next s') : Steady s s' := by
  unfold execTimerStop at h
  refine Steady.run ?_ h
  try dsimp only
  with_reducible repeat' first | exact Steady.refl _ | exact Steady.now _ _ | intro _ | apply steady_updCell | apply steady_timerOp

theorem steady_execLatchArm {t cell : Nat} {s s' : State} (h : execLatchArm t cell s = .next s') : Steady s s' := by
  unfold execLatchArm at h
  refine Steady.run ?_ h
  try dsimp only
  with_reducible repeat' first | exact Steady.refl _ | exact Steady.now _ _ | intro _ | apply Steady.ite | apply steady_updCell | apply steady_postToken | apply steady_timerOp

theorem steady_execLatchDisarm {t cell : Nat} {s s' : State} (h : execLatchDisarm t cell s = .next s') : Steady s s' := by
  unfold execLatchDisarm at h
  refine Steady.run ?_ h
  try dsimp only
  with_reducible repeat' first | exact Steady.refl _ | exact Steady.now _ _ | intro _ | apply steady_updCell | apply steady_timerOp

theorem steady_execTimerExpire {t cell timer : Nat} {s s' : State} (h : execTimerExpire t cell timer s = .next s') : Steady s s' := by
  unfold execTimerExpire at h
  refine Steady.run ?_ h
  try dsimp only
  with_reducible repeat' first | exact Steady.now _ _ | apply Steady.onlyIf | apply steady_updCell | apply steady_postToken | split

theorem steady_execWaggleStepEdge {t series : Nat} {s s' : State} (h : execWaggleStepEdge t series s = .next s') : Steady s s' := by
  unfold execWaggleStepEdge at h
  refine Steady.run ?_ h
  try dsimp only
  with_reducible repeat' first | exact Steady.refl _ | exact Steady.now _ _ | intro _ | apply Steady.onlyIf | apply steady_edgeAt | apply Steady.foldl | simp only [steady_mk]

theorem steady_execWinOpen {t cell : Nat} {s s' : State} (h : execWinOpen t cell s = .next s') : Steady s s' := by
  unfold execWinOpen at h
  refine Steady.run ?_ h
  try dsimp only
  with_reducible repeat' first | exact Steady.refl _ | exact Steady.now _ _ | intro _ | apply steady_updCell | apply steady_postOpt | apply steady_closeWindow | apply steady_issue

theorem steady_execWinClose {t cell : Nat} {s s' : State} (h : execWinClose t cell s = .next s') : Steady s s' := by
  unfold execWinClose at h
  refine Steady.run ?_ h
  try dsimp only
  with_reducible repeat' first | exact Steady.refl _ | exact Steady.now _ _ | intro _ | apply steady_closeWindow | apply steady_issue

theorem steady_execSegmentWatchdog {t seg : Nat} {s s' : State} (h : execSegmentWatchdog t seg s = .next s') : Steady s s' := by
  unfold execSegmentWatchdog at h
  refine Steady.run ?_ h
  try dsimp only
  with_reducible repeat' first | exact Steady.now _ _ | apply Steady.onlyIf | apply steady_takeFree | apply steady_failSeg | split

theorem steady_execMoveDirect {t cell : Nat} {s s' : State} (h : execMoveDirect t cell s = .next s') : Steady s s' := by
  unfold execMoveDirect at h
  refine Steady.run ?_ h
  try dsimp only
  with_reducible repeat' first | exact Steady.refl _ | exact Steady.now _ _ | intro _ | apply Steady.ite | apply steady_failSeg | apply steady_issue | apply steady_launchChecked

theorem steady_execMoveStencil {t cell : Nat} {h : HostView} {s s' : State} (h : execMoveStencil t cell h s = .next s') : Steady s s' := by
  unfold execMoveStencil at h
  refine Steady.run ?_ h
  try dsimp only
  with_reducible repeat' first | exact Steady.refl _ | exact Steady.now _ _ | intro _ | apply steady_failSeg | apply steady_issue | apply steady_launchChecked | apply steady_useKey | split

theorem steady_execMoveBankLoad {t cell : Nat} {s s' : State} (h : execMoveBankLoad t cell s = .next s') : Steady s s' := by
  unfold execMoveBankLoad at h
  refine Steady.run ?_ h
  try dsimp only
  with_reducible repeat' first | exact Steady.refl _ | exact Steady.now _ _ | intro _ | apply Steady.ite | apply steady_failSeg | apply steady_issue | apply steady_launch

theorem steady_execRemoteRead {t cell flight : Nat} {s s' : State} (h : execRemoteRead t cell flight s = .next s') : Steady s s' := by
  unfold execRemoteRead at h
  refine Steady.run ?_ h
  try dsimp only
  with_reducible repeat' first | exact Steady.now _ _ | apply Steady.onlyIf | apply steady_updFlight | split

theorem steady_execRemoteWriteArrive {t cell flight : Nat} {s s' : State} (h : execRemoteWriteArrive t cell flight s = .next s') : Steady s s' := by
  unfold execRemoteWriteArrive at h
  refine Steady.run ?_ h
  try dsimp only
  with_reducible repeat' first | exact Steady.now _ _ | apply Steady.onlyIf | apply steady_failSeg | apply steady_windowViolation | apply steady_updFlight | apply steady_dropFlight | split

theorem steady_execTokenMoveArrive {t cell flight : Nat} {s s' : State} (h : execTokenMoveArrive t cell flight s = .next s') : Steady s s' := by
  unfold execTokenMoveArrive at h
  refine Steady.run ?_ h
  try dsimp only
  with_reducible repeat' first | exact Steady.now _ _ | apply Steady.onlyIf | apply steady_postToken | apply steady_postOpt | apply steady_windowViolation | apply steady_retireFlight | apply steady_postSrc | split

theorem steady_execMact {t cell : Nat} {s s' : State} (h : execMact t cell s = .next s') : Steady s s' := by
  unfold execMact at h
  refine Steady.run ?_ h
  try dsimp only
  with_reducible repeat' first | exact Steady.now _ _ | apply steady_arith

theorem steady_execMacv {t cell : Nat} {s s' : State} (h : execMacv t cell s = .next s') : Steady s s' := by
  unfold execMacv at h
  refine Steady.run ?_ h
  try dsimp only
  with_reducible repeat' first | exact Steady.now _ _ | apply steady_arith

theorem steady_execNttf {t cell : Nat} {s s' : State} (h : execNttf t cell s = .next s') : Steady s s' := by
  unfold execNttf at h
  refine Steady.run ?_ h
  try dsimp only
  with_reducible repeat' first | exact Steady.now _ _ | apply steady_arith

theorem steady_execNtti {t cell : Nat} {s s' : State} (h : execNtti t cell s = .next s') : Steady s s' := by
  unfold execNtti at h
  refine Steady.run ?_ h
  try dsimp only
  with_reducible repeat' first | exact Steady.now _ _ | apply steady_arith

theorem steady_execTadd {t cell : Nat} {s s' : State} (h : execTadd t cell s = .next s') : Steady s s' := by
  unfold execTadd at h
  refine Steady.run ?_ h
  try dsimp only
  with_reducible repeat' first | exact Steady.now _ _ | apply steady_arith

theorem steady_execTsub {t cell : Nat} {s s' : State} (h : execTsub t cell s = .next s') : Steady s s' := by
  unfold execTsub at h
  refine Steady.run ?_ h
  try dsimp only
  with_reducible repeat' first | exact Steady.now _ _ | apply steady_arith

theorem steady_execTmul {t cell : Nat} {s s' : State} (h : execTmul t cell s = .next s') : Steady s s' := by
  unfold execTmul at h
  refine Steady.run ?_ h
  try dsimp only
  with_reducible repeat' first | exact Steady.now _ _ | apply steady_arith

theorem steady_execTmulc {t cell : Nat} {s s' : State} (h : execTmulc t cell s = .next s') : Steady s s' := by
  unfold execTmulc at h
  refine Steady.run ?_ h
  try dsimp only
  with_reducible repeat' first | exact Steady.now _ _ | apply steady_arith

theorem steady_execTperm {t cell : Nat} {s s' : State} (h : execTperm t cell s = .next s') : Steady s s' := by
  unfold execTperm at h
  refine Steady.run ?_ h
  try dsimp only
  with_reducible repeat' first | exact Steady.now _ _ | apply steady_arith

theorem steady_execTdec {t cell : Nat} {s s' : State} (h : execTdec t cell s = .next s') : Steady s s' := by
  unfold execTdec at h
  refine Steady.run ?_ h
  try dsimp only
  with_reducible repeat' first | exact Steady.now _ _ | apply steady_arith

theorem steady_execTresc {t cell : Nat} {s s' : State} (h : execTresc t cell s = .next s') : Steady s s' := by
  unfold execTresc at h
  refine Steady.run ?_ h
  try dsimp only
  with_reducible repeat' first | exact Steady.now _ _ | apply steady_arith

theorem steady_execTred {t cell : Nat} {s s' : State} (h : execTred t cell s = .next s') : Steady s s' := by
  unfold execTred at h
  refine Steady.run ?_ h
  try dsimp only
  with_reducible repeat' first | exact Steady.now _ _ | apply steady_arith

theorem steady_execSkim {t cell : Nat} {s s' : State} (h : execSkim t cell s = .next s') : Steady s s' := by
  unfold execSkim at h
  refine Steady.run ?_ h
  try dsimp only
  with_reducible repeat' first | exact Steady.now _ _ | apply steady_arith

theorem steady_execNoise {t cell : Nat} {s s' : State} (h : execNoise t cell s = .next s') : Steady s s' := by
  unfold execNoise at h
  refine Steady.run ?_ h
  try dsimp only
  with_reducible repeat' first | exact Steady.now _ _ | apply steady_arith

theorem steady_execInstructionComplete {t cell flight : Nat} {h : HostView} {s s' : State} (h : execInstructionComplete t cell flight h s = .next s') : Steady s s' := by
  unfold execInstructionComplete at h
  refine Steady.run ?_ h
  try dsimp only
  with_reducible repeat' first | exact Steady.now _ _ | apply Steady.onlyIf | apply steady_completeMove | apply steady_completeMac | apply steady_completeTrowel | apply steady_completeNtt | apply steady_completeSkim | apply steady_completeNoise | split

theorem steady_execCmdModelLoad {t ten lring seq : Nat} {h : HostView} {s s' : State} (h : execCmdModelLoad t ten lring seq h s = .next s') : Steady s s' := by
  unfold execCmdModelLoad at h
  refine Steady.run ?_ h
  try dsimp only
  with_reducible repeat' first | exact Steady.refl _ | exact Steady.now _ _ | intro _ | apply steady_tryStart | apply steady_loadModel

theorem steady_execCmdEval {t ten lring seq : Nat} {s s' : State} (h : execCmdEval t ten lring seq s = .next s') : Steady s s' := by
  unfold execCmdEval at h
  refine Steady.run ?_ h
  try dsimp only
  with_reducible repeat' first | exact Steady.refl _ | exact Steady.now _ _ | intro _ | apply steady_tryStart | apply steady_startEval

theorem steady_execFabricRecvStart {t ten lring seq : Nat} {s s' : State} (h : execFabricRecvStart t ten lring seq s = .next s') : Steady s s' := by
  unfold execFabricRecvStart at h
  refine Steady.run ?_ h
  try dsimp only
  with_reducible repeat' first | exact Steady.now _ _ | intro _ | apply Steady.onlyIf | apply Steady.elim | apply steady_updEval | apply steady_continueAt | split

theorem steady_execFabricDeadline {t ten lring seq : Nat} {s s' : State} (h : execFabricDeadline t ten lring seq s = .next s') : Steady s s' := by
  unfold execFabricDeadline at h
  refine Steady.run ?_ h
  try dsimp only
  with_reducible repeat' first | exact Steady.now _ _ | apply Steady.onlyIf | apply steady_failEval | split

theorem steady_execDispatch {t comb seg : Nat} {cells : List Nat} {s s' : State} (h : execDispatch t comb seg cells s = .next s') : Steady s s' := by
  unfold execDispatch at h
  refine Steady.run ?_ h
  try dsimp only
  with_reducible repeat' first | exact Steady.now _ _ | apply Steady.onlyIf | apply steady_assign | split

theorem steady_execDispatchStarvation {t comb cls : Nat} {s s' : State} (h : execDispatchStarvation t comb cls s = .next s') : Steady s s' := by
  unfold execDispatchStarvation at h
  refine Steady.run ?_ h
  try dsimp only
  with_reducible repeat' first | exact Steady.now _ _ | apply Steady.onlyIf | apply steady_updComb | split

theorem steady_execSegmentYield {t seg : Nat} {s s' : State} (h : execSegmentYield t seg s = .next s') : Steady s s' := by
  unfold execSegmentYield at h
  refine Steady.run ?_ h
  try dsimp only
  with_reducible repeat' first | exact Steady.now _ _ | apply Steady.onlyIf | apply steady_updSeg | apply steady_releaseCells | apply steady_creditClass | split

theorem steady_execCellScrubComplete {t : Nat} {target : ScrubTarget} {s s' : State} (h : execCellScrubComplete t target s = .next s') : Steady s s' := by
  unfold execCellScrubComplete at h
  refine Steady.run ?_ h
  try dsimp only
  with_reducible repeat' first | exact Steady.refl _ | exact Steady.now _ _ | intro _ | apply Steady.onlyIf | apply steady_updComb | apply steady_updCell | apply steady_updSeg | apply Steady.foldl | split

theorem steady_execRtOutboundWrite {t ten lring seq : Nat} {h : HostView} {s s' : State} (h : execRtOutboundWrite t ten lring seq h s = .next s') : Steady s s' := by
  unfold execRtOutboundWrite at h
  refine Steady.run ?_ h
  try dsimp only
  with_reducible repeat' first | exact Steady.now _ _ | intro _ | apply Steady.onlyIf | apply Steady.elim | apply steady_emit | apply steady_hostWrite | apply steady_failEval | apply steady_postInterim | apply steady_noteWrote | split

theorem steady_execRtAttemptExpire {t ten lring seq : Nat} {s s' : State} (h : execRtAttemptExpire t ten lring seq s = .next s') : Steady s s' := by
  unfold execRtAttemptExpire at h
  refine Steady.run ?_ h
  try dsimp only
  with_reducible repeat' first | exact Steady.now _ _ | apply Steady.onlyIf | apply steady_failEval | apply steady_startAttempt | split

theorem steady_execRtInterimDeadline {t ten lring seq : Nat} {s s' : State} (h : execRtInterimDeadline t ten lring seq s = .next s') : Steady s s' := by
  unfold execRtInterimDeadline at h
  refine Steady.run ?_ h
  try dsimp only
  with_reducible repeat' first | exact Steady.now _ _ | apply Steady.onlyIf | apply steady_failEval | split

theorem steady_execCmdRoundtripResume {t ten lring seq : Nat} {h : HostView} {s s' : State} (h : execCmdRoundtripResume t ten lring seq h s = .next s') : Steady s s' := by
  unfold execCmdRoundtripResume at h
  refine Steady.run ?_ h
  try dsimp only
  with_reducible repeat' first | exact Steady.refl _ | exact Steady.now _ _ | intro _ | apply steady_tryStart | apply steady_resume | apply steady_finish | split

theorem steady_execSegmentStart {t seg : Nat} {s s' : State} (h : execSegmentStart t seg s = .next s') : Steady s s' := by
  unfold execSegmentStart at h
  refine Steady.run ?_ h
  try dsimp only
  with_reducible repeat' first | exact Steady.now _ _ | apply Steady.onlyIf | apply steady_failSeg | apply steady_startCells | apply steady_beginRun | apply steady_restoreCells | split

theorem steady_execSegmentEnd {t seg : Nat} {s s' : State} (h : execSegmentEnd t seg s = .next s') : Steady s s' := by
  unfold execSegmentEnd at h
  refine Steady.run ?_ h
  try dsimp only
  with_reducible repeat' first | exact Steady.now _ _ | apply Steady.onlyIf | apply steady_dropSeg | apply steady_unrefSeg | apply steady_releaseCells | apply steady_sendEdges | apply steady_creditClass | apply steady_chargeRun | apply steady_afterRun | split

theorem steady_execForagerTileDeliver {t seg stream dest : Nat} {h : HostView} {s s' : State} (h : execForagerTileDeliver t seg stream dest h s = .next s') : Steady s s' := by
  unfold execForagerTileDeliver at h
  refine Steady.run ?_ h
  try dsimp only
  with_reducible repeat' first | exact Steady.now _ _ | apply Steady.onlyIf | apply steady_takeFinals | apply steady_deliverTile | split

theorem steady_execMulticastGranuleFetch {t seg stream : Nat} {h : HostView} {s s' : State} (h : execMulticastGranuleFetch t seg stream h s = .next s') : Steady s s' := by
  unfold execMulticastGranuleFetch at h
  refine Steady.run ?_ h
  try dsimp only
  with_reducible repeat' first | exact Steady.refl _ | exact Steady.now _ _ | intro _ | apply Steady.onlyIf | apply steady_updSeg | apply steady_failSeg | apply steady_useKey | apply steady_updStream | apply Steady.foldl | split

theorem steady_execRelayHop {t seg stream head hop : Nat} {h : HostView} {s s' : State} (h : execRelayHop t seg stream head hop h s = .next s') : Steady s s' := by
  unfold execRelayHop at h
  refine Steady.run ?_ h
  try dsimp only
  with_reducible repeat' first | exact Steady.now _ _ | apply Steady.onlyIf | apply steady_failSeg | apply steady_foragerWrite | apply steady_updStream | apply steady_takeFreeToken | apply steady_takeFinals | split

theorem steady_execCmdEncodeEncrypt {t ten lring seq : Nat} {_h : HostView} {s s' : State} (h : execCmdEncodeEncrypt t ten lring seq _h s = .next s') : Steady s s' := by
  unfold execCmdEncodeEncrypt at h
  refine Steady.run ?_ h
  try dsimp only
  with_reducible repeat' first | exact Steady.refl _ | exact Steady.now _ _ | intro _ | apply steady_tryStart

theorem steady_execCmdDecryptDecode {t ten lring seq : Nat} {_h : HostView} {s s' : State} (h : execCmdDecryptDecode t ten lring seq _h s = .next s') : Steady s s' := by
  unfold execCmdDecryptDecode at h
  refine Steady.run ?_ h
  try dsimp only
  with_reducible repeat' first | exact Steady.refl _ | exact Steady.now _ _ | intro _ | apply steady_tryStart

theorem steady_execGenerateSecretKey {t ten lring seq : Nat} {cells : List Nat} {h : HostView} {s s' : State} (h : execGenerateSecretKey t ten lring seq cells h s = .next s') : Steady s s' := by
  unfold execGenerateSecretKey at h
  refine Steady.run ?_ h
  try dsimp only
  with_reducible repeat' first | exact Steady.refl _ | exact Steady.now _ _ | intro _ | apply steady_takeFree | apply steady_updTen | (apply steady_alloc; · assumption) | apply steady_done | apply steady_gateway | apply steady_drawTernary | split

theorem steady_execEraseSlot {t ten lring seq : Nat} {s s' : State} (h : execEraseSlot t ten lring seq s = .next s') : Steady s s' := by
  unfold execEraseSlot at h
  refine Steady.run ?_ h
  try dsimp only
  with_reducible repeat' first | exact Steady.refl _ | exact Steady.now _ _ | intro _ | apply Steady.onlyIf | apply Steady.elim | apply steady_updTen | apply steady_freeObj | apply steady_onStarted | apply steady_done

theorem steady_execEncryptPlaintext {t ten lring seq : Nat} {cells : List Nat} {h : HostView} {s s' : State} (h : execEncryptPlaintext t ten lring seq cells h s = .next s') : Steady s s' := by
  unfold execEncryptPlaintext at h
  refine Steady.run ?_ h
  try dsimp only
  with_reducible repeat' first | exact Steady.refl _ | exact Steady.now _ _ | intro _ | apply steady_done | apply steady_gateway | apply steady_withSlot | apply steady_encrypt | split

theorem steady_execEncodeAndEncrypt {t ten lring seq : Nat} {cells : List Nat} {h : HostView} {s s' : State} (h : execEncodeAndEncrypt t ten lring seq cells h s = .next s') : Steady s s' := by
  unfold execEncodeAndEncrypt at h
  refine Steady.run ?_ h
  try dsimp only
  with_reducible repeat' first | exact Steady.refl _ | exact Steady.now _ _ | intro _ | apply steady_done | apply steady_mapLimbs | apply steady_gateway | apply steady_withSlot | apply steady_encrypt | apply steady_encode | split

theorem steady_execDecryptAndDecode {t ten lring seq : Nat} {cells : List Nat} {h : HostView} {s s' : State} (h : execDecryptAndDecode t ten lring seq cells h s = .next s') : Steady s s' := by
  unfold execDecryptAndDecode at h
  refine Steady.run ?_ h
  try dsimp only
  with_reducible repeat' first | exact Steady.refl _ | exact Steady.now _ _ | intro _ | apply Steady.ite | apply steady_done | apply steady_mapLimbs | apply steady_gateway | apply steady_withSlot | apply steady_liftLimbs | apply steady_decode | apply steady_decrypting

theorem steady_execDecryptToPlaintext {t ten lring seq : Nat} {cells : List Nat} {h : HostView} {s s' : State} (h : execDecryptToPlaintext t ten lring seq cells h s = .next s') : Steady s s' := by
  unfold execDecryptToPlaintext at h
  refine Steady.run ?_ h
  try dsimp only
  with_reducible repeat' first | exact Steady.refl _ | exact Steady.now _ _ | intro _ | apply steady_gateway | apply steady_withSlot | apply steady_decrypting

theorem steady_execGenerateKeySet {t ten lring seq : Nat} {cells : List Nat} {h : HostView} {s s' : State} (h : execGenerateKeySet t ten lring seq cells h s = .next s') : Steady s s' := by
  unfold execGenerateKeySet at h
  refine Steady.run ?_ h
  try dsimp only
  with_reducible repeat' first | exact Steady.refl _ | exact Steady.now _ _ | intro _ | apply steady_skipFrees | apply steady_updTen | apply steady_done | apply steady_doneWriting | apply steady_gateway | apply steady_withSlot | apply steady_components | split

theorem steady_execCmdPke {t ten lring seq : Nat} {h : HostView} {s s' : State} (h : execCmdPke t ten lring seq h s = .next s') : Steady s s' := by
  unfold execCmdPke at h
  refine Steady.run ?_ h
  try dsimp only
  with_reducible repeat' first | exact Steady.refl _ | exact Steady.now _ _ | intro _ | apply steady_tryStart | apply steady_startPke

theorem steady_execSign {t ten lring seq : Nat} {h : HostView} {s s' : State} (h : execSign t ten lring seq h s = .next s') : Steady s s' := by
  unfold execSign at h
  refine Steady.run ?_ h
  try dsimp only
  with_reducible repeat' first | exact Steady.refl _ | exact Steady.now _ _ | intro _ | apply steady_takeBytes | apply steady_done | apply steady_doneWriting | apply steady_pke | split

theorem steady_execVerify {t ten lring seq : Nat} {h : HostView} {s s' : State} (h : execVerify t ten lring seq h s = .next s') : Steady s s' := by
  unfold execVerify at h
  refine Steady.run ?_ h
  try dsimp only
  with_reducible repeat' first | exact Steady.refl _ | exact Steady.now _ _ | intro _ | apply steady_done | apply steady_pke | apply steady_rejectPoint | simp only [steady_mk] | split

theorem steady_execKeygen {t ten lring seq : Nat} {h : HostView} {s s' : State} (h : execKeygen t ten lring seq h s = .next s') : Steady s s' := by
  unfold execKeygen at h
  refine Steady.run ?_ h
  try dsimp only
  with_reducible repeat' first | exact Steady.refl _ | exact Steady.now _ _ | intro _ | apply Steady.ite | apply steady_takeBytes | apply steady_emit | apply steady_hostWrite | apply steady_done | apply steady_doneWriting | apply steady_pke | apply steady_storeKey

theorem steady_execDerive {t ten lring seq : Nat} {h : HostView} {s s' : State} (h : execDerive t ten lring seq h s = .next s') : Steady s s' := by
  unfold execDerive at h
  refine Steady.run ?_ h
  try dsimp only
  with_reducible repeat' first | exact Steady.refl _ | exact Steady.now _ _ | intro _ | apply steady_takeFree | apply steady_done | apply steady_doneWriting | apply steady_pke | apply steady_rejectPoint | split

theorem steady_execImportKey {t ten lring seq : Nat} {h : HostView} {s s' : State} (h : execImportKey t ten lring seq h s = .next s') : Steady s s' := by
  unfold execImportKey at h
  refine Steady.run ?_ h
  try dsimp only
  with_reducible repeat' first | exact Steady.refl _ | exact Steady.now _ _ | intro _ | apply steady_done | apply steady_pke | apply steady_storeKey | split

theorem steady_execErase {t ten lring seq : Nat} {s s' : State} (h : execErase t ten lring seq s = .next s') : Steady s s' := by
  unfold execErase at h
  refine Steady.run ?_ h
  try dsimp only
  with_reducible repeat' first | exact Steady.refl _ | exact Steady.now _ _ | intro _ | apply steady_updTen | apply steady_done | apply steady_pke

theorem steady_execPublicKey {t ten lring seq : Nat} {h : HostView} {s s' : State} (h : execPublicKey t ten lring seq h s = .next s') : Steady s s' := by
  unfold execPublicKey at h
  refine Steady.run ?_ h
  try dsimp only
  with_reducible repeat' first | exact Steady.refl _ | exact Steady.now _ _ | intro _ | apply steady_done | apply steady_doneWriting | apply steady_pke | split

theorem steady_execQuote {t ten lring seq : Nat} {h : HostView} {s s' : State} (h : execQuote t ten lring seq h s = .next s') : Steady s s' := by
  unfold execQuote at h
  refine Steady.run ?_ h
  try dsimp only
  with_reducible repeat' first | exact Steady.refl _ | exact Steady.now _ _ | intro _ | apply Steady.ite | apply steady_takeBytes | apply steady_emit | apply steady_updTen | apply steady_hostWrite | apply steady_done | apply steady_pke

theorem steady_execEphRelease {t ten lring seq : Nat} {s s' : State} (h : execEphRelease t ten lring seq s = .next s') : Steady s s' := by
  unfold execEphRelease at h
  refine Steady.run ?_ h
  try dsimp only
  with_reducible repeat' first | exact Steady.refl _ | exact Steady.now _ _ | intro _ | apply steady_updTen | apply steady_done | apply steady_pke

theorem steady_execGetCert {t ten lring seq : Nat} {h : HostView} {s s' : State} (h : execGetCert t ten lring seq h s = .next s') : Steady s s' := by
  unfold execGetCert at h
  refine Steady.run ?_ h
  try dsimp only
  with_reducible repeat' first | exact Steady.refl _ | exact Steady.now _ _ | intro _ | apply steady_doneWriting | apply steady_pke

theorem steady_execEpochClose {t : Nat} {s s' : State} (h : execEpochClose t s = .next s') : Steady s s' := by
  unfold execEpochClose at h
  refine Steady.run ?_ h
  try dsimp only
  with_reducible repeat' first | exact Steady.now _ _ | apply steady_closeEpoch

theorem steady_execMeterMsTick {t : Nat} {s s' : State} (h : execMeterMsTick t s = .next s') : Steady s s' := by
  unfold execMeterMsTick at h
  refine Steady.run ?_ h
  try dsimp only
  with_reducible repeat' first | exact Steady.refl _ | exact Steady.now _ _ | intro _ | apply steady_charge | apply Steady.foldl | simp only [steady_mk]

theorem steady_execMeterRecordSign {t : Nat} {s s' : State} (h : execMeterRecordSign t s = .next s') : Steady s s' := by
  unfold execMeterRecordSign at h
  refine Steady.run ?_ h
  try dsimp only
  with_reducible repeat' first | exact Steady.now _ _ | apply Steady.onlyIf | apply steady_takeBytes | simp only [steady_mk]

theorem steady_execCmdMeterRead {t ten lring seq : Nat} {s s' : State} (h : execCmdMeterRead t ten lring seq s = .next s') : Steady s s' := by
  unfold execCmdMeterRead at h
  refine Steady.run ?_ h
  try dsimp only
  with_reducible repeat' first | exact Steady.refl _ | exact Steady.now _ _ | intro _ | apply steady_tryStart

theorem steady_execMeterSnapshot {t ten lring seq : Nat} {h : HostView} {s s' : State} (h : execMeterSnapshot t ten lring seq h s = .next s') : Steady s s' := by
  unfold execMeterSnapshot at h
  refine Steady.run ?_ h
  try dsimp only
  with_reducible repeat' first | exact Steady.refl _ | exact Steady.now _ _ | intro _ | apply Steady.onlyIf | apply steady_onStarted | apply steady_doneWriting

theorem steady_execMeterTake {t ten lring seq : Nat} {h : HostView} {s s' : State} (h : execMeterTake t ten lring seq h s = .next s') : Steady s s' := by
  unfold execMeterTake at h
  refine Steady.run ?_ h
  try dsimp only
  with_reducible repeat' first | exact Steady.refl _ | exact Steady.now _ _ | intro _ | apply Steady.onlyIf | apply steady_onStarted | apply steady_done | apply steady_doneWriting | split

theorem steady_execCmdCopy {t ten lring seq : Nat} {_h : HostView} {s s' : State} (h : execCmdCopy t ten lring seq _h s = .next s') : Steady s s' := by
  unfold execCmdCopy at h
  refine Steady.run ?_ h
  try dsimp only
  with_reducible repeat' first | exact Steady.refl _ | exact Steady.now _ _ | intro _ | apply steady_updCmd | apply steady_tryStart

theorem steady_execCommandFinish {t ten lring seq : Nat} {h : HostView} {s s' : State} (h : execCommandFinish t ten lring seq h s = .next s') : Steady s s' := by
  unfold execCommandFinish at h
  refine Steady.run ?_ h
  try dsimp only
  with_reducible repeat' first | exact Steady.now _ _ | intro _ | apply Steady.elim | apply steady_finishClose | apply steady_finishKeyset | apply steady_finishLoad | apply steady_finishEval | apply steady_finishCopy | apply steady_finishDone | split

theorem steady_execPaceInterval {t : Nat} {meas : List CombMeasure} {inputW : Nat} {s s' : State} (h : execPaceInterval t meas inputW s = .next s') : Steady s s' := by
  unfold execPaceInterval at h
  refine Steady.run ?_ h
  try dsimp only
  with_reducible repeat' first | exact Steady.refl _ | exact Steady.now _ _ | intro _ | apply steady_paceComb | apply Steady.foldl | simp only [steady_mk]

theorem steady_execC0HoldExpire {t comb : Nat} {s s' : State} (h : execC0HoldExpire t comb s = .next s') : Steady s s' := by
  unfold execC0HoldExpire at h
  refine Steady.run ?_ h
  try dsimp only
  with_reducible repeat' first | exact Steady.now _ _ | apply Steady.onlyIf | apply steady_updComb

theorem steady_execThermalSample {t : Nat} {tj : Junctions} {s s' : State} (h : execThermalSample t tj s = .next s') : Steady s s' := by
  unfold execThermalSample at h
  refine Steady.run ?_ h
  try dsimp only
  with_reducible repeat' first | exact Steady.refl _ | exact Steady.now _ _ | intro _ | apply Steady.ite | apply steady_updComb | apply steady_combCritical | apply steady_beginEmergency | apply Steady.foldl | simp only [steady_mk]

theorem steady_execThermalEmergencyEnd {t : Nat} {s s' : State} (h : execThermalEmergencyEnd t s = .next s') : Steady s s' := by
  unfold execThermalEmergencyEnd at h
  refine Steady.run ?_ h
  try dsimp only
  with_reducible repeat' first | exact Steady.refl _ | exact Steady.now _ _ | intro _ | apply Steady.onlyIf | apply steady_updComb | apply steady_logRec | apply Steady.foldl | simp only [steady_mk]

theorem steady_execCombThermalRecover {t comb : Nat} {s s' : State} (h : execCombThermalRecover t comb s = .next s') : Steady s s' := by
  unfold execCombThermalRecover at h
  refine Steady.run ?_ h
  try dsimp only
  with_reducible repeat' first | exact Steady.now _ _ | apply Steady.onlyIf | apply steady_updComb

theorem steady_execThermalTrip {t die : Nat} {s s' : State} (h : execThermalTrip t die s = .next s') : Steady s s' := by
  unfold execThermalTrip at h
  refine Steady.run ?_ h
  try dsimp only
  with_reducible repeat' first | exact Steady.now _ _ | apply Steady.onlyIf | apply steady_powerDown

theorem steady_execCombRestEntry {t comb : Nat} {s s' : State} (h : execCombRestEntry t comb s = .next s') : Steady s s' := by
  unfold execCombRestEntry at h
  refine Steady.run ?_ h
  try dsimp only
  with_reducible repeat' first | exact Steady.now _ _ | apply Steady.onlyIf | apply steady_updComb

theorem steady_execFlitReplay {t bundle dir : Nat} {s s' : State} (h : execFlitReplay t bundle dir s = .next s') : Steady s s' := by
  unfold execFlitReplay at h
  refine Steady.run ?_ h
  try dsimp only
  with_reducible repeat' first | exact Steady.now _ _ | apply Steady.onlyIf | apply steady_updDir

theorem steady_execLaneRetrain {t bundle dir : Nat} {s s' : State} (h : execLaneRetrain t bundle dir s = .next s') : Steady s s' := by
  unfold execLaneRetrain at h
  refine Steady.run ?_ h
  try dsimp only
  with_reducible repeat' first | exact Steady.now _ _ | apply Steady.ite | apply Steady.onlyIf | apply steady_updDir | apply steady_loseSense | apply steady_setWidth

theorem steady_execRetrainTestDone {t bundle dir failMask : Nat} {s s' : State} (h : execRetrainTestDone t bundle dir failMask s = .next s') : Steady s s' := by
  unfold execRetrainTestDone at h
  refine Steady.run ?_ h
  try dsimp only
  with_reducible repeat' first | exact Steady.now _ _ | apply Steady.ite | apply Steady.onlyIf | apply steady_laneEvent | apply steady_loseSense | apply steady_testDirection

theorem steady_execCombFault {t comb source cell : Nat} {s s' : State} (h : execCombFault t comb source cell s = .next s') : Steady s s' := by
  unfold execCombFault at h
  refine Steady.run ?_ h
  try dsimp only
  with_reducible repeat' first | exact Steady.now _ _ | apply Steady.onlyIf | apply steady_faultComb

theorem steady_execHeartbeatTimeout {t comb : Nat} {s s' : State} (h : execHeartbeatTimeout t comb s = .next s') : Steady s s' := by
  unfold execHeartbeatTimeout at h
  refine Steady.run ?_ h
  try dsimp only
  with_reducible repeat' first | exact Steady.now _ _ | apply Steady.onlyIf | apply steady_faultComb

theorem steady_execCombDrainComplete {t comb : Nat} {s s' : State} (h : execCombDrainComplete t comb s = .next s') : Steady s s' := by
  unfold execCombDrainComplete at h
  refine Steady.run ?_ h
  try dsimp only
  with_reducible repeat' first | exact Steady.refl _ | exact Steady.now _ _ | intro _ | apply Steady.onlyIf | apply steady_updComb | apply steady_classify | apply steady_moveCopies | apply steady_failLoads | apply Steady.foldl | split

theorem steady_execCombResetComplete {t comb : Nat} {testFail : List (Nat × Nat × Nat)} {s s' : State} (h : execCombResetComplete t comb testFail s = .next s') : Steady s s' := by
  unfold execCombResetComplete at h
  refine Steady.run ?_ h
  try dsimp only
  with_reducible repeat' first | exact Steady.refl _ | exact Steady.now _ _ | intro _ | apply Steady.ite | apply Steady.onlyIf | apply steady_updComb | apply steady_logRec | apply steady_testBundles | apply steady_zeroCells | apply steady_moveYielded | apply Steady.foldl

theorem steady_execDramCorrected {t dpa : Nat} {s s' : State} (h : execDramCorrected t dpa s = .next s') : Steady s s' := by
  unfold execDramCorrected at h
  refine Steady.run ?_ h
  try dsimp only
  with_reducible repeat' first | exact Steady.now _ _ | apply Steady.onlyIf | apply steady_logRec | simp only [steady_mk]

theorem steady_execDramUncorrectable {t : Nat} {hit : DramHit} {s s' : State} (h : execDramUncorrectable t hit s = .next s') : Steady s s' := by
  unfold execDramUncorrectable at h
  refine Steady.run ?_ h
  try dsimp only
  with_reducible repeat' first | exact Steady.now _ _ | apply Steady.onlyIf | apply steady_takeFree | apply steady_updTen | apply steady_failEval | apply steady_logUncorrectable | apply steady_hitObject | apply steady_hitBlock | split

theorem steady_execPatrolScrub {t : Nat} {bad : List Nat} {s s' : State} (h : execPatrolScrub t bad s = .next s') : Steady s s' := by
  unfold execPatrolScrub at h
  refine Steady.run ?_ h
  try dsimp only
  with_reducible repeat' first | exact Steady.refl _ | exact Steady.now _ _ | intro _ | apply Steady.ite | apply steady_hitBlock | apply Steady.foldl

theorem steady_execEntropySample {t : Nat} {sample : Byte} {s s' : State} (h : execEntropySample t sample s = .next s') : Steady s s' := by
  unfold execEntropySample at h
  refine Steady.run ?_ h
  try dsimp only
  with_reducible repeat' first | exact Steady.now _ _ | simp only [steady_mk]

theorem steady_execDrbgSeeded {t : Nat} {s s' : State} (h : execDrbgSeeded t s = .next s') : Steady s s' := by
  unfold execDrbgSeeded at h
  refine Steady.run ?_ h
  try dsimp only
  with_reducible repeat' first | exact Steady.now _ _ | apply Steady.onlyIf | simp only [steady_mk]

theorem steady_execDrbgReseed {t : Nat} {s s' : State} (h : execDrbgReseed t s = .next s') : Steady s s' := by
  unfold execDrbgReseed at h
  refine Steady.run ?_ h
  try dsimp only
  with_reducible repeat' first | exact Steady.now _ _ | apply Steady.onlyIf | simp only [steady_mk]

theorem steady_execNoiseReseed {t comb : Nat} {s s' : State} (h : execNoiseReseed t comb s = .next s') : Steady s s' := by
  unfold execNoiseReseed at h
  refine Steady.run ?_ h
  try dsimp only
  with_reducible repeat' first | exact Steady.now _ _ | apply Steady.onlyIf | apply steady_updComb | simp only [steady_mk]

theorem steady_execEphKeyExpire {t ten ephId : Nat} {s s' : State} (h : execEphKeyExpire t ten ephId s = .next s') : Steady s s' := by
  unfold execEphKeyExpire at h
  refine Steady.run ?_ h
  try dsimp only
  with_reducible repeat' first | exact Steady.now _ _ | apply steady_updTen

theorem steady_execLinkLightDetect {t port : Nat} {s s' : State} (h : execLinkLightDetect t port s = .next s') : Steady s s' := by
  unfold execLinkLightDetect at h
  refine Steady.run ?_ h
  try dsimp only
  with_reducible repeat' first | exact Steady.now _ _ | apply Steady.onlyIf | apply steady_updPort | apply steady_tryTrain

theorem steady_execLaneLock {t port : Nat} {s s' : State} (h : execLaneLock t port s = .next s') : Steady s s' := by
  unfold execLaneLock at h
  refine Steady.run ?_ h
  try dsimp only
  with_reducible repeat' first | exact Steady.now _ _ | apply Steady.onlyIf | apply steady_toAttesting

theorem steady_execTrainingTimeout {t port : Nat} {s s' : State} (h : execTrainingTimeout t port s = .next s') : Steady s s' := by
  unfold execTrainingTimeout at h
  refine Steady.run ?_ h
  try dsimp only
  with_reducible repeat' first | exact Steady.now _ _ | apply Steady.onlyIf | apply steady_updPort | apply steady_unkeyPort

theorem steady_execTrainingRetry {t port : Nat} {s s' : State} (h : execTrainingRetry t port s = .next s') : Steady s s' := by
  unfold execTrainingRetry at h
  refine Steady.run ?_ h
  try dsimp only
  with_reducible repeat' first | exact Steady.now _ _ | apply Steady.onlyIf | apply steady_updPort | apply steady_tryTrain

theorem steady_execLightLoss {t port : Nat} {s s' : State} (h : execLightLoss t port s = .next s') : Steady s s' := by
  unfold execLightLoss at h
  refine Steady.run ?_ h
  try dsimp only
  with_reducible repeat' first | exact Steady.now _ _ | apply Steady.onlyIf | apply steady_updPort | apply steady_unkeyPort

theorem steady_execAttestationReceive {t port : Nat} {descriptor certs sigs : List Byte} {s s' : State} (h : execAttestationReceive t port descriptor certs sigs s = .next s') : Steady s s' := by
  unfold execAttestationReceive at h
  refine Steady.run ?_ h
  try dsimp only
  with_reducible repeat' first | exact Steady.now _ _ | apply steady_attest | apply steady_answerNonce | apply steady_toAttesting | apply steady_judge | apply steady_rekeyReceive | split

theorem steady_execAttestTimeout {t port : Nat} {s s' : State} (h : execAttestTimeout t port s = .next s') : Steady s s' := by
  unfold execAttestTimeout at h
  refine Steady.run ?_ h
  try dsimp only
  with_reducible repeat' first | exact Steady.now _ _ | apply Steady.onlyIf | apply steady_unkeyPort

theorem steady_execKeyConfirmTimeout {t port : Nat} {s s' : State} (h : execKeyConfirmTimeout t port s = .next s') : Steady s s' := by
  unfold execKeyConfirmTimeout at h
  refine Steady.run ?_ h
  try dsimp only
  with_reducible repeat' first | exact Steady.now _ _ | apply Steady.onlyIf | apply steady_unkeyPort

theorem steady_execQuarantineReattest {t port : Nat} {s s' : State} (h : execQuarantineReattest t port s = .next s') : Steady s s' := by
  unfold execQuarantineReattest at h
  refine Steady.run ?_ h
  try dsimp only
  with_reducible repeat' first | exact Steady.now _ _ | apply Steady.ite | apply Steady.onlyIf | apply steady_updPort | apply steady_attest | apply steady_toAttesting

theorem steady_execLinkFrameSend {t port : Nat} {s s' : State} (h : execLinkFrameSend t port s = .next s') : Steady s s' := by
  unfold execLinkFrameSend at h
  refine Steady.run ?_ h
  try dsimp only
  with_reducible repeat' first | exact Steady.now _ _ | apply Steady.onlyIf | apply steady_attest | apply steady_nextFrame | apply steady_transmit | split

theorem steady_execLinkFrameReceive {t port : Nat} {frame : List Byte} {s s' : State} (h : execLinkFrameReceive t port frame s = .next s') : Steady s s' := by
  unfold execLinkFrameReceive at h
  refine Steady.run ?_ h
  try dsimp only
  with_reducible repeat' first | exact Steady.now _ _ | apply Steady.onlyIf | apply steady_receiveSealed | apply steady_receiveAttestation | split

theorem steady_execKeyConfirmReceive {t port : Nat} {frame : List Byte} {s s' : State} (h : execKeyConfirmReceive t port frame s = .next s') : Steady s s' := by
  unfold execKeyConfirmReceive at h
  refine Steady.run ?_ h
  try dsimp only
  with_reducible repeat' first | exact Steady.now _ _ | apply steady_updPort | apply steady_unkeyPort | apply steady_receiveSealed | split

theorem steady_execTagFailureLimit {t port : Nat} {s s' : State} (h : execTagFailureLimit t port s = .next s') : Steady s s' := by
  unfold execTagFailureLimit at h
  refine Steady.run ?_ h
  try dsimp only
  with_reducible repeat' first | exact Steady.now _ _ | apply Steady.onlyIf | apply steady_unkeyPort | simp only [steady_mk]

theorem steady_execRekeyTrigger {t port : Nat} {s s' : State} (h : execRekeyTrigger t port s = .next s') : Steady s s' := by
  unfold execRekeyTrigger at h
  refine Steady.run ?_ h
  try dsimp only
  with_reducible repeat' first | exact Steady.now _ _ | apply Steady.onlyIf | apply steady_sendRekey | split

theorem steady_execRekeyRetry {t port : Nat} {s s' : State} (h : execRekeyRetry t port s = .next s') : Steady s s' := by
  unfold execRekeyRetry at h
  refine Steady.run ?_ h
  try dsimp only
  with_reducible repeat' first | exact Steady.now _ _ | apply Steady.onlyIf | apply steady_sendRekey | split

theorem steady_execKeyExhausted {t port : Nat} {s s' : State} (h : execKeyExhausted t port s = .next s') : Steady s s' := by
  unfold execKeyExhausted at h
  refine Steady.run ?_ h
  try dsimp only
  with_reducible repeat' first | exact Steady.now _ _ | apply Steady.onlyIf | apply steady_quarantine | simp only [steady_mk]

theorem steady_execFabricMessageLand {t msg : Nat} {s s' : State} (h : execFabricMessageLand t msg s = .next s') : Steady s s' := by
  unfold execFabricMessageLand at h
  refine Steady.run ?_ h
  try dsimp only
  with_reducible repeat' first | exact Steady.now _ _ | apply steady_sendMgmt | apply steady_releaseHeld | apply steady_dropMsg | apply steady_landMsg | simp only [steady_mk] | split

theorem steady_execFabricAckReceive {t ten lring seq edge : Nat} {s s' : State} (h : execFabricAckReceive t ten lring seq edge s = .next s') : Steady s s' := by
  unfold execFabricAckReceive at h
  refine Steady.run ?_ h
  try dsimp only
  with_reducible repeat' first | exact Steady.now _ _ | apply steady_updEval

theorem steady_execRouteFailureNotice {t ten lring seq edge port device : Nat} {mismatch : Bool} {s s' : State} (h : execRouteFailureNotice t ten lring seq edge port device mismatch s = .next s') : Steady s s' := by
  unfold execRouteFailureNotice at h
  refine Steady.run ?_ h
  try dsimp only
  with_reducible repeat' first | exact Steady.now _ _ | apply Steady.onlyIf | apply steady_logRec | apply steady_failEval | split

theorem steady_execTimeExchange {t port : Nat} {f : TimeFrame} {s s' : State} (h : execTimeExchange t port f s = .next s') : Steady s s' := by
  unfold execTimeExchange at h
  refine Steady.run ?_ h
  try dsimp only
  with_reducible repeat' first | exact Steady.now _ _ | apply Steady.onlyIf | apply steady_sendFreePayload | apply steady_half | apply steady_chooseRoot | apply steady_steer | simp only [steady_mk] | split

theorem steady_execRootSelfElect {t : Nat} {s s' : State} (h : execRootSelfElect t s = .next s') : Steady s s' := by
  unfold execRootSelfElect at h
  refine Steady.run ?_ h
  try dsimp only
  with_reducible repeat' first | exact Steady.now _ _ | apply Steady.onlyIf | simp only [steady_mk] | split

theorem steady_execSyncLost {t : Nat} {s s' : State} (h : execSyncLost t s = .next s') : Steady s s' := by
  unfold execSyncLost at h
  refine Steady.run ?_ h
  try dsimp only
  with_reducible repeat' first | exact Steady.now _ _ | apply Steady.onlyIf | apply steady_unsync

theorem steady_execWarmReset {t : Nat} {by_ : PcieReset} {s s' : State} (h : execWarmReset t by_ s = .next s') : Steady s s' := by
  unfold execWarmReset at h
  refine Steady.run ?_ h
  try dsimp only
  with_reducible repeat' first | exact Steady.now _ _ | apply Steady.ite | apply steady_warmClear | apply steady_warm | simp only [steady_mk]

theorem steady_execPerstDeassert {t : Nat} {s s' : State} (h : execPerstDeassert t s = .next s') : Steady s s' := by
  unfold execPerstDeassert at h
  refine Steady.run ?_ h
  try dsimp only
  with_reducible repeat' first | exact Steady.now _ _ | apply Steady.onlyIf | apply steady_start | simp only [steady_mk]

theorem steady_execFunctionLevelReset {t ten : Nat} {pcie drain : Bool} {s s' : State} (h : execFunctionLevelReset t ten pcie drain s = .next s') : Steady s s' := by
  unfold execFunctionLevelReset at h
  refine Steady.run ?_ h
  try dsimp only
  with_reducible repeat' first | exact Steady.now _ _ | apply Steady.ite | apply Steady.onlyIf | apply steady_flr | apply steady_resetTenant

theorem steady_execPwResetWarm {t : Nat} {drain : Bool} {s s' : State} (h : execPwResetWarm t drain s = .next s') : Steady s s' := by
  unfold execPwResetWarm at h
  refine Steady.run ?_ h
  try dsimp only
  with_reducible repeat' first | exact Steady.now _ _ | apply steady_resetWarm

theorem steady_execDrainTimeout {t : Nat} {s s' : State} (h : execDrainTimeout t s = .next s') : Steady s s' := by
  unfold execDrainTimeout at h
  refine Steady.run ?_ h
  try dsimp only
  with_reducible repeat' first | exact Steady.refl _ | exact Steady.now _ _ | intro _ | apply Steady.ite | apply steady_endCmds | apply steady_afterDrain | apply Steady.foldl

theorem steady_execFinalCompletionWrite {t ten lring : Nat} {h : HostView} {s s' : State} (h : execFinalCompletionWrite t ten lring h s = .next s') : Steady s s' := by
  unfold execFinalCompletionWrite at h
  refine Steady.run ?_ h
  try dsimp only
  with_reducible repeat' first | exact Steady.now _ _ | apply steady_writeFinal | apply steady_afterDrain

theorem steady_execPwResetPort {t port : Nat} {s s' : State} (h : execPwResetPort t port s = .next s') : Steady s s' := by
  unfold execPwResetPort at h
  refine Steady.run ?_ h
  try dsimp only
  with_reducible repeat' first | exact Steady.now _ _ | apply Steady.onlyIf | apply steady_resetPort

theorem steady_execD3hotEntry {t : Nat} {s s' : State} (h : execD3hotEntry t s = .next s') : Steady s s' := by
  unfold execD3hotEntry at h
  refine Steady.run ?_ h
  try dsimp only
  with_reducible repeat' first | exact Steady.now _ _ | apply Steady.onlyIf | simp only [steady_mk]

theorem steady_execDeepRestGate {t : Nat} {s s' : State} (h : execDeepRestGate t s = .next s') : Steady s s' := by
  unfold execDeepRestGate at h
  refine Steady.run ?_ h
  try dsimp only
  with_reducible repeat' first | exact Steady.refl _ | exact Steady.now _ _ | intro _ | apply Steady.onlyIf | apply steady_updComb | apply steady_unkeyPort | apply Steady.foldl | simp only [steady_mk]

theorem steady_execD0Return {t : Nat} {testFail : List (Nat × Nat × Nat)} {s s' : State} (h : execD0Return t testFail s = .next s') : Steady s s' := by
  unfold execD0Return at h
  refine Steady.run ?_ h
  try dsimp only
  with_reducible repeat' first | exact Steady.now _ _ | apply steady_wake | simp only [steady_mk] | split

theorem steady_execVfPowerState {t ten : Nat} {d3hot : Bool} {s s' : State} (h : execVfPowerState t ten d3hot s = .next s') : Steady s s' := by
  unfold execVfPowerState at h
  refine Steady.run ?_ h
  try dsimp only
  with_reducible repeat' first | exact Steady.refl _ | exact Steady.now _ _ | intro _ | apply Steady.ite | apply Steady.onlyIf | apply steady_emit | apply Steady.foldl | simp only [steady_mk]

theorem steady_execLowInputSet {t : Nat} {s s' : State} (h : execLowInputSet t s = .next s') : Steady s s' := by
  unfold execLowInputSet at h
  refine Steady.run ?_ h
  try dsimp only
  with_reducible repeat' first | exact Steady.now _ _ | simp only [steady_mk]

theorem steady_execLowInputClear {t : Nat} {s s' : State} (h : execLowInputClear t s = .next s') : Steady s s' := by
  unfold execLowInputClear at h
  refine Steady.run ?_ h
  try dsimp only
  with_reducible repeat' first | exact Steady.now _ _ | simp only [steady_mk]

theorem steady_execPowerFail {t : Nat} {s s' : State} (h : execPowerFail t s = .next s') : Steady s s' := by
  unfold execPowerFail at h
  refine Steady.run ?_ h
  try dsimp only
  with_reducible repeat' first | exact Steady.now _ _ | apply steady_powerDown | simp only [steady_mk]

theorem steady_execHoldupMeasure {t millijoule : Nat} {s s' : State} (h : execHoldupMeasure t millijoule s = .next s') : Steady s s' := by
  unfold execHoldupMeasure at h
  refine Steady.run ?_ h
  try dsimp only
  with_reducible repeat' first | exact Steady.now _ _ | apply Steady.ite | apply steady_saveSettings | simp only [steady_mk]

theorem steady_execFwStart {t value : Nat} {h : HostView} {s s' : State} (h : execFwStart t value h s = .next s') : Steady s s' := by
  unfold execFwStart at h
  refine Steady.run ?_ h
  try dsimp only
  with_reducible repeat' first | exact Steady.now _ _ | apply steady_fwStart

theorem steady_execImageCheckDone {t : Nat} {s s' : State} (h : execImageCheckDone t s = .next s') : Steady s s' := by
  unfold execImageCheckDone at h
  refine Steady.run ?_ h
  try dsimp only
  with_reducible repeat' first | exact Steady.now _ _ | apply Steady.onlyIf | apply steady_setFw | apply steady_refuseStart | split

theorem steady_execFlashCommitDone {t : Nat} {s s' : State} (h : execFlashCommitDone t s = .next s') : Steady s s' := by
  unfold execFlashCommitDone at h
  refine Steady.run ?_ h
  try dsimp only
  with_reducible repeat' first | exact Steady.now _ _ | apply Steady.onlyIf | apply steady_setFw

theorem steady_execUpdateResume {t : Nat} {s s' : State} (h : execUpdateResume t s = .next s') : Steady s s' := by
  unfold execUpdateResume at h
  refine Steady.run ?_ h
  try dsimp only
  with_reducible repeat' first | exact Steady.now _ _ | apply Steady.onlyIf | apply steady_setFw

theorem steady_execReadBackDone {t : Nat} {same : Bool} {s s' : State} (h : execReadBackDone t same s = .next s') : Steady s s' := by
  unfold execReadBackDone at h
  refine Steady.run ?_ h
  try dsimp only
  with_reducible repeat' first | exact Steady.now _ _ | apply Steady.ite | apply Steady.onlyIf | apply steady_setFw

theorem steady_execFwActivate {t : Nat} {s s' : State} (h : execFwActivate t s = .next s') : Steady s s' := by
  unfold execFwActivate at h
  refine Steady.run ?_ h
  try dsimp only
  with_reducible repeat' first | exact Steady.now _ _ | apply steady_fwActivate

theorem steady_execFwRollback {t : Nat} {s s' : State} (h : execFwRollback t s = .next s') : Steady s s' := by
  unfold execFwRollback at h
  refine Steady.run ?_ h
  try dsimp only
  with_reducible repeat' first | exact Steady.now _ _ | apply steady_fwRollback

theorem steady_execFwAbort {t : Nat} {s s' : State} (h : execFwAbort t s = .next s') : Steady s s' := by
  unfold execFwAbort at h
  refine Steady.run ?_ h
  try dsimp only
  with_reducible repeat' first | exact Steady.now _ _ | apply steady_fwAbort

theorem steady_execSwarmConfigLoad {t : Nat} {h : HostView} {s s' : State} (h : execSwarmConfigLoad t h s = .next s') : Steady s s' := by
  unfold execSwarmConfigLoad at h
  refine Steady.run ?_ h
  try dsimp only
  with_reducible repeat' first | exact Steady.now _ _ | apply Steady.ite | apply steady_logDropped | apply steady_loadSwarm

theorem steady_execI3cRead {t off len : Nat} {s s' : State} (h : execI3cRead t off len s = .next s') : Steady s s' := by
  unfold execI3cRead at h
  refine Steady.run ?_ h
  try dsimp only
  with_reducible repeat' first | exact Steady.now _ _ | apply Steady.onlyIf | apply steady_emit

theorem steady_execI3cWrite {t _off _value : Nat} {s s' : State} (h : execI3cWrite t _off _value s = .next s') : Steady s s' := by
  unfold execI3cWrite at h
  refine Steady.run ?_ h
  try dsimp only
  with_reducible repeat' first | exact Steady.now _ _ | apply steady_emit

/-! ### COMMIT, the one operation that burns fuses -/

/-- From a to b, the canonical form of DRAM is kept, and the fuses stand but for the burning of a running trial's security version. -/
structure Burns (a b : State) : Prop where
  mem : Memory.wf a.dram.cells = true → Memory.wf b.dram.cells = true
  serial : b.fuses.serial = a.fuses.serial
  variant : b.fuses.variant = a.fuses.variant
  svn : b.fuses.svn = a.fuses.svn ∨
    (a.fw.trial = true ∧ b.fw.trial = false ∧ b.fuses.svn = max a.fuses.svn (min 63 ((a.fw.slot a.fw.bootSlot).image.elim 0 (·.svn))))

theorem Steady.burns {a b : State} (h : Steady a b) : Burns a b :=
  ⟨h.mem, by rw [h.fuses], by rw [h.fuses], .inl (by rw [h.fuses])⟩

theorem burns_fwCommit (s : State) : Burns s s.fwCommit := by
  unfold State.fwCommit
  dsimp only
  split
  · rename_i h
    simp only [Bool.and_eq_true] at h
    obtain ⟨⟨h1, h2⟩, h3⟩ := h
    have e : ∀ f, s.recordOp 3 s.fw.trial f = s.setFw fun x => { f x with result := Fw.ok } := by
      intro f
      unfold State.recordOp State.fwOp
      rw [if_pos h1]
      dsimp only
      rw [h2, h3]
      rfl
    rw [e]
    exact ⟨id, rfl, rfl, .inr ⟨h2, rfl, rfl⟩⟩
  · exact (steady_recordOp (Steady.refl s)).burns

theorem setOwnerLock_fw (s : State) (v : Bool) : (s.setOwnerLock v).fw.trial = s.fw.trial ∧ (s.setOwnerLock v).fw.bootSlot = s.fw.bootSlot ∧
    ((s.setOwnerLock v).fw.slot s.fw.bootSlot).image = (s.fw.slot s.fw.bootSlot).image := by
  unfold State.setOwnerLock
  split
  · exact ⟨rfl, rfl, rfl⟩
  · unfold State.saveSettings
    have hw : ∀ (x : FwSlot) (f : Nat) (b : Settings), (x.writeBook f b).image = x.image := by
      intro x f b
      unfold FwSlot.writeBook
      dsimp only
      split
      · rfl
      · rfl
      · split <;> rfl
    split
    · refine ⟨?_, ?_, ?_⟩
      · unfold Firmware.updSlot; dsimp only; split <;> rfl
      · unfold Firmware.updSlot; dsimp only; split <;> rfl
      · unfold Firmware.updSlot Firmware.slot; dsimp only
        by_cases h0 : s.fw.bootSlot = 0
        · simp only [h0, if_true]; exact hw _ _ _
        · simp only [h0, if_false]; exact hw _ _ _
    · exact ⟨rfl, rfl, rfl⟩

theorem burns_writeFwCtl (s : State) (v : Nat) (h : HostView) : Burns s (s.writeFwCtl v h) := by
  unfold State.writeFwCtl
  dsimp only
  have hl : Steady s (s.setOwnerLock (bitOf v 8)) := steady_setOwnerLock (Steady.refl s)
  have hb := burns_fwCommit (s.setOwnerLock (bitOf v 8))
  have hf := setOwnerLock_fw s (bitOf v 8)
  generalize s.setOwnerLock (bitOf v 8) = x at hl hb hf
  split
  · exact (steady_fwStart (Steady.refl s)).burns
  split
  · exact hl.burns
  split
  · exact (steady_fwActivate hl).burns
  split
  · obtain ⟨e1, e2, e3⟩ := hf
    refine ⟨fun w => hb.mem (hl.mem w), hb.serial.trans (by rw [hl.fuses]), hb.variant.trans (by rw [hl.fuses]), ?_⟩
    have q := hb.svn
    rw [e1, e2, e3, hl.fuses] at q
    exact q
  split
  · exact (steady_fwRollback hl).burns
  split
  · exact (steady_fwAbort hl).burns
  · exact (steady_fwOp (fun _ => steady_fwResult (Steady.refl _)) hl).burns

theorem Burns.ite {s a b : State} {p : Prop} [Decidable p] (h : Burns s a) (g : Burns s b) : Burns s (if p then a else b) := by
  split <;> assumption

theorem burns_writeFw (s : State) (off v : Nat) (h : HostView) : Burns s (s.writeFw off v h) :=
  Burns.ite (burns_writeFwCtl s v h) (Burns.ite ⟨id, rfl, rfl, .inl rfl⟩ (Burns.ite ⟨id, rfl, rfl, .inl rfl⟩ (Steady.refl s).burns))

theorem burns_writeBase (s : State) (fn base v raw : Nat) (lo hi : Bool) (h : HostView) : Burns s (s.writeBase fn base v raw lo hi h) := by
  have r := Steady.refl s
  unfold State.writeBase
  refine Burns.ite (Burns.ite (steady_writeRg r).burns r.burns) (Burns.ite r.burns (Burns.ite (steady_writeCeil r).burns ?_))
  refine Burns.ite (steady_writeTn r).burns (Burns.ite (steady_writeRg r).burns (Burns.ite (Burns.ite (steady_setWall r).burns r.burns) ?_))
  refine Burns.ite (steady_writeMt r).burns (Burns.ite (steady_writeSc r).burns (Burns.ite (burns_writeFw s base v h) ?_))
  refine Burns.ite (steady_writeCb r).burns (Burns.ite (steady_writeDl r).burns (Burns.ite (steady_writeFb r).burns ?_))
  exact Burns.ite (steady_writePw r).burns (steady_writeRs r).burns

theorem burns_writeAccess (s : State) (fn off width value : Nat) (h : HostView) : Burns s (s.writeAccess fn off width value h) := by
  unfold State.writeAccess
  split
  · exact (steady_logDropped (Steady.refl s)).burns
  · exact (Steady.refl s).burns
  · exact Burns.ite (burns_writeBase ..) (steady_logDropped (Steady.refl s)).burns

/-- A step whose effect at the command's time keeps DRAM's form and burns no more than a commit does. -/
theorem Burns.run {t : Nat} {s s' : State} {f : State → State} (hf : Burns (s.advance t) (f (s.advance t))) (h : run t s f = .next s') : Burns s s' := by
  unfold Sys2Proof.Machine.run at h
  split at h
  · cases h; exact (Steady.now s t).burns
  · cases h; exact ⟨hf.1, hf.2, hf.3, hf.4⟩

theorem Burns.onlyIf {s : State} {b : Bool} {f : State → State} (hf : Burns s (f s)) : Burns s (s.onlyIf b f) := by
  unfold State.onlyIf
  split
  · exact hf
  · exact (Steady.refl s).burns

/-! ### Commands whose effect on DRAM or fuses is their own -/

theorem burns_execRegisterWrite {t fn off width value : Nat} {h : HostView} {s s' : State} (hr : execRegisterWrite t fn off width value h s = .next s') : Burns s s' :=
  by
  unfold execRegisterWrite at hr
  refine Burns.run ?_ hr
  exact Burns.onlyIf (burns_writeAccess ..)

theorem burns_execTnWrite {t fn off width value : Nat} {s s' : State} (hr : execTnWrite t fn off width value s = .next s') : Burns s s' :=
  by
  unfold execTnWrite at hr
  refine Burns.run ?_ hr
  exact Burns.onlyIf (burns_writeAccess ..)

theorem burns_execWallClockWrite {t fn off width value : Nat} {s s' : State} (hr : execWallClockWrite t fn off width value s = .next s') : Burns s s' :=
  by
  unfold execWallClockWrite at hr
  refine Burns.run ?_ hr
  exact Burns.onlyIf (burns_writeAccess ..)

theorem burns_execFwCommit {t : Nat} {s s' : State} (hr : execFwCommit t s = .next s') : Burns s s' := Burns.run (burns_fwCommit _) hr

theorem steady_execColdStart {t : Nat} {s s' : State} (h : execColdStart t s = .next s') : Steady s s' := by
  unfold execColdStart at h
  dsimp only at h
  cases h
  have := steady_start (cold := true) (steady_coldClear (t := t) (Steady.refl s))
  exact ⟨this.1, this.2⟩

theorem steady_execShelfUncorrectable {t comb shelf : Nat} {s s' : State} (h : execShelfUncorrectable t comb shelf s = .next s') : Steady s s' :=
  Steady.run (f := id) (Steady.now s t) h

theorem steady_execFreedPageScrubDone {t : Nat} {s s' : State} (h : execFreedPageScrubDone t s = .next s') : Steady s s' :=
  Steady.run ⟨fun w => Dram.wf_scrubPages s.dram _ w, rfl⟩ h

theorem steady_execFlrScrubDone {t ten : Nat} {s s' : State} (h : execFlrScrubDone t ten s = .next s') : Steady s s' := by
  refine Steady.run ?_ h
  dsimp only
  split
  · exact Steady.now s t
  · exact ⟨fun w => Dram.wf_scrubPages s.dram _ w, rfl⟩

theorem steady_execDramTrainingDone {t : Nat} {ok : Bool} {s s' : State} (h : execDramTrainingDone t ok s = .next s') : Steady s s' := by
  unfold execDramTrainingDone at h
  refine Steady.run ?_ h
  refine Steady.onlyIf (Steady.now s t) (Steady.ite ⟨id, rfl⟩ (steady_failStart (Steady.now s t)))

theorem steady_execStartScrubDone {t : Nat} {s s' : State} (h : execStartScrubDone t s = .next s') : Steady s s' := by
  unfold execStartScrubDone at h
  refine Steady.run ?_ h
  refine Steady.onlyIf (Steady.now s t) (steady_tryTrainAll ?_)
  exact ⟨fun _ => rfl, rfl⟩

theorem steady_lanesTested {s x : State} (h : Steady s x) :
    Steady s (let z := { x with lanes := { x.lanes with tested := true } }
      if (List.range 4).all fun c => z.lanes.combIsolated.contains c then z.failStart 3 else { z with power := { z.power with phase := .dram } }) :=
  Steady.ite (steady_failStart ⟨h.1, h.2⟩) ⟨h.1, h.2⟩

theorem steady_execStartLaneTestDone {t : Nat} {testFail : List (Nat × Nat × Nat)} {s s' : State} (h : execStartLaneTestDone t testFail s = .next s') : Steady s s' := by
  have h1 : Steady s ((s.advance t).testBundles 0 bundleCount testFail) := steady_testBundles (Steady.now s t)
  unfold execStartLaneTestDone at h
  refine Steady.run ?_ h
  clear h
  refine Steady.onlyIf (Steady.now s t) ?_
  generalize (s.advance t).testBundles 0 bundleCount testFail = x at h1
  exact steady_lanesTested h1

end Sys2Proof.Laws
end

