-- ==== Sys2Proof/WellFormed.lean ====
section
/-! DEFINITION. Well-formed commands: every operand names a unit that the device has. -/

namespace Sys2Proof

def okFn (n : Nat) : Bool := decide (n < 512)
def okTen (n : Nat) : Bool := decide (n < 512)
def okRing (n : Nat) : Bool := decide (n < 256)
def okSeq (_ : Nat) : Bool := true
def okCell (n : Nat) : Bool := decide (n < 512)
def okComb (n : Nat) : Bool := decide (n < 4)
def okPort (n : Nat) : Bool := decide (n < 32)
def okBundle (n : Nat) : Bool := decide (n < 120)
def okDir (n : Nat) : Bool := decide (n < 2)
def okCls (n : Nat) : Bool := decide (n < 4)
def okDie (n : Nat) : Bool := decide (n < 7)
def okDpa (n : Nat) : Bool := decide (n < 768 * 2 ^ 30)
def okEdge (n : Nat) : Bool := decide (n < 2 ^ 32)
def okShelf (n : Nat) : Bool := decide (n < 192)
def okCells (l : List Nat) : Bool := l.all okCell

/-- An access of 1, 2, 4 or 8 bytes: R9 says what the device does with each. -/
def okWidth (w : Nat) : Bool := w == 1 || w == 2 || w == 4 || w == 8

/-- A value that fits the access. -/
def okValue (w v : Nat) : Bool := decide (v < 2 ^ (8 * w))

/-- The well-formed commands. -/
def Instr.wf : Instr → Bool
  | .registerWrite _ fn _ width value _ => okFn fn && okWidth width && okValue width value
  | .i3cRead _ _ _ => true
  | .i3cWrite _ _ value => decide (value < 2 ^ 32)
  | .ringEnable _ fn value => okFn fn && decide (value < 2 ^ 64)
  | .ringDisable _ fn value => okFn fn && decide (value < 2 ^ 64)
  | .ringDrained _ ten lring => okTen ten && okRing lring
  | .kick _ fn _ width _ => okFn fn && okWidth width
  | .ringPoll _ cls _ => okCls cls
  | .cmdSessionOpen _ ten lring seq => okTen ten && okRing lring && okSeq seq
  | .cmdSessionClose _ ten lring seq => okTen ten && okRing lring && okSeq seq
  | .cmdKeysetLoad _ ten lring seq _ => okTen ten && okRing lring && okSeq seq
  | .cmdModelLoad _ ten lring seq _ => okTen ten && okRing lring && okSeq seq
  | .cmdModelRetire _ ten lring seq => okTen ten && okRing lring && okSeq seq
  | .cmdEval _ ten lring seq => okTen ten && okRing lring && okSeq seq
  | .cmdRoundtripResume _ ten lring seq _ => okTen ten && okRing lring && okSeq seq
  | .cmdEncodeEncrypt _ ten lring seq _ => okTen ten && okRing lring && okSeq seq
  | .encodeAndEncrypt _ ten lring seq cells _ => okTen ten && okRing lring && okSeq seq && okCells cells
  | .encryptPlaintext _ ten lring seq cells _ => okTen ten && okRing lring && okSeq seq && okCells cells
  | .generateSecretKey _ ten lring seq cells _ => okTen ten && okRing lring && okSeq seq && okCells cells
  | .generateKeySet _ ten lring seq cells _ => okTen ten && okRing lring && okSeq seq && okCells cells
  | .cmdDecryptDecode _ ten lring seq _ => okTen ten && okRing lring && okSeq seq
  | .decryptAndDecode _ ten lring seq cells _ => okTen ten && okRing lring && okSeq seq && okCells cells
  | .decryptToPlaintext _ ten lring seq cells _ => okTen ten && okRing lring && okSeq seq && okCells cells
  | .eraseSlot _ ten lring seq => okTen ten && okRing lring && okSeq seq
  | .cmdPke _ ten lring seq _ => okTen ten && okRing lring && okSeq seq
  | .sign _ ten lring seq _ => okTen ten && okRing lring && okSeq seq
  | .verify _ ten lring seq _ => okTen ten && okRing lring && okSeq seq
  | .keygen _ ten lring seq _ => okTen ten && okRing lring && okSeq seq
  | .derive _ ten lring seq _ => okTen ten && okRing lring && okSeq seq
  | .importKey _ ten lring seq _ => okTen ten && okRing lring && okSeq seq
  | .erase _ ten lring seq => okTen ten && okRing lring && okSeq seq
  | .publicKey _ ten lring seq _ => okTen ten && okRing lring && okSeq seq
  | .quote _ ten lring seq _ => okTen ten && okRing lring && okSeq seq
  | .ephRelease _ ten lring seq => okTen ten && okRing lring && okSeq seq
  | .getCert _ ten lring seq _ => okTen ten && okRing lring && okSeq seq
  | .cmdMeterRead _ ten lring seq => okTen ten && okRing lring && okSeq seq
  | .meterSnapshot _ ten lring seq _ => okTen ten && okRing lring && okSeq seq
  | .meterTake _ ten lring seq _ => okTen ten && okRing lring && okSeq seq
  | .cmdCopy _ ten lring seq _ => okTen ten && okRing lring && okSeq seq
  | .cmdFence _ ten lring seq => okTen ten && okRing lring && okSeq seq
  | .heldCommandRelease _ => true
  | .entropyHoldExpire _ ten lring seq => okTen ten && okRing lring && okSeq seq
  | .finalCompletionWrite _ ten lring _ => okTen ten && okRing lring
  | .msixModTimer _ ten lring => okTen ten && okRing lring
  | .dispatch _ comb _ cells => okComb comb && okCells cells
  | .dispatchStarvation _ comb cls => okComb comb && okCls cls
  | .segmentYield _ _ => true
  | .cellScrubComplete _ _ => true
  | .segmentStart _ _ => true
  | .segmentEnd _ _ => true
  | .rtOutboundWrite _ ten lring seq _ => okTen ten && okRing lring && okSeq seq
  | .rtAttemptExpire _ ten lring seq => okTen ten && okRing lring && okSeq seq
  | .rtInterimDeadline _ ten lring seq => okTen ten && okRing lring && okSeq seq
  | .wait _ cell => okCell cell
  | .post _ cell => okCell cell
  | .jump _ cell => okCell cell
  | .loop _ cell => okCell cell
  | .handoff _ cell => okCell cell
  | .halt _ cell => okCell cell
  | .setmod _ cell => okCell cell
  | .setadv _ cell => okCell cell
  | .timerLoad _ cell => okCell cell
  | .timerStop _ cell => okCell cell
  | .latchArm _ cell => okCell cell
  | .latchDisarm _ cell => okCell cell
  | .moveDirect _ cell => okCell cell
  | .moveStencil _ cell _ => okCell cell
  | .moveBankLoad _ cell => okCell cell
  | .winOpen _ cell => okCell cell
  | .winClose _ cell => okCell cell
  | .mact _ cell => okCell cell
  | .macv _ cell => okCell cell
  | .nttf _ cell => okCell cell
  | .ntti _ cell => okCell cell
  | .tadd _ cell => okCell cell
  | .tsub _ cell => okCell cell
  | .tmul _ cell => okCell cell
  | .tmulc _ cell => okCell cell
  | .tperm _ cell => okCell cell
  | .tdec _ cell => okCell cell
  | .tresc _ cell => okCell cell
  | .tred _ cell => okCell cell
  | .skim _ cell => okCell cell
  | .noise _ cell => okCell cell
  | .instructionComplete _ cell _ _ => okCell cell
  | .remoteWriteArrive _ cell _ => okCell cell
  | .tokenMoveArrive _ cell _ => okCell cell
  | .remoteRead _ cell _ => okCell cell
  | .timerExpire _ cell timer => okCell cell && okDir timer
  | .waggleStepEdge _ series => okDir series
  | .segmentWatchdog _ _ => true
  | .foragerTileDeliver _ _ _ _ _ => true
  | .multicastGranuleFetch _ _ _ _ => true
  | .relayHop _ _ _ _ _ _ => true
  | .paceInterval _ _ _ => true
  | .c0HoldExpire _ comb => okComb comb
  | .thermalSample _ _ => true
  | .thermalEmergencyEnd _ => true
  | .combThermalRecover _ comb => okComb comb
  | .thermalTrip _ die => okDie die
  | .combRestEntry _ comb => okComb comb
  | .combFault _ comb _ cell => okComb comb && (okCell cell || cell == 0xFFFF)
  | .heartbeatTimeout _ comb => okComb comb
  | .combDrainComplete _ comb => okComb comb
  | .combResetComplete _ comb _ => okComb comb
  | .dramCorrected _ dpa => okDpa dpa
  | .dramUncorrectable _ _ => true
  | .shelfUncorrectable _ comb shelf => okComb comb && okShelf shelf
  | .patrolScrub _ _ => true
  | .flitReplay _ bundle dir => okBundle bundle && okDir dir
  | .laneRetrain _ bundle dir => okBundle bundle && okDir dir
  | .retrainTestDone _ bundle dir _ => okBundle bundle && okDir dir
  | .entropySample _ _ => true
  | .drbgSeeded _ => true
  | .drbgReseed _ => true
  | .noiseReseed _ comb => okComb comb
  | .ephKeyExpire _ ten _ => okTen ten
  | .meterMsTick _ => true
  | .epochClose _ => true
  | .meterRecordSign _ => true
  | .wallClockWrite _ fn _ width value => okFn fn && okWidth width && okValue width value
  | .tnWrite _ fn _ width value => okFn fn && okWidth width && okValue width value
  | .swarmConfigLoad _ _ => true
  | .linkLightDetect _ port => okPort port
  | .laneLock _ port => okPort port
  | .trainingTimeout _ port => okPort port
  | .attestationReceive _ port _ _ _ => okPort port
  | .attestTimeout _ port => okPort port
  | .keyConfirmReceive _ port _ => okPort port
  | .keyConfirmTimeout _ port => okPort port
  | .lightLoss _ port => okPort port
  | .quarantineReattest _ port => okPort port
  | .linkFrameSend _ port => okPort port
  | .linkFrameReceive _ port _ => okPort port
  | .tagFailureLimit _ port => okPort port
  | .rekeyTrigger _ port => okPort port
  | .rekeyRetry _ port => okPort port
  | .keyExhausted _ port => okPort port
  | .timeExchange _ port _ => okPort port
  | .rootSelfElect _ => true
  | .syncLost _ => true
  | .fabricMessageLand _ _ => true
  | .fabricAckReceive _ ten lring seq edge => okTen ten && okRing lring && okSeq seq && okEdge edge
  | .fabricRecvStart _ ten lring seq => okTen ten && okRing lring && okSeq seq
  | .fabricDeadline _ ten lring seq => okTen ten && okRing lring && okSeq seq
  | .routeFailureNotice _ ten lring seq edge port _ _ => okTen ten && okRing lring && okSeq seq && okEdge edge && okPort port
  | .coldStart _ => true
  | .startLaneTestDone _ _ => true
  | .dramTrainingDone _ _ => true
  | .startScrubDone _ => true
  | .warmReset _ _ => true
  | .pwResetWarm _ _ => true
  | .drainTimeout _ => true
  | .functionLevelReset _ ten _ _ => okTen ten
  | .flrScrubDone _ ten => okTen ten
  | .pwResetPort _ port => okPort port
  | .d3hotEntry _ => true
  | .deepRestGate _ => true
  | .d0Return _ _ => true
  | .vfPowerState _ ten _ => okTen ten
  | .lowInputSet _ => true
  | .lowInputClear _ => true
  | .powerFail _ => true
  | .holdupMeasure _ _ => true
  | .fwStart _ value _ => decide (value < 2 ^ 32)
  | .fwActivate _ => true
  | .fwCommit _ => true
  | .fwRollback _ => true
  | .fwAbort _ => true
  | .flashCommitDone _ => true
  | .updateResume _ => true
  | .trainingRetry _ port => okPort port
  | .perstDeassert _ => true
  | .commandFinish _ ten lring seq _ => okTen ten && okRing lring && okSeq seq
  | .imageCheckDone _ => true
  | .readBackDone _ _ => true
  | .freedPageScrubDone _ => true

end Sys2Proof
end

