-- ==== Sys2Proof/Tests/Slice0.lean ====
section
/-! SUPPORT. Small tests: the well-formedness smoke, a witness for the hypotheses of every statement, and single steps whose results the spec gives. -/

namespace Sys2Proof.Tests

open Sys2Proof Sys2Proof.Machine Sys2Proof.Safety

set_option Elab.async false

/-! ### Small states -/

/-- The device in READY. -/
def ready : State := { State.reset with power := { Power.reset with phase := .ready } }

/-- READY with one ring: local ring 0 of tenant 1. -/
def withRing (r : Ring) : State := { ready with rings := [(ringKey 1 0, r)] }

/-- A fetched command of opcode op that stands in a phase. -/
def cmdAt (op : Byte) (p : CmdPhase) : Cmd := { Cmd.fetched 0 1 0 (op :: zeros 127) with phase := p }

/-- A LIVE ring with the commands. -/
def liveRing (cs : List Cmd) : Ring := { Ring.fresh with state := .live, sqHead := 1, sqTail := 1, cmds := cs }

/-! ### Witnesses: rings -/

theorem witness_RingEnableResult_pass : ready.power.off = false ∧ ready.power.phase = .ready ∧ bitOf 0x46 6 = true ∧
    (ready.updRing 0 0 fun r => r.setCfg 0x46).enableErr 0 0 = 0 := by decide

theorem witness_RingEnableResult_vector : bitOf 0x40046 6 = true ∧
    (ready.updRing 0 0 fun r => r.setCfg 0x40046).enableErr 0 0 = 3 := by decide

theorem witness_RingEnableResult_notOff : (withRing (liveRing [])).power.phase = .ready ∧
    ((withRing (liveRing [])).updRing 1 0 fun r => r.setCfg 0x46).enableErr 1 0 = 4 := by decide

theorem witness_RingDisableResult : (withRing (liveRing [cmdAt 0x60 .waiting])).power.off = false ∧
    (withRing (liveRing [cmdAt 0x60 .waiting])).power.phase = .ready ∧ bitOf 6 6 = false ∧
    (withRing (liveRing [cmdAt 0x60 .waiting])).selRing 1 = (1, 0) ∧
    ((withRing (liveRing [cmdAt 0x60 .waiting])).ring 1 0).state = .live := by decide

theorem witness_RingDisableResult_drained :
    ((withRing { Ring.fresh with state := .draining }).ring 1 0).state = .draining ∧
    ((withRing { Ring.fresh with state := .draining }).ring 1 0).cmds = [] := by decide

/-- Tenant 1's doorbell array at IOVA 0 says one entry (GEN 0); its submission ring at 0x1000 holds a fence. -/
def oneEntry : HostView :=
  [{ fn := 1, page := 0, bytes := [1] }, { fn := 1, page := 1, bytes := [0x60] }]

def polled : State :=
  { withRing { Ring.fresh with state := .live, subBase := 0x1000 } with tenants := [(1, { Tenant.fresh with dbEn := true })] }

theorem witness_WatcherFetchesEntry : polled.power.off = false ∧ polled.power.phase = .ready ∧ polled.power.pf = .d0 ∧
    polled.starts 1 = true ∧ (polled.ring 1 0).state = .live ∧ (polled.ring 1 0).cls = 2 ∧ (polled.ten 1).dbEn = true ∧
    hostRead oneEntry 1 0 8 = some (1 :: zeros 7) ∧ (polled.ring 1 0).judgeTail (leNat (1 :: zeros 7)) = .valid 1 0 ∧
    (polled.ring 1 0).sqTail = (polled.ring 1 0).sqHead ∧ (polled.ring 1 0).cmds.length ≤ (polled.ring 1 0).maxInflight ∧
    hostRead oneEntry 1 0x1000 128 = some (0x60 :: zeros 127) := by decide

theorem test_poll_fetches_fence : ∃ s', exec (.ringPoll 5 2 oneEntry) polled = .next s' ∧ (s'.ring 1 0).cmds.map (·.seq) = [0] :=
  ⟨_, rfl, by decide⟩

def seededState (s : State) : State := { s with entropy := { s.entropy with seeded := true } }

theorem witness_RandomnessAndSpaceHolds_release : (seededState (withRing (liveRing [cmdAt 0x20 (.held 7)]))).power.off = false ∧
    (seededState (withRing (liveRing [cmdAt 0x20 (.held 7)]))).canServe = true := by decide

theorem witness_RandomnessAndSpaceHolds_release_expire :
    (withRing (liveRing [cmdAt 0x20 (.held 7)])).cmd? 1 0 0 = some (cmdAt 0x20 (.held 7)) ∧
    (cmdAt 0x20 (.held 7)).phase = .held 7 ∧ 7 + 100000000 ≤ max (withRing (liveRing [cmdAt 0x20 (.held 7)])).now 100000007 ∧
    (withRing (liveRing [cmdAt 0x20 (.held 7)])).canServe = false := by decide

theorem witness_CompletionsAndMessages : (withRing (liveRing [cmdAt 0x60 .finished])).power.warmDrain = none ∧
    (withRing (liveRing [cmdAt 0x60 .finished])).power.flrs = [] ∧
    ((withRing (liveRing [cmdAt 0x60 .finished])).ring 1 0).cmds = [cmdAt 0x60 .finished] ∧
    (cmdAt 0x60 .finished).phase = .finished ∧ (liveRing [cmdAt 0x60 .finished]).freePositions ≠ 0 ∧
    (liveRing []).cplBase % 4096 = 0 ∧ (hostPage oneEntry 1 (liveRing []).cplIova).isSome = true := by decide

theorem witness_CompletionsAndMessages_timer : (withRing { liveRing [] with modSince := some 0, modUs := 3 }).power.off = false ∧
    ((withRing { liveRing [] with modSince := some 0, modUs := 3 }).ring 1 0).modSince = some 0 ∧ 0 + 3 * 1000 ≤ max 0 3000 ∧
    (withRing { liveRing [] with modSince := some 0, modUs := 3 }).power.vfD3.contains 1 = false := by decide

/-! ### More small states -/

/-- A 128-byte entry, zero but for some bytes. -/
def entryWith (ws : List (Nat × Nat)) : List Byte := ws.foldl (fun l w => l.set w.1 (BitVec.ofNat 8 w.2)) (zeros 128)

/-- A fetched command with some bytes, in a phase. -/
def cmdWith (p : CmdPhase) (ws : List (Nat × Nat)) : Cmd := { Cmd.fetched 0 1 0 (entryWith ws) with phase := p }

/-- A ring whose one command is c. -/
def having (c : Cmd) : State := withRing (liveRing [c])

/-- Tenant 1's objects are x. -/
def owning (x : Tenant) (s : State) : State := { s with tenants := [(1, x)] }

/-- Tenant 1's settings are x. -/
def allowing (x : TnSet) (s : State) : State := { s with settings := { s.settings with tn := [(1, x)] } }

/-- A modulus of the worked case under R30: 2^32 - 2^24 + 2^20 + 1. -/
def aModulus : ModEntry := { q := 4279238657, w := 32, a := 24, b := 20, eps := 1, root := 2 }

def aTable : ModTable := { logN := 12, lCount := 1, kCount := 0, entries := [aModulus] }

/-- A segment of one cell with a program of one part. -/
def aSegment : SegDef :=
  { cells := 1, combOff := 0, idempotent := true, checked := false, modBase := 0, latMode := 0, watchdogUs := 100,
    programs := [[[]]], cellMap := [0], stencils := [], streams := [] }

def aGen : Gen :=
  { home := 0, modtab := aTable, segs := [aSegment], weights := [], rts := [], obj := 0, pinned := false, damaged := false }

def aModel : Model := { gens := [(1, aGen)], loading := [], next := 2, retired := false }

def aKeySet : KeySet :=
  { modtab := aTable, dnum := 1, bootEll := 0, lweN := 0, logNb := 0, ksEll := 0, ksBits := 0, lweIdx := 0, comps := [], obj := 7,
    loaded := true, released := false, invalid := false }

def aSession : Session :=
  { active := true, closing := false, position := 0, model := 3, gen := 1, keyset := some 2, cls := 2, arenaBytes := 2 ^ 21, arena := 8,
    deadlineMs := 2000, recIndex := 0, tickets := [] }

/-- A tenant with session 1, key set 2 and model 3. -/
def aTenant : Tenant := { Tenant.fresh with sessions := [(1, aSession)], keysets := [(2, aKeySet)], models := [(3, aModel)] }

/-- Settings under which a tenant may hold a few objects. -/
def someQuota : TnSet := { TnSet.reset with dramMib := 64, activeMax := 4, recordMax := 4, genMax := 4 }

/-! ### Witnesses: commands -/

/-- A meter read (0x40) with a reserved byte set: it waits, nothing holds it, and its entry is at fault at offset 2. -/
theorem witness_ChecksRefuseBeforeStart :
    Waits (having (cmdWith .waiting [(0, 0x40), (2, 1)])) 1 0 0 0x40 (cmdWith .waiting [(0, 0x40), (2, 1)]) ∧
    (liveRing [cmdWith .waiting [(0, 0x40), (2, 1)]]).afterGate (cmdWith .waiting [(0, 0x40), (2, 1)]) = .go ∧
    commonFault (cmdWith .waiting [(0, 0x40), (2, 1)]).entry 0 = some (St.badField, 2) := by
  unfold Waits; decide

/-- The same with a right entry whose operation is none of the two: its own check refuses it. -/
theorem witness_ChecksRefuseBeforeStart_own :
    commonFault (cmdWith .waiting [(0, 0x40), (0x50, 9)]).entry 0 = none ∧
    (meterCheck 1 (having (cmdWith .waiting [(0, 0x40), (0x50, 9)])) (cmdWith .waiting [(0, 0x40), (0x50, 9)])).isSome = true := by decide

/-- A snapshot of 72 bytes. -/
def snapshot (p : CmdPhase) : Cmd := cmdWith p [(0, 0x40), (0x40, 72)]

theorem witness_EngineCommandsStart_meter :
    Startable (having (snapshot .waiting)) 1 0 0 0x40 1 (snapshot .waiting) ∧ meterCheck 1 (having (snapshot .waiting)) (snapshot .waiting) = none ∧
    meterNeeds (having (snapshot .waiting)) (snapshot .waiting) = false := by
  unfold Startable Waits; decide

/-- Tenant 1 may use the gateway, and the DRBG serves. -/
def gatewayOn (s : State) : State := seededState (allowing { someQuota with gateway := true } s)

/-- A generation of a secret key into slot 0; a decryption to a plaintext of one limb. -/
def genSecret (p : CmdPhase) : Cmd := cmdWith p [(0, 0x20), (0x50, 2)]
def decryptOne (p : CmdPhase) : Cmd := cmdWith p [(0, 0x21), (0x50, 1), (0x54, 1)]

theorem witness_EngineCommandsStart_encrypt :
    Startable (gatewayOn (having (genSecret .waiting))) 1 0 0 0x20 1 (genSecret .waiting) ∧
    encryptCheck 1 (gatewayOn (having (genSecret .waiting))) (genSecret .waiting) = none ∧
    (gatewayOn (having (genSecret .waiting))).canServe = true := by
  unfold Startable Waits; decide

theorem witness_EngineCommandsStart_decrypt :
    Startable (gatewayOn (having (decryptOne .waiting))) 1 0 0 0x21 1 (decryptOne .waiting) ∧
    decryptCheck 1 (gatewayOn (having (decryptOne .waiting))) (decryptOne .waiting) = none := by
  unfold Startable Waits; decide

/-- A copy of 64 bytes to session 1's arena. -/
def copyIn (p : CmdPhase) : Cmd := cmdWith p [(0, 0x50), (0x10, 1), (0x40, 64)]

theorem witness_EngineCommandsStart_copy :
    Startable (owning aTenant (having (copyIn .waiting))) 1 0 0 0x50 1 (copyIn .waiting) ∧
    copyCheck 1 (owning aTenant (having (copyIn .waiting))) (copyIn .waiting) = none ∧
    Tbl.look ((owning aTenant (having (copyIn .waiting))).ten 1).sessions ((copyIn .waiting).handle 0) = some aSession := by
  unfold Startable Waits; decide

/-- An erasure of public-key slot 0: its command and its operand block at IOVA 0. -/
def pkeCmd (p : CmdPhase) : Cmd := cmdWith p [(0, 0x30), (0x40, 128)]
def eraseBlock : List Byte := BitVec.ofNat 8 Pk.erase :: zeros 127
def pkePages (b : List Byte) : HostView := [{ fn := 1, page := 0, bytes := b }]

set_option maxRecDepth 4000 in
theorem witness_EngineCommandsStart_pke :
    Startable (having (pkeCmd .waiting)) 1 0 0 0x30 1 (pkeCmd .waiting) ∧ (pkeCmd .waiting).len 0 = 128 ∧
    hostRead (pkePages eraseBlock) 1 ((pkeCmd .waiting).iova 0) 128 = some eraseBlock ∧ firstFault (pkFaults eraseBlock) = none ∧
    pkNeeds eraseBlock = false ∧ pkOp eraseBlock ≠ Pk.quote := by
  unfold Startable Waits; decide

/-- Command 1 of the ring names command 0, which still waits. -/
def follower (p : CmdPhase) : Cmd := { Cmd.fetched 1 2 0 (entryWith [(0, 0x40), (4, 1)]) with phase := p }

theorem witness_PredecessorsAndFences_wait :
    Waits (withRing (liveRing [snapshot .waiting, follower .waiting])) 1 0 1 0x40 (follower .waiting) ∧
    ((List.range 4).map (follower .waiting).after).filter (· != 0) = [1] ∧ 1 ≤ (follower .waiting).seq ∧
    (liveRing [snapshot .waiting, follower .waiting]).finalStatus (1 - 1) = none := by
  unfold Waits; decide

theorem witness_PredecessorsAndFences_failed :
    Waits (withRing { liveRing [follower .waiting] with hist := [(0, St.badField)] }) 1 0 1 0x40 (follower .waiting) ∧
    ({ liveRing [follower .waiting] with hist := [(0, St.badField)] } : Machine.Ring).finalStatus 0 = some St.badField ∧
    St.badField ≠ St.ok := by
  unfold Waits; decide

theorem witness_PredecessorsAndFences_fence :
    Startable (having (cmdWith .waiting [(0, 0x60), (1, 8)])) 1 0 0 0x60 1 (cmdWith .waiting [(0, 0x60), (1, 8)]) ∧
    ((having (cmdWith .waiting [(0, 0x60), (1, 8)])).ring 1 0).cmds = [cmdWith .waiting [(0, 0x60), (1, 8)]] := by
  unfold Startable Waits; decide

/-- Without a seed a generation of a secret key is held. -/
theorem witness_RandomnessAndSpaceHolds_held :
    Waits (allowing { someQuota with gateway := true } (having (genSecret .waiting))) 1 0 0 0x20 (genSecret .waiting) ∧
    (liveRing [genSecret .waiting]).afterGate (genSecret .waiting) = .go ∧ commonFault (genSecret .waiting).entry 0 = none ∧
    encryptCheck 1 (allowing { someQuota with gateway := true } (having (genSecret .waiting))) (genSecret .waiting) = none ∧
    (allowing { someQuota with gateway := true } (having (genSecret .waiting))).canServe = false := by
  unfold Waits; decide

/-- A ring of 64 whose 64 positions are reserved. -/
theorem witness_RandomnessAndSpaceHolds_full :
    Waits (withRing { liveRing [snapshot .waiting] with reserved := 64 }) 1 0 0 0x40 (snapshot .waiting) ∧
    commonFault (snapshot .waiting).entry 0 = none ∧ ({ liveRing [snapshot .waiting] with reserved := 64 } : Machine.Ring).freePositions = 0 := by
  unfold Waits; decide

/-! ### Witnesses: sessions, key sets, models -/

/-- The DRAM split of the settings is in force, and tenant 1 has some quota. -/
def roomy (s : State) : State := { allowing someQuota s with dram := { s.dram with localGib := 88 } }

/-- An open of session 0x10000005 with key set 2 and model 3, its arena 2 MiB. -/
def openCmd (p : CmdPhase) : Cmd := cmdWith p [(0, 1), (0x10, 5), (0x13, 0x10), (0x14, 2), (0x18, 3), (0x52, 0x20)]
def opening : State := roomy (owning { aTenant with sessions := [] } (having (openCmd .waiting)))

theorem witness_SessionOpens :
    opening.power.off = false ∧ Startable opening 1 0 0 0x01 1 (openCmd .waiting) ∧ openCheck 1 opening (openCmd .waiting) = none ∧
    openLimits opening 1 2 false = none ∧ (openCmd .waiting).cls (opening.ring 1 0) = 2 ∧ (openCmd .waiting).resume = false ∧
    (Tbl.look (opening.ten 1).models (openModel (opening.ten 1) (openCmd .waiting))).bind Model.newest = some (1, aGen) ∧
    ((begun opening 0 1 0 0 1).alloc 1 .arena (some aGen.home) (openCmd .waiting).arenaBytes).toOption.isSome = true := by
  unfold Startable Waits; decide

/-- A close of session 1. -/
def closeCmd (p : CmdPhase) : Cmd := cmdWith p [(0, 2), (0x10, 1)]

theorem witness_SessionCloses_active :
    Startable (owning aTenant (having (closeCmd .waiting))) 1 0 0 0x02 1 (closeCmd .waiting) ∧
    closeCheck 1 (owning aTenant (having (closeCmd .waiting))) (closeCmd .waiting) = none ∧ (closeCmd .waiting).handle 1 = 0 ∧
    Tbl.look ((owning aTenant (having (closeCmd .waiting))).ten 1).sessions 1 = some aSession ∧ aSession.active = true := by
  unfold Startable Waits; decide

theorem witness_SessionCloses_record :
    Startable (owning { aTenant with sessions := [(1, { aSession with active := false })] } (having (closeCmd .waiting))) 1 0 0 0x02 1 (closeCmd .waiting) ∧
    closeCheck 1 (owning { aTenant with sessions := [(1, { aSession with active := false })] } (having (closeCmd .waiting))) (closeCmd .waiting) = none ∧
    (closeCmd .waiting).keepRecord = false := by
  unfold Startable Waits; decide

theorem witness_SessionCloses_finish :
    (owning aTenant (having (closeCmd .started))).cmd? 1 0 0 = some (closeCmd .started) ∧ (closeCmd .started).opcode = 0x02 ∧
    (closeCmd .started).phase = .started ∧ (owning aTenant (having (closeCmd .started))).sessionBusy 1 1 = false := by decide

/-- A modulus of valid form for rings of 2^12: 2^32 - 2^20 + 1, with a root seed. -/
def rootedModulus : ModEntry := { q := 0xFFF00001, w := 32, a := 20, b := 0, eps := 0, root := 0x18875109 }

theorem witness_rootedModulus : rootedModulus.ok 12 = true := by decide

/-- The first page of a key image of 20,512 bytes: one relinearisation key of one digit and one limb from offset 4096 on. -/
def keyPage : List Byte :=
  ascii "LKEY" ++ toLE 1 1 ++ toLE 1 1 ++ zeros 2 ++ toLE 1 1 ++ zeros 7 ++ toLE 8 0x60 ++ toLE 8 20512 ++ zeros 32 ++
    toLE 1 1 ++ toLE 1 12 ++ toLE 1 1 ++ zeros 13 ++ toLE 4 0xFFF00001 ++ toLE 1 32 ++ toLE 1 20 ++ zeros 2 ++ toLE 4 0x18875109 ++ zeros 4 ++
    toLE 1 1 ++ zeros 7 ++ toLE 8 4096

/-- The image in host pages 16 to 21; its b-half and its seed read as zeros. -/
def keyHost : HostView :=
  [{ fn := 1, page := 16, bytes := keyPage }, { fn := 1, page := 17, bytes := [] }, { fn := 1, page := 18, bytes := [] },
   { fn := 1, page := 19, bytes := [] }, { fn := 1, page := 20, bytes := [] }, { fn := 1, page := 21, bytes := [] }]

/-- A load of key set 0x20000005 from IOVA 0x10000, 20,512 bytes. -/
def keyCmd (p : CmdPhase) : Cmd := cmdWith p [(0, 3), (0x10, 5), (0x13, 0x20), (0x22, 1), (0x40, 0x20), (0x41, 0x50)]
def keying : State := roomy (owning Tenant.fresh (having (keyCmd .waiting)))

theorem witness_KeySetLoads_start : Startable keying 1 0 0 0x03 1 (keyCmd .waiting) ∧ keysetCheck 1 keying (keyCmd .waiting) = none := by
  unfold Startable Waits; decide
set_option maxRecDepth 100000 in
theorem witness_KeySetLoads_image : ∃ img k, hostRead keyHost 1 ((keyCmd .waiting).iova 0) ((keyCmd .waiting).len 0) = some img ∧
    keyHeader img 20512 = .ok k ∧ k.paramFault keying.settings.ceil = none ∧ k.dirFault img = none ∧ k.badLength img = none := by
  refine ⟨_, _, rfl, rfl, ?_, ?_, ?_⟩ <;> decide

theorem witness_KeySetLoads_place :
    ((begun keying 0 1 0 0 1).alloc 1 .keyset ((keying.ten 1).homeOf ((keyCmd .waiting).handle 1)) 20480).toOption.isSome = true := by decide

/-- A load of key set 2, started. -/
def keyDone : State := owning aTenant (having (cmdWith .started [(0, 3), (0x10, 2)]))

theorem witness_KeySetLoads_finish : keyDone.cmd? 1 0 0 = some (cmdWith .started [(0, 3), (0x10, 2)]) ∧
    (cmdWith .started [(0, 3), (0x10, 2)]).opcode = 0x03 ∧ (cmdWith .started [(0, 3), (0x10, 2)]).phase = .started ∧
    Tbl.look (keyDone.ten 1).keysets 2 = some aKeySet := by decide

/-- A sealed package for tenant 1 and its ephemeral key 1, whose private scalar is 1: a table of one modulus and one segment of one cell that halts. Sealed by hand with AES-256-GCM under the model key 00 01 .. 1F. -/
def aPackage : List Byte :=
    toLE 112 0x5f0eea907c1d437a9d817e1dceb1600ac0b8f0b51331dae97c149a28bd1df4f829dc9292bf989e5d6f2c26964ade1736b70a7672385e543a6c2955bf5df20255382a5482e041f759989ba78b623b1d6e74ad20f31ec7b18e37058bbe22ca87aa000000000000000100010001474b504c ++
    toLE 112 0x18000000000000100002711bcbcab11e90f3395a397e4cbab302503229c8d02e83d4038e98c6cccafcdb9ab5fb7fe4a0663d4ec924dd900a42c ++
    toLE 112 0x99482416c7d389d3e250d1910a3f63e8e44e604a263fb650a5467179e64107a94e69cec1f571c33306b8f22abce65f4e565dffc583b39e802f608128535643b299912c1835a9a848bd822cb492f1f1420000000000000000000000000000000000000000000000000000000000000000 ++
    toLE 112 0x7c0214a440099c65d5dac8edc152ed30d6ea0a3cd7b180858fdbfc1925c4623fe26e666e52790a87e6c3aade7f4d58e13a86a740fbd86678790e29eacbd3ed32823b2464fa2712d09c117ce86b52bd2c5dba248334667819a9ec5fac074f51d6b0d15ffe5b93f73d4145bc0066c6155c ++
    toLE 112 0x7d5f25566b2acdb3b388ba34977d55d961c6aa59582bdd5d894be3adafd0b61077a3a6f4902b0f0aec3b6e0d57d6e805c122626a120b3e7234a88ccbc00768786dd07b681b127a0bffc8c9e5887c342bfbf15f2694ea6154d47dcf0d9c482810ab5c422bb806ac23359d1f8a43e1b562 ++
    toLE 96 0x6293fb1ca778ba6b07152b490a0893ec3f4097479a4e18fd4eb6a450758ed34b9a614bb39879a776fa7339c1424167e37c3c990092d1393ce7b576da676e7226574eb369dea73d7b1fd38880dc13e6fddb1f8d8b2cb00a15283e4b4c66c19008

/-- A load of model 0x30000005 from IOVA 0x10000, 656 bytes, and a tenant that holds the key. -/
def modelCmd (p : CmdPhase) : Cmd := cmdWith p [(0, 4), (0x10, 5), (0x13, 0x30), (0x22, 1), (0x40, 0x90), (0x41, 0x02)]
def loading : State :=
  roomy (owning { Tenant.fresh with ephs := [{ id := 1, priv := 1, salt := zeros 48, expires := 10 }] } (having (modelCmd .waiting)))

theorem witness_ModelLoadsAndRetires_load : Startable loading 1 0 0 0x04 1 (modelCmd .waiting) ∧ modelCheck 1 loading (modelCmd .waiting) = none ∧
    (loading.ten 1).gensHeld + 1 ≤ (loading.tnSet 1).genMax ∧ sumL (loading.tenants.map fun t => t.2.gensHeld) + 1 ≤ 16384 := by
  unfold Startable Waits; decide
set_option maxRecDepth 100000 in
theorem witness_ModelLoadsAndRetires_package :
    (((((begun loading 0 1 0 0 1).openPackage [{ fn := 1, page := 16, bytes := aPackage }] 1 0x10000 656).bind
      fun p => readPlain p loading.settings.ceil ((loading.ten 1).paramsOf 0x30000005)).toOption).bind fun g =>
        ((begun loading 0 1 0 0 1).placeGen 1 (modelCmd .waiting) g.1 g.2).toOption).isSome = true := by decide +kernel

/-- A started load of model 3 whose second generation waits for its end. -/
def modelDone : State :=
  owning { aTenant with models := [(3, { aModel with loading := [(9, aGen)] })] } (having { cmdWith .started [(0, 4), (0x10, 3)] with load := some 9 })

theorem witness_ModelLoadsAndRetires_finish :
    modelDone.cmd? 1 0 0 = some { cmdWith .started [(0, 4), (0x10, 3)] with load := some 9 } ∧
    Tbl.look (modelDone.ten 1).models 3 = some { aModel with loading := [(9, aGen)] } ∧
    Tbl.look ({ aModel with loading := [(9, aGen)] } : Model).loading 9 = some aGen ∧ aModel.retired = false ∧
    ∀ p ∈ aModel.gens, p.1 < aModel.next := by decide

theorem witness_ModelLoadsAndRetires_retire :
    Startable (owning aTenant (having (cmdWith .waiting [(0, 5), (0x10, 3)]))) 1 0 0 0x05 1 (cmdWith .waiting [(0, 5), (0x10, 3)]) ∧
    retireCheck 1 (owning aTenant (having (cmdWith .waiting [(0, 5), (0x10, 3)]))) (cmdWith .waiting [(0, 5), (0x10, 3)]) = none := by
  unfold Startable Waits; decide

/-! ### Witnesses: EVALs -/

/-- An EVAL of one frame on session 1 from segment 0. -/
def evalCmd (p : CmdPhase) : Cmd := cmdWith p [(0, 0x10), (0x10, 1), (0x50, 1)]
def asking : State := owning aTenant (having (evalCmd .waiting))

theorem witness_EvalStarts : Startable asking 1 0 0 0x10 (evalPositions 1 asking) (evalCmd .waiting) ∧ evalCheck 1 asking (evalCmd .waiting) = none ∧
    evalNeeds 1 asking (evalCmd .waiting) = false ∧ asking.openSession? 1 ((evalCmd .waiting).handle 0) = some aSession ∧
    asking.currentGen 1 aSession = some (1, aGen) ∧ asking.genOf 1 aSession.model 1 = some aGen := by
  unfold Startable Waits; decide

/-- The position reaches the ceiling exactly; one frame later it would pass it. -/
theorem witness_EvalStarts_ceiling : (0xFFFFFF : Nat) + (evalCmd .waiting).frames ≤ (asking.tnSet 1).frameCeil ∧
    0x1000000 + (evalCmd .waiting).frames > (asking.tnSet 1).frameCeil := by decide

theorem witness_EvalStarts_runs : (evalAdvanced asking 0 1 0 0 1 (evalCmd .waiting) aSession).startFault 1 0 (evalCmd .waiting) aSession aGen = none ∧
    (evalAdvanced asking 0 1 0 0 1 (evalCmd .waiting) aSession).startFault 1 0 (evalCmd .waiting) aSession { aGen with damaged := true } =
      some (St.memoryUncorrectable, 0) := by decide

/-- An EVAL under way, with a round-trip attempt, a receive wait and a send as given. -/
def anEval : Eval := { (evalCmd .started).newEval aSession 1 with keyset := 2 }
def evaluating (v : Eval) : Cmd := { evalCmd .started with startAt := some 0, reserved := 2, eval := some v }
def atWork (v : Eval) : State := owning aTenant (withRing { liveRing [evaluating v] with reserved := 2 })
def anAttempt : Attempt :=
  { point := 0, attempt := 1, ticket := 0, outbound := [], written := true, deadline := some 7, claimed := false, waitPos := none, waitUntil := none }

theorem witness_EvalDeadlines_attempt :
    (atWork { anEval with attempt := some anAttempt }).cmd? 1 0 0 = some (evaluating { anEval with attempt := some anAttempt }) ∧
    anEval.failed = none ∧ anAttempt.deadline = some 7 ∧ 7 ≤ max (atWork anEval).now 7 ∧ anAttempt.claimed = false ∧ anEval.retries < anAttempt.attempt := by
  decide

/-- An attempt that waits for position 3 to be consumed until 7. -/
def waitingAttempt : Attempt := { anAttempt with written := false, deadline := none, waitPos := some 3, waitUntil := some 7 }

theorem witness_EvalDeadlines_interim :
    (atWork { anEval with attempt := some waitingAttempt, lastInterim := some 3 }).cmd? 1 0 0 =
      some (evaluating { anEval with attempt := some waitingAttempt, lastInterim := some 3 }) ∧
    waitingAttempt.written = false ∧ waitingAttempt.waitUntil = some 7 ∧ 7 ≤ max (atWork anEval).now 7 := by decide

def aSend : FabricSend := { edge := 4, admitted := false, until_ := 7, acked := false }

theorem witness_EvalDeadlines_send :
    (∃ x ∈ ({ anEval with sends := [aSend] } : Eval).sends, x.admitted = false ∧ x.acked = false ∧ x.until_ ≤ max (atWork anEval).now 7) ∧
    (∃ x ∈ ({ anEval with sends := [aSend] } : Eval).sends, x.edge = 4 ∧ x.acked = false) :=
  ⟨⟨aSend, by decide⟩, aSend, by decide⟩

theorem witness_EvalDeadlines_receive : ∃ w, ({ anEval with recvWait := some (0, 5) } : Eval).recvWait = some w ∧
    w.2 + ((Tbl.look ((atWork { anEval with recvWait := some (0, 5) }).ten 1).sessions 1).elim 0 (·.deadlineMs)) * msec <
      max (atWork { anEval with recvWait := some (0, 5) }).now 2000000006 := ⟨(0, 5), by decide⟩

/-- Edge 4 of a swarm of two devices: 64 bytes from device 0 to device 1, for session 0x10000005, tenant 1. -/
def anEdge : Edge :=
  { edge := 4, src := 0, dst := 1, ten := 1, cls := 2, sendSeg := 0, recvSeg := 0, model := 3, bytes := 64, srcOffset := 0, dstOffset := 128 }
def aSwarm : SwarmCfg :=
  { swarmId := 9, racks := 1, freezeFw := false, step0Us := 10, step1Us := 10, fwDigest := [], serials := [0, 5], edges := [anEdge], digest := [], deviceId := 1 }
def aMsg : FabricMsg :=
  { id := 6, ten := 1, session := 1, edge := 4, position := 0, src := 0, got := [(0, List.replicate 64 7)], complete := true, held := [] }
def inSwarm (s : State) : State := { s with settings := { s.settings with swarm := some aSwarm } }
def arriving : State := inSwarm { owning aTenant ready with fabric := { Fabric.reset with inbox := [aMsg] } }

theorem witness_FabricMessages_land : (arriving.fabric.inbox.find? fun y => y.id == aMsg.id) = some aMsg ∧ arriving.settings.swarm = some aSwarm ∧
    (aSwarm.edges.find? fun e => e.edge == aMsg.edge) = some anEdge ∧ Tbl.look (arriving.ten aMsg.ten).sessions aMsg.session = some aSession ∧
    aSession.active = true ∧ aMsg.complete = true ∧ arriving.fabric.landed.contains (aMsg.ten, aMsg.session, aMsg.edge, aMsg.position) = false ∧
    arriving.fabric.occupied.contains (aMsg.ten, aMsg.session, aMsg.edge) = false := by decide

theorem witness_FabricMessages_start : (atWork { anEval with recvWait := some (0, 5) }).genOf 1 anEval.model anEval.gen = some aGen ∧
    ∀ i ∈ aGen.gang 0, (atWork { anEval with recvWait := some (0, 5) }).messagesLanded 1 { anEval with recvWait := some (0, 5) } i = true := by decide

theorem witness_CommandsFinish_eval :
    (atWork { anEval with done := true }).cmd? 1 0 0 = some (evaluating { anEval with done := true }) ∧ (evaluating anEval).phase = .started ∧
    (evaluating anEval).opcode = 0x10 ∧ (∀ x ∈ anEval.sends, x.acked = true) ∧ anEval.done = false ∧
    ∃ x ∈ ({ anEval with sends := [aSend] } : Eval).sends, x.acked = false :=
  ⟨by decide, rfl, by decide, by decide, rfl, aSend, by decide⟩

theorem witness_CommandsFinish_done : (having { snapshot .started with runDone := true }).cmd? 1 0 0 = some { snapshot .started with runDone := true } ∧
    (snapshot .started).opcode ∈ [0x11, 0x20, 0x21, 0x30, 0x40] ∧ (snapshot .started).runDone = false := by decide

/-- Session 1's arena: object 8, 2 MiB at DPA 0 and DVA 0. -/
def withArena (s : State) : State :=
  { s with dram := { s.dram with localGib := 88, objs := [(8, { ten := 1, kind := .arena, dva := 0, bytes := 2 ^ 21, extents := [(0, 512)] })] } }
def copying (c : Cmd) : State := withArena (owning aTenant (having { c with comb := some 0 }))
def copyOut (p : CmdPhase) : Cmd := cmdWith p [(0, 0x50), (0x10, 1), (0x40, 64), (0x50, 1)]

set_option maxRecDepth 4000 in
theorem witness_CommandsFinish_copy :
    (copying (copyIn .started)).cmd? 1 0 0 = some { copyIn .started with comb := some 0 } ∧ (copyIn .started).opcode = 0x50 ∧
    ((copying (copyIn .started)).comb 0).svc = .inService ∧ (copyIn .started).toHost = false ∧ (copyOut .started).toHost = true ∧
    hostRead oneEntry 1 ((copyIn .started).iova 0) ((copyIn .started).len 0) = some (1 :: zeros 63) ∧
    (copying (copyOut .started)).readObjAt aSession.arena (copyOut .started).copyOffset ((copyOut .started).len 0) = .ok (zeros 64) ∧
    ((copying (copyOut .started)).hostWrite oneEntry 1 ((copyOut .started).iova 0) (zeros 64)).2 = true := by decide

/-! ### Witnesses: round trips -/

/-- A round trip after segment 0 that resumes there: one limb out, one limb in, no tail. -/
def aPoint : RtEntry :=
  { parkSeg := 0, resumeSeg := 0, fallbackSeg := 0xFFFF, flags := 0, floodBits := 0, outLimbs := 1, inLimbs := 1, outOffset := 0, inOffset := 65536 }
def rtGen : Gen := { aGen with rts := [aPoint] }
def rtTenant : Tenant := { aTenant with models := [(3, { aModel with gens := [(1, rtGen)] })], sessions := [(1, { aSession with tickets := [0] })] }
def rtEval (a : Attempt) : Eval := { anEval with attempt := some a, outLen := 65536, retries := 3 }
def parked (a : Attempt) : State :=
  withArena (owning rtTenant (withRing { liveRing [evaluating (rtEval a)] with reserved := 2 }))

theorem witness_RoundTrips_next : (parked anAttempt).cmd? 1 0 0 = some (evaluating (rtEval anAttempt)) ∧
    (parked anAttempt).genOf 1 (rtEval anAttempt).model (rtEval anAttempt).gen = some rtGen ∧
    Tbl.look ((parked anAttempt).ten 1).sessions (rtEval anAttempt).session = some { aSession with tickets := [0] } ∧
    rtGen.rts[anAttempt.point]? = some aPoint ∧ anAttempt.attempt ≤ (rtEval anAttempt).retries ∧
    aPoint.inside (2 ^ rtGen.modtab.logN) aSession.arenaBytes = true ∧
    64 + 2 * aPoint.outLimbs * 2 ^ rtGen.modtab.logN * 4 ≤ (rtEval anAttempt).outLen ∧ (parked anAttempt).sec.rtCounter < 2 ^ 44 - 1 := by decide
set_option maxRecDepth 100000 in
theorem witness_RoundTrips_next_words :
    ((parked anAttempt).arenaWords 1 aSession.arena aPoint.outOffset (2 * aPoint.outLimbs * 2 ^ rtGen.modtab.logN)).toOption.isSome = true := by decide +kernel

/-- An attempt ready to be written, to pages that the host maps. -/
def freshAttempt : Attempt := { anAttempt with written := false, deadline := none, outbound := zeros 32768 }
def rtHost : HostView := (List.range 10).map fun k => { fn := 1, page := k, bytes := [] }

set_option maxRecDepth 100000 in
theorem witness_RoundTrips_write : freshAttempt.written = false ∧ (rtEval freshAttempt).lastInterim = none ∧ (rtEval freshAttempt).failed = none ∧
    ((parked freshAttempt).ring 1 0).state ≠ .error ∧ ((parked freshAttempt).ring 1 0).fromError = false ∧
    ((parked freshAttempt).ring 1 0).cplBase % 4096 = 0 ∧ (hostPage rtHost 1 ((parked freshAttempt).ring 1 0).cplIova).isSome = true ∧
    (((parked freshAttempt).advance 0).hostWrite rtHost 1 (rtEval freshAttempt).outIova
      (outboundHeader freshAttempt aPoint (evaluating (rtEval freshAttempt)) (rtEval freshAttempt) aSession rtGen.modtab.logN 0 0 ++ freshAttempt.outbound)).2 = true := by
  decide +kernel

/-- A resume of session 1 with ticket 0 and START_ID 5, its reply at IOVA 0; command 1 of the ring, or alone in a ring of its own. -/
def resumeCmd (p : CmdPhase) : Cmd :=
  { Cmd.fetched 1 2 0 (entryWith [(0, 0x11), (0x10, 1), (0x40, 0x40), (0x41, 0x80), (0x58, 5)]) with phase := p }
def replying (a : Attempt) (start : Nat) : State :=
  let s := withArena (owning rtTenant (withRing { liveRing [evaluating (rtEval a), resumeCmd .waiting] with reserved := 2 }))
  { s with sec := { s.sec with startId := some start } }

theorem witness_RoundTrips_resume : Startable (replying anAttempt 5) 1 0 1 0x11 1 (resumeCmd .waiting) ∧
    (replying anAttempt 4).sec.startId ≠ some (fld (resumeCmd .waiting).entry 0x58 8) ∧
    (replying anAttempt 5).sec.startId = some (fld (resumeCmd .waiting).entry 0x58 8) ∧
    fld (resumeCmd .waiting).entry 0x50 8 / 2 ^ 44 = aSession.recIndex % 2 ^ 20 ∧
    ([0] : List Nat).contains (fld (resumeCmd .waiting).entry 0x50 8 % 2 ^ 44) = true ∧ aSession.tickets.contains 0 = false := by
  unfold Startable Waits; decide

/-- The attempt is open until its deadline at 7; from then on it is not. -/
theorem witness_RoundTrips_open :
    (begun (replying anAttempt 5) 6 1 0 1 1).openAttempt 1 1 0 = some (0, evaluating (rtEval anAttempt), rtEval anAttempt, anAttempt) ∧
    (begun (replying anAttempt 5) 7 1 0 1 1).openAttempt 1 1 0 = none := by decide

/-- The reply: its header, then 8,192 words of zero. -/
def replyHost : HostView :=
  { fn := 1, page := 0, bytes := ascii "LRTI" ++ toLE 1 1 ++ toLE 1 12 ++ toLE 1 1 ++ zeros 9 ++ toLE 8 5 } ::
    ((List.range 10).map fun k => { fn := 1, page := k + 1, bytes := [] })

set_option maxRecDepth 100000 in
theorem witness_RoundTrips_reply : (resumeCmd .waiting).len 0 = 64 + 2 * aPoint.inLimbs * 2 ^ rtGen.modtab.logN * 4 ∧
    (hostRead replyHost 1 0 32832).map (replyFault rtGen.modtab aPoint 0 5) = some none := by decide +kernel

/-! ### Witnesses: registers -/

/-- Each case of an access, on the owner's registers: a width of 2, HV_PARAM_CEIL_0 (32 bits), CB_PACE_CTL and its halves (64 bits), and a hole. -/
theorem witness_RegisterAccesses : access 0 0x100 2 = .wrong ∧ regWidth 0 0x80100 = 8 ∧ regWidth 0 0x100 = 4 ∧ access 0 0x100 8 = .wrong ∧
    access 0 0x80104 4 = .reg 0x80100 false true ∧ regWidth 0 0x7FFF0 ≠ 4 ∧ regWidth 0 0x7FFF0 ≠ 8 ∧ regWidth 0 0x7FFF4 ≠ 4 ∧
    access 0 0x7FFF0 8 = .unassigned ∧ regWidth 0 0x7FFEC ≠ 8 ∧ access 0 0x7FFF0 4 = .unassigned ∧ regWidth 0 0x80104 ≠ 4 ∧ regWidth 0 0x80104 ≠ 8 := by decide

/-- The band of CB_PACE_CTL: a width of 10 up to 100 passes, one of 9 or a top of 101 does not. -/
theorem witness_SettingsClamp : ready.power.off = false ∧ ready.power.phase = .ready ∧
    (let v := 90 * 2 ^ 24 + 100 * 2 ^ 32; v < 2 ^ 64 ∧ bits v 32 7 ≤ 100 ∧ bits v 24 7 + 10 ≤ bits v 32 7) ∧
    (let v := 91 * 2 ^ 24 + 100 * 2 ^ 32; v < 2 ^ 64 ∧ bits v 32 7 < bits v 24 7 + 10) ∧
    (let v := 90 * 2 ^ 24 + 101 * 2 ^ 32; v < 2 ^ 64 ∧ 100 < bits v 32 7) := by decide

/-- CAP_W below 1,250 W is raised, above 1,500 W lowered. -/
theorem test_cap_low : ∃ s', exec (.registerWrite 0 0 0xE0028 8 (1249 * 2 ^ 16) []) ready = .next s' ∧ s'.settings.capW = 1250 := ⟨_, rfl, by decide⟩
theorem test_cap_high : ∃ s', exec (.registerWrite 0 0 0xE0028 8 (1501 * 2 ^ 16) []) ready = .next s' ∧ s'.settings.capW = 1500 := ⟨_, rfl, by decide⟩

/-- Tenant 1 holds 60 C0 shelves and 60 C0 cells on comb 0, 40 % of the bandwidth and one vector; tenant 0 is selected. -/
def crowded : State :=
  { ready with settings := { ready.settings with tn := [(1, { TnSet.reset with c0Shelves := [60, 0, 0, 0], c0Cells := [60, 0, 0, 0], bwPct := 40, msixCount := 1 })] } }

theorem witness_TenantSettings_shelves : (∀ c < 4, crowded.tnTotal 0 (fun y => nth0 y.c0Shelves c) (nth0 [36, 0, 0, 0] c) ≤ 96) ∧
    (∃ c < 4, 96 < crowded.tnTotal 0 (fun y => nth0 y.c0Shelves c) (nth0 [37, 0, 0, 0] c)) := ⟨by decide, 0, by decide⟩

theorem witness_TenantSettings_cells : (∀ c < 4, crowded.tnTotal 0 (fun y => nth0 y.c0Cells c) (nth0 [4, 0, 0, 0] c) ≤ 64) ∧
    (∃ c < 4, 64 < crowded.tnTotal 0 (fun y => nth0 y.c0Cells c) (nth0 [5, 0, 0, 0] c)) ∧
    crowded.tnTotal 0 (·.bwPct) 10 ≤ 50 ∧ 50 < crowded.tnTotal 0 (·.bwPct) 11 := ⟨by decide, ⟨0, by decide⟩, by decide⟩

theorem witness_TenantSettings_vectors : crowded.tnSel = 0 ∧ (crowded.tnSet 0).msixCount = 4 ∧ crowded.msixSum 0 7 ≤ 2048 ∧ crowded.ringsHeld 0 = 0 ∧
    2048 < crowded.msixSum 0 8 ∧
    0 < ({ crowded with rings := [(ringKey 0 0, liveRing [])] } : State).ringsHeld 0 := by decide

theorem witness_SidebandAndWallClock : ready.power.phase = .ready ∧ (ready.advance 5).closeEpoch = ready.advance 5 := by decide

/-- The bus reads HV_CAP (0x0000) as a register read does; offset 0x100 reads as zero. -/
theorem test_i3c : ∃ s', exec (.i3cRead 0 0x100 4) ready = .next s' ∧ s'.out = [.i3cData (zeros 4)] := ⟨_, rfl, by decide⟩

/-! ### Witnesses: the gateway -/

/-- A gateway slot of one limb over the worked modulus, its secret zero. -/
def aSlot : GwSlot := { modtab := { aTable with entries := [rootedModulus] }, secret := [], lwe := [], obj := 20, invalid := false }

/-- Tenant 1 with slot 0, one ring whose one command has started, and a seeded sampler in comb 0. -/
def sealing (slots : Tbl GwSlot) (c : Cmd) : State :=
  { roomy (owning { aTenant with gwSlots := slots } (having c)) with combs := [(0, { Comb.fresh with seeded := true })] }

/-- ENCRYPT_PLAINTEXT of one limb, 16 KiB in and 32 KiB out; ENCODE_AND_ENCRYPT of one BFV coefficient modulo 65,537, 4 bytes in. -/
def encryptOne : Cmd := cmdWith .started [(0, 0x20), (0x22, 1), (0x2A, 2), (0x41, 0x40), (0x45, 0x80), (0x50, 1), (0x54, 1)]
def encodeOne : Cmd := cmdWith .started [(0, 0x20), (0x22, 1), (0x2A, 2), (0x40, 4), (0x45, 0x80), (0x52, 1), (0x53, 3), (0x54, 1), (0x58, 1), (0x5A, 1), (0x60, 1)]
def sixPages (b : List Byte) : HostView :=
  { fn := 1, page := 16, bytes := b } :: ((List.range 8).map fun k => { fn := 1, page := k + 17, bytes := [] })

theorem witness_GatewayEncrypts_plain : MayRun (sealing [(0, aSlot)] encryptOne) 1 0 0 0x20 1 [0] true encryptOne ∧
    Tbl.look ((sealing [(0, aSlot)] encryptOne).ten 1).gwSlots encryptOne.gwSlot = some aSlot ∧ aSlot.invalid = false ∧
    encryptOne.limbs ≤ aSlot.modtab.lCount ∧ encryptOne.cipherBytes aSlot.modtab.logN ≤ encryptOne.len 1 ∧
    encryptOne.len 0 = 4 * encryptOne.limbs * 2 ^ aSlot.modtab.logN := by
  unfold MayRun Running; decide
set_option maxRecDepth 100000 in
theorem witness_GatewayEncrypts_input : (hostRead (sixPages []) 1 (encryptOne.iova 0) (encryptOne.len 0)).isSome = true := by decide +kernel

theorem witness_GatewayEncrypts_encode : MayRun (sealing [(0, aSlot)] encodeOne) 1 0 0 0x20 0 [0] true encodeOne ∧
    encodeOne.count ≤ encodeOne.countMax aSlot.modtab.logN ∧ encodeOne.count * formatBytes encodeOne.format ≤ encodeOne.len 0 ∧
    hostRead (sixPages [7]) 1 (encodeOne.iova 0) (encodeOne.count * formatBytes encodeOne.format) = some [7, 0, 0, 0] ∧
    encodeOne.cipherBytes aSlot.modtab.logN ≤ encodeOne.len 1 := by
  unfold MayRun Running; decide
set_option maxRecDepth 100000 in
/-- The coefficient 65,536 encodes modulo 65,537; the coefficient 65,537 does not. -/
theorem witness_GatewayEncrypts_values :
    ((gatewayBegun (sealing [(0, aSlot)] encodeOne) 0 1 0 0).encode encodeOne 12 (toLE 4 65536)).1.toOption.isSome = true ∧
    ((gatewayBegun (sealing [(0, aSlot)] encodeOne) 0 1 0 0).encode encodeOne 12 (toLE 4 65537)).1.toOption.isSome = false := by decide +kernel

/-- DECRYPT_TO_PLAINTEXT and DECRYPT_AND_DECODE (CKKS, one real value) of a ciphertext of one limb, 32 KiB. -/
def decryptPlain : Cmd := cmdWith .started [(0, 0x21), (0x22, 1), (0x2A, 2), (0x41, 0x80), (0x45, 0x40), (0x50, 1), (0x54, 1)]
def decryptDecode : Cmd := cmdWith .started [(0, 0x21), (0x22, 1), (0x2A, 2), (0x41, 0x80), (0x44, 8), (0x53, 1), (0x54, 1), (0x55, 20), (0x60, 1)]

theorem witness_GatewayDecrypts : MayRun (sealing [(0, aSlot)] decryptPlain) 1 0 0 0x21 1 [0] false decryptPlain ∧
    decryptPlain.limbs ≤ aSlot.modtab.lCount ∧ decryptPlain.len 0 = decryptPlain.cipherBytes aSlot.modtab.logN ∧
    4 * decryptPlain.limbs * 2 ^ aSlot.modtab.logN ≤ decryptPlain.len 1 ∧
    aSlot.modtab.lCount < (cmdWith .started [(0, 0x21), (0x50, 1), (0x54, 2)]).limbs := by
  unfold MayRun Running; decide

theorem witness_GatewayDecrypts_decode : MayRun (sealing [(0, aSlot)] decryptDecode) 1 0 0 0x21 0 [0] false decryptDecode ∧
    decryptDecode.limbs ≤ aSlot.modtab.lCount ∧ decryptDecode.len 0 = decryptDecode.cipherBytes aSlot.modtab.logN ∧
    decryptDecode.count ≤ decryptDecode.countMax aSlot.modtab.logN ∧ decryptDecode.count * formatBytes decryptDecode.format ≤ decryptDecode.len 1 ∧
    decryptDecode.scheme = 0 := by
  unfold MayRun Running; decide
set_option maxRecDepth 100000 in
theorem witness_GatewayDecrypts_input : (hostRead (sixPages []) 1 (decryptPlain.iova 0) (decryptPlain.len 0)).isSome = true := by decide +kernel

/-- GENERATE_SECRET_KEY from a table of 32 bytes. -/
def generate : Cmd := cmdWith .started [(0, 0x20), (0x22, 1), (0x40, 32), (0x50, 2)]
def tableBytes : List Byte := ({ aTable with entries := [rootedModulus] } : ModTable).bytes

theorem witness_GatewayKeys_secret : MayRun (sealing [] generate) 1 0 0 0x20 2 [0] true generate ∧
    Tbl.look ((sealing [] generate).ten 1).gwSlots generate.gwSlot = none ∧
    hostRead (sixPages tableBytes) 1 (generate.iova 0) (generate.len 0) = some tableBytes ∧
    parseModTable tableBytes = .ok { aTable with entries := [rootedModulus] } ∧
    ({ aTable with entries := [rootedModulus] } : ModTable).check (sealing [] generate).settings.ceil true = none := by
  unfold MayRun Running; decide

/-- Whatever free size a slot takes, there is room for it. -/
theorem witness_GatewayKeys_room (n : Nat) (h : n < slotBytesMax) :
    ((gatewayBegun (sealing [] generate) 0 1 0 0).takeFree.2.alloc 1 .gateway none n).toOption.isSome = true := by
  have e : (gatewayBegun (sealing [] generate) 0 1 0 0).takeFree.2.dram = (sealing [] generate).dram := by
    have c (s : State) (ten m n : Nat) : (s.charge ten m n).dram = s.dram := by unfold State.charge; simp only []; split <;> rfl
    exact c _ 1 0 _
  have d : ((sealing [] generate).dram.regionOrder none).flatMap (fun r => (sealing [] generate).dram.freeExtents r) =
      (184549376, 16777216) :: [(0, 46137344), (46137344, 46137344), (92274688, 46137344), (138412032, 46137344)] := by decide
  have q : ((gatewayBegun (sealing [] generate) 0 1 0 0).takeFree.2.tnSet 1).dramMib = 64 := by
    have c (s : State) (ten m n : Nat) : (s.charge ten m n).settings = s.settings := by unfold State.charge; simp only []; split <;> rfl
    exact (congrArg (fun x : Settings => ((Tbl.look x.tn 1).getD TnSet.reset).dramMib) (c _ 1 0 _)).trans rfl
  have u : (gatewayBegun (sealing [] generate) 0 1 0 0).takeFree.2.dram.usedBytes 1 = 0 := by rw [e]; rfl
  have hn : ceilDiv n pageBytes ≤ 2 ^ 14 := by unfold slotBytesMax at h; unfold ceilDiv pageBytes; split <;> omega
  have hm : ¬ 64 < ceilDiv (0 + roundUp n pageBytes) (2 ^ 20) := by
    unfold slotBytesMax at h; unfold roundUp ceilDiv pageBytes; split <;> split <;> omega
  unfold State.alloc Dram.findPages
  rw [q, u, if_neg hm, e, d]
  have hb : ceilDiv n pageBytes ≤ 16777216 := by omega
  by_cases h0 : ceilDiv n pageBytes = 0
  · simp [takePages, h0]; rfl
  · simp [takePages, h0, hb]; rfl

/-- GENERATE_KEY_SET with one relinearisation key of one digit, its image of 20,512 bytes. -/
def generateSet : Cmd := cmdWith .started [(0, 0x20), (0x22, 1), (0x2A, 2), (0x44, 0x20), (0x45, 0x50), (0x50, 3), (0x64, 1), (0x66, 1)]

theorem witness_GatewayKeys_set : MayRun (sealing [(0, aSlot)] generateSet) 1 0 0 0x20 3 [0] true generateSet ∧
    dnumOk (generateSet.keyHead aSlot.modtab).dnum (generateSet.keyHead aSlot.modtab).tab.lCount = true ∧
    (generateSet.keyHead aSlot.modtab).boot = false ∧ 4 * (generateSet.keyHead aSlot.modtab).rot ≤ generateSet.len 0 ∧
    (generateSet.keyHead aSlot.modtab).imageBytes = generateSet.len 1 ∧ hostRead (sixPages []) 1 (generateSet.iova 0) 0 = some [] := by
  unfold MayRun Running; decide

theorem witness_GatewayKeys_erase : Running (sealing [(0, aSlot)] (cmdWith .started [(0, 0x21), (0x50, 2)])) 1 0 0 0x21 (cmdWith .started [(0, 0x21), (0x50, 2)]) ∧
    (cmdWith .started [(0, 0x21), (0x50, 2)]).gwOp = 2 ∧
    (sealing [(0, aSlot)] (cmdWith .started [(0, 0x21), (0x50, 2)])).slotHeld 1 (cmdWith .started [(0, 0x21), (0x50, 2)]) = false := by
  unfold Running; decide

/-! ### Witnesses: the public-key engine -/

/-- A started operation with its block; the key slots of tenant 1 as given. -/
def pkRun (b : List Byte) : Cmd := { pkeCmd .started with block := b }
def engine (slots : Tbl KeySlot) (b : List Byte) : State := owning { aTenant with keySlots := slots } (having (pkRun b))
/-- MSG at IOVA 0, KEY at 0x1000, AUX at 0x2000, OUT at 0x3000. -/
def pkPages (msg key aux : List Byte) : HostView :=
  [{ fn := 1, page := 0, bytes := msg }, { fn := 1, page := 1, bytes := key }, { fn := 1, page := 2, bytes := aux }, { fn := 1, page := 3, bytes := [] }]
def pkBlock (ws : List (Nat × Nat)) : List Byte := entryWith ([(0x09, 0x10), (0x19, 0x20), (0x21, 0x30)] ++ ws)

/-- SIGN with P-256 and SHA-256 of an empty message, the key an operand of 32 bytes; SIGN with Ed25519. -/
def signBlock : List Byte := pkBlock [(0, 1), (1, 1), (6, 1), (0x28, 32), (0x34, 64)]
def edBlock : List Byte := pkBlock [(0, 1), (1, 3), (0x28, 32), (0x34, 64)]

theorem witness_PkSignatures_sign : MayPk (engine [] signBlock) 1 0 0 Pk.sign signBlock (pkRun signBlock) ∧ firstFault (pkFaults signBlock) = none ∧
    operand (pkPages [] (toBE 32 1) []) 1 (pkMsgIova signBlock) (pkMsgLen signBlock) = .ok [] ∧
    (engine [] signBlock).privKey (pkPages [] (toBE 32 1) []) 1 signBlock = .ok (toBE 32 1) ∧ pkAlg signBlock ≠ 3 := by
  unfold MayPk Running; decide +kernel

/-- The scalars at the ends of the range: 1 and n - 1 are taken, 0 and n are not. -/
theorem witness_PkSignatures_scalar : p256.scalarOk (beNat (toBE 32 1)) = true ∧ p256.scalarOk (beNat (toBE 32 (p256.n - 1))) = true ∧
    p256.scalarOk (beNat (toBE 32 0)) = false ∧ p256.scalarOk (beNat (toBE 32 p256.n)) = false := by decide

theorem witness_PkSignatures_ed : MayPk (engine [] edBlock) 1 0 0 Pk.sign edBlock (pkRun edBlock) ∧ firstFault (pkFaults edBlock) = none ∧ pkAlg edBlock = 3 := by
  unfold MayPk Running; decide +kernel

/-- VERIFY with P-256 of a digest given as MSG: the private key n - 1, the nonce 1, the digest twice the X coordinate of the base point, so that r = s is that coordinate. -/
def verifyBlock : List Byte := pkBlock [(0, 2), (1, 1), (2, 4), (6, 1), (0x28, 65), (0x2C, 32), (0x30, 64)]
def verifyKey : List Byte := 4#8 :: (toBE 32 p256.gx ++ toBE 32 (p256.p - p256.gy))
def verifyMsg : List Byte := toBE 32 0xd62fa3e5c258848ff179cdcac74881e4ee06fb025bd66741e942728bb131852c
def verifySig : List Byte := toBE 32 p256.gx ++ toBE 32 p256.gx

theorem witness_PkSignatures_verify : MayPk (engine [] verifyBlock) 1 0 0 Pk.verify verifyBlock (pkRun verifyBlock) ∧ firstFault (pkFaults verifyBlock) = none ∧
    operand (pkPages verifyMsg verifyKey verifySig) 1 (pkMsgIova verifyBlock) (pkMsgLen verifyBlock) = .ok verifyMsg ∧
    operand (pkPages verifyMsg verifyKey verifySig) 1 (pkKeyIova verifyBlock) (pkKeyLen verifyBlock) = .ok verifyKey ∧
    operand (pkPages verifyMsg verifyKey verifySig) 1 (pkAuxIova verifyBlock) (pkAuxLen verifyBlock) = .ok verifySig := by
  unfold MayPk Running; decide +kernel
set_option maxRecDepth 100000 in
theorem witness_PkSignatures_holds : verifies verifyBlock verifyKey verifyMsg verifySig = .ok true ∧ verifies verifyBlock verifyKey verifyMsg (zeros 64) = .ok false ∧
    verifies verifyBlock (zeros 65) verifyMsg verifySig = .error (St.pointNotOnCurve, 0) := by decide +kernel

/-- VERIFY with RSA of 2,048 bits and the exponent 2. -/
theorem witness_PkSignatures_exponent :
    verifies (pkBlock [(0, 2), (1, 7), (5, 8), (6, 1), (7, 32)]) (zeros 256 ++ toBE 4 2) [] [] = .error (St.badField, 0x08) := by decide

/-- KEYGEN of a P-256 key into slot 0, IMPORT of one, and ERASE and PUBLIC of slot 0. -/
def keygenBlock : List Byte := pkBlock [(0, 3), (1, 1), (2, 2), (0x34, 65)]
def keygenOut : List Byte := pkBlock [(0, 3), (1, 1), (0x34, 97)]
def importBlock : List Byte := pkBlock [(0, 5), (1, 1), (2, 2), (0x28, 32)]
def publicBlock : List Byte := pkBlock [(0, 7), (0x34, 65)]
def aKey : KeySlot := { curve := 1, priv := toBE 32 1, invalid := false }

theorem witness_PkKeySlots_keygen : MayPk (engine [] keygenBlock) 1 0 0 Pk.keygen keygenBlock (pkRun keygenBlock) ∧ firstFault (pkFaults keygenBlock) = none ∧
    pkToSlot keygenBlock = true ∧ (engine [] keygenBlock).slotTaken 1 keygenBlock = false ∧ (engine [(0, aKey)] keygenBlock).slotTaken 1 keygenBlock = true ∧
    firstFault (pkFaults keygenOut) = none ∧ pkToSlot keygenOut = false := by
  unfold MayPk Running; decide +kernel

theorem witness_PkKeySlots_import : MayPk (engine [] importBlock) 1 0 0 Pk.import_ importBlock (pkRun importBlock) ∧ firstFault (pkFaults importBlock) = none ∧
    (engine [] importBlock).slotTaken 1 importBlock = false ∧
    operand (pkPages [] (toBE 32 p256.n) []) 1 (pkKeyIova importBlock) (pkKeyLen importBlock) = .ok (toBE 32 p256.n) ∧ isP (pkAlg importBlock) = true := by
  unfold MayPk Running; decide +kernel

theorem witness_PkKeySlots_erase : MayPk (engine [(0, aKey)] eraseBlock) 1 0 0 Pk.erase eraseBlock (pkRun eraseBlock) := by
  unfold MayPk Running; decide +kernel

theorem witness_PkKeySlots_public : MayPk (engine [(0, aKey)] publicBlock) 1 0 0 Pk.public_ publicBlock (pkRun publicBlock) ∧
    firstFault (pkFaults publicBlock) = none ∧ Tbl.look ((engine [(0, aKey)] publicBlock).ten 1).keySlots (pkSlot publicBlock) = some aKey ∧
    aKey.invalid = false ∧ pubLen aKey.curve = pkOutLen publicBlock := by
  unfold MayPk Running; decide +kernel

/-- DERIVE with X25519, the key and the peer's u operands of 32 bytes; the peers 9 and 0. -/
def deriveBlock : List Byte := pkBlock [(0, 4), (1, 6), (0x28, 32), (0x30, 32), (0x34, 32)]

theorem witness_PkKeySlots_derive : MayPk (engine [] deriveBlock) 1 0 0 Pk.derive deriveBlock (pkRun deriveBlock) ∧ firstFault (pkFaults deriveBlock) = none ∧
    (engine [] deriveBlock).privKey (pkPages [] (zeros 32) (toLE 32 9)) 1 deriveBlock = .ok (zeros 32) ∧
    operand (pkPages [] (zeros 32) (toLE 32 9)) 1 (pkAuxIova deriveBlock) (pkAuxLen deriveBlock) = .ok (toLE 32 9) := by
  unfold MayPk Running; decide +kernel
set_option maxRecDepth 100000 in
/-- 9 lies on the curve, 2 on its twist; 0 is taken, and gives the all-zero secret. -/
theorem witness_PkKeySlots_peers : x25519Peer (toLE 32 9) = some 9 ∧ x25519Peer (toLE 32 2) = none ∧ x25519Peer (toLE 32 0) = some 0 ∧
    (x25519 (clamp (zeros 32)) 0).all (· == 0#8) = true ∧ (x25519 (clamp (zeros 32)) 9).all (· == 0#8) = false := by decide +kernel
set_option maxRecDepth 100000 in
theorem witness_PkKeySlots_point : p256.decode (zeros 65) = none ∧ p256.decode verifyKey = some (p256.gx, p256.p - p256.gy) ∧
    (p256.mul 1 (some (p256.gx, p256.p - p256.gy))).isSome = true := by decide +kernel

def quoteBlock : List Byte := pkBlock [(0, 0x10), (0x35, 0x10)]
def certBlock : List Byte := pkBlock [(0, 0x12), (0x38, 3)]
def releaseBlock : List Byte := pkBlock [(0, 0x11), (0x38, 7)]

theorem witness_QuotesAndCertificates : MayPk (engine [] quoteBlock) 1 0 0 Pk.quote quoteBlock (pkRun quoteBlock) ∧ firstFault (pkFaults quoteBlock) = none ∧
    MayPk (engine [] certBlock) 1 0 0 Pk.getCert certBlock (pkRun certBlock) ∧
    MayPk (engine [] releaseBlock) 1 0 0 Pk.ephRelease releaseBlock (pkRun releaseBlock) ∧ firstFault (pkFaults releaseBlock) = none := by
  unfold MayPk Running; decide +kernel

/-! ### Witnesses: meters -/

/-- A started snapshot, and a started take of tenant 0, which stands in the owner's ring. -/
def takeCmd : Cmd := cmdWith .started [(0, 0x40), (0x41, 0x10), (0x50, 1)]
def ownerRing (held : List MeterRecord) (c : Cmd) : State :=
  { ready with rings := [(ringKey 0 0, liveRing [c])], meters := { Meters.reset with held := held } }
def aRecord (sigs : Option (List Byte)) : MeterRecord := { body := zeros 192, sigs := sigs }

theorem witness_MeterReads_snapshot : Running (having (snapshot .started)) 1 0 0 0x40 (snapshot .started) ∧ (snapshot .started).meterOp = 0 := by
  unfold Running; decide

/-- A record of 192 bytes and its signatures take 3,597: a buffer of 4,096 holds them, one of 3,596 does not. -/
theorem witness_MeterReads_take : Running (ownerRing [aRecord none] takeCmd) 0 0 0 0x40 takeCmd ∧ takeCmd.meterOp = 1 ∧
    (ownerRing [aRecord none] takeCmd).takePending = false ∧ (aRecord none).size ≤ takeCmd.len 0 ∧
    (cmdWith .started [(0, 0x40), (0x40, 0x0C), (0x41, 0x0E), (0x50, 1)]).len 0 < (aRecord none).size := by
  unfold Running; decide +kernel

/-- Not aligned, the first epoch of 60 s is due at 60 s and not before. -/
theorem witness_EpochsClose_due : (ready.advance 60000000000).epochDue = true ∧ (ready.advance 59999999999).epochDue = false ∧
    ready.meters.held.length < 1024 := by decide +kernel

/-- Aligned, with the wall clock set at 0 and 61 s passed, the boundary at 60 s is later than the last one closed. -/
theorem witness_EpochsClose_aligned :
    (({ ready with waggle := { ready.waggle with wallSet := true } } : State).advance 61000000000).aligned = true ∧
    (({ ready with waggle := { ready.waggle with wallSet := true } } : State).advance 61000000000).boundary = 60000000000 := by decide

theorem witness_EpochsClose_full : 1024 ≤ (ownerRing (List.replicate 1024 (aRecord none)) takeCmd).meters.held.length := by
  show 1024 ≤ (List.replicate 1024 (aRecord none)).length
  rw [List.length_replicate]

theorem witness_EpochsClose_sign : (ownerRing [aRecord (some []), aRecord none] takeCmd).meters.held = [aRecord (some [])] ++ aRecord none :: [] ∧
    (∀ x ∈ [aRecord (some [])], x.sigs.isSome = true) ∧ (aRecord none).sigs = none ∧
    (seededState ready).canServe = true ∧ ({ Security.reset with idReady := true } : Security).idReady = true := by decide +kernel

/-- A tenant whose residency meter stands at its maximum. -/
theorem witness_MillisecondMeters : Tbl.wf (owning { aTenant with meters := [0, 0, 2 ^ 64 - 1, 0, 0, 0] } (withArena ready)).tenants = true ∧
    (∀ p ∈ (owning { aTenant with meters := [0, 0, 2 ^ 64 - 1, 0, 0, 0] } ready).tenants, p.2.meters.length = 6) ∧
    2 ^ 64 - 1 < nth0 ({ aTenant with meters := [0, 0, 2 ^ 64 - 1, 0, 0, 0] } : Tenant).meters 2 + 1 * 2 := by decide +kernel

/-! ### Witnesses: cells, control instructions -/

/-- An instruction: its opcode, and the values of some fields by their lowest bits. -/
def mkIns (op : Nat) (fs : List (Nat × Nat)) : InsWord := BitVec.ofNat 256 (op * 2 ^ 248 + sumL (fs.map fun f => f.2 * 2 ^ f.1))

/-- Run 4: segment 0 of the EVAL of tenant 1, on cell 0. -/
def aRun : SegRun :=
  { id := 4, ten := 1, lring := 0, seq := 0, idx := 0, cls := 2, order := 0, gang := [4], comb := 0, cells := [0], phase := .running, scrubbed := true,
    readyAt := 0, startedAt := 0, ranSince := 0, progress := 0, replays := 0, stops := 0, borrower := false, replay := false, first := true, fail := none,
    streams := [], saved := [], peers := [], charged := 0, keyBytes := 0 }

/-- Cell 0 in that run with a program, and the block around it. -/
def cellOn (prog : List InsWord) : Cell := { Cell.zero with seg := some 4, bank0 := prog, lastTen := some 1 }
def working (c : Cell) : State := withArena { atWork anEval with segs := [aRun], cells := [(0, c)] }

/-- WAIT 0, POST one token to queue 2, JUMP 1, LOOP one instruction twice, HANDOFF, HALT, SETMOD, SETADV, TIMER in its four forms. -/
def controlWords : List InsWord :=
  [mkIns 1 [], mkIns 2 [(216, 2), (215, 1), (208, 1)], mkIns 3 [(192, 1)], mkIns 4 [(208, 1), (192, 2)], mkIns 5 [], mkIns 6 [], mkIns 7 [(208, 3)],
   mkIns 8 [(210, 1), (192, 5)], mkIns 9 [(128, 100)], mkIns 9 [(211, 1)]] ++ [mkIns 9 [(213, 1)], mkIns 9 [(213, 1), (211, 1)]]

theorem witness_ControlInstructions : ∀ p ∈ (controlRows 0 0).zip controlWords, p.1.2.1 (ins p.2) = true ∧
    (working (cellOn [p.2])).cellRun 0 = some aRun ∧ (working (cellOn [p.2])).cell 0 = cellOn [p.2] ∧ (cellOn [p.2]).current = some p.2 ∧
    (working (cellOn [p.2])).mayIssue 0 aRun = true ∧ (cellOn [p.2]).waitsMet (ins p.2) = true ∧ (cellOn [p.2]).engineRoom (engineOf (ins p.2).op) = true ∧
    (postAll (p.1.2.2.1 0 (ins p.2) (stepped (cellOn [p.2]) (ins p.2))) (p.1.2.2.2 (ins p.2) (stepped (cellOn [p.2]) (ins p.2)))).isSome = true := by
  decide +kernel

/-- A post to a queue of 62 tokens passes; to one of 63 it does not. A WAIT for one token of an empty queue is not met. -/
theorem witness_ControlInstructions_overflow : (postAll { cellOn [] with tokens := [(2, 62)] } [(2, 1)]).isSome = true ∧
    postAll { cellOn [] with tokens := [(2, 63)] } [(2, 1)] = none ∧ (cellOn [mkIns 1 [(208, 1)]]).waitsMet (ins (mkIns 1 [(208, 1)])) = false := by
  decide +kernel

/-- WIN opens window 1 over words 64 to 127; WIN closes it, posting to queue 2. -/
def winWord : InsWord := mkIns 0x11 [(211, 1), (174, 64), (156, 64)]
def unwinWord : InsWord := mkIns 0x11 [(211, 1), (210, 1), (216, 2), (215, 1)]

/-- An instruction may issue on cell 0. -/
def Issuable (w : InsWord) : Prop := MayIssue (working (cellOn [w])) 0 aRun (cellOn [w]) w

theorem witness_WindowsOpenAndClose : Issuable winWord ∧ Issuable unwinWord ∧ (ins winWord).op = Op.win ∧ (ins unwinWord).op = Op.win := by
  unfold Issuable MayIssue; decide +kernel

theorem witness_WindowsOpenAndClose_forms : (ins winWord).winClose = false ∧ (ins unwinWord).winClose = true := by decide +kernel

/-- A remote write that window 1 has admitted and that has not landed. -/
def pendingWrite : Flight :=
  { id := 7, engine := 1, raw := 0, eas := [], modIdx := 0, consts := [], reads := [], writes := [(0, 70)], ready := true, alts := [], contest := [],
    remote := true, win := some (1, 0), arrived := false, hostWords := none }
def windowed (w : InsWord) : Cell := { cellOn [w] with windows := [(1, { base := 64, length := 64, kind := 0, rowMask := 255, colMask := 65535, queue := 0 })] }

theorem witness_WindowsOpenAndClose_waits :
    State.admittedTo { working (windowed unwinWord) with cells := [(0, windowed unwinWord), (1, { cellOn [] with flights := [pendingWrite] })] } 0 1 = [7] ∧
    State.admittedTo { working (windowed unwinWord) with cells := [(0, windowed unwinWord)] } 0 1 = [] := by decide +kernel

/-- A timer that runs out at 7: at 6 it goes on, at 7 it posts. -/
theorem witness_TimersEdgesAndWatchdog_timer :
    Tbl.look ((working { cellOn [] with timers := [(0, 7, 2)] }).cell 0).timers 0 = some (7, 2) ∧ max (working (cellOn [])).now 6 < 7 ∧
    7 ≤ max (working (cellOn [])).now 7 ∧ (working { cellOn [] with timers := [(0, 7, 2)] }).cellRun 0 = some aRun ∧ aRun.fail = none ∧
    aRun.phase ≠ .drained ∧ (cellOn []).tokenCount 2 < 63 := by decide +kernel

/-- In a swarm whose step series 0 is 10 µs long, edge 1 comes at 10 µs and not before. -/
theorem witness_TimersEdgesAndWatchdog_edge :
    max (inSwarm (working (cellOn []))).now 9999 < ((inSwarm (working (cellOn []))).waggle.edges 0 + 1) * (inSwarm (working (cellOn []))).stepLen 0 ∧
    ((inSwarm (working (cellOn []))).waggle.edges 0 + 1) * (inSwarm (working (cellOn []))).stepLen 0 ≤ max (inSwarm (working (cellOn []))).now 10000 ∧
    (inSwarm (working (cellOn []))).runningCells.Nodup := by decide +kernel
theorem witness_TimersEdgesAndWatchdog_edge_cells : ∀ c ∈ (inSwarm (working (cellOn []))).runningCells,
    ∃ g, (inSwarm (working (cellOn []))).cellRun c = some g ∧ g.fail = none ∧ g.phase ≠ .drained ∧
      ∀ q, (((inSwarm (working (cellOn []))).cell c).latch 0).queue = some q → ((inSwarm (working (cellOn []))).cell c).tokenCount q < 63 := by
  intro c hc
  have e : c = 0 := by simpa [show (inSwarm (working (cellOn []))).runningCells = [0] by decide +kernel] using hc
  subst e
  refine ⟨aRun, by decide +kernel, rfl, by decide, fun q hq => ?_⟩
  have n : (((inSwarm (working (cellOn []))).cell 0).latch 0).queue = none := by decide +kernel
  rw [n] at hq; cases hq

/-- The period of segment 0 is 100 µs: a run that last made progress at 0 is due at 100 µs and not before; its cell 0 stalls at a WAIT. -/
theorem witness_TimersEdgesAndWatchdog_watchdog :
    (working (cellOn [mkIns 1 [(208, 1)]])).seg? 4 = some aRun ∧ ((working (cellOn [mkIns 1 [(208, 1)]])).advance 100000).watchdogDue aRun = true ∧
    ((working (cellOn [mkIns 1 [(208, 1)]])).advance 99999).watchdogDue aRun = false ∧
    (aRun.cells.filter fun c => ((working (cellOn [mkIns 1 [(208, 1)]])).cell c).stalled).min? = some 0 := by decide +kernel

/-- A WAIT whose token is there takes it and moves on. -/
theorem test_wait : ∃ s', exec (.wait 5 0) (working { cellOn [mkIns 1 [(236, 3), (208, 1)]] with tokens := [(3, 2)] }) = .next s' ∧
    (s'.cell 0).tokens = [(3, 1)] ∧ (s'.cell 0).pc = 1 := ⟨_, rfl, by decide +kernel⟩

/-! ### Witnesses: cells, engine instructions -/

/-- Two prime moduli for rings of 2^12, and a generation and tenant over them. -/
def primeTable : ModTable :=
  { logN := 12, lCount := 2, kCount := 0, entries := [rootedModulus, { q := 0xC0000001, w := 32, a := 30, b := 0, eps := 0, root := 0x67620637 }] }
def primeTenant (x : SegDef) : Tenant := { aTenant with models := [(3, { aModel with gens := [(1, { aGen with modtab := primeTable, segs := [x] })] })] }
def atEngines (c : Cell) : State := owning (primeTenant aSegment) (working c)

theorem witness_primeTable : primeTable.check defaultCeilings true = none ∧ primeWord 0xFFF00001 = true ∧ primeWord 0xC0000001 = true ∧
    primeWord 4279238657 = false := by decide +kernel

/-- Operand field k: an address and a length, stride 1. -/
def opd (k addr len : Nat) : Nat × Nat := (64 * (2 - k), addr * 2 ^ 46 + len * 2 ^ 28 + 2 ^ 12)

/-- Of each arithmetic opcode a small instruction, in the order of arithRows: MACT and MACV of one row with ZERO and KEEPB, transforms and a permutation of 1,024 elements, the others of two elements from words 0 and 2 to word 4. -/
def arithWords : List InsWord :=
  [mkIns 0x20 [(210, 1), (207, 1), opd 0 0 64], mkIns 0x21 [(210, 1), (207, 1), opd 0 0 64], mkIns 0x28 [(209, 10), opd 0 0 1024, opd 2 2048 1024],
   mkIns 0x29 [(209, 10), opd 0 0 1024, opd 2 2048 1024], mkIns 0x30 [opd 0 0 2, opd 1 2 2, opd 2 4 2], mkIns 0x31 [opd 0 0 2, opd 1 2 2, opd 2 4 2],
   mkIns 0x32 [opd 0 0 2, opd 1 2 2, opd 2 4 2]] ++
  [mkIns 0x33 [opd 0 0 2, (64, 5), opd 2 4 2], mkIns 0x34 [opd 0 0 1024, (64, 3), opd 2 2048 1024], mkIns 0x35 [opd 0 0 2, opd 2 4 2],
   mkIns 0x36 [(205, 1), opd 0 0 2, opd 1 2 2, opd 2 4 2], mkIns 0x37 [(198, 2), opd 0 0 2, opd 2 4 2], mkIns 0x38 [opd 0 0 2, opd 2 4 2], mkIns 0x40 [opd 2 4 2]]

theorem witness_ArithmeticIssues : ∀ p ∈ (arithRows 0 0).zip arithWords, insFault 12 [] 1 (ins p.2) = none ∧ (ins p.2).op = p.1.2 ∧
    (atEngines (cellOn [p.2])).cellRun 0 = some aRun ∧ (atEngines (cellOn [p.2])).cell 0 = cellOn [p.2] ∧ (cellOn [p.2]).current = some p.2 ∧
    (atEngines (cellOn [p.2])).mayIssue 0 aRun = true ∧ (cellOn [p.2]).waitsMet (ins p.2) = true ∧ (cellOn [p.2]).engineRoom (engineOf (ins p.2).op) = true ∧
    arithFault ((atEngines (cellOn [p.2])).modWin aRun) aRun (cellOn [p.2]) (ins p.2) = none := by decide +kernel

/-- The last word of the scratchpad is inside, the next is not; index 1 of two moduli is in the window, 2 is not. -/
theorem witness_ArithmeticIssues_faults :
    arithFault ((atEngines (cellOn [])).modWin aRun) aRun (cellOn []) (ins (mkIns 0x30 [opd 0 0 1, opd 1 0 1, opd 2 262143 1])) = none ∧
    arithFault ((atEngines (cellOn [])).modWin aRun) aRun (cellOn []) (ins (mkIns 0x30 [opd 0 0 2, opd 1 0 2, opd 2 262143 2])) = some (St.stencilBounds, 0) ∧
    arithFault ((atEngines (cellOn [])).modWin aRun) aRun (cellOn []) (ins (mkIns 0x30 [(242, 1), opd 0 0 1, opd 1 0 1, opd 2 0 1])) = none ∧
    arithFault ((atEngines (cellOn [])).modWin aRun) aRun (cellOn []) (ins (mkIns 0x30 [(242, 2), opd 0 0 1, opd 1 0 1, opd 2 0 1])) = some (St.modulusForm, 2) := by
  decide +kernel

/-- Instruction 7 of cell 0 under way. -/
def flying (w : InsWord) : Flight :=
  let eas := (cellOn []).eas (ins w)
  { newFlight w eas ((ins w).readSet [0] 0 eas) ((ins w).writeSet [0] 0 eas) false true with id := 7, consts := [5, 0] }
def underWay (w : InsWord) : State := atEngines { cellOn [] with flights := [flying w] }
def Computing (w : InsWord) : Prop := Computes (underWay w) 0 7 (flying w) aRun

theorem witness_ArithmeticCompletes_mac : Computing (mkIns 0x21 [(210, 1), (207, 1), opd 0 0 64]) := by
  unfold Computing Computes UnderWay Live Quiet; decide +kernel
theorem witness_ArithmeticCompletes_trowel : Computing (mkIns 0x30 [opd 0 0 2, opd 1 2 2, opd 2 4 2]) := by
  unfold Computing Computes UnderWay Live Quiet; decide +kernel
theorem witness_ArithmeticCompletes_tresc : Computing (mkIns 0x36 [(205, 1), opd 0 0 2, opd 1 2 2, opd 2 4 2]) := by
  unfold Computing Computes UnderWay Live Quiet; decide +kernel
theorem witness_ArithmeticCompletes_skim : Computing (mkIns 0x38 [opd 0 0 2, opd 2 4 2]) := by
  unfold Computing Computes UnderWay Live Quiet; decide +kernel
theorem witness_ArithmeticCompletes_noise : Computing (mkIns 0x40 [opd 2 4 2]) := by
  unfold Computing Computes UnderWay Live Quiet; decide +kernel

theorem witness_ArithmeticCompletes_engines : (flying (mkIns 0x21 [])).engine = 2 ∧ (flying (mkIns 0x28 [])).engine = 3 ∧ (flying (mkIns 0x30 [])).engine = 4 ∧
    (flying (mkIns 0x38 [])).engine = 5 ∧ (flying (mkIns 0x40 [])).engine = 6 ∧ ((atEngines (cellOn [])).modWin aRun).tab.entry 0 = some rootedModulus ∧
    (Comb.fresh).seeded = false ∧ ([[], [], [], []] : List (List Nat)).length = 4 := by decide +kernel
/-- A transform in place. -/
theorem witness_ArithmeticCompletes_transform : Computing (mkIns 0x28 [(209, 10), opd 0 0 1024, opd 2 0 1024]) := by
  unfold Computing Computes UnderWay Live Quiet; decide +kernel

/-- 5 + 7 and q - 1 + 2 modulo q = 2^32 - 2^20 + 1: TADD writes 12 and 1, and nothing else. -/
def addends : Cell := { cellOn [] with flights := [flying (mkIns 0x30 [opd 0 0 2, opd 1 2 2, opd 2 4 2])], mem := [(0, 5), (1, 0xFFF00000), (2, 7), (3, 2)] }
theorem test_tadd : ∃ s', exec (.instructionComplete 5 0 7 []) (atEngines addends) = .next s' ∧
    (s'.cell 0).mem = [(0, 5), (1, 0xFFF00000), (2, 7), (3, 2), (4, 12), (5, 1)] := ⟨_, rfl, by decide +kernel⟩

/-! ### Witnesses: moves -/

/-- A stencil of two elements: in the own scratchpad from word 8, in the arena from byte 64, in host buffer 0, and of a relinearisation key regenerated. -/
def padStencil : Stencil :=
  { space := 0, flags := 0, ndim := 1, group := 0, bind_ := 0, bindIndex := 0, peerSeg := 0, sizes := [2, 0, 0, 0, 0], strides := [1, 0, 0, 0, 0], base := 8,
    keyKind := 0, keyIndex := 0, galois := 0 }
def arenaStencil : Stencil := { padStencil with space := 3, bind_ := 3, base := 64 }
def hostStencil : Stencil := { padStencil with space := 4, bind_ := 1, base := 0 }
def keyStencil : Stencil := { padStencil with space := 2, bind_ := 4, keyKind := 1, flags := 8, base := 0 }

/-- Segment 0 with those stencils, of one cell or of two. -/
def movingSegment (n : Nat) : SegDef :=
  { aSegment with stencils := [padStencil, arenaStencil, hostStencil, keyStencil], cells := n, cellMap := List.replicate n 0, programs := [[[mkIns 6 []], [mkIns 1 [], mkIns 6 []]]] }
def moving (c : Cell) : State := owning (primeTenant (movingSegment 1)) (working c)

/-- MOVEs: two words direct; part 1 into bank 1, and into the active bank 0; two slices from stencil 1 to stencil 0, and from 2 and 3; three slices. -/
def directWord : InsWord := mkIns 0x10 [opd 0 0 2, opd 1 4 2]
def bankWord : InsWord := mkIns 0x10 [(212, 2), (0, 0x101)]
def activeWord : InsWord := mkIns 0x10 [(212, 2), (0, 1)]
def stencilWord (n src dst : Nat) : InsWord := mkIns 0x10 [(212, 1), (156, n), (92, n), (0, src + 256 * dst)]

def MoveIssuable (w : InsWord) : Prop := MayIssue (moving (cellOn [w])) 0 aRun (cellOn [w]) w

theorem witness_MovesIssue_direct : MoveIssuable directWord ∧ insFault 12 (movingSegment 1).stencils 2 (ins directWord) = none ∧
    (ins directWord).moveForm = 0 ∧ (ins directWord).groupsInside 1 = true ∧ (ins directWord).runsInside ((cellOn []).eas (ins directWord)) = true ∧
    (ins (mkIns 0x10 [opd 0 0 2, opd 1 262143 2])).runsInside ((cellOn []).eas (ins (mkIns 0x10 [opd 0 0 2, opd 1 262143 2]))) = false := by
  unfold MoveIssuable MayIssue; decide +kernel

theorem witness_MovesIssue_bank : MoveIssuable bankWord ∧ MoveIssuable activeWord ∧ (ins bankWord).moveForm = 2 ∧
    insFault 12 (movingSegment 1).stencils 2 (ins bankWord) = none ∧
    bits ((ins bankWord).opRaw 2) 8 1 ≠ (cellOn []).active ∧ bits ((ins activeWord).opRaw 2) 8 1 = (cellOn []).active := by
  unfold MoveIssuable MayIssue; decide +kernel

theorem witness_MovesIssue_stencil : MoveIssuable (stencilWord 2 1 0) ∧ insFault 12 (movingSegment 1).stencils 2 (ins (stencilWord 2 1 0)) = none ∧
    (ins (stencilWord 2 1 0)).moveForm = 1 ∧ (moving (cellOn [])).runDef aRun = some (movingSegment 1) ∧
    (movingSegment 1).stencils[(ins (stencilWord 2 1 0)).srcStencil]? = some arenaStencil ∧
    (movingSegment 1).stencils[(ins (stencilWord 2 1 0)).dstStencil]? = some padStencil ∧
    arenaStencil.slicesInside 0 2 = true ∧ padStencil.slicesInside 0 2 = true ∧ padStencil.slicesInside 0 3 = false := by
  unfold MoveIssuable MayIssue; decide +kernel

theorem witness_MovesIssue_sources : (moving (cellOn [])).regenOk aRun keyStencil 0 2 = false ∧ (moving (cellOn [])).regenOk aRun hostStencil 0 2 = true ∧
    ((moving (cellOn [])).hostWordsOf [] aRun hostStencil 0 2).toOption.isSome = false ∧
    ((moving (cellOn [])).hostWordsOf oneEntry aRun arenaStencil 0 2).toOption.isSome = true := by decide +kernel

/-- A MOVE of cell 0 under way: instruction 7. -/
def moveFlight (w : InsWord) (reads writes : List (Nat × Nat)) : Flight := { newFlight w [0, 0, 0] reads writes false true with id := 7 }
def movingNow (f : Flight) : State := moving { cellOn [] with flights := [f] }

theorem witness_MovesComplete_direct : let f := { moveFlight directWord [(0, 0), (0, 1)] [(0, 4), (0, 5)] with eas := [0, 4, 0] }
    UnderWay (movingNow f) 0 7 f aRun ∧ Live aRun ∧ f.engine = 1 ∧ f.ready = true ∧ f.tokenOnly = false ∧ f.selfRaced = [] ∧ Quiet (movingNow f) 0 f := by
  unfold UnderWay Live Quiet; decide +kernel

theorem witness_MovesComplete_bank : let f := moveFlight bankWord [] []
    UnderWay (movingNow f) 0 7 f aRun ∧ f.engine = 1 ∧ f.tokenOnly = false ∧ f.selfRaced = [] ∧ ((movingNow f).programOf aRun 0).getD 1 [] = [mkIns 1 [], mkIns 6 []] := by
  unfold UnderWay; decide +kernel

/-- From the arena to the scratchpad, and back; from a host buffer that was read at issue, and from one that cannot be read. -/
theorem witness_MovesComplete_stencil : let f := moveFlight (stencilWord 2 1 0) [] [(0, 8), (0, 9)]
    UnderWay (movingNow f) 0 7 f aRun ∧ f.engine = 1 ∧ f.tokenOnly = false ∧ f.selfRaced = [] ∧ (movingNow f).moveDst aRun (ins f.raw) = some padStencil ∧
    (movedWords (movingNow f) 0 aRun f arenaStencil 2).toOption = some [0, 0] ∧ padStencil.inPad = true ∧ arenaStencil.inPad = false ∧ arenaStencil.space ≠ 4 ∧
    (movedWords { movingNow f with dram := { (movingNow f).dram with objs := [] } } 0 aRun f arenaStencil 2).toOption = none := by
  unfold UnderWay; decide +kernel

theorem test_move_direct : ∃ s', exec (.instructionComplete 5 0 7 [])
    (moving { cellOn [] with flights := [{ moveFlight directWord [(0, 0), (0, 1)] [(0, 4), (0, 5)] with eas := [0, 4, 0] }], mem := [(0, 11), (1, 12)] }) = .next s' ∧
    (s'.cell 0).mem = [(0, 11), (1, 12), (4, 11), (5, 12)] := ⟨_, rfl, by decide +kernel⟩

/-- A run on cells 0 and 1, whose cell 0 moves two words into cell 1; cell 1 has window 1 open for its own segment over words 0 to 63, or none. -/
def pairRun : SegRun := { aRun with cells := [0, 1] }
def groupWord : InsWord := mkIns 0x10 [(215, 1), (216, 3), (205, 1), (206, 4), opd 0 0 2, (64, 4 * 2 ^ 46 + 2 * 2 ^ 28 + 2 ^ 12 + 128 + 1)]
def pairing (f : Flight) (ws : Tbl Window) : State :=
  { owning (primeTenant (movingSegment 2)) (working (cellOn [])) with
    segs := [pairRun], cells := [(0, { cellOn [] with flights := [f] }), (1, { cellOn [] with windows := ws, group := 1 })] }
def remoteFlight : Flight := { moveFlight groupWord [(0, 0), (0, 1)] [(1, 4), (1, 5)] with remote := true, eas := [0, 4, 0] }
def segmentWindow : Window := { base := 0, length := 64, kind := 0, rowMask := 255, colMask := 65535, queue := 9 }

theorem witness_RemoteTraffic_read : UnderWay (pairing { remoteFlight with ready := false } []) 0 7 { remoteFlight with ready := false } pairRun ∧
    ({ remoteFlight with ready := false } : Flight).ready = false := by
  unfold UnderWay; decide +kernel

theorem witness_RemoteTraffic_write : UnderWay (pairing remoteFlight [(1, segmentWindow)]) 0 7 remoteFlight pairRun ∧ remoteFlight.ready = true ∧
    remoteFlight.remote = true ∧ remoteFlight.arrived = false ∧ remoteFlight.writes ≠ [] ∧ Live pairRun ∧
    (pairing remoteFlight [(1, segmentWindow)]).windowFor pairRun 0 1 4 5 = some (1, segmentWindow) ∧ (pairing remoteFlight []).windowFor pairRun 0 1 4 5 = none := by
  unfold UnderWay Live; decide +kernel

/-- A window of words 0 to 5 admits words 4 and 5, one of words 0 to 4 does not. -/
theorem witness_RemoteTraffic_edge : (pairing remoteFlight [(1, { segmentWindow with length := 6 })]).windowFor pairRun 0 1 4 5 ≠ none ∧
    (pairing remoteFlight [(1, { segmentWindow with length := 5 })]).windowFor pairRun 0 1 4 5 = none := by decide +kernel

/-- A MOVE of no words to cell 1, posting to queue 3 there and to queue 4 at home. -/
def tokenFlight : Flight := moveFlight (mkIns 0x10 [(215, 1), (216, 3), (205, 1), (206, 4), (64, 128 + 1)]) [] []

theorem witness_RemoteTraffic_token : UnderWay (pairing tokenFlight []) 0 7 tokenFlight pairRun ∧ tokenFlight.tokenOnly = true ∧ tokenFlight.writes = [] ∧
    (ins tokenFlight.raw).moveForm = 0 ∧ holderOf pairRun.cells 0 ((ins tokenFlight.raw).opnd 1) = 1 ∧ (pairing tokenFlight []).cellRun 1 = some pairRun ∧
    ((pairing tokenFlight []).cell 1).tokenCount 3 + 2 ≤ 63 ∧ ((pairing tokenFlight []).cell 0).tokenCount (ins tokenFlight.raw).srcQ + 2 ≤ 63 := by
  unfold UnderWay; decide +kernel

/-- A MOVE of no slices to a stencil of peer segment 0, which has no window open. -/
def peerStencil : Stencil := { padStencil with space := 1, peerSeg := 1 }
def peerFlight : Flight := moveFlight (stencilWord 0 1 0) [] []
def toPeer : State :=
  { owning (primeTenant { movingSegment 2 with stencils := [peerStencil, arenaStencil] }) (working (cellOn [])) with
    segs := [pairRun], cells := [(0, { cellOn [] with flights := [peerFlight] }), (1, cellOn [])] }

theorem witness_RemoteTraffic_peer : UnderWay toPeer 0 7 peerFlight pairRun ∧ peerFlight.tokenOnly = true ∧ (ins peerFlight.raw).moveForm ≠ 0 ∧
    ((toPeer.advance 0).retireFlight 0 peerFlight).moveDst pairRun (ins peerFlight.raw) = some peerStencil ∧ peerStencil.space = 1 ∧ peerStencil.peerSeg ≠ 0 ∧
    ((toPeer.advance 0).retireFlight 0 peerFlight).windowFor pairRun 0
      (((toPeer.advance 0).retireFlight 0 peerFlight).stencilCell pairRun 0 peerStencil) peerStencil.base peerStencil.base = none := by
  unfold UnderWay; decide +kernel

/-! ### Witnesses: the dispatcher -/

/-- Run 4 ready for cell 0, placed there, running there and yielded from there, as the gang of segment 0. -/
def inPhase (p : SegPhase) : SegRun := { aRun with gang := [0], phase := p }
def readyRun : SegRun := { inPhase .ready with cells := [], scrubbed := false }
def placing (g : SegRun) (c : Cell) : State := { working c with segs := [g] }

theorem witness_SegmentsPlaced : MayPlace ((placing readyRun Cell.zero).advance 5) 0 [0] readyRun ∧ (placing readyRun Cell.zero).seg? 4 = some readyRun := by
  unfold MayPlace; decide +kernel

/-- Not on two cells, not on a cell in use. -/
theorem witness_SegmentsPlaced_not : shapeOk 0 ((placing readyRun Cell.zero).runCells readyRun) [0, 1] = false ∧
    (placing readyRun (cellOn [])).avail readyRun 0 1 0 = false ∧ (placing readyRun (cellOn [])).avail readyRun 0 1 1 = true := by decide +kernel

theorem witness_SegmentsPlaced_free : ((placing readyRun Cell.zero).segs.all fun b => !(b.borrower && b.cells.any [0].contains)) = true := by decide +kernel

theorem witness_SegmentsPlaced_starvation : readyRun ∈ (placing readyRun Cell.zero).segs ∧ readyRun.waits = true ∧ readyRun.cls = 2 ∧
    (placing readyRun Cell.zero).targetComb readyRun = some 0 ∧ readyRun.readyAt + 1000000 ≤ max (placing readyRun Cell.zero).now 1000000 ∧
    max (placing readyRun Cell.zero).now 999999 < readyRun.readyAt + 1000000 := by decide +kernel

/-- Cell 0 was tenant 2's; a reservation of tenant 1 holds cells 0 and 1, cell 1 clean. -/
theorem witness_SegmentsPlaced_scrub : (placing { inPhase .placed with scrubbed := false } { cellOn [] with lastTen := some 2 }).seg? 4 =
      some { inPhase .placed with scrubbed := false } ∧ (inPhase .placed).cells.Nodup ∧ ({ cellOn [] with lastTen := some 2 } : Cell).lastTen ≠ some (inPhase .placed).ten := by
  decide +kernel

def reserving : State := (placing readyRun Cell.zero).updComb 0 fun k => { k with reserved := [(0, 1, false), (1, 1, true)] }

theorem witness_SegmentsPlaced_reservation : ((reserving.comb 0).reserved.map (·.1)).Nodup ∧ (0, 1, false) ∈ (reserving.comb 0).reserved ∧
    (1, 1, false) ∉ (reserving.comb 0).reserved ∧ (reserving.cell 0).seg = none := by decide +kernel

theorem test_dispatch : ∃ s', exec (.dispatch 5 0 4 [0]) (placing readyRun Cell.zero) = .next s' ∧ (s'.seg? 4).map (·.phase) = some .placed :=
  ⟨_, rfl, by decide +kernel⟩

theorem test_scrub : ∃ s', exec (.cellScrubComplete 5 (.group 4))
    (placing { inPhase .placed with scrubbed := false } { cellOn [] with lastTen := some 2, mem := [(3, 9)] }) = .next s' ∧ (s'.cell 0).mem = [] :=
  ⟨_, rfl, by decide +kernel⟩

/-! ### Witnesses: segments -/

theorem witness_SegmentsStartAndYield_starts : MayStart ((placing (inPhase .placed) (cellOn [])).advance 5) (inPhase .placed) aSegment ∧
    (inPhase .placed).saved = [] ∧ (placing (inPhase .placed) (cellOn [])).seg? 4 = some (inPhase .placed) := by
  unfold MayStart; decide +kernel

/-- How a segment begins, with a multicast or without. -/
def aboutTo (x : SegDef) : State :=
  (({ owning { aTenant with models := [(3, { aModel with gens := [(1, { aGen with segs := [x] })] })] } (placing (inPhase .placed) (cellOn [])) with now := 5 }).startCells (inPhase .placed) x).beginRun (inPhase .placed) x

theorem witness_SegmentsStartAndYield_runs : (aboutTo aSegment).createFault (begunRun (inPhase .placed) aSegment ((placing (inPhase .placed) (cellOn [])).peersOf (inPhase .placed) aSegment) 5) = none ∧
    (aSegment.mcasts.any ((aboutTo aSegment).mcastBad (begunRun (inPhase .placed) aSegment ((placing (inPhase .placed) (cellOn [])).peersOf (inPhase .placed) aSegment) 5))) = false := by
  decide +kernel

theorem witness_SegmentsStartAndYield_resumes : MayStart ((placing { inPhase .placed with saved := [cellOn []] } (cellOn [])).advance 5) { inPhase .placed with saved := [cellOn []] } aSegment ∧
    ({ inPhase .placed with saved := [cellOn []] } : SegRun).saved.length = (inPhase .placed).cells.length := by
  unfold MayStart; decide +kernel

/-- A class-2 run that has run 200 µs yields to a class-0 run that waits for the same cells. -/
def rivalRun : SegRun := { readyRun with id := 5, cls := 0 }
def contested : State := { placing (inPhase .running) (cellOn [mkIns 5 []]) with segs := [inPhase .running, rivalRun] }

/-- Segment 1 wants 128 cells: a whole comb. -/
def wantingComb : State :=
  { owning { aTenant with models := [(3, { aModel with gens := [(1, { aGen with segs := [aSegment, { aSegment with cells := 128 }] })] })] }
      (placing (inPhase .running) (cellOn [mkIns 5 []])) with segs := [inPhase .running, { rivalRun with idx := 1, gang := [1] }] }

theorem witness_SegmentsStartAndYield_yields : wantingComb.seg? 4 = some (inPhase .running) ∧ (inPhase .running).cls ≠ 0 ∧
    (inPhase .running).ranSince + 200000 ≤ max wantingComb.now 200000 ∧ max wantingComb.now 199999 < (inPhase .running).ranSince + 200000 ∧
    wantingComb.wantsYield (inPhase .running) = true ∧ contested.wantsYield (inPhase .running) = false ∧ wantingComb.quiet (inPhase .running) = true := by
  decide +kernel

/-- Two members of one multicast group on one comb, and an arena stencil off its 64-byte line, fail the segment at its start. -/
def aStream : StreamDef :=
  { src := 0, flags := 0, depth := 2, ringTiles := 4, tileElems := 2, ringBase := 16, freeQ := 5, aOffset := 0, run := 1, dest := [0], mcastId := 0, chainLen := 1 }
def twinSegment : SegDef := { movingSegment 1 with streams := [{ aStream with mcastId := 1 }, { aStream with mcastId := 1 }] }
def offSegment : SegDef := { movingSegment 1 with stencils := [{ arenaStencil with base := 4 }] }

theorem witness_SegmentsStartAndYield_multicast :
    twinSegment.mcasts.any ((aboutTo twinSegment).mcastBad (begunRun (inPhase .placed) twinSegment [] 5)) = true := by decide +kernel
theorem witness_SegmentsStartAndYield_creation :
    (aboutTo offSegment).createFault (begunRun (inPhase .placed) offSegment [] 5) = some (St.stencilMisaligned, 0) ∧
    offSegment.mcasts.any ((aboutTo offSegment).mcastBad (begunRun (inPhase .placed) offSegment [] 5)) = false := by decide +kernel

theorem test_segment_start : ∃ s', exec (.segmentStart 5 4) (placing (inPhase .placed) (cellOn [])) = .next s' ∧ (s'.seg? 4).map (·.phase) = some .running :=
  ⟨_, rfl, by decide +kernel⟩
theorem test_segment_yield : ∃ s', exec (.segmentYield 200000 4) wantingComb = .next s' ∧ (s'.seg? 4).map (·.phase) = some .yielded := ⟨_, rfl, by decide +kernel⟩

/-- Cell 0 has halted; the chain of the EVAL goes on at a fallback segment, or has none. -/
def halting (e : RtEntry) : State :=
  { owning { rtTenant with models := [(3, { aModel with gens := [(1, { rtGen with rts := [e] })] })] } (placing (inPhase .running) { cellOn [] with halted := true }) with
    now := 5 }

theorem witness_SegmentsEnd : (halting aPoint).seg? 4 = some (inPhase .running) ∧ ((halting aPoint).advance 5).mayEnd (inPhase .running) = true ∧
    ((placing (inPhase .running) (cellOn [])).advance 5).mayEnd (inPhase .running) = false ∧ (halting aPoint).settings.swarm = none ∧
    (((halting aPoint).segs.filter fun x => x.id != 4).any fun x => x.ofCmd 1 0 0) = false ∧ (inPhase .running).cells.Nodup := by decide +kernel

theorem witness_SegmentsEnd_others : ((wantingComb.segs.filter fun x => x.id != 4).any fun x => x.ofCmd 1 0 0) = true ∧
    ({ wantingComb with cells := [(0, { cellOn [] with halted := true })] } : State).mayEnd (inPhase .running) = true := by decide +kernel

theorem witness_SegmentsEnd_chain : (halting aPoint).cmd? 1 0 0 = some (evaluating anEval) ∧ anEval.failed = none ∧ anEval.rtEnable = false ∧
    (halting aPoint).genOf 1 anEval.model anEval.gen = some rtGen ∧ rtGen.pointOf (inPhase .running).gang = some (0, aPoint) ∧ aPoint.fallbackSeg = 0xFFFF ∧
    ({ rtGen with rts := [{ aPoint with parkSeg := 1 }] } : Gen).pointOf (inPhase .running).gang = none := by decide +kernel

theorem witness_SegmentsEnd_fallback : (halting { aPoint with fallbackSeg := 0 }).genOf 1 anEval.model anEval.gen = some { rtGen with rts := [{ aPoint with fallbackSeg := 0 }] } ∧
    ({ rtGen with rts := [{ aPoint with fallbackSeg := 0 }] } : Gen).pointOf (inPhase .running).gang = some (0, { aPoint with fallbackSeg := 0 }) ∧
    (∀ i ∈ ({ rtGen with rts := [{ aPoint with fallbackSeg := 0 }] } : Gen).gang 0, (halting { aPoint with fallbackSeg := 0 }).messagesLanded 1 anEval i = true) := by
  decide +kernel

theorem test_segment_end : ∃ s', exec (.segmentEnd 5 4) (halting aPoint) = .next s' ∧ (s'.cell 0).seg = none ∧ (s'.cmd? 1 0 0).bind (·.eval) ≠ none :=
  ⟨_, rfl, by decide +kernel⟩

/-! ### Witnesses: streams -/

/-- Four arena words in two tiles, into a ring of four slots from word 16; window 1 admits foragers to words 16 to 23, two slots are free. -/
def feedSegment (d : StreamDef) : SegDef :=
  { movingSegment 2 with stencils := [padStencil, { arenaStencil with sizes := [4, 0, 0, 0, 0] }], streams := [{ d with src := 1 }] }
def feedRun (r : StreamRun) : SegRun := { pairRun with gang := [0], streams := [(0, r)] }
def feedCell : Cell := { cellOn [] with tokens := [(5, 2)], windows := [(1, { base := 16, length := 8, kind := 2, rowMask := 255, colMask := 65535, queue := 6 })] }
def feeding (d : StreamDef) (r : StreamRun) : State :=
  { owning (primeTenant (feedSegment d)) (working feedCell) with segs := [feedRun r], cells := [(0, feedCell), (1, { feedCell with group := 1 })] }
def freshStream : StreamRun := { delivered := [], hopped := [], finals := [], granules := 0, ended := false }
def relayStream : StreamDef := { aStream with flags := 8, chainLen := 2, src := 1 }
def castStream : StreamDef := { aStream with mcastId := 1, src := 1 }
def fedSource : Stencil := { arenaStencil with sizes := [4, 0, 0, 0, 0] }
def Feeding (d : StreamDef) (r : StreamRun) : Prop := Streaming (feeding d r) 4 0 (feedRun r) { d with src := 1 } fedSource r

theorem witness_StreamsDeliver : Feeding aStream freshStream ∧ Feeding relayStream { freshStream with delivered := [(0, 1)] } ∧ Feeding castStream freshStream ∧
    Feeding aStream { freshStream with delivered := [(0, 2)] } ∧ aStream.isLane fedSource 0 = true ∧ aStream.tilesOf fedSource 0 = 2 ∧
    relayStream.relay = true ∧ relayStream.chainLen = 2 ∧ relayStream.isLane fedSource 0 = true := by
  unfold Feeding Streaming; decide +kernel

/-- A tile lands in cell 0 at words 16 and 17; its hop would land in cell 1; a full ring stands still. -/
theorem witness_StreamsDeliver_lands : let s := feeding aStream freshStream
    (s.cell 0).tokenCount 5 = 2 ∧ ((s.advance 5).tileData [] (feedRun freshStream) { aStream with src := 1 } fedSource 0).toOption = some ([0, 0], []) ∧
    s.cellRun 0 = some (feedRun freshStream) ∧ extentOf ([16, 17].map fun w => (0, w)) = (16, 17) ∧
    (s.admits 0 (feedRun freshStream) 1 0 16 17 none).map (·.2.queue) = some 6 ∧ (s.cell 0).tokenCount 6 + 1 ≤ 63 ∧
    ((s.advance 5).updCell 0 fun c => c.takeTokens 5 1).unfenced (feedRun freshStream) none [] [(0, 16), (0, 17)] = none := by decide +kernel

theorem witness_StreamsDeliver_hop : (relayStream.chain 0).getD 1 0 = 1 ∧ ((feeding relayStream { freshStream with delivered := [(0, 1)] }).cell 1).tokenCount 5 ≠ 0 ∧
    (feeding relayStream freshStream).cellRun 1 = some (feedRun freshStream) ∧
    ((feeding relayStream freshStream).admits 1 (feedRun freshStream) 1 0 16 17 none).isSome = true := by decide +kernel

/-- Words 16 to 23 are admitted, word 24 is not. -/
theorem witness_StreamsDeliver_violates : ((feeding aStream freshStream).admits 0 (feedRun freshStream) 1 0 16 23 none).isSome = true ∧
    (feeding aStream freshStream).admits 0 (feedRun freshStream) 1 0 16 24 none = none := by decide +kernel

theorem witness_StreamsDeliver_granule : let s := feeding castStream freshStream
    castStream.granulesTo fedSource (castStream.tiles fedSource - 1) = 1 ∧ s.fetchingComb (feedRun freshStream) fedSource (s.members (feedRun freshStream) 1) = 0 ∧
    ((s.members (feedRun freshStream) 1).all fun m => s.canAccept m 0) = true ∧
    ((s.advance 5).tileData [] (feedRun freshStream) castStream fedSource (castStream.granuleTile fedSource 0)).toOption.isSome = true ∧
    (s.members (feedRun freshStream) 1).length = 1 := by decide +kernel

theorem test_forager : ∃ s', exec (.foragerTileDeliver 5 4 0 0 []) (feeding aStream freshStream) = .next s' ∧ (s'.cell 0).tokens = [(5, 1), (6, 1)] :=
  ⟨_, rfl, by decide +kernel⟩
theorem test_relay : ∃ s', exec (.relayHop 5 4 0 0 1 []) (feeding relayStream { freshStream with delivered := [(0, 1)] }) = .next s' ∧
    (s'.cell 1).tokens = [(5, 1), (6, 1)] := ⟨_, rfl, by decide +kernel⟩

/-! ### Witnesses: pace and temperatures -/

/-- Comb 0 as f makes it. -/
def combed (f : Comb → Comb) : State := ready.updComb 0 f
def paceAfter (s : State) (occ : List Nat) (watts : Nat) : Option Nat :=
  match exec (.paceInterval 100 [{ occupancy := occ, stageRate := 0 }] watts) s with
  | .next s' => some (s'.comb 0).vcode
  | _ => none

theorem witness_PaceAndThermal_pace : ready.power.off = false ∧ (ready.comb 0).rest = false ∧ ready.settings.capW = 1500 ∧ (ready.pace 0).paced = true ∧
    (ready.comb 0).vcode = 40 ∧ ((combed fun k => { k with c0Floor := true, vcode := 39 }).comb 0).vcode = 39 := by decide +kernel

/-- The band is 25 to 75: 76 raises, 75 and 25 hold, 24 lowers to VFIX's floor or below it down to VMIN. -/
theorem test_pace_band : paceAfter ready [76, 10] 0 = some 41 ∧ paceAfter ready [75] 0 = some 40 ∧ paceAfter ready [25] 0 = some 40 ∧ paceAfter ready [24] 0 = some 39 := by
  decide +kernel
/-- 1,500 W is the cap: one more lowers the code. The class-0 floor ramps from 39 to 40. -/
theorem test_pace_cap : paceAfter ready [25] 1500 = some 40 ∧ paceAfter ready [25] 1501 = some 39 ∧
    paceAfter (combed fun k => { k with c0Floor := true, vcode := 39 }) [76] 0 = some 40 := by decide +kernel

/-- Class-0 work ended at 0: the floor holds for 1,000 µs. -/
theorem witness_PaceAndThermal_hold : let s := combed fun k => { k with c0Floor := true }
    (s.comb 0).c0Floor = true ∧ s.c0Runs 0 = false ∧ (s.comb 0).c0Last + (s.pace 0).c0Hold * 1000 ≤ max s.now 1000000 ∧
    max s.now 999999 < (s.comb 0).c0Last + (s.pace 0).c0Hold * 1000 := by decide +kernel

def temps (c0 rest : Nat) : Junctions := { c0 := c0, c1 := rest, c2 := rest, c3 := rest, hive := rest, e0 := rest, e1 := rest }

theorem witness_PaceAndThermal_sample : ((working (cellOn [])).segs.map (·.id)).Nodup ∧ nth0 (junctions (temps 110 20)) 0 = 110 ∧
    nth0 (junctions (temps 109 20)) 0 < 110 ∧ ((working (cellOn [])).comb 0).svc = .inService ∧ aRun.cells ≠ [] ∧
    ((junctions (temps 100 20)).any fun x => decide (100 < x)) = false ∧ ((junctions (temps 101 20)).any fun x => decide (100 < x)) = true := by decide +kernel

/-- At 110 °C the comb leaves service, at 109 °C an emergency begins and it goes on. -/
theorem test_critical : (match exec (.thermalSample 5 (temps 110 20)) (working (cellOn [])) with | .next s' => some (s'.comb 0).svc | _ => none) = some .thermalRest ∧
    (match exec (.thermalSample 5 (temps 109 20)) (working (cellOn [])) with | .next s' => some ((s'.comb 0).svc, s'.power.emergency) | _ => none) = some (.inService, true) := by
  decide +kernel

/-- Every die has been at 95 °C or below since 5. -/
def coolNow : State := { ready with power := { ready.power with emergency := true, coolSince := List.replicate 7 (some 5) } }

theorem witness_PaceAndThermal_end : coolNow.power.emergency = true ∧ (∀ d ∈ List.range 7, (coolNow.advance 10000005).cooled d = true) ∧
    (coolNow.advance 10000004).cooled 0 = false := by decide +kernel

theorem witness_PaceAndThermal_recover : ((coolNow.updComb 0 fun k => { k with svc := .thermalRest }).comb 0).svc = .thermalRest ∧
    ((coolNow.updComb 0 fun k => { k with svc := .thermalRest }).advance 10000005).cooled 0 = true := by decide +kernel

/-- An idle comb rests after 500 µs. -/
theorem witness_PaceAndThermal_rest : ready.settings.restEn = true ∧ ready.power.phase = .ready ∧ (ready.comb 0).svc = .inService ∧ (ready.comb 0).rest = false ∧
    ready.reservesC0 0 = false ∧ ready.copiesOn 0 = false ∧ ready.segs = [] ∧ (ready.comb 0).idleSince + ready.settings.restIdle * 1000 ≤ max ready.now 500000 ∧
    max ready.now 499999 < (ready.comb 0).idleSince + ready.settings.restIdle * 1000 := by decide +kernel

theorem test_trip : (match exec (.thermalTrip 5 4) ready with | .next s' => some s'.power.off | _ => none) = some true ∧
    (match exec (.thermalTrip 5 3) ready with | .next s' => some s'.power.off | _ => none) = some false := by decide +kernel

/-! ### Witnesses: comb faults -/

theorem witness_CombFaultsStop : RunsNamed (placing (inPhase .running) (cellOn [])) ∧ ((placing (inPhase .running) (cellOn [])).comb 0).svc.live = true ∧
    (inPhase .running).cells ≠ [] := by unfold RunsNamed; decide +kernel
theorem witness_CombFaultsStop_dead : ((combed fun k => { k with svc := .isolated }).comb 0).svc.live = false ∧ (Comb.fresh).svc.live = true := by decide +kernel

/-- A drained run of a segment that may be replayed, and of one that may not. -/
def draining (idem : Bool) : State :=
  let x : SegDef := { aSegment with idempotent := idem }
  (owning { aTenant with models := [(3, { aModel with gens := [(1, { aGen with segs := [x] })] })] } (placing (inPhase .drained) (cellOn []))).updComb 0
    fun k => { k with svc := .draining }

theorem witness_CombFaultsStop_drained : ((draining true).comb 0).svc = .draining ∧
    (draining true).segs.filter (fun g => g.comb == 0 && g.phase == .drained) = [inPhase .drained] ∧ (draining true).seg? (inPhase .drained).id = some (inPhase .drained) ∧
    (inPhase .drained).fail = none ∧ (draining true).replayable (inPhase .drained) = true ∧ (draining false).replayable (inPhase .drained) = false ∧
    (evalOf (draining false) 1 0 0).isSome = true := by decide +kernel

/-- Two replays are allowed, a third is not. -/
theorem witness_CombFaultsStop_limit :
    ({ draining true with segs := [{ inPhase .drained with replays := 1 }] } : State).replayable (inPhase .drained) = true ∧
    ({ draining true with segs := [{ inPhase .drained with replays := 2 }] } : State).replayable (inPhase .drained) = false := by decide +kernel

theorem witness_CombFaultsStop_carried : NoCarried (draining true) := by
  have h : ∀ c ∈ ((draining true).rings.flatMap fun r => r.2.cmds), c.phase = .started → c.opcode ≠ 0x50 ∧ c.opcode ≠ 0x04 := by decide +kernel
  intro r hr c hc
  exact h c (List.mem_flatMap.2 ⟨r, hr, hc⟩)

theorem test_comb_fault : ∃ s', exec (.combFault 5 0 2 7) (placing (inPhase .running) (cellOn [])) = .next s' ∧ (s'.comb 0).svc = .draining :=
  ⟨_, rfl, by decide +kernel⟩
theorem test_comb_drained : ∃ s', exec (.combDrainComplete 5 0) (draining true) = .next s' ∧ s'.segs.map (·.replays) = [1] := ⟨_, rfl, by decide +kernel⟩

/-! ### Witnesses: lanes -/

/-- Bundle 0, direction 0, as f makes it. -/
def laned (f : Direction → Direction) : State := ready.updDir 0 0 f

theorem witness_LanesAndCombReset : (ready.dir 0 0).state = .full ∧ ((laned fun d => { d with recent := List.replicate 257 0 }).dir 0 0).recent.length = 257 ∧
    ((laned fun d => { d with retrains := 4 }).dir 0 0).retrains = 4 ∧ ((laned fun d => { d with state := .retraining }).dir 0 0).state = .retraining := by decide +kernel

theorem witness_LanesAndCombReset_width : ({ Direction.fresh with testFail := 0x3 } : Direction).unusable = 2 ∧ ({ Direction.fresh with testFail := 0x7 } : Direction).unusable = 3 ∧
    ({ Direction.fresh with testFail := 0x3FF } : Direction).unusable = 10 ∧ ({ Direction.fresh with testFail := 0x7FF } : Direction).unusable = 11 := by decide +kernel

theorem witness_LanesAndCombReset_other : OtherWay (laned fun d => { d with state := .failed }) 0 0 := ⟨1, by decide, by decide, by decide⟩

/-- The other fifteen bundles of comb 0's pair have failed in this direction. -/
def lastWay : State :=
  { ready with lanes := { ready.lanes with dirs := (List.range 16).map fun i => (2 * i, { Direction.fresh with state := if i = 0 then .retraining else .failed }) } }
theorem witness_LanesAndCombReset_last : (lastWay.dir 0 0).state = .retraining ∧ (lastWay.comb 0).svc.live = true ∧ lastWay.segs = [] ∧
    ((List.range 16).all fun i => i == 0 || (lastWay.dir i 0).state == .failed) = true ∧ pairOf 0 = (0, 16) := by decide +kernel

def resetting : State := combed fun k => { k with svc := .resetting, reserved := [(3, 1, false)] }
theorem witness_LanesAndCombReset_reset : (resetting.comb 0).svc = .resetting ∧ resetting.segs = [] ∧ ((resetting.comb 0).reserved.map (·.1)).Nodup ∧
    (∀ r ∈ (resetting.comb 0).reserved, combOf r.1 = 0) := by decide +kernel

theorem test_retrain : ∃ s', exec (.retrainTestDone 5 0 0 0x7) (laned fun d => { d with state := .retraining }) = .next s' ∧ (s'.dir 0 0).state = .half ∧ s'.lanes.degraded = true :=
  ⟨_, rfl, by decide +kernel⟩
theorem test_replays : (match exec (.flitReplay 5 0 0) (laned fun d => { d with replays := 0xFFFF }) with | .next s' => some (s'.dir 0 0).replays | _ => none) = some 0xFFFF := by
  decide +kernel
theorem test_comb_reset : ∃ s', exec (.combResetComplete 5 0 []) resetting = .next s' ∧ (s'.comb 0).svc = .inService ∧ (s'.comb 0).reserved = [(3, 1, true)] :=
  ⟨_, rfl, by decide +kernel⟩

/-! ### Witnesses: memory -/

def arenaObj : DramObj := { ten := 1, kind := .arena, dva := 0, bytes := 2 ^ 21, extents := [(0, 512)] }
/-- Session 1's arena lies in the first 512 pages; the page after them is free. -/
theorem witness_MemoryErrors : Holds (working (cellOn [])) 64 8 arenaObj ∧ Holds (working (cellOn [])) (2 ^ 21 - 1) 8 arenaObj ∧
    ((working (cellOn [])).dram.objs.find? fun o => inExtents o.2.extents (2 ^ 21 / pageBytes)) = none ∧ 2 ^ 21 < dramPages * pageBytes ∧
    (working (cellOn [])).dram.mapped 1 (3 * pageBytes) = some (8, arenaObj) := by unfold Holds; decide +kernel

theorem witness_MemoryErrors_rings : RingsNamed (working (cellOn [])) := by
  unfold RingsNamed
  exact ⟨by decide +kernel, by decide +kernel⟩

theorem witness_MemoryErrors_parked : (parked anAttempt).cmd? 1 0 0 = some (evaluating (rtEval anAttempt)) ∧ (evaluating (rtEval anAttempt)).eval = some (rtEval anAttempt) ∧
    (rtEval anAttempt).attempt.isSome = true := by decide +kernel

theorem witness_MemoryErrors_scrub : MemOk { working (cellOn []) with dram := { (working (cellOn [])).dram with dirty := [(600, 1)] } } := by unfold MemOk; decide +kernel

theorem test_corrected : ∃ s', exec (.dramCorrected 5 64) ready = .next s' ∧ s'.log.dramCe = 1 := ⟨_, rfl, by decide +kernel⟩
theorem test_uncorrectable : ∃ s', exec (.dramUncorrectable 5 (.block 64)) (working (cellOn [])) = .next s' ∧ s'.dram.poison = [1] ∧ s'.log.dramUe = 1 :=
  ⟨_, rfl, by decide +kernel⟩

/-! ### Witnesses: entropy -/

/-- A source in a run of n samples of 7. -/
def sampling (n : Nat) : State := { ready with entropy := { Entropy.reset with last := some 7, runLen := n, startupOk := true } }

theorem witness_EntropyAndSeeds : RepeatsTooLong (sampling 54).entropy 7 ∧ ¬ RepeatsTooLong (sampling 53).entropy 7 ∧ ¬ RepeatsTooLong (sampling 54).entropy 8 ∧
    (sampling 54).entropy.failed = false := by unfold RepeatsTooLong; decide
theorem witness_EntropyAndSeeds_window : ProportionTooHigh { Entropy.reset with winFirst := 7, winCount := 1000, winRepeats := 854 } 7 ∧
    ¬ ProportionTooHigh { Entropy.reset with winFirst := 7, winCount := 1000, winRepeats := 853 } 7 ∧ ¬ ProportionTooHigh Entropy.reset 7 := by
  unfold ProportionTooHigh; decide
theorem witness_EntropyAndSeeds_limit : (((List.replicate 15 6).filter fun f => decide (max 0 7 < f + 1000000000))).length = 15 := by decide

/-- A full pool, with the generator unseeded, or reseeding. -/
def pooled (e : Entropy) : State := { ready with entropy := { e with poolMilli := 384000, startupOk := true } }
theorem witness_EntropyAndSeeds_seeds : (pooled Entropy.reset).entropy.failed = false ∧ 384000 ≤ (pooled Entropy.reset).entropy.poolMilli ∧
    (pooled Entropy.reset).entropy.seeded = false ∧ (pooled Entropy.reset).entropy.startupOk = true ∧
    (pooled { Entropy.reset with seeded := true, reseeding := true }).entropy.seeded = true ∧
    (pooled { Entropy.reset with seeded := true, reseeding := true }).entropy.reseeding = true := by decide
theorem witness_EntropyAndSeeds_failed : (pooled { Entropy.reset with failed := true }).entropy.failed = true := by decide

def serving : State := { ready with entropy := { Entropy.reset with seeded := true } }
theorem witness_EntropyAndSeeds_noise : serving.power.phase = .ready ∧ serving.entropy.seeded = true ∧ serving.entropy.reseeding = false ∧ (serving.comb 0).seeded = false := by
  decide

theorem test_entropy_sample : ∃ s', exec (.entropySample 5 7) (sampling 54) = .next s' ∧ s'.entropy.evRct = true ∧ s'.entropy.rctFails = 1 := ⟨_, rfl, by decide +kernel⟩
theorem test_noise_reseed : ∃ s', exec (.noiseReseed 5 0) serving = .next s' ∧ (s'.comb 0).seeded = true ∧ s'.entropy.requests = 1 := ⟨_, rfl, by decide +kernel⟩

/-! ### Witnesses: links -/

/-- Port 0 of device 1 of a swarm of one rack. -/
def linked (p : Port) : State := inSwarm { serving with fabric := { Fabric.reset with ports := [(0, p)] } }

theorem witness_LinkStates_light : (linked Port.fresh).power.phase = .ready ∧ ((linked Port.fresh).portSet 0).holdDark = false ∧
    ((linked Port.fresh).settings.swarm.any fun c => (c.peer 0).isSome) = true ∧ (linked Port.fresh).power.pf ≠ .deepRest ∧
    (linked Port.fresh).lanes.edgeIsolated.contains (0 / 16) = false ∧ ((linked Port.fresh).port 0).state = .dark ∧ ((linked Port.fresh).port 0).retryAt = none := by decide

theorem witness_LinkStates_lock : ((linked { Port.fresh with state := .training }).port 0).state = .training ∧ (linked { Port.fresh with state := .training }).canServe = true ∧
    ({ linked Port.fresh with entropy := Entropy.reset } : State).canServe = false := by decide

/-- Each timer at its last unit of time and the one before. -/
theorem witness_LinkStates_timers : (({ Port.fresh with state := .training } : Port).since + 100000000 ≤ max serving.now 100000000) ∧
    max serving.now 99999999 < ({ Port.fresh with state := .training } : Port).since + 100000000 ∧
    ({ Port.fresh with state := .attesting } : Port).since + 500000000 ≤ max serving.now 500000000 ∧
    ({ Port.fresh with state := .quarantined, reason := 7 } : Port).since + 1000000000 ≤ max serving.now 1000000000 ∧
    ({ Port.fresh with state := .quarantined, reason := 1 } : Port).since + 10000000000 ≤ max serving.now 10000000000 := by decide
theorem witness_LinkStates_retry : ((linked { Port.fresh with retryAt := some 7, light := true }).port 0).retryAt = some 7 ∧ 7 ≤ max serving.now 7 ∧ max serving.now 6 < 7 ∧
    ((linked { Port.fresh with retryAt := some 7, light := true }).port 0).light = true := by decide
theorem witness_LinkStates_tags : 64 < (((linked { Port.fresh with tagTimes := List.replicate 65 6 }).port 0).tagTimes.filter fun x => decide (max serving.now 7 < x + 1000000)).length := by
  decide
theorem witness_LinkStates_exhausted : ((linked { Port.fresh with state := .live, txCounter := 2 ^ 44 }).port 0).state = .live ∧
    2 ^ 44 ≤ ((linked { Port.fresh with state := .live, txCounter := 2 ^ 44 }).port 0).txCounter := by decide

/-- A KEY_CONFIRM frame under a key of zeros, and one with a wrong tag. -/
def zeroKey : DirKey := { key := zeros 32, salt := zeros 4 }
def confirmFrame : List Byte := zeros 48 ++ (gcmEncrypt zeroKey.key (zeroKey.salt ++ zeros 8) (zeros 48) []).2
theorem witness_LinkStates_confirm : (openFrame zeroKey confirmFrame).isSome = true ∧ openFrame zeroKey (zeros 64) = none ∧ byteAt confirmFrame 2 % 2 = 0 ∧ fld confirmFrame 8 8 = 0 ∧
    ((linked { Port.fresh with state := .keyed, rx := some zeroKey }).port 0).rx = some zeroKey := by decide +kernel

theorem test_light : ∃ s', exec (.linkLightDetect 5 0) (linked Port.fresh) = .next s' ∧ (s'.port 0).state = .training := ⟨_, rfl, by decide +kernel⟩
theorem test_confirm : ∃ s', exec (.keyConfirmReceive 5 0 confirmFrame) (linked { Port.fresh with state := .keyed, rx := some zeroKey }) = .next s' ∧ (s'.port 0).state = .live :=
  ⟨_, rfl, by decide +kernel⟩

/-! ### Witnesses: attestation and keys -/

/-- n zero bytes but for numbers of so many bytes at some offsets. -/
def imageOf (n : Nat) (fs : List (Nat × Nat × Nat)) : List Byte := fs.foldl (fun l f => (l.take f.1 ++ toLE f.2.1 f.2.2 ++ l.drop (f.1 + f.2.1)).take n) (zeros n)

/-- The descriptor of device 0, whose port 0 lies at port 0 of device 1, in swarm 9. -/
def rackSwarm : SwarmCfg := { aSwarm with digest := zeros 48 }
def peerDesc (x y : Nat) : List Byte :=
  ((imageOf 320 [(0, 4, 0x4457534C), (4, 1, 1), (0x10, 8, 9)]).take 32 ++ (linked Port.fresh).fwDigest ++ zeros 48 ++ p384.xyBytes (some (x, y)) ++ zeros 96)
def goodDesc : List Byte := (p384.g.map fun q => peerDesc q.1 q.2).getD []
def attesting (st : LinkState) : State :=
  { linked { Port.fresh with state := st, ourDesc := zeros 320 } with settings := { ready.settings with swarm := some rackSwarm } }

theorem witness_AttestationAndKeys : (attesting .attesting).settings.swarm = some rackSwarm ∧ ((attesting .attesting).port 0).state = .attesting ∧
    ((attesting .attesting).port 0).ourDesc ≠ [] ∧ ReasonOf { attesting .attesting with now := max (attesting .attesting).now 5 } rackSwarm 0 (zeros 320) [] [] [] 6 := by
  refine ⟨rfl, by decide, by decide, fun _ => rfl, fun h => ?_⟩
  exact absurd h.1 (by decide)

/-- Where the certificates and signatures verify, this descriptor passes every check; from another swarm it does not. -/
theorem witness_AttestationAndKeys_passes : goodDesc.length = 320 ∧ goodDesc.take 4 = toLE 4 0x4457534C ∧ byteAt goodDesc 4 = 1 ∧ (p384.xyPoint (slice goodDesc 0x80 96)).isSome = true ∧
    rackSwarm.serials[fld goodDesc 6 2]? = some (fld goodDesc 8 8) ∧ rackSwarm.peer 0 = some (fld goodDesc 6 2, byteAt goodDesc 0x1A) ∧ fld goodDesc 0x10 8 = rackSwarm.swarmId ∧
    slice goodDesc 0x50 48 = rackSwarm.digest ∧ slice goodDesc 0x20 48 = (linked Port.fresh).fwDigest ∧ fld goodDesc 0x18 2 = (linked Port.fresh).waggleEpoch := by decide +kernel

theorem witness_AttestationAndKeys_rekey : ((attesting .live).port 0).state = .live ∧ bitOf (byteAt (imageOf 320 [(5, 1, 1)]) 5) 0 = true ∧
    ((linked { Port.fresh with state := .live }).port 0).ourDesc = [] ∧ (linked Port.fresh).canServe = true := by decide

/-- After an hour the device of the lower id renews its keys; one frame earlier than 2^40 it does not have to. -/
def livePort : Port := { Port.fresh with state := .live, peerId := 2, tx := some zeroKey, rx := some zeroKey }
theorem witness_AttestationAndKeys_trigger : ((linked livePort).port 0).nextTx = none ∧ ((linked livePort).port 0).rekeying = none ∧ aSwarm.deviceId < ((linked livePort).port 0).peerId ∧
    ((linked livePort).port 0).keyedAt + 3600000000000 ≤ max (linked livePort).now 3600000000000 ∧ max (linked livePort).now 3599999999999 < livePort.keyedAt + 3600000000000 := by decide

/-- A configuration of one rack whose device 0 is this one; with an edge from device 0 to itself it is malformed, with a ring of two edges it is cyclic. -/
def swarmImage (edges : List (List Byte)) : List Byte :=
  imageOf 128 [(0, 4, 0x4D57534C), (4, 1, 1), (6, 2, 1), (8, 8, 9), (0x10, 4, 10), (0x14, 4, 10), (0x18, 4, edges.length)] ++
    ((List.range 32).flatMap fun i => imageOf 16 [(0, 2, i), (8, 8, i)]) ++ edges.flatten
def edgeImage (n src dst : Nat) : List Byte := imageOf 48 [(0, 2, n), (2, 2, src), (4, 2, dst), (0x14, 4, 64)]
def pagesOf (b : List Byte) : HostView := [{ fn := 0, page := 0, bytes := b }]
def loadingSwarm (n : Nat) : State := { serving with fabric := { Fabric.reset with cfgLen := n } }

theorem witness_AttestationAndKeys_load : (swarmImage []).length = 640 ∧ (hostRead (pagesOf (swarmImage [])) 0 (loadingSwarm 640).fabric.cfgAddr (loadingSwarm 640).fabric.cfgLen).isSome = true ∧
    hostRead [] 0 (loadingSwarm 640).fabric.cfgAddr (loadingSwarm 640).fabric.cfgLen = none := by decide +kernel
set_option maxRecDepth 10000 in
theorem witness_AttestationAndKeys_parse : (parseSwarm 0 (swarmImage [])).toOption.isSome = true ∧ (parseSwarm 32 (swarmImage [])).toOption.isSome = false ∧
    (parseSwarm 0 (swarmImage [edgeImage 1 0 1, edgeImage 2 1 0])).toOption.isSome = false ∧ (parseSwarm 0 (swarmImage [edgeImage 1 0 1])).toOption.isSome = true := by decide +kernel

theorem test_bad_swarm : ∃ s', exec (.swarmConfigLoad 5 (pagesOf (zeros 640))) (loadingSwarm 640) = .next s' ∧ s'.fabric.result = 3 := ⟨_, rfl, by decide +kernel⟩
/-! ### Witnesses: frames -/

/-- A queued frame of 48 bytes of header and n of payload on channel vc. -/
def queued (vc n : Nat) : QFrame := { vc := vc, kind := .relayed, via := none, header := zeros 48, payload := zeros n }
def sendingPort (credit : Nat) : Port := { livePort with queue := [queued 1 64], credits := [0, credit, 0, 0, 0] }

/-- A frame of 128 bytes takes two units of credit, which suffice. -/
theorem witness_LinkFrames_turn : frameUnits (queued 1 64) = 2 ∧ TurnOf (sendingPort 2) (queued 1 64) ∧ (sendingPort 1).credits.getD 1 0 < frameUnits (queued 1 64) := by
  refine ⟨by decide, ?_, by decide⟩
  unfold TurnOf HeadOf Sendable
  simp only [show ¬ (0 < (sendingPort 2).resend) by decide, if_false]
  refine .inr (.inr ⟨.inl (by decide), fun g => ⟨fun h => ?_, fun h => ?_⟩⟩)
  · exact absurd h.1 (by rw [show (sendingPort 2).queue.find? (fun f => f.vc == 4) = none by decide]; exact fun h => by cases h)
  · exact absurd h.1 (by rw [show (sendingPort 2).queue.find? (fun f => f.vc == 0) = none by decide]; exact fun h => by cases h)

/-- A frame sealed under the key of zeros. -/
def sealedWith (fs : List (Nat × Nat × Nat)) (body : List Byte) : List Byte :=
  let h := imageOf 48 ((0x18, 2, body.length) :: fs)
  let q := gcmEncrypt zeroKey.key (zeroKey.salt ++ slice h 8 8) h body
  h ++ q.1 ++ q.2

/-- Data of edge 4 for session 1 of tenant 1; the same of an unlisted edge; one to be forwarded through port 3; one of a later counter. -/
def dataFields : List (Nat × Nat × Nat) := [(0, 1, 1), (1, 1, 2), (4, 2, 0), (6, 2, 1), (0x1A, 2, 4), (0x1C, 4, 1)]
def dataFrame : List Byte := sealedWith dataFields (zeros 64)
def receiving : State := { linked livePort with fabric := { Fabric.reset with ports := [(0, livePort), (3, livePort)] } }

theorem witness_LinkFrames_comes : Comes receiving 0 dataFrame aSwarm zeroKey zeroKey ∧ (openFrame zeroKey dataFrame).isSome = true ∧ openFrame zeroKey (dataFrame.set 70 1) = none := by
  unfold Comes; decide +kernel
theorem witness_LinkFrames_data : fld dataFrame 8 8 = (receiving.port 0).rxCounter ∧ byteAt dataFrame 0 = 1 ∧ fld dataFrame 6 2 = aSwarm.deviceId ∧
    (aSwarm.edges.find? fun e => e.src == fld dataFrame 4 2 && e.dst == aSwarm.deviceId && e.cls == byteAt dataFrame 1 % 8 && e.edge == fld dataFrame 0x1A 2) = some anEdge ∧
    fld dataFrame 0x28 8 + 64 ≤ anEdge.bytes ∧ receiving.fabric.inbox = [] ∧ receiving.admitsMsg 1 1 4 0 = true := by decide +kernel
theorem witness_LinkFrames_others : fld (imageOf 48 ((8, 8, 3) :: dataFields)) 8 8 > (receiving.port 0).rxCounter ∧ (receiving.port 0).asked = false ∧
    (∀ e ∈ aSwarm.edges, e.edge ≠ fld (imageOf 48 (dataFields ++ [(0x1A, 2, 5)])) 0x1A 2) ∧ fld (imageOf 48 (dataFields ++ [(6, 2, 2), (0x10, 1, 3)])) 6 2 ≠ aSwarm.deviceId ∧
    byteAt (imageOf 48 (dataFields ++ [(6, 2, 2), (0x10, 1, 3)])) 0x10 = 3 ∧ (receiving.port 3).state = .live ∧
    (openFrame zeroKey (sealedWith (dataFields ++ [(6, 2, 2), (0x10, 1, 3)]) [])).isSome = true ∧ (openFrame zeroKey (sealedWith ((8, 8, 3) :: dataFields) [])).isSome = true := by
  decide +kernel
theorem witness_LinkFrames_old : fld dataFrame 8 8 < ({ livePort with rxCounter := 1 } : Port).rxCounter ∧ byteAt (imageOf 48 [(0, 1, 5)]) 0 = 5 ∧ receiving.settings.swarm ≠ none := by
  decide +kernel

theorem test_frame_send : ∃ s', exec (.linkFrameSend 5 0) (linked { livePort with queue := [queued 4 0], credits := [0, 0, 0, 0, 1] }) = .next s' ∧
    (s'.port 0).queue = [] ∧ (s'.port 0).credits = [0, 0, 0, 0, 0] := ⟨_, rfl, by decide +kernel⟩
theorem test_frame_receive : ∃ s', exec (.linkFrameReceive 5 0 dataFrame) receiving = .next s' ∧ s'.fabric.inbox.map (·.complete) = [true] := ⟨_, rfl, by decide +kernel⟩

/-! ### Witnesses: synchronisation -/

/-- A peer that is SYNCED to root 0 sends a time frame. -/
def timeOf (t1 t2 t3 t4 : Nat) : TimeFrame := { t1 := t1, t2 := t2, t3 := t3, t4 := t4, rootId := 0, hops := 1, peerState := 1, established := true }
def syncing (w : Waggle) : State := { linked livePort with waggle := w }

theorem witness_WaggleSynchronises : (linked livePort).settings.swarm = some aSwarm ∧ ((linked livePort).port 0).state = .live ∧ ((linked livePort).port 0).tx = some zeroKey := by decide

/-- With nothing advertised the device elects itself after 10 ms; established, at once. -/
theorem witness_WaggleSynchronises_elect : TakesRoot Waggle.reset 1 10000000 ∧ ¬ TakesRoot Waggle.reset 1 9999999 ∧ TakesRoot { Waggle.reset with established := true } 1 0 := by
  refine ⟨.inr ⟨by decide, by decide⟩, fun h => h.elim (fun h => absurd h.1 (by decide)) (fun h => absurd h.2 (by decide)), .inl ⟨rfl, by decide⟩⟩

/-- A root of id 0 that a SYNCED peer of one hop advertises. -/
def heard : Advert := { rootId := 0, hops := 1, state := .synced, established := true }
theorem witness_WaggleSynchronises_follow : ¬ TakesRoot { Waggle.reset with adverts := [(0, heard)], established := true } 1 5 ∧ ∃ x ∈ [((0 : Nat), heard)], x.2.state ≠ .unsynced := by
  refine ⟨fun h => h.elim (fun h => absurd (h.2 (0, heard) (by decide) (by decide)) (by decide)) (fun h => absurd (h.1 (0, heard) (by decide)) (by decide)), (0, heard), by decide, by decide⟩

theorem witness_WaggleSynchronises_lost : ({ Waggle.reset with sync := .synced, noParentAt := some 0 } : Waggle).parent = none ∧ (0 : Nat) + 1000000000 < max serving.now 1000000001 ∧
    ¬ (0 + 1000000000 < max serving.now 1000000000) ∧ ({ Waggle.reset with sync := .synced, offsetNs := 1001 } : Waggle).offsetNs > 1000 := by decide

theorem test_self_elect : ∃ s', exec (.rootSelfElect 10000000) (syncing Waggle.reset) = .next s' ∧ s'.waggle.sync = .root ∧ s'.waggle.rootId = 1 := ⟨_, rfl, by decide +kernel⟩

/-! ### Witnesses: resets and starts -/

/-- The device as a cold start finds it; held by PERST#; in each phase of a start. -/
def inStart (p : Phase) : State := { ready with power := { ready.power with phase := p } }
def heldDown : State := { State.reset with power := { Power.reset with heldByPerst := true } }

theorem witness_ResetsAndStarts : State.reset.power.off = false ∧ State.reset.power.heldByPerst = false ∧ heldDown.power.heldByPerst = true ∧ State.reset.power.phase = .rom ∧
    ready.power.phase ≠ .rom := by decide
theorem witness_ResetsAndStarts_drain : NoneLeft ready (fun _ => True) ∧ SomeLeft (withRing (liveRing [snapshot .waiting])) (fun _ => True) ∧ ready.power.flrs = [] := by
  refine ⟨fun r h => ?_, ⟨1, 0, trivial, by decide, by decide⟩, rfl⟩
  exact absurd h (by rw [show ready.rings = [] from rfl]; exact List.not_mem_nil)
/-- A drain that began at 0 ends at 10 ms and not before. -/
theorem witness_ResetsAndStarts_timeout : ({ ready with power := { ready.power with warmDrain := some 0 } } : State).power.warmDrain = some 0 ∧ 0 + 10000000 ≤ max ready.now 10000000 ∧
    max ready.now 9999999 < 0 + 10000000 := by decide

/-- The slot that ships is COMMITTED; a TRIAL slot goes first, with its attempts used up it does not. -/
def withTrial (n : Nat) : Firmware := { Firmware.reset with slotB := { FwSlot.empty with bootState := 2, attempts := n, image := some FwImage.shipped } }
theorem witness_ResetsAndStarts_selects : Selects Firmware.reset Firmware.reset (some 0) ∧ Selects (withTrial 1) (withTrial 0) (some 1) ∧
    Selects (withTrial 0) (withSlot (withTrial 0) 1 { (withTrial 0).slot 1 with bootState := 4 }) (some 0) := by
  refine ⟨.inl ⟨by decide, rfl, by decide, by decide, by decide⟩, .inr ⟨1, by decide, by decide, by decide, .inl ⟨by decide, rfl, rfl⟩⟩,
    .inr ⟨1, by decide, by decide, by decide, .inr ⟨by decide, rfl, by decide, by decide, by decide⟩⟩⟩
theorem witness_ResetsAndStarts_boots : Boots Fuses.reset Firmware.reset (some 0) (some 0) ∧ ¬ Bootable Fuses.reset Firmware.reset 1 ∧
    Boots Fuses.reset { Firmware.reset with slotA := FwSlot.empty } none none := by
  have h : Bootable Fuses.reset Firmware.reset 0 := ⟨FwImage.shipped, by decide, by decide, by decide, by decide, by decide, by decide, by decide, by decide⟩
  have n : ¬ Bootable Fuses.reset Firmware.reset 1 := by
    rintro ⟨im, q, -⟩
    have q : (none : Option FwImage) = some im := q
    cases q
  exact ⟨.inl ⟨h, rfl⟩, n, rfl⟩
theorem witness_ResetsAndStarts_fits : Fits [(1, TnSet.reset)] ∧ Fits [] := by
  constructor
  · exact ⟨by decide, by decide, by decide, by decide, by decide⟩
  · exact ⟨by decide, by decide, by decide, by decide, by decide⟩

theorem witness_ResetsAndStarts_phases : (inStart .lanes).power.phase = .lanes ∧ (inStart .dram).power.phase = .dram ∧ (inStart .scrub).power.phase = .scrub := by decide

theorem test_cold_start : ∃ s', exec (.coldStart 5) State.reset = .next s' ∧ s'.power.phase = .lanes ∧ s'.fw.bootSlot = 0 ∧ s'.now = 5 := ⟨_, rfl, by decide +kernel⟩
theorem test_dram_training : ∃ s', exec (.dramTrainingDone 5 true) (inStart .dram) = .next s' ∧ s'.dram.localGib = 88 ∧ s'.power.phase = .scrub := ⟨_, rfl, by decide +kernel⟩
theorem test_start_scrub : ∃ s', exec (.startScrubDone 5000000) (inStart .scrub) = .next s' ∧ s'.power.phase = .ready ∧ s'.power.startMs = 5 := ⟨_, rfl, by decide +kernel⟩

/-! ### Witnesses: tenant resets and power -/

theorem witness_TenantResetsAndPower : (∀ g ∈ (working (cellOn [])).segs, g.ten = 1 → g.lring < 256) ∧ (working (cellOn [])).power.phase = .ready ∧
    SomeLeft (working (cellOn [])) (· = 1) ∧ NoneLeft ready (· = 1) := by
  refine ⟨by decide, by decide, ⟨1, 0, rfl, by decide, by decide⟩, fun r h => ?_⟩
  exact absurd h (by rw [show ready.rings = [] from rfl]; exact List.not_mem_nil)
def scrubbing : State := { ready with power := { ready.power with flrs := [{ ten := 1, draining := false, since := 0, pages := [(3, 2)] }] } }
theorem witness_TenantResetsAndPower_scrub : (scrubbing.power.flrs.find? fun f => f.ten == 1 && !f.draining) = some { ten := 1, draining := false, since := 0, pages := [(3, 2)] } := by
  decide
theorem witness_TenantResetsAndPower_port : Trains (linked { livePort with light := true }) 0 ∧ ((linked { livePort with light := true }).port 0).light = true ∧
    ((linked livePort).port 0).light = false := by
  refine ⟨⟨by decide, ⟨aSwarm, by decide, by decide⟩, by decide, by decide, by decide⟩, by decide, by decide⟩
def asleep (d : DState) : State := { ready with power := { ready.power with pf := d } }
theorem witness_TenantResetsAndPower_states : ready.power.pf = .d0 ∧ (asleep .d3hot).power.pf = .d3hot ∧ (asleep .deepRest).power.pf = .deepRest ∧ (asleep .d3hot).rings = [] ∧
    (∃ r ∈ ({ withRing (liveRing [snapshot .started]) with power := (asleep .d3hot).power } : State).rings, ∃ c ∈ r.2.cmds, c.phase = .started) := by
  refine ⟨by decide, by decide, by decide, rfl, (ringKey 1 0, liveRing [snapshot .started]), List.mem_singleton.2 rfl, snapshot .started, List.mem_singleton.2 rfl, rfl⟩
/-- The book is written from 1,500 mJ on. -/
def unsaved : State := { ready with fw := { Firmware.reset with booted := true, bookDirty := true } }
theorem witness_TenantResetsAndPower_book : unsaved.fw.bookDirty = true ∧ unsaved.fw.booted = true ∧ unsaved.fw.bootSlot < 2 ∧ ready.fw.bookDirty = false := by decide

theorem test_flr : ∃ s', exec (.functionLevelReset 5 1 true false) (working (cellOn [])) = .next s' ∧ s'.segs = [] ∧ s'.dram.objs = [] ∧ (s'.ring 1 0).state = .off :=
  ⟨_, rfl, by decide +kernel⟩
theorem test_holdup : (match exec (.holdupMeasure 5 1500) unsaved with | .next s' => some s'.fw.bookDirty | _ => none) = some false ∧
    (match exec (.holdupMeasure 5 1499) unsaved with | .next s' => some s'.fw.bookDirty | _ => none) = some true := by decide +kernel
theorem test_power_fail : ∃ s', exec (.powerFail 5) ready = .next s' ∧ s'.power.off = true ∧ s'.smbAlert = true := ⟨_, rfl, by decide +kernel⟩

/-! ### Witnesses: firmware -/

/-- A device that serves FW_CTL, with an update in a state and hold-up energy of so many mJ. -/
def flashing (st : FwState) (mj : Nat) : State :=
  { ready with elec := { Elec.reset with holdupMj := mj }, fw := { Firmware.reset with booted := true, state := st, sectorsLeft := 2, staged := zeros 64 } }

theorem witness_FirmwareUpdates : (flashing .idle 1500).fwServed = true ∧ (State.reset).fwServed = false ∧ updateRefusal (flashing .idle 1499) 0 false = some 0x03 := by
  refine ⟨by decide, by decide, ?_⟩
  unfold updateRefusal Updating; decide +kernel
theorem witness_FirmwareUpdates_start : updateRefusal (flashing .idle 1500) 0 false = none ∧ updateRefusal (flashing .writing 1500) 0 false = some 0x10 ∧
    updateRefusal (flashing .idle 1500) 1 false = some 0x0F := by
  unfold updateRefusal Updating tooHot
  exact ⟨by decide +kernel, by decide +kernel, by decide +kernel⟩
theorem witness_FirmwareUpdates_check : (flashing .checking 1500).fw.state = .checking ∧ (flashing .checking 1500).fw.readFault = false ∧
    imageRefusal (flashing .checking 1500) (parseImage (flashing .checking 1500).fw.staged) = some 0x08 ∧ imageRefusal ready FwImage.shipped = none := by
  refine ⟨by decide, by decide, ?_, ?_⟩
  · unfold imageRefusal; decide +kernel
  · unfold imageRefusal; decide +kernel
theorem witness_FirmwareUpdates_writing : (flashing .writing 1500).fw.sectorsLeft = 2 ∧ ¬ tooHot (flashing .writing 1500) ∧ 1500 ≤ (flashing .writing 1500).elec.holdupMj ∧
    (flashing .paused 0).fw.state = .paused ∧ (flashing .verifying 1500).fw.state = .verifying ∧ tooHot ({ flashing .writing 1500 with power := { ready.power with hiveTj := 96 } } : State) ∧
    ¬ tooHot ({ flashing .writing 1500 with power := { ready.power with hiveTj := 95 } } : State) := by
  unfold tooHot; decide +kernel
/-- On trial in slot A. -/
def onTrial : State := { flashing .idle 1500 with fw := { (flashing .idle 1500).fw with trial := true } }
theorem witness_FirmwareUpdates_ops : (flashing .staged 1500).fw.state = .staged ∧ onTrial.fw.trial = true ∧ onTrial.fw.bootSlot < 2 ∧ (onTrial.fw.slot 0).image = some FwImage.shipped ∧
    ((withTrial 3).slot 1).bootState = 2 ∧ ((withTrial 3).slot 1).attempts = 3 ∧ ((withTrial 3).slot 0).bootState ≠ 2 ∧ Updating (flashing .writing 1500).fw ∧ ¬ Updating (flashing .idle 1500).fw ∧
    (∀ k ∈ [0, 1], (onTrial.fw.slot k).bootState ≠ 2) := by unfold Updating; decide

theorem test_fw_start : ∃ s', exec (.fwStart 5 0 []) (flashing .idle 1499) = .next s' ∧ s'.fw.result = 0x03 := ⟨_, rfl, by decide +kernel⟩
theorem test_fw_commit : ∃ s', exec (.fwCommit 5) onTrial = .next s' ∧ s'.fw.trial = false ∧ (s'.fw.slot 0).bootState = 3 := ⟨_, rfl, by decide +kernel⟩
theorem test_fw_abort : ∃ s', exec (.fwAbort 5) (flashing .staged 1500) = .next s' ∧ s'.fw.state = .aborted ∧ s'.fw.result = 0x12 := ⟨_, rfl, by decide +kernel⟩

/-! ### Witnesses: the whole device -/

theorem witness_SoundState : SoundState State.reset ∧ SoundState (working (cellOn [])) ∧ SoundState { ready with fuses := { Fuses.reset with svn := 63 } } := by
  refine ⟨⟨by unfold MemOk; decide, by decide⟩, ⟨by unfold MemOk; decide +kernel, by decide⟩, ⟨by unfold MemOk; decide, by decide⟩⟩
theorem witness_EveryStepKeepsInvariant : ∃ s', step { ready with pending := [.powerFail 5] } = .next s' := ⟨_, rfl⟩
theorem witness_FoldingReduces : rootedModulus.formOk = true ∧ (2 : Nat) ^ 64 - 1 < 2 ^ 64 ∧ 2 ^ rootedModulus.w ≤ 2 ^ 64 - 1 := by decide
/-- The front of the queue runs first; an empty queue idles. -/
theorem test_step : (match step { ready with pending := [.lowInputSet 5, .lowInputClear 6] } with | .next s' => some (s'.pending, s'.elec.lowInput, s'.now) | _ => none) =
    some ([.lowInputClear 6], true, 5) := by decide +kernel
theorem test_idle : step ready = .next ready := rfl

/-! ### Well-formed commands: one ill-formed term for each check -/

theorem test_wf_function : Instr.wf (.ringEnable 0 511 6) = true ∧ Instr.wf (.ringEnable 0 512 6) = false := by decide
theorem test_wf_tenant : Instr.wf (.cmdFence 0 511 255 0) = true ∧ Instr.wf (.cmdFence 0 512 0 0) = false := by decide
theorem test_wf_ring : Instr.wf (.cmdFence 0 0 256 0) = false := by decide
theorem test_wf_cell : Instr.wf (.wait 0 511) = true ∧ Instr.wf (.wait 0 512) = false := by decide
theorem test_wf_cells : Instr.wf (.dispatch 0 3 0 [0, 511]) = true ∧ Instr.wf (.dispatch 0 3 0 [0, 512]) = false := by decide
theorem test_wf_comb : Instr.wf (.heartbeatTimeout 0 3) = true ∧ Instr.wf (.heartbeatTimeout 0 4) = false := by decide
theorem test_wf_fault_cell : Instr.wf (.combFault 0 3 0 0xFFFF) = true ∧ Instr.wf (.combFault 0 3 0 512) = false := by decide
theorem test_wf_class : Instr.wf (.ringPoll 0 3 []) = true ∧ Instr.wf (.ringPoll 0 4 []) = false := by decide
theorem test_wf_port : Instr.wf (.lightLoss 0 31) = true ∧ Instr.wf (.lightLoss 0 32) = false := by decide
theorem test_wf_bundle : Instr.wf (.flitReplay 0 119 1) = true ∧ Instr.wf (.flitReplay 0 120 1) = false := by decide
theorem test_wf_direction : Instr.wf (.flitReplay 0 119 2) = false ∧ Instr.wf (.timerExpire 0 0 2) = false ∧ Instr.wf (.waggleStepEdge 0 2) = false := by decide
theorem test_wf_die : Instr.wf (.thermalTrip 0 6) = true ∧ Instr.wf (.thermalTrip 0 7) = false := by decide
theorem test_wf_dpa : Instr.wf (.dramCorrected 0 (768 * 2 ^ 30 - 1)) = true ∧ Instr.wf (.dramCorrected 0 (768 * 2 ^ 30)) = false := by decide
theorem test_wf_shelf : Instr.wf (.shelfUncorrectable 0 0 191) = true ∧ Instr.wf (.shelfUncorrectable 0 0 192) = false := by decide
theorem test_wf_edge : Instr.wf (.fabricAckReceive 0 0 0 0 (2 ^ 32)) = false := by decide
theorem test_wf_width : Instr.wf (.kick 0 0 0 8 []) = true ∧ Instr.wf (.kick 0 0 0 3 []) = false := by decide
theorem test_wf_value : Instr.wf (.registerWrite 0 0 0 4 (2 ^ 32 - 1) []) = true ∧ Instr.wf (.registerWrite 0 0 0 4 (2 ^ 32) []) = false ∧
    Instr.wf (.i3cWrite 0 0 (2 ^ 32)) = false ∧ Instr.wf (.fwStart 0 (2 ^ 32) []) = false ∧ Instr.wf (.ringDisable 0 0 (2 ^ 64)) = false := by decide

end Sys2Proof.Tests
end

section
/-! Settles O57 (R28): folding and then subtracting gives the canonical residue of every modulus of valid form. -/

namespace Sys2Proof.Machine

/-! ### What the valid form of a modulus says of its size (R23) -/

/-- The three valid forms, by the encoding of EPS. -/
theorem ModEntry.forms_of_formOk {m : ModEntry} (h : m.formOk = true) :
    (m.eps = 0 ∧ m.a < m.w ∧ m.b = 0 ∧ m.q + 2 ^ m.a = 2 ^ m.w + 1) ∨
    (m.eps = 1 ∧ m.b < m.a ∧ m.a < m.w ∧ m.q + 2 ^ m.a = 2 ^ m.w + 2 ^ m.b + 1) ∨
    (m.eps = 0xFF ∧ m.b < m.a ∧ m.a < m.w ∧ m.q + 2 ^ m.a + 2 ^ m.b = 2 ^ m.w + 1) := by
  simp only [ModEntry.formOk, Bool.and_eq_true] at h
  obtain ⟨-, h⟩ := h
  split_ifs at h with h0 h1 hm <;> simp only [decide_eq_true_eq] at h
  · exact .inl ⟨h0, h.2⟩
  · exact .inr (.inl ⟨h1, h.2⟩)
  · exact .inr (.inr ⟨hm, h.2⟩)

/-- The three forms in one equation, q = 2^w - 2^a + eps * 2^b + 1. -/
theorem ModEntry.q_eq_of_formOk {m : ModEntry} (h : m.formOk = true) :
    (m.q : Int) = 2 ^ m.w - 2 ^ m.a + epsOf m.eps * 2 ^ m.b + 1 := by
  obtain ⟨he, -, -, hq⟩ | ⟨he, -, -, hq⟩ | ⟨he, -, -, hq⟩ := m.forms_of_formOk h <;> zify at hq
  · have heps : epsOf m.eps = 0 := by rw [he]; rfl
    rw [heps]
    linarith
  · have heps : epsOf m.eps = 1 := by rw [he]; rfl
    rw [heps]
    linarith
  · have heps : epsOf m.eps = -1 := by rw [he]; rfl
    rw [heps]
    linarith

/-- Powers of two at rising exponents at least double. -/
theorem two_mul_two_pow_le {i j : Nat} (h : i < j) : 2 * 2 ^ i ≤ 2 ^ j := by
  rw [← Nat.pow_succ']
  exact Nat.pow_le_pow_right two_pos h

/-- The smallest modulus of width w exceeds 2^(w-2), and none exceeds 2^w. -/
theorem ModEntry.q_bounds_of_formOk {m : ModEntry} (h : m.formOk = true) :
    2 ^ m.w < 4 * m.q ∧ m.q ≤ 2 ^ m.w := by
  have ha := Nat.two_pow_pos m.a
  have hb := Nat.two_pow_pos m.b
  obtain ⟨-, haw, -, hq⟩ | ⟨-, hba, haw, hq⟩ | ⟨-, hba, haw, hq⟩ := m.forms_of_formOk h
  · have := two_mul_two_pow_le haw
    omega
  · have := two_mul_two_pow_le haw
    have := two_mul_two_pow_le hba
    omega
  · have := two_mul_two_pow_le haw
    have := two_mul_two_pow_le hba
    omega

/-! ### The folds -/

/-- A fold takes hi * q away from x, and never more than x. -/
theorem foldOnce_add_mul {m : ModEntry} (h : m.formOk = true) (x : Nat) :
    foldOnce m x + x / 2 ^ m.w * m.q = x := by
  have hle : x / 2 ^ m.w * m.q ≤ x :=
    (Nat.mul_le_mul_left _ (m.q_bounds_of_formOk h).2).trans (Nat.div_mul_le_self x _)
  have hdiv : (x : Int) = x / 2 ^ m.w * 2 ^ m.w + x % 2 ^ m.w := (Int.ediv_mul_add_emod x (2 ^ m.w)).symm
  have hfold : foldOnce m x = ((x : Int) - (x / 2 ^ m.w * m.q : Nat)).toNat := by
    simp only [foldOnce]
    congr 1
    push_cast
    rw [ModEntry.q_eq_of_formOk h]
    linear_combination -hdiv
  omega

theorem foldOnce_mod {m : ModEntry} (h : m.formOk = true) (x : Nat) : foldOnce m x % m.q = x % m.q := by
  conv_rhs => rw [← foldOnce_add_mul h x, Nat.add_mul_mod_self_right]

/-- While x is at least 2^w, the fold makes it smaller. -/
theorem foldOnce_lt {m : ModEntry} (h : m.formOk = true) {x : Nat} (hx : 2 ^ m.w ≤ x) : foldOnce m x < x := by
  have hhi : 0 < x / 2 ^ m.w := Nat.div_pos hx (Nat.two_pow_pos _)
  have hq : 0 < m.q := by linarith [(m.q_bounds_of_formOk h).1, Nat.two_pow_pos m.w]
  have := Nat.mul_pos hhi hq
  have := foldOnce_add_mul h x
  omega

theorem foldAll_mod {m : ModEntry} (h : m.formOk = true) (fuel x : Nat) : foldAll m fuel x % m.q = x % m.q := by
  induction fuel generalizing x with
  | zero => rfl
  | succ fuel ih =>
    rw [foldAll]
    split_ifs
    · rfl
    · rw [ih, foldOnce_mod h]

/-- As each fold takes at least 1 away, x folds suffice. -/
theorem foldAll_lt {m : ModEntry} (h : m.formOk = true) {fuel x : Nat} (hf : x ≤ fuel) :
    foldAll m fuel x < 2 ^ m.w := by
  induction fuel generalizing x with
  | zero =>
    have := Nat.two_pow_pos m.w
    rw [foldAll]
    omega
  | succ fuel ih =>
    rw [foldAll]
    split_ifs with hx
    · exact hx
    · have := foldOnce_lt h (Nat.le_of_not_lt hx)
      exact ih (by omega)

/-! ### The subtractions -/

/-- Below (fuel + 1) * q, the allowed subtractions end at the residue. -/
theorem subAll_eq_mod {q fuel x : Nat} (hx : x < (fuel + 1) * q) : subAll q fuel x = x % q := by
  induction fuel generalizing x with
  | zero => rw [subAll, Nat.mod_eq_of_lt (by omega)]
  | succ fuel ih =>
    rw [subAll]
    split_ifs with hlt
    · rw [Nat.mod_eq_of_lt hlt]
    · have hle := Nat.le_of_not_lt hlt
      rw [ih (by rw [Nat.succ_mul] at hx; omega), ← Nat.mod_eq_sub_mod hle]

/-- R28's pseudocode gives the canonical residue: after the folds, x is below 2^w < 4 * q. -/
theorem foldReduce_eq_reduce {m : ModEntry} (h : m.formOk = true) (x : Nat) : foldReduce m x = reduce m.q x := by
  have hlt : foldAll m x x < (3 + 1) * m.q := (foldAll_lt h le_rfl).trans (m.q_bounds_of_formOk h).1
  rw [foldReduce, subAll_eq_mod hlt, foldAll_mod h, reduce]

/-- Settles O57: the folds keep the residue and end below 2^w, and 2^w < 4 * q leaves at most three subtractions. -/
theorem foldingReduces : Obligations.FoldingReduces := by
  intro m x hform _
  exact ⟨fun _ => foldOnce_add_mul hform x, foldAll_lt hform le_rfl, foldReduce_eq_reduce hform x, rfl⟩

end Sys2Proof.Machine
end

section
/-! Settles O59: the values of the reset state, and that reading an unlisted entry of an empty table gives its reset value. -/

namespace Sys2Proof.Machine

open Sys2Proof.Safety

/-! ### Reading the tables of the reset state -/

@[simp] theorem State.reset_ring (ten lring : Nat) : State.reset.ring ten lring = Ring.fresh := rfl
@[simp] theorem State.reset_cell (cell : Nat) : State.reset.cell cell = Cell.zero := rfl
@[simp] theorem State.reset_word (cell addr : Nat) : State.reset.word cell addr = 0 := rfl
@[simp] theorem State.reset_port (p : Nat) : State.reset.port p = Port.fresh := rfl
@[simp] theorem State.reset_ten (ten : Nat) : State.reset.ten ten = Tenant.fresh := rfl
@[simp] theorem State.reset_pace (c : Nat) : State.reset.pace c = PaceSet.reset := rfl

theorem soundState_reset : SoundState State.reset := ⟨rfl, Nat.zero_le _⟩

/-- Settles O59: each table of the reset state is empty, so every entry reads as its fresh value. -/
theorem resetLeaves : Obligations.ResetLeaves := by
  refine ⟨soundState_reset, rfl, rfl, rfl, rfl, rfl, rfl, rfl, State.reset_pace, ?rings, ?cells, rfl, ?ports, ?tenants,
    rfl, rfl, rfl⟩
  case rings => simp [Ring.fresh]
  case cells => simp [Cell.zero]
  case ports => simp [Port.fresh]
  case tenants => simp [Tenant.fresh]

end Sys2Proof.Machine
end

section
/-! Settles O46 (R49, R50, R53, R54, R57, R330, R346): the lanes of a bundle in service, and the end of a comb's reset. -/

namespace Sys2Proof.Machine

open Sys2Proof.Safety

/-! ### What a device-wide record and a lane event leave -/

/-- A record of the whole device enters the log and no tenant's view. -/
theorem logRec_deviceWide (s : State) (type flags source arg0 arg1 : Nat) :
    s.logRec type flags Rec.deviceWide source arg0 arg1 =
      { s with log := s.log.add { type := type, flags := flags, ten := 0xFFFF, source := source, waggle := s.now, arg0 := arg0, arg1 := arg1 } } :=
  rfl

/-- The records of a direction that takes a width (R57): half width and failure have one. -/
def widthLog (l : Log) (n b d : Nat) (w : DirState) : Log :=
  if w = .half then l.add (laneRecord n b d 1) else if w = .failed then l.add (laneRecord n b d 2) else l

/-- A direction that takes a width: its state, the two events, and the log; nothing else. -/
theorem setWidth_eq (s : State) (b d : Nat) (w : DirState) :
    s.setWidth b d w =
      { s with
        lanes := { s.lanes with
          dirs := Tbl.upd s.lanes.dirs (b * 2 + d) Direction.fresh fun x => { x with state := w }
          degraded := s.lanes.degraded || w == .half
          failedEv := s.lanes.failedEv || w == .failed }
        log := widthLog s.log s.now b d w } := by
  cases w <;> simp [State.setWidth, State.updDir, State.laneEvent, logRec_deviceWide, widthLog, laneRecord]

theorem dir_updDir_other (s : State) {b i d : Nat} (f : Direction → Direction) (h : i ≠ b) : (s.updDir b d f).dir i d = s.dir i d :=
  Tbl.lookD_upd_other _ _ _ (by omega)

@[simp] theorem setWidth_dir_self (s : State) (b d : Nat) (w : DirState) : (s.setWidth b d w).dir b d = { s.dir b d with state := w } := by
  rw [setWidth_eq]
  exact State.dir_updDir_self s b d fun x => { x with state := w }

theorem setWidth_dir_other (s : State) {b i d : Nat} (w : DirState) (h : i ≠ b) : (s.setWidth b d w).dir i d = s.dir i d := by
  rw [setWidth_eq]
  exact dir_updDir_other s _ h

/-- The width that the unusable lanes leave is that of R50. -/
theorem widthIs_widthOf (f : Nat) : WidthIs f (widthOf f) := by
  unfold WidthIs widthOf
  refine ⟨fun h => if_pos h, fun h h' => ?_, fun h => ?_⟩
  · rw [if_neg (by omega), if_pos h']
  · rw [if_neg (by omega), if_neg (by omega)]

/-! ### A sense of a die pair (R46, R53) -/

theorem senseLost_iff (s : State) (b d : Nat) :
    s.senseLost b d = true ↔ ∀ i < (pairOf b).2, (s.dir ((pairOf b).1 + i) d).state = .failed := by
  simp [State.senseLost]

/-- As long as another direction has not failed, the sense remains. -/
theorem senseLost_of_otherWay {s z : State} {b d : Nat} (h : OtherWay s b d) (hz : ∀ i, i ≠ b → z.dir i d = s.dir i d) :
    z.senseLost b d = false := by
  obtain ⟨i, hi, hne, hs⟩ := h
  rw [← hz _ hne] at hs
  exact Bool.eq_false_iff.2 fun hl => hs ((senseLost_iff z b d).1 hl i hi)

/-- The last direction that fails takes its sense with it. -/
theorem senseLost_of_last {s z : State} {b d : Nat} (h : ¬ OtherWay s b d) (hz : ∀ i, i ≠ b → z.dir i d = s.dir i d)
    (hb : (z.dir b d).state = .failed) : z.senseLost b d = true := by
  refine (senseLost_iff z b d).2 fun i hi => ?_
  by_cases hne : (pairOf b).1 + i = b
  · rw [hne, hb]
  · rw [hz _ hne]
    by_contra hs
    exact h ⟨i, hi, hne, hs⟩

/-! ### One direction in service (R49, R50, R54) -/

/-- Nothing but one direction of a bundle, the lane events and the log differs. -/
def LaneStep (b d : Nat) (s z : State) : Prop :=
  ∃ la lg, z = { s with lanes := la, log := lg } ∧ SameBut (b * 2 + d) la.dirs s.lanes.dirs ∧
    la.combIsolated = s.lanes.combIsolated ∧ la.edgeIsolated = s.lanes.edgeIsolated

theorem laneStep_trans {b d : Nat} {s z y : State} (h : LaneStep b d s z) (g : LaneStep b d z y) : LaneStep b d s y := by
  obtain ⟨la, lg, rfl, hd, hc, he⟩ := h
  obtain ⟨la', lg', rfl, hd', hc', he'⟩ := g
  exact ⟨la', lg', rfl, sameBut_trans hd' hd, hc'.trans hc, he'.trans he⟩

theorem laneStep_updDir (s : State) (b d : Nat) (f : Direction → Direction) : LaneStep b d s (s.updDir b d f) :=
  ⟨_, _, rfl, sameBut_upd _ _ _ _, rfl, rfl⟩

theorem laneStep_setWidth (s : State) (b d : Nat) (w : DirState) : LaneStep b d s (s.setWidth b d w) :=
  by
  rw [setWidth_eq]
  refine ⟨_, _, rfl, ?_, rfl, rfl⟩
  dsimp only
  exact sameBut_upd _ _ _ _

theorem laneStep_retrained (s : State) (b d : Nat) : LaneStep b d s (s.laneEvent b d 4) :=
  ⟨_, _, rfl, sameBut_refl _ _, rfl, rfl⟩

theorem onlyLane_settled {s z : State} {t b d : Nat} (h : LaneStep b d (s.advance t) z) : OnlyLane s (settled t s z) t b d := by
  obtain ⟨la, lg, rfl, hd, hc, he⟩ := h
  exact ⟨rfl, hd, hc, he⟩

theorem testDirection_dir_self (s : State) (b d mask : Nat) :
    let tested := { s.dir b d with testFail := mask % 2 ^ 18, recent := [] }
    (s.testDirection b d mask).dir b d = { tested with state := widthOf tested.unusable } := by
  simp [State.testDirection]

theorem testDirection_dir_other (s : State) {b i d : Nat} (mask : Nat) (h : i ≠ b) : (s.testDirection b d mask).dir i d = s.dir i d := by
  rw [State.testDirection, setWidth_dir_other _ _ h, dir_updDir_other _ _ h]

/-- What a command leaves whose effect, on the state at its time, is z. -/
theorem run_eq {t : Nat} {s z : State} {f : State → State} (h : s.power.off = false) (hz : f (s.advance t) = z) :
    run t s f = .next (settled t s z) := hz ▸ run_next h

/-- The direction carries traffic: FLIT_REPLAY and LANE_RETRAIN act on it. -/
theorem inUse_guard {s : State} {b d : Nat} (hb : b < 120) (hd : d < 2) (huse : (s.dir b d).state = .full ∨ (s.dir b d).state = .half) :
    (decide (b < bundleCount ∧ d < 2) && ((s.dir b d).state == .full || (s.dir b d).state == .half)) = true := by
  simp [bundleCount, hb, hd, huse]

section

variable {t b d : Nat} {s : State} (hoff : s.power.off = false) (hb : b < 120) (hd : d < 2)
  (huse : (s.dir b d).state = .full ∨ (s.dir b d).state = .half)
include hoff hb hd huse

/-- FLIT_REPLAY (R54). -/
theorem flitReplay_counts : ∃ s', exec (.flitReplay t b d) s = .next s' ∧ OnlyLane s s' t b d ∧ s'.log = s.log ∧
    s'.dir b d = { s.dir b d with
      replays := capAt 0xFFFF ((s.dir b d).replays + 1)
      recent := max s.now t :: (s.dir b d).recent.filter fun r => decide (max s.now t < r + 1000000) } :=
  ⟨_, run_eq hoff (if_pos (inUse_guard hb hd huse)), onlyLane_settled (laneStep_updDir ..), rfl, State.dir_updDir_self (s.advance t) b d _⟩

variable (hmany : 256 < (s.dir b d).recent.length)
include hmany

/-- LANE_RETRAIN before the fifth trigger (R54). -/
theorem laneRetrain_retrains (hfew : (s.dir b d).retrains < 4) :
    ∃ s', exec (.laneRetrain t b d) s = .next s' ∧ OnlyLane s s' t b d ∧ s'.log = s.log ∧
      s'.dir b d = { s.dir b d with state := .retraining, retrains := (s.dir b d).retrains + 1, recent := [] } := by
  have hg := Bool.and_eq_true_iff.2 ⟨inUse_guard hb hd huse, decide_eq_true hmany⟩
  exact ⟨_, run_eq hoff ((if_pos hg).trans (if_neg (Nat.not_le.2 hfew))),
    onlyLane_settled (laneStep_updDir ..), rfl, State.dir_updDir_self (s.advance t) b d _⟩

/-- The fifth trigger, while the sense remains: the direction has failed (R54). -/
theorem laneRetrain_fails (hfour : 4 ≤ (s.dir b d).retrains) (ho : OtherWay s b d) :
    ∃ s', exec (.laneRetrain t b d) s = .next s' ∧ OnlyLane s s' t b d ∧
      s'.dir b d = { s.dir b d with state := .failed } ∧ s'.lanes.failedEv = true ∧ s'.log = s.log.add (laneRecord (max s.now t) b d 2) := by
  have hg := Bool.and_eq_true_iff.2 ⟨inUse_guard hb hd huse, decide_eq_true hmany⟩
  have hl : ((s.advance t).setWidth b d .failed).senseLost b d = false := senseLost_of_otherWay ho fun i hi => setWidth_dir_other _ _ hi
  exact ⟨_, run_eq hoff ((if_pos hg).trans ((if_pos hfour).trans (if_neg (Bool.eq_false_iff.1 hl)))), onlyLane_settled (laneStep_setWidth ..),
    setWidth_dir_self .., rfl, rfl⟩

end

/-- RETRAIN_TEST_DONE while the sense remains (R50, R54, R57). -/
theorem retrainTestDone_resumes {t b d mask : Nat} {s : State} (hoff : s.power.off = false) (hr : (s.dir b d).state = .retraining) (ho : OtherWay s b d) :
    let tested := { s.dir b d with testFail := mask % 2 ^ 18, recent := [] }
    ∃ s' w, exec (.retrainTestDone t b d mask) s = .next s' ∧ OnlyLane s s' t b d ∧ WidthIs tested.unusable w ∧ s'.dir b d = { tested with state := w } ∧
      s'.lanes.retrained = true ∧ s'.lanes.degraded = (s.lanes.degraded || w == .half) ∧ s'.lanes.failedEv = (s.lanes.failedEv || w == .failed) ∧
      s'.log = widthLog (s.log.add (laneRecord (max s.now t) b d 4)) (max s.now t) b d w := by
  intro tested
  let z := ((s.advance t).laneEvent b d 4).testDirection b d mask
  have hz : z = (((s.advance t).laneEvent b d 4).updDir b d fun x => { x with testFail := mask % 2 ^ 18, recent := [] }).setWidth b d
      (widthOf tested.unusable) := by
    simp only [z, State.testDirection, State.dir_updDir_self]
    rfl
  have hl : z.senseLost b d = false := senseLost_of_otherWay ho fun i hi => testDirection_dir_other _ _ hi
  have hstep : LaneStep b d (s.advance t) z := by
    rw [hz]
    exact laneStep_trans (laneStep_retrained ..) (laneStep_trans (laneStep_updDir ..) (laneStep_setWidth ..))
  refine ⟨_, widthOf tested.unusable, run_eq hoff ((if_pos (by simp [hr])).trans (if_neg (Bool.eq_false_iff.1 hl))),
    onlyLane_settled hstep, widthIs_widthOf _, testDirection_dir_self .., ?_⟩
  change z.lanes.retrained = true ∧ z.lanes.degraded = _ ∧ z.lanes.failedEv = _ ∧ z.log = _
  rw [hz, setWidth_eq]
  exact ⟨rfl, rfl, rfl, rfl⟩

/-! ### The drain that a lost sense starts (R53, R341) -/

/-- Every comb is in the service state that it was in. -/
def SvcKept (s z : State) : Prop := ∀ c, (z.comb c).svc = (s.comb c).svc

theorem svcKept_trans {s z y : State} (h : SvcKept s z) (g : SvcKept z y) : SvcKept s y := fun c => (g c).trans (h c)

theorem svcKept_foldl {α : Type} {f : State → α → State} (hf : ∀ s a, SvcKept s (f s a)) (l : List α) (s : State) : SvcKept s (l.foldl f s) := by
  induction l generalizing s with
  | nil => exact fun _ => rfl
  | cons a r ih => exact svcKept_trans (hf s a) (ih _)

theorem svcKept_unrefSeg (s : State) (id : Nat) : SvcKept s (s.unrefSeg id) := by
  intro c
  have h := look_map s.combs (fun k : Comb => { k with shelves := k.shelves.map fun r : ShelfRun => { r with refs := r.refs.filter (· != id) } }) c
  unfold State.comb State.unrefSeg Tbl.lookD
  dsimp only at h ⊢
  rw [h]
  cases Tbl.look s.combs c <;> rfl

theorem svcKept_requeueGang (s : State) (g : SegRun) (f : SegRun → SegRun) : SvcKept s (s.requeueGang g f) := by
  have hm : ∀ (s : State) (m : SegRun), SvcKept s ((s.releaseCells m.cells).unrefSeg m.id) := by
    intro s m
    obtain ⟨es, h⟩ := releaseCells_cells s m.cells
    rw [h]
    exact svcKept_unrefSeg _ _
  exact svcKept_foldl hm _ s

theorem svcKept_stopRun (s : State) (g : SegRun) : SvcKept s (s.stopRun g) :=
  svcKept_foldl (f := fun s c => s.updCell c Cell.stop) (fun _ _ _ => rfl) g.cells s

theorem svcKept_drainGang (s : State) (g : SegRun) : SvcKept s (s.drainGang g) := by
  unfold State.drainGang
  dsimp only
  split
  · exact svcKept_requeueGang s g id
  · exact svcKept_foldl svcKept_stopRun _ s

/-- A fault of a comb that is in service, or at rest for heat, starts its drain. -/
theorem svc_faultComb {s : State} {c : Nat} (source cell : Nat) (h : (s.comb c).svc.live = true) :
    ((s.faultComb c source cell).comb c).svc = .draining := by
  unfold State.faultComb
  rw [if_neg (by simp [h])]
  refine (svcKept_foldl (fun s g => ?_) _ _ c).trans ?_
  · split
    · exact fun _ => rfl
    · split
      · exact fun _ => rfl
      · exact svcKept_drainGang s _
  · simp only [logRec_deviceWide]
    exact congrArg Comb.svc (State.comb_updComb_self s c fun k => { k with svc := .draining, suspended := true, faults := min 3 (k.faults + 1) })

theorem svc_loseSense {s : State} {b : Nat} (d : Nat) (hb : b < 64) (h : (s.comb (b / 16)).svc.live = true) :
    ((s.loseSense b d true).comb (b / 16)).svc = .draining := by
  unfold State.loseSense State.isolateComb
  dsimp only
  rw [if_pos hb, if_pos rfl]
  exact svc_faultComb _ _ h

/-- RETRAIN_TEST_DONE that fails the last direction of a sense of a comb-hive pair (R53). -/
theorem retrainTestDone_drains {t b d mask : Nat} {s : State} (hoff : s.power.off = false) (hr : (s.dir b d).state = .retraining) (ho : ¬ OtherWay s b d)
    (hf : 10 < ({ s.dir b d with testFail := mask % 2 ^ 18, recent := [] } : Direction).unusable) (hb : b < 64)
    (hl : (s.comb (b / 16)).svc.live = true) :
    ∃ s', exec (.retrainTestDone t b d mask) s = .next s' ∧ (s'.comb (b / 16)).svc = .draining := by
  let z := ((s.advance t).laneEvent b d 4).testDirection b d mask
  have hz : (z.dir b d).state = .failed := by
    rw [testDirection_dir_self]
    exact (widthIs_widthOf _).2.2 hf
  have hlost : z.senseLost b d = true := senseLost_of_last ho (fun i hi => testDirection_dir_other _ _ hi) hz
  have hlive : (z.comb (b / 16)).svc.live = true := by
    simp only [z, State.testDirection, setWidth_eq]
    exact hl
  refine ⟨_, run_eq hoff ((if_pos (by simp [hr])).trans (if_pos hlost)), ?_⟩
  exact svc_loseSense d hb hlive

/-! ### The lane test at the end of a comb's reset (R346) -/

/-- A lane test out of service: die links, the edge ports and the combs' service states may differ, nothing else. -/
def LanesTested (s z : State) : Prop :=
  (∃ la lg fb wg cs, z = { s with lanes := la, log := lg, fabric := fb, waggle := wg, combs := cs }) ∧
    ∀ k, ∃ v, z.comb k = { s.comb k with svc := v }

theorem lanesTested_refl (s : State) : LanesTested s s := ⟨⟨s.lanes, s.log, s.fabric, s.waggle, s.combs, rfl⟩, fun k => ⟨(s.comb k).svc, rfl⟩⟩

theorem lanesTested_trans {s z y : State} (h : LanesTested s z) (g : LanesTested z y) : LanesTested s y := by
  obtain ⟨⟨_, _, _, _, _, rfl⟩, hk⟩ := h
  obtain ⟨⟨la, lg, fb, wg, cs, rfl⟩, hk'⟩ := g
  refine ⟨⟨la, lg, fb, wg, cs, rfl⟩, fun k => ?_⟩
  obtain ⟨_, hv⟩ := hk k
  obtain ⟨v, hv'⟩ := hk' k
  exact ⟨v, by rw [hv', hv]⟩

theorem lanesTested_foldl {α : Type} {f : State → α → State} (hf : ∀ s a, LanesTested s (f s a)) (l : List α) (s : State) :
    LanesTested s (l.foldl f s) := by
  induction l generalizing s with
  | nil => exact lanesTested_refl s
  | cons a r ih => exact lanesTested_trans (hf s a) (ih _)

/-- What leaves the combs alone needs no look at them. -/
theorem lanesTested_of_combs {s : State} (la : Lanes) (lg : Log) (fb : Fabric) (wg : Waggle) :
    LanesTested s { s with lanes := la, log := lg, fabric := fb, waggle := wg } :=
  ⟨⟨la, lg, fb, wg, s.combs, rfl⟩, fun k => ⟨(s.comb k).svc, rfl⟩⟩

theorem lanesTested_testDirection (s : State) (b d mask : Nat) : LanesTested s (s.testDirection b d mask) := by
  rw [State.testDirection, setWidth_eq]
  exact lanesTested_of_combs ..

theorem lanesTested_isolateEdge (s : State) (e : Nat) : LanesTested s (s.isolateEdge e) := by
  have hport : ∀ (s : State) (i : Nat), LanesTested s (s.unkeyPort (16 * e + i) .dark) := fun s i => lanesTested_of_combs ..
  exact lanesTested_trans (lanesTested_of_combs ..) (lanesTested_foldl hport _ _)

theorem lanesTested_isolateComb (s : State) (c : Nat) : LanesTested s (s.isolateComb c false) := by
  refine ⟨⟨_, s.log, s.fabric, s.waggle, _, rfl⟩, fun k => ?_⟩
  by_cases hk : k = c
  · subst hk
    exact ⟨.isolated, State.comb_updComb_self s k _⟩
  · exact ⟨(s.comb k).svc, State.comb_updComb_other s _ hk⟩

theorem lanesTested_loseSense (s : State) (b d : Nat) : LanesTested s (s.loseSense b d false) := by
  have hev : LanesTested s (s.laneEvent b d 8) := lanesTested_of_combs ..
  unfold State.loseSense
  dsimp only
  split_ifs
  · exact lanesTested_trans hev (lanesTested_isolateComb ..)
  · exact hev
  · exact lanesTested_trans hev (lanesTested_isolateEdge ..)

theorem lanesTested_testBundles (s : State) (lo n : Nat) (fails : List (Nat × Nat × Nat)) : LanesTested s (s.testBundles lo n fails) := by
  refine lanesTested_trans (lanesTested_foldl (fun s b => ?_) _ s) (lanesTested_foldl (fun s b => ?_) _ _)
  · exact lanesTested_trans (lanesTested_testDirection ..) (lanesTested_testDirection ..)
  · split
    · refine lanesTested_foldl (fun s d => ?_) _ s
      split
      · exact lanesTested_loseSense ..
      · exact lanesTested_refl s
    · exact lanesTested_refl s

/-! ### The zeroed cells (R330) -/

/-- Keeping the entries of some keys: the others read as not listed. -/
theorem Tbl.look_filter_key {α : Type} (p : Nat → Bool) (t : Tbl α) (k : Nat) :
    Tbl.look (t.filter fun x => p x.1) k = if p k = true then Tbl.look t k else none := by
  induction t with
  | nil => simp
  | cons a r ih =>
    obtain ⟨i, v⟩ := a
    by_cases hi : p i = true
    · rw [List.filter_cons, if_pos hi, Tbl.look_cons, Tbl.look_cons, ih]
      by_cases hik : i = k
      · subst hik; simp [hi]
      · simp [hik]
    · rw [List.filter_cons, if_neg hi, ih, Tbl.look_cons]
      by_cases hik : i = k
      · subst hik; simp [hi]
      · simp [hik]

/-- The cells of a reservation are handed to its tenants. -/
def State.handReserved (s : State) (l : List (Nat × Nat × Bool)) : State :=
  l.foldl (fun s r => s.updCell r.1 fun x => { x with lastTen := some r.2.1 }) s

theorem handReserved_eq (l : List (Nat × Nat × Bool)) (s : State) : ∃ es, s.handReserved l = { s with cells := es } := by
  unfold State.handReserved
  induction l generalizing s with
  | nil => exact ⟨s.cells, rfl⟩
  | cons r l ih =>
    obtain ⟨es, h⟩ := ih (s.updCell r.1 fun x => { x with lastTen := some r.2.1 })
    exact ⟨es, h⟩

theorem handReserved_cons (r : Nat × Nat × Bool) (l : List (Nat × Nat × Bool)) (s : State) :
    s.handReserved (r :: l) = (s.updCell r.1 fun x => { x with lastTen := some r.2.1 }).handReserved l := rfl

theorem cell_handReserved_other {l : List (Nat × Nat × Bool)} {k : Nat} (h : k ∉ l.map (·.1)) (s : State) :
    (s.handReserved l).cell k = s.cell k := by
  induction l generalizing s with
  | nil => rfl
  | cons r l ih =>
    rw [List.map_cons, List.mem_cons, not_or] at h
    rw [handReserved_cons, ih h.2, State.cell_updCell_other s _ h.1]

theorem cell_handReserved_mem {l : List (Nat × Nat × Bool)} (hn : (l.map (·.1)).Nodup) {r : Nat × Nat × Bool} (hr : r ∈ l) (s : State) :
    (s.handReserved l).cell r.1 = { s.cell r.1 with lastTen := some r.2.1 } := by
  induction l generalizing s with
  | nil => cases hr
  | cons a l ih =>
    rw [List.map_cons, List.nodup_cons] at hn
    rw [handReserved_cons]
    rcases List.mem_cons.1 hr with rfl | hr
    · rw [cell_handReserved_other hn.1, State.cell_updCell_self]
    · have hne : r.1 ≠ a.1 := fun e => hn.1 (e ▸ List.mem_map_of_mem hr)
      rw [ih hn.2 hr, State.cell_updCell_other s _ hne]

/-- A reservation, each of its cells scrubbed. -/
def Comb.scrubbed (k : Comb) : Comb := { k with reserved := k.reserved.map fun r => (r.1, r.2.1, true) }

/-- The end of a comb's scrub: its own cells are gone from the table, those reserved are handed out. -/
theorem zeroCells_eq (s : State) (c : Nat) : s.zeroCells c =
    (State.handReserved { s with cells := s.cells.filter fun x => combOf x.1 != c } (s.comb c).reserved).updComb c
      Comb.scrubbed := rfl

/-- Only cells and the marks of a comb's reservation change. -/
theorem zeroCells_frame (s : State) (c : Nat) : ∃ es, s.zeroCells c = { s with cells := es, combs := (s.updComb c Comb.scrubbed).combs } := by
  obtain ⟨es, h⟩ := handReserved_eq (s.comb c).reserved { s with cells := s.cells.filter fun x => combOf x.1 != c }
  exact ⟨es, congrArg (State.updComb · c Comb.scrubbed) h⟩

@[simp] theorem zeroCells_segs (s : State) (c : Nat) : (s.zeroCells c).segs = s.segs := by
  obtain ⟨es, h⟩ := zeroCells_frame s c
  rw [h]

@[simp] theorem zeroCells_dram (s : State) (c : Nat) : (s.zeroCells c).dram = s.dram := by
  obtain ⟨es, h⟩ := zeroCells_frame s c
  rw [h]

@[simp] theorem zeroCells_lanes (s : State) (c : Nat) : (s.zeroCells c).lanes = s.lanes := by
  obtain ⟨es, h⟩ := zeroCells_frame s c
  rw [h]

@[simp] theorem zeroCells_now (s : State) (c : Nat) : (s.zeroCells c).now = s.now := by
  obtain ⟨es, h⟩ := zeroCells_frame s c
  rw [h]

theorem zeroCells_comb (s : State) (c : Nat) : (s.zeroCells c).comb c = (s.comb c).scrubbed := by
  obtain ⟨es, h⟩ := zeroCells_frame s c
  rw [h]
  exact State.comb_updComb_self s c Comb.scrubbed

/-- Once a comb's cells are gone from the table, they read as zero. -/
theorem cell_kept (s : State) (c k : Nat) :
    ({ s with cells := s.cells.filter fun x => combOf x.1 != c } : State).cell k = if combOf k = c then Cell.zero else s.cell k := by
  unfold State.cell Tbl.lookD
  dsimp only
  rw [Tbl.look_filter_key fun i => combOf i != c]
  by_cases h : combOf k = c <;> simp [h]

section

variable {s : State} {c : Nat} (hn : ((s.comb c).reserved.map (·.1)).Nodup) (hr : ∀ r ∈ (s.comb c).reserved, combOf r.1 = c)

include hr in
theorem cell_zeroCells_other {k : Nat} (hk : combOf k ≠ c) : (s.zeroCells c).cell k = s.cell k := by
  have hm : k ∉ (s.comb c).reserved.map (·.1) := by
    rintro hk'
    obtain ⟨r, hr', rfl⟩ := List.mem_map.1 hk'
    exact hk (hr r hr')
  rw [zeroCells_eq, State.updComb_cell_entry, cell_handReserved_other hm, cell_kept, if_neg hk]

include hn hr in
theorem cell_zeroCells_reserved {r : Nat × Nat × Bool} (h : r ∈ (s.comb c).reserved) :
    (s.zeroCells c).cell r.1 = { Cell.zero with lastTen := some r.2.1 } := by
  rw [zeroCells_eq, State.updComb_cell_entry, cell_handReserved_mem hn h, cell_kept, if_pos (hr r h)]

include hn hr in
theorem zeroed_zeroCells {k : Nat} (hk : combOf k = c) : Zeroed ((s.zeroCells c).cell k) := by
  by_cases hm : k ∈ (s.comb c).reserved.map (·.1)
  · obtain ⟨r, h, rfl⟩ := List.mem_map.1 hm
    rw [cell_zeroCells_reserved hn hr h]
    exact ⟨rfl, rfl, rfl, rfl, rfl⟩
  · rw [zeroCells_eq, State.updComb_cell_entry, cell_handReserved_other hm, cell_kept, if_pos hk]
    exact ⟨rfl, rfl, rfl, rfl, rfl⟩

end

/-! ### COMB_RESET_COMPLETE (R346) -/

/-- Without a yielded run on the comb nothing moves. -/
theorem moveYielded_of_none {s : State} {c : Nat} (h : ∀ g ∈ s.segs, g.comb = c → g.phase ≠ .yielded) : s.moveYielded c = s := by
  have hf : (s.segs.filter fun g => g.comb == c && g.phase == .yielded) = [] := by
    rw [List.filter_eq_nil_iff]
    intro g hg hp
    rw [Bool.and_eq_true, beq_iff_eq, beq_iff_eq] at hp
    exact h g hg hp.1 hp.2
  unfold State.moveYielded
  rw [hf]
  rfl

/-- A comb as its reset leaves it. -/
def Comb.returned (k : Comb) (isolated : Bool) (now : Nat) : Comb :=
  { k.reloadPins with
    svc := if isolated = true then .isolated else if 3 ≤ k.faults then .outUntilStart else .inService
    suspended := false, rest := false, idleSince := now, seeded := false, drawn := 0, stopped := [none, none, none, none] }

/-- The state that the end of a reset leaves, z being the state after the lane test. -/
def State.combReturned (z : State) (c : Nat) : State :=
  ((z.zeroCells c).updComb c fun k => k.returned ((z.zeroCells c).lanes.combIsolated.contains c) (z.zeroCells c).now).logRec
    Rec.boundSuspended 2 Rec.deviceWide c 1 0

@[simp] theorem combReturned_segs (z : State) (c : Nat) : (z.combReturned c).segs = z.segs := zeroCells_segs z c
@[simp] theorem combReturned_dram (z : State) (c : Nat) : (z.combReturned c).dram = z.dram := zeroCells_dram z c
@[simp] theorem combReturned_lanes (z : State) (c : Nat) : (z.combReturned c).lanes = z.lanes := zeroCells_lanes z c
theorem combReturned_cell (z : State) (c k : Nat) : (z.combReturned c).cell k = (z.zeroCells c).cell k := by
  unfold State.combReturned
  rw [logRec_deviceWide]
  rfl

theorem combReturned_comb (z : State) (c : Nat) :
    (z.combReturned c).comb c = (z.comb c).scrubbed.returned (z.lanes.combIsolated.contains c) z.now := by
  rw [← zeroCells_comb, ← zeroCells_lanes z c, ← zeroCells_now z c]
  exact State.comb_updComb_self (z.zeroCells c) c fun k => k.returned _ _

theorem combResetComplete_eq {t c : Nat} (fails : List (Nat × Nat × Nat)) {s : State} (hoff : s.power.off = false) (hs : (s.comb c).svc = .resetting)
    (hy : ∀ g ∈ s.segs, g.comb = c → g.phase ≠ .yielded) :
    ∃ z, LanesTested (s.advance t) z ∧ exec (.combResetComplete t c fails) s = .next (settled t s (z.combReturned c)) := by
  obtain ⟨z, hdef⟩ : ∃ z, (combBundles c).foldl (fun s b => s.testBundles b.1 b.2 fails) (s.advance t) = z := ⟨_, rfl⟩
  have hz : LanesTested (s.advance t) z := hdef ▸ lanesTested_foldl (fun s (b : Nat × Nat) => lanesTested_testBundles s b.1 b.2 fails) _ _
  have hmove : (z.combReturned c).moveYielded c = z.combReturned c := by
    obtain ⟨⟨_, _, _, _, _, rfl⟩, -⟩ := hz
    exact moveYielded_of_none (by rw [combReturned_segs]; exact hy)
  refine ⟨z, hz, run_eq hoff ((if_pos (by simp [hs])).trans ?_)⟩
  dsimp only
  rw [hdef]
  change (if ((z.combReturned c).comb c).svc = .inService then z.combReturned c else (z.combReturned c).moveYielded c) = z.combReturned c
  rw [hmove, ite_self]

/-- COMB_RESET_COMPLETE of a comb without a yielded run. -/
theorem combResetComplete_returns {t c : Nat} (fails : List (Nat × Nat × Nat)) {s : State} (hoff : s.power.off = false) (hs : (s.comb c).svc = .resetting)
    (hy : ∀ g ∈ s.segs, g.comb = c → g.phase ≠ .yielded) (hn : ((s.comb c).reserved.map (·.1)).Nodup)
    (hr : ∀ r ∈ (s.comb c).reserved, combOf r.1 = c) :
    ∃ s', exec (.combResetComplete t c fails) s = .next s' ∧
      s'.comb c = (s.comb c).scrubbed.returned (s'.lanes.combIsolated.contains c) (max s.now t) ∧
      (∀ k, combOf k = c → Zeroed (s'.cell k)) ∧ (∀ r ∈ (s.comb c).reserved, (s'.cell r.1).lastTen = some r.2.1) ∧
      (∀ k, combOf k ≠ c → s'.cell k = s.cell k) ∧ s'.segs = s.segs ∧ s'.dram = s.dram := by
  obtain ⟨z, hz, he⟩ := combResetComplete_eq (t := t) fails hoff hs hy
  obtain ⟨⟨_, _, _, _, _, hz'⟩, hk⟩ := hz
  obtain ⟨v, hv⟩ := hk c
  have hres : (z.comb c).reserved = (s.comb c).reserved := by rw [hv]; rfl
  rw [← hres] at hn hr ⊢
  have hcell : ∀ k, z.cell k = s.cell k := by rw [hz']; exact fun _ => rfl
  refine ⟨_, he, ?_, fun k h => ?_, fun r h => ?_, fun k h => ?_, ?_, ?_⟩
  · rw [settled_comb, settled_lanes, combReturned_comb, combReturned_lanes, hv, hz']
    rfl
  · rw [settled_cell, combReturned_cell]
    exact zeroed_zeroCells hn hr h
  · rw [settled_cell, combReturned_cell, cell_zeroCells_reserved hn hr h]
  · rw [settled_cell, combReturned_cell, cell_zeroCells_other hr h, hcell]
  · rw [settled_segs, combReturned_segs, hz']
    rfl
  · rw [settled_dram, combReturned_dram, hz']
    rfl

/-- Settles O46: each lane command acts on its own direction until the last of a sense is lost, and a comb's reset takes its lane test, then zeroes its cells and returns it. -/
theorem lanesAndCombReset : Obligations.LanesAndCombReset := by
  refine ⟨fun t b d s hoff hb hd huse => ⟨flitReplay_counts hoff hb hd huse, fun hmany => ⟨laneRetrain_retrains hoff hb hd huse hmany,
    laneRetrain_fails hoff hb hd huse hmany⟩⟩, fun t b d mask s hoff _ _ hr => ⟨retrainTestDone_resumes hoff hr, fun ho hf hb hl _ =>
    retrainTestDone_drains hoff hr ho hf hb hl⟩, fun t c fails s hoff hs hy hn hr => ?_⟩
  obtain ⟨s', he, hcomb, hzero, hten, hother, hsegs, hdram⟩ := combResetComplete_returns (t := t) fails hoff hs hy hn hr
  refine ⟨s', he, by rw [hcomb]; rfl, by rw [hcomb]; rfl, by rw [hcomb]; rfl, by rw [hcomb]; rfl, by rw [hcomb]; rfl, by rw [hcomb]; rfl, hzero,
    fun r h => ⟨hten r h, ?_⟩, hother, hsegs, hdram⟩
  rw [hcomb]
  exact List.mem_map_of_mem (f := fun r : Nat × Nat × Bool => (r.1, r.2.1, true)) h

end Sys2Proof.Machine
end

section
/-! Settles O47 (R44, R113, R348 to R351): errors of the device DRAM, and the scrub of freed pages. -/

namespace Sys2Proof.Machine

open Sys2Proof.Safety

/-! ### Tables with keys of their own, and tables changed entry by entry -/

theorem Tbl.mem_of_look {α : Type} {t : Tbl α} {k : Nat} {v : α} (h : Tbl.look t k = some v) : (k, v) ∈ t := by
  induction t with
  | nil => cases h
  | cons a r ih =>
    obtain ⟨i, w⟩ := a
    rw [Tbl.look_cons] at h
    by_cases hik : i = k
    · rw [if_pos hik, Option.some.injEq] at h
      rw [hik, h]
      exact List.mem_cons_self
    · rw [if_neg hik] at h
      exact List.mem_cons_of_mem _ (ih h)

theorem Tbl.look_of_mem {α : Type} {t : Tbl α} (hn : (t.map (·.1)).Nodup) {x : Nat × α} (hx : x ∈ t) : Tbl.look t x.1 = some x.2 := by
  induction t with
  | nil => cases hx
  | cons a r ih =>
    rw [List.map_cons, List.nodup_cons] at hn
    rcases List.mem_cons.1 hx with rfl | hx
    · exact if_pos rfl
    · have hne : a.1 ≠ x.1 := fun e => hn.1 (e ▸ List.mem_map_of_mem hx)
      exact (if_neg hne).trans (ih hn.2 hx)

/-- A change of every entry, which may depend on its key. -/
theorem Tbl.look_mapKey {α β : Type} (t : Tbl α) (f : Nat → α → β) (k : Nat) :
    Tbl.look (t.map fun c => (c.1, f c.1 c.2)) k = (Tbl.look t k).map (f k) := by
  induction t with
  | nil => rfl
  | cons a r ih =>
    obtain ⟨i, w⟩ := a
    rw [List.map_cons, Tbl.look_cons, Tbl.look_cons, ih]
    by_cases hik : i = k
    · rw [if_pos hik, if_pos hik, hik]
      rfl
    · rw [if_neg hik, if_neg hik]

/-! ### Which EVALs an error fails -/

/-- Commands with numbers of their own: each is found by its number. -/
theorem find_of_seq_nodup {l : List Cmd} (hn : (l.map (·.seq)).Nodup) {c : Cmd} (hc : c ∈ l) : l.find? (fun x => x.seq == c.seq) = some c := by
  induction l with
  | nil => cases hc
  | cons a r ih =>
    rw [List.map_cons, List.nodup_cons] at hn
    rcases List.mem_cons.1 hc with rfl | hc
    · exact List.find?_cons_of_pos (by simp)
    · have hne : a.seq ≠ c.seq := fun e => hn.1 (e ▸ List.mem_map_of_mem hc)
      rw [List.find?_cons_of_neg (by simpa using hne), ih hn.2 hc]

/-- The started EVALs of a tenant that a test picks, by ring and number. -/
def State.evalsOf (s : State) (ten : Nat) (p : Eval → Bool) : List (Nat × Nat) :=
  s.rings.flatMap fun r => if r.1 / 256 = ten then (r.2.cmds.filter fun c => c.phase == .started && c.eval.any p).map fun c => (r.1 % 256, c.seq) else []

/-- They fail one after the other. -/
theorem failEvals_eq (s : State) (ten : Nat) (p : Eval → Bool) :
    s.failEvals ten p = (s.evalsOf ten p).foldl (fun s x => s.failEval ten x.1 x.2 (St.memoryUncorrectable, 0)) s := by
  unfold State.failEvals State.evalsOf
  rw [List.foldl_flatMap]
  congr 1
  funext s r
  split
  · rw [List.foldl_map, List.foldl_filter]
  · rfl

theorem lring_lt_of_mem_evalsOf {s : State} {ten : Nat} {p : Eval → Bool} {x : Nat × Nat} (h : x ∈ s.evalsOf ten p) : x.1 < 256 := by
  obtain ⟨r, -, hx⟩ := List.mem_flatMap.1 h
  split at hx
  · obtain ⟨c, -, rfl⟩ := List.mem_map.1 hx
    exact Nat.mod_lt _ (by decide)
  · cases hx

/-- Where rings and commands have names of their own, those are the commands that reading finds. -/
theorem mem_evalsOf_iff {s : State} (hn : RingsNamed s) (ten : Nat) (p : Eval → Bool) {l : Nat} (hl : l < 256) (q : Nat) :
    (l, q) ∈ s.evalsOf ten p ↔ ∃ c v, s.cmd? ten l q = some c ∧ c.phase = .started ∧ c.eval = some v ∧ p v = true := by
  obtain ⟨hkeys, hseqs⟩ := hn
  constructor
  · intro h
    obtain ⟨r, hr, hx⟩ := List.mem_flatMap.1 h
    split at hx
    case isTrue hten =>
      obtain ⟨c, hc, he⟩ := List.mem_map.1 hx
      obtain ⟨hc, hp⟩ := List.mem_filter.1 hc
      simp only [Bool.and_eq_true, beq_iff_eq, Option.any_eq_true] at hp
      obtain ⟨hstart, v, hv, hpv⟩ := hp
      obtain ⟨rfl, rfl⟩ := Prod.mk.inj he
      have hk : ringKey ten (r.1 % 256) = r.1 := by rw [ringKey, ← hten]; omega
      have hring : s.ring ten (r.1 % 256) = r.2 := by
        unfold State.ring Tbl.lookD
        rw [hk, Tbl.look_of_mem hkeys hr]
        rfl
      refine ⟨c, v, ?_, hstart, hv, hpv⟩
      unfold State.cmd?
      rw [hring, find_of_seq_nodup (hseqs r hr) hc]
    case isFalse => cases hx
  · rintro ⟨c, v, hc, hstart, hv, hpv⟩
    have hmem := List.mem_of_find?_eq_some hc
    cases hlook : Tbl.look s.rings (ringKey ten l) with
    | none =>
      have : s.ring ten l = Ring.fresh := by unfold State.ring Tbl.lookD; rw [hlook]; rfl
      rw [this] at hmem
      cases hmem
    | some r =>
      have hring : s.ring ten l = r := by unfold State.ring Tbl.lookD; rw [hlook]; rfl
      rw [hring] at hmem
      refine List.mem_flatMap.2 ⟨_, Tbl.mem_of_look hlook, ?_⟩
      have h1 : ringKey ten l / 256 = ten := by unfold ringKey; omega
      have h2 : ringKey ten l % 256 = l := by unfold ringKey; omega
      rw [if_pos h1, h2]
      refine List.mem_map.2 ⟨c, List.mem_filter.2 ⟨hmem, ?_⟩, by rw [State.cmd_seq hc]⟩
      simp [hstart, hv, hpv]

/-! ### What the failures leave -/

/-- What a failure with ST_MEMORY_UNCORRECTABLE leaves of an evaluation. -/
def MemoryFailed (v v' : Eval) : Prop := v'.failed = some (v.failed.getD (St.memoryUncorrectable, 0)) ∧ v'.attempt = none ∧ v'.sends = []

theorem memoryFailed_trans {v w x : Eval} (h : MemoryFailed v w) (g : MemoryFailed w x) : MemoryFailed v x :=
  ⟨by rw [g.1, h.1]; rfl, g.2⟩

theorem evalOf_failEval_self {s : State} {ten l q : Nat} {v : Eval} (h : evalOf s ten l q = some v) :
    ∃ v', evalOf (s.failEval ten l q (St.memoryUncorrectable, 0)) ten l q = some v' ∧ MemoryFailed v v' := by
  obtain ⟨cs, es, hf⟩ := failEval_eq s ten l q (St.memoryUncorrectable, 0)
  rw [hf]
  refine ⟨_, (evalOf_updEval s ten l q _).trans (congrArg _ h), rfl, rfl, rfl⟩

theorem ringKey_inj {ten l l' : Nat} (h : ringKey ten l = ringKey ten l') : l = l' := by
  unfold ringKey at h
  omega

theorem evalOf_updEval_other (s : State) {ten l q : Nat} {x : Nat × Nat} (f : Eval → Eval) (h : (l, q) ≠ x) :
    evalOf (s.updEval ten x.1 x.2 f) ten l q = evalOf s ten l q := by
  unfold evalOf State.updEval
  congr 1
  by_cases hl : l = x.1
  · subst hl
    exact cmd_updCmd_other s _ (fun _ => rfl) fun hq => h (Prod.ext rfl hq)
  · exact cmd_updRing_other s _ fun hk => hl (ringKey_inj hk)

theorem evalOf_failEval_other (s : State) {ten l q : Nat} {x : Nat × Nat} (e : Err) (h : (l, q) ≠ x) :
    evalOf (s.failEval ten x.1 x.2 e) ten l q = evalOf s ten l q := by
  obtain ⟨cs, es, hf⟩ := failEval_eq s ten x.1 x.2 e
  rw [hf]
  exact evalOf_updEval_other s _ h

theorem look_failEval_other (s : State) {ten k : Nat} {x : Nat × Nat} (e : Err) (hx : x.1 < 256) (hk : k / 256 ≠ ten) :
    Tbl.look (s.failEval ten x.1 x.2 e).rings k = Tbl.look s.rings k := by
  obtain ⟨cs, es, hf⟩ := failEval_eq s ten x.1 x.2 e
  rw [hf]
  refine sameBut_updCmd s ten x.1 x.2 _ k fun h => hk ?_
  rw [h, ringKey]
  omega

section

variable {ten : Nat} {L : List (Nat × Nat)}

/-- Failures of listed commands, in order. -/
def State.failListed (s : State) (ten : Nat) (L : List (Nat × Nat)) : State :=
  L.foldl (fun s x => s.failEval ten x.1 x.2 (St.memoryUncorrectable, 0)) s

theorem evalOf_failListed_other {l q : Nat} (h : (l, q) ∉ L) (s : State) : evalOf (s.failListed ten L) ten l q = evalOf s ten l q := by
  induction L generalizing s with
  | nil => rfl
  | cons x r ih =>
    rw [List.mem_cons, not_or] at h
    exact (ih h.2 _).trans (evalOf_failEval_other s _ h.1)

theorem evalOf_failListed_mem {l q : Nat} (h : (l, q) ∈ L) {s : State} {v : Eval} (hv : evalOf s ten l q = some v) :
    ∃ v', evalOf (s.failListed ten L) ten l q = some v' ∧ MemoryFailed v v' := by
  induction L generalizing s v with
  | nil => cases h
  | cons x r ih =>
    by_cases hx : (l, q) = x
    · subst hx
      obtain ⟨w, hw, hf⟩ := evalOf_failEval_self hv
      by_cases hr : (l, q) ∈ r
      · obtain ⟨v', hv', hf'⟩ := ih hr hw
        exact ⟨v', hv', memoryFailed_trans hf hf'⟩
      · exact ⟨w, (evalOf_failListed_other hr _).trans hw, hf⟩
    · exact ih ((List.mem_cons.1 h).resolve_left hx) ((evalOf_failEval_other s _ hx).trans hv)

theorem look_failListed_other (hL : ∀ x ∈ L, x.1 < 256) {k : Nat} (hk : k / 256 ≠ ten) (s : State) :
    Tbl.look (s.failListed ten L).rings k = Tbl.look s.rings k := by
  induction L generalizing s with
  | nil => rfl
  | cons x r ih =>
    exact (ih (fun y hy => hL y (List.mem_cons_of_mem _ hy)) _).trans (look_failEval_other s _ (hL x List.mem_cons_self) hk)

/-- Failures change rings, runs, and the cells and shelves that these held; nothing else. -/
theorem failListed_frame (s : State) : ∃ rs cs es gs, s.failListed ten L = { s with rings := rs, combs := cs, cells := es, segs := gs } := by
  induction L generalizing s with
  | nil => exact ⟨s.rings, s.combs, s.cells, s.segs, rfl⟩
  | cons x r ih =>
    obtain ⟨cs, es, hf⟩ := failEval_eq s ten x.1 x.2 (St.memoryUncorrectable, 0)
    obtain ⟨rs', cs', es', gs', h⟩ := ih (s.failEval ten x.1 x.2 (St.memoryUncorrectable, 0))
    exact ⟨rs', cs', es', gs', by rw [State.failListed, List.foldl_cons, ← State.failListed, h, hf]; rfl⟩

end

theorem failEvals_frame (s : State) (ten : Nat) (p : Eval → Bool) :
    ∃ rs cs es gs, s.failEvals ten p = { s with rings := rs, combs := cs, cells := es, segs := gs } := by
  rw [failEvals_eq]
  exact failListed_frame s

/-- Exactly the picked EVALs fail. -/
theorem evalsFail_failEvals {s z y : State} (hn : RingsNamed s) (hz : z.rings = s.rings) {ten : Nat} {p : Eval → Bool} {P : Eval → Prop}
    (hP : ∀ v, p v = true ↔ P v) (hy : y.rings = (z.failEvals ten p).rings) : EvalsFail s y ten P := by
  have hnz : RingsNamed z := by rwa [RingsNamed, hz]
  have hcmd : ∀ l q, z.cmd? ten l q = s.cmd? ten l q := fun l q => by unfold State.cmd? State.ring; rw [hz]
  have heval : ∀ l q, evalOf z ten l q = evalOf s ten l q := fun l q => by unfold evalOf; rw [hcmd]
  have hout : ∀ l q, evalOf y ten l q = evalOf (z.failListed ten (z.evalsOf ten p)) ten l q := fun l q => by
    unfold evalOf State.cmd? State.ring
    rw [hy, failEvals_eq]
    rfl
  refine ⟨fun l q c v hl hc hstart hv hpv => ?_, fun l q hl hno => ?_, fun k hk => ?_⟩
  · have hmem : (l, q) ∈ z.evalsOf ten p := (mem_evalsOf_iff hnz ten p hl q).2 ⟨c, v, (hcmd l q).trans hc, hstart, hv, (hP v).2 hpv⟩
    have hev : evalOf z ten l q = some v := by rw [heval, evalOf, hc]; exact hv
    rw [hout]
    exact evalOf_failListed_mem hmem hev
  · have hmem : (l, q) ∉ z.evalsOf ten p := fun h => by
      obtain ⟨c, v, hc, hstart, hv, hpv⟩ := (mem_evalsOf_iff hnz ten p hl q).1 h
      exact hno c v ((hcmd l q).symm.trans hc) hstart hv ((hP v).1 hpv)
    rw [hout, evalOf_failListed_other hmem, heval]
  · rw [hy, failEvals_eq, ← hz]
    exact look_failListed_other (fun x hx => lring_lt_of_mem_evalsOf hx) hk z

/-! ### The count and the record of an error (R44, R351) -/

theorem sameObjects_refl (s : State) (k : Nat) : SameObjects s s k := ⟨(s.ten k).view, rfl⟩

theorem sameObjects_trans {s z y : State} {k : Nat} (h : SameObjects s z k) (g : SameObjects z y k) : SameObjects s y k := by
  obtain ⟨_, h⟩ := h
  obtain ⟨v, g⟩ := g
  exact ⟨v, by rw [g, h]⟩

theorem sameObjects_updTen_other (s : State) {a k : Nat} (f : Tenant → Tenant) (h : k ≠ a) : SameObjects s (s.updTen a f) k :=
  ⟨(s.ten k).view, State.ten_updTen_other s f h⟩

/-- A record enters views of the log; no object changes. -/
theorem sameObjects_logRec (s : State) (type flags ten source arg0 arg1 k : Nat) : SameObjects s (s.logRec type flags ten source arg0 arg1) k := by
  unfold State.logRec State.logBoth
  dsimp only
  split
  · by_cases hk : k = ten
    · subst hk
      exact ⟨_, State.ten_updTen_self { s with log := _ } k _⟩
    · exact sameObjects_updTen_other { s with log := _ } _ hk
  · exact sameObjects_refl s k

/-- From s to z an uncorrectable error has been noted: some free values taken, the error counted and logged for a tenant, no object changed. -/
structure UeNoted (s z : State) (ten dpa : Nat) : Prop where
  frame : ∃ fr tn lg, z = { s with free := fr, tenants := tn, log := lg }
  objects : ∀ k, SameObjects s z k
  log : ∃ v, z.log = ({ s.log with dramUe := capAt 0xFFFF (s.log.dramUe + 1) } : Log).add
    { type := Rec.dramUe, flags := 0, ten := ten, source := (stackOf s.dram.localGib dpa).1, waggle := s.now, arg0 := dpa, arg1 := v }

theorem logUncorrectable_frame (s : State) (ten dpa : Nat) :
    ∃ tn, s.logUncorrectable ten dpa = { s with free := s.free + 1, tenants := tn, log := (s.logUncorrectable ten dpa).log } := by
  obtain ⟨tn, h⟩ := logRec_eq { s with free := s.free + 1, log := { s.log with dramUe := capAt 0xFFFF (s.log.dramUe + 1) } }
    Rec.dramUe 0 ten (stackOf s.dram.localGib dpa).1 dpa (Config.freeValue s.free % 2 ^ 64)
  refine ⟨tn, Eq.trans h ?_⟩
  rw [show (s.logUncorrectable ten dpa).log = _ from congrArg State.log h]

theorem ueNoted_logUncorrectable (s : State) (ten dpa : Nat) : UeNoted s (s.logUncorrectable ten dpa) ten dpa := by
  refine ⟨?_, fun k => ?_, ?_⟩
  · obtain ⟨tn, h⟩ := logUncorrectable_frame s ten dpa
    exact ⟨_, tn, _, h⟩
  · exact sameObjects_logRec { s with free := s.free + 1, log := { s.log with dramUe := capAt 0xFFFF (s.log.dramUe + 1) } } ..
  · obtain ⟨tn, h⟩ := logRec_eq { s with free := s.free + 1, log := { s.log with dramUe := capAt 0xFFFF (s.log.dramUe + 1) } }
      Rec.dramUe 0 ten (stackOf s.dram.localGib dpa).1 dpa (Config.freeValue s.free % 2 ^ 64)
    exact ⟨_, congrArg State.log h⟩

/-- Taking a free value first is no difference. -/
theorem ueNoted_takeFree (s : State) (ten dpa : Nat) : UeNoted s (s.takeFree.2.logUncorrectable ten dpa) ten dpa := by
  obtain ⟨hf, ho, hl⟩ := ueNoted_logUncorrectable s.takeFree.2 ten dpa
  exact ⟨hf, ho, hl⟩

section

variable {s y w : State} {t ten dpa : Nat} (hy : UeNoted (s.advance t) y ten dpa)
include hy

theorem UeNoted.same : y.rings = s.rings ∧ y.segs = s.segs ∧ y.dram = s.dram ∧ y.settings = s.settings := by
  obtain ⟨_, _, _, h⟩ := hy.frame
  rw [h]
  exact ⟨rfl, rfl, rfl, rfl⟩

theorem ueLogged_settled (hw : w.log = y.log) : UeLogged s (settled t s w) t ten dpa := by
  obtain ⟨v, hv⟩ := hy.log
  exact ⟨v, hw.trans hv⟩

end

/-! ### What an error does to an object (R348, R349) -/

/-- The key sets of a tenant that lie in an object are invalidated. -/
def invalidateKeysets (id : Nat) (x : Tenant) : Tenant :=
  { x with keysets := x.keysets.map fun k => (k.1, if k.2.obj = id then { k.2 with invalid := true } else k.2) }

/-- The generations of a tenant that lie in an object are damaged. -/
def damageGens (id : Nat) (x : Tenant) : Tenant :=
  { x with models := x.models.map fun m => (m.1, { m.2 with gens := m.2.gens.map (markDamaged id), loading := m.2.loading.map (markDamaged id) }) }

/-- An EVAL uses a key set of the tenant that lies in an object. -/
def usesKeys (x : Tenant) (id : Nat) (v : Eval) : Bool := ((x.keysets.filter fun k => k.2.obj == id).map (·.1)).contains v.keyset

/-- An EVAL uses a ready generation of the tenant that lies in an object. -/
def usesGen (x : Tenant) (id : Nat) (v : Eval) : Bool :=
  (x.models.flatMap fun m => (m.2.gens.filter fun g => g.2.obj == id).map fun g => (m.1, g.1)).contains (v.model, v.gen)

theorem look_invalidateKeysets (id : Nat) (x : Tenant) (k : Nat) :
    Tbl.look (invalidateKeysets id x).keysets k = (Tbl.look x.keysets k).map fun y => if y.obj = id then { y with invalid := true } else y :=
  look_map (β := KeySet) x.keysets (fun y => if y.obj = id then { y with invalid := true } else y) k

theorem look_damageGens (id : Nat) (x : Tenant) (k : Nat) :
    Tbl.look (damageGens id x).models k =
      (Tbl.look x.models k).map fun m => { m with gens := m.gens.map (markDamaged id), loading := m.loading.map (markDamaged id) } :=
  look_map (β := Model) x.models (fun m => { m with gens := m.gens.map (markDamaged id), loading := m.loading.map (markDamaged id) }) k

/-- Gateway slots by a test of their number and content. -/
theorem look_invalidateGw (hit : Nat → GwSlot → Bool) (x : Tenant) (k : Nat) :
    Tbl.look (invalidateGw hit x).gwSlots k = (Tbl.look x.gwSlots k).map fun g => if hit k g = true then { g with invalid := true } else g :=
  Tbl.look_mapKey (β := GwSlot) x.gwSlots (fun i g => if hit i g = true then { g with invalid := true } else g) k

theorem usesKeys_iff (x : Tenant) (id : Nat) (v : Eval) : usesKeys x id v = true ↔ ∃ k, (v.keyset, k) ∈ x.keysets ∧ k.obj = id := by
  simp [usesKeys]

theorem usesGen_iff (x : Tenant) (id : Nat) (v : Eval) :
    usesGen x id v = true ↔ ∃ m g, (v.model, m) ∈ x.models ∧ (v.gen, g) ∈ m.gens ∧ g.obj = id := by
  simp [usesGen]

theorem hitKeysets_eq (s : State) (ten id : Nat) :
    s.hitKeysets ten id = (s.updTen ten (invalidateKeysets id)).failEvals ten (usesKeys (s.ten ten) id) := rfl

theorem hitWeights_eq (s : State) (ten id : Nat) :
    s.hitWeights ten id = (s.updTen ten (damageGens id)).failEvals ten (usesGen (s.ten ten) id) := rfl

theorem ten_failEvals (s : State) (ten : Nat) (p : Eval → Bool) (k : Nat) : (s.failEvals ten p).ten k = s.ten k := by
  obtain ⟨_, _, _, _, h⟩ := failEvals_frame s ten p
  rw [h]
  rfl

/-- An error in an object poisons its blocks and logs nothing more. -/
theorem hitObject_keeps (y : State) (id : Nat) (o : DramObj) (bs : List Nat) :
    (y.hitObject id o bs).log = y.log ∧ (y.hitObject id o bs).dram = y.dram.poisonBlocks bs := by
  unfold State.hitObject
  dsimp only
  split
  · rw [hitKeysets_eq]
    obtain ⟨_, _, _, _, h⟩ := failEvals_frame (({ y with dram := y.dram.poisonBlocks bs } : State).updTen o.ten (invalidateKeysets id)) o.ten
      (usesKeys (({ y with dram := y.dram.poisonBlocks bs } : State).ten o.ten) id)
    rw [h]
    exact ⟨rfl, rfl⟩
  · rw [hitWeights_eq]
    obtain ⟨_, _, _, _, h⟩ := failEvals_frame (({ y with dram := y.dram.poisonBlocks bs } : State).updTen o.ten (damageGens id)) o.ten
      (usesGen (({ y with dram := y.dram.poisonBlocks bs } : State).ten o.ten) id)
    rw [h]
    exact ⟨rfl, rfl⟩
  · exact ⟨rfl, rfl⟩
  · exact ⟨rfl, rfl⟩

theorem poisons_settled {s w : State} {t : Nat} {bs : List Nat} (h : w.dram = s.dram.poisonBlocks bs) : Poisons s (settled t s w) bs := by
  refine ⟨fun b => ?_, ?_⟩
  · rw [settled_dram, h]
    by_cases hb : b ∈ s.dram.poison <;> simp [Dram.poisonBlocks, hb]
  · rw [settled_dram, h]
    rfl

/-- The changes of R349, by the kind of the object. -/
theorem objectHit_hitObject {s y : State} (t id : Nat) (o : DramObj) (bs : List Nat) (hn : RingsNamed s) (hr : y.rings = s.rings) (hs : y.segs = s.segs)
    (ho : ∀ k, SameObjects s y k) : ObjectHit s (settled t s (y.hitObject id o bs)) id o := by
  obtain ⟨v, hv⟩ := ho o.ten
  obtain ⟨z, hz⟩ : ∃ z : State, z = { y with dram := y.dram.poisonBlocks bs } := ⟨_, rfl⟩
  have hzr : z.rings = s.rings := by rw [hz]; exact hr
  have hzs : z.segs = s.segs := by rw [hz]; exact hs
  have hzv : z.ten o.ten = { s.ten o.ten with view := v } := by rw [hz]; exact hv
  have hzo : ∀ k, SameObjects s z k := by rw [hz]; exact ho
  have hother : ∀ f k, k ≠ o.ten → SameObjects s (z.updTen o.ten f) k := fun f k hk => sameObjects_trans (hzo k) (sameObjects_updTen_other z f hk)
  have hown : ∀ f, (z.updTen o.ten f).ten o.ten = f { s.ten o.ten with view := v } := fun f => by rw [State.ten_updTen_self, hzv]
  unfold ObjectHit State.hitObject
  rw [← hz]
  cases hkind : o.kind with
  | arena => exact ⟨fun k _ => hzo k, hzo o.ten, hzr, hzs⟩
  | keyset =>
    dsimp only
    rw [hitKeysets_eq]
    refine ⟨fun k hk => ?_, ⟨v, (invalidateKeysets id (s.ten o.ten)).keysets, (ten_failEvals ..).trans (hown _), look_invalidateKeysets id _⟩, ?_⟩
    · obtain ⟨x, hx⟩ := hother (invalidateKeysets id) k hk
      exact ⟨x, (ten_failEvals ..).trans hx⟩
    · refine evalsFail_failEvals hn (z := z.updTen o.ten (invalidateKeysets id)) hzr (fun e => ?_) rfl
      rw [usesKeys_iff, hzv]
  | weights =>
    dsimp only
    rw [hitWeights_eq]
    refine ⟨fun k hk => ?_, ⟨v, (damageGens id (s.ten o.ten)).models, (ten_failEvals ..).trans (hown _), look_damageGens id _⟩, ?_⟩
    · obtain ⟨x, hx⟩ := hother (damageGens id) k hk
      exact ⟨x, (ten_failEvals ..).trans hx⟩
    · refine evalsFail_failEvals hn (z := z.updTen o.ten (damageGens id)) hzr (fun e => ?_) rfl
      rw [usesGen_iff, hzv]
  | gateway =>
    refine ⟨hother _, ⟨v, (invalidateGw (fun _ g => g.obj == id) (s.ten o.ten)).gwSlots, hown _, fun k => ?_⟩, hzr, hzs⟩
    rw [look_invalidateGw]
    simp only [beq_iff_eq]

/-- One key slot of a tenant is invalidated. -/
def invalidateKeySlot (slot : Nat) (x : Tenant) : Tenant :=
  { x with keySlots := x.keySlots.map fun k => (k.1, if k.1 = slot then { k.2 with invalid := true } else k.2) }

theorem look_invalidateKeySlot (slot : Nat) (x : Tenant) (k : Nat) :
    Tbl.look (invalidateKeySlot slot x).keySlots k = (Tbl.look x.keySlots k).map fun g => if k = slot then { g with invalid := true } else g :=
  Tbl.look_mapKey (β := KeySlot) x.keySlots (fun i g => if i = slot then { g with invalid := true } else g) k

/-- An error in a slot changes its tenant's slots only. -/
theorem slot_shows {ten dpa : Nat} {y : State} (hy : UeNoted (s.advance t) y ten dpa) (f : Tenant → Tenant) :
    UeLogged s (settled t s (y.updTen ten f)) t ten dpa ∧ (∀ k, k ≠ ten → SameObjects s (settled t s (y.updTen ten f)) k) ∧
      ∃ v, (settled t s (y.updTen ten f)).ten ten = f { s.ten ten with view := v } := by
  obtain ⟨v, hv⟩ := hy.objects ten
  refine ⟨ueLogged_settled hy rfl, fun k hk => sameObjects_trans (hy.objects k) (sameObjects_updTen_other y f hk), v, ?_⟩
  rw [settled_ten, State.ten_updTen_self, hv]
  rfl

/-! ### The commands -/

/-- A noted error that hits an object: what the log, the poison and the object show. -/
theorem hitObject_shows {s y : State} {t ten dpa : Nat} (id : Nat) (o : DramObj) (bs : List Nat) (hn : RingsNamed s) (hy : UeNoted (s.advance t) y ten dpa) :
    UeLogged s (settled t s (y.hitObject id o bs)) t ten dpa ∧ Poisons s (settled t s (y.hitObject id o bs)) bs ∧
      ObjectHit s (settled t s (y.hitObject id o bs)) id o := by
  obtain ⟨hr, hs, hd, -⟩ := hy.same
  obtain ⟨hlog, hdram⟩ := hitObject_keeps y id o bs
  exact ⟨ueLogged_settled hy hlog, poisons_settled (by rw [hdram, hd]), objectHit_hitObject t id o bs hn hr hs hy.objects⟩

section

variable {t : Nat} {s : State} (hoff : s.power.off = false)
include hoff

/-- DRAM_CORRECTED (R44, R351). -/
theorem dramCorrected_logs {dpa : Nat} (hdpa : dpa < dramPages * pageBytes) :
    ∃ s', exec (.dramCorrected t dpa) s = .next s' ∧ s' = { s with now := max s.now t, log := s'.log } ∧
      s'.log = ({ s.log with dramCe := capAt 0xFFFF (s.log.dramCe + 1) } : Log).add
        { type := Rec.dramCe, flags := 0, ten := 0xFFFF, source := (stackOf s.dram.localGib dpa).1, waggle := max s.now t, arg0 := dpa, arg1 := 0 } := by
  rw [exec_dramCorrected, execDramCorrected, decide_eq_true hdpa]
  exact ⟨_, run_next hoff, rfl, rfl⟩

theorem exec_block {dpa : Nat} {z : State} (hdpa : dpa < dramPages * pageBytes) (hz : (s.advance t).hitBlock dpa = z) :
    exec (.dramUncorrectable t (.block dpa)) s = .next (settled t s z) := by
  rw [exec_dramUncorrectable, execDramUncorrectable]
  refine run_eq hoff (Eq.trans ?_ hz)
  dsimp only
  rw [decide_eq_true hdpa, onlyIf_true]

/-- An error in a block of an object (R348, R349). -/
theorem block_hits {dpa id : Nat} {o : DramObj} (hn : RingsNamed s) (hdpa : dpa < dramPages * pageBytes) (hh : Holds s dpa id o) :
    ∃ s', exec (.dramUncorrectable t (.block dpa)) s = .next s' ∧ UeLogged s s' t o.ten dpa ∧ Poisons s s' [dpa / 64] ∧ ObjectHit s s' id o := by
  have hhit : (s.advance t).hitBlock dpa = ((s.advance t).logUncorrectable o.ten dpa).hitObject id o [dpa / 64] := by
    unfold State.hitBlock
    rw [State.advance_dram, show _ = some (id, o) from hh]
  exact ⟨_, exec_block hoff hdpa hhit, hitObject_shows id o _ hn (ueNoted_logUncorrectable ..)⟩

/-- An error in free memory (R349). -/
theorem block_free {dpa : Nat} (hdpa : dpa < dramPages * pageBytes) (hh : ∀ id o, ¬ Holds s dpa id o) :
    ∃ s', exec (.dramUncorrectable t (.block dpa)) s = .next s' ∧ UeLogged s s' t 0xFFFF dpa ∧
      s' = { s with now := max s.now t, free := s.free + 1, log := s'.log } := by
  have hnone : (s.dram.objs.find? fun o => inExtents o.2.extents (dpa / pageBytes)) = none := by
    cases hf : s.dram.objs.find? fun o => inExtents o.2.extents (dpa / pageBytes) with
    | none => rfl
    | some x => exact absurd hf (hh x.1 x.2)
  have hhit : (s.advance t).hitBlock dpa = (s.advance t).logUncorrectable Rec.deviceWide dpa := by
    unfold State.hitBlock
    rw [State.advance_dram, hnone]
  exact ⟨_, exec_block hoff hdpa hhit, ueLogged_settled (ueNoted_logUncorrectable ..) rfl, rfl⟩

/-- An error in the page tables (R349): in one copy it is logged only, in both the mapped object is hit. -/
theorem pageTable_hits {ten page id : Nat} {o : DramObj} (hm : s.dram.mapped ten (page * pageBytes) = some (id, o)) :
    let dpa := (o.dpa (page * pageBytes - o.dva)).getD 0
    (∃ s', exec (.dramUncorrectable t (.pageTable ten page false)) s = .next s' ∧ UeLogged s s' t ten dpa ∧ (∀ k, SameObjects s s' k) ∧
      s' = { s with now := max s.now t, free := s.free + 1, log := s'.log, tenants := s'.tenants }) ∧
    (RingsNamed s → ∃ s', exec (.dramUncorrectable t (.pageTable ten page true)) s = .next s' ∧ UeLogged s s' t ten dpa ∧
      Poisons s s' ((List.range 64).map fun i => dpa / pageBytes * 64 + i) ∧ ObjectHit s s' id o) := by
  intro dpa
  have hnoted := ueNoted_logUncorrectable (s.advance t) ten dpa
  have hrun : ∀ both, exec (.dramUncorrectable t (.pageTable ten page both)) s = .next (settled t s
      (if both then ((s.advance t).logUncorrectable ten dpa).hitObject id o ((List.range 64).map fun i => dpa / pageBytes * 64 + i)
        else (s.advance t).logUncorrectable ten dpa)) := fun both => by
    rw [exec_dramUncorrectable, execDramUncorrectable]
    refine run_eq hoff ?_
    dsimp only
    rw [State.advance_dram, hm]
  refine ⟨⟨_, hrun false, ueLogged_settled hnoted rfl, hnoted.objects, ?_⟩, fun hn => ⟨_, hrun true, hitObject_shows id o _ hn hnoted⟩⟩
  obtain ⟨tn, h⟩ := logUncorrectable_frame (s.advance t) ten dpa
  rw [h]
  rfl

/-- An error in what a parked EVAL keeps (R349): it fails. -/
theorem parked_fails {ten l q : Nat} {c : Cmd} {v : Eval} (hc : s.cmd? ten l q = some c) (hv : c.eval = some v) (ha : v.attempt.isSome = true) :
    ∃ s' dpa, exec (.dramUncorrectable t (.parked ten l q)) s = .next s' ∧ FailsEval s s' ten l q v (St.memoryUncorrectable, 0) ∧ UeLogged s s' t ten dpa := by
  have hg : (((s.advance t).cmd? ten l q).any fun c => c.eval.any fun v => v.attempt.isSome) = true := by
    rw [State.advance_cmd_entry, hc]
    simp [hv, ha]
  have hnoted := ueNoted_takeFree (s.advance t) ten ((s.advance t).takeFree.1 % (dramPages * pageBytes))
  obtain ⟨hr, hs, hd, hset⟩ := hnoted.same
  refine ⟨_, _, ?_, failsEval_failEval (St.memoryUncorrectable, 0) ?_ hs hd hset hr, ueLogged_settled hnoted (failEval_keeps ..).1⟩
  · rw [exec_dramUncorrectable, execDramUncorrectable]
    refine run_eq hoff ?_
    dsimp only
    rw [hg, onlyIf_true]
  · have : evalOf s ten l q = some v := by rw [evalOf, hc]; exact hv
    rw [← this]
    unfold evalOf State.cmd? State.ring
    rw [hr]

theorem gatewaySlot_invalidates (ten slot : Nat) :
    ∃ s' dpa v gs, exec (.dramUncorrectable t (.gatewaySlot ten slot)) s = .next s' ∧ UeLogged s s' t ten dpa ∧ (∀ k, k ≠ ten → SameObjects s s' k) ∧
      s'.ten ten = { s.ten ten with gwSlots := gs, view := v } ∧ (∀ k, k ≠ slot → Tbl.look gs k = Tbl.look (s.ten ten).gwSlots k) ∧
      Tbl.look gs slot = (Tbl.look (s.ten ten).gwSlots slot).map (fun g => { g with invalid := true }) := by
  have hnoted := ueNoted_takeFree (s.advance t) ten ((s.advance t).takeFree.1 % (dramPages * pageBytes))
  obtain ⟨hlog, hother, v, hv⟩ := slot_shows hnoted (invalidateGw fun n _ => n == slot)
  refine ⟨_, _, v, (invalidateGw (fun n _ => n == slot) (s.ten ten)).gwSlots, ?_, hlog, hother, hv, fun k hk => ?_, ?_⟩
  · rw [exec_dramUncorrectable, execDramUncorrectable]
    exact run_next hoff
  · rw [look_invalidateGw, beq_eq_false_iff_ne.2 hk]
    exact Option.map_id'
  · rw [look_invalidateGw, beq_self_eq_true]
    rfl

theorem keySlot_invalidates (ten slot : Nat) :
    ∃ s' dpa v ks, exec (.dramUncorrectable t (.keySlot ten slot)) s = .next s' ∧ UeLogged s s' t ten dpa ∧ (∀ k, k ≠ ten → SameObjects s s' k) ∧
      s'.ten ten = { s.ten ten with keySlots := ks, view := v } ∧ (∀ k, k ≠ slot → Tbl.look ks k = Tbl.look (s.ten ten).keySlots k) ∧
      Tbl.look ks slot = (Tbl.look (s.ten ten).keySlots slot).map (fun g => { g with invalid := true }) := by
  have hnoted := ueNoted_takeFree (s.advance t) ten ((s.advance t).takeFree.1 % (dramPages * pageBytes))
  obtain ⟨hlog, hother, v, hv⟩ := slot_shows hnoted (invalidateKeySlot slot)
  refine ⟨_, _, v, (invalidateKeySlot slot (s.ten ten)).keySlots, ?_, hlog, hother, hv, fun k hk => ?_, ?_⟩
  · rw [exec_dramUncorrectable, execDramUncorrectable]
    exact run_next hoff
  · rw [look_invalidateKeySlot]
    simp only [if_neg hk]
    exact Option.map_id'
  · rw [look_invalidateKeySlot]
    simp only [if_pos]

end

/-- PATROL_SCRUB acts on a bad block as DRAM_UNCORRECTABLE does (R348). -/
theorem patrolScrub_block (t dpa : Nat) (s : State) : exec (.patrolScrub t [dpa]) s = exec (.dramUncorrectable t (.block dpa)) s := by
  simp only [exec_patrolScrub, exec_dramUncorrectable, execPatrolScrub, execDramUncorrectable, State.onlyIf, List.foldl_cons, List.foldl_nil, decide_eq_true_eq]

/-- A pass that finds no bad block. -/
theorem patrolScrub_nothing (t : Nat) {s : State} (hoff : s.power.off = false) : ∃ s', exec (.patrolScrub t []) s = .next s' ∧ OnlyTime s s' t := by
  rw [exec_patrolScrub, execPatrolScrub]
  exact ⟨_, run_next hoff, rfl⟩

/-- FREED_PAGE_SCRUB_DONE (R113). -/
theorem freedPageScrubDone_zeroes {t : Nat} {s : State} (hoff : s.power.off = false) :
    ∃ s', exec (.freedPageScrubDone t) s = .next s' ∧ s' = { s with now := max s.now t, dram := s'.dram } ∧ s'.dram.dirty = [] ∧ s'.dram.objs = s.dram.objs ∧
      (∀ a, s'.dram.byte a = if inExtents s.dram.dirty (a / pageBytes) = true then 0#8 else s.dram.byte a) ∧
      (∀ b, b ∈ s'.dram.poison ↔ b ∈ s.dram.poison ∧ inExtents s.dram.dirty (b * 64 / pageBytes) = false) := by
  rw [exec_freedPageScrubDone, execFreedPageScrubDone]
  refine ⟨_, run_next hoff, rfl, rfl, rfl, fun a => ?_, fun b => ?_⟩
  · refine (congrArg (Option.getD · 0#8) (Tbl.look_filter_key (fun i => !inExtents s.dram.dirty (i / pageBytes)) s.dram.cells a)).trans ?_
    by_cases h : inExtents s.dram.dirty (a / pageBytes) = true <;> simp [h, Dram.byte, Tbl.lookD]
  · simp [Dram.scrubPages]

/-- Settles O47: an error is counted and logged, poisons the blocks it hits and changes the object that holds them, failing exactly the EVALs that use it; a scrub zeroes the freed pages. -/
theorem memoryErrors : Obligations.MemoryErrors := by
  refine ⟨fun t dpa s hoff hdpa => dramCorrected_logs hoff hdpa,
    fun t dpa id o s hoff hn hdpa hh => block_hits hoff hn hdpa hh,
    fun t dpa s hoff hdpa hh => block_free hoff hdpa hh,
    fun t ten page id o s hoff hn hm => ?_,
    fun t ten l q c v s hoff hc hv ha => parked_fails hoff hc hv ha,
    fun t ten slot s hoff => ⟨gatewaySlot_invalidates hoff ten slot, keySlot_invalidates hoff ten slot⟩,
    fun t comb shelf s hoff => ⟨_, run_next hoff, rfl⟩,
    fun t dpa s hoff => ⟨patrolScrub_block t dpa s, patrolScrub_nothing t hoff⟩,
    fun t s hoff _ => freedPageScrubDone_zeroes hoff⟩
  obtain ⟨hone, hboth⟩ := pageTable_hits (t := t) hoff hm
  exact ⟨hone, hboth hn⟩

end Sys2Proof.Machine
end

section
/-! For O40 and O44: cells and combs changed one after another, runs found by their number, and what shelf references leave of a comb. -/

namespace Sys2Proof.Machine

open Sys2Proof.Safety

/-! ### Cells changed one after another -/

/-- Each entry of a list changes one cell. -/
def State.eachCell {α : Type} (s : State) (l : List α) (key : α → Nat) (f : α → Cell → Cell) : State :=
  l.foldl (fun s p => s.updCell (key p) (f p)) s

section

variable {α : Type} {l : List α} {key : α → Nat} {f : α → Cell → Cell}

theorem eachCell_frame (s : State) : ∃ es, s.eachCell l key f = { s with cells := es } := by
  unfold State.eachCell
  induction l generalizing s with
  | nil => exact ⟨s.cells, rfl⟩
  | cons p r ih =>
    obtain ⟨es, h⟩ := ih (s.updCell (key p) (f p))
    exact ⟨es, h⟩

@[simp] theorem eachCell_segs (s : State) : (s.eachCell l key f).segs = s.segs := by
  obtain ⟨es, h⟩ := eachCell_frame s
  rw [h]

@[simp] theorem eachCell_dram (s : State) : (s.eachCell l key f).dram = s.dram := by
  obtain ⟨es, h⟩ := eachCell_frame s
  rw [h]

@[simp] theorem eachCell_combs (s : State) : (s.eachCell l key f).combs = s.combs := by
  obtain ⟨es, h⟩ := eachCell_frame s
  rw [h]

theorem cell_eachCell_other {k : Nat} (h : k ∉ l.map key) (s : State) : (s.eachCell l key f).cell k = s.cell k := by
  induction l generalizing s with
  | nil => rfl
  | cons p r ih =>
    rw [List.map_cons, List.mem_cons, not_or] at h
    exact (ih h.2 _).trans (State.cell_updCell_other s _ h.1)

theorem cell_eachCell_mem (hn : (l.map key).Nodup) {p : α} (hp : p ∈ l) (s : State) : (s.eachCell l key f).cell (key p) = f p (s.cell (key p)) := by
  induction l generalizing s with
  | nil => cases hp
  | cons a r ih =>
    rw [List.map_cons, List.nodup_cons] at hn
    rcases List.mem_cons.1 hp with rfl | hp
    · exact (cell_eachCell_other hn.1 _).trans (State.cell_updCell_self ..)
    · have hne : key p ≠ key a := fun e => hn.1 (e ▸ List.mem_map_of_mem hp)
      exact (ih hn.2 hp _).trans (congrArg (f p) (State.cell_updCell_other s _ hne))

/-- What no entry's change touches is as it was in every cell. -/
theorem eachCell_keeps {β : Type} (φ : Cell → β) (hφ : ∀ p c, φ (f p c) = φ c) (s : State) (k : Nat) : φ ((s.eachCell l key f).cell k) = φ (s.cell k) := by
  induction l generalizing s with
  | nil => rfl
  | cons p r ih =>
    refine (ih _).trans ?_
    by_cases hk : k = key p
    · rw [hk, State.cell_updCell_self, hφ]
    · rw [State.cell_updCell_other _ _ hk]

end

/-- A change of every listed cell keeps, cell by cell, what it does not touch. -/
theorem cell_map_keeps {β : Type} (φ : Cell → β) {G : Nat × Cell → Cell} (hG : ∀ x, φ (G x) = φ x.2) (s : State) (k : Nat) :
    φ (({ s with cells := s.cells.map fun x => (x.1, G x) } : State).cell k) = φ (s.cell k) := by
  have hlook : Tbl.look (s.cells.map fun x => (x.1, G x)) k = (Tbl.look s.cells k).map fun c => G (k, c) :=
    Tbl.look_mapKey s.cells (fun i c => G (i, c)) k
  unfold State.cell Tbl.lookD
  dsimp only
  rw [hlook]
  cases Tbl.look s.cells k with
  | none => rfl
  | some c => exact hG (k, c)

/-! ### Runs found by their number -/

theorem seg_updSeg (s : State) (id : Nat) {f : SegRun → SegRun} (hf : ∀ g, (f g).id = g.id) (j : Nat) :
    (s.updSeg id f).seg? j = (s.seg? j).map fun g => if g.id = id then f g else g := by
  have hid : ((fun g : SegRun => g.id == j) ∘ fun g => if g.id = id then f g else g) = fun g => g.id == j := by
    funext g
    dsimp only [Function.comp]
    split
    · rw [hf]
    · rfl
  unfold State.seg?
  rw [State.updSeg_segs, List.find?_map, hid]

theorem seg_updSeg_self {s : State} {id : Nat} {g : SegRun} {f : SegRun → SegRun} (hf : ∀ g, (f g).id = g.id) (h : s.seg? id = some g) :
    (s.updSeg id f).seg? id = some (f g) := by
  rw [seg_updSeg s id hf, h, Option.map_some, if_pos (seg_id h)]

theorem seg_updSeg_other {s : State} {id j : Nat} {f : SegRun → SegRun} (hf : ∀ g, (f g).id = g.id) (hj : j ≠ id) :
    (s.updSeg id f).seg? j = s.seg? j := by
  rw [seg_updSeg s id hf]
  cases h : s.seg? j with
  | none => rfl
  | some g => rw [Option.map_some, if_neg (seg_id h ▸ hj)]

theorem mem_of_seg {s : State} {id : Nat} {g : SegRun} (h : s.seg? id = some g) : g ∈ s.segs := List.mem_of_find?_eq_some h

/-! ### Combs changed one after another -/

/-- A comb but for its shelves. -/
def Comb.bare (k : Comb) : Comb := { k with shelves := [] }

/-- Nothing of any comb but its shelves differs. -/
def BareKept (s z : State) : Prop := ∀ k, (z.comb k).bare = (s.comb k).bare

theorem bareKept_trans {s z y : State} (h : BareKept s z) (g : BareKept z y) : BareKept s y := fun k => (g k).trans (h k)

theorem bareKept_updComb (s : State) (c : Nat) {f : Comb → Comb} (hf : ∀ k, (f k).bare = k.bare) : BareKept s (s.updComb c f) := by
  intro k
  by_cases h : k = c
  · rw [h, State.comb_updComb_self, hf]
  · rw [State.comb_updComb_other _ _ h]

theorem bareKept_unrefSeg (s : State) (id : Nat) : BareKept s (s.unrefSeg id) := by
  intro k
  have h := look_map s.combs (fun k : Comb => { k with shelves := k.shelves.map fun r : ShelfRun => { r with refs := r.refs.filter (· != id) } }) k
  unfold State.comb State.unrefSeg Tbl.lookD
  dsimp only at h ⊢
  rw [h]
  cases Tbl.look s.combs k <;> rfl

/-- Steps that each change one comb by a function of its own, seen through a projection, and keep an invariant: what they leave of every comb. -/
theorem foldl_combs {β : Type} {F : State → Nat → State} {I : State → Prop} (π : Comb → β) {f : Nat → β → β} {l : List Nat}
    (hF : ∀ y, I y → ∀ c ∈ l, I (F y c) ∧ ∀ k, π ((F y c).comb k) = if k = c then f c (π (y.comb c)) else π (y.comb k))
    (hn : l.Nodup) {s : State} (hs : I s) :
    I (l.foldl F s) ∧ ∀ k, π ((l.foldl F s).comb k) = if k ∈ l then f k (π (s.comb k)) else π (s.comb k) := by
  induction l generalizing s with
  | nil => exact ⟨hs, fun _ => rfl⟩
  | cons c r ih =>
    obtain ⟨hcr, hr⟩ := List.nodup_cons.1 hn
    obtain ⟨hi, hc⟩ := hF s hs c List.mem_cons_self
    obtain ⟨hI, hk⟩ := ih (fun y hy a ha => hF y hy a (List.mem_cons_of_mem _ ha)) hr hi
    refine ⟨hI, fun k => ?_⟩
    rw [List.foldl_cons, hk, hc]
    by_cases hkc : k = c
    · rw [hkc, if_neg hcr, if_pos rfl, if_pos List.mem_cons_self]
    · simp only [hkc, if_false, List.mem_cons, false_or]

theorem comb_updComb (s : State) (c : Nat) (f : Comb → Comb) (k : Nat) : (s.updComb c f).comb k = if k = c then f (s.comb c) else s.comb k := by
  by_cases h : k = c
  · rw [if_pos h, h, State.comb_updComb_self]
  · rw [if_neg h, State.comb_updComb_other _ _ h]

/-- A command whose effect is a change of one comb. -/
theorem updComb_settles (s : State) (t c : Nat) (f : Comb → Comb) :
    OnlyComb s (settled t s ((s.advance t).updComb c f)) t c ∧ (settled t s ((s.advance t).updComb c f)).comb c = f (s.comb c) :=
  ⟨⟨rfl, sameBut_updComb (s.advance t) c f⟩, State.comb_updComb_self (s.advance t) c f⟩

end Sys2Proof.Machine
end

section
/-! For O44 (R66 to R72, R407): the code that the governor gives a comb, and what one interval leaves of the combs. -/

namespace Sys2Proof.Machine

open Sys2Proof.Safety

/-! ### The code that pacing alone asks for -/

section

variable {p : PaceSet} {lo v : Nat} {occ : List Nat}

theorem pacedCode_below (h : v < lo) : pacedCode p lo v occ = v + 1 := if_pos h

/-- Between its limits a code is the fixed one, or follows the occupancy of the streams. -/
theorem pacedCode_within (hlo : lo ≤ v) (hmax : v ≤ p.vmax) : pacedCode p lo v occ =
    if !p.paced then max lo p.vfix
    else if occ.isEmpty then towards v (max lo p.vfix)
    else if occ.any fun o => decide (p.bandHi < o) then min (max lo p.vmax) (v + 1)
    else if occ.all fun o => decide (o < p.bandLo) then max lo (v - 1)
    else v := by
  rw [pacedCode, if_neg (Nat.not_lt.2 hlo), if_neg (Nat.not_lt.2 hmax)]

theorem pacedCode_fixed (hlo : lo ≤ v) (hmax : v ≤ p.vmax) (hp : p.paced = false) : pacedCode p lo v occ = max lo p.vfix := by
  simp [pacedCode_within hlo hmax, hp]

theorem pacedCode_idle (hlo : lo ≤ v) (hmax : v ≤ p.vmax) (hp : p.paced = true) : pacedCode p lo v [] = towards v (max lo p.vfix) := by
  simp [pacedCode_within hlo hmax, hp]

/-- A paced code with streams to watch: up where one is above the band, down where all are below it. -/
theorem pacedCode_streams (hlo : lo ≤ v) (hmax : v ≤ p.vmax) (hp : p.paced = true) (hocc : occ ≠ []) : pacedCode p lo v occ =
    if ∃ o ∈ occ, p.bandHi < o then min (max lo p.vmax) (v + 1)
    else if ∀ o ∈ occ, o < p.bandLo then max lo (v - 1) else v := by
  rw [pacedCode_within hlo hmax]
  simp only [hp, hocc, Bool.not_true, Bool.false_eq_true, if_false, List.isEmpty_iff, List.any_eq_true, List.all_eq_true, decide_eq_true_eq]

theorem pacedCode_full (hlo : lo ≤ v) (hmax : v ≤ p.vmax) (hp : p.paced = true) (hocc : occ ≠ []) (h : ∃ o ∈ occ, p.bandHi < o) :
    pacedCode p lo v occ = min (max lo p.vmax) (v + 1) := by
  rw [pacedCode_streams hlo hmax hp hocc, if_pos h]

theorem pacedCode_starved (hlo : lo ≤ v) (hmax : v ≤ p.vmax) (hp : p.paced = true) (hocc : occ ≠ []) (hhi : ∀ o ∈ occ, o ≤ p.bandHi)
    (h : ∀ o ∈ occ, o < p.bandLo) : pacedCode p lo v occ = max lo (v - 1) := by
  have hnone : ¬∃ o ∈ occ, p.bandHi < o := fun ⟨o, ho, hlt⟩ => absurd (hhi o ho) (Nat.not_le.2 hlt)
  rw [pacedCode_streams hlo hmax hp hocc, if_neg hnone, if_pos h]

theorem pacedCode_steady (hlo : lo ≤ v) (hmax : v ≤ p.vmax) (hp : p.paced = true) (hocc : occ ≠ []) (hhi : ∀ o ∈ occ, o ≤ p.bandHi)
    (h : ∃ o ∈ occ, p.bandLo ≤ o) : pacedCode p lo v occ = v := by
  have hnone : ¬∃ o ∈ occ, p.bandHi < o := fun ⟨o, ho, hlt⟩ => absurd (hhi o ho) (Nat.not_le.2 hlt)
  have hsome : ¬∀ o ∈ occ, o < p.bandLo := fun hall => h.elim fun o ho => absurd (hall o ho.1) (Nat.not_lt.2 ho.2)
  rw [pacedCode_streams hlo hmax hp hocc, if_neg hnone, if_neg hsome]

end

theorem towards_up {v target : Nat} (h : v < target) : towards v target = v + 1 := if_pos h

theorem towards_self (v : Nat) : towards v v = v := by
  rw [towards, if_neg (lt_irrefl v), if_neg (lt_irrefl v)]

theorem towards_down {v target : Nat} (h : target < v) : towards v target = v - 1 := by
  rw [towards, if_neg (Nat.lt_asymm h), if_pos h]

/-! ### The next code of a comb -/

/-- A comb's code under the power cap: one less, down to its lowest (R70). -/
def Comb.capped (k : Comb) (p : PaceSet) (exceed : Bool) : Nat := if exceed = true ∧ k.lowCode p < k.vcode then k.vcode - 1 else k.vcode

theorem capped_le (k : Comb) (p : PaceSet) (exceed : Bool) : k.capped p exceed ≤ k.vcode := by
  unfold Comb.capped
  split <;> omega

section

variable {k : Comb} {p : PaceSet} {hot ex cap : Bool} {occ : List Nat}

theorem nextCode_hot (h : 100 < k.tj ∨ hot = true) : k.nextCode p true hot ex cap occ = (k.vcode - 1, true) := if_pos h

theorem nextCode_warm (h : ¬(100 < k.tj ∨ hot = true)) : k.nextCode p true hot ex cap occ = (k.capped p ex, false) := if_neg h

theorem nextCode_ramp (hc : k.c0Floor = true) (hv : k.vcode < 40) : k.nextCode p false hot ex cap occ = (min 40 (k.vcode + 20), false) :=
  if_pos ⟨hc, hv⟩

theorem nextCode_noRamp (h : k.c0Floor = true → 40 ≤ k.vcode) : k.nextCode p false hot ex cap occ =
    if ex then (k.capped p ex, false)
    else (if cap then min k.vcode (pacedCode p (k.lowCode p) k.vcode occ) else pacedCode p (k.lowCode p) k.vcode occ, false) :=
  if_neg fun ⟨hc, hv⟩ => absurd (h hc) (Nat.not_le.2 hv)

end

/-- The paced code is the one of the rules' last clause. -/
theorem codeRule_paced (p : PaceSet) (lo v : Nat) (occ : List Nat) :
    (v < lo → pacedCode p lo v occ = v + 1) ∧
    (lo ≤ v → v ≤ p.vmax →
      (p.paced = false → pacedCode p lo v occ = max lo p.vfix) ∧
      (p.paced = true → occ = [] → (v < max lo p.vfix → pacedCode p lo v occ = v + 1) ∧ (v = max lo p.vfix → pacedCode p lo v occ = v) ∧
        (max lo p.vfix < v → pacedCode p lo v occ = v - 1)) ∧
      (p.paced = true → occ ≠ [] → ((∃ o ∈ occ, p.bandHi < o) → pacedCode p lo v occ = min (max lo p.vmax) (v + 1)) ∧
        ((∀ o ∈ occ, o < p.bandLo) → (∀ o ∈ occ, o ≤ p.bandHi) → pacedCode p lo v occ = max lo (v - 1)) ∧
        ((∀ o ∈ occ, o ≤ p.bandHi) → (∃ o ∈ occ, p.bandLo ≤ o) → pacedCode p lo v occ = v))) := by
  refine ⟨pacedCode_below, fun hlo hmax => ⟨pacedCode_fixed hlo hmax, fun hp hocc => ?_, fun hp hocc =>
    ⟨pacedCode_full hlo hmax hp hocc, fun h hhi => pacedCode_starved hlo hmax hp hocc hhi h, pacedCode_steady hlo hmax hp hocc⟩⟩⟩
  rw [hocc, pacedCode_idle hlo hmax hp]
  exact ⟨towards_up, fun h => h ▸ towards_self v, towards_down⟩

/-- The governor's move obeys the rules, in an emergency and outside one. -/
theorem codeRule_nextCode (k : Comb) (p : PaceSet) (emergency hot ex cap : Bool) (occ : List Nat) :
    CodeRule k p emergency hot ex cap occ (k.nextCode p emergency hot ex cap occ).1 := by
  cases emergency with
  | true =>
    refine ⟨fun _ => ⟨fun h => congrArg Prod.fst (nextCode_hot h), ?_⟩, nofun, nofun⟩
    by_cases h : 100 < k.tj ∨ hot = true
    · rw [nextCode_hot h]
      exact Nat.sub_le ..
    · rw [nextCode_warm h]
      exact capped_le ..
  | false =>
    refine ⟨nofun, fun _ hc hv => congrArg Prod.fst (nextCode_ramp hc hv), fun _ hr => ?_⟩
    rw [nextCode_noRamp hr]
    cases ex with
    | true =>
      refine ⟨fun _ => ?_, nofun, nofun⟩
      simp only [Comb.capped, true_and]
      rfl
    | false =>
      cases cap with
      | true => exact ⟨nofun, fun _ _ => Nat.min_le_left .., nofun⟩
      | false => exact ⟨nofun, nofun, fun _ _ => codeRule_paced ..⟩

/-- Thermal override lowers the code in an emergency, on a hot comb or with a hot core. -/
theorem nextCode_thermal_iff (k : Comb) (p : PaceSet) (emergency hot ex cap : Bool) (occ : List Nat) :
    (k.nextCode p emergency hot ex cap occ).2 = true ↔ emergency = true ∧ (100 < k.tj ∨ hot = true) := by
  cases emergency with
  | true =>
    by_cases h : 100 < k.tj ∨ hot = true
    · simp only [nextCode_hot h, h, and_self]
    · simp only [nextCode_warm h, h, and_false, Bool.false_eq_true]
  | false =>
    by_cases hr : k.c0Floor = true → 40 ≤ k.vcode
    · rw [nextCode_noRamp hr]
      cases ex <;> simp
    · obtain ⟨hc, hv⟩ := Classical.not_imp.1 hr
      simp only [nextCode_ramp hc (Nat.lt_of_not_le hv), Bool.false_eq_true, false_and]

/-! ### One interval of every comb -/

/-- What the governor measured on a comb; on one that it has no word of, nothing. -/
def measureOf (meas : List CombMeasure) (c : Nat) : CombMeasure := meas.getD c { occupancy := [], stageRate := 0 }

/-- A comb after one interval of the governor, which finds the device as in s; a comb in Rest stays. -/
def Comb.paced (k : Comb) (s : State) (exceed : Bool) (c : Nat) (m : CombMeasure) : Comb :=
  if k.rest then k
  else
    let q := k.nextCode (s.pace c) s.power.emergency (decide (100 < s.power.coreTj)) exceed s.elec.capping m.occupancy
    { k with vcode := q.1, thermal := q.2, occ := m.occupancy.foldl max 0, stageRate := m.stageRate }

theorem paceComb_eq (s : State) (c : Nat) (m : CombMeasure) (exceed : Bool) :
    (∃ cs, s.paceComb c m exceed = { s with combs := cs }) ∧
    ∀ k, (s.paceComb c m exceed).comb k = if k = c then (s.comb c).paced s exceed c m else s.comb k := by
  unfold State.paceComb Comb.paced
  dsimp only
  split
  · refine ⟨⟨s.combs, rfl⟩, fun k => ?_⟩
    by_cases h : k = c
    · rw [if_pos h, h]
    · rw [if_neg h]
  · exact ⟨⟨_, rfl⟩, fun k => comb_updComb ..⟩

/-- The four combs' moves change combs only, and each is made on the device as the interval found it. -/
theorem paceCombs_eq (s : State) (meas : List CombMeasure) (exceed : Bool) {z : State}
    (hz : (List.range 4).foldl (fun s c => s.paceComb c (measureOf meas c) exceed) s = z) :
    (∃ cs, z = { s with combs := cs }) ∧ ∀ c, c < 4 → z.comb c = (s.comb c).paced s exceed c (measureOf meas c) := by
  obtain ⟨hframe, hcomb⟩ := foldl_combs (F := fun s c => s.paceComb c (measureOf meas c) exceed) (I := fun y => ∃ cs, y = { s with combs := cs }) id
    (f := fun c k => k.paced s exceed c (measureOf meas c)) (fun y hy c _ => by
      obtain ⟨cs, rfl⟩ := hy
      obtain ⟨⟨cs', he⟩, hk⟩ := paceComb_eq { s with combs := cs } c (measureOf meas c) exceed
      exact ⟨⟨cs', he⟩, hk⟩) (List.nodup_range (n := 4)) ⟨s.combs, rfl⟩
  rw [hz] at hframe hcomb
  exact ⟨hframe, fun c hc => (hcomb c).trans (if_pos (List.mem_range.2 hc))⟩

/-- Whether the input power stays capped: above CAP_W it is, at CAP_W it stays as it was (R70). -/
def State.capsAt (s : State) (inputW : Nat) : Bool := decide (s.settings.capW < inputW) || (s.elec.capping && inputW == s.settings.capW)

/-- A device that has measured its input power. -/
def State.measured (s : State) (inputW : Nat) : State := { s with elec := { s.elec with inputW := inputW, capping := s.capsAt inputW } }

theorem exec_paceInterval_next (t inputW : Nat) (meas : List CombMeasure) {s : State} (hoff : s.power.off = false) :
    exec (.paceInterval t meas inputW) s = .next (settled t s
      ((List.range 4).foldl (fun y c => y.paceComb c (measureOf meas c) (decide (s.settings.capW < inputW))) ((s.advance t).measured inputW))) := by
  rw [exec_paceInterval, execPaceInterval, run_next hoff]
  rfl

theorem paceInterval_spec (t inputW : Nat) (meas : List CombMeasure) {s : State} (hoff : s.power.off = false) :
    ∃ s', exec (.paceInterval t meas inputW) s = .next s' ∧ PacesOnly s s' t ∧ s'.elec = { s.elec with inputW := inputW, capping := s.capsAt inputW } ∧
      ∀ c, c < 4 → s'.comb c = (s.comb c).paced (s.measured inputW) (decide (s.settings.capW < inputW)) c (measureOf meas c) := by
  obtain ⟨⟨cs, hframe⟩, hcomb⟩ := paceCombs_eq ((s.advance t).measured inputW) meas (decide (s.settings.capW < inputW)) rfl
  refine ⟨_, exec_paceInterval_next t inputW meas hoff, ?_, ?_, hcomb⟩
  · rw [hframe]
    rfl
  · rw [hframe]
    rfl

end Sys2Proof.Machine
end

section
/-! For O44 (R71, R74): what a comb at 110 °C does to the runs that it carries, and to the combs. -/

namespace Sys2Proof.Machine

open Sys2Proof.Safety

/-! ### What is left of the runs -/

/-- What may be left of a run x: it waits again, or stands where it stood. -/
def SegRun.StemsFrom (y x : SegRun) : Prop := y.id = x.id ∧ (y.phase = .ready ∨ (y.phase = x.phase ∧ y.comb = x.comb ∧ y.cells = x.cells))

theorem SegRun.stemsFrom_self (x : SegRun) : x.StemsFrom x := ⟨rfl, .inr ⟨rfl, rfl, rfl⟩⟩

theorem SegRun.stemsFrom_trans {x y w : SegRun} (h : y.StemsFrom x) (g : w.StemsFrom y) : w.StemsFrom x := by
  obtain ⟨hid, h⟩ := h
  obtain ⟨gid, hw | ⟨hp, hc, he⟩⟩ := g
  · exact ⟨gid.trans hid, .inl hw⟩
  · refine ⟨gid.trans hid, h.imp hp.trans fun ⟨xp, xc, xe⟩ => ⟨hp.trans xp, hc.trans xc, he.trans xe⟩⟩

/-- From s to z only the runs and what they hold, charge and report differ, and every run left stems from one. -/
structure Thinned (s z : State) : Prop where
  frame : ∃ tn rs cs es gs lg mt, z = { s with tenants := tn, rings := rs, combs := cs, cells := es, segs := gs, log := lg, meters := mt }
  runs : ∀ y ∈ z.segs, ∃ x ∈ s.segs, y.StemsFrom x

theorem thinned_trans {s z y : State} (h : Thinned s z) (g : Thinned z y) : Thinned s y := by
  obtain ⟨⟨_, _, _, _, _, _, _, rfl⟩, hruns⟩ := h
  obtain ⟨⟨tn, rs, cs, es, gs, lg, mt, rfl⟩, gruns⟩ := g
  refine ⟨⟨tn, rs, cs, es, gs, lg, mt, rfl⟩, fun w hw => ?_⟩
  obtain ⟨y, hy, hwy⟩ := gruns w hw
  obtain ⟨x, hx, hyx⟩ := hruns y hy
  exact ⟨x, hx, SegRun.stemsFrom_trans hyx hwy⟩

theorem runs_of_segs_eq {s z : State} (h : z.segs = s.segs) : ∀ y ∈ z.segs, ∃ x ∈ s.segs, y.StemsFrom x :=
  fun y hy => ⟨y, h ▸ hy, y.stemsFrom_self⟩

theorem thinned_refl (s : State) : Thinned s s := ⟨⟨s.tenants, s.rings, s.combs, s.cells, s.segs, s.log, s.meters, rfl⟩, runs_of_segs_eq rfl⟩

theorem Thinned.power {s z : State} (h : Thinned s z) : z.power = s.power := by
  obtain ⟨⟨_, _, _, _, _, _, _, rfl⟩, -⟩ := h
  rfl

/-- Runs have gone, and no comb but its shelves differs. -/
structure Withdrawn (s z : State) : Prop extends Thinned s z where
  bare : BareKept s z

theorem withdrawn_refl (s : State) : Withdrawn s s := ⟨thinned_refl s, fun _ => rfl⟩

theorem withdrawn_trans {s z y : State} (h : Withdrawn s z) (g : Withdrawn z y) : Withdrawn s y :=
  ⟨thinned_trans h.toThinned g.toThinned, bareKept_trans h.bare g.bare⟩

theorem withdrawn_foldl {α : Type} {f : State → α → State} (hf : ∀ s a, Withdrawn s (f s a)) (l : List α) (s : State) : Withdrawn s (l.foldl f s) :=
  List.foldlRecOn l f (withdrawn_refl s) fun y hy a _ => withdrawn_trans hy (hf y a)

/-- A run's cells and shelf references go. -/
theorem withdrawn_unload (s : State) (cells : List Nat) (id : Nat) : Withdrawn s ((s.releaseCells cells).unrefSeg id) := by
  obtain ⟨es, h⟩ := releaseCells_cells s cells
  rw [h]
  exact ⟨⟨⟨s.tenants, s.rings, _, es, s.segs, s.log, s.meters, rfl⟩, runs_of_segs_eq rfl⟩, bareKept_unrefSeg { s with cells := es } id⟩

theorem withdrawn_unloads (s : State) (l : List SegRun) : Withdrawn s (l.foldl (fun s m => (s.releaseCells m.cells).unrefSeg m.id) s) :=
  withdrawn_foldl (fun s m => withdrawn_unload s m.cells m.id) l s

/-- Runs changed and dropped, each left one stemming from its own. -/
theorem withdrawn_segs (s : State) {l : List SegRun} (h : ∀ y ∈ l, ∃ x ∈ s.segs, y.StemsFrom x) : Withdrawn s { s with segs := l } :=
  ⟨⟨⟨s.tenants, s.rings, s.combs, s.cells, l, s.log, s.meters, rfl⟩, h⟩, fun _ => rfl⟩

theorem withdrawn_requeueGang (s : State) (g : SegRun) : Withdrawn s (s.requeueGang g id) := by
  refine withdrawn_trans (withdrawn_unloads s (s.segs.filter g.gangOf)) (withdrawn_segs _ fun y hy => ?_)
  obtain ⟨x, hx, rfl⟩ := List.mem_map.1 hy
  refine ⟨x, hx, ?_⟩
  split
  · exact ⟨rfl, .inl rfl⟩
  · exact x.stemsFrom_self

theorem withdrawn_chargeRun (s : State) (g : SegRun) : Withdrawn s (s.chargeRun g) := by
  obtain ⟨l, k, mt, h⟩ := charge_eq s g.ten 0 g.charged
  obtain ⟨l', k', mt', h'⟩ := charge_eq (s.chargeOps g.ten g.lring g.seq g.charged) g.ten 1 g.keyBytes
  rw [State.chargeRun, h', State.chargeOps, h]
  exact ⟨⟨⟨_, _, s.combs, s.cells, s.segs, s.log, _, rfl⟩, runs_of_segs_eq rfl⟩, fun _ => rfl⟩

theorem withdrawn_dropSeg (s : State) (id : Nat) : Withdrawn s (s.dropSeg id) :=
  withdrawn_segs s fun y hy => ⟨y, List.mem_of_mem_filter hy, y.stemsFrom_self⟩

theorem withdrawn_logRec (s : State) (type flags ten source arg0 arg1 : Nat) : Withdrawn s (s.logRec type flags ten source arg0 arg1) := by
  obtain ⟨tn, h⟩ := logRec_eq s type flags ten source arg0 arg1
  rw [h]
  exact ⟨⟨⟨tn, s.rings, s.combs, s.cells, s.segs, _, s.meters, rfl⟩, runs_of_segs_eq rfl⟩, fun _ => rfl⟩

theorem stemsFrom_of_mem_runsAfter {l : List SegRun} {ten lring seq : Nat} {e : Err} {y : SegRun} (h : y ∈ runsAfter l ten lring seq e) :
    ∃ x ∈ l, y.StemsFrom x := by
  obtain ⟨x, hx, rfl⟩ := List.mem_map.1 h
  refine ⟨x, List.mem_of_mem_filter hx, ?_⟩
  split
  · exact ⟨rfl, .inr ⟨rfl, rfl, rfl⟩⟩
  · exact x.stemsFrom_self

theorem withdrawn_failEval (s : State) (ten lring seq : Nat) (e : Err) : Withdrawn s (s.failEval ten lring seq e) := by
  have hbare : BareKept s (s.failEval ten lring seq e) :=
    (withdrawn_unloads s (s.segs.filter fun g => g.ofCmd ten lring seq && g.phase != .running)).bare
  refine ⟨?_, hbare⟩
  obtain ⟨cs, es, h⟩ := failEval_eq s ten lring seq e
  rw [h]
  exact ⟨⟨s.tenants, _, cs, es, _, s.log, s.meters, rfl⟩, fun y hy => stemsFrom_of_mem_runsAfter hy⟩

theorem withdrawn_abortRun (s : State) (g : SegRun) : Withdrawn s (s.abortRun g) :=
  withdrawn_trans (withdrawn_trans (withdrawn_chargeRun s g) (withdrawn_unload _ g.cells g.id)) (withdrawn_dropSeg _ g.id)

theorem withdrawn_abortWith (s : State) (g : SegRun) (e : Err) : Withdrawn s (s.abortWith g e) :=
  withdrawn_trans (withdrawn_trans (withdrawn_abortRun s g) (withdrawn_logRec ..)) (withdrawn_failEval ..)

/-- An aborted run is gone. -/
theorem abortWith_drops {s : State} {g y : SegRun} {e : Err} (h : y ∈ (s.abortWith g e).segs) : y.id ≠ g.id := by
  obtain ⟨x, hx, hid, -⟩ := (withdrawn_trans (withdrawn_logRec (s.abortRun g) ..) (withdrawn_failEval ..)).runs y h
  have hne := (List.mem_filter.1 (hx : x ∈ State.segs (State.dropSeg _ g.id))).2
  rw [hid]
  exact bne_iff_ne.1 hne

/-! ### A comb at 110 °C -/

/-- A comb that stops for heat: it has seen it, and from service it goes to thermal Rest. -/
def Comb.critical (k : Comb) : Comb :=
  { k with critSeen := true, svc := if k.svc = .inService then .thermalRest else k.svc, rest := k.rest || k.svc == .inService }

theorem critical_svc_ne (k : Comb) : k.critical.svc ≠ .inService := by
  by_cases h : k.svc = .inService
  · simp [Comb.critical, h]
  · simp [Comb.critical, h]

theorem critical_of_inService {k : Comb} (h : k.svc = .inService) : k.critical.svc = .thermalRest ∧ k.critical.rest = true := by
  simp [Comb.critical, h]

/-- A stopped comb gives up one of its runs: one that has not started waits again, another fails. -/
def State.giveUpRun (s : State) (c : Nat) (g : SegRun) : State :=
  match s.seg? g.id with
  | none => s
  | some g => if g.phase = .placed then s.requeueGang g id else s.abortWith g (St.thermalAbort, c)

theorem combCritical_eq (s : State) (c : Nat) :
    s.combCritical c = (s.segs.filter fun g => g.comb == c && !g.cells.isEmpty).foldl (fun s g => s.giveUpRun c g) (s.updComb c Comb.critical) := rfl

theorem withdrawn_giveUpRun (s : State) (c : Nat) (g : SegRun) : Withdrawn s (s.giveUpRun c g) := by
  unfold State.giveUpRun
  split
  · exact withdrawn_refl s
  · split
    · exact withdrawn_requeueGang ..
    · exact withdrawn_abortWith ..

theorem thinned_updComb (s : State) (c : Nat) (f : Comb → Comb) : Thinned s (s.updComb c f) :=
  ⟨⟨s.tenants, s.rings, _, s.cells, s.segs, s.log, s.meters, rfl⟩, runs_of_segs_eq rfl⟩

theorem thinned_combCritical (s : State) (c : Nat) : Thinned s (s.combCritical c) := by
  rw [combCritical_eq]
  exact thinned_trans (thinned_updComb s c _) (withdrawn_foldl (fun s g => withdrawn_giveUpRun s c g) _ _).toThinned

theorem bare_combCritical (s : State) (c k : Nat) :
    ((s.combCritical c).comb k).bare = if k = c then (s.comb c).bare.critical else (s.comb k).bare := by
  rw [combCritical_eq, (withdrawn_foldl (fun s g => withdrawn_giveUpRun s c g) _ _).bare, comb_updComb]
  split <;> rfl

/-! ### No run of a hot comb goes on -/

/-- The runs of a number wait, or work on cells of comb c. -/
def RunsOn (id c : Nat) (s : State) : Prop := ∀ x ∈ s.segs, x.id = id → x.phase = .ready ∨ (x.phase = .running ∧ x.comb = c ∧ x.cells ≠ [])

/-- Every run left of a number waits. -/
def Requeued (id : Nat) (s : State) : Prop := ∀ x ∈ s.segs, x.id = id → x.phase = .ready

theorem runsOn_of_thinned {id c : Nat} {s z : State} (h : Thinned s z) (hs : RunsOn id c s) : RunsOn id c z := by
  intro y hy hyid
  obtain ⟨x, hx, hid, hready | ⟨hp, hc, he⟩⟩ := h.runs y hy
  · exact .inl hready
  · rw [hp, hc, he]
    exact hs x hx (hid.symm.trans hyid)

theorem requeued_of_thinned {id : Nat} {s z : State} (h : Thinned s z) (hs : Requeued id s) : Requeued id z := by
  intro y hy hyid
  obtain ⟨x, hx, hid, hready | ⟨hp, -, -⟩⟩ := h.runs y hy
  · exact hready
  · exact hp.trans (hs x hx (hid.symm.trans hyid))

/-- Steps that keep P and Q, one of which leads from P to Q, lead from P to Q. -/
theorem foldl_reaches {α : Type} {f : State → α → State} {P Q : State → Prop} {l : List α} (hP : ∀ s a, P s → P (f s a)) (hQ : ∀ s a, Q s → Q (f s a))
    {a : α} (ha : a ∈ l) (hf : ∀ s, P s → Q (f s a)) {s : State} (hs : P s) : Q (l.foldl f s) := by
  obtain ⟨l₁, l₂, rfl⟩ := List.append_of_mem ha
  rw [List.foldl_append, List.foldl_cons]
  have hp : P (l₁.foldl f s) := List.foldlRecOn l₁ f hs fun y hy b _ => hP y b hy
  exact List.foldlRecOn l₂ f (hf _ hp) fun y hy b _ => hQ y b hy

theorem giveUpRun_requeues {c : Nat} {g : SegRun} {s : State} (h : RunsOn g.id c s) : Requeued g.id (s.giveUpRun c g) := by
  unfold State.giveUpRun
  split
  next hnone =>
    intro x hx hid
    exact absurd hid (by simpa using List.find?_eq_none.1 hnone x hx)
  next g' hg =>
    have hplaced : g'.phase ≠ .placed := by
      rcases h g' (mem_of_seg hg) (seg_id hg) with hp | ⟨hp, -⟩ <;> rw [hp] <;> decide
    rw [if_neg hplaced]
    intro x hx hid
    exact absurd (hid.trans (seg_id hg).symm) (abortWith_drops hx)

/-- A comb that stops leaves none of its running runs running. -/
theorem combCritical_requeues {id c : Nat} {s : State} (h : RunsOn id c s) : Requeued id (s.combCritical c) := by
  rw [combCritical_eq]
  have hkeeps : ∀ (y : State) (g : SegRun), Requeued id y → Requeued id (y.giveUpRun c g) := fun y g =>
    requeued_of_thinned (withdrawn_giveUpRun y c g).toThinned
  by_cases hex : ∃ g ∈ s.segs.filter (fun g => g.comb == c && !g.cells.isEmpty), g.id = id
  · obtain ⟨g, hg, rfl⟩ := hex
    refine foldl_reaches (P := RunsOn g.id c) (fun y a => ?_) hkeeps hg (fun y => giveUpRun_requeues) ?_
    · exact runsOn_of_thinned (withdrawn_giveUpRun y c a).toThinned
    · exact h
  · have hready : Requeued id (s.updComb c Comb.critical) := by
      intro x hx hid
      refine (h x hx hid).resolve_right fun ⟨_, hc, he⟩ => hex ⟨x, List.mem_filter.2 ⟨hx, ?_⟩, hid⟩
      simp [hc, he]
    exact List.foldlRecOn _ _ hready fun y hy g _ => hkeeps y g hy

/-! ### Every comb at 110 °C -/

/-- Every comb whose junction is at 110 °C or above stops. -/
def State.stopHot (s : State) (js : List Nat) : State := (List.range 4).foldl (fun s c => if 110 ≤ nth0 js c then s.combCritical c else s) s

theorem thinned_stopStep (js : List Nat) (s : State) (c : Nat) : Thinned s (if 110 ≤ nth0 js c then s.combCritical c else s) := by
  split
  · exact thinned_combCritical s c
  · exact thinned_refl s

theorem stopHot_spec (js : List Nat) (s : State) :
    Thinned s (s.stopHot js) ∧
    ∀ c, c < 4 → ((s.stopHot js).comb c).bare = if 110 ≤ nth0 js c then (s.comb c).bare.critical else (s.comb c).bare := by
  obtain ⟨hthin, hcomb⟩ := foldl_combs (F := fun s c => if 110 ≤ nth0 js c then s.combCritical c else s) (I := Thinned s) Comb.bare
    (f := fun c k => if 110 ≤ nth0 js c then k.critical else k) (fun y hy c _ => by
      refine ⟨thinned_trans hy (thinned_stopStep js y c), fun k => ?_⟩
      by_cases hhot : 110 ≤ nth0 js c
      · simp only [hhot, if_true, bare_combCritical]
      · simp only [hhot, if_false]
        split
        next hk => rw [hk]
        next => rfl) (List.nodup_range (n := 4)) (thinned_refl s)
  exact ⟨hthin, fun c hc => (hcomb c).trans (if_pos (List.mem_range.2 hc))⟩

theorem stopHot_requeues {js : List Nat} {id c : Nat} {s : State} (hc : c < 4) (hhot : 110 ≤ nth0 js c) (h : RunsOn id c s) : Requeued id (s.stopHot js) := by
  refine foldl_reaches (P := RunsOn id c) (fun y a => ?_) (fun y a => ?_) (List.mem_range.2 hc) (fun y hy => ?_) h
  · exact runsOn_of_thinned (thinned_stopStep js y a)
  · exact requeued_of_thinned (thinned_stopStep js y a)
  · rw [if_pos hhot]
    exact combCritical_requeues hy

theorem stopHot_cool {js : List Nat} (h : ∀ c, c < 4 → nth0 js c < 110) (s : State) : s.stopHot js = s :=
  List.foldlRecOn (motive := fun y => y = s) _ _ rfl fun y hy c hc => by
    rw [if_neg (Nat.not_le.2 (h c (List.mem_range.1 hc)))]
    exact hy

end Sys2Proof.Machine
end

section
/-! Settles O44 (R66 to R74, R367, R405, R409): the governor, emergencies, hot combs, Rest and the trip. -/

namespace Sys2Proof.Machine

open Sys2Proof.Safety

/-! ### Every comb changed by a function of its own -/

theorem updCombs_eq (s : State) (f : Nat → Comb → Comb) {z : State} (hz : (List.range 4).foldl (fun s c => s.updComb c (f c)) s = z) :
    (∃ cs, z = { s with combs := cs }) ∧ ∀ c, c < 4 → z.comb c = f c (s.comb c) := by
  obtain ⟨hframe, hcomb⟩ := foldl_combs (F := fun s c => s.updComb c (f c)) (I := fun y => ∃ cs, y = { s with combs := cs }) id (f := f)
    (fun y hy c _ => by
      obtain ⟨cs, rfl⟩ := hy
      exact ⟨⟨_, rfl⟩, comb_updComb _ c (f c)⟩) (List.nodup_range (n := 4)) ⟨s.combs, rfl⟩
  rw [hz] at hframe hcomb
  exact ⟨hframe, fun c hc => (hcomb c).trans (if_pos (List.mem_range.2 hc))⟩

/-! ### A sample of the junctions (R71, R73) -/

/-- The device's record of a sample. -/
def State.sampled (s : State) (tj : Junctions) : State :=
  { s with power := { s.power with
    hiveTj := tj.hive, e0Tj := tj.e0, e1Tj := tj.e1, hot := (junctions tj).map fun x => decide (100 < x)
    coolSince := (List.range 7).map fun i => coolFrom s.now (nth0 (junctions tj) i) (s.power.coolSince.getD i none) } }

/-- A comb's record of its junction. -/
def Comb.noteTj (k : Comb) (x : Nat) : Comb := { k with tj := x, tjMax := max k.tjMax x }

/-- A comb's record of a sample: its junction, and an emergency that the sample begins. -/
def Comb.noteSample (k : Comb) (x : Nat) (begins : Bool) : Comb := { k.noteTj x with emergSeen := k.emergSeen || begins }

/-- Every comb notes its junction. -/
def State.noteTjs (s : State) (js : List Nat) : State := (List.range 4).foldl (fun s c => s.updComb c fun k => k.noteTj (nth0 js c)) s

/-- A junction above 100 °C begins an emergency where none is. -/
def State.begins (s : State) (js : List Nat) : Bool := js.any (fun x => decide (100 < x)) && !s.power.emergency

/-- The record of a bound that an emergency suspends (flags 1) or lets hold again (flags 2). -/
def boundRec (flags now : Nat) : LogRec :=
  { type := Rec.boundSuspended, flags := flags, ten := 0xFFFF, source := 0xFF, waggle := now, arg0 := 0, arg1 := 0 }

/-- Where an emergency begins, every comb block shows it, and it is logged once. -/
theorem beginIf_eq (s : State) (b : Bool) {z : State} (hz : (if b then s.beginEmergency else s) = z) :
    (∃ cs, z = { s with
      power := { s.power with emergency := s.power.emergency || b }, combs := cs, log := if b = true then s.log.add (boundRec 1 s.now) else s.log }) ∧
    ∀ c, c < 4 → z.comb c = { s.comb c with emergSeen := (s.comb c).emergSeen || b } := by
  cases b with
  | false =>
    obtain rfl : s = z := hz
    refine ⟨⟨s.combs, ?_⟩, fun c _ => ?_⟩
    · rw [Bool.or_false]
      rfl
    · rw [Bool.or_false]
  | true =>
    obtain rfl : s.beginEmergency = z := hz
    obtain ⟨⟨cs, he⟩, hc⟩ := updCombs_eq { s with power := { s.power with emergency := true } } (fun _ k => { k with emergSeen := true }) rfl
    unfold State.beginEmergency
    simp only [logRec_deviceWide, Bool.or_true]
    refine ⟨⟨cs, ?_⟩, hc⟩
    rw [he]
    rfl

/-- What a sample records before any comb stops. -/
theorem noted_spec (s : State) (js : List Nat) (b : Bool) {z : State} (hz : (if b then (s.noteTjs js).beginEmergency else s.noteTjs js) = z) :
    (∃ cs, z = { s with
      power := { s.power with emergency := s.power.emergency || b }, combs := cs, log := if b = true then s.log.add (boundRec 1 s.now) else s.log }) ∧
    ∀ c, c < 4 → z.comb c = (s.comb c).noteSample (nth0 js c) b := by
  obtain ⟨⟨cs, he⟩, hc⟩ := updCombs_eq s (fun c k => k.noteTj (nth0 js c)) (z := s.noteTjs js) rfl
  obtain ⟨⟨cs', he'⟩, hc'⟩ := beginIf_eq (s.noteTjs js) b hz
  refine ⟨⟨cs', ?_⟩, fun c h => ?_⟩
  · rw [he', he]
  · rw [hc' c h, hc c h]
    rfl

theorem exec_thermalSample_next (t : Nat) (tj : Junctions) {s : State} (hoff : s.power.off = false) :
    exec (.thermalSample t tj) s = .next (settled t s
      ((if s.begins (junctions tj) then (((s.advance t).sampled tj).noteTjs (junctions tj)).beginEmergency
        else ((s.advance t).sampled tj).noteTjs (junctions tj)).stopHot (junctions tj))) := by
  obtain ⟨⟨cs, he⟩, -⟩ := updCombs_eq ((s.advance t).sampled tj) (fun c k => k.noteTj (nth0 (junctions tj) c)) rfl
  have hem : (((s.advance t).sampled tj).noteTjs (junctions tj)).power.emergency = s.power.emergency := by
    unfold State.noteTjs
    rw [he]
    rfl
  unfold State.begins
  rw [exec_thermalSample, execThermalSample, run_next hoff, ← hem]
  rfl

/-- A run on the cells of a comb, by its number alone (numbers are the runs' own). -/
theorem runsOn_of_mem {s : State} {g : SegRun} (hn : (s.segs.map (·.id)).Nodup) (hg : g ∈ s.segs) (hp : g.phase = .running) (he : g.cells ≠ []) :
    RunsOn g.id g.comb s := by
  intro x hx hid
  obtain rfl := List.inj_on_of_nodup_map hn hx hg hid
  exact .inr ⟨hp, rfl, he⟩

theorem thermalSample_spec (t : Nat) (tj : Junctions) {s : State} (hoff : s.power.off = false) (hn : (s.segs.map (·.id)).Nodup) :
    ∃ s', exec (.thermalSample t tj) s = .next s' ∧
      s'.power = { ((s.advance t).sampled tj).power with emergency := s.power.emergency || s.begins (junctions tj) } ∧
      (∀ c, c < 4 → (s'.comb c).bare =
        if 110 ≤ nth0 (junctions tj) c then ((s.comb c).noteSample (nth0 (junctions tj) c) (s.begins (junctions tj))).bare.critical
        else ((s.comb c).noteSample (nth0 (junctions tj) c) (s.begins (junctions tj))).bare) ∧
      (∀ c, c < 4 → 110 ≤ nth0 (junctions tj) c → ∀ g ∈ s.segs, g.phase = .running → g.comb = c → g.cells ≠ [] → Requeued g.id s') ∧
      ((∀ c, c < 4 → nth0 (junctions tj) c < 110) → s'.segs = s.segs ∧ s'.rings = s.rings ∧ s'.cells = s.cells ∧
        s'.log = if s.begins (junctions tj) = true then s.log.add (boundRec 1 (max s.now t)) else s.log) := by
  obtain ⟨z, hz⟩ : ∃ z, (if s.begins (junctions tj) then (((s.advance t).sampled tj).noteTjs (junctions tj)).beginEmergency
      else ((s.advance t).sampled tj).noteTjs (junctions tj)) = z := ⟨_, rfl⟩
  obtain ⟨⟨cs, he⟩, hcomb⟩ := noted_spec ((s.advance t).sampled tj) (junctions tj) (s.begins (junctions tj)) hz
  obtain ⟨hthin, hbare⟩ := stopHot_spec (junctions tj) z
  have hsegs : z.segs = s.segs := by
    rw [he]
    rfl
  refine ⟨_, exec_thermalSample_next t tj hoff, ?_, fun c hc => ?_, fun c hc hhot g hg hp hgc hcells => ?_, fun hcool => ?_⟩
  · rw [hz]
    refine hthin.power.trans ?_
    rw [he]
    rfl
  · rw [hz]
    refine (hbare c hc).trans ?_
    rw [hcomb c hc]
    rfl
  · rw [hz]
    subst hgc
    exact stopHot_requeues hc hhot (fun x hx => runsOn_of_mem hn hg hp hcells x (hsegs ▸ hx))
  · rw [hz, stopHot_cool hcool, he]
    exact ⟨rfl, rfl, rfl, rfl⟩

/-! ### The ends of an emergency, of thermal Rest and of a class-0 floor; the trip; Rest (R68, R71, R73, R74, R367, R405, R409) -/

theorem c0HoldExpire_spec {t comb : Nat} {s : State} (hoff : s.power.off = false) (hfloor : (s.comb comb).c0Floor = true) (hruns : s.c0Runs comb = false)
    (hdue : (s.comb comb).c0Last + (s.pace comb).c0Hold * 1000 ≤ max s.now t) :
    ∃ s', exec (.c0HoldExpire t comb) s = .next s' ∧ OnlyComb s s' t comb ∧ s'.comb comb = { s.comb comb with c0Floor := false } := by
  have hnext : exec (.c0HoldExpire t comb) s = .next (settled t s ((s.advance t).onlyIf
      ((s.comb comb).c0Floor && !s.c0Runs comb && decide ((s.comb comb).c0Last + (s.pace comb).c0Hold * 1000 ≤ max s.now t)) fun s =>
        s.updComb comb fun k => { k with c0Floor := false })) := by
    rw [exec_c0HoldExpire, execC0HoldExpire, run_next hoff]
    rfl
  rw [hfloor, hruns, decide_eq_true hdue] at hnext
  exact ⟨_, hnext, updComb_settles ..⟩

theorem combThermalRecover_spec {t c : Nat} {s : State} (hoff : s.power.off = false) (hrest : (s.comb c).svc = .thermalRest)
    (hcool : (s.advance t).cooled c = true) :
    ∃ s', exec (.combThermalRecover t c) s = .next s' ∧ OnlyComb s s' t c ∧ s'.comb c = { s.comb c with svc := .inService, idleSince := max s.now t } := by
  have hnext : exec (.combThermalRecover t c) s = .next (settled t s ((s.advance t).onlyIf
      ((s.comb c).svc == .thermalRest && (s.advance t).cooled c) fun s => s.updComb c fun k => { k with svc := .inService, idleSince := s.now })) := by
    rw [exec_combThermalRecover, execCombThermalRecover, run_next hoff]
    rfl
  rw [hrest, hcool] at hnext
  exact ⟨_, hnext, updComb_settles ..⟩

theorem exec_thermalTrip_off {t die : Nat} {s : State} (hoff : s.power.off = false) (hlo : 4 ≤ die) (hhi : die ≤ 6) :
    exec (.thermalTrip t die) s = .next { s with now := max s.now t, power := { s.power with off := true } } := by
  rw [exec_thermalTrip, execThermalTrip, run_next hoff, decide_eq_true ⟨hlo, hhi⟩]
  rfl

theorem exec_combRestEntry_next (t c : Nat) {s : State} (hoff : s.power.off = false) :
    exec (.combRestEntry t c) s = .next (settled t s ((s.advance t).onlyIf
      (s.settings.restEn && s.power.phase == .ready && (s.comb c).svc == .inService && !(s.comb c).rest && !s.reservesC0 c && !s.copiesOn c
        && !(s.segs.any fun g => g.comb == c && !g.cells.isEmpty) && decide ((s.comb c).idleSince + s.settings.restIdle * 1000 ≤ max s.now t)) fun s =>
      s.updComb c fun k => { k with rest := true })) := by
  rw [exec_combRestEntry, execCombRestEntry, run_next hoff]
  rfl

theorem combRestEntry_spec {t c : Nat} {s : State} (hoff : s.power.off = false) (hen : s.settings.restEn = true) (hready : s.power.phase = .ready)
    (hsvc : (s.comb c).svc = .inService) (hrest : (s.comb c).rest = false) (hres : s.reservesC0 c = false) (hcopy : s.copiesOn c = false)
    (hruns : ∀ g ∈ s.segs, g.comb = c → g.cells = []) (hdue : (s.comb c).idleSince + s.settings.restIdle * 1000 ≤ max s.now t) :
    ∃ s', exec (.combRestEntry t c) s = .next s' ∧ OnlyComb s s' t c ∧ s'.comb c = { s.comb c with rest := true } := by
  have hnext := exec_combRestEntry_next t c hoff
  have hnone : (s.segs.any fun g => g.comb == c && !g.cells.isEmpty) = false := by
    simpa using hruns
  rw [hen, hready, hsvc, hrest, hres, hcopy, hnone, decide_eq_true hdue] at hnext
  exact ⟨_, hnext, updComb_settles ..⟩

theorem exec_thermalEmergencyEnd_next {t : Nat} {s : State} (hoff : s.power.off = false) (hem : s.power.emergency = true)
    (hcool : ∀ d, d < 7 → (s.advance t).cooled d = true) :
    exec (.thermalEmergencyEnd t) s = .next (settled t s
      (((List.range 4).foldl (fun (s : State) c => s.updComb c fun k => { k with thermal := false })
        { s.advance t with power := { s.power with emergency := false } }).logRec Rec.boundSuspended 2 Rec.deviceWide 0xFF 0 0)) := by
  have hall : ((s.advance t).power.emergency && (List.range 7).all (s.advance t).cooled) = true :=
    Bool.and_eq_true_iff.2 ⟨hem, List.all_eq_true.2 fun d hd => hcool d (List.mem_range.1 hd)⟩
  rw [exec_thermalEmergencyEnd, execThermalEmergencyEnd, run_next hoff, hall]
  rfl

theorem thermalEmergencyEnd_spec {t : Nat} {s : State} (hoff : s.power.off = false) (hem : s.power.emergency = true)
    (hcool : ∀ d, d < 7 → (s.advance t).cooled d = true) :
    ∃ s', exec (.thermalEmergencyEnd t) s = .next s' ∧ s'.power = { s.power with emergency := false } ∧
      (∀ c, c < 4 → s'.comb c = { s.comb c with thermal := false }) ∧ s'.log = s.log.add (boundRec 2 (max s.now t)) ∧
      s'.segs = s.segs ∧ s'.rings = s.rings ∧ s'.cells = s.cells := by
  obtain ⟨⟨cs, he⟩, hcomb⟩ := updCombs_eq { s.advance t with power := { s.power with emergency := false } } (fun _ k => { k with thermal := false }) rfl
  refine ⟨_, exec_thermalEmergencyEnd_next hoff hem hcool, ?_⟩
  rw [logRec_deviceWide]
  refine ⟨?_, hcomb, ?_⟩
  · rw [he]
    rfl
  · rw [he]
    exact ⟨rfl, rfl, rfl, rfl⟩

/-- Settles O44: the governor's code is the rules', a sample begins emergencies and stops the combs at 110 °C with their runs; each of the others acts where its rule says. -/
theorem paceAndThermal : Obligations.PaceAndThermal := by
  refine ⟨fun t inputW meas s hoff => ?_, fun t comb s hoff hfloor hruns hdue => c0HoldExpire_spec hoff hfloor hruns hdue, fun t tj s hoff hn => ?_,
    fun t s hoff => ⟨fun hem hcool => thermalEmergencyEnd_spec hoff hem hcool, fun c hrest hcool => combThermalRecover_spec hoff hrest hcool,
      fun die hlo hhi => exec_thermalTrip_off hoff hlo hhi, fun c => combRestEntry_spec hoff⟩⟩
  · obtain ⟨s', hs', honly, helec, hcomb⟩ := paceInterval_spec t inputW meas hoff
    refine ⟨s', hs', honly, helec, fun c hc => ⟨fun hrest => ?_, fun hrest => ?_⟩⟩
    · rw [hcomb c hc, Comb.paced, if_pos hrest]
    · rw [hcomb c hc, Comb.paced, hrest]
      refine ⟨_, _, rfl, codeRule_nextCode .., ?_⟩
      exact (nextCode_thermal_iff ..).trans (by rw [decide_eq_true_iff]; rfl)
  · obtain ⟨s', hs', hpower, hcomb, hstop, hcool⟩ := thermalSample_spec t tj hoff hn
    refine ⟨s', hs', hpower, fun c hc => ?_, hcool⟩
    have hbare := hcomb c hc
    rcases Nat.lt_or_ge (nth0 (junctions tj) c) 110 with hlow | hhot
    · rw [if_neg (Nat.not_le.2 hlow)] at hbare
      have hsvc := congrArg Comb.svc hbare
      have hseen := congrArg Comb.critSeen hbare
      exact ⟨congrArg Comb.tj hbare, congrArg Comb.tjMax hbare, congrArg Comb.emergSeen hbare, fun _ => ⟨hsvc, hseen⟩,
        fun hhot => absurd hhot (Nat.not_le.2 hlow)⟩
    · rw [if_pos hhot] at hbare
      have hsvc := congrArg Comb.svc hbare
      exact ⟨congrArg Comb.tj hbare, congrArg Comb.tjMax hbare, congrArg Comb.emergSeen hbare, fun hlow => absurd hhot (Nat.not_le.2 hlow),
        fun _ => ⟨congrArg Comb.critSeen hbare, fun hin => critical_svc_ne _ (hsvc.symm.trans hin),
          fun hin => (critical_of_inService hin).imp hsvc.trans (congrArg Comb.rest hbare).trans, hstop c hc hhot⟩⟩

end Sys2Proof.Machine
end

section
/-! Settles O40 (R68, R138, R148, R326 to R331): the placement of a run, starvation, and the scrubs of cells. -/

namespace Sys2Proof.Machine

open Sys2Proof.Safety

/-! ### When DISPATCH places a run -/

theorem shape_nodup {comb n : Nat} {cells : List Nat} (h : shapeOk comb n cells = true) : cells.Nodup := by
  simp only [shapeOk, Bool.and_eq_true, decide_eq_true_eq] at h
  exact h.1.1.1.2

theorem mayPlace_iff (s : State) (comb : Nat) (cells : List Nat) (g : SegRun) :
    (g.waits && s.power.phase == .ready && s.targetComb g == some comb && shapeOk comb (s.runCells g) cells
      && cells.all (s.avail g comb (s.runCells g)) && s.isNext comb g) = true ↔ MayPlace s comb cells g := by
  simp only [MayPlace, Bool.and_eq_true, beq_iff_eq, and_assoc]

/-- Without a borrower on the cells, nothing is taken back. -/
theorem stopBorrowers_of_none {s : State} {cells : List Nat} (h : (s.segs.all fun b => !(b.borrower && b.cells.any cells.contains)) = true) :
    s.stopBorrowers cells = s := by
  have hnone : (s.segs.filter fun b => b.borrower && b.cells.any cells.contains) = [] := by
    rw [List.filter_eq_nil_iff]
    intro b hb hp
    have := List.all_eq_true.1 h b hb
    rw [hp] at this
    cases this
  unfold State.stopBorrowers
  rw [hnone]
  rfl

/-! ### What comes before the cells change hands -/

/-- From s to z runs, DRAM, every scratchpad and every cell's run stay. -/
structure Readied (s z : State) : Prop where
  segs : z.segs = s.segs
  dram : z.dram = s.dram
  mem : ∀ k, (z.cell k).mem = (s.cell k).mem
  seg : ∀ k, (z.cell k).seg = (s.cell k).seg

theorem readied_refl (s : State) : Readied s s := ⟨rfl, rfl, fun _ => rfl, fun _ => rfl⟩

theorem readied_trans {s z y : State} (h : Readied s z) (g : Readied z y) : Readied s y :=
  ⟨g.segs.trans h.segs, g.dram.trans h.dram, fun k => (g.mem k).trans (h.mem k), fun k => (g.seg k).trans (h.seg k)⟩

theorem readied_wakeComb (s : State) (c : Nat) : Readied s (s.wakeComb c) := by
  unfold State.wakeComb
  split
  · refine ⟨rfl, rfl, cell_map_keeps (·.mem) (fun x => ?_) _, cell_map_keeps (·.seg) (fun x => ?_) _⟩
    · split <;> rfl
    · split <;> rfl
  · exact readied_refl s

theorem readied_countReplay (s : State) (g : SegRun) (comb : Nat) : Readied s (s.countReplay g comb) := by
  unfold State.countReplay
  split
  · obtain ⟨tn, h⟩ := logRec_eq { s with log := { s.log with replays := capAt 0xFFFF (s.log.replays + 1) } } Rec.replay 0 g.ten comb (g.seq % 2 ^ 32) g.lring
    rw [h]
    exact ⟨rfl, rfl, fun _ => rfl, fun _ => rfl⟩
  · exact readied_refl s

theorem readied_renameCells (s : State) (g : SegRun) (new : List Nat) : Readied s (s.renameCells g new) := by
  unfold State.renameCells
  dsimp only
  refine ⟨rfl, rfl, cell_map_keeps (·.mem) (fun x => ?_) s, cell_map_keeps (·.seg) (fun x => ?_) s⟩
  · split <;> rfl
  · split <;> rfl

/-- A comb and the log as a placement leaves them before it hands out cells: the comb wakes, a replay is counted, the class-0 floor holds (R68, R343, R367). -/
def State.combReady (s : State) (g : SegRun) (comb : Nat) : State :=
  let z := (s.wakeComb comb).countReplay g comb
  if g.cls = 0 then z.holdC0 comb else z

/-- Accesses under way to a yielded run follow it. -/
def State.followRun (s : State) (g : SegRun) (cells : List Nat) : State := if g.phase = .yielded then s.renameCells g cells else s

theorem readied_combReady (s : State) (g : SegRun) (comb : Nat) : Readied s (s.combReady g comb) := by
  have h := readied_trans (readied_wakeComb s comb) (readied_countReplay (s.wakeComb comb) g comb)
  unfold State.combReady
  dsimp only
  split
  · exact ⟨h.segs, h.dram, h.mem, h.seg⟩
  · exact h

theorem readied_followRun (s : State) (g : SegRun) (cells : List Nat) : Readied s (s.followRun g cells) := by
  unfold State.followRun
  split
  · exact readied_renameCells s g cells
  · exact readied_refl s

theorem c0Floor_combReady {g : SegRun} (h : g.cls = 0) (s : State) (comb : Nat) (cells : List Nat) :
    (((s.combReady g comb).followRun g cells).comb comb).c0Floor = true := by
  have hfloor : ((s.combReady g comb).comb comb).c0Floor = true := by
    unfold State.combReady
    dsimp only
    rw [if_pos h]
    exact congrArg Comb.c0Floor (State.comb_updComb_self ..)
  unfold State.followRun
  split <;> exact hfloor

/-! ### The cells change hands -/

/-- From s to z nothing but shelves of combs differs. -/
structure Shelved (s z : State) : Prop where
  frame : ∃ cs, z = { s with combs := cs }
  bare : BareKept s z

theorem shelved_refl (s : State) : Shelved s s := ⟨⟨s.combs, rfl⟩, fun _ => rfl⟩

theorem shelved_trans {s z y : State} (h : Shelved s z) (g : Shelved z y) : Shelved s y := by
  obtain ⟨_, rfl⟩ := h.frame
  obtain ⟨cs, rfl⟩ := g.frame
  exact ⟨⟨cs, rfl⟩, bareKept_trans h.bare g.bare⟩

theorem Shelved.cell {s z : State} (h : Shelved s z) (k : Nat) : z.cell k = s.cell k := by
  obtain ⟨cs, rfl⟩ := h.frame
  rfl

theorem Shelved.seg {s z : State} (h : Shelved s z) (j : Nat) : z.seg? j = s.seg? j := by
  obtain ⟨cs, rfl⟩ := h.frame
  rfl

theorem Shelved.dram {s z : State} (h : Shelved s z) : z.dram = s.dram := by
  obtain ⟨cs, rfl⟩ := h.frame
  rfl

theorem shelved_foldl {α : Type} {f : State → α → State} (hf : ∀ s a, Shelved s (f s a)) (l : List α) (s : State) : Shelved s (l.foldl f s) := by
  induction l generalizing s with
  | nil => exact shelved_refl s
  | cons a r ih => exact shelved_trans (hf s a) (ih _)

theorem shelved_refComp (s : State) (comb ten keyset comp seg : Nat) : Shelved s (s.refComp comb ten keyset comp seg) :=
  ⟨⟨_, rfl⟩, bareKept_updComb s comb fun _ => rfl⟩

/-- Key references of a run touch shelves only. -/
theorem shelved_refKeys (s : State) (g : SegRun) : Shelved s (s.refKeys g) := by
  unfold State.refKeys
  split
  · refine shelved_foldl (fun s st => ?_) _ s
    split
    · split
      · exact shelved_refComp ..
      · exact shelved_refl s
    · exact shelved_refl s
  · exact shelved_refl s

/-- The comb after a run's turn: the rotation goes on from its tenant, and the run no longer holds others back (R326, R329). -/
def Comb.tookTurn (k : Comb) (g : SegRun) : Comb :=
  { k with lastTen := k.lastTen.set g.cls g.ten, stopped := k.stopped.map fun o => if o = some g.id then none else o }

/-- A run on its cells. -/
def SegRun.placedOn (g : SegRun) (comb : Nat) (cells : List Nat) (clean borrows : Bool) : SegRun :=
  { g with comb := comb, cells := cells, phase := .placed, scrubbed := clean, borrower := borrows }

/-- Cells handed to a run, each under its group index. -/
def State.handCells (s : State) (id : Nat) (cells : List Nat) : State :=
  s.eachCell ((List.range cells.length).zip cells) (·.2) fun p c => { c with seg := some id, group := p.1 }

theorem assign_eq {s : State} {g : SegRun} {comb : Nat} {cells : List Nat}
    (h : (s.segs.all fun b => !(b.borrower && b.cells.any cells.contains)) = true) :
    ∃ clean borrows, s.assign g comb cells =
      (((((s.combReady g comb).followRun g cells).handCells g.id cells).updSeg g.id fun x => x.placedOn comb cells clean borrows).updComb comb
        fun k => k.tookTurn g).refKeys { g with comb := comb } := by
  unfold State.assign
  rw [stopBorrowers_of_none h]
  exact ⟨_, _, rfl⟩

theorem map_snd_groupIndex (cells : List Nat) : ((List.range cells.length).zip cells).map (·.2) = cells :=
  List.map_snd_zip (by simp)

theorem cell_handCells {s : State} {id i c : Nat} {cells : List Nat} (hn : cells.Nodup) (h : cells[i]? = some c) :
    (s.handCells id cells).cell c = { s.cell c with seg := some id, group := i } := by
  have hmem : (i, c) ∈ (List.range cells.length).zip cells := by
    obtain ⟨hi, -⟩ := List.getElem?_eq_some_iff.1 h
    exact List.mem_iff_getElem?.2 ⟨i, List.getElem?_zip_eq_some.2 ⟨List.getElem?_range hi, h⟩⟩
  exact cell_eachCell_mem (by rwa [map_snd_groupIndex]) hmem s

theorem cell_handCells_other {s : State} {id c : Nat} {cells : List Nat} (h : c ∉ cells) : (s.handCells id cells).cell c = s.cell c :=
  cell_eachCell_other (by rwa [map_snd_groupIndex]) s

theorem mem_handCells (s : State) (id : Nat) (cells : List Nat) (k : Nat) : ((s.handCells id cells).cell k).mem = (s.cell k).mem := by
  refine eachCell_keeps (·.mem) ?_ s k
  exact fun _ _ => rfl

theorem seg_handCells (s : State) (id : Nat) (cells : List Nat) (j : Nat) : (s.handCells id cells).seg? j = s.seg? j :=
  congrArg (List.find? fun g : SegRun => g.id == j) (eachCell_segs s)

/-- What an assignment leaves. -/
theorem assign_spec {s z : State} {g : SegRun} {comb : Nat} {cells : List Nat} (hg : s.seg? g.id = some g) (hn : cells.Nodup)
    (hl : (s.segs.all fun b => !(b.borrower && b.cells.any cells.contains)) = true) (hz : s.assign g comb cells = z) :
    (∃ clean borrows, z.seg? g.id = some (g.placedOn comb cells clean borrows)) ∧
    (∀ i c, cells[i]? = some c → (z.cell c).seg = some g.id ∧ (z.cell c).group = i) ∧
    (∀ c, c ∉ cells → (z.cell c).seg = (s.cell c).seg) ∧ (∀ j, j ≠ g.id → z.seg? j = s.seg? j) ∧ SameWords s z ∧ z.dram = s.dram ∧
    (g.cls = 0 → (z.comb comb).c0Floor = true) := by
  obtain ⟨clean, borrows, he⟩ := assign_eq (g := g) (comb := comb) hl
  rw [hz] at he
  generalize hy : (s.combReady g comb).followRun g cells = y at he
  have hready : Readied s y := hy ▸ readied_trans (readied_combReady s g comb) (readied_followRun _ g cells)
  have hid : ∀ x : SegRun, (x.placedOn comb cells clean borrows).id = x.id := fun _ => rfl
  have hshelved := he ▸ shelved_refKeys (((y.handCells g.id cells).updSeg g.id fun x => x.placedOn comb cells clean borrows).updComb comb
    fun k => k.tookTurn g) { g with comb := comb }
  have hcell : ∀ k, z.cell k = (y.handCells g.id cells).cell k := hshelved.cell
  have hseg : ∀ j, z.seg? j = ((y.handCells g.id cells).updSeg g.id fun x => x.placedOn comb cells clean borrows).seg? j := hshelved.seg
  have hhand : ∀ j, (y.handCells g.id cells).seg? j = s.seg? j := fun j =>
    (seg_handCells y g.id cells j).trans (congrArg (List.find? fun g : SegRun => g.id == j) hready.segs)
  refine ⟨⟨clean, borrows, ?_⟩, fun i c h => ?_, fun c h => ?_, fun j hj => ?_, fun k a => ?_, ?_, fun hc => ?_⟩
  · rw [hseg]
    exact seg_updSeg_self hid ((hhand g.id).trans hg)
  · rw [hcell, cell_handCells hn h]
    exact ⟨rfl, rfl⟩
  · rw [hcell, cell_handCells_other h, hready.seg]
  · rw [hseg, seg_updSeg_other hid hj, hhand]
  · unfold State.word
    rw [hcell, mem_handCells, hready.mem]
  · exact hshelved.dram.trans ((eachCell_dram y).trans hready.dram)
  · have hfloor := congrArg Comb.c0Floor (hshelved.bare comb)
    rw [State.comb_updComb_self, State.updSeg_comb_entry] at hfloor
    have hturn : (z.comb comb).c0Floor = ((y.handCells g.id cells).comb comb).c0Floor := hfloor
    rw [hturn, State.comb, State.handCells, eachCell_combs, ← hy]
    exact c0Floor_combReady hc ..

/-! ### DISPATCH_STARVATION (R329) -/

/-- The older of two waiting runs, the first where they have waited equally long. -/
def older (b : Option SegRun) (g : SegRun) : Option SegRun :=
  match b with
  | none => some g
  | some x => if g.readyAt < x.readyAt then some g else some x

/-- A run that has waited longer than every other one is the oldest. -/
theorem foldl_older {g : SegRun} {l : List SegRun} (h : ∀ x ∈ l, x ≠ g → g.readyAt < x.readyAt) :
    l.foldl older (some g) = some g := by
  induction l with
  | nil => rfl
  | cons a r ih =>
    have ha : older (some g) a = some g := by
      by_cases hag : a = g
      · rw [hag, older, if_neg (lt_irrefl _)]
      · exact if_neg (Nat.lt_asymm (h a List.mem_cons_self hag))
    rw [List.foldl_cons, ha]
    exact ih fun x hx => h x (List.mem_cons_of_mem _ hx)

theorem foldl_older_eq {g : SegRun} {l : List SegRun} (hg : g ∈ l) (h : ∀ x ∈ l, x ≠ g → g.readyAt < x.readyAt) (b : Option SegRun)
    (hb : ∀ x, b = some x → x ≠ g → g.readyAt < x.readyAt) : l.foldl older b = some g := by
  induction l generalizing b with
  | nil => cases hg
  | cons a r ih =>
    have hr : ∀ x ∈ r, x ≠ g → g.readyAt < x.readyAt := fun x hx => h x (List.mem_cons_of_mem _ hx)
    rw [List.foldl_cons]
    by_cases hag : a = g
    · have hfirst : older b a = some g := by
        rw [hag]
        cases b with
        | none => rfl
        | some x =>
          by_cases hx : x = g
          · rw [hx, older, ite_self]
          · exact if_pos (hb x rfl hx)
      rw [hfirst]
      exact foldl_older hr
    · refine ih ((List.mem_cons.1 hg).resolve_left (Ne.symm hag)) hr _ fun x hx hxg => ?_
      cases b with
      | none =>
        obtain rfl : a = x := Option.some.inj hx
        exact h a List.mem_cons_self hag
      | some y =>
        simp only [older] at hx
        split at hx
        · obtain rfl : a = x := Option.some.inj hx
          exact h a List.mem_cons_self hag
        · exact hb x hx hxg

/-- The waiting runs of a class on a comb. -/
def State.queued (s : State) (comb cls : Nat) : List SegRun := s.segs.filter fun g => g.waits && g.cls == cls && s.targetComb g == some comb

theorem mem_queued_iff (s : State) (comb cls : Nat) (g : SegRun) :
    g ∈ s.queued comb cls ↔ g ∈ s.segs ∧ g.waits = true ∧ g.cls = cls ∧ s.targetComb g = some comb := by
  simp [State.queued, and_assoc]

theorem exec_dispatchStarvation_next (t comb cls : Nat) {s : State} {g : SegRun} (hoff : s.power.off = false)
    (hg : (s.queued comb cls).foldl older none = some g) :
    exec (.dispatchStarvation t comb cls) s = .next (settled t s ((s.advance t).onlyIf (decide (comb < 4 ∧ cls < 4 ∧ g.readyAt + 1000000 ≤ max s.now t))
      fun s => s.updComb comb fun k => { k with stopped := k.stopped.set cls (some g.id) })) := by
  rw [exec_dispatchStarvation, execDispatchStarvation, run_next hoff]
  dsimp only
  generalize hb : List.foldl _ none _ = b
  obtain rfl : b = some g := hb.symm.trans hg
  rfl

theorem dispatchStarvation_spec {t comb cls : Nat} {g : SegRun} {s : State} (hoff : s.power.off = false) (hcomb : comb < 4) (hcls : cls < 4)
    (hg : g ∈ s.queued comb cls) (hold : ∀ x ∈ s.queued comb cls, x ≠ g → g.readyAt < x.readyAt) (hdue : g.readyAt + 1000000 ≤ max s.now t) :
    ∃ s', exec (.dispatchStarvation t comb cls) s = .next s' ∧ OnlyComb s s' t comb ∧
      s'.comb comb = { s.comb comb with stopped := (s.comb comb).stopped.set cls (some g.id) } := by
  have hnext := exec_dispatchStarvation_next t comb cls hoff (foldl_older_eq hg hold none fun _ h => nomatch h)
  rw [decide_eq_true ⟨hcomb, hcls, hdue⟩, onlyIf_true] at hnext
  exact ⟨_, hnext, updComb_settles ..⟩

/-! ### CELL_SCRUB_COMPLETE (R148, R330) -/

/-- A cell that comes to a run of a tenant: zero, unless it was that tenant's last. -/
def Cell.scrubFor (ten : Nat) (c : Cell) : Cell := if c.lastTen = some ten then c else c.scrub (some ten)

theorem scrubFor_other {ten : Nat} {c : Cell} (h : c.lastTen ≠ some ten) : Zeroed (c.scrubFor ten) ∧ (c.scrubFor ten).lastTen = some ten := by
  rw [Cell.scrubFor, if_neg h]
  exact ⟨⟨rfl, rfl, rfl, rfl, rfl⟩, rfl⟩

theorem scrubFor_own {ten : Nat} {c : Cell} (h : c.lastTen = some ten) : c.scrubFor ten = c := if_pos h

theorem exec_cellScrubComplete_group (t seg : Nat) {s : State} {g : SegRun} (hoff : s.power.off = false) (hg : s.seg? seg = some g) (hp : g.phase = .placed)
    (hs : g.scrubbed = false) :
    exec (.cellScrubComplete t (.group seg)) s = .next (settled t s
      (((s.advance t).eachCell g.cells id fun _ c => c.scrubFor g.ten).updSeg seg fun x => { x with scrubbed := true })) := by
  have hg' : (s.advance t).seg? seg = some g := hg
  rw [exec_cellScrubComplete, execCellScrubComplete, run_next hoff]
  simp only [hg', hp, hs]
  rfl

theorem groupScrub_spec {t seg : Nat} {g : SegRun} {s : State} (hoff : s.power.off = false) (hg : s.seg? seg = some g) (hp : g.phase = .placed)
    (hs : g.scrubbed = false) (hn : g.cells.Nodup) :
    ∃ s', exec (.cellScrubComplete t (.group seg)) s = .next s' ∧ s'.seg? seg = some { g with scrubbed := true } ∧ s'.dram = s.dram ∧
      (∀ c ∈ g.cells, (s.cell c).lastTen ≠ some g.ten → Zeroed (s'.cell c) ∧ (s'.cell c).lastTen = some g.ten) ∧
      (∀ c, c ∉ g.cells ∨ (s.cell c).lastTen = some g.ten → s'.cell c = s.cell c) := by
  obtain ⟨z, hz⟩ : ∃ z, (s.advance t).eachCell g.cells id (fun _ c => c.scrubFor g.ten) = z := ⟨_, rfl⟩
  have hin : ∀ c ∈ g.cells, z.cell c = (s.cell c).scrubFor g.ten := fun c hc => by
    rw [← hz]
    exact cell_eachCell_mem (key := id) (by rwa [List.map_id]) hc _
  have hout : ∀ c, c ∉ g.cells → z.cell c = s.cell c := fun c hc => by
    rw [← hz]
    exact cell_eachCell_other (by rwa [List.map_id]) _
  have hseg : z.seg? seg = some g := by
    unfold State.seg?
    rw [← hz, eachCell_segs]
    exact hg
  refine ⟨_, exec_cellScrubComplete_group t seg hoff hg hp hs, ?_, ?_, fun c hc hten => ?_, fun c h => ?_⟩
  · rw [hz]
    exact seg_updSeg_self (fun _ => rfl) hseg
  · exact eachCell_dram _
  · rw [hz, settled_cell, State.updSeg_cell_entry, hin c hc]
    exact scrubFor_other hten
  · rw [hz, settled_cell, State.updSeg_cell_entry]
    by_cases hc : c ∈ g.cells
    · rw [hin c hc, scrubFor_own (h.resolve_left (not_not.2 hc))]
    · exact hout c hc

/-- The free cells of a tenant's reservation that no scrub has reached. -/
def State.unscrubbed (s : State) (comb ten : Nat) : List Nat :=
  ((s.comb comb).reserved.filter fun r => r.2.1 == ten && !r.2.2 && s.cellFree r.1).map (·.1)

theorem mem_unscrubbed_iff (s : State) (comb ten c : Nat) :
    c ∈ s.unscrubbed comb ten ↔ (c, ten, false) ∈ (s.comb comb).reserved ∧ (s.cell c).seg = none := by
  simp only [State.unscrubbed, State.cellFree, List.mem_map, List.mem_filter, Bool.and_eq_true, beq_iff_eq, Bool.not_eq_true',
    Option.isNone_iff_eq_none]
  constructor
  · rintro ⟨⟨c, ten, b⟩, ⟨hr, ⟨rfl, rfl⟩, hfree⟩, rfl⟩
    exact ⟨hr, hfree⟩
  · rintro ⟨hr, hfree⟩
    exact ⟨_, ⟨hr, ⟨rfl, rfl⟩, hfree⟩, rfl⟩

theorem unscrubbed_nodup {s : State} {comb : Nat} (h : ((s.comb comb).reserved.map (·.1)).Nodup) (ten : Nat) : (s.unscrubbed comb ten).Nodup :=
  h.sublist (List.filter_sublist.map _)

theorem exec_cellScrubComplete_reservation (t comb ten : Nat) {s : State} (hoff : s.power.off = false) :
    exec (.cellScrubComplete t (.reservation comb ten)) s = .next (settled t s
      (((s.advance t).eachCell (s.unscrubbed comb ten) id fun _ c => c.scrub (some ten)).updComb comb fun k =>
        { k with reserved := k.reserved.map fun r => if (s.unscrubbed comb ten).contains r.1 then (r.1, r.2.1, true) else r })) := by
  rw [exec_cellScrubComplete, execCellScrubComplete, run_next hoff]
  rfl

theorem reservationScrub_spec {t comb ten : Nat} {s : State} (hoff : s.power.off = false) (hn : ((s.comb comb).reserved.map (·.1)).Nodup) :
    ∃ s', exec (.cellScrubComplete t (.reservation comb ten)) s = .next s' ∧ s'.dram = s.dram ∧
      (∀ c, (c, ten, false) ∈ (s.comb comb).reserved → (s.cell c).seg = none → Zeroed (s'.cell c) ∧ (c, ten, true) ∈ (s'.comb comb).reserved) ∧
      (∀ c, (c, ten, false) ∉ (s.comb comb).reserved ∨ (s.cell c).seg ≠ none → s'.cell c = s.cell c) := by
  refine ⟨_, exec_cellScrubComplete_reservation t comb ten hoff, eachCell_dram _, fun c hres hfree => ⟨?_, ?_⟩, fun c h => ?_⟩
  · have hc := (mem_unscrubbed_iff s comb ten c).2 ⟨hres, hfree⟩
    have hcell : ((s.advance t).eachCell (s.unscrubbed comb ten) id fun _ c => c.scrub (some ten)).cell c = (s.cell c).scrub (some ten) :=
      cell_eachCell_mem (key := id) (by rw [List.map_id]; exact unscrubbed_nodup hn ten) hc _
    rw [settled_cell, State.updComb_cell_entry, hcell]
    exact ⟨rfl, rfl, rfl, rfl, rfl⟩
  · have hc := (mem_unscrubbed_iff s comb ten c).2 ⟨hres, hfree⟩
    rw [settled_comb, State.comb_updComb_self]
    refine List.mem_map.2 ⟨(c, ten, false), ?_, if_pos (List.contains_iff_mem.2 hc)⟩
    unfold State.comb
    rw [eachCell_combs]
    exact hres
  · have hc : c ∉ s.unscrubbed comb ten := fun hc => by
      obtain ⟨hres, hfree⟩ := (mem_unscrubbed_iff s comb ten c).1 hc
      exact h.elim (· hres) (· hfree)
    rw [settled_cell, State.updComb_cell_entry]
    exact cell_eachCell_other (by rwa [List.map_id]) _

/-! ### DISPATCH -/

theorem exec_dispatch_next (t comb seg : Nat) (cells : List Nat) {g : SegRun} {s : State} (hoff : s.power.off = false) (hg : s.seg? seg = some g) :
    exec (.dispatch t comb seg cells) s = .next (settled t s ((s.advance t).onlyIf
      (g.waits && (s.advance t).power.phase == .ready && (s.advance t).targetComb g == some comb && shapeOk comb ((s.advance t).runCells g) cells
        && cells.all ((s.advance t).avail g comb ((s.advance t).runCells g)) && (s.advance t).isNext comb g) fun s => s.assign g comb cells)) := by
  have hg' : (s.advance t).seg? seg = some g := hg
  rw [exec_dispatch, execDispatch, run_next hoff]
  simp only [hg']

/-- Settles O40: a run whose turn it is gets its cells, all of them and nothing else; starvation names the oldest run; a scrub zeroes the cells it is for. -/
theorem segmentsPlaced : Obligations.SegmentsPlaced := by
  refine ⟨fun t comb seg cells g s hoff hg => ⟨fun hmay hlent => ?_, fun hmay => ?_⟩,
    fun t comb cls g s hoff hcomb hcls hg hw hc ht hold hdue => ?_,
    fun t seg g s hoff hg hp hs hn => groupScrub_spec hoff hg hp hs hn,
    fun t comb ten s hoff hn => reservationScrub_spec hoff hn⟩
  · have he := exec_dispatch_next t comb seg cells hoff hg
    rw [(mayPlace_iff ..).2 hmay, onlyIf_true] at he
    obtain rfl := seg_id hg
    obtain ⟨-, -, -, hshape, -⟩ := hmay
    obtain ⟨⟨clean, borrows, hrun⟩, hhand, hother, hsegs, hwords, hdram, hfloor⟩ :=
      assign_spec (s := s.advance t) (comb := comb) hg (shape_nodup hshape) hlent rfl
    exact ⟨_, he, ⟨_, hrun, rfl, rfl, rfl, rfl, rfl⟩, hhand, hother, hsegs, hwords, hdram, hfloor⟩
  · have he := exec_dispatch_next t comb seg cells hoff hg
    rw [Bool.eq_false_iff.2 (mt (mayPlace_iff ..).1 hmay), onlyIf_false] at he
    exact ⟨_, he, rfl⟩
  · have hin : ∀ x, x ∈ s.queued comb cls ↔ x ∈ s.segs ∧ x.waits = true ∧ x.cls = cls ∧ s.targetComb x = some comb := mem_queued_iff s comb cls
    refine dispatchStarvation_spec hoff hcomb hcls ((hin g).2 ⟨hg, hw, hc, ht⟩) (fun x hx => ?_) hdue
    obtain ⟨hx, hxw, hxc, hxt⟩ := (hin x).1 hx
    exact hold x hx hxw hxc hxt

end Sys2Proof.Machine
end

section
/-! Settles O34 (R64, R65, R159, R160, R190): what expired timers and step edges post, and what the watchdog fails. -/

namespace Sys2Proof.Machine

open Sys2Proof.Safety

/-! ### Tokens that a running cell receives -/

theorem updCell_updCell (s : State) (k : Nat) (f g : Cell → Cell) : (s.updCell k f).updCell k g = s.updCell k fun c => g (f c) := by
  unfold State.updCell Tbl.upd
  rw [Tbl.lookD_put_self, put_put]

theorem updCell_congr {s : State} {k : Nat} {f g : Cell → Cell} (h : f (s.cell k) = g (s.cell k)) : s.updCell k f = s.updCell k g :=
  congrArg (fun c => { s with cells := Tbl.put s.cells k c }) h

/-- A change of a cell that keeps its run changes no cell's run. -/
theorem cellRun_updCell (s : State) (k : Nat) {f : Cell → Cell} (hf : ∀ c, (f c).seg = c.seg) (j : Nat) : (s.updCell k f).cellRun j = s.cellRun j := by
  have hseg : ((s.updCell k f).cell j).seg = (s.cell j).seg := by
    by_cases hj : j = k
    · rw [hj, State.cell_updCell_self, hf]
    · rw [State.cell_updCell_other _ _ hj]
  unfold State.cellRun
  rw [hseg]
  rfl

/-- A post to a cell whose run goes on, in a queue with room: the tokens arrive, and the run has made progress. -/
theorem postTokens_eq {s : State} {k q n : Nat} {g : SegRun} (hr : s.cellRun k = some g) (hf : g.fail = none) (hp : g.phase ≠ .drained)
    (hn : (s.cell k).tokenCount q + n ≤ 63) :
    s.postTokens k q n = (s.updCell k fun c => { c with tokens := Tbl.putZ c.tokens q (c.tokenCount q + n) }).touch g.id := by
  unfold State.postTokens
  rw [hr]
  dsimp only
  rw [if_neg (by simp [hf, hp]), if_neg (by omega)]

theorem sameRuns_refl (l : List SegRun) : SameRuns l l := rfl

theorem sameRuns_touch (s : State) (id : Nat) : SameRuns (s.touch id).segs s.segs := by
  unfold SameRuns State.touch
  rw [State.updSeg_segs, List.map_map]
  refine List.map_congr_left fun g _ => ?_
  dsimp only [Function.comp]
  split <;> rfl

/-! ### TIMER_EXPIRE (R159) -/

/-- A cell whose timer has expired: the timer has stopped, one token stands in its queue. -/
def timerPosted (c : Cell) (timer q : Nat) : Cell :=
  { c with timers := Tbl.del c.timers timer, tokens := Tbl.putZ c.tokens q (c.tokenCount q + 1) }

theorem timer_posts {s : State} {cell timer q : Nat} {g : SegRun} (hr : s.cellRun cell = some g) (hf : g.fail = none) (hp : g.phase ≠ .drained)
    (hq : (s.cell cell).tokenCount q < 63) :
    (s.updCell cell fun c => { c with timers := Tbl.del c.timers timer }).postToken cell q =
      (s.updCell cell fun c => timerPosted c timer q).touch g.id := by
  have hstop : ∀ c : Cell, ({ c with timers := Tbl.del c.timers timer } : Cell).seg = c.seg := fun _ => rfl
  have hroom : ((s.updCell cell fun c => { c with timers := Tbl.del c.timers timer }).cell cell).tokenCount q + 1 ≤ 63 := by
    rw [State.cell_updCell_self]
    exact hq
  rw [State.postToken, postTokens_eq ((cellRun_updCell s cell hstop cell).trans hr) hf hp hroom, updCell_updCell]
  rfl

/-- A command that changes one cell and notes its run's progress. -/
theorem cellBecomes_touch (s : State) (t cell run : Nat) (f : Cell → Cell) :
    CellBecomes s (settled t s (((s.advance t).updCell cell f).touch run)) t cell run (f (s.cell cell)) := rfl

theorem timerExpire_spec {t cell timer at_ q : Nat} {s : State} (hoff : s.power.off = false) (hl : Tbl.look (s.cell cell).timers timer = some (at_, q)) :
    ∃ s', exec (.timerExpire t cell timer) s = .next s' ∧ (max s.now t < at_ → OnlyTime s s' t) ∧
      ∀ g, at_ ≤ max s.now t → s.cellRun cell = some g → g.fail = none → g.phase ≠ .drained → (s.cell cell).tokenCount q < 63 →
        CellBecomes s s' t cell g.id (timerPosted (s.cell cell) timer q) := by
  have hl : Tbl.look ((s.advance t).cell cell).timers timer = some (at_, q) := hl
  rw [exec_timerExpire, execTimerExpire, run_next hoff]
  simp only [hl]
  refine ⟨_, rfl, fun h => ?_, fun g h hr hf hp hq => ?_⟩
  · rw [State.advance_now, decide_eq_false (Nat.not_le.2 h)]
    rfl
  · rw [State.advance_now, decide_eq_true h, onlyIf_true, timer_posts (s := s.advance t) hr hf hp hq]
    exact cellBecomes_touch ..

/-! ### WAGGLE_STEP_EDGE (R64, R65, R160) -/

/-- A cell that an edge of a series reaches without an overflow: its run goes on, and the queue of an armed latch has room. -/
def EdgeReady (series : Nat) (s : State) (c : Nat) : Prop :=
  ∃ g, s.cellRun c = some g ∧ g.fail = none ∧ g.phase ≠ .drained ∧ ∀ q, ((s.cell c).latch series).queue = some q → (s.cell c).tokenCount q < 63

theorem edgeCell_disarmed {series : Nat} {c : Cell} (h : (c.latch series).queue = none) :
    edgeCell series c = { c with latches := Tbl.put c.latches series { c.latch series with pending := true } } := by
  unfold edgeCell
  rw [h]

theorem edgeCell_armed {series q : Nat} {c : Cell} (h : (c.latch series).queue = some q) :
    edgeCell series c = { c with tokens := Tbl.putZ c.tokens q (c.tokenCount q + 1) } := by
  unfold edgeCell
  rw [h]

theorem edgeAt_spec {series c : Nat} {s : State} (h : EdgeReady series s c) :
    (∃ gs, s.edgeAt series c = { s.updCell c (edgeCell series) with segs := gs } ∧ SameRuns gs s.segs) ∧ RunsKept s (s.edgeAt series c) := by
  obtain ⟨g, hr, hf, hp, hroom⟩ := h
  unfold State.edgeAt
  dsimp only
  cases hq : ((s.cell c).latch series).queue with
  | none =>
    refine ⟨⟨s.segs, ?_, sameRuns_refl _⟩, runsKept_updCell s c _ fun _ => rfl⟩
    exact updCell_congr (by simp only [edgeCell_disarmed hq, hq])
  | some q =>
    have hpost := postTokens_eq (n := 1) hr hf hp (hroom q hq)
    refine ⟨⟨_, hpost.trans ?_, sameRuns_touch s g.id⟩, (post_spec hr hf hp (hroom q hq)).2⟩
    rw [updCell_congr (g := edgeCell series) (edgeCell_armed hq).symm]
    rfl

/-- The other cells of a list stay ready while an edge reaches one. -/
theorem edgeReady_edgeAt {series c k : Nat} {s : State} (hc : EdgeReady series s c) (hk : EdgeReady series s k) (hne : k ≠ c) :
    EdgeReady series (s.edgeAt series c) k := by
  obtain ⟨⟨gs, he, -⟩, hkept⟩ := edgeAt_spec hc
  obtain ⟨g, hr, hf, hp, hroom⟩ := hk
  obtain ⟨g', hr', -, -, hf', hp'⟩ := hkept k g hr
  have hcell : (s.edgeAt series c).cell k = s.cell k := by
    rw [he]
    exact State.cell_updCell_other s _ hne
  exact ⟨g', hr', hf'.trans hf, hp' ▸ hp, by rw [hcell]; exact hroom⟩

/-- An edge of a series reaches the cells of a list: nothing but them and the progress of runs changes. -/
theorem foldl_edgeAt {series : Nat} {l : List Nat} (hn : l.Nodup) {s : State} (h : ∀ c ∈ l, EdgeReady series s c) :
    ∃ cs gs, l.foldl (fun s c => s.edgeAt series c) s = { s with cells := cs, segs := gs } ∧ SameRuns gs s.segs ∧
      ∀ k, Tbl.lookD cs k Cell.zero = if k ∈ l then edgeCell series (s.cell k) else s.cell k := by
  induction l generalizing s with
  | nil => exact ⟨s.cells, s.segs, rfl, sameRuns_refl _, fun _ => rfl⟩
  | cons c r ih =>
    obtain ⟨hcr, hr⟩ := List.nodup_cons.1 hn
    have hc := h c List.mem_cons_self
    obtain ⟨⟨gs, he, hruns⟩, -⟩ := edgeAt_spec hc
    obtain ⟨cs, gs', hfold, hruns', hcells⟩ := ih hr fun k hk =>
      edgeReady_edgeAt hc (h k (List.mem_cons_of_mem _ hk)) fun hkc => hcr (hkc ▸ hk)
    rw [he] at hfold hruns' hcells
    refine ⟨cs, gs', by rw [List.foldl_cons, he]; exact hfold, hruns'.trans hruns, fun k => (hcells k).trans ?_⟩
    change (if k ∈ r then edgeCell series ((s.updCell c (edgeCell series)).cell k) else (s.updCell c (edgeCell series)).cell k) = _
    by_cases hkc : k = c
    · rw [hkc, if_neg hcr, if_pos List.mem_cons_self, State.cell_updCell_self]
    · simp only [State.cell_updCell_other s _ hkc, List.mem_cons, hkc, false_or]

/-- The effect of a due edge: the series counts it, and it reaches every running cell. -/
def State.edgeDelivered (s : State) (series : Nat) : State :=
  s.runningCells.foldl (fun s c => s.edgeAt series c) { s with waggle := s.waggle.setEdges series (s.waggle.edges series + 1) }

theorem exec_waggleStepEdge_next (t series : Nat) {s : State} (hoff : s.power.off = false) :
    exec (.waggleStepEdge t series) s = .next (settled t s ((s.advance t).onlyIf
      (decide (series < 2 ∧ (s.waggle.edges series + 1) * s.stepLen series ≤ max s.now t)) fun s => s.edgeDelivered series)) := by
  rw [exec_waggleStepEdge, execWaggleStepEdge, run_next hoff]
  rfl

theorem waggleStepEdge_spec {t series : Nat} {s : State} (hoff : s.power.off = false) (hs : series < 2) :
    let k := s.waggle.edges series + 1
    ∃ s', exec (.waggleStepEdge t series) s = .next s' ∧
      (max s.now t < k * s.stepLen series → OnlyTime s s' t) ∧
      (k * s.stepLen series ≤ max s.now t → s.runningCells.Nodup → (∀ c ∈ s.runningCells, EdgeReady series s c) →
        s' = { s with now := max s.now t, waggle := s.waggle.setEdges series k, cells := s'.cells, segs := s'.segs } ∧ SameRuns s'.segs s.segs ∧
        ∀ c, s'.cell c = if c ∈ s.runningCells then edgeCell series (s.cell c) else s.cell c) := by
  intro k
  refine ⟨_, exec_waggleStepEdge_next t series hoff, fun h => ?_, fun h hn hready => ?_⟩
  · rw [decide_eq_false fun hd => Nat.not_le.2 h hd.2]
    rfl
  · obtain ⟨cs, gs, hfold, hruns, hcells⟩ := foldl_edgeAt (s := { s.advance t with waggle := s.waggle.setEdges series k }) hn hready
    have hdue : (s.advance t).edgeDelivered series = { s.advance t with waggle := s.waggle.setEdges series k, cells := cs, segs := gs } := hfold
    rw [decide_eq_true ⟨hs, h⟩, onlyIf_true, hdue]
    exact ⟨rfl, hruns, hcells⟩

/-! ### SEGMENT_WATCHDOG (R190) -/

theorem live_of_watchdogDue {s : State} {g : SegRun} (h : s.watchdogDue g = true) : g.phase = .running ∧ g.fail = none := by
  simp only [State.watchdogDue, Bool.and_eq_true, beq_iff_eq, Option.isNone_iff_eq_none] at h
  exact h.1.1

theorem segmentWatchdog_spec {t seg : Nat} {g : SegRun} {s : State} (hoff : s.power.off = false) (hg : s.seg? seg = some g) :
    ∃ s', exec (.segmentWatchdog t seg) s = .next s' ∧
      ((s.advance t).watchdogDue g = false → OnlyTime s s' t) ∧
      ((s.advance t).watchdogDue g = true → g.phase = .running ∧ ∃ n, RunFails s' seg (St.segmentTimeout, n) ∧
        ∀ c, (g.cells.filter fun c => (s.cell c).stalled).min? = some c → n = c) := by
  obtain rfl := seg_id hg
  have hg' : (s.advance t).seg? g.id = some g := hg
  rw [exec_segmentWatchdog, execSegmentWatchdog, run_next hoff]
  simp only [hg']
  refine ⟨_, rfl, fun h => by rw [h]; rfl, fun h => ?_⟩
  obtain ⟨hrun, hfail⟩ := live_of_watchdogDue h
  rw [h, onlyIf_true]
  refine ⟨hrun, ?_⟩
  cases hm : (g.cells.filter fun c => ((s.advance t).cell c).stalled).min? with
  | none => exact ⟨_, failSeg_fails (s := (s.advance t).takeFree.2) hg hrun hfail, fun c hc => nomatch hm.symm.trans hc⟩
  | some c => exact ⟨c, failSeg_fails hg' hrun hfail, fun c' hc => Option.some.inj (hm.symm.trans hc)⟩

/-- Settles O34: a due timer posts once, a due edge reaches the running cells one after the other, a due watchdog fails its run. -/
theorem timersEdgesAndWatchdog : Obligations.TimersEdgesAndWatchdog :=
  fun _ _ hoff => ⟨fun _ _ _ _ hl => timerExpire_spec hoff hl, fun _ hs => waggleStepEdge_spec hoff hs, fun _ _ hg => segmentWatchdog_spec hoff hg⟩

end Sys2Proof.Machine
end

section
/-! Settles O56 (R61, R319): every command answers a next state, leaves the queue's rest, and moves waggle time on; COLD_START sets it. -/

namespace Sys2Proof.Machine

open Sys2Proof.Safety

/-- Every command but COLD_START is some effect, at some waggle time, under the shared runner. Each case goes through the model's own lemma exec_… of that command, which dsimp takes. -/
theorem exec_eq_run {c : Instr} (hc : ∀ t, c ≠ .coldStart t) (s : State) : ∃ t f, exec c s = run t s f := by
  cases c with
  | coldStart t => exact absurd rfl (hc t)
  | _ => dsimp; exact ⟨_, _, rfl⟩

/-- COLD_START keeps the queue and sets waggle time to the value that it names. -/
theorem exec_coldStart_goes (t : Nat) (s : State) : ∃ s', exec (.coldStart t) s = .next s' ∧ s'.pending = s.pending ∧ s'.now = t :=
  ⟨_, rfl, rfl, rfl⟩

/-- What every command does to the queue and to waggle time. -/
theorem exec_goes (c : Instr) (s : State) :
    ∃ s', exec c s = .next s' ∧ s'.pending = s.pending ∧ ((∀ t, c ≠ .coldStart t) → s.now ≤ s'.now) ∧ ∀ t, c = .coldStart t → s'.now = t := by
  by_cases hc : ∃ t, c = .coldStart t
  · obtain ⟨t, rfl⟩ := hc
    obtain ⟨s', he, hp, hn⟩ := exec_coldStart_goes t s
    exact ⟨s', he, hp, fun h => absurd rfl (h t), fun _ h => by cases h; exact hn⟩
  · have hc : ∀ t, c ≠ .coldStart t := fun t h => hc ⟨t, h⟩
    obtain ⟨t, f, h⟩ := exec_eq_run hc s
    obtain ⟨s', he, hp, hn⟩ := run_goes t s f
    exact ⟨s', h.trans he, hp, fun _ => hn ▸ le_max_left _ _, fun t h => absurd h (hc t)⟩

theorem step_of_pending {s : State} {c : Instr} {rest : List Instr} (h : s.pending = c :: rest) : step s = exec c { s with pending := rest } := by
  rw [step, h]

theorem step_of_pending_nil {s : State} (h : s.pending = []) : step s = .next s := by
  rw [step, h]

/-- Settles O56: but for COLD_START every command is an effect under the shared runner, which keeps the queue and never lowers waggle time. -/
theorem everyStepGoes : Obligations.EveryStepGoes := by
  refine fun s => ⟨?goes, step_of_pending_nil, fun c rest s' hp hstep => ?front⟩
  case goes =>
    cases hp : s.pending with
    | nil => exact ⟨s, step_of_pending_nil hp⟩
    | cons c rest =>
      obtain ⟨s', he, -⟩ := exec_goes c { s with pending := rest }
      exact ⟨s', (step_of_pending hp).trans he⟩
  case front =>
    obtain ⟨z, he, hrest, hmono, hcold⟩ := exec_goes c { s with pending := rest }
    obtain rfl : z = s' := Host.Outcome.next.inj (he.symm.trans ((step_of_pending hp).symm.trans hstep))
    exact ⟨hrest, hmono, hcold⟩

end Sys2Proof.Machine
end

section
/-! For O2 to O9 and O17: commands and registers changed within one ring. -/

namespace Sys2Proof.Machine

open Sys2Proof.Safety

/-- From s to z nothing but one ring has changed. -/
def RingStep (s z : State) (ten lring : Nat) : Prop := (∃ rs, z = { s with rings := rs }) ∧ SameBut (ringKey ten lring) z.rings s.rings

theorem ringStep_trans {s z y : State} {ten lring : Nat} (h : RingStep s z ten lring) (g : RingStep z y ten lring) : RingStep s y ten lring := by
  obtain ⟨⟨_, rfl⟩, h⟩ := h
  obtain ⟨⟨rs, rfl⟩, g⟩ := g
  exact ⟨⟨rs, rfl⟩, sameBut_trans g h⟩

theorem ringStep_updRing (s : State) (ten lring : Nat) (f : Ring → Ring) : RingStep s (s.updRing ten lring f) ten lring :=
  ⟨⟨_, rfl⟩, sameBut_updRing s ten lring f⟩

theorem ringStep_updCmd (s : State) (ten lring seq : Nat) (f : Cmd → Cmd) : RingStep s (s.updCmd ten lring seq f) ten lring :=
  ringStep_updRing ..

theorem ringStep_finish (s : State) (ten lring seq : Nat) (e : Err) : RingStep s (s.finish ten lring seq e) ten lring :=
  ringStep_updCmd ..

theorem ringStep_begun (s : State) (t ten lring seq n : Nat) : RingStep (s.advance t) (begun s t ten lring seq n) ten lring :=
  ringStep_trans (ringStep_updRing ..) (ringStep_updCmd ..)

/-- A command that changes one ring, under the runner. -/
theorem onlyRing_settled {s z : State} {t ten lring : Nat} (h : RingStep (s.advance t) z ten lring) : OnlyRing s (settled t s z) t ten lring := by
  obtain ⟨⟨rs, rfl⟩, h⟩ := h
  exact ⟨rfl, h⟩

/-- Finishing a command leaves the ring's registers. -/
theorem ring_finish (s : State) (ten lring seq : Nat) (e : Err) :
    ∃ l, (s.finish ten lring seq e).ring ten lring = { s.ring ten lring with cmds := l } :=
  ⟨_, State.ring_updCmd_self ..⟩

end Sys2Proof.Machine
end

section
/-! Settles O1, O2 and O3 (R78, R82 to R84, R99): a step takes the front of the queue; what enabling and disabling a ring leave. -/

namespace Sys2Proof.Machine

open Sys2Proof.Safety

/-- Settles O1, by the equations of step for a queue with a front and without one. -/
theorem stepRunsFront : Obligations.StepRunsFront :=
  fun c rest s => ⟨step_cons c rest s, step_nil s⟩

/-! ### RING_ENABLE (R83) -/

theorem enableErr_eq_zero_iff (s : State) (ten lring : Nat) :
    s.enableErr ten lring = 0 ↔ (s.ring ten lring).state = .off ∧ s.ringsHeld ten < (s.tnSet ten).ringMax ∧ s.ringsInUse < 32768 ∧
      (s.ring ten lring).vector < (s.tnSet ten).msixCount := by
  unfold State.enableErr
  dsimp only
  split_ifs with hstate hquota hpool hvector <;> simp_all

theorem enableErr_eq_four_iff (s : State) (ten lring : Nat) : s.enableErr ten lring = 4 ↔ (s.ring ten lring).state ≠ .off := by
  unfold State.enableErr
  dsimp only
  split_ifs with hstate <;> simp_all

/-- A ring whose check has passed: LIVE, one generation on, its positions at zero. -/
def Ring.madeLive (r : Ring) : Ring :=
  { r with state := .live, err := 0, gen := (r.gen + 1) % 256, sqHead := 0, sqTail := 0, cqHead := 0, cplPos := 0, reserved := 0, hist := [],
           spanFailed := false, fromError := false, cplFull := false, modSeen := 0, modSince := none }

theorem ring_enableRing (s : State) (ten lring : Nat) : (s.enableRing ten lring).ring ten lring =
    if s.enableErr ten lring = 0 then (s.ring ten lring).madeLive else { s.ring ten lring with err := s.enableErr ten lring } :=
  State.ring_updRing_self ..

theorem exec_ringEnable_next (t fn value : Nat) {s : State} (hoff : s.power.off = false) (hready : s.power.phase = .ready) (hen : bitOf value 6 = true) :
    exec (.ringEnable t fn value) s =
      .next (settled t s (((s.advance t).updRing (s.selRing fn).1 (s.selRing fn).2 fun r => r.setCfg value).enableRing (s.selRing fn).1 (s.selRing fn).2)) := by
  exact run_eq hoff ((if_pos hen).trans ((if_pos hready).trans (if_pos hen)))

/-- Settles O2: the fields of the write stand before the check, and the check alone decides what the ring becomes. -/
theorem ringEnableResult : Obligations.RingEnableResult := by
  intro t fn value s hoff hready hen ten lring w s1
  have hw : s1.ring ten lring = w := State.ring_updRing_self ..
  have hring : ((((s.advance t).updRing ten lring fun r => r.setCfg value).enableRing ten lring)).ring ten lring =
      if s1.enableErr ten lring = 0 then w.madeLive else { w with err := s1.enableErr ten lring } := hw ▸ ring_enableRing ..
  refine ⟨hw ▸ enableErr_eq_zero_iff s1 ten lring, hw ▸ enableErr_eq_four_iff s1 ten lring, _, exec_ringEnable_next t fn value hoff hready hen,
    onlyRing_settled (ringStep_trans (ringStep_updRing ..) (ringStep_updRing ..)), fun h => ?_, fun h => ?_⟩
  · exact hring.trans (if_pos h)
  · exact hring.trans (if_neg h)

/-! ### RING_DISABLE and RING_DRAINED (R84) -/

theorem Cmd.cancel_eq (c : Cmd) (st now : Nat) : c.cancel st now =
    if c.phase = .started ∨ c.phase = .finished then c else { c with phase := .finished, status := st, detail := 0, endAt := now } := by
  unfold Cmd.cancel
  cases hp : c.phase <;> simp

/-- The fields of a write that a ring not OFF takes. -/
theorem Ring.setCfg_of_not_off {r : Ring} (h : r.state ≠ .off) (v : Nat) :
    r.setCfg v = { r with modCount := bits v 32 8, modUs := bits v 40 10, maxInflight := bits v 56 8 } :=
  if_neg h

theorem exec_ringDisable_next (t fn value : Nat) {s : State} (hoff : s.power.off = false) (hready : s.power.phase = .ready) (hen : bitOf value 6 = false) :
    exec (.ringDisable t fn value) s =
      .next (settled t s (((s.advance t).updRing (s.selRing fn).1 (s.selRing fn).2 fun r => r.setCfg value).disableRing (s.selRing fn).1 (s.selRing fn).2)) := by
  exact run_eq hoff ((if_pos (by rw [hen]; rfl)).trans ((if_neg (not_not_intro hready)).trans (if_neg (by rw [hen]; decide))))

/-- A ring that is disabled drains, its commands that have not started cancelled. -/
def Ring.drained (r : Ring) (now : Nat) : Ring :=
  { r with fromError := r.state == .error, state := .draining, cmds := r.cmds.map fun c => c.cancel St.cancelled now }

theorem disableRing_enabled {s : State} {ten lring : Nat} (h : (s.ring ten lring).state = .live ∨ (s.ring ten lring).state = .error) :
    RingStep s (s.disableRing ten lring) ten lring ∧ (s.disableRing ten lring).ring ten lring = (s.ring ten lring).drained s.now := by
  have he : s.disableRing ten lring =
      (s.updRing ten lring fun r => { r with fromError := r.state == .error, state := .draining }).cancelUnstarted ten lring St.cancelled := if_pos h
  rw [he]
  refine ⟨ringStep_trans (ringStep_updRing ..) (ringStep_updRing ..), ?_⟩
  rw [State.cancelUnstarted, State.ring_updRing_self, State.ring_updRing_self]
  rfl

/-- Settles O3: the write leaves the commands, and the drain cancels those of them that wait or are held. -/
theorem ringDisableResult : Obligations.RingDisableResult := by
  intro t fn value s hoff hready hen ten lring r
  refine ⟨fun hstate => ?disable, fun hstate hcmds => ?drained⟩
  case disable =>
    have hcfg : ((s.advance t).updRing ten lring fun r => r.setCfg value).ring ten lring =
        { r with modCount := bits value 32 8, modUs := bits value 40 10, maxInflight := bits value 56 8 } :=
      (State.ring_updRing_self ..).trans (Ring.setCfg_of_not_off (by rcases hstate with h | h <;> simp [r, h]) value)
    obtain ⟨hstep, hring⟩ := disableRing_enabled (by rw [hcfg]; exact hstate)
    rw [hcfg] at hring
    refine ⟨_, exec_ringDisable_next t fn value hoff hready hen, onlyRing_settled (ringStep_trans (ringStep_updRing ..) hstep), ?_⟩
    rw [settled_ring, hring]
    exact ⟨rfl, rfl, rfl, rfl, List.map_congr_left fun c _ => Cmd.cancel_eq c _ _⟩
  case drained =>
    have hguard : (r.state == .draining && r.cmds.isEmpty) = true := by rw [hstate, hcmds]; rfl
    exact ⟨_, run_eq hoff (if_pos hguard), onlyRing_settled (ringStep_updRing ..),
      State.ring_updRing_self (s.advance t) ten lring fun r => { r with state := .off, fromError := false }⟩

end Sys2Proof.Machine
end

section
/-! Settles O6, O7 and O9 (R91, R95 to R97, R102): what stands before the start of a command, and the engine commands that start. -/

namespace Sys2Proof.Machine

open Sys2Proof.Safety

/-! ### The commands that start fetched work -/

section

variable {t ten lring seq : Nat} {h : HostView} {row : Instr × Nat × (State → Cmd → Option Err) × (State → Cmd → Bool) × (State → Nat)}

/-- Each of them tries to start its own opcode with its own checks; a resume does so where it does not name the EVAL that it resumes. -/
theorem exec_startRow (hrow : row ∈ startRows t ten lring seq h) {s : State} (hoff : s.power.off = false) (hown : s.ownEval ten lring seq = none) :
    ∃ start, exec row.1 s = .next (settled t s ((s.advance t).tryStart ten lring seq row.2.1 row.2.2.2.2 row.2.2.1 row.2.2.2.1 start)) := by
  simp only [startRows, List.mem_cons, List.not_mem_nil, or_false] at hrow
  rcases hrow with rfl | rfl | rfl | rfl | rfl | rfl | rfl | rfl | rfl | rfl | rfl | rfl
  case inr.inr.inr.inr.inr.inr.inl =>
    have hown' : (s.advance t).ownEval ten lring seq = none := hown
    dsimp
    exact ⟨fun s c => s.resume h ten lring c, run_eq hoff (by rw [hown'])⟩
  all_goals
    dsimp
    exact ⟨_, run_next hoff⟩

/-- No own check depends on the time. -/
theorem startRow_check_advance (hrow : row ∈ startRows t ten lring seq h) (s : State) (n : Nat) (c : Cmd) :
    row.2.2.1 (s.advance n) c = row.2.2.1 s c := by
  simp only [startRows, List.mem_cons, List.not_mem_nil, or_false] at hrow
  rcases hrow with rfl | rfl | rfl | rfl | rfl | rfl | rfl | rfl | rfl | rfl | rfl | rfl <;> rfl

end

/-! ### Refusals and gates (R91, R95) -/

/-- A command that finishes without starting: only its ring changes, and of the ring only the command. -/
theorem finish_settles {s : State} {ten lring seq : Nat} {c : Cmd} (t : Nat) (e : Err) (hc : s.cmd? ten lring seq = some c) :
    OnlyRing s (settled t s ((s.advance t).finish ten lring seq e)) t ten lring ∧
    (settled t s ((s.advance t).finish ten lring seq e)).cmd? ten lring seq = some (finished c e (max s.now t)) ∧
    ((settled t s ((s.advance t).finish ten lring seq e)).ring ten lring).reserved = (s.ring ten lring).reserved := by
  obtain ⟨l, hl⟩ := ring_finish (s.advance t) ten lring seq e
  refine ⟨onlyRing_settled (ringStep_finish ..), cmd_finish_some (s := s.advance t) hc, ?_⟩
  rw [settled_ring, hl]
  rfl

theorem commonFault_badField {l : List Byte} {seq : Nat} {e : Err} (h : commonFault l seq = some e) : e.1 = St.badField := by
  obtain ⟨_, -, rfl⟩ := Option.map_eq_some_iff.1 h
  rfl

/-- Settles O6: past its gate a command at fault, in a common field or by its own checks, takes tryStart's refusal. -/
theorem checksRefuseBeforeStart : Obligations.ChecksRefuseBeforeStart := by
  intro t ten lring seq h c e s row hrow hoff hw hgo hfault
  refine ⟨commonFault_badField, ?_⟩
  obtain ⟨hc, -, -, -, -, -, hown⟩ := id hw
  obtain ⟨start, hexec⟩ := exec_startRow hrow hoff hown
  have hrefused : ((commonFault c.entry c.seq).orElse fun _ => row.2.2.1 (s.advance t) c) = some e := by
    rcases hfault with h1 | ⟨h1, h2⟩
    · rw [h1]; rfl
    · rw [h1, startRow_check_advance hrow]; exact h2
  rw [tryStart_refused (waits_advance hw) hgo hrefused] at hexec
  exact ⟨_, hexec, finish_settles t e hc⟩

/-- The commands that a command's after fields name, as distances. -/
def Cmd.named (c : Cmd) : List Nat := ((List.range 4).map c.after).filter (· != 0)

theorem afterGate_waits {r : Ring} {c : Cmd} (hback : ∀ d ∈ c.named, d ≤ c.seq) (h : ∃ d ∈ c.named, r.finalStatus (c.seq - d) = none) :
    r.afterGate c = .wait := by
  have h1 : (c.named.any fun d => decide (c.seq < d)) = false := by simpa using hback
  have h2 : (c.named.any fun d => r.finalStatus (c.seq - d) == none) = true := by simpa using h
  unfold Cmd.named at h1 h2
  unfold Ring.afterGate
  simp only [h1, h2, if_true, Bool.false_eq_true, if_false]

theorem afterGate_fails {r : Ring} {c : Cmd} (hback : ∀ d ∈ c.named, d ≤ c.seq) (hfinal : ∀ d ∈ c.named, r.finalStatus (c.seq - d) ≠ none)
    (h : ∃ d ∈ c.named, r.finalStatus (c.seq - d) ≠ some St.ok) : ∃ d, r.afterGate c = .fail (St.predecessorFailed, d) := by
  have h1 : (c.named.any fun d => decide (c.seq < d)) = false := by simpa using hback
  have h2 : (c.named.any fun d => r.finalStatus (c.seq - d) == none) = false := by simpa using hfinal
  obtain ⟨d, h3⟩ : ∃ d, c.named.find? (fun d => r.finalStatus (c.seq - d) != some St.ok) = some d :=
    Option.isSome_iff_exists.1 (by simpa using h)
  unfold Cmd.named at h1 h2 h3
  unfold Ring.afterGate
  simp only [h1, h2, h3, Bool.false_eq_true, if_false]
  exact ⟨d, rfl⟩

/-! ### CMD_FENCE (R96) -/

/-- Where a fence's span stands: it fails under STRICT after a failure. -/
def fenceResult (c : Cmd) (r : Ring) : Err := if bitOf c.ctrl 3 = true ∧ r.spanFailed = true then (St.predecessorFailed, 0) else (St.ok, 0)

/-- The ring's registers once a command has started. -/
theorem ring_begun (s : State) (t ten lring seq n : Nat) :
    ∃ l, (begun s t ten lring seq n).ring ten lring =
      { s.ring ten lring with cplFull := false, reserved := (s.ring ten lring).reserved + n, cmds := l } :=
  ⟨_, by rw [begun, State.ring_updCmd_self, State.ring_updRing_self]; rfl⟩

theorem cmdFence_finishes {t ten lring seq : Nat} {c : Cmd} {rest : List Cmd} {s : State} (hoff : s.power.off = false)
    (hcmds : (s.ring ten lring).cmds = c :: rest) (hst : Startable s ten lring seq 0x60 1 c) :
    exec (.cmdFence t ten lring seq) s =
      .next (settled t s ((begun s t ten lring seq 1).finish ten lring seq (fenceResult c (s.ring ten lring)))) := by
  obtain ⟨⟨hc, -⟩, -⟩ := id hst
  have hhead : (((s.advance t).ring ten lring).cmds.head?.any fun c => c.seq == seq) = true := by
    rw [State.advance_ring_entry, hcmds]
    simpa using State.cmd_seq hc
  exact run_eq hoff ((if_pos hhead).trans ((tryStart_begun hst rfl (.inl rfl)).trans (apply_ite ((begun s t ten lring seq 1).finish ten lring seq) _ _ _).symm))

theorem fence_spec {t ten lring seq : Nat} {c : Cmd} {rest : List Cmd} {s : State} (hoff : s.power.off = false)
    (hcmds : (s.ring ten lring).cmds = c :: rest) (hst : Startable s ten lring seq 0x60 1 c) :
    ∃ s', exec (.cmdFence t ten lring seq) s = .next s' ∧ OnlyRing s s' t ten lring ∧
      (s'.ring ten lring).reserved = (s.ring ten lring).reserved + 1 ∧
      s'.cmd? ten lring seq = some (finished { c with startAt := some (max s.now t), reserved := 1 } (fenceResult c (s.ring ten lring)) (max s.now t)) := by
  obtain ⟨⟨hc, -⟩, -⟩ := id hst
  obtain ⟨l, hl⟩ := ring_begun s t ten lring seq 1
  obtain ⟨l', hl'⟩ := ring_finish (begun s t ten lring seq 1) ten lring seq (fenceResult c (s.ring ten lring))
  refine ⟨_, cmdFence_finishes hoff hcmds hst, onlyRing_settled (ringStep_trans (ringStep_begun ..) (ringStep_finish ..)), ?_, ?_⟩
  · rw [settled_ring, hl', hl]
  · rw [settled_cmd, cmd_finish_some (by rw [cmd_begun, hc]; rfl)]
    rfl

/-! ### A resume that waits for its own EVAL (R97) -/

/-- The after field j of a resume names the parked EVAL that it resumes. -/
def State.namesOwn (s : State) (ten lring seq : Nat) (c : Cmd) (j : Nat) : Bool :=
  decide (0 < c.after j ∧ c.after j ≤ seq) && (s.cmd? ten lring (seq - c.after j)).any fun k => k.parkedFor c s.sec.startId

theorem ownEval_eq {s : State} {ten lring seq : Nat} {c : Cmd} (hc : s.cmd? ten lring seq = some c) (hop : c.opcode = 0x11) (hph : c.phase = .waiting)
    (hlive : (s.ring ten lring).state = .live) (hstarts : s.starts ten = true) :
    s.ownEval ten lring seq = (List.range 4).find? (s.namesOwn ten lring seq c) := by
  unfold State.ownEval
  rw [hc]
  exact if_pos ⟨hop, hph, hlive, hstarts⟩

/-- The field found is the first of those that name the EVAL. -/
theorem ownEval_found {s : State} {ten lring seq j : Nat} {c : Cmd} (heq : s.ownEval ten lring seq = (List.range 4).find? (s.namesOwn ten lring seq c))
    (hj : j < 4) (hown : s.namesOwn ten lring seq c j = true) : ∃ i ≤ j, 0 < c.after i ∧ s.ownEval ten lring seq = some i := by
  obtain ⟨i, hi⟩ := Option.isSome_iff_exists.1 (List.find?_isSome.2 ⟨j, List.mem_range.2 hj, hown⟩)
  obtain ⟨hnames, -, hfirst⟩ := List.find?_range_eq_some.1 hi
  refine ⟨i, not_lt.1 fun hlt => by simpa [hown] using hfirst j hlt, ?_, heq.trans hi⟩
  simp only [State.namesOwn, Bool.and_eq_true, decide_eq_true_eq] at hnames
  obtain ⟨⟨hpos, -⟩, -⟩ := hnames
  exact hpos

theorem parkedFor_of_ticket {c k : Cmd} {v : Eval} {a : Attempt} {startId : Option Nat} (hv : k.eval = some v) (ha : v.attempt = some a)
    (hses : v.session = c.handle 0) (hticket : a.ticket = fld c.entry 0x50 8) (hid : startId = some (fld c.entry 0x58 8)) :
    k.parkedFor c startId = true := by
  simp [Cmd.parkedFor, hv, ha, hses, hticket, hid]

theorem ownEvalFault_le (s : State) (ten lring seq j : Nat) : s.ownEvalFault ten lring seq j ≤ 4 + j := by
  unfold State.ownEvalFault
  cases (s.cmd? ten lring seq).bind fun c => commonFault c.entry seq with
  | none => exact le_refl _
  | some e => exact min_le_left _ _

theorem ownEvalFault_of_sound {s : State} {ten lring seq j : Nat} {c : Cmd} (hc : s.cmd? ten lring seq = some c) (hf : commonFault c.entry seq = none) :
    s.ownEvalFault ten lring seq j = 4 + j := by
  unfold State.ownEvalFault
  rw [hc]
  simp [hf]

theorem resume_refusesOwn {t ten lring seq i : Nat} (h : HostView) {s : State} (hoff : s.power.off = false) (hown : s.ownEval ten lring seq = some i) :
    exec (.cmdRoundtripResume t ten lring seq h) s =
      .next (settled t s ((s.advance t).finish ten lring seq (St.badField, s.ownEvalFault ten lring seq i))) := by
  have hown' : (s.advance t).ownEval ten lring seq = some i := hown
  rw [exec_cmdRoundtripResume]
  exact run_eq hoff (by rw [hown']; rfl)

/-- Settles O9: a gate that waits leaves everything, one that fails finishes the command; a fence starts and finishes in one step; a resume that
waits for its own EVAL is refused before tryStart. -/
theorem predecessorsAndFences : Obligations.PredecessorsAndFences := by
  refine ⟨⟨fun t ten lring seq h c s row hrow hoff hw hback => ?gate, fun t ten lring seq c rest s hoff hcmds hst => fence_spec hoff hcmds hst⟩,
    fun t ten lring seq j h c k v a s hoff hc hop hph hlive hstarts hj hpos hle hk hv ha hses hticket hid => ?own⟩
  case gate =>
    obtain ⟨hc, -, -, -, -, -, hown⟩ := id hw
    obtain ⟨start, hexec⟩ := exec_startRow hrow hoff hown
    refine ⟨fun hwait => ?_, fun hfinal hfail => ?_⟩
    · rw [tryStart_gateWait (waits_advance hw) (afterGate_waits hback hwait)] at hexec
      exact ⟨_, hexec, rfl⟩
    · obtain ⟨d, hgate⟩ := afterGate_fails hback hfinal hfail
      rw [tryStart_gateFail (waits_advance hw) hgate] at hexec
      obtain ⟨hring, hcmd, -⟩ := finish_settles t (St.predecessorFailed, d) hc
      exact ⟨_, _, hexec, hring, rfl, hcmd⟩
  case own =>
    have hnames : s.namesOwn ten lring seq c j = true := by simp [State.namesOwn, hpos, hle, hk, parkedFor_of_ticket hv ha hses hticket hid]
    obtain ⟨i, hij, hi, hown⟩ := ownEval_found (ownEval_eq hc hop hph hlive hstarts) hj hnames
    obtain ⟨hring, hcmd, -⟩ := finish_settles t (St.badField, s.ownEvalFault ten lring seq i) hc
    refine ⟨_, _, resume_refusesOwn h hoff hown, hring, rfl, (ownEvalFault_le ..).trans (by omega), fun hsound hearlier => ?_, hcmd⟩
    have hfirst : i = j := le_antisymm hij (not_lt.1 fun hlt => hi.ne' (hearlier i hlt))
    rw [← hfirst]
    exact ownEvalFault_of_sound hc hsound

/-! ### Engine commands (R281, R288, R354) -/

/-- What follows the runner's settling of a state already at the command's time. -/
theorem settled_of_now {t : Nat} {s z : State} (hp : z.pending = s.pending) (hn : z.now = max s.now t) : settled t s z = z := by
  cases z
  cases hp
  cases hn
  rfl

/-- A command of one position that starts: the next state is what its start makes of the state in which it has begun. -/
theorem run_begun {t ten lring seq op : Nat} {c : Cmd} {s z : State} {check : State → Cmd → Option Err} {needs : State → Cmd → Bool}
    {start : State → Cmd → State} (hoff : s.power.off = false) (hst : Startable s ten lring seq op 1 c) (hc : check (s.advance t) c = none)
    (hd : needs (s.advance t) c = false ∨ s.canServe = true) (hz : start (begun s t ten lring seq 1) c = z) (hp : z.pending = s.pending)
    (hn : z.now = max s.now t) : run t s (fun s => s.tryStart ten lring seq op onePosition check needs start) = .next z := by
  rw [run_eq hoff ((tryStart_begun hst hc hd).trans hz), settled_of_now hp hn]

theorem startPke_takes {z : State} {h : HostView} {ten lring : Nat} {c : Cmd} {b : List Byte} (hb : hostRead h ten (c.iova 0) 128 = some b)
    (hf : firstFault (pkFaults b) = none) (hq : pkOp b = Pk.quote → z.ephLive ten + z.quotesOpen ten < 8) :
    z.startPke h ten lring c = (z.charge ten 4 1).updCmd ten lring c.seq fun c => { c with block := b } := by
  unfold State.startPke
  simp only [hb, hf]
  exact if_neg fun ⟨h1, h2⟩ => absurd (hq h1) (not_lt.2 h2)

/-- Settles O7: each command's start is what its row gives tryStart, on the state in which it has begun. -/
theorem engineCommandsStart : Obligations.EngineCommandsStart := by
  intro t ten lring seq h c s hoff
  refine ⟨fun hst hc hserve => ?_, fun hst hc => ?_, fun hst hc hd => ?_, fun x hst hc hx => ?_, fun b hst hlen hb hf hd hq => ?_⟩
  · exact run_begun hoff hst hc (.inr hserve) rfl rfl rfl
  · exact run_begun hoff hst hc (.inl rfl) rfl rfl rfl
  · exact run_begun hoff hst hc hd rfl rfl rfl
  · refine run_begun hoff hst hc (.inl rfl) ?_ rfl rfl
    have hx' : Tbl.look ((begun s t ten lring seq 1).ten ten).sessions (c.handle 0) = some x := hx
    rw [hx']
    rfl
  · obtain ⟨⟨hc, -⟩, -⟩ := id hst
    obtain ⟨l, k, mt, hcharge⟩ := charge_eq (begun s t ten lring seq 1) ten 4 1
    refine run_begun hoff hst (if_pos hlen) (hd.imp_left fun hn => ?_) ((startPke_takes hb hf hq).trans (by rw [State.cmd_seq hc])) ?_ ?_
    · exact (congrArg (Option.any pkNeeds) hb).trans hn
    · rw [State.updCmd_pending, hcharge]; rfl
    · rw [State.updCmd_now, hcharge]; rfl

end Sys2Proof.Machine
end

section
/-! Settles O4 (R87 to R91): a poll and a kick of a ring with one new entry. -/

namespace Sys2Proof.Machine

open Sys2Proof.Safety

theorem ringKey_div {ten lring : Nat} (h : lring < 256) : ringKey ten lring / 256 = ten := by
  unfold ringKey; omega

theorem ringKey_mod {ten lring : Nat} (h : lring < 256) : ringKey ten lring % 256 = lring := by
  unfold ringKey; omega

/-- A ring that has taken a tail record: one entry more, cq completions read (R88). -/
def Ring.tookTail (r : Ring) (cq : Nat) : Ring :=
  ({ r with sqTail := r.sqTail + 1, cqHead := r.cqHead + cq, cplFull := if cq = 0 then r.cplFull else false }).passInterims

/-- A ring that has fetched an entry, as the device's n-th fetch (R89). -/
def Ring.fetched (r : Ring) (n now : Nat) (e : List Byte) : Ring :=
  { r with sqHead := r.sqHead + 1, cmds := r.cmds ++ [Cmd.fetched r.sqHead n now e] }

/-- The state of a device whose only ring is r. -/
def State.withRing (s : State) (ten lring : Nat) (r : Ring) : State := { s with rings := [(ringKey ten lring, r)] }

theorem ring_withRing (s : State) (ten lring : Nat) (r : Ring) : (s.withRing ten lring r).ring ten lring = r := by
  simp [State.ring, State.withRing, Tbl.lookD, Tbl.look]

theorem updRing_withRing (s : State) (ten lring : Nat) (r : Ring) (f : Ring → Ring) :
    (s.withRing ten lring r).updRing ten lring f = s.withRing ten lring (f r) := by
  simp [State.updRing, State.withRing, Tbl.upd, Tbl.lookD, Tbl.look, Tbl.put]

theorem withRing_self {s : State} {ten lring : Nat} {r : Ring} (h : s.rings = [(ringKey ten lring, r)]) : s.withRing ten lring r = s := by
  cases s
  cases h
  rfl

theorem passInterims_length (r : Ring) : r.passInterims.cmds.length = r.cmds.length := List.length_map ..

section

variable {s : State} {h : HostView} {ten lring cq tail : Nat} {b e : List Byte} {r : Ring}

/-- With nothing left to fetch, the watcher fetches nothing. -/
theorem fetchRing_of_caught_up (hr : (s.ring ten lring).sqTail ≤ (s.ring ten lring).sqHead) (n : Nat) : s.fetchRing h ten lring tail n = s := by
  cases n with
  | zero => rfl
  | succ n => exact if_neg (by simp [State.mayFetch, not_lt.2 hr])

/-- One entry is owed: it is fetched, and then nothing is owed. -/
theorem fetchRing_one (hl : r.state = .live) (hone : r.sqTail = r.sqHead + 1) (hroom : r.cmds.length ≤ r.maxInflight) (hst : s.starts ten = true)
    (he : hostRead h ten (r.subBase + 128 * (r.sqHead % 2 ^ r.logEntries)) 128 = some e) (n : Nat) :
    (s.withRing ten lring r).fetchRing h ten lring tail (n + 1) =
      ({ s with fetches := s.fetches + 1 } : State).withRing ten lring (r.fetched (s.fetches + 1) s.now e) := by
  have hmay : (s.withRing ten lring r).mayFetch ten lring = true := by
    have hst' : (s.withRing ten lring r).starts ten = true := hst
    simp [State.mayFetch, ring_withRing, hl, hone, hroom, hst']
  have hupd : ({ (s.withRing ten lring r) with fetches := s.fetches + 1 } : State).updRing ten lring (fun r => r.fetched (s.fetches + 1) s.now e) =
      ({ s with fetches := s.fetches + 1 } : State).withRing ten lring (r.fetched (s.fetches + 1) s.now e) :=
    updRing_withRing { s with fetches := s.fetches + 1 } ten lring r _
  refine (if_pos hmay).trans ?_
  simp only [ring_withRing, he]
  refine (congrArg (fun z : State => z.fetchRing h ten lring tail n) hupd).trans (fetchRing_of_caught_up ?_ n)
  rw [ring_withRing]
  exact hone.le

/-- The scan of a ring with one new entry takes its tail and fetches it. -/
theorem scanRing_one (hrings : s.rings = [(ringKey ten lring, r)]) (hl : r.state = .live) (hdb : (s.ten ten).dbEn = true)
    (hb : hostRead h ten ((s.ten ten).dbAddr + 8 * lring) 8 = some b)
    (hjudge : r.judgeTail (leNat b) = .valid 1 cq) (hone : r.sqTail = r.sqHead) (hroom : r.cmds.length ≤ r.maxInflight) (hst : s.starts ten = true)
    (he : hostRead h ten (r.subBase + 128 * (r.sqHead % 2 ^ r.logEntries)) 128 = some e) :
    s.scanRing h ten lring =
      ({ s with fetches := s.fetches + 1 } : State).withRing ten lring ((r.tookTail cq).fetched (s.fetches + 1) s.now e) := by
  rw [← withRing_self hrings]
  have hheard : ((s.withRing ten lring r).ring ten lring).heard = true ∧ ((s.withRing ten lring r).ten ten).dbEn = true := by
    rw [ring_withRing]
    exact ⟨by simp [Ring.heard, hl], hdb⟩
  have htail : (s.withRing ten lring r).takeTail ten lring (leNat b) = s.withRing ten lring (r.tookTail cq) := by
    unfold State.takeTail
    rw [ring_withRing, hjudge]
    exact updRing_withRing ..
  have hb' : hostRead h ten (((s.withRing ten lring r).ten ten).dbAddr + 8 * lring) 8 = some b := hb
  refine (if_pos hheard).trans ?_
  simp only [hb', htail]
  exact fetchRing_one (r := r.tookTail cq) hl (congrArg (· + 1) hone) (by rw [Ring.tookTail, passInterims_length]; exact hroom) hst he 255

end

/-- A scan of every ring that a test names, in a device with one ring that it names. -/
theorem scan_withRing {s : State} {h : HostView} {ten lring : Nat} {r : Ring} {p : Nat × Ring → Bool} (hlring : lring < 256)
    (hp : p (ringKey ten lring, r) = true) (z : State) (hz : s.rings = [(ringKey ten lring, r)]) :
    (s.rings.filter p).foldl (fun s r => s.scanRing h (r.1 / 256) (r.1 % 256)) z = z.scanRing h ten lring := by
  rw [hz, List.filter_cons_of_pos hp, List.filter_nil, List.foldl_cons, List.foldl_nil, ringKey_div hlring, ringKey_mod hlring]

theorem Cmd.fetched_phase (seq n now : Nat) (e : List Byte) : (Cmd.fetched seq n now e).phase = .waiting ↔ opcodes.contains (byteAt e 0) = true := by
  unfold Cmd.fetched
  cases hop : opcodes.contains (byteAt e 0) <;> simp

theorem Cmd.fetched_unknown {seq n now : Nat} {e : List Byte} (h : opcodes.contains (byteAt e 0) = false) :
    (Cmd.fetched seq n now e).phase = .finished ∧ (Cmd.fetched seq n now e).status = St.badOpcode := by
  unfold Cmd.fetched
  rw [h]
  exact ⟨rfl, rfl⟩

/-- Settles O4: a poll and a kick scan the one ring, and the scan takes the tail and fetches the entry. -/
theorem watcherFetchesEntry : Obligations.WatcherFetchesEntry := by
  intro t ten lring cq h b e r s hoff hready hd0 hst hlring hrings hl hcls hdb hb hjudge hone hroom he r1 c r2
  refine ⟨rfl, rfl, Cmd.fetched_phase .., Cmd.fetched_unknown, ?poll, ?kick⟩
  case poll =>
    have hguard : (decide (r.cls < 4) && s.power.pf == .d0) = true := by simp [hcls, hd0]
    have hscan := scanRing_one (s := { s.advance t with pollAt := s.pollAt.set r.cls (max s.now t) }) hrings hl hdb hb hjudge hone hroom hst he
    rw [exec_ringPoll]
    exact run_eq hoff ((if_pos hguard).trans ((scan_withRing hlring (by simp [hl]) _ hrings).trans hscan))
  case kick =>
    have hscan := scanRing_one (s := s.advance t) hrings hl hdb hb hjudge hone hroom hst he
    have haligned : ¬ (((4 : Nat) ≠ 4 ∧ 4 ≠ 8) ∨ 0 % 4 ≠ 0) := by decide
    rw [exec_kick]
    refine run_eq hoff (z := ({ s.advance t with fetches := s.fetches + 1 } : State).withRing ten lring r2) ?_
    exact (if_neg haligned).trans ((if_neg (not_not_intro rfl)).trans ((if_neg (not_not_intro hready)).trans
      ((scan_withRing hlring (by simp [ringKey_div hlring]) _ hrings).trans hscan)))

end Sys2Proof.Machine
end

section
/-! Settles O5 (R98, R99, R102, R103, R370): the final completion of a ring's oldest command, and the interrupt after MOD_US. -/

namespace Sys2Proof.Machine

open Sys2Proof.Safety

/-! ### The bytes of a completion entry (R98) -/

theorem byteAt_completionBytes_status (status flags detail seq : Nat) (tag : List Byte) (startUs runNs ops : Nat) :
    byteAt (completionBytes status flags detail seq tag startUs runNs ops) 0 = status % 256 := by
  simp [byteAt, fld, completionBytes, toLE, leNat]

theorem byteAt_completionBytes_flags (status flags detail seq : Nat) (tag : List Byte) (startUs runNs ops : Nat) :
    byteAt (completionBytes status flags detail seq tag startUs runNs ops) 1 = flags % 256 := by
  simp [byteAt, fld, completionBytes, toLE, leNat]

/-- PHASE and REPLAYED stand in bits 0 and 2 of the flags. -/
theorem finalBytes_flags (c : Cmd) (r : Ring) :
    bitOf (byteAt (c.finalBytes r) 1) 0 = decide (r.cplPos / 2 ^ r.logEntries % 2 = 0) ∧ bitOf (byteAt (c.finalBytes r) 1) 2 = c.replayed := by
  have hbits : ∀ phase replayed : Bool, bitOf (((if phase then 1 else 0) + if replayed then 4 else 0) % 256) 0 = phase ∧
      bitOf (((if phase then 1 else 0) + if replayed then 4 else 0) % 256) 2 = replayed := by decide
  rw [Cmd.finalBytes, byteAt_completionBytes_flags, phaseBit]
  simpa only [decide_eq_true_eq] using hbits (decide (r.cplPos / 2 ^ r.logEntries % 2 = 0)) c.replayed

theorem length_finalBytes (c : Cmd) (r : Ring) : (c.finalBytes r).length = 32 :=
  length_completionBytes _ _ _ _ _ _ _ _ (by simp [slice]; omega)

/-! ### FINAL_COMPLETION_WRITE (R98, R99, R102) -/

/-- What counting a completion towards the interrupt keeps. -/
structure Counted (s z : State) (ten lring : Nat) : Prop where
  cells : z.cells = s.cells
  segs : z.segs = s.segs
  dram : z.dram = s.dram
  settings : z.settings = s.settings
  log : z.log = s.log
  power : z.power = s.power
  rings : SameBut (ringKey ten lring) z.rings s.rings
  cmds : (z.ring ten lring).cmds = (s.ring ten lring).cmds
  cplPos : (z.ring ten lring).cplPos = (s.ring ten lring).cplPos
  state : (z.ring ten lring).state = (s.ring ten lring).state
  hist : (z.ring ten lring).hist = (s.ring ten lring).hist
  out : ∀ o, o ∈ s.out → o ∈ z.out

theorem counted_refl (s : State) (ten lring : Nat) : Counted s s ten lring :=
  ⟨rfl, rfl, rfl, rfl, rfl, rfl, sameBut_refl _ _, rfl, rfl, rfl, rfl, fun _ h => h⟩

theorem counted_eligible (s : State) (ten lring : Nat) : Counted s (s.eligible ten lring) ten lring := by
  obtain ⟨h1, h2, h3, h4, h5, h6, h7, h8, h9, h10, h11, h12⟩ := eligible_frame s ten lring
  exact ⟨h1, h2, h3, h4, h5, h6, h7, h8, h9, h10, h11, h12⟩

theorem afterDrain_of_none {s : State} (h1 : s.power.warmDrain = none) (h2 : s.power.flrs = []) : s.afterDrain = s := by
  simp [State.afterDrain, h1, h2]

/-- A finished oldest command with room for its entry in a mapped page: the entry is written, then the command retires and is counted. -/
theorem writeFinal_writes {s : State} {h : HostView} {ten lring : Nat} {c : Cmd} {rest : List Cmd} (hcmds : (s.ring ten lring).cmds = c :: rest)
    (hph : c.phase = .finished) (hl : (s.ring ten lring).state = .live) (hne : (s.ring ten lring).fromError = false)
    (hroom : c.reserved ≠ 0 ∨ (s.ring ten lring).freePositions ≠ 0) (hbase : (s.ring ten lring).cplBase % 4096 = 0)
    (hpg : (hostPage h ten (s.ring ten lring).cplIova).isSome = true) :
    Counted ((s.emit (.dmaWrite ten (s.ring ten lring).cplIova (c.finalBytes (s.ring ten lring)))).retireCmd ten lring c true)
      (s.writeFinal h ten lring) ten lring := by
  have hfree : ¬ (c.reserved = 0 ∧ (s.ring ten lring).freePositions = 0) := fun ⟨h1, h2⟩ => hroom.elim (· h1) (· h2)
  unfold State.writeFinal
  simp only [hcmds, List.head?_cons, hph, hl, hne, hfree, hostWrite_entry s h ten _ _ (length_finalBytes ..) hbase hpg, if_false, if_true, ne_eq,
    not_true_eq_false, reduceCtorEq, Bool.false_eq_true, or_self]
  split
  · exact counted_eligible ..
  · exact counted_refl ..

/-- What the final completion leaves. -/
theorem finalCompletion_spec {t ten lring : Nat} {h : HostView} {c : Cmd} {rest : List Cmd} {s : State} (hoff : s.power.off = false)
    (hwarm : s.power.warmDrain = none) (hflrs : s.power.flrs = []) (hcmds : (s.ring ten lring).cmds = c :: rest)
    (hph : c.phase = .finished) (hl : (s.ring ten lring).state = .live) (hne : (s.ring ten lring).fromError = false)
    (hroom : c.reserved ≠ 0 ∨ (s.ring ten lring).freePositions ≠ 0) (hbase : (s.ring ten lring).cplBase % 4096 = 0)
    (hpg : (hostPage h ten (s.ring ten lring).cplIova).isSome = true) :
    ∃ z, exec (.finalCompletionWrite t ten lring h) s = .next (settled t s z) ∧
      Counted (((s.advance t).emit (.dmaWrite ten (s.ring ten lring).cplIova (c.finalBytes (s.ring ten lring)))).retireCmd ten lring c true) z ten lring := by
  have hcount := writeFinal_writes (s := s.advance t) hcmds hph hl hne hroom hbase hpg
  have hpower := hcount.power.trans (sameOutside_retireCmd ..).power
  refine ⟨_, ?_, hcount⟩
  rw [exec_finalCompletionWrite]
  exact run_eq hoff (afterDrain_of_none ((congrArg Power.warmDrain hpower).trans hwarm) ((congrArg Power.flrs hpower).trans hflrs))

theorem sameBut_retireCmd (s : State) (ten lring : Nat) (c : Cmd) (written : Bool) :
    SameBut (ringKey ten lring) (s.retireCmd ten lring c written).rings s.rings := by
  rw [(sameOutside_retireCmd s ten lring c written).rings]
  exact sameBut_updRing s ten lring fun r => r.retired c written

theorem retired_cmds {r : Ring} {c : Cmd} {rest : List Cmd} (h : r.cmds = c :: rest) (written : Bool) :
    (r.retired c written).cmds = rest.filter fun x => x.seq != c.seq := by
  simp [Ring.retired, h]

/-! ### MSIX_MOD_TIMER (R103, R370) -/

/-- The state with a ring's count of completions cleared. -/
def State.clearCount (s : State) (ten lring : Nat) : State := s.updRing ten lring fun r => { r with modSeen := 0, modSince := none }

/-- An interrupt changes what has been sent or is kept pending, nothing else. -/
theorem interrupt_frame (s : State) (ten v : Nat) : ∃ o m, s.interrupt ten v = { s with out := o, msixHeld := m } := by
  cases h : s.power.vfD3.contains ten with
  | true => exact ⟨s.out, _, interrupt_held h⟩
  | false => exact ⟨_, s.msixHeld, interrupt_sent h⟩

theorem msixModTimer_spec {t ten lring since : Nat} {s : State} (hoff : s.power.off = false) (hsince : (s.ring ten lring).modSince = some since)
    (hdue : since + (s.ring ten lring).modUs * 1000 ≤ max s.now t) :
    exec (.msixModTimer t ten lring) s = .next (settled t s
      (((s.advance t).clearCount ten lring).interrupt ten (s.ring ten lring).vector)) := by
  rw [exec_msixModTimer]
  refine run_eq hoff ?_
  simp only [State.advance_ring_entry, hsince]
  exact if_pos (decide_eq_true hdue)

/-- Settles O5: the entry is one write, the retired ring is as its law says, and the interrupt is sent or held by the function's power state. -/
theorem completionsAndMessages : Obligations.CompletionsAndMessages := by
  refine ⟨fun t ten lring h c rest pg s hoff hwarm hflrs hcmds hph hl hne hroom hbase hpg => ?completion, fun t ten lring since s hoff hsince hdue => ?timer⟩
  case completion =>
    obtain ⟨z, hexec, hz⟩ := finalCompletion_spec (t := t) hoff hwarm hflrs hcmds hph hl hne hroom hbase (Option.isSome_iff_exists.2 ⟨pg, hpg⟩)
    generalize hy : (s.advance t).emit (.dmaWrite ten (s.ring ten lring).cplIova (c.finalBytes (s.ring ten lring))) = y at hz
    have hout := sameOutside_retireCmd y ten lring c true
    have hring : (y.retireCmd ten lring c true).ring ten lring = (s.ring ten lring).retired c true := (ring_retireCmd ..).trans (by rw [← hy]; rfl)
    obtain ⟨hphase, hreplayed⟩ := finalBytes_flags c (s.ring ten lring)
    refine ⟨_, hexec, ?_, ?_, ?_, ?_, ?_, ?_, byteAt_completionBytes_status .., hphase, hreplayed, ?_, ?_, ?_, ?_, ?_⟩
    · exact hz.cmds.trans (hring ▸ retired_cmds hcmds true)
    · exact hz.cplPos.trans (hring ▸ rfl)
    · exact hz.state.trans (hring ▸ hl)
    · exact hz.hist.trans (hring ▸ rfl)
    · exact sameBut_trans hz.rings (by rw [← show y.rings = s.rings from hy ▸ rfl]; exact sameBut_retireCmd y ten lring c true)
    · exact hz.out _ (hout.out ▸ hy ▸ List.mem_cons_self ..)
    · exact (hz.cells.trans hout.cells).trans (hy ▸ rfl)
    · exact (hz.segs.trans hout.segs).trans (hy ▸ rfl)
    · exact ((congrArg Dram.cells hz.dram).trans hout.mem).trans (hy ▸ rfl)
    · exact (hz.settings.trans hout.settings).trans (hy ▸ rfl)
    · exact (hz.log.trans hout.log).trans (hy ▸ rfl)
  case timer =>
    obtain ⟨o, m, hframe⟩ := interrupt_frame ((s.advance t).clearCount ten lring) ten (s.ring ten lring).vector
    refine ⟨_, msixModTimer_spec hoff hsince hdue, ?_, ?_, fun hd3 => ?_, fun hd3 => ?_⟩
    · rw [hframe]
      exact State.ring_updRing_self (s.advance t) ten lring fun r => { r with modSeen := 0, modSince := none }
    · rw [hframe]
      exact sameBut_updRing (s.advance t) ten lring fun r => { r with modSeen := 0, modSince := none }
    · rw [interrupt_sent (s := (s.advance t).clearCount ten lring) hd3]
      rfl
    · rw [interrupt_held (s := (s.advance t).clearCount ten lring) hd3]
      rfl

end Sys2Proof.Machine
end

section
/-! Settles O17 (R98, R99, R308, R340, R354): how COMMAND_FINISH ends an EVAL, an engine's work and a copy. -/

namespace Sys2Proof.Machine

open Sys2Proof.Safety

/-- What COMMAND_FINISH does to a started command, by its opcode. -/
def State.endWork (s : State) (h : HostView) (ten lring : Nat) (c : Cmd) : State :=
  if c.opcode = 0x02 then s.finishClose ten lring c
  else if c.opcode = 0x03 then s.finishKeyset ten lring c
  else if c.opcode = 0x04 then s.finishLoad ten lring c
  else if c.opcode = 0x10 then c.eval.elim s fun v => s.finishEval ten lring c v
  else if c.opcode = 0x50 then s.finishCopy h ten lring c
  else s.finishDone ten lring c

section

variable {t ten lring seq : Nat} {h : HostView} {c : Cmd} {s : State}

theorem exec_commandFinish_next (hoff : s.power.off = false) (hc : s.cmd? ten lring seq = some c) (hp : c.phase = .started) :
    exec (.commandFinish t ten lring seq h) s = .next (settled t s ((s.advance t).endWork h ten lring c)) := by
  rw [exec_commandFinish]
  refine run_eq hoff ?_
  simp only [State.advance_cmd_entry, hc]
  exact if_neg (not_not_intro hp)

theorem endWork_eval {v : Eval} (hop : c.opcode = 0x10) (hv : c.eval = some v) : s.endWork h ten lring c = s.finishEval ten lring c v := by
  simp [State.endWork, hop, hv]

theorem endWork_copy (hop : c.opcode = 0x50) : s.endWork h ten lring c = s.finishCopy h ten lring c := by
  simp [State.endWork, hop]

theorem endWork_engine (hop : c.opcode ∈ [0x11, 0x20, 0x21, 0x30, 0x40]) : s.endWork h ten lring c = s.finishDone ten lring c := by
  simp only [List.mem_cons, List.not_mem_nil, or_false] at hop
  rcases hop with hop | hop | hop | hop | hop <;> simp [State.endWork, hop]

end

/-! ### EVALs (R308, R340) -/

theorem foldl_emit {α : Type} (f : α → Out) (l : List α) (s : State) :
    l.foldl (fun s a => s.emit (f a)) s = { s with out := (l.map f).reverse ++ s.out } := by
  induction l generalizing s with
  | nil => rfl
  | cons a r ih => rw [List.foldl_cons, ih]; simp [State.emit]

/-- What an EVAL wrote becomes undefined: free bytes of DRAM, and host memory given as undefined. -/
theorem undefine_eq (s : State) (ten : Nat) (v : Eval) : s.undefine ten v =
    { s with free := s.free + (v.wroteAt s.dram ten).length
             dram := { s.dram with cells := Memory.puts s.dram.cells ((v.wroteAt s.dram ten).zip ((s.frees (v.wroteAt s.dram ten).length).map (BitVec.ofNat 8))) }
             out := (v.hostWrote.map fun r => Out.dmaUndefined ten r.1 r.2).reverse ++ s.out } :=
  foldl_emit (fun r : Nat × Nat => Out.dmaUndefined ten r.1 r.2) _ _

theorem byte_puts_zip {d : Dram} {l : List Nat} {bs : List Byte} {a : Nat} (h : a ∉ l) :
    ({ d with cells := Memory.puts d.cells (l.zip bs) } : Dram).byte a = d.byte a := by
  refine Memory.puts_other _ _ fun w hw e => h ?_
  obtain ⟨hmem, -⟩ := List.of_mem_zip hw
  exact e ▸ hmem

section

variable {s : State} {ten lring : Nat} {c : Cmd} {v : Eval}

theorem finishEval_ok (hd : v.done = true) (ha : ∀ x ∈ v.sends, x.acked = true) (hf : v.failed = none) :
    s.finishEval ten lring c v = s.finish ten lring c.seq (St.ok, 0) := by
  unfold State.finishEval
  rw [if_pos (by rw [hd, List.all_eq_true.2 ha]; rfl), hf]

theorem finishEval_failed {e : Err} (hd : v.done = true) (ha : ∀ x ∈ v.sends, x.acked = true) (hf : v.failed = some e) :
    s.finishEval ten lring c v = (s.undefine ten v).finish ten lring c.seq e := by
  unfold State.finishEval
  rw [if_pos (by rw [hd, List.all_eq_true.2 ha]; rfl), hf]

theorem finishEval_early (h : v.done = false ∨ ∃ x ∈ v.sends, x.acked = false) : s.finishEval ten lring c v = s := by
  refine if_neg fun hall => ?_
  rw [Bool.and_eq_true, List.all_eq_true] at hall
  obtain ⟨hd, ha⟩ := hall
  rcases h with h | ⟨x, hx, h⟩
  · simp [h] at hd
  · simp [ha x hx] at h

end

/-! ### Copies (R238) -/

section

variable {s : State} {h : HostView} {ten lring k : Nat} {c : Cmd} {x : Session} {b : List Byte}

theorem finishCopy_toDevice (hx : Tbl.look (s.ten ten).sessions (c.handle 0) = some x) (hk : c.comb = some k) (hsvc : (s.comb k).svc = .inService)
    (hto : c.toHost = false) (hb : hostRead h ten (c.iova 0) (c.len 0) = some b) :
    s.finishCopy h ten lring c = (s.writeObj x.arena c.copyOffset b).finish ten lring c.seq (St.ok, 0) := by
  unfold State.finishCopy
  simp only [hx, hk, hsvc, hto, hb, beq_self_eq_true, onlyIf_true, Bool.false_eq_true, if_false]

theorem finishCopy_toHost (hx : Tbl.look (s.ten ten).sessions (c.handle 0) = some x) (hk : c.comb = some k) (hsvc : (s.comb k).svc = .inService)
    (hto : c.toHost = true) (hb : s.readObjAt x.arena c.copyOffset (c.len 0) = .ok b) (hw : (s.hostWrite h ten (c.iova 0) b).2 = true) :
    s.finishCopy h ten lring c = (s.hostWrite h ten (c.iova 0) b).1.finish ten lring c.seq (St.ok, 0) := by
  unfold State.finishCopy
  simp only [hx, hk, hsvc, hto, hb, hw, beq_self_eq_true, onlyIf_true, if_true]

end

theorem sameBut_finish {s z : State} {ten lring seq : Nat} {e : Err} (h : z.rings = s.rings) :
    SameBut (ringKey ten lring) (z.finish ten lring seq e).rings s.rings := by
  rw [← h]
  exact sameBut_updCmd z ten lring seq _

/-- Settles O17: the command's opcode picks its end, and each end is the finish of the command on what its work left. -/
theorem commandsFinish : Obligations.CommandsFinish := by
  intro t ten lring seq h c s hoff hc hp fin
  obtain rfl := State.cmd_seq hc
  have hexec := exec_commandFinish_next (t := t) (h := h) hoff hc hp
  refine ⟨fun v hop hv => ?eval, fun hop => ?engine, fun x k b hop hx hk hsvc => ?copy⟩
  case eval =>
    rw [endWork_eval hop hv] at hexec
    refine ⟨fun hd ha hf => ?_, fun e hd ha hf => ?_, fun hearly => ?_⟩
    · rw [finishEval_ok hd ha hf] at hexec
      obtain ⟨hring, hcmd, -⟩ := finish_settles t (St.ok, 0) hc
      exact ⟨_, hexec, hring, hcmd⟩
    · rw [finishEval_failed hd ha hf, undefine_eq] at hexec
      exact ⟨_, hexec, cmd_finish_some hc, sameBut_finish rfl, rfl, rfl, rfl, fun d hd => byte_puts_zip hd⟩
    · rw [finishEval_early hearly] at hexec
      exact ⟨_, hexec, rfl⟩
  case engine =>
    rw [endWork_engine hop] at hexec
    refine ⟨fun hrun => ?_, fun hrun => ?_⟩
    · rw [State.finishDone, if_pos hrun] at hexec
      obtain ⟨hring, hcmd, -⟩ := finish_settles t (c.status, c.detail) hc
      exact ⟨_, hexec, hring, hcmd⟩
    · rw [State.finishDone, if_neg (by rw [hrun]; decide)] at hexec
      exact ⟨_, hexec, rfl⟩
  case copy =>
    rw [endWork_copy hop] at hexec
    refine ⟨fun hto hb => ?_, fun hto hb hw => ?_⟩
    · rw [finishCopy_toDevice (s := s.advance t) hx hk hsvc hto hb, writeObj_eq (s := s.advance t) (s0 := s) rfl] at hexec
      exact ⟨_, hexec, cmd_finish_some hc, sameBut_finish rfl, rfl⟩
    · obtain ⟨l, ok, hwrite⟩ := hostWrite_out h ten (c.iova 0) b
      rw [hwrite s] at hw ⊢
      have hw' : ((s.advance t).hostWrite h ten (c.iova 0) b).2 = true := by rw [hwrite]; exact hw
      rw [finishCopy_toHost (s := s.advance t) hx hk hsvc hto hb hw', hwrite] at hexec
      exact ⟨_, hexec, cmd_finish_some hc, sameBut_finish rfl, rfl⟩

end Sys2Proof.Machine
end

section
/-! Settles O41 (R98, R147, R162, R217, R232, R336, R337): a placed run starts or goes on, and a running one yields its cells. -/

namespace Sys2Proof.Machine

open Sys2Proof.Safety

/-! ### The cells of a run that starts (R147, R162) -/

/-- The sequencer sets the cells of a group one after another, each by its group index. -/
theorem startCells_eq (s : State) (g : SegRun) (x : SegDef) : s.startCells g x =
    s.eachCell ((List.range g.cells.length).zip g.cells) (·.2) fun p c => c.start g.ten x.latMode (x.programs.getD (nth0 x.cellMap p.1) []) := rfl

theorem startCells_frame (s : State) (g : SegRun) (x : SegDef) : ∃ es, s.startCells g x = { s with cells := es } := eachCell_frame s

section

variable {s : State} {g : SegRun} {x : SegDef}

theorem cell_startCells {i c : Nat} (hn : g.cells.Nodup) (h : g.cells[i]? = some c) :
    (s.startCells g x).cell c = (s.cell c).start g.ten x.latMode (x.programs.getD (nth0 x.cellMap i) []) := by
  have hmem : (i, c) ∈ (List.range g.cells.length).zip g.cells := by
    obtain ⟨hi, -⟩ := List.getElem?_eq_some_iff.1 h
    exact List.mem_iff_getElem?.2 ⟨i, List.getElem?_zip_eq_some.2 ⟨List.getElem?_range hi, h⟩⟩
  exact cell_eachCell_mem (by rwa [map_snd_groupIndex]) hmem s

theorem cell_startCells_other {c : Nat} (h : c ∉ g.cells) : (s.startCells g x).cell c = s.cell c :=
  cell_eachCell_other (by rwa [map_snd_groupIndex]) s

/-- Starting a cell keeps its words. -/
theorem mem_startCells (s : State) (g : SegRun) (x : SegDef) (k : Nat) : ((s.startCells g x).cell k).mem = (s.cell k).mem := by
  refine eachCell_keeps (·.mem) ?_ s k
  exact fun _ _ => rfl

/-! ### The run that starts (R98, R217, R232) -/

/-- The state in which a run has begun, before its multicast groups and stencils are judged. -/
def State.launched (s : State) (g : SegRun) (x : SegDef) : State := (s.startCells g x).beginRun g x

theorem launched_cell (s : State) (g : SegRun) (x : SegDef) (k : Nat) : (s.launched g x).cell k = (s.startCells g x).cell k := rfl

theorem launched_dram (s : State) (g : SegRun) (x : SegDef) : (s.launched g x).dram = s.dram := by
  obtain ⟨es, h⟩ := startCells_frame s g x
  unfold State.launched
  rw [h]
  rfl

theorem seg_launched_self (hg : s.seg? g.id = some g) : (s.launched g x).seg? g.id = some (begunRun g x (s.peersOf g x) s.now) := by
  obtain ⟨es, h⟩ := startCells_frame s g x
  unfold State.launched
  rw [h]
  exact seg_updSeg_self (fun _ => rfl) hg

theorem seg_launched_other {j : Nat} (hj : j ≠ g.id) : (s.launched g x).seg? j = s.seg? j := by
  obtain ⟨es, h⟩ := startCells_frame s g x
  unfold State.launched
  rw [h]
  exact seg_updSeg_other (fun _ => rfl) hj

theorem cmd_launched {c : Cmd} (hc : s.cmd? g.ten g.lring g.seq = some c) : (s.launched g x).cmd? g.ten g.lring g.seq =
    some { c with startAt := if (g.first && g.replay) = true then some s.now else some (c.startAt.getD s.now) } := by
  obtain ⟨es, h⟩ := startCells_frame s g x
  unfold State.launched State.beginRun
  rw [h]
  dsimp only
  rw [State.cmd_updCmd_self, State.updSeg_cmd_entry]
  · exact congrArg (Option.map _) hc
  · exact fun _ => rfl

/-- What becomes of a run that has begun: a multicast group or a stencil at fault fails it. -/
def State.judgeStart (z : State) (seg : Nat) (x : SegDef) (g : SegRun) : State :=
  if x.mcasts.any (z.mcastBad g) then z.failSeg seg (g.cells.headD 0) (St.badField, 0x20)
  else match z.createFault g with
    | some e => z.failSeg seg (g.cells.headD 0) e
    | none => z

theorem judgeStart_sound {z : State} {seg : Nat} (hm : x.mcasts.any (z.mcastBad g) = false) (hf : z.createFault g = none) : z.judgeStart seg x g = z := by
  unfold State.judgeStart
  rw [hm, hf]
  rfl

theorem judgeStart_fails {z : State} {e : Err} (hg : z.seg? g.id = some g) (hp : g.phase = .running) (hnone : g.fail = none)
    (h : (x.mcasts.any (z.mcastBad g) = true ∧ e = (St.badField, 0x20)) ∨ (x.mcasts.any (z.mcastBad g) = false ∧ z.createFault g = some e)) :
    RunFails (z.judgeStart g.id x g) g.id e := by
  unfold State.judgeStart
  rcases h with ⟨hm, rfl⟩ | ⟨hm, hf⟩
  · rw [if_pos hm]
    exact failSeg_fails hg hp hnone
  · rw [if_neg (by rw [hm]; decide), hf]
    exact failSeg_fails hg hp hnone

end

/-! ### SEGMENT_START (R147, R337) -/

/-- What SEGMENT_START does to a run that may start: saved cells are restored; without them the run begins and is judged. -/
def State.startRun (s : State) (g : SegRun) (x : SegDef) : State :=
  if !g.saved.isEmpty then s.restoreCells g
  else match (s.launched g x).seg? g.id with
    | none => s.launched g x
    | some r => (s.launched g x).judgeStart g.id x r

section

variable {t : Nat} {s : State} {g : SegRun} {x : SegDef}

theorem exec_segmentStart_next (hoff : s.power.off = false) (hg : s.seg? g.id = some g) (hmay : MayStart (s.advance t) g x) :
    exec (.segmentStart t g.id) s = .next (settled t s ((s.advance t).startRun g x)) := by
  obtain ⟨hdef, hp, hscrub, hfail, hsvc, hgang, -⟩ := hmay
  rw [exec_segmentStart]
  refine run_eq hoff ?_
  simp only [State.advance_seg_entry, hg, hdef]
  refine if_pos ?_
  simp only [hp, hscrub, hfail, hsvc, hgang, beq_self_eq_true, Option.isNone_none, Bool.and_self]

/-- A run without saved cells begins and is judged. -/
theorem segmentStart_begins (hoff : s.power.off = false) (hg : s.seg? g.id = some g) (hmay : MayStart (s.advance t) g x) (hsaved : g.saved = []) :
    exec (.segmentStart t g.id) s = .next (settled t s
      (((s.advance t).launched g x).judgeStart g.id x (begunRun g x ((s.advance t).peersOf g x) (max s.now t)))) := by
  rw [exec_segmentStart_next hoff hg hmay, State.startRun, hsaved, seg_launched_self (s := s.advance t) hg]
  rfl

/-- A run that had yielded takes up its saved cells. -/
theorem segmentStart_resumes (hoff : s.power.off = false) (hg : s.seg? g.id = some g) (hmay : MayStart (s.advance t) g x) (hsaved : g.saved ≠ []) :
    exec (.segmentStart t g.id) s = .next (settled t s ((s.advance t).restoreCells g)) := by
  rw [exec_segmentStart_next hoff hg hmay, State.startRun, if_pos (by simpa using hsaved)]

end

/-- A cell as a yielded run saved it, under the run that holds it now (R337). -/
def Cell.restored (c v : Cell) (ten : Nat) : Cell := { v with seg := c.seg, group := c.group, lastTen := some ten }

section

variable {s : State} {g : SegRun}

theorem restoreCells_eq (s : State) (g : SegRun) : s.restoreCells g =
    (s.eachCell (g.cells.zip g.saved) (·.1) fun p c => c.restored p.2 g.ten).updSeg g.id fun r =>
      { r with phase := .running, saved := [], ranSince := s.now, progress := s.now } := by
  obtain ⟨es, h⟩ := eachCell_frame (l := g.cells.zip g.saved) (key := (·.1)) (f := fun p c => c.restored p.2 g.ten) s
  have hfold : (g.cells.zip g.saved).foldl (fun s p => s.updCell p.1 fun c => { p.2 with seg := c.seg, group := c.group, lastTen := some g.ten }) s =
      { s with cells := es } := h
  unfold State.restoreCells
  rw [hfold, h]

theorem restoreCells_spec (hg : s.seg? g.id = some g) (hn : g.cells.Nodup) (hlen : g.saved.length = g.cells.length) :
    (s.restoreCells g).seg? g.id = some { g with phase := .running, saved := [], ranSince := s.now, progress := s.now } ∧
    (s.restoreCells g).dram = s.dram ∧
    (∀ (i c : Nat) (v : Cell), g.cells[i]? = some c → g.saved[i]? = some v → (s.restoreCells g).cell c = (s.cell c).restored v g.ten) ∧
    (∀ c, c ∉ g.cells → (s.restoreCells g).cell c = s.cell c) ∧ ∀ j, j ≠ g.id → (s.restoreCells g).seg? j = s.seg? j := by
  have hkeys : (g.cells.zip g.saved).map (·.1) = g.cells := List.map_fst_zip hlen.ge
  obtain ⟨es, hframe⟩ := eachCell_frame (l := g.cells.zip g.saved) (key := (·.1)) (f := fun p c => c.restored p.2 g.ten) s
  rw [restoreCells_eq]
  refine ⟨?_, eachCell_dram s, fun i c v hc hv => ?_, fun c hc => cell_eachCell_other (by rwa [hkeys]) s, fun j hj => ?_⟩
  · rw [hframe]
    exact seg_updSeg_self (fun _ => rfl) hg
  · exact cell_eachCell_mem (p := (c, v)) (by rwa [hkeys]) (List.mem_iff_getElem?.2 ⟨i, List.getElem?_zip_eq_some.2 ⟨hc, hv⟩⟩) s
  · rw [hframe]
    exact seg_updSeg_other (fun _ => rfl) hj

end

/-! ### SEGMENT_YIELD (R336, R337) -/

/-- A run that waits again, its cells saved. -/
def SegRun.yields (g : SegRun) (saved : List Cell) (now : Nat) : SegRun :=
  { g with phase := .yielded, saved := saved, scrubbed := false, readyAt := now, borrower := false }

section

variable {t seg : Nat} {s : State} {g : SegRun}

theorem exec_segmentYield_next (hoff : s.power.off = false) (hg : s.seg? seg = some g) (hp : g.phase = .running) (hfail : g.fail = none) (hcls : g.cls ≠ 0)
    (hran : g.ranSince + 200000 ≤ max s.now t) (hwants : s.wantsYield g = true) (hquiet : s.quiet g = true) :
    exec (.segmentYield t seg) s = .next (settled t s
      ((((s.advance t).creditClass g).releaseCells g.cells).updSeg seg fun x => x.yields (g.cells.map s.cell) (max s.now t))) := by
  have hwants' : (s.advance t).wantsYield g = true := hwants
  have hquiet' : (s.advance t).quiet g = true := hquiet
  have hran' : decide (g.ranSince + 200 * usec ≤ (s.advance t).now) = true := decide_eq_true hran
  obtain ⟨es, hrel⟩ := releaseCells_cells ((s.advance t).creditClass g) g.cells
  rw [exec_segmentYield]
  refine run_eq hoff ?_
  simp only [State.advance_seg_entry, hg]
  refine (if_pos ?_).trans ?_
  · simp only [hp, hfail, bne_iff_ne.2 hcls, hran', hwants', hquiet', beq_self_eq_true, Option.isNone_none, Bool.and_self]
  · dsimp only
    rw [hrel]
    rfl

theorem releaseCells_eq (s : State) (l : List Nat) : s.releaseCells l = s.eachCell l id fun _ => Cell.release := rfl

theorem cell_releaseCells {l : List Nat} (hn : l.Nodup) {c : Nat} (h : c ∈ l) : (s.releaseCells l).cell c = (s.cell c).release :=
  cell_eachCell_mem (key := id) (f := fun _ => Cell.release) (by rwa [List.map_id]) h s

theorem cell_releaseCells_other {l : List Nat} {c : Nat} (h : c ∉ l) : (s.releaseCells l).cell c = s.cell c :=
  cell_eachCell_other (key := id) (by rwa [List.map_id]) s

/-- Releasing cells keeps their words. -/
theorem mem_releaseCells (s : State) (l : List Nat) (k : Nat) : ((s.releaseCells l).cell k).mem = (s.cell k).mem := by
  refine eachCell_keeps (key := id) (f := fun _ => Cell.release) (·.mem) ?_ s k
  exact fun _ _ => rfl

/-- Between two states that differ in cells alone by a release, a run on those cells is over. -/
theorem runOver_of_release {z w : State} (hn : g.cells.Nodup) (hz : ∀ k, z.cell k = s.cell k) (hw : ∀ k, w.cell k = (z.releaseCells g.cells).cell k)
    (hdram : w.dram = s.dram) (hset : w.settings = s.settings) : RunOver s w g := by
  refine ⟨fun c hc => ?_, fun c hc => ?_, fun k a => ?_, hdram, hset⟩
  · rw [hw, cell_releaseCells hn hc]
    exact ⟨rfl, rfl, rfl, rfl⟩
  · rw [hw, cell_releaseCells_other hc, hz]
  · unfold State.word
    rw [hw, mem_releaseCells, hz]

theorem segmentYield_spec (hoff : s.power.off = false) (hg : s.seg? seg = some g) (hp : g.phase = .running) (hfail : g.fail = none) (hcls : g.cls ≠ 0)
    (hran : g.ranSince + 200000 ≤ max s.now t) (hwants : s.wantsYield g = true) (hquiet : s.quiet g = true) (hn : g.cells.Nodup) :
    ∃ s', exec (.segmentYield t seg) s = .next s' ∧ s'.seg? seg = some (g.yields (g.cells.map s.cell) (max s.now t)) ∧ RunOver s s' g ∧
      ∀ j, j ≠ seg → s'.seg? j = s.seg? j := by
  obtain ⟨es, hrel⟩ := releaseCells_cells ((s.advance t).creditClass g) g.cells
  refine ⟨_, exec_segmentYield_next hoff hg hp hfail hcls hran hwants hquiet, ?_,
    runOver_of_release (z := (s.advance t).creditClass g) hn (fun _ => rfl) (fun _ => rfl) ?_ ?_, fun j hj => ?_⟩
  · rw [hrel]
    exact seg_updSeg_self (fun _ => rfl) hg
  · rw [hrel]
    rfl
  · rw [hrel]
    rfl
  · rw [hrel]
    exact seg_updSeg_other (fun _ => rfl) hj

end

/-- Settles O41: a start without saved cells is the launch as it is judged, one with saved cells restores them, and a yield saves and releases them. -/
theorem segmentsStartAndYield : Obligations.SegmentsStartAndYield := by
  intro t seg g s hoff hg
  obtain rfl := seg_id hg
  refine ⟨fun x hmay hsaved => ?start, fun x hmay hsaved hlen => ?resume, fun hp hfail hcls hran hwants hquiet hn =>
    segmentYield_spec hoff hg hp hfail hcls hran hwants hquiet hn⟩
  case start =>
    obtain ⟨-, -, -, hfail, -, -, hn⟩ := id hmay
    have hexec := segmentStart_begins hoff hg hmay hsaved
    have hz := seg_launched_self (s := s.advance t) (x := x) hg
    have hfails := fun e => judgeStart_fails (g := begunRun g x ((s.advance t).peersOf g x) (max s.now t)) (e := e) (x := x) hz rfl hfail
    refine ⟨fun hf hm => ?_, fun hm => ?_, fun e hf hm => ?_⟩
    · rw [judgeStart_sound (z := (s.advance t).launched g x) hm hf] at hexec
      refine ⟨_, hexec, hz, launched_dram .., fun k a => ?_, fun i c h => cell_startCells hn h, fun c h => cell_startCells_other h,
        fun j hj => seg_launched_other hj, fun c hc => cmd_launched (s := s.advance t) hc⟩
      unfold State.word
      rw [settled_cell, launched_cell, mem_startCells, State.advance_cell_entry]
    · exact ⟨_, hexec, hfails _ (.inl ⟨hm, rfl⟩)⟩
    · exact ⟨_, hexec, hfails e (.inr ⟨hm, hf⟩)⟩
  case resume =>
    obtain ⟨-, -, -, -, -, -, hn⟩ := id hmay
    exact ⟨_, segmentStart_resumes hoff hg hmay hsaved, restoreCells_spec (s := s.advance t) hg hn hlen⟩

end Sys2Proof.Machine
end

section
/-! Settles O32 and O33 (R150, R153, R155, R165, R167, R172 to R181, R185): what a control instruction and a WIN leave of the cell that issues them. -/

namespace Sys2Proof.Machine

open Sys2Proof.Safety

/-! ### Issue (R165) -/

theorem stepped_seg (c : Cell) (i : Ins) : (stepped c i).seg = c.seg := rfl

/-- The command of an instruction that a cell may issue acts on the state in which it has issued. -/
theorem run_issue {s : State} {t cell : Nat} {g : SegRun} {c : Cell} {raw : InsWord} {isIt : Ins → Bool} {f : State → SegRun → Cell → InsWord → State}
    (hoff : s.power.off = false) (hmay : MayIssue s cell g c raw) (his : isIt (ins raw) = true) :
    run t s (fun s => s.issue cell isIt f) = .next (settled t s (f (issued s t cell g.id (stepped c (ins raw))) g c raw)) :=
  run_eq hoff (issue_may hmay his)

/-- Posts for which there is room leave the cell that they fill. -/
theorem cellBecomes_posts {s : State} {t cell : Nat} {g : SegRun} {c d e : Cell} {raw : InsWord} {l : List (Nat × Nat)} (hmay : MayIssue s cell g c raw)
    (he : postAll d l = some e) (hd : d.seg = c.seg) : CellBecomes s (settled t s (postsIn (issued s t cell g.id d) cell l)) t cell g.id e := by
  rw [posts_ok hmay l d e hd he]
  rfl

/-! ### Control instructions (R172 to R181) -/

theorem postsIn_append (s : State) (cell : Nat) (l r : List (Nat × Nat)) : postsIn s cell (l ++ r) = postsIn (postsIn s cell l) cell r :=
  List.foldl_append

/-- The command of a row issues the row's instruction; on a cell that has just issued it leaves the row's effect, then the row's posts. -/
def ControlMeans (t cell : Nat) (row : Instr × (Ins → Bool) × (Nat → Ins → Cell → Cell) × (Ins → Cell → List (Nat × Nat))) : Prop :=
  ∃ f, (∀ s, exec row.1 s = run t s fun s => s.issue cell row.2.1 f) ∧
    ∀ (s : State) (id : Nat) (g : SegRun) (c0 c : Cell) (raw : InsWord),
      (row.2.2.1 (max s.now t) (ins raw) c).seg = c.seg ∧
      f (issued s t cell id c) g c0 raw = postsIn (issued s t cell id (row.2.2.1 (max s.now t) (ins raw) c)) cell (row.2.2.2 (ins raw) c)

section

variable {t cell : Nat} {cmd : Instr} {eff : Nat → Ins → Cell → Cell}

/-- A control instruction other than POST whose effect is one of its cell. -/
theorem controlMeans_control {op : Nat} {f : State → SegRun → Cell → Ins → State} (hop : op ≠ Op.post)
    (hexec : ∀ s, exec cmd s = run t s fun s => s.control cell op f) (hseg : ∀ n i c, (eff n i c).seg = c.seg)
    (hf : ∀ s id g c0 c i, f (issued s t cell id c) g c0 i = issued s t cell id (eff (max s.now t) i c)) :
    ControlMeans t cell (cmd, (fun i => i.op == op), eff, fun i _ => pePosts i) := by
  refine ⟨_, hexec, fun s id g c0 c raw => ⟨hseg .., ?_⟩⟩
  dsimp only
  rw [if_neg hop, hf, post_pe]

/-- A form of TIMER whose effect is one of its cell. -/
theorem controlMeans_timer {form : Bool × Bool} {f : State → Ins → State}
    (hexec : ∀ s, exec cmd s = run t s fun s => s.timerOp cell form f) (hseg : ∀ n i c, (eff n i c).seg = c.seg)
    (hf : ∀ s id c i, f (issued s t cell id c) i = issued s t cell id (eff (max s.now t) i c)) :
    ControlMeans t cell (cmd, (fun i => i.op == Op.timer && i.timerForm == form), eff, fun i _ => pePosts i) := by
  refine ⟨_, hexec, fun s id g c0 c raw => ⟨hseg .., ?_⟩⟩
  dsimp only
  rw [hf, post_pe]

end

/-- POST has no effect but its post, which stands for that of PE. -/
theorem controlMeans_post (t cell : Nat) :
    ControlMeans t cell (.post t cell, (fun i => i.op == Op.post), (fun _ _ c => c), fun i _ => [(i.pq, i.field 208 6)]) :=
  ⟨_, fun _ => rfl, fun _ _ _ _ _ _ => ⟨rfl, rfl⟩⟩

/-- LATCH_ARM posts for an edge that was pending, then for PE. -/
theorem controlMeans_latchArm (t cell : Nat) :
    ControlMeans t cell (.latchArm t cell, (fun i => i.op == Op.timer && i.timerForm == (true, false)),
      (fun _ i c => { c with latches := Tbl.put c.latches (i.field 212 1) { queue := some (i.field 205 6), pending := false } }),
      fun i c => (if (c.latch (i.field 212 1)).pending then [(i.field 205 6, 1)] else []) ++ pePosts i) := by
  refine ⟨_, fun _ => rfl, fun s id g c0 c raw => ⟨rfl, ?_⟩⟩
  dsimp only
  rw [issued_cell, issued_upd, post_pe, postsIn_append, Ins.timerIndex, Ins.timerQueue]
  cases (c.latch ((ins raw).field 212 1)).pending <;> rfl

theorem controlMeans_of_mem {t cell : Nat} : ∀ row ∈ controlRows t cell, ControlMeans t cell row := by
  simp only [controlRows, List.forall_mem_cons]
  refine ⟨controlMeans_control (by decide) (fun _ => rfl) (fun _ _ _ => rfl) fun _ _ _ _ _ _ => rfl, controlMeans_post t cell, ?jump, ?loop, ?handoff, ?halt,
    ?setmod, ?setadv, ?load, ?stop, controlMeans_latchArm t cell, ?disarm, fun _ h => nomatch h⟩
  case load | stop | disarm => exact controlMeans_timer (fun _ => rfl) (fun _ _ _ => rfl) fun _ _ _ _ => issued_upd ..
  all_goals exact controlMeans_control (by decide) (fun _ => rfl) (fun _ _ _ => rfl) fun _ _ _ _ _ _ => issued_upd ..

/-- Settles O32: each row's effect stands on the cell that has issued, and its posts follow one after another. -/
theorem controlInstructions : Obligations.ControlInstructions := by
  intro t cell g c raw s hoff row hrow his
  obtain ⟨f, hexec, hf⟩ := controlMeans_of_mem row hrow
  refine ⟨fun hmay => ?_, fun hc hcur hwait => ⟨_, (hexec s).trans (run_eq hoff (issue_waits hc hcur hwait)), rfl⟩⟩
  obtain ⟨hseg, hposts⟩ := hf s g.id g c (stepped c (ins raw)) raw
  have hrun := (hexec s).trans (run_issue hoff hmay his)
  rw [hposts] at hrun
  exact ⟨fun e he => ⟨_, hrun, cellBecomes_posts hmay he hseg⟩, fun he => ⟨_, hrun, posts_fail hmay _ _ hseg he⟩⟩

/-! ### WIN (R150, R153, R185) -/

/-- The admitted writes that the close of a cell's window waits for, the cell being d (R153). -/
def closeWaits (s : State) (cell : Nat) (d : Cell) (w : Nat) : List Nat :=
  if (Tbl.look d.windows w).isSome then State.admittedTo { s with cells := Tbl.put s.cells cell d } cell w else []

/-- A cell with a window closed. -/
def Cell.shut (d : Cell) (w : Nat) : Cell := { d with windows := Tbl.del d.windows w }

/-- A cell with a window closed, whose close stands until the writes in `waits` have landed. -/
def Cell.closes (d : Cell) (w : Nat) (post : Option Nat) (waits : List Nat) : Cell :=
  { d.shut w with closing := d.closing ++ [{ window := w, post := post, waits := waits }] }

section

variable {s : State} {t cell id w : Nat} {d : Cell} {post : Option Nat}

theorem closeWindow_issued (s : State) (t cell id w : Nat) (d : Cell) (post : Option Nat) : (issued s t cell id d).closeWindow cell w post =
    if (closeWaits s cell d w).isEmpty then (issued s t cell id (d.shut w)).postOpt cell post
    else issued s t cell id (d.closes w post (closeWaits s cell d w)) := by
  unfold State.closeWindow
  dsimp only
  rw [issued_cell, issued_upd, issued_upd]
  rfl

theorem closeWindow_at_once (h : closeWaits s cell d w = []) :
    (issued s t cell id d).closeWindow cell w post = (issued s t cell id (d.shut w)).postOpt cell post := by
  rw [closeWindow_issued, h]
  rfl

theorem closeWindow_waits (h : closeWaits s cell d w ≠ []) :
    (issued s t cell id d).closeWindow cell w post = issued s t cell id (d.closes w post (closeWaits s cell d w)) := by
  rw [closeWindow_issued, if_neg (by rwa [List.isEmpty_iff])]

end

/-- A cell whose window has been opened, an earlier one of its number closed with the writes in `waits` still under way. -/
def Cell.opens (d : Cell) (w : Nat) (f : Window) (waits : List Nat) : Cell :=
  { d.shut w with
    windows := Tbl.put (d.shut w).windows w f
    closing := if waits = [] then d.closing else d.closing ++ [{ window := w, post := none, waits := waits }] }

theorem openWindow_issued (s : State) (t cell id w : Nat) (d : Cell) (f : Window) :
    ((issued s t cell id d).closeWindow cell w none).updCell cell (fun c => { c with windows := Tbl.put c.windows w f }) =
      issued s t cell id (d.opens w f (closeWaits s cell d w)) := by
  by_cases h : closeWaits s cell d w = []
  · rw [closeWindow_at_once h, State.postOpt, issued_upd, h]
    rfl
  · rw [closeWindow_waits h, issued_upd, Cell.opens, if_neg h]
    rfl

section

variable {s : State} {t cell : Nat} {g : SegRun} {c e : Cell} {raw : InsWord}

theorem winOpen_spec (hoff : s.power.off = false) (hmay : MayIssue s cell g c raw) (hop : (ins raw).op = Op.win) (hclose : (ins raw).winClose = false)
    (he : postAll ((stepped c (ins raw)).opens (ins raw).window (ins raw).windowFields (closeWaits s cell (stepped c (ins raw)) (ins raw).window))
      (pePosts (ins raw)) = some e) :
    ∃ s', exec (.winOpen t cell) s = .next s' ∧ CellBecomes s s' t cell g.id e := by
  have his : ((ins raw).op == Op.win && !(ins raw).winClose) = true := by rw [hop, hclose]; rfl
  rw [exec_winOpen, execWinOpen, run_issue hoff hmay his]
  dsimp only
  rw [openWindow_issued, post_pe]
  exact ⟨_, rfl, cellBecomes_posts hmay he (stepped_seg c (ins raw))⟩

theorem exec_winClose_next (hoff : s.power.off = false) (hmay : MayIssue s cell g c raw) (hop : (ins raw).op = Op.win) (hclose : (ins raw).winClose = true) :
    exec (.winClose t cell) s =
      .next (settled t s ((issued s t cell g.id (stepped c (ins raw))).closeWindow cell (ins raw).window (ins raw).post)) := by
  have his : ((ins raw).op == Op.win && (ins raw).winClose) = true := by rw [hop, hclose]; rfl
  rw [exec_winClose, execWinClose, run_issue hoff hmay his]

theorem winClose_at_once (hoff : s.power.off = false) (hmay : MayIssue s cell g c raw) (hop : (ins raw).op = Op.win) (hclose : (ins raw).winClose = true)
    (hwaits : closeWaits s cell (stepped c (ins raw)) (ins raw).window = [])
    (he : postAll ((stepped c (ins raw)).shut (ins raw).window) (pePosts (ins raw)) = some e) :
    ∃ s', exec (.winClose t cell) s = .next s' ∧ CellBecomes s s' t cell g.id e := by
  refine ⟨_, exec_winClose_next hoff hmay hop hclose, ?_⟩
  rw [closeWindow_at_once hwaits, post_pe]
  exact cellBecomes_posts hmay he (stepped_seg c (ins raw))

theorem winClose_waits (hoff : s.power.off = false) (hmay : MayIssue s cell g c raw) (hop : (ins raw).op = Op.win) (hclose : (ins raw).winClose = true)
    (hwaits : closeWaits s cell (stepped c (ins raw)) (ins raw).window ≠ []) :
    ∃ s', exec (.winClose t cell) s = .next s' ∧ CellBecomes s s' t cell g.id
      ((stepped c (ins raw)).closes (ins raw).window (ins raw).post (closeWaits s cell (stepped c (ins raw)) (ins raw).window)) := by
  refine ⟨_, exec_winClose_next hoff hmay hop hclose, ?_⟩
  rw [closeWindow_waits hwaits]
  rfl

end

/-- Settles O33: both forms begin a close of the window; an opening posts after it, a closing where nothing is waited for. -/
theorem windowsOpenAndClose : Obligations.WindowsOpenAndClose := by
  intro t cell g c e raw s hoff hmay hop
  exact ⟨fun hclose he => winOpen_spec hoff hmay hop hclose he,
    fun hclose => ⟨fun hwaits he => winClose_at_once hoff hmay hop hclose hwaits he, fun hwaits => winClose_waits hoff hmay hop hclose hwaits⟩⟩

end Sys2Proof.Machine
end

section
/-! Settles O36 (R145, R146, R165, R169, R171, R182, R184, R187, R191, R218): a MOVE is checked at issue and is then under way. -/

namespace Sys2Proof.Machine

open Sys2Proof.Safety

/-! ### An engine instruction that issues (R165, R187) -/

section

variable {s : State} {t cell : Nat} {g : SegRun} {c : Cell} {raw : InsWord} {f : Flight}

/-- The run of a cell that has just issued. -/
theorem seg_issued (hg : s.seg? g.id = some g) (t cell : Nat) (d : Cell) : (issued s t cell g.id d).seg? g.id = some { g with progress := max s.now t } :=
  seg_updSeg_self (f := fun g => { g with progress := max s.now t }) (fun _ => rfl) hg

theorem launch_issued (s : State) (t cell id : Nat) (d : Cell) (f : Flight) : (issued s t cell id d).launch cell f =
    issued { s with nextId := s.nextId + 1 } t cell id { d with flights := d.flights ++ [{ f with id := s.nextId }] } := by
  unfold State.launch
  rw [issued_upd]
  rfl

/-- An instruction that issues without a check is under way; its stencil may have changed the combs' shelves to cs. -/
theorem launched_launch (s : State) (t cell id : Nat) (c : Cell) (raw : InsWord) (cs : Tbl Comb) (f : Flight) :
    Launched s (settled t s ((issued { s with combs := cs } t cell id (stepped c (ins raw))).launch cell f)) t cell id c raw c.bound f cs := by
  rw [launch_issued]
  rfl

/-- Accesses are judged in a checked segment only. -/
theorem checked_of_unfenced {w : Option (Nat × Nat × Nat)} {reads writes : List (Nat × Nat)} {k : Nat} (h : s.unfenced g w reads writes = some k) :
    (s.runDef g).any (·.checked) = true := by
  unfold State.unfenced at h
  dsimp only at h
  split at h
  · assumption
  · cases h

/-- An instruction that issues is under way, but for an unfenced access that its own CHK and its segment's checked mode find. -/
theorem launchedOrUnfenced_launchChecked (hmay : MayIssue s cell g c raw) (hraw : f.raw = raw) (cs : Tbl Comb) :
    LaunchedOrUnfenced s (settled t s ((issued { s with combs := cs } t cell g.id (stepped c (ins raw))).launchChecked g cell f))
      t cell g c raw c.bound f cs := by
  have hrun : (issued { s with combs := cs } t cell g.id (stepped c (ins raw))).seg? g.id = some { g with progress := max s.now t } :=
    seg_issued (s := { s with combs := cs }) (cellRun_id hmay.1).2 t cell _
  obtain ⟨hphase, hfail⟩ := run_live hmay
  unfold State.launchChecked
  dsimp only
  split
  next k hbad =>
    split at hbad
    next hchk => exact .inr ⟨hraw ▸ hchk, (checked_of_unfenced hbad :), k, failSeg_fails (g := { g with progress := max s.now t }) hrun hphase hfail⟩
    next => cases hbad
  next => exact .inl (launched_launch ..)

/-! ### MOVE_DIRECT and MOVE_BANK_LOAD (R145, R146, R184) -/

theorem isMove_of {form : Nat} (hop : (ins raw).op = Op.move) (hform : (ins raw).moveForm = form) : isMove form (ins raw) = true := by
  simp [isMove, hop, hform]

theorem moveDirect_outside (hoff : s.power.off = false) (hmay : MayIssue s cell g c raw) (hop : (ins raw).op = Op.move) (hform : (ins raw).moveForm = 0)
    (hout : (ins raw).groupsInside g.cells.length = false ∨ (ins raw).runsInside (c.eas (ins raw)) = false) :
    ∃ s', exec (.moveDirect t cell) s = .next s' ∧ RunFails s' g.id (St.stencilBounds, 0) := by
  rw [exec_moveDirect, execMoveDirect, run_issue hoff hmay (isMove_of hop hform)]
  refine ⟨_, rfl, ?_⟩
  dsimp only
  rw [if_pos (by rcases hout with h | h <;> rw [h] <;> simp)]
  exact fail_issued hmay ..

theorem moveDirect_inside (hoff : s.power.off = false) (hmay : MayIssue s cell g c raw) (hop : (ins raw).op = Op.move) (hform : (ins raw).moveForm = 0)
    (hgroups : (ins raw).groupsInside g.cells.length = true) (hruns : (ins raw).runsInside (c.eas (ins raw)) = true) :
    ∃ s', exec (.moveDirect t cell) s = .next s' ∧ LaunchedOrUnfenced s s' t cell g c raw c.bound
      (newFlight raw (c.eas (ins raw)) ((ins raw).readSet g.cells cell (c.eas (ins raw))) ((ins raw).writeSet g.cells cell (c.eas (ins raw)))
        ((ins raw).opnd 1).remote (!(ins raw).remoteSource)) s.combs := by
  rw [exec_moveDirect, execMoveDirect, run_issue hoff hmay (isMove_of hop hform)]
  refine ⟨_, rfl, ?_⟩
  dsimp only
  rw [if_neg (by simp [hgroups, hruns])]
  exact launchedOrUnfenced_launchChecked hmay rfl s.combs

theorem moveBankLoad_active (hoff : s.power.off = false) (hmay : MayIssue s cell g c raw) (hop : (ins raw).op = Op.move) (hform : (ins raw).moveForm = 2)
    (hbank : bits ((ins raw).opRaw 2) 8 1 = c.active) : ∃ s', exec (.moveBankLoad t cell) s = .next s' ∧ RunFails s' g.id (St.badField, 1) := by
  rw [exec_moveBankLoad, execMoveBankLoad, run_issue hoff hmay (isMove_of hop hform)]
  refine ⟨_, rfl, ?_⟩
  rw [if_pos hbank]
  exact fail_issued hmay ..

theorem moveBankLoad_idle (hoff : s.power.off = false) (hmay : MayIssue s cell g c raw) (hop : (ins raw).op = Op.move) (hform : (ins raw).moveForm = 2)
    (hbank : bits ((ins raw).opRaw 2) 8 1 ≠ c.active) :
    ∃ s', exec (.moveBankLoad t cell) s = .next s' ∧ Launched s s' t cell g.id c raw c.bound (newFlight raw [] [] [] false true) s.combs := by
  rw [exec_moveBankLoad, execMoveBankLoad, run_issue hoff hmay (isMove_of hop hform)]
  refine ⟨_, rfl, ?_⟩
  rw [if_neg hbank]
  exact launched_launch s t cell g.id c raw s.combs _

end

/-! ### MOVE_STENCIL (R182, R218, R237) -/

/-- A stencil MOVE as it stands at issue, n slices from `a` on of src going to those from `b` on of dst. -/
def State.stencilFlight (s : State) (g : SegRun) (cell : Nat) (raw : InsWord) (eas : List Int) (src dst : Stencil) (hw : Option (List Nat)) : Flight :=
  let n := ((ins raw).opnd 0).len
  { newFlight raw eas (if src.inPad then (s.padRun g cell src (eas.getD 0 0).toNat n).filterMap id else [])
      (if dst.inPad then (s.padRun g cell dst (eas.getD 1 0).toNat n).filterMap id else []) (dst.space == 1) (src.space != 1 || n == 0) with hostWords := hw }

/-- The issue of a stencil MOVE between two stencils of its segment. -/
def State.issueStencil (s : State) (h : HostView) (g : SegRun) (cell : Nat) (raw : InsWord) (eas : List Int) (src dst : Stencil) : State :=
  let n := ((ins raw).opnd 0).len
  let a := eas.getD 0 0
  if !src.slicesInside a n || !dst.slicesInside (eas.getD 1 0) n then s.failSeg g.id cell (St.stencilBounds, 0)
  else if !s.regenOk g src a.toNat n then s.failSeg g.id cell (St.badField, 1)
  else match s.hostWordsOf h g src a.toNat n with
    | .error e => s.failSeg g.id cell e
    | .ok hw => (if n = 0 then s else s.useKey g src).launchChecked g cell (s.stencilFlight g cell raw eas src dst hw)

/-- Whether the slices of a stencil MOVE that issues with these addresses lie in its two stencils. -/
def SlicesFit (i : Ins) (eas : List Int) (src dst : Stencil) : Prop :=
  src.slicesInside (eas.getD 0 0) (i.opnd 0).len = true ∧ dst.slicesInside (eas.getD 1 0) (i.opnd 0).len = true

section

variable {s : State} {h : HostView} {g : SegRun} {cell : Nat} {raw : InsWord} {eas : List Int} {src dst : Stencil}

theorem issueStencil_outside (hfit : ¬ SlicesFit (ins raw) eas src dst) :
    s.issueStencil h g cell raw eas src dst = s.failSeg g.id cell (St.stencilBounds, 0) := by
  refine if_pos ?_
  rw [← Bool.not_and, Bool.not_eq_true', ← Bool.not_eq_true, Bool.and_eq_true]
  exact hfit

section

variable (hfit : SlicesFit (ins raw) eas src dst)

include hfit

theorem issueStencil_unordered (hregen : s.regenOk g src (eas.getD 0 0).toNat ((ins raw).opnd 0).len = false) :
    s.issueStencil h g cell raw eas src dst = s.failSeg g.id cell (St.badField, 1) := by
  unfold State.issueStencil
  dsimp only
  rw [hfit.1, hfit.2, hregen]
  rfl

theorem issueStencil_unread {e : Err} (hregen : s.regenOk g src (eas.getD 0 0).toNat ((ins raw).opnd 0).len = true)
    (hhost : s.hostWordsOf h g src (eas.getD 0 0).toNat ((ins raw).opnd 0).len = .error e) :
    s.issueStencil h g cell raw eas src dst = s.failSeg g.id cell e := by
  unfold State.issueStencil
  dsimp only
  rw [hfit.1, hfit.2, hregen, hhost]
  rfl

theorem issueStencil_launches {hw : Option (List Nat)} (hregen : s.regenOk g src (eas.getD 0 0).toNat ((ins raw).opnd 0).len = true)
    (hhost : s.hostWordsOf h g src (eas.getD 0 0).toNat ((ins raw).opnd 0).len = .ok hw) : s.issueStencil h g cell raw eas src dst =
      (if ((ins raw).opnd 0).len = 0 then s else s.useKey g src).launchChecked g cell (s.stencilFlight g cell raw eas src dst hw) := by
  unfold State.issueStencil
  dsimp only
  rw [hfit.1, hfit.2, hregen, hhost]
  rfl

end

end

theorem stencilFlight_issued (s : State) (t cell id : Nat) (d : Cell) (g : SegRun) (raw : InsWord) (eas : List Int) (src dst : Stencil) (hw : Option (List Nat)) :
    (issued s t cell id d).stencilFlight g cell raw eas src dst hw = s.stencilFlight g cell raw eas src dst hw := by
  simp only [State.stencilFlight, padRun_issued]

/-- The combs once a stencil MOVE of n slices has issued, its cell being d: a key component that it moves has been used (R122, R123). -/
def keyUsed (s : State) (t cell : Nat) (d : Cell) (g : SegRun) (src : Stencil) (n : Nat) : Tbl Comb :=
  if n = 0 then s.combs else (({ s with now := max s.now t, cells := Tbl.put s.cells cell d } : State).useKey g src).combs

theorem useKey_of_issued (s : State) (t cell id : Nat) (d : Cell) (g : SegRun) (src : Stencil) (n : Nat) :
    (if n = 0 then issued s t cell id d else (issued s t cell id d).useKey g src) = issued { s with combs := keyUsed s t cell d g src n } t cell id d := by
  by_cases hn : n = 0
  · rw [if_pos hn, keyUsed, if_pos hn]
  · rw [if_neg hn, keyUsed, if_neg hn, useKey_issued s t cell id d d g src]
    rfl

section

variable {s : State} {t cell : Nat} {h : HostView} {g : SegRun} {c : Cell} {raw : InsWord} {d : SegDef} {src dst : Stencil}
  (hoff : s.power.off = false) (hmay : MayIssue s cell g c raw) (hop : (ins raw).op = Op.move) (hform : (ins raw).moveForm = 1)
  (hd : s.runDef g = some d) (hsrc : d.stencils[(ins raw).srcStencil]? = some src) (hdst : d.stencils[(ins raw).dstStencil]? = some dst)

include hoff hmay hop hform hd hsrc hdst

theorem exec_moveStencil_next : exec (.moveStencil t cell h) s =
    .next (settled t s ((issued s t cell g.id (stepped c (ins raw))).issueStencil h g cell raw (c.eas (ins raw)) src dst)) := by
  have hdef : (issued s t cell g.id (stepped c (ins raw))).runDef g = some d := hd
  rw [exec_moveStencil, execMoveStencil, run_issue hoff hmay (isMove_of hop hform)]
  dsimp only
  rw [hdef, Option.bind_some, Option.bind_some, hsrc, hdst]
  rfl

theorem moveStencil_outside (hfit : ¬ SlicesFit (ins raw) (c.eas (ins raw)) src dst) :
    ∃ s', exec (.moveStencil t cell h) s = .next s' ∧ RunFails s' g.id (St.stencilBounds, 0) := by
  refine ⟨_, exec_moveStencil_next hoff hmay hop hform hd hsrc hdst, ?_⟩
  rw [issueStencil_outside hfit]
  exact fail_issued hmay ..

variable (hfit : SlicesFit (ins raw) (c.eas (ins raw)) src dst)

include hfit

theorem moveStencil_unordered (hregen : s.regenOk g src ((c.eas (ins raw)).getD 0 0).toNat ((ins raw).opnd 0).len = false) :
    ∃ s', exec (.moveStencil t cell h) s = .next s' ∧ RunFails s' g.id (St.badField, 1) := by
  refine ⟨_, exec_moveStencil_next hoff hmay hop hform hd hsrc hdst, ?_⟩
  rw [issueStencil_unordered (s := issued s t cell g.id (stepped c (ins raw))) hfit hregen]
  exact fail_issued hmay ..

variable (hregen : s.regenOk g src ((c.eas (ins raw)).getD 0 0).toNat ((ins raw).opnd 0).len = true)

include hregen

theorem moveStencil_unread {e : Err} (hhost : s.hostWordsOf h g src ((c.eas (ins raw)).getD 0 0).toNat ((ins raw).opnd 0).len = .error e) :
    ∃ s', exec (.moveStencil t cell h) s = .next s' ∧ RunFails s' g.id e := by
  refine ⟨_, exec_moveStencil_next hoff hmay hop hform hd hsrc hdst, ?_⟩
  rw [issueStencil_unread (s := issued s t cell g.id (stepped c (ins raw))) hfit hregen hhost]
  exact fail_issued hmay ..

theorem moveStencil_launches {hw : Option (List Nat)} (hhost : s.hostWordsOf h g src ((c.eas (ins raw)).getD 0 0).toNat ((ins raw).opnd 0).len = .ok hw) :
    ∃ s', exec (.moveStencil t cell h) s = .next s' ∧
      LaunchedOrUnfenced s s' t cell g c raw c.bound (s.stencilFlight g cell raw (c.eas (ins raw)) src dst hw)
        (keyUsed s t cell (stepped c (ins raw)) g src ((ins raw).opnd 0).len) := by
  refine ⟨_, exec_moveStencil_next hoff hmay hop hform hd hsrc hdst, ?_⟩
  rw [issueStencil_launches (s := issued s t cell g.id (stepped c (ins raw))) hfit hregen hhost, stencilFlight_issued, useKey_of_issued]
  exact launchedOrUnfenced_launchChecked hmay rfl _

end

/-- Settles O36: each form's checks at issue decide; where they pass, the MOVE is launched. -/
theorem movesIssue : Obligations.MovesIssue := by
  intro t cell g c raw h s hoff hmay hop
  refine ⟨fun hform => ⟨moveDirect_outside hoff hmay hop hform, moveDirect_inside hoff hmay hop hform⟩,
    fun hform => ⟨moveBankLoad_active hoff hmay hop hform, moveBankLoad_idle hoff hmay hop hform⟩, fun hform d src dst hd hsrc hdst => ?_⟩
  exact ⟨moveStencil_outside hoff hmay hop hform hd hsrc hdst, moveStencil_unordered hoff hmay hop hform hd hsrc hdst,
    fun _ hfit hregen hhost => moveStencil_unread hoff hmay hop hform hd hsrc hdst hfit hregen hhost,
    fun _ hfit hregen hhost => moveStencil_launches hoff hmay hop hform hd hsrc hdst hfit hregen hhost⟩

end Sys2Proof.Machine
end

section
/-! Settles O37 (R145, R151, R152, R157, R158, R166, R183, R187): remote sources, writes that arrive at their owner, and MOVEs without words. -/

namespace Sys2Proof.Machine

open Sys2Proof.Safety

/-! ### What refused writes and dropped instructions leave -/

theorem mild_logBoth (s : State) (type flags ten : Nat) (also : Option Nat) (source arg0 arg1 : Nat) : Mild s (s.logBoth type flags ten also source arg0 arg1) := by
  obtain ⟨tn, lg, hl⟩ := logBoth_eq s type flags ten also source arg0 arg1
  rw [hl]
  exact ⟨rfl, fun _ => ⟨rfl, rfl, rfl, rfl, rfl, .inl rfl, .inl rfl⟩, fun _ g hg hp => ⟨g, hg, hp, rfl⟩⟩

theorem mild_windowViolation (s : State) (g : SegRun) (writer owner lo hi : Nat) : Mild s (s.windowViolation g writer owner lo hi) :=
  mild_trans (mild_logBoth ..) (mild_failSeg ..)

/-- A refused write fails the run of its writer (R152). -/
theorem windowViolation_fails {s : State} {g g' : SegRun} (writer owner lo hi : Nat) (hg : s.seg? g.id = some g') (hlive : Live g') :
    RunFails (s.windowViolation g writer owner lo hi) g.id (St.windowViolation, writer) := by
  obtain ⟨tn, lg, hl⟩ := logBoth_eq s Rec.window 0 g.ten ((s.cellRun owner).map (·.ten)) writer owner (lo + hi * 2 ^ 32)
  have hid : g'.id = g.id := seg_id hg
  unfold State.windowViolation
  dsimp only
  rw [hl, ← hid]
  exact failSeg_fails (s := { s with tenants := tn, log := lg }) (hid ▸ hg) hlive.1 hlive.2

/-- What posts, failures and progress leave of a cell never brings an instruction back. -/
theorem leaves_mild {s x : State} {cell id : Nat} (h : Mild s x) (hl : Leaves s cell id) : Leaves x cell id := by
  intro f hf
  obtain ⟨-, -, -, -, -, hflights, -⟩ := h.2.1 cell
  rcases hflights with hq | hq
  · exact hl f (hq ▸ hf)
  · rw [hq] at hf
    cases hf

theorem leaves_dropFlight (s : State) (cell id : Nat) : Leaves (s.dropFlight cell id) cell id := by
  intro f hf
  rw [State.dropFlight, State.cell_updCell_self] at hf
  simpa using (List.mem_filter.1 hf).2

/-- A change of a cell that keeps its scratchpad changes no word. -/
theorem word_updCell (s : State) (k : Nat) {f : Cell → Cell} (hf : ∀ c, (f c).mem = c.mem) (j a : Nat) : (s.updCell k f).word j a = s.word j a := by
  unfold State.word
  by_cases hj : j = k
  · rw [hj, State.cell_updCell_self, hf]
  · rw [State.cell_updCell_other _ _ hj]

theorem word_dropFlight (s : State) (cell id j a : Nat) : (s.dropFlight cell id).word j a = s.word j a :=
  word_updCell s cell (f := fun c => { c with flights := c.flights.filter fun o => o.id != id }) (fun _ => rfl) j a

theorem cell_updFlight (s : State) (cell id : Nat) (f : Flight → Flight) : (s.updFlight cell id f).cell cell =
    { s.cell cell with flights := (s.cell cell).flights.map fun x => if x.id = id then f x else x } :=
  State.cell_updCell_self ..

/-- A command that changes one cell changes nothing else. -/
theorem onlyCell_updCell (s : State) (t cell : Nat) (f : Cell → Cell) : OnlyCell s (settled t s ((s.advance t).updCell cell f)) t cell :=
  ⟨rfl, fun _ hj => look_upd_other s.cells Cell.zero f hj⟩

theorem flight_id {s : State} {cell id : Nat} {f : Flight} (h : s.flight? cell id = some f) : f.id = id := by
  simpa using List.find?_some h

/-! ### REMOTE_READ (R145) -/

section

variable {t cell id : Nat} {f : Flight} {g : SegRun} {s : State}

theorem remoteRead_spec (hoff : s.power.off = false) (hu : UnderWay s cell id f g) (hready : f.ready = false) :
    ∃ s', exec (.remoteRead t cell id) s = .next s' ∧ OnlyCell s s' t cell ∧
      s'.cell cell = { s.cell cell with flights := (s.cell cell).flights.map fun x => if x.id = id then { x with ready := true } else x } := by
  obtain ⟨hf, -, hrun⟩ := hu
  have hf' : (s.advance t).flight? cell id = some f := hf
  rw [exec_remoteRead, execRemoteRead, run_next hoff]
  simp only [hf', State.advance_cell_entry, hrun, hready, Bool.not_false, Bool.and_self, onlyIf_true]
  exact ⟨_, rfl, onlyCell_updCell .., cell_updFlight ..⟩

/-! ### REMOTE_WRITE_ARRIVE (R151, R152, R187) -/

/-- The owner of the words of a remote write. -/
def Flight.owner (f : Flight) (cell : Nat) : Nat := (f.writes.head?).elim cell (·.1)

/-- A remote write that a window w admits. -/
def Flight.admittedBy (w : Nat × Window) (f : Flight) : Flight := { f with arrived := true, win := some (w.1, w.2.queue) }

/-- A remote write that window w of its owner admits is marked, and the owner's checked mode judges it. -/
def State.admitWrite (s : State) (cell id : Nat) (f : Flight) (w : Nat × Window) : State :=
  match (s.updFlight cell id (·.admittedBy w)).arrivalFault cell (f.owner cell) f with
  | some p => (s.updFlight cell id (·.admittedBy w)).failSeg p.1.id p.2 (St.unfencedRead, p.2)
  | none => s.updFlight cell id (·.admittedBy w)

/-- A remote write that has reached its owner: refused and dropped, or admitted by a window. -/
def State.arrive (s : State) (cell id : Nat) (f : Flight) (g : SegRun) : State :=
  match s.windowFor g cell (f.owner cell) (extentOf f.writes).1 (extentOf f.writes).2 with
  | none => (s.dropFlight cell id).windowViolation g cell (f.owner cell) (extentOf f.writes).1 (extentOf f.writes).2
  | some w => s.admitWrite cell id f w

theorem arrive_refused (h : s.windowFor g cell (f.owner cell) (extentOf f.writes).1 (extentOf f.writes).2 = none) : s.arrive cell id f g =
    (s.dropFlight cell id).windowViolation g cell (f.owner cell) (extentOf f.writes).1 (extentOf f.writes).2 := by
  rw [State.arrive, h]

theorem arrive_admitted {w : Nat × Window} (h : s.windowFor g cell (f.owner cell) (extentOf f.writes).1 (extentOf f.writes).2 = some w) :
    s.arrive cell id f g = s.admitWrite cell id f w := by
  rw [State.arrive, h]

/-- A write that checked mode refuses is charged to the run of its owner. -/
theorem run_of_arrivalFault {owner : Nat} {p : SegRun × Nat} (h : s.arrivalFault cell owner f = some p) : s.cellRun owner = some p.1 := by
  obtain ⟨og, hog, hp⟩ := Option.bind_eq_some_iff.1 h
  obtain ⟨_, -, rfl⟩ := Option.map_eq_some_iff.1 hp
  exact hog

section

variable (hoff : s.power.off = false) (hu : UnderWay s cell id f g) (hready : f.ready = true) (hremote : f.remote = true) (harr : f.arrived = false)
  (hw : f.writes ≠ [])

include hoff hu hready hremote harr hw

theorem exec_remoteWriteArrive_next : exec (.remoteWriteArrive t cell id) s = .next (settled t s ((s.advance t).arrive cell id f g)) := by
  obtain ⟨hf, hg, hrun⟩ := hu
  have hf' : (s.advance t).flight? cell id = some f := hf
  have hg' : (s.advance t).cellRun cell = some g := hg
  rw [exec_remoteWriteArrive, execRemoteWriteArrive, run_next hoff]
  simp only [hf', hg', State.advance_cell_entry, hrun, hready, hremote, harr, List.isEmpty_eq_false_iff.2 hw, Bool.not_false, Bool.and_self, onlyIf_true]
  rfl

theorem remoteWrite_refused (hnone : s.windowFor g cell (f.owner cell) (extentOf f.writes).1 (extentOf f.writes).2 = none) (hlive : Live g) :
    ∃ s', exec (.remoteWriteArrive t cell id) s = .next s' ∧ RunFails s' g.id (St.windowViolation, cell) ∧ Leaves s' cell id ∧
      s'.dram = s.dram ∧ ∀ k a, s'.word k a = s.word k a := by
  have hm := mild_windowViolation ((s.advance t).dropFlight cell id) g cell (f.owner cell) (extentOf f.writes).1 (extentOf f.writes).2
  refine ⟨_, exec_remoteWriteArrive_next hoff hu hready hremote harr hw, ?_⟩
  rw [arrive_refused (s := s.advance t) hnone]
  exact ⟨windowViolation_fails (s := (s.advance t).dropFlight cell id) cell _ _ _ (cellRun_id hu.2.1).2 hlive, leaves_mild hm (leaves_dropFlight _ cell id),
    hm.1, fun k a => (mild_word hm k a).trans (word_dropFlight ..)⟩

theorem remoteWrite_admitted {w : Nat × Window} (hsome : s.windowFor g cell (f.owner cell) (extentOf f.writes).1 (extentOf f.writes).2 = some w) :
    ∃ s', exec (.remoteWriteArrive t cell id) s = .next s' ∧
      (((s.advance t).updFlight cell id (·.admittedBy w)).arrivalFault cell (f.owner cell) f = none → OnlyCell s s' t cell ∧
        s'.cell cell = { s.cell cell with flights := (s.cell cell).flights.map fun x => if x.id = id then x.admittedBy w else x }) ∧
      (∀ p, ((s.advance t).updFlight cell id (·.admittedBy w)).arrivalFault cell (f.owner cell) f = some p → Live p.1 →
        RunFails s' p.1.id (St.unfencedRead, p.2)) := by
  refine ⟨_, exec_remoteWriteArrive_next hoff hu hready hremote harr hw, ?_⟩
  rw [arrive_admitted (s := s.advance t) hsome, State.admitWrite]
  refine ⟨fun hfault => ?_, fun p hfault hlive => ?_⟩
  · rw [hfault]
    exact ⟨onlyCell_updCell .., cell_updFlight ..⟩
  · rw [hfault]
    exact failSeg_fails (cellRun_id (run_of_arrivalFault hfault)).2 hlive.1 hlive.2

end

/-! ### TOKEN_MOVE_ARRIVE (R157, R158, R183) -/

/-- The post of a MOVE that carries no word, and that of its source. -/
def State.postMove (s : State) (cell : Nat) (i : Ins) (k q : Nat) : State := (if i.pe then s.postToken k q else s).postSrc cell i

/-- What a MOVE without words leaves once it has left its engine: its posts, or the refusal of every window of a peer. -/
def State.arriveToken (z : State) (g : SegRun) (cell : Nat) (i : Ins) : State :=
  if i.moveForm = 0 then z.postMove cell i (holderOf g.cells cell (i.opnd 1)) i.pq
  else match z.moveDst g i with
    | none => z
    | some dst =>
      if dst.space = 1 ∧ dst.peerSeg ≠ 0 then
        match z.windowFor g cell (z.stencilCell g cell dst) dst.base dst.base with
        | none => z.windowViolation g cell (z.stencilCell g cell dst) dst.base dst.base
        | some w => z.postMove cell i (z.stencilCell g cell dst) w.2.queue
      else z.postMove cell i (if dst.inPad then z.stencilCell g cell dst else cell) i.pq

theorem postOpt_post (z : State) (k : Nat) (i : Ins) : z.postOpt k i.post = if i.pe then z.postToken k i.pq else z := by
  unfold Ins.post
  cases i.pe <;> rfl

theorem exec_tokenMoveArrive_next (hoff : s.power.off = false) (hu : UnderWay s cell id f g) (htok : f.tokenOnly = true) :
    exec (.tokenMoveArrive t cell id) s = .next (settled t s (((s.advance t).retireFlight cell f).arriveToken g cell (ins f.raw))) := by
  obtain ⟨hf, hg, hrun⟩ := hu
  have hf' : (s.advance t).flight? cell id = some f := hf
  have hg' : (s.advance t).cellRun cell = some g := hg
  rw [exec_tokenMoveArrive, execTokenMoveArrive, run_next hoff]
  simp only [hf', hg', State.advance_cell_entry, hrun, htok, Bool.and_self, onlyIf_true, postOpt_post]
  rfl

/-- The posts of a MOVE without words go where TokenGoesTo says. -/
theorem arriveToken_goes {z : State} {i : Ins} {k q : Nat} (h : TokenGoesTo z g cell i k q) : z.arriveToken g cell i = z.postMove cell i k q := by
  unfold State.arriveToken
  rcases h with ⟨hform, rfl, rfl⟩ | ⟨hform, dst, hdst, ⟨hown, rfl, rfl⟩ | ⟨hspace, hpeer, rfl, w, hw, rfl⟩⟩
  · rw [if_pos hform]
  · rw [if_neg hform, hdst]
    exact if_neg hown
  · rw [if_neg hform, hdst]
    dsimp only
    rw [if_pos ⟨hspace, hpeer⟩, hw]

theorem arriveToken_refused {z : State} {i : Ins} {dst : Stencil} (hform : i.moveForm ≠ 0) (hdst : z.moveDst g i = some dst) (hspace : dst.space = 1)
    (hpeer : dst.peerSeg ≠ 0) (hnone : z.windowFor g cell (z.stencilCell g cell dst) dst.base dst.base = none) :
    z.arriveToken g cell i = z.windowViolation g cell (z.stencilCell g cell dst) dst.base dst.base := by
  unfold State.arriveToken
  rw [if_neg hform, hdst]
  dsimp only
  rw [if_pos ⟨hspace, hpeer⟩, hnone]

theorem mild_postMove (z : State) (cell : Nat) (i : Ins) (k q : Nat) : Mild z (z.postMove cell i k q) := by
  refine mild_trans ?_ (mild_postSrc ..)
  split
  · exact mild_postTokens ..
  · exact mild_refl z

/-- A run of a cell that goes on goes on where only progress has been made. -/
theorem live_kept {z y : State} {k : Nat} (h : RunsKept z y) (hg : z.cellRun k = some g) (hlive : Live g) : ∃ g', y.cellRun k = some g' ∧ g'.id = g.id ∧ Live g' := by
  obtain ⟨g', hg', hid, -, hfail, hphase⟩ := h k g hg
  exact ⟨g', hg', hid, hphase.trans hlive.1, hfail.trans hlive.2⟩

/-- One token posted where the run goes on and the queue has room, or none. -/
theorem postIf_spec {z : State} {b : Bool} {k q : Nat} {g : SegRun} (hg : z.cellRun k = some g) (hlive : Live g) (hroom : (z.cell k).tokenCount q + 1 ≤ 63) :
    (∀ j p, ((if b then z.postToken k q else z).cell j).tokenCount p = (z.cell j).tokenCount p + if b = true ∧ j = k ∧ p = q then 1 else 0) ∧
      RunsKept z (if b then z.postToken k q else z) := by
  cases b with
  | false => exact ⟨fun j p => by simp, fun j g h => ⟨g, h, rfl, rfl, rfl, rfl⟩⟩
  | true =>
    obtain ⟨htok, hkept⟩ := post_spec (n := 1) hg hlive.2 (by rw [hlive.1]; decide) hroom
    exact ⟨fun j p => (htok j p).trans (by simp), hkept⟩

theorem postMove_tokens {z : State} {i : Ins} {k q : Nat} {g0 : SegRun} (hg : z.cellRun cell = some g) (hlive : Live g) (hg0 : z.cellRun k = some g0)
    (hlive0 : Live g0) (hk : (z.cell k).tokenCount q + 2 ≤ 63) (hsrc : (z.cell cell).tokenCount i.srcQ + 2 ≤ 63) (j p : Nat) :
    ((z.postMove cell i k q).cell j).tokenCount p = (z.cell j).tokenCount p + (if i.pe = true ∧ j = k ∧ p = q then 1 else 0) +
      (if i.srcPe = true ∧ j = cell ∧ p = i.srcQ then 1 else 0) := by
  obtain ⟨htok, hkept⟩ := postIf_spec (b := i.pe) (q := q) hg0 hlive0 (by omega)
  obtain ⟨g', hg', -, hlive'⟩ := live_kept hkept hg hlive
  have hroom : ((if i.pe then z.postToken k q else z).cell cell).tokenCount i.srcQ + 1 ≤ 63 := by
    rw [htok]
    split <;> omega
  exact ((postIf_spec (b := i.srcPe) hg' hlive' hroom).1 j p).trans (by rw [htok])

section

variable (hoff : s.power.off = false) (hu : UnderWay s cell id f g) (htok : f.tokenOnly = true) (hw : f.writes = [])

include hoff hu htok hw

theorem tokenMove_posts {k q : Nat} {g0 : SegRun} (hgoes : TokenGoesTo ((s.advance t).retireFlight cell f) g cell (ins f.raw) k q) (hlive : Live g)
    (hg0 : s.cellRun k = some g0) (hlive0 : Live g0) (hk : (s.cell k).tokenCount q + 2 ≤ 63) (hsrc : (s.cell cell).tokenCount (ins f.raw).srcQ + 2 ≤ 63) :
    ∃ s', exec (.tokenMoveArrive t cell id) s = .next s' ∧ Leaves s' cell id ∧ s'.dram = s.dram ∧ (∀ j a, s'.word j a = s.word j a) ∧
      ∀ j p, (s'.cell j).tokenCount p = (s.cell j).tokenCount p + (if (ins f.raw).pe = true ∧ j = k ∧ p = q then 1 else 0) +
        (if (ins f.raw).srcPe = true ∧ j = cell ∧ p = (ins f.raw).srcQ then 1 else 0) := by
  obtain ⟨htokens, hkept⟩ := retire_tokens (s.advance t) cell hw
  obtain ⟨hdram, hcells, hleaves, -⟩ := retireFlight_spec (s.advance t) cell f
  obtain ⟨g1, hg1, -, hlive1⟩ := live_kept hkept (show (s.advance t).cellRun cell = some g from hu.2.1) hlive
  obtain ⟨g2, hg2, -, hlive2⟩ := live_kept hkept (show (s.advance t).cellRun k = some g0 from hg0) hlive0
  have hm := mild_postMove ((s.advance t).retireFlight cell f) cell (ins f.raw) k q
  refine ⟨_, exec_tokenMoveArrive_next hoff hu htok, ?_⟩
  rw [arriveToken_goes hgoes]
  refine ⟨flight_id hu.1 ▸ leaves_mild hm hleaves, hm.1.trans hdram, fun j a => (mild_word hm j a).trans (congrArg (Tbl.lookD · a 0) (hcells j).1), fun j p => ?_⟩
  refine (postMove_tokens hg1 hlive1 hg2 hlive2 ?_ ?_ j p).trans ?_
  · rw [htokens]
    exact hk
  · rw [htokens]
    exact hsrc
  · rw [htokens]
    rfl

theorem tokenMove_refused {dst : Stencil} (hform : (ins f.raw).moveForm ≠ 0) (hdst : ((s.advance t).retireFlight cell f).moveDst g (ins f.raw) = some dst)
    (hspace : dst.space = 1) (hpeer : dst.peerSeg ≠ 0)
    (hnone : ((s.advance t).retireFlight cell f).windowFor g cell (((s.advance t).retireFlight cell f).stencilCell g cell dst) dst.base dst.base = none)
    (hlive : Live g) : ∃ s', exec (.tokenMoveArrive t cell id) s = .next s' ∧ RunFails s' g.id (St.windowViolation, cell) := by
  obtain ⟨g', hg', hid, hlive'⟩ := live_kept (retire_tokens (s.advance t) cell hw).2 (show (s.advance t).cellRun cell = some g from hu.2.1) hlive
  refine ⟨_, exec_tokenMoveArrive_next hoff hu htok, ?_⟩
  rw [arriveToken_refused hform hdst hspace hpeer hnone]
  exact windowViolation_fails cell _ _ _ (hid ▸ (cellRun_id hg').2) hlive'

end

end

/-- Settles O37: a remote write is judged by the windows of its owner, a MOVE without words by where its token goes. -/
theorem remoteTraffic : Obligations.RemoteTraffic := by
  intro t cell id f g s hoff hu
  refine ⟨remoteRead_spec hoff hu, fun hready hremote harr hw => ⟨remoteWrite_refused hoff hu hready hremote harr hw, fun w hsome => ?_⟩, fun htok hw => ⟨?_, ?_⟩⟩
  · exact remoteWrite_admitted hoff hu hready hremote harr hw hsome
  · exact fun k q g0 hgoes hlive hg0 hlive0 hk hsrc => tokenMove_posts hoff hu htok hw hgoes hlive hg0 hlive0 hk hsrc
  · exact fun dst hform hdst hspace hpeer hnone hlive => tokenMove_refused hoff hu htok hw hform hdst hspace hpeer hnone hlive

end Sys2Proof.Machine
end

section
/-! Settles O38 (R156, R166, R182 to R184, R186, R214, R215, R218): what a MOVE with words that nothing races with leaves when it completes. -/

namespace Sys2Proof.Machine

open Sys2Proof.Safety

/-! ### A MOVE that leaves its engine (R156, R166, R183) -/

theorem lands_of_word {s y x : State} {l : List ((Nat × Nat) × Nat)} (hl : Lands s y l) (hx : ∀ k a, x.word k a = y.word k a) : Lands s x l :=
  fun k a => (hx k a).trans (hl k a)

/-- A completed MOVE posts and leaves its engine. -/
def State.moveDone (z : State) (cell : Nat) (f : Flight) : State := (z.movePost cell f).retireFlight cell f

section

variable {z : State} {cell : Nat} {f : Flight} {g : SegRun}

theorem word_retireFlight (z : State) (cell : Nat) (f : Flight) (k a : Nat) : (z.retireFlight cell f).word k a = z.word k a := by
  obtain ⟨-, hcells, -⟩ := retireFlight_spec z cell f
  unfold State.word
  rw [(hcells k).1]

theorem word_moveDone (z : State) (cell : Nat) (f : Flight) (k a : Nat) : (z.moveDone cell f).word k a = z.word k a :=
  (word_retireFlight ..).trans (mild_word (mild_movePost z cell f) k a)

theorem dram_moveDone (z : State) (cell : Nat) (f : Flight) : (z.moveDone cell f).dram = z.dram :=
  (retireFlight_spec ..).1.trans (mild_movePost z cell f).1

theorem banks_moveDone (z : State) (cell : Nat) (f : Flight) (k : Nat) :
    ((z.moveDone cell f).cell k).bank0 = (z.cell k).bank0 ∧ ((z.moveDone cell f).cell k).bank1 = (z.cell k).bank1 := by
  obtain ⟨-, hcells, -⟩ := retireFlight_spec (z.movePost cell f) cell f
  obtain ⟨-, -, -, h0, h1⟩ := hcells k
  obtain ⟨-, -, -, hm0, hm1, -⟩ := (mild_movePost z cell f).2.1 k
  exact ⟨h0.trans hm0, h1.trans hm1⟩

theorem leaves_retireFlight (z : State) (cell : Nat) (f : Flight) : Leaves (z.retireFlight cell f) cell f.id :=
  (retireFlight_spec z cell f).2.2.1

theorem runsKept_touchCell (z : State) (cell : Nat) : RunsKept z (z.touchCell cell) := by
  unfold State.touchCell
  cases z.cellRun cell with
  | none => exact fun j g h => ⟨g, h, rfl, rfl, rfl, rfl⟩
  | some g => exact runsKept_touch z g.id

/-- An instruction that no window admitted leaves its engine without a close that it could complete: runs stay. -/
theorem runsKept_retireFlight (hw : f.win = none) : RunsKept z (z.retireFlight cell f) := by
  have hdrop : RunsKept z (z.updCell cell fun c => { c with flights := c.flights.filter fun o => o.id != f.id }) := runsKept_updCell z cell _ fun _ => rfl
  unfold State.retireFlight
  dsimp only
  rw [hw]
  exact runsKept_trans hdrop (runsKept_touchCell _ cell)

/-- A MOVE that fails at its completion fails its run; where it was admitted by a window, a close that its leaving completes may have failed the run first. -/
theorem retire_fails (e : Err) (hg : z.cellRun cell = some g) (hlive : Live g) :
    ∃ e', RunFails ((z.retireFlight cell f).failSeg g.id cell e) g.id e' ∧ (f.win = none → e' = e) := by
  obtain ⟨-, -, -, hruns⟩ := retireFlight_spec z cell f
  obtain ⟨g', hg', hrun, -⟩ := hruns g.id g (cellRun_id hg).2 hlive.1
  have hid : g'.id = g.id := seg_id hg'
  cases hfail : g'.fail with
  | none => exact ⟨e, hid ▸ failSeg_fails (hid ▸ hg') hrun hfail, fun _ => rfl⟩
  | some e0 =>
    refine ⟨e0, ⟨g', ?_, hfail⟩, fun hw => ?_⟩
    · unfold State.failSeg
      rw [hg']
      simp only [hfail, Option.isSome_some, if_true]
      exact hg'
    · obtain ⟨g1, hg1, hid1, hlive1⟩ := live_kept (runsKept_retireFlight (f := f) hw) hg hlive
      have hsame : g1 = g' := Option.some.inj ((hid1 ▸ (cellRun_id hg1).2).symm.trans hg')
      rw [hsame] at hlive1
      exact nomatch hfail.symm.trans hlive1.2

theorem mild_retired_failSeg (z : State) (cell : Nat) (f : Flight) (id : Nat) (e : Err) :
    let x := (z.retireFlight cell f).failSeg id cell e
    Leaves x cell f.id ∧ x.dram = z.dram ∧ ∀ k a, x.word k a = z.word k a := by
  have hm := mild_failSeg (z.retireFlight cell f) id cell e
  exact ⟨leaves_mild hm (leaves_retireFlight z cell f), hm.1.trans (retireFlight_spec ..).1, fun k a => (mild_word hm k a).trans (word_retireFlight ..)⟩

/-! ### Its program part (R184) -/

theorem mem_loadBank (c : Cell) (bank : Nat) (part : List InsWord) : (c.loadBank bank part).mem = c.mem := by
  unfold Cell.loadBank
  split <;> rfl

theorem banks_loadBank (c : Cell) (bank : Nat) (part : List InsWord) :
    if bank = 0 then (c.loadBank bank part).bank0 = part ∧ (c.loadBank bank part).bank1 = c.bank1
    else (c.loadBank bank part).bank1 = part ∧ (c.loadBank bank part).bank0 = c.bank0 := by
  unfold Cell.loadBank
  split <;> exact ⟨rfl, rfl⟩

/-- A part lands in a bank and the load then leaves. -/
theorem loadBank_moveDone (z : State) (cell : Nat) (f : Flight) (bank : Nat) (part : List InsWord) :
    let x := (z.updCell cell fun c => c.loadBank bank part).moveDone cell f
    (∀ k a, x.word k a = z.word k a) ∧ Leaves x cell f.id ∧ x.dram = z.dram ∧
      if bank = 0 then (x.cell cell).bank0 = part ∧ (x.cell cell).bank1 = (z.cell cell).bank1
      else (x.cell cell).bank1 = part ∧ (x.cell cell).bank0 = (z.cell cell).bank0 := by
  obtain ⟨h0, h1⟩ := banks_moveDone (z.updCell cell fun c => c.loadBank bank part) cell f cell
  refine ⟨fun k a => (word_moveDone ..).trans (word_updCell z cell (fun c => mem_loadBank c bank part) k a), leaves_retireFlight _ cell f, dram_moveDone .., ?_⟩
  rw [h0, h1, State.cell_updCell_self]
  exact banks_loadBank ..

/-! ### Its words -/

/-- Words that land in order and a MOVE that then leaves. -/
theorem lands_moveDone (hc : f.contest = []) (vals : List Nat) :
    let x := (z.landFlight cell f f.writes vals).moveDone cell f
    Lands z x (f.writes.zip vals) ∧ Leaves x cell f.id ∧ x.dram = z.dram := by
  obtain ⟨hlands, hdram, -⟩ := landFlight_spec hc z cell f.writes vals
  exact ⟨lands_of_word hlands (word_moveDone _ cell f), leaves_retireFlight _ cell f, (dram_moveDone ..).trans hdram⟩

/-- Nothing races with a stencil MOVE: it moves the words of its source as they stand. -/
theorem moveWords_quiet {src : Stencil} {n : Nat} (ha : f.alts = []) (hr : f.selfRaced = [])
    (hq : ∀ w, src.inPad = true → some w ∈ z.padRun g cell src (f.eas.getD 0 0).toNat n → z.writePending cell f w = false) :
    z.moveWords cell g f src n = (movedWords z cell g f src n, z) := by
  unfold State.moveWords movedWords
  dsimp only
  by_cases hpad : src.inPad = true
  · rw [if_pos hpad, if_pos hpad, hr, readRun_quiet ha _ fun w hw => hq w hpad hw]
  · rw [if_neg hpad, if_neg hpad]
    cases f.hostWords <;> rfl

end

/-! ### INSTRUCTION_COMPLETE of a MOVE -/

section

variable {t cell id : Nat} {h : HostView} {f : Flight} {g : SegRun} {s : State}

theorem exec_moveComplete_next (hoff : s.power.off = false) (hu : UnderWay s cell id f g) (heng : f.engine = 1) (hready : f.ready = true)
    (htok : f.tokenOnly = false) :
    exec (.instructionComplete t cell id h) s = .next (settled t s ((s.advance t).completeMove h cell g f)) := by
  obtain ⟨hf, hg, hrun⟩ := hu
  have hf' : (s.advance t).flight? cell id = some f := hf
  have hg' : (s.advance t).cellRun cell = some g := hg
  rw [exec_instructionComplete, execInstructionComplete, run_next hoff]
  simp only [hf', hg', State.advance_cell_entry, hrun, hready, htok, heng, Bool.not_false, Bool.and_self, onlyIf_true, if_true]

theorem remote_guard (harr : f.remote = true → f.arrived = true) : (f.remote && !f.arrived) = false := by
  cases hr : f.remote with
  | false => rfl
  | true => rw [harr hr]; rfl

section

variable {z : State}

theorem completeMove_direct (harr : f.remote = true → f.arrived = true) (hform : (ins f.raw).moveForm = 0) (hq : Quiet z cell f) (hr : f.selfRaced = []) :
    z.completeMove h cell g f = (z.landFlight cell f f.writes (wordsAt z f.reads)).moveDone cell f := by
  have hread : z.readRun cell f [] (f.reads.map some) = (wordsAt z f.reads, z) := readWords_quiet hq f.reads fun _ hw => hw
  unfold State.completeMove
  dsimp only
  rw [remote_guard harr, if_neg (by decide), if_pos hform, hr, hread]
  rfl

theorem completeMove_bank (harr : f.remote = true → f.arrived = true) (hform : (ins f.raw).moveForm = 2) : z.completeMove h cell g f =
    (z.updCell cell fun c => c.loadBank (bits ((ins f.raw).opRaw 2) 8 1) ((z.programOf g cell).getD (bits ((ins f.raw).opRaw 2) 0 8) [])).moveDone cell f := by
  unfold State.completeMove
  dsimp only
  rw [remote_guard harr, if_neg (by decide), if_neg (by rw [hform]; decide), if_pos hform]
  rfl

theorem completeMove_stencil {d : SegDef} {src dst : Stencil} (harr : f.remote = true → f.arrived = true) (h0 : (ins f.raw).moveForm ≠ 0)
    (h2 : (ins f.raw).moveForm ≠ 2) (hd : z.runDef g = some d) (hsrc : d.stencils[(ins f.raw).srcStencil]? = some src)
    (hdst : z.moveDst g (ins f.raw) = some dst) : z.completeMove h cell g f = z.endStencilMove h cell g f src dst := by
  unfold State.completeMove
  dsimp only
  rw [remote_guard harr, if_neg (by decide), if_neg h0, if_neg h2, hd, Option.bind_some, hsrc, hdst]

/-! ### The end of a stencil MOVE (R214, R215, R218) -/

theorem writeDva_frame (ten : Nat) (l : List (Int × Nat)) (z : State) : ∃ d, (z.writeDva ten l).1 = { z with dram := d } := by
  induction l generalizing z with
  | nil => exact ⟨z.dram, rfl⟩
  | cons p r ih =>
    obtain ⟨a, v⟩ := p
    unfold State.writeDva
    split
    · exact ⟨z.dram, rfl⟩
    · split
      · exact ⟨z.dram, rfl⟩
      · exact ih _

variable {src dst : Stencil} {e : Err} {ws : List Nat}

theorem endStencilMove_unread (hm : z.moveWords cell g f src ((ins f.raw).opnd 0).len = (.error e, z)) :
    z.endStencilMove h cell g f src dst = (z.retireFlight cell f).failSeg g.id cell e := by
  unfold State.endStencilMove
  dsimp only
  rw [hm]

theorem endStencilMove_pad (hm : z.moveWords cell g f src ((ins f.raw).opnd 0).len = (.ok ws, z)) (hpad : dst.inPad = true) :
    z.endStencilMove h cell g f src dst = (z.landFlight cell f f.writes ws).moveDone cell f := by
  unfold State.endStencilMove
  dsimp only
  rw [hm]
  exact if_pos hpad

/-- The writes of a stencil MOVE to DRAM, noted for its EVAL (R340), and whether every address was mapped. -/
def State.moveToDram (z : State) (g : SegRun) (as : List Int) (ws : List Nat) : State × Bool :=
  ((z.writeDva g.ten (as.zip ws)).1.noteWrote g.ten g.lring g.seq (z.reached g.ten as) [], (z.writeDva g.ten (as.zip ws)).2)

theorem endStencilMove_dram (hm : z.moveWords cell g f src ((ins f.raw).opnd 0).len = (.ok ws, z)) (hpad : dst.inPad = false) (hspace : dst.space ≠ 4) :
    z.endStencilMove h cell g f src dst =
      let w := z.moveToDram g (z.byteRun g dst (f.eas.getD 1 0).toNat ((ins f.raw).opnd 0).len) ws
      if w.2 then w.1.moveDone cell f else (w.1.retireFlight cell f).failSeg g.id cell (St.translationFault, 0) := by
  unfold State.endStencilMove
  dsimp only
  rw [hm]
  dsimp only
  rw [if_neg (by rw [hpad]; decide), if_neg hspace, if_neg hspace]
  rfl

/-- Writes to DRAM leave cells and runs. -/
theorem moveToDram_frame (z : State) (g : SegRun) (as : List Int) (ws : List Nat) :
    ∃ d r, (z.moveToDram g as ws).1 = { z with dram := d, rings := r } := by
  obtain ⟨d, hd⟩ := writeDva_frame g.ten (as.zip ws) z
  unfold State.moveToDram
  rw [hd]
  exact ⟨d, _, rfl⟩

theorem moveToDram_ends (as : List Int) (ws : List Nat) (hg : z.cellRun cell = some g) (hlive : Live g) :
    let w := z.moveToDram g as ws
    let x := if w.2 then w.1.moveDone cell f else (w.1.retireFlight cell f).failSeg g.id cell (St.translationFault, 0)
    (∀ k a, x.word k a = z.word k a) ∧ Leaves x cell f.id ∧ x.dram = w.1.dram ∧ (w.2 = false → f.win = none → RunFails x g.id (St.translationFault, 0)) := by
  intro w
  obtain ⟨d, r, hw⟩ := moveToDram_frame z g as ws
  have hword : ∀ k a, w.1.word k a = z.word k a := fun k a => congrArg (·.word k a) hw
  have hrun : w.1.cellRun cell = some g := (congrArg (·.cellRun cell) hw).trans hg
  cases hok : w.2 with
  | true => exact ⟨fun k a => (word_moveDone ..).trans (hword k a), leaves_retireFlight _ cell f, dram_moveDone .., nofun⟩
  | false =>
    obtain ⟨hleaves, hdram, hwords⟩ := mild_retired_failSeg w.1 cell f g.id (St.translationFault, 0)
    obtain ⟨e', hfails, he⟩ := retire_fails (f := f) (St.translationFault, 0) hrun hlive
    exact ⟨fun k a => (hwords k a).trans (hword k a), hleaves, hdram, fun _ hwin => he hwin ▸ hfails⟩

end

end

/-- Settles O38: by its form, a MOVE lands its words, loads a bank, or ends as a stencil MOVE, and then leaves. -/
theorem movesComplete : Obligations.MovesComplete := by
  intro t cell id f g h s hoff hu hlive heng hready htok harr halts hcontest hself i exec1
  have hrun : exec1 = .next (settled t s ((s.advance t).completeMove h cell g f)) := exec_moveComplete_next hoff hu heng hready htok
  obtain rfl := flight_id hu.1
  refine ⟨fun hform hq => ⟨_, hrun, ?direct⟩, fun hform => ⟨_, hrun, ?bank⟩, fun h0 h2 d src dst hd hsrc hdst hq => ?stencil⟩
  case direct =>
    rw [completeMove_direct (z := s.advance t) harr hform hq hself]
    exact lands_moveDone (z := s.advance t) hcontest _
  case bank =>
    rw [completeMove_bank harr hform]
    exact loadBank_moveDone (s.advance t) cell f _ _
  case stencil =>
    have hmove := moveWords_quiet (z := s.advance t) (g := g) halts hself hq
    rw [completeMove_stencil (z := s.advance t) harr h0 h2 hd hsrc hdst] at hrun
    refine ⟨fun e he => ?unread, fun ws hws => ⟨fun hpad => ⟨_, hrun, ?pad⟩, fun hpad hspace => ⟨_, hrun, ?dram⟩⟩⟩
    case unread =>
      obtain ⟨e', hfails, he'⟩ := retire_fails (z := s.advance t) (f := f) e hu.2.1 hlive
      rw [endStencilMove_unread (hmove.trans (by rw [show movedWords (s.advance t) cell g f src _ = .error e from he]))] at hrun
      exact ⟨_, e', hrun, hfails, he', mild_retired_failSeg (s.advance t) cell f g.id e⟩
    case pad =>
      rw [endStencilMove_pad (hmove.trans (by rw [show movedWords (s.advance t) cell g f src _ = .ok ws from hws])) hpad]
      exact lands_moveDone (z := s.advance t) hcontest ws
    case dram =>
      rw [endStencilMove_dram (hmove.trans (by rw [show movedWords (s.advance t) cell g f src _ = .ok ws from hws])) hpad hspace]
      exact moveToDram_ends (z := s.advance t) _ ws hu.2.1 hlive

end Sys2Proof.Machine
end

section
/-! Settles O43 (R151, R152, R156, R226, R227, R231, R232, R235): tiles that a forager or a chain cell delivers, and the granules of a multicast group. -/

namespace Sys2Proof.Machine

open Sys2Proof.Safety

/-! ### A stream's progress -/

theorem Tbl.look_adjust {α : Type} (t : Tbl α) (k : Nat) (f : α → α) (j : Nat) :
    Tbl.look (Tbl.adjust t k f) j = if j = k then (Tbl.look t j).map f else Tbl.look t j := by
  unfold Tbl.adjust
  cases h : Tbl.look t k with
  | none =>
    by_cases hj : j = k
    · rw [if_pos hj, hj, h]
      rfl
    · rw [if_neg hj]
  | some v =>
    by_cases hj : j = k
    · rw [if_pos hj, hj, h]
      exact Tbl.look_put_self ..
    · rw [if_neg hj]
      exact Tbl.look_put_other _ _ hj

/-- A run with the progress of one of its streams changed. -/
def SegRun.onStream (g : SegRun) (k : Nat) (f : StreamRun → StreamRun) : SegRun := { g with streams := Tbl.adjust g.streams k f }

theorem updStream_eq (s : State) (seg k : Nat) (f : StreamRun → StreamRun) : s.updStream seg k f = s.updSeg seg (·.onStream k f) := rfl

theorem streamAt_updStream (s : State) (seg k : Nat) (f : StreamRun → StreamRun) (id j : Nat) :
    streamAt (s.updStream seg k f) id j = if id = seg ∧ j = k then (streamAt s id j).map f else streamAt s id j := by
  unfold streamAt
  rw [updStream_eq, seg_updSeg s seg (f := (·.onStream k f)) fun _ => rfl]
  cases h : s.seg? id with
  | none => simp
  | some g =>
    rw [Option.map_some, Option.bind_some, Option.bind_some, seg_id h]
    by_cases hid : id = seg
    · rw [if_pos hid, SegRun.onStream, Tbl.look_adjust]
      simp only [hid, true_and]
    · rw [if_neg hid, if_neg fun hq => hid hq.1]

theorem streamAt_updStream_self {s : State} {seg k : Nat} {f : StreamRun → StreamRun} {r : StreamRun} (h : streamAt s seg k = some r) :
    streamAt (s.updStream seg k f) seg k = some (f r) := by
  rw [streamAt_updStream, if_pos ⟨rfl, rfl⟩, h]
  rfl

/-- A change of runs that keeps their streams changes no stream's progress. -/
theorem streamAt_updSeg (s : State) (seg : Nat) {f : SegRun → SegRun} (hid : ∀ g, (f g).id = g.id) (hf : ∀ g, (f g).streams = g.streams) (id j : Nat) :
    streamAt (s.updSeg seg f) id j = streamAt s id j := by
  unfold streamAt
  rw [seg_updSeg s seg hid]
  cases s.seg? id with
  | none => rfl
  | some g =>
    rw [Option.map_some, Option.bind_some, Option.bind_some]
    split
    · rw [hf]
    · rfl

theorem streamAt_touch (s : State) (seg id j : Nat) : streamAt (s.touch seg) id j = streamAt s id j :=
  streamAt_updSeg s seg (f := fun g => { g with progress := s.now }) (fun _ => rfl) (fun _ => rfl) id j

theorem streamAt_of {s : State} {seg k : Nat} {g : SegRun} {r : StreamRun} (hg : s.seg? seg = some g) (hr : Tbl.look g.streams k = some r) :
    streamAt s seg k = some r := by
  unfold streamAt
  rw [hg]
  exact hr

theorem useKey_frame (s : State) (g : SegRun) (st : Stencil) : ∃ cs, s.useKey g st = { s with combs := cs } := by
  have hcache : ∀ e (c : Nat × KeyComp), ∃ cs, s.cacheComp g.comb g.ten e c.1 c.2.bytes = { s with combs := cs } := by
    intro e c
    unfold State.cacheComp
    dsimp only
    split
    · exact ⟨_, rfl⟩
    · split
      · exact ⟨_, rfl⟩
      · exact ⟨s.combs, rfl⟩
  unfold State.useKey
  split
  · split
    next e c _ _ =>
      obtain ⟨cs, h⟩ := hcache e.keyset c
      rw [h]
      exact ⟨_, rfl⟩
    next => exact ⟨s.combs, rfl⟩
  · exact ⟨s.combs, rfl⟩

/-! ### Free tokens (R227) -/

theorem tokenCount_takeTokens (c : Cell) (q n p : Nat) : (c.takeTokens q n).tokenCount p = c.tokenCount p - if p = q then n else 0 := by
  show Tbl.lookD (Tbl.putZ c.tokens q _) p 0 = _
  rw [lookD_putZ]
  by_cases h : p = q
  · rw [if_pos h, if_pos h, h]
  · rw [if_neg h, if_neg h]
    rfl

theorem tokens_updCell_take (s : State) (cell q n j p : Nat) : ((s.updCell cell fun c => c.takeTokens q n).cell j).tokenCount p =
    (s.cell j).tokenCount p - if j = cell ∧ p = q then n else 0 := by
  by_cases hj : j = cell
  · rw [hj, State.cell_updCell_self, tokenCount_takeTokens]
    simp only [true_and]
  · rw [State.cell_updCell_other _ _ hj, if_neg fun hq => hj hq.1]
    rfl

/-- A receiver gives final free tokens (R227). -/
theorem takeFinals_spec {s : State} {g : SegRun} {k : Nat} {d : StreamDef} {st : Stencil} {key cell : Nat} {r : StreamRun} (hr : streamAt s g.id k = some r) :
    let n := min ((s.cell cell).tokenCount d.freeQ) (d.ringTiles - Tbl.lookD r.finals key 0)
    let last : StreamRun := { r with finals := Tbl.put r.finals key (Tbl.lookD r.finals key 0 + n) }
    FinalsTaken s (s.takeFinals g k d st key cell r) g.id k cell d.freeQ n { last with ended := d.ends st last } := by
  intro n last
  have hy : FinalsTaken s ((s.updCell cell fun c => c.takeTokens d.freeQ n).updStream g.id k fun _ => { last with ended := d.ends st last })
      g.id k cell d.freeQ n { last with ended := d.ends st last } :=
    ⟨streamAt_updStream_self (s := s.updCell cell fun c => c.takeTokens d.freeQ n) hr, tokens_updCell_take s cell d.freeQ n,
      word_updCell s cell (f := fun c => c.takeTokens d.freeQ n) fun _ => rfl, rfl⟩
  have htouch : FinalsTaken s (((s.updCell cell fun c => c.takeTokens d.freeQ n).updStream g.id k fun _ => { last with ended := d.ends st last }).touch g.id)
      g.id k cell d.freeQ n { last with ended := d.ends st last } :=
    ⟨(streamAt_touch ..).trans hy.1, hy.2⟩
  unfold State.takeFinals
  dsimp only
  split
  · exact hy
  · exact htouch

/-! ### A tile on its way to a cell (R226, R235) -/

/-- Between s and y, a cell has given a free token for a tile, the progress of a stream of a run is now r, and of other things only runs' key bytes, streams and shelves have changed. -/
def TileTaken (s y : State) (cell q seg k : Nat) (r : StreamRun) : Prop :=
  (∃ cs gs, y = { s with cells := (s.takeFreeToken cell q).cells, combs := cs, segs := gs }) ∧
    (∀ id g, s.seg? id = some g → ∃ l n, y.seg? id = some { g with streams := l, keyBytes := n }) ∧ streamAt y seg k = some r

section

variable {s y : State} {cell q seg k : Nat} {r : StreamRun}

theorem tileTaken_updStream {cs : Tbl Comb} {f : StreamRun → StreamRun} (hr : streamAt s seg k = some r) :
    TileTaken s ((({ s with combs := cs } : State).takeFreeToken cell q).updStream seg k f) cell q seg k (f r) := by
  refine ⟨⟨cs, _, rfl⟩, fun id g hg => ?_, streamAt_updStream_self (s := ({ s with combs := cs } : State).takeFreeToken cell q) hr⟩
  have hg' : (({ s with combs := cs } : State).takeFreeToken cell q).seg? id = some g := hg
  rw [updStream_eq, seg_updSeg _ seg (f := (·.onStream k f)) fun _ => rfl, hg', Option.map_some]
  split
  · exact ⟨Tbl.adjust g.streams k f, g.keyBytes, rfl⟩
  · exact ⟨g.streams, g.keyBytes, rfl⟩

theorem tileTaken_keyBytes (h : TileTaken s y cell q seg k r) (id : Nat) (bytes : SegRun → Nat) :
    TileTaken s (y.updSeg id fun g => { g with keyBytes := g.keyBytes + bytes g }) cell q seg k r := by
  obtain ⟨⟨cs, gs, hy⟩, hruns, hr⟩ := h
  refine ⟨⟨cs, (y.updSeg id fun g => { g with keyBytes := g.keyBytes + bytes g }).segs, ?_⟩, fun j g hg => ?_, ?_⟩
  · rw [State.updSeg, hy]
  · obtain ⟨l, n, hj⟩ := hruns j g hg
    rw [seg_updSeg y id (f := fun g => { g with keyBytes := g.keyBytes + bytes g }) fun _ => rfl, hj, Option.map_some]
    split
    · exact ⟨l, n + bytes { g with streams := l, keyBytes := n }, rfl⟩
    · exact ⟨l, n, rfl⟩
  · exact (streamAt_updSeg y id (f := fun g => { g with keyBytes := g.keyBytes + bytes g }) (fun _ => rfl) (fun _ => rfl) seg k).trans hr

theorem cell_of_tileTaken (h : TileTaken s y cell q seg k r) (j : Nat) : y.cell j = (s.takeFreeToken cell q).cell j := by
  obtain ⟨⟨cs, gs, rfl⟩, -⟩ := h
  rfl

theorem cellRun_of_tileTaken (h : TileTaken s y cell q seg k r) {j : Nat} {g : SegRun} (hg : s.cellRun j = some g) :
    ∃ l n, y.cellRun j = some { g with streams := l, keyBytes := n } := by
  obtain ⟨hseg, hid⟩ := cellRun_id hg
  obtain ⟨l, n, hrun⟩ := h.2.1 g.id g hid
  have hkept : (y.cell j).seg = (s.cell j).seg := by
    rw [cell_of_tileTaken h]
    by_cases hj : j = cell
    · rw [hj, State.takeFreeToken, State.cell_updCell_self]
      rfl
    · rw [State.takeFreeToken, State.cell_updCell_other _ _ hj]
  refine ⟨l, n, ?_⟩
  unfold State.cellRun
  rw [hkept, hseg]
  exact hrun

theorem admits_of_tileTaken (h : TileTaken s y cell q seg k r) (og : SegRun) (l : Tbl StreamRun) (n ten comb lo hi : Nat) :
    y.admits cell { og with streams := l, keyBytes := n } ten comb lo hi none = s.admits cell og ten comb lo hi none := by
  have hwin : (y.cell cell).windows = (s.cell cell).windows := by
    rw [cell_of_tileTaken h, State.takeFreeToken, State.cell_updCell_self]
    rfl
  unfold State.admits
  rw [hwin]

theorem unfenced_of_tileTaken (h : TileTaken s y cell q seg k r) (og : SegRun) (l : Tbl StreamRun) (n : Nat) (ws : List (Nat × Nat)) :
    y.unfenced { og with streams := l, keyBytes := n } none [] ws = (s.takeFreeToken cell q).unfenced og none [] ws := by
  obtain ⟨⟨cs, gs, rfl⟩, -⟩ := h
  rfl

theorem laneSlot_of_tileTaken (h : TileTaken s y cell q seg k r) (g : SegRun) (d : StreamDef) (st : Stencil) : y.laneSlot g d st = s.laneSlot g d st := by
  obtain ⟨⟨cs, gs, rfl⟩, -⟩ := h
  rfl

theorem word_of_tileTaken (h : TileTaken s y cell q seg k r) (j a : Nat) : y.word j a = s.word j a := by
  unfold State.word
  rw [cell_of_tileTaken h]
  exact word_updCell s cell (f := fun c => c.takeTokens q 1) (fun _ => rfl) j a

theorem dram_of_tileTaken (h : TileTaken s y cell q seg k r) : y.dram = s.dram := by
  obtain ⟨⟨cs, gs, rfl⟩, -⟩ := h
  rfl

/-! ### A tile that reaches its cell (R151, R152, R156, R187) -/

section

variable {g og : SegRun} {d : StreamDef} {ws : List (Nat × Nat)}

theorem segs_landWords (y : State) (wr : Option (Nat × Nat × Nat)) (ws : List (Nat × Nat × Nat)) : (y.landWords wr ws).segs = y.segs :=
  congrArg (·.segs) (landWords_spec y wr ws).2.1

theorem seg_landWords (y : State) (wr : Option (Nat × Nat × Nat)) (ws : List (Nat × Nat × Nat)) (id : Nat) : (y.landWords wr ws).seg? id = y.seg? id := by
  unfold State.seg?
  rw [segs_landWords]

theorem dram_landWords (y : State) (wr : Option (Nat × Nat × Nat)) (ws : List (Nat × Nat × Nat)) : (y.landWords wr ws).dram = y.dram :=
  congrArg (·.dram) (landWords_spec y wr ws).2.1

theorem tokenCount_landWords (y : State) (wr : Option (Nat × Nat × Nat)) (ws : List (Nat × Nat × Nat)) (j p : Nat) :
    ((y.landWords wr ws).cell j).tokenCount p = (y.cell j).tokenCount p := by
  obtain ⟨-, -, hcells⟩ := landWords_spec y wr ws
  obtain ⟨-, -, -, -, -, htokens, -⟩ := hcells j
  exact congrArg (Tbl.lookD · p 0) htokens

theorem runsKept_landWords (y : State) (wr : Option (Nat × Nat × Nat)) (ws : List (Nat × Nat × Nat)) : RunsKept y (y.landWords wr ws) := by
  obtain ⟨-, -, hcells⟩ := landWords_spec y wr ws
  intro j x hx
  obtain ⟨-, -, -, -, hseg, -⟩ := hcells j
  refine ⟨x, ?_, rfl, rfl, rfl, rfl⟩
  unfold State.cellRun at hx ⊢
  rw [hseg, ← hx]
  exact congrArg _ (funext fun id => seg_landWords ..)

/-- A post for which there is room changes no stream's progress. -/
theorem streamAt_postToken {z : State} {k q : Nat} (hg : z.cellRun k = some og) (hlive : Live og) (hroom : (z.cell k).tokenCount q + 1 ≤ 63) (id j : Nat) :
    streamAt (z.postToken k q) id j = streamAt z id j := by
  rw [State.postToken, postTokens_eq hg hlive.2 (by rw [hlive.1]; decide) hroom, streamAt_touch]
  rfl

/-- A tile whose words land in a cell, against one token posted to a queue of it; the run `id` has made progress. -/
def State.landTile (z : State) (cell id queue : Nat) (ws : List (Nat × Nat)) : State :=
  ((z.landWords none (ws.map fun w => (cell, w.1, w.2))).touch id).postToken cell queue

theorem landTile_spec {z : State} {queue : Nat} (id : Nat) (ws : List (Nat × Nat)) (hog : z.cellRun cell = some og) (hlive : Live og)
    (hroom : (z.cell cell).tokenCount queue + 1 ≤ 63) :
    Lands z (z.landTile cell id queue ws) (ws.map fun w => ((cell, w.1), w.2)) ∧ (z.landTile cell id queue ws).dram = z.dram ∧
      (∀ j p, ((z.landTile cell id queue ws).cell j).tokenCount p = (z.cell j).tokenCount p + if j = cell ∧ p = queue then 1 else 0) ∧
      ∀ i k, streamAt (z.landTile cell id queue ws) i k = streamAt z i k := by
  have hlands := (landWords_spec z none (ws.map fun w => (cell, w.1, w.2))).1
  have hkept := runsKept_trans (runsKept_landWords z none (ws.map fun w => (cell, w.1, w.2))) (runsKept_touch _ id)
  obtain ⟨og', hog', -, hlive'⟩ := live_kept hkept hog hlive
  have hm := mild_postTokens ((z.landWords none (ws.map fun w => (cell, w.1, w.2))).touch id) cell queue 1
  have hroom' : (((z.landWords none (ws.map fun w => (cell, w.1, w.2))).touch id).cell cell).tokenCount queue + 1 ≤ 63 := by
    rw [touch_cell, tokenCount_landWords]
    exact hroom
  rw [List.map_map] at hlands
  refine ⟨lands_of_word hlands fun k a => (mild_word hm k a).trans rfl, hm.1.trans (dram_landWords z none _), fun j p => ?_, fun i k => ?_⟩
  · refine ((post_spec hog' hlive'.2 (by rw [hlive'.1]; decide) hroom').1 j p).trans ?_
    rw [touch_cell, tokenCount_landWords]
  · refine (streamAt_postToken hog' hlive' hroom' i k).trans ((streamAt_touch ..).trans ?_)
    unfold streamAt
    rw [seg_landWords]

/-- A window of the cell admits the slot, and checked mode allows it: the tile has landed. -/
theorem foragerWrite_lands {w : Nat × Window} (hy : TileTaken s y cell q seg k r) (hog : s.cellRun cell = some og) (hlive : Live og)
    (hadm : s.admits cell og g.ten g.comb (extentOf (ws.map fun w => (cell, w.1))).1 (extentOf (ws.map fun w => (cell, w.1))).2 none = some w)
    (hroom : (s.cell cell).tokenCount w.2.queue + 1 ≤ 63) (hfence : (s.takeFreeToken cell q).unfenced og none [] (ws.map fun w => (cell, w.1)) = none) :
    TileLands s (y.foragerWrite g d cell ws) cell q w.2.queue ws ∧ streamAt (y.foragerWrite g d cell ws) seg k = some r := by
  obtain ⟨l, n, hrun⟩ := cellRun_of_tileTaken hy hog
  have hwrite : y.foragerWrite g d cell ws = y.landTile cell g.id w.2.queue ws := by
    unfold State.foragerWrite
    dsimp only
    rw [hrun]
    dsimp only
    rw [admits_of_tileTaken hy, hadm]
    dsimp only
    rw [unfenced_of_tileTaken hy, hfence]
    rfl
  have htokens : ∀ j p, (y.cell j).tokenCount p = (s.cell j).tokenCount p - if j = cell ∧ p = q then 1 else 0 := fun j p => by
    rw [cell_of_tileTaken hy]
    exact tokens_updCell_take s cell q 1 j p
  have hroom' : (y.cell cell).tokenCount w.2.queue + 1 ≤ 63 := by
    rw [htokens]
    omega
  obtain ⟨hlands, hdram, htok, hstreams⟩ := landTile_spec (queue := w.2.queue) g.id ws hrun hlive hroom'
  rw [hwrite]
  refine ⟨⟨fun k a => ?_, hdram.trans (dram_of_tileTaken hy), fun j p => by rw [htok, htokens]⟩, (hstreams seg k).trans hy.2.2⟩
  rw [hlands k a, word_of_tileTaken hy]

/-- No window of the cell admits the slot: the run of the stream fails and no word changes. -/
theorem foragerWrite_refused (hy : TileTaken s y cell q seg k r) (hog : s.cellRun cell = some og) (hg : s.seg? g.id = some g) (hlive : Live g)
    (hadm : s.admits cell og g.ten g.comb (extentOf (ws.map fun w => (cell, w.1))).1 (extentOf (ws.map fun w => (cell, w.1))).2 none = none) :
    RunFails (y.foragerWrite g d cell ws) g.id (St.windowViolation, foragerId g.comb d) ∧ SameWords s (y.foragerWrite g d cell ws) ∧
      (y.foragerWrite g d cell ws).dram = s.dram := by
  obtain ⟨l, n, hrun⟩ := cellRun_of_tileTaken hy hog
  obtain ⟨l', n', hg'⟩ := hy.2.1 g.id g hg
  have hwrite : y.foragerWrite g d cell ws = y.windowViolation g (foragerId g.comb d) cell (extentOf (ws.map fun w => (cell, w.1))).1
      (extentOf (ws.map fun w => (cell, w.1))).2 := by
    unfold State.foragerWrite
    dsimp only
    rw [hrun]
    dsimp only
    rw [admits_of_tileTaken hy, hadm]
  have hm := mild_windowViolation y g (foragerId g.comb d) cell (extentOf (ws.map fun w => (cell, w.1))).1 (extentOf (ws.map fun w => (cell, w.1))).2
  rw [hwrite]
  exact ⟨windowViolation_fails _ _ _ _ hg' hlive, fun j a => (mild_word hm j a).trans (word_of_tileTaken hy j a), hm.1.trans (dram_of_tileTaken hy)⟩

end

end

/-! ### FORAGER_TILE_DELIVER and RELAY_HOP (R226, R227, R231, R232, R235) -/

/-- Where the next tile of a lane is taken: its cell's free token, its progress, and the key bytes that it is the first to read. -/
def State.takeTile (s : State) (g : SegRun) (k : Nat) (d : StreamDef) (st : Stencil) (l : Lane) (r : StreamRun) : State :=
  let j := Tbl.lookD r.delivered l 0
  let tile := d.tileOf (d.laneHead l) j
  let s := ((s.useKey g st).takeFreeToken (g.cells.getD (laneCell l) 0) d.freeQ).updStream g.id k fun r => { r with delivered := Tbl.put r.delivered l (j + 1) }
  if d.mcastId == 0 && !laneIsA l && d.dest.all fun o => !(d.tileHeads tile).contains o || decide (Tbl.lookD r.delivered o 0 ≤ j)
  then s.updSeg g.id fun g => { g with keyBytes := g.keyBytes + s.tileBytes g d st tile } else s

section

variable {s : State} {h : HostView} {g : SegRun} {k : Nat} {d : StreamDef} {st : Stencil} {l : Lane} {r : StreamRun} {data : List Nat × List Nat}

theorem tileTaken_takeTile (hr : streamAt s g.id k = some r) :
    TileTaken s (s.takeTile g k d st l r) (g.cells.getD (laneCell l) 0) d.freeQ g.id k
      { r with delivered := Tbl.put r.delivered l (Tbl.lookD r.delivered l 0 + 1) } := by
  obtain ⟨cs, hcs⟩ := useKey_frame s g st
  have hy := tileTaken_updStream (cs := cs) (cell := g.cells.getD (laneCell l) 0) (q := d.freeQ)
    (f := fun x => { x with delivered := Tbl.put x.delivered l (Tbl.lookD r.delivered l 0 + 1) }) hr
  unfold State.takeTile
  dsimp only
  rw [hcs]
  split
  · exact tileTaken_keyBytes hy g.id _
  · exact hy

theorem deliverTile_ok (hdata : s.tileData h g d st (d.tileOf (d.laneHead l) (Tbl.lookD r.delivered l 0)) = .ok data) (hr : streamAt s g.id k = some r) :
    s.deliverTile h g k d st l r = (s.takeTile g k d st l r).foragerWrite g d (g.cells.getD (laneCell l) 0)
      (d.landing l (d.slotOf (Tbl.lookD r.delivered l 0) (s.laneSlot g d st)) data) := by
  rw [← laneSlot_of_tileTaken (tileTaken_takeTile hr)]
  unfold State.deliverTile
  dsimp only
  rw [hdata]
  rfl

/-- What a command for one receiving place of a stream leaves, in x: the place has the progress key `key` and the cell `cell`, and has taken j tiles; once its last tile is behind it, it gives its final tokens; while `waits` holds it waits; else its next tile is taken, the stream's progress being `next`, and reaches the cell. -/
structure ServesPlace (s x : State) (h : HostView) (g : SegRun) (k : Nat) (d : StreamDef) (st : Stencil) (r : StreamRun) (l : Lane) (key cell j : Nat)
    (waits : Prop) (next : StreamRun) : Prop where
  finals : d.tilesOf st (d.laneHead l) ≤ j → x = s.takeFinals g k d st key cell r
  stays : j < d.tilesOf st (d.laneHead l) → waits → x = s
  lands : j < d.tilesOf st (d.laneHead l) → ¬ waits → ∀ data, s.tileData h g d st (d.tileOf (d.laneHead l) j) = .ok data →
    ∃ y, TileTaken s y cell d.freeQ g.id k next ∧ x = y.foragerWrite g d cell (d.landing l (d.slotOf j (s.laneSlot g d st)) data)

theorem live_of_streams {s : State} {g : SegRun} (h : s.streams? g = true) : Live g := by
  simp only [State.streams?, Bool.and_eq_true, beq_iff_eq, Option.isNone_iff_eq_none] at h
  exact h.1

/-- The final tokens, the waiting and the delivery of a receiving place that a command serves. -/
theorem place_delivers {t key cell j : Nat} {ask : Instr} {x : State} {waits : Prop} {next : StreamRun} (hexec : exec ask s = .next (settled t s x))
    (hserve : ServesPlace (s.advance t) x h g k d st r l key cell j waits next) (hg : s.seg? g.id = some g) (hlive : Live g) (hr : streamAt s g.id k = some r) :
    let n := min ((s.cell cell).tokenCount d.freeQ) (d.ringTiles - Tbl.lookD r.finals key 0)
    let last : StreamRun := { r with finals := Tbl.put r.finals key (Tbl.lookD r.finals key 0 + n) }
    (d.tilesOf st (d.laneHead l) ≤ j → ∃ s', exec ask s = .next s' ∧ FinalsTaken s s' g.id k cell d.freeQ n { last with ended := d.ends st last }) ∧
    (j < d.tilesOf st (d.laneHead l) → (waits → ∃ s', exec ask s = .next s' ∧ OnlyTime s s' t) ∧
      (¬ waits → ∀ data og, (s.advance t).tileData h g d st (d.tileOf (d.laneHead l) j) = .ok data → s.cellRun cell = some og →
        let ws := d.landing l (d.slotOf j (s.laneSlot g d st)) data
        let e := extentOf (ws.map fun w => (cell, w.1))
        (∀ w, s.admits cell og g.ten g.comb e.1 e.2 none = some w → og.fail = none → og.phase = .running → (s.cell cell).tokenCount w.2.queue + 1 ≤ 63 →
          ((s.advance t).updCell cell fun c => c.takeTokens d.freeQ 1).unfenced og none [] (ws.map fun w => (cell, w.1)) = none →
          ∃ s', exec ask s = .next s' ∧ TileLands s s' cell d.freeQ w.2.queue ws ∧ streamAt s' g.id k = some next) ∧
        (s.admits cell og g.ten g.comb e.1 e.2 none = none →
          ∃ s', exec ask s = .next s' ∧ RunFails s' g.id (St.windowViolation, foragerId g.comb d) ∧ SameWords s s' ∧ s'.dram = s.dram))) := by
  intro n last
  refine ⟨fun hj => ⟨_, hexec, ?_⟩, fun hj => ⟨fun hw => ⟨_, hexec, ?_⟩, fun hw data og hdata hog => ?_⟩⟩
  · rw [hserve.finals hj]
    exact takeFinals_spec (s := s.advance t) hr
  · rw [hserve.stays hj hw]
    rfl
  · obtain ⟨y, hy, rfl⟩ := hserve.lands hj hw data hdata
    exact ⟨fun w hadm hfail hphase hroom hfence => ⟨_, hexec, foragerWrite_lands (s := s.advance t) hy hog ⟨hphase, hfail⟩ hadm hroom hfence⟩,
      fun hadm => ⟨_, hexec, foragerWrite_refused (s := s.advance t) hy hog hg hlive hadm⟩⟩

/-- The next tile of a lane that the forager serves, or the lane's final tokens. -/
def State.deliverNext (s : State) (h : HostView) (g : SegRun) (k : Nat) (d : StreamDef) (st : Stencil) (l : Lane) (r : StreamRun) : State :=
  let j := Tbl.lookD r.delivered l 0
  let cell := g.cells.getD (laneCell l) 0
  if d.tilesOf st (d.laneHead l) ≤ j then s.takeFinals g k d st (16 * l) cell r
  else if (s.cell cell).tokenCount d.freeQ = 0 then s
  else if d.mcastId ≠ 0 ∧ r.granules < d.granulesTo st (d.tileOf (d.laneHead l) j) then s
  else s.deliverTile h g k d st l r

theorem exec_foragerTileDeliver_next {t seg : Nat} (hoff : s.power.off = false) (hs : Streaming s seg k g d st r) (hl : d.isLane st l = true) :
    exec (.foragerTileDeliver t seg k l h) s = .next (settled t s ((s.advance t).deliverNext h g k d st l r)) := by
  obtain ⟨hg, hdef, hr, hruns, hended⟩ := hs
  have hg' : (s.advance t).seg? seg = some g := hg
  have hdef' : (s.advance t).streamOf g k = some (d, st) := hdef
  have hruns' : (s.advance t).streams? g = true := hruns
  rw [exec_foragerTileDeliver, execForagerTileDeliver, run_next hoff]
  simp only [hg', hdef', hr, hruns', hended, hl, Bool.not_false, Bool.and_self, onlyIf_true]
  rfl

/-- A forager's lane waits for a free token, or for the granules of its next tile. -/
theorem servesPlace_deliver (hr : streamAt s g.id k = some r) :
    ServesPlace s (s.deliverNext h g k d st l r) h g k d st r l (16 * l) (g.cells.getD (laneCell l) 0) (Tbl.lookD r.delivered l 0)
      ((s.cell (g.cells.getD (laneCell l) 0)).tokenCount d.freeQ = 0 ∨
        d.mcastId ≠ 0 ∧ r.granules < d.granulesTo st (d.tileOf (d.laneHead l) (Tbl.lookD r.delivered l 0)))
      { r with delivered := Tbl.put r.delivered l (Tbl.lookD r.delivered l 0 + 1) } where
  finals hj := if_pos hj
  stays hj hw := by
    unfold State.deliverNext
    dsimp only
    rw [if_neg (Nat.not_le.2 hj)]
    rcases hw with hfree | hgran
    · exact if_pos hfree
    · rw [if_pos hgran, ite_self]
  lands hj hw data hdata := by
    obtain ⟨hfree, hgran⟩ := not_or.1 hw
    refine ⟨s.takeTile g k d st l r, tileTaken_takeTile hr, ?_⟩
    rw [← deliverTile_ok hdata hr]
    unfold State.deliverNext
    dsimp only
    rw [if_neg (Nat.not_le.2 hj), if_neg hfree, if_neg hgran]

/-- The receiving cell of a lane's chain at a place from 1 on (R235). -/
def StreamDef.hopCell (d : StreamDef) (g : SegRun) (l : Lane) (hop : Nat) : Nat :=
  g.cells.getD ((d.chain (d.laneHead l)).getD hop 0 + if laneIsA l then d.aOffset else 0) 0

/-- Tiles of a lane that have reached the place before `hop`. -/
def StreamRun.hopBefore (r : StreamRun) (l : Lane) (hop : Nat) : Nat :=
  if hop ≤ 1 then Tbl.lookD r.delivered l 0 else Tbl.lookD r.hopped (16 * l + hop - 1) 0

/-- Where the next tile is taken from the place before: the cell's free token and the place's progress. -/
def State.takeHop (s : State) (g : SegRun) (k : Nat) (d : StreamDef) (l : Lane) (hop : Nat) (r : StreamRun) : State :=
  (s.takeFreeToken (d.hopCell g l hop) d.freeQ).updStream g.id k fun x =>
    { x with hopped := Tbl.put x.hopped (16 * l + hop) (Tbl.lookD r.hopped (16 * l + hop) 0 + 1) }

/-- The next tile of a place of a chain, or the place's final tokens. -/
def State.hopNext (s : State) (h : HostView) (g : SegRun) (k : Nat) (d : StreamDef) (st : Stencil) (l : Lane) (hop : Nat) (r : StreamRun) : State :=
  let j := Tbl.lookD r.hopped (16 * l + hop) 0
  if d.tilesOf st (d.laneHead l) ≤ j then s.takeFinals g k d st (16 * l + hop) (d.hopCell g l hop) r
  else if r.hopBefore l hop ≤ j ∨ (s.cell (d.hopCell g l hop)).tokenCount d.freeQ = 0 then s
  else match s.tileData h g d st (d.tileOf (d.laneHead l) j) with
    | .error e => s.failSeg g.id (d.hopCell g l hop) e
    | .ok data =>
      (s.takeHop g k d l hop r).foragerWrite g d (d.hopCell g l hop) (d.landing l (d.slotOf j ((s.takeHop g k d l hop r).laneSlot g d st)) data)

theorem exec_relayHop_next {t seg hop : Nat} (hoff : s.power.off = false) (hs : Streaming s seg k g d st r) (hl : d.isLane st l = true) (hrelay : d.relay = true)
    (hpos : 0 < hop) (hlen : hop < d.chainLen) :
    exec (.relayHop t seg k l hop h) s = .next (settled t s ((s.advance t).hopNext h g k d st l hop r)) := by
  obtain ⟨hg, hdef, hr, hruns, hended⟩ := hs
  have hg' : (s.advance t).seg? seg = some g := hg
  have hdef' : (s.advance t).streamOf g k = some (d, st) := hdef
  have hruns' : (s.advance t).streams? g = true := hruns
  have hplace : decide (0 < hop ∧ hop < d.chainLen) = true := decide_eq_true ⟨hpos, hlen⟩
  have hfirst : (hop = 1) = (hop ≤ 1) := by rw [eq_iff_iff]; omega
  rw [exec_relayHop, execRelayHop, run_next hoff]
  simp only [hg', hdef', hr, hruns', hended, hl, hrelay, hplace, hfirst, Bool.not_false, Bool.and_self, onlyIf_true]
  rw [← seg_id hg]
  rfl

/-- A place of a chain waits for a free token, or until the place before has the tile. -/
theorem servesPlace_hop {hop : Nat} (hr : streamAt s g.id k = some r) :
    ServesPlace s (s.hopNext h g k d st l hop r) h g k d st r l (16 * l + hop) (d.hopCell g l hop) (Tbl.lookD r.hopped (16 * l + hop) 0)
      (r.hopBefore l hop ≤ Tbl.lookD r.hopped (16 * l + hop) 0 ∨ (s.cell (d.hopCell g l hop)).tokenCount d.freeQ = 0)
      { r with hopped := Tbl.put r.hopped (16 * l + hop) (Tbl.lookD r.hopped (16 * l + hop) 0 + 1) } where
  finals hj := if_pos hj
  stays hj hw := by
    unfold State.hopNext
    dsimp only
    rw [if_neg (Nat.not_le.2 hj)]
    exact if_pos hw
  lands hj hw data hdata := by
    have hy := tileTaken_updStream (cs := s.combs) (cell := d.hopCell g l hop) (q := d.freeQ)
      (f := fun x => { x with hopped := Tbl.put x.hopped (16 * l + hop) (Tbl.lookD r.hopped (16 * l + hop) 0 + 1) }) hr
    refine ⟨s.takeHop g k d l hop r, hy, ?_⟩
    rw [← laneSlot_of_tileTaken hy]
    unfold State.hopNext
    dsimp only
    rw [if_neg (Nat.not_le.2 hj), if_neg hw, hdata]
    rfl

/-! ### MULTICAST_GRANULE_FETCH (R232) -/

/-- The state in which every member of a multicast group has n granules. -/
def State.grantAll (s : State) (ms : List (SegRun × Nat × StreamDef)) (n : Nat) : State :=
  ms.foldl (fun s m => s.updStream m.1.id m.2.1 fun x => { x with granules := n }) s

theorem grantAll_frame (s : State) (ms : List (SegRun × Nat × StreamDef)) (n : Nat) :
    (s.grantAll ms n).cells = s.cells ∧ (s.grantAll ms n).dram = s.dram := by
  induction ms generalizing s with
  | nil => exact ⟨rfl, rfl⟩
  | cons m ms ih => exact ih (s.updStream m.1.id m.2.1 fun x => { x with granules := n })

/-- The progress that a stream has after a grant: n granules where it is a member's, and else as before. -/
theorem streamAt_grantAll (s : State) (ms : List (SegRun × Nat × StreamDef)) (n id j : Nat) {x : StreamRun} (hx : streamAt s id j = some x) :
    streamAt (s.grantAll ms n) id j = some (if ∃ m ∈ ms, id = m.1.id ∧ j = m.2.1 then { x with granules := n } else x) := by
  induction ms generalizing s x with
  | nil => simpa [State.grantAll] using hx
  | cons m ms ih =>
    have hstep := streamAt_updStream s m.1.id m.2.1 (fun x => { x with granules := n }) id j
    rw [hx] at hstep
    by_cases hm : id = m.1.id ∧ j = m.2.1
    · rw [if_pos hm] at hstep
      rw [if_pos ⟨m, List.mem_cons_self, hm⟩]
      exact (ih _ hstep).trans (congrArg some (ite_self _))
    · rw [if_neg hm] at hstep
      refine (ih _ hstep).trans (congrArg some (if_congr ?_ rfl rfl))
      simp only [List.exists_mem_cons_iff, hm, false_or]

/-- The bytes of a stream's key that the read of its next granule counts. -/
def State.granuleBytes (s : State) (g : SegRun) (st : Stencil) (granules : Nat) : Nat :=
  if st.bind_ = 4 then min 4096 (st.total * st.elemBytes - 4096 * granules) +
    (if granules = 0 ∧ st.regen then 32 * ((s.runComp g st).elim 0 fun c => c.2.seeds.length) else 0)
  else 0

/-- The state in which the key bytes of a granule are noted for the run that fetches it. -/
def State.noteGranule (s : State) (g : SegRun) (st : Stencil) (granules : Nat) : State :=
  (s.useKey g st).updSeg g.id fun x => { x with keyBytes := x.keyBytes + s.granuleBytes g st granules }

theorem noteGranule_frame (s : State) (g : SegRun) (st : Stencil) (n : Nat) :
    (s.noteGranule g st n).cells = s.cells ∧ (s.noteGranule g st n).dram = s.dram ∧ ∀ id j, streamAt (s.noteGranule g st n) id j = streamAt s id j := by
  obtain ⟨cs, hcs⟩ := useKey_frame s g st
  unfold State.noteGranule
  rw [hcs]
  exact ⟨rfl, rfl, streamAt_updSeg ({ s with combs := cs } : State) g.id (f := fun x => { x with keyBytes := x.keyBytes + s.granuleBytes g st n })
    (fun _ => rfl) fun _ => rfl⟩

section

variable {t : Nat} (hoff : s.power.off = false) (hs : Streaming s g.id k g d st r) (hcast : d.mcastId ≠ 0)
  (hmore : r.granules < d.granulesTo st (d.tiles st - 1)) (hcomb : s.fetchingComb g st (s.members g d.mcastId) = g.comb)
  (haccept : ∀ m ∈ s.members g d.mcastId, s.canAccept m r.granules = true)

include hoff hs hcast hmore hcomb haccept

theorem exec_multicastGranuleFetch_next (hdata : (s.advance t).tileData h g d st (d.granuleTile st r.granules) = .ok data) :
    exec (.multicastGranuleFetch t g.id k h) s = .next (settled t s
      (((s.advance t).noteGranule g st r.granules).grantAll (s.members g d.mcastId) (r.granules + 1))) := by
  obtain ⟨hg, hdef, hr, hruns, -⟩ := hs
  have hg' : (s.advance t).seg? g.id = some g := hg
  have hdef' : (s.advance t).streamOf g k = some (d, st) := hdef
  have hfetch : ((s.advance t).streams? g && d.mcastId != 0 && decide (r.granules < d.granulesTo st (d.tiles st - 1)) &&
      (s.advance t).fetchingComb g st ((s.advance t).members g d.mcastId) == g.comb &&
      ((s.advance t).members g d.mcastId).all fun m => (s.advance t).canAccept m r.granules) = true := by
    simp only [Bool.and_eq_true, bne_iff_ne, decide_eq_true_eq, beq_iff_eq, List.all_eq_true]
    exact ⟨⟨⟨⟨hruns, hcast⟩, hmore⟩, hcomb⟩, haccept⟩
  rw [exec_multicastGranuleFetch, execMulticastGranuleFetch, run_next hoff]
  simp only [hg', hdef', hr]
  rw [hfetch, onlyIf_true, hdata]
  rfl

theorem multicast_grants (hdata : ∃ data, (s.advance t).tileData h g d st (d.granuleTile st r.granules) = .ok data) :
    ∃ s', exec (.multicastGranuleFetch t g.id k h) s = .next s' ∧ s'.cells = s.cells ∧ s'.dram = s.dram ∧
      ∀ m ∈ s.members g d.mcastId, ∀ x, streamAt s m.1.id m.2.1 = some x → streamAt s' m.1.id m.2.1 = some { x with granules := r.granules + 1 } := by
  obtain ⟨data, hdata⟩ := hdata
  obtain ⟨hcells, hdram, hstreams⟩ := noteGranule_frame (s.advance t) g st r.granules
  obtain ⟨hcells', hdram'⟩ := grantAll_frame ((s.advance t).noteGranule g st r.granules) (s.members g d.mcastId) (r.granules + 1)
  refine ⟨_, exec_multicastGranuleFetch_next hoff hs hcast hmore hcomb haccept hdata, hcells'.trans hcells, hdram'.trans hdram, fun m hm x hx => ?_⟩
  refine (streamAt_grantAll ((s.advance t).noteGranule g st r.granules) _ (r.granules + 1) _ _ ((hstreams _ _).trans hx)).trans ?_
  rw [if_pos ⟨m, hm, rfl, rfl⟩]

end

end

/-- Settles O43: a forager's lane and a chain's place are served alike (`place_delivers`), once each says what it waits for; a granule reaches the members one by one. -/
theorem streamsDeliver : Obligations.StreamsDeliver := by
  unfold Obligations.StreamsDeliver
  intro t seg stream h g d st r s hoff hs
  obtain rfl := seg_id hs.1
  have hr : streamAt s g.id stream = some r := streamAt_of hs.1 hs.2.2.1
  have hlive : Live g := live_of_streams hs.2.2.2.1
  refine ⟨fun l onChain hop hl hchain hflat => ?_, multicast_grants hoff hs⟩
  cases onChain with
  | false =>
    obtain rfl := hflat rfl
    obtain ⟨hfinals, hnext⟩ := place_delivers (exec_foragerTileDeliver_next hoff hs hl) (servesPlace_deliver (s := s.advance t) hr) hs.1 hlive hr
    refine ⟨hfinals, fun hj => ⟨fun hw => (hnext hj).1 ?_, fun hfree _ hgran => (hnext hj).2 ?_⟩⟩
    · simpa using hw
    · exact not_or.2 ⟨hfree, fun hq => absurd hq.2 (Nat.not_lt.2 (hgran rfl hq.1))⟩
  | true =>
    obtain ⟨hrelay, hpos, hlen⟩ := hchain rfl
    obtain ⟨hfinals, hnext⟩ := place_delivers (exec_relayHop_next hoff hs hl hrelay hpos hlen) (servesPlace_hop (s := s.advance t) hr) hs.1 hlive hr
    simp only [if_true, true_and]
    refine ⟨hfinals, fun hj => ⟨fun hw => (hnext hj).1 ?_, fun hfree hbefore _ => (hnext hj).2 ?_⟩⟩
    · rcases hw with hfree | hbefore | hflat
      · exact .inr hfree
      · exact .inl hbefore
      · exact absurd hflat.1 Bool.noConfusion
    · exact not_or.2 ⟨Nat.not_le.2 (hbefore trivial), hfree⟩

end Sys2Proof.Machine
end

section
/-! Settles O35 (R165, R169, R171, R179, R187, R191, R196, R207, R212): an arithmetic instruction is checked at issue and is then under way. -/

namespace Sys2Proof.Machine

open Sys2Proof.Safety

/-! ### What an arithmetic instruction fixes at issue (R171, R179, R196, R207) -/

/-- The accumulator bindings of a cell once an arithmetic instruction has issued (R196). -/
def Cell.boundAfter (c : Cell) (i : Ins) : Tbl (Nat × Bool) :=
  if (i.op = Op.mact ∨ i.op = Op.macv) ∧ i.zero = true then Tbl.put c.bound i.tile (c.modIndex i, i.colmod) else c.bound

/-- A cell once an arithmetic instruction has issued: it has stepped, and a MAC instruction with ZERO has bound its accumulator. -/
def steppedBound (c : Cell) (i : Ins) : Cell := { stepped c i with bound := c.boundAfter i }

/-- An arithmetic instruction of a cell as it stands at issue, with its constants. -/
def arithFlight (g : SegRun) (cell : Nat) (c : Cell) (raw : InsWord) (consts : List Nat) : Flight :=
  let i := ins raw
  let eas := c.eas i
  { newFlight raw eas (i.readSet g.cells cell eas) (i.writeSet g.cells cell eas) false (!i.remoteSource) with modIdx := c.modIndex i, consts := consts }

/-- The constants of an arithmetic instruction, and the state once they are read: TMULC takes them from OP1, as words or as a literal (R207). -/
def State.arithConsts (s : State) (g : SegRun) (cell : Nat) (c : Cell) (raw : InsWord) : List Nat × State :=
  let i := ins raw
  if i.op = Op.tmulc then
    (if i.cind then
      s.readWords cell (arithFlight g cell c raw [])
        (runWords (holderOf g.cells cell (i.opnd 1)) ((c.eas i).getD 1 0) (i.opnd 1).stride 0 (i.opnd 1).len)
     else ([bits (i.opRaw 1) 0 32, bits (i.opRaw 1) 32 32], s))
  else ([], s)

theorem arithConsts_free (s : State) (g : SegRun) (cell : Nat) (c : Cell) (raw : InsWord) :
    ∃ consts fr, s.arithConsts g cell c raw = (consts, { s with free := fr }) := by
  unfold State.arithConsts
  dsimp only
  split
  · split
    · exact readWords_free ..
    · exact ⟨_, s.free, rfl⟩
  · exact ⟨_, s.free, rfl⟩

theorem arithConsts_literal {raw : InsWord} (hop : (ins raw).op = Op.tmulc) (hcind : (ins raw).cind = false) (s : State) (g : SegRun) (cell : Nat) (c : Cell) :
    (s.arithConsts g cell c raw).1 = [bits ((ins raw).opRaw 1) 0 32, bits ((ins raw).opRaw 1) 32 32] := by
  unfold State.arithConsts
  dsimp only
  rw [if_pos hop, hcind]
  rfl

/-- On the cell that has issued it, an arithmetic instruction leaves its binding. -/
theorem bind_issued (s : State) (t cell id : Nat) (c : Cell) (i : Ins) :
    (if (i.op = Op.mact ∨ i.op = Op.macv) ∧ i.zero = true then
        (issued s t cell id (stepped c i)).updCell cell fun x => { x with bound := Tbl.put x.bound i.tile (c.modIndex i, i.colmod) }
      else issued s t cell id (stepped c i)) = issued s t cell id (steppedBound c i) := by
  unfold steppedBound Cell.boundAfter
  split
  · exact issued_upd ..
  · rfl

/-! ### The issue (R165, R169, R187, R212) -/

theorem exec_arithRow {t cell : Nat} (s : State) : ∀ row ∈ arithRows t cell, exec row.1 s = run t s fun s => s.arith cell row.2 := by
  simp only [arithRows, List.forall_mem_cons]
  exact ⟨rfl, rfl, rfl, rfl, rfl, rfl, rfl, rfl, rfl, rfl, rfl, rfl, rfl, rfl, List.forall_mem_nil _⟩

section

variable {s : State} {t cell : Nat} {g : SegRun} {c : Cell} {raw : InsWord}

/-- An instruction that its launch leaves under way is so, but for an unfenced access that its own CHK and its segment's checked mode find. -/
theorem launchedOrUnfenced_of_launch {z : State} {f : Flight} {b : Tbl (Nat × Bool)} {cs : Tbl Comb} (hmay : MayIssue s cell g c raw) (hraw : f.raw = raw)
    (hrun : z.seg? g.id = some { g with progress := max s.now t }) (hdef : z.runDef g = s.runDef g)
    (hlaunch : Launched s (settled t s (z.launch cell f)) t cell g.id c raw b f cs) :
    LaunchedOrUnfenced s (settled t s (z.launchChecked g cell f)) t cell g c raw b f cs := by
  obtain ⟨hphase, hfail⟩ := run_live hmay
  unfold State.launchChecked
  dsimp only
  split
  next k hbad =>
    split at hbad
    next hchk =>
      exact .inr ⟨hraw ▸ hchk, hdef ▸ checked_of_unfenced hbad, k, failSeg_fails (g := { g with progress := max s.now t }) hrun hphase hfail⟩
    next => cases hbad
  next => exact .inl hlaunch

variable {row : Instr × Nat} (hoff : s.power.off = false) (hmay : MayIssue s cell g c raw) (hrow : row ∈ arithRows t cell) (hop : (ins raw).op = row.2)

include hoff hmay hrow hop

/-- An arithmetic command acts on the state in which its instruction has issued: the instruction fails, or it binds, takes its constants and is launched. -/
theorem exec_arith_next : exec row.1 s = .next (settled t s
    (match arithFault (s.modWin g) g c (ins raw) with
    | some e => (issued s t cell g.id (stepped c (ins raw))).failSeg g.id cell e
    | none =>
      let q := (issued s t cell g.id (steppedBound c (ins raw))).arithConsts g cell c raw
      q.2.launchChecked g cell (arithFlight g cell c raw q.1))) := by
  rw [← bind_issued]
  exact (exec_arithRow s row hrow).trans (run_issue (isIt := fun i => i.op == row.2) hoff hmay (beq_iff_eq.2 hop))

theorem arith_fails {e : Err} (he : arithFault (s.modWin g) g c (ins raw) = some e) : ∃ s', exec row.1 s = .next s' ∧ RunFails s' g.id e := by
  refine ⟨_, exec_arith_next hoff hmay hrow hop, ?_⟩
  rw [he]
  exact fail_issued hmay ..

theorem arith_launches (hfault : arithFault (s.modWin g) g c (ins raw) = none) :
    ∃ s' consts, exec row.1 s = .next s' ∧
      LaunchedOrUnfenced s s' t cell g c raw (c.boundAfter (ins raw)) (arithFlight g cell c raw consts) s.combs ∧
      ((ins raw).op = Op.tmulc → (ins raw).cind = false → consts = [bits ((ins raw).opRaw 1) 0 32, bits ((ins raw).opRaw 1) 32 32]) := by
  obtain ⟨consts, fr, hconsts⟩ := arithConsts_free (issued s t cell g.id (steppedBound c (ins raw))) g cell c raw
  refine ⟨_, consts, exec_arith_next hoff hmay hrow hop, ?_, fun htmulc hcind => ?_⟩
  · rw [hfault, hconsts]
    refine launchedOrUnfenced_of_launch hmay rfl (seg_issued (cellRun_id hmay.1).2 t cell (steppedBound c (ins raw))) rfl ?_
    exact congrArg (settled t s) (launch_issued { s with free := fr } ..)
  · exact (congrArg Prod.fst hconsts).symm.trans (arithConsts_literal htmulc hcind ..)

end

/-- Settles O35: an instruction at fault fails its run; any other binds its accumulator, takes its constants and is launched. -/
theorem arithmeticIssues : Obligations.ArithmeticIssues := by
  intro t cell g c raw s hoff hmay row hrow hop
  exact ⟨fun _ he => arith_fails hoff hmay hrow hop he, arith_launches hoff hmay hrow hop⟩

end Sys2Proof.Machine
end

section
/-! Settles O15 (R254, R255, R310, R318, R340): deadlines and a route's failure that end an EVAL. -/

namespace Sys2Proof.Machine

open Sys2Proof.Safety

section

variable {t ten lring seq : Nat} {s : State} {v : Eval}

theorem evalOf_cmd {c : Cmd} (hc : s.cmd? ten lring seq = some c) (hv : c.eval = some v) : evalOf s ten lring seq = some v := by
  rw [evalOf, hc]
  exact hv

/-- A command whose effect is that the EVAL fails: the failure as the statements say it, and the log and the tenants' objects as they were. -/
theorem failEval_settles (e : Err) (hev : evalOf s ten lring seq = some v) :
    FailsEval s (settled t s ((s.advance t).failEval ten lring seq e)) ten lring seq v e ∧
      (settled t s ((s.advance t).failEval ten lring seq e)).log = s.log ∧
      (settled t s ((s.advance t).failEval ten lring seq e)).tenants = s.tenants := by
  obtain ⟨hlog, htenants, -⟩ := failEval_keeps (s.advance t) ten lring seq e
  exact ⟨failsEval_failEval e hev rfl rfl rfl rfl, hlog, htenants⟩

/-- The same of a failure that is logged first: its one record is added. -/
theorem failEval_logRec_settles (e : Err) (type flags fn source arg0 arg1 : Nat) (hev : evalOf s ten lring seq = some v) :
    let s' := settled t s (((s.advance t).logRec type flags fn source arg0 arg1).failEval ten lring seq e)
    FailsEval s s' ten lring seq v e ∧
      s'.log = s.log.add { type := type, flags := flags, ten := fn, source := source, waggle := max s.now t, arg0 := arg0, arg1 := arg1 } := by
  obtain ⟨tn, hrec⟩ := logRec_eq (s.advance t) type flags fn source arg0 arg1
  obtain ⟨hlog, -⟩ := failEval_keeps ((s.advance t).logRec type flags fn source arg0 arg1) ten lring seq e
  refine ⟨failsEval_failEval e ?_ ?_ ?_ ?_ ?_, hlog.trans ?_⟩ <;> rw [hrec]
  · exact hev
  all_goals rfl

/-! ### What each command does to the EVAL -/

section

variable (hoff : s.power.off = false) (hev : evalOf s ten lring seq = some v)
include hoff hev

/-- RT_ATTEMPT_EXPIRE past the deadline of an unclaimed attempt with no retry left (R254). -/
theorem exec_rtAttemptExpire_last {a : Attempt} {d : Nat} (ha : v.attempt = some a) (hd : a.deadline = some d) (hlate : d ≤ max s.now t)
    (hclaim : a.claimed = false) (hlast : v.retries < a.attempt) :
    exec (.rtAttemptExpire t ten lring seq) s = .next (settled t s ((s.advance t).failEval ten lring seq (St.roundtripDeadline, 0))) := by
  have hguard : (a.deadline.any (fun d => decide (d ≤ max s.now t)) && !a.claimed) = true := by simp [hd, hlate, hclaim, -le_sup_iff]
  rw [evalOf] at hev
  rw [exec_rtAttemptExpire]
  refine run_eq hoff ?_
  simp only [State.advance_cmd_entry, hev, ha]
  exact (if_pos hguard).trans (if_neg (Nat.not_le.2 hlast))

/-- RT_INTERIM_DEADLINE while the previous interim has stood unread until the attempt's wait ran out (R255). -/
theorem exec_rtInterimDeadline_late {a : Attempt} {d p : Nat} (hp : v.lastInterim = some p) (ha : v.attempt = some a) (hw : a.written = false)
    (hd : a.waitUntil = some d) (hlate : d ≤ max s.now t) :
    exec (.rtInterimDeadline t ten lring seq) s = .next (settled t s ((s.advance t).failEval ten lring seq (St.roundtripDeadline, 0))) := by
  have hguard : (v.lastInterim.isSome && v.attempt.any fun a => !a.written && a.waitUntil.any fun d => decide (d ≤ max s.now t)) = true := by
    simp [hp, ha, hw, hd, hlate, -le_sup_iff]
  rw [evalOf] at hev
  rw [exec_rtInterimDeadline]
  refine run_eq hoff ?_
  simp only [State.advance_cmd_entry, hev]
  exact if_pos hguard

/-- FABRIC_DEADLINE of a live EVAL with a message that was not admitted in time, or a receive wait that is too long (R310). -/
theorem exec_fabricDeadline_late (hlive : v.failed = none)
    (hlate : (∃ x ∈ v.sends, x.admitted = false ∧ x.acked = false ∧ x.until_ ≤ max s.now t) ∨
      (∃ w, v.recvWait = some w ∧ w.2 + ((Tbl.look (s.ten ten).sessions v.session).elim 0 (·.deadlineMs)) * msec < max s.now t)) :
    exec (.fabricDeadline t ten lring seq) s = .next (settled t s ((s.advance t).failEval ten lring seq (St.roundtripDeadline, 0))) := by
  have hguard : (v.failed.isNone && ((v.sends.any fun x => !x.admitted && !x.acked && decide (x.until_ ≤ (s.advance t).now)) ||
      v.recvWait.any fun w => decide (w.2 + ((Tbl.look ((s.advance t).ten ten).sessions v.session).elim 0 (·.deadlineMs)) * msec < (s.advance t).now))) =
        true := by
    rw [hlive, Option.isNone_none, Bool.true_and, Bool.or_eq_true]
    refine hlate.imp (fun ⟨x, hx, hadm, hack, hu⟩ => List.any_eq_true.2 ⟨x, hx, ?_⟩) (fun ⟨w, hw, hlt⟩ => ?_)
    · simp [hadm, hack, hu, -le_sup_iff]
    · rw [hw, Option.any_some]
      exact decide_eq_true hlt
  rw [evalOf] at hev
  rw [exec_fabricDeadline]
  refine run_eq hoff ?_
  simp only [State.advance_cmd_entry, hev]
  exact if_pos hguard

/-- ROUTE_FAILURE_NOTICE for an edge whose message is not acknowledged (R318). -/
theorem exec_routeFailureNotice_open {edge : Nat} (port device : Nat) (mismatch : Bool) (hopen : ∃ x ∈ v.sends, x.edge = edge ∧ x.acked = false) :
    exec (.routeFailureNotice t ten lring seq edge port device mismatch) s =
      .next (settled t s (((s.advance t).logRec Rec.fabric 0 ten port device edge).failEval ten lring seq
        (if mismatch then St.swarmMismatch else St.linkQuarantined, port))) := by
  have hguard : (v.sends.any fun x => x.edge == edge && !x.acked) = true := by
    obtain ⟨x, hx, hedge, hack⟩ := hopen
    exact List.any_eq_true.2 ⟨x, hx, by simp [hedge, hack]⟩
  rw [evalOf] at hev
  rw [exec_routeFailureNotice]
  refine run_eq hoff ?_
  simp only [State.advance_cmd_entry, hev]
  exact if_pos hguard

end

end

/-- Settles O15: past its deadline each command is the failure of the EVAL, which for a route's failure is logged first. -/
theorem evalDeadlines : Obligations.EvalDeadlines := by
  intro t ten lring seq c v s hoff hc hv hlive
  have hev := evalOf_cmd hc hv
  refine ⟨fun a d ha hd hlate hclaim hlast => ?attempt, fun a d p hp ha hw hd hlate => ?interim, fun hlate => ?fabric,
    fun edge port device mismatch hopen => ?route⟩
  case attempt => exact ⟨_, exec_rtAttemptExpire_last hoff hev ha hd hlate hclaim hlast, failEval_settles _ hev⟩
  case interim => exact ⟨_, exec_rtInterimDeadline_late hoff hev hp ha hw hd hlate, failEval_settles _ hev⟩
  case fabric => exact ⟨_, exec_fabricDeadline_late hoff hev hlive hlate, failEval_settles _ hev⟩
  case route => exact ⟨_, exec_routeFailureNotice_open hoff hev port device mismatch hopen, failEval_logRec_settles _ _ _ _ _ _ _ hev⟩

end Sys2Proof.Machine
end

section
/-! For O23 and O24 (R256, R257, R352, R418): the run of a gateway OP on its cells, and what is left when its work has ended. -/

namespace Sys2Proof.Machine

open Sys2Proof.Safety

/-! ### The work and its scrub -/

/-- The scrub changes cells only, and depends on nothing else. -/
theorem gatewayScrub_eq (cells : List Nat) {x s : State} (h : x.cells = s.cells) : x.gatewayScrub cells = { x with cells := (s.gatewayScrub cells).cells } := by
  induction cells generalizing x s with
  | nil => exact h ▸ rfl
  | cons k r ih =>
    have hcells : (x.updCell k fun c => c.scrub none).cells = (s.updCell k fun c => c.scrub none).cells := congrArg (Tbl.upd · k Cell.zero fun c => c.scrub none) h
    exact ih hcells

section

variable (s : State) (t ten lring seq : Nat)

/-- An OP's work begins with a free number of operations charged to the tenant and to the command. -/
theorem gatewayBegun_eq : ∃ n l k mt, gatewayBegun s t ten lring seq =
    (({ s with now := max s.now t, free := s.free + 1, meters := mt } : State).updTen ten fun x => { x with meters := l, stuck := k }).updCmd ten lring seq
      fun c => { c with ops := c.ops + n } := by
  obtain ⟨l, k, mt, h⟩ := charge_eq (s.advance t).takeFree.2 ten 0 (s.advance t).takeFree.1
  exact ⟨(s.advance t).takeFree.1, l, k, mt, by rw [gatewayBegun, State.chargeOps, h]; rfl⟩

theorem gatewayBegun_frame : ∃ rs ts mt, gatewayBegun s t ten lring seq =
    { s with now := max s.now t, free := s.free + 1, rings := rs, tenants := ts, meters := mt } := by
  obtain ⟨n, l, k, mt, h⟩ := gatewayBegun_eq s t ten lring seq
  exact ⟨_, _, mt, h⟩

theorem ten_gatewayBegun : ∃ l k, (gatewayBegun s t ten lring seq).ten ten = { s.ten ten with meters := l, stuck := k } := by
  obtain ⟨n, l, k, mt, h⟩ := gatewayBegun_eq s t ten lring seq
  refine ⟨l, k, ?_⟩
  rw [h, State.updCmd_ten_entry, State.ten_updTen_self]
  rfl

theorem gwSlots_gatewayBegun : ((gatewayBegun s t ten lring seq).ten ten).gwSlots = (s.ten ten).gwSlots := by
  obtain ⟨l, k, h⟩ := ten_gatewayBegun s t ten lring seq
  rw [h]

theorem sameBut_gatewayBegun : SameBut (ringKey ten lring) (gatewayBegun s t ten lring seq).rings s.rings ∧
    SameBut ten (gatewayBegun s t ten lring seq).tenants s.tenants := by
  obtain ⟨n, l, k, mt, h⟩ := gatewayBegun_eq s t ten lring seq
  rw [h, State.updCmd_tenants]
  exact ⟨sameBut_updCmd (State.updTen _ ten _) ten lring seq _, sameBut_updTen _ ten _⟩

theorem cmd_gatewayBegun {c : Cmd} (hc : s.cmd? ten lring seq = some c) :
    ∃ n, (gatewayBegun s t ten lring seq).cmd? ten lring seq = some { c with ops := n } := by
  obtain ⟨n, l, k, mt, h⟩ := gatewayBegun_eq s t ten lring seq
  refine ⟨c.ops + n, ?_⟩
  rw [h, State.cmd_updCmd_self, State.updTen_cmd_entry]
  · exact congrArg _ hc
  · exact fun _ => rfl

theorem out_gatewayBegun : (gatewayBegun s t ten lring seq).out = s.out := by
  obtain ⟨rs, ts, mt, h⟩ := gatewayBegun_frame s t ten lring seq
  rw [h]

end

theorem out_of_draws {s z : State} (h : Draws s z) : z.out = s.out := by
  obtain ⟨fr, d, en, rfl⟩ := h
  rfl

/-- Writing a result ends the work with what the pages allow. -/
theorem doneWriting_eq {s y : State} (hout : y.out = s.out) (h : HostView) (ten lring seq iova : Nat) (b : List Byte) :
    y.doneWriting h ten lring seq iova b (St.ok, 0) =
      State.done { y with out := writesOut s h ten iova b } ten lring seq (outResult s h ten iova b) := by
  obtain ⟨l, ok, hw⟩ := hostWrite_out h ten iova b
  unfold State.doneWriting writesOut outResult
  rw [hw y, hw s, hout]
  cases ok <;> rfl

/-- A slot that holds a valid key. -/
theorem withSlot_valid {z : State} {ten lring : Nat} {c : Cmd} {g : GwSlot} {f : State → GwSlot → State}
    (hslot : Tbl.look (z.ten ten).gwSlots c.gwSlot = some g) (hvalid : g.invalid = false) : z.withSlot ten lring c f = f z g := by
  unfold State.withSlot
  simp only [hslot, hvalid, Bool.false_eq_true, if_false]

/-! ### How an OP ends -/

/-- A gateway command answers a state in which its OP has ended with e, what was sent is o, and the tenant's slots stay. -/
def OpEnds (r : Host.Outcome State Fault Refusal) (s : State) (ten lring seq : Nat) (c : Cmd) (cells : List Nat) (o : List Out) (e : Err) : Prop :=
  ∃ s', r = .next s' ∧ s'.out = o ∧ (s'.ten ten).gwSlots = (s.ten ten).gwSlots ∧ GatewayEnds s s' ten lring seq c cells e

section

variable {s y : State} {t ten lring seq opcode op : Nat} {cells : List Nat} {draws : Bool} {c : Cmd} {f : State → Cmd → State}

/-- What has drawn values, sent something and ended the work leaves, once the cells are scrubbed. -/
theorem gatewayEnds_done {s' : State} {o : List Out} {e : Err} (hc : s.cmd? ten lring seq = some c) (hy : Draws (gatewayBegun s t ten lring seq) y)
    (hs' : s' = settled t s ((State.done { y with out := o } ten lring seq e).gatewayScrub cells)) :
    s'.out = o ∧ (s'.ten ten).gwSlots = (s.ten ten).gwSlots ∧ GatewayEnds s s' ten lring seq c cells e := by
  obtain ⟨fr, d, en, rfl⟩ := hy
  obtain ⟨n, hcmd⟩ := cmd_gatewayBegun s t ten lring seq hc
  obtain ⟨hrings, htenants⟩ := sameBut_gatewayBegun s t ten lring seq
  obtain ⟨l, k, hten⟩ := ten_gatewayBegun s t ten lring seq
  obtain ⟨rs, ts, mt, hz⟩ := gatewayBegun_frame s t ten lring seq
  generalize gatewayBegun s t ten lring seq = z at *
  have hcells : (State.done { z with free := fr, draws := d, entropy := en, out := o } ten lring seq e).cells = s.cells := by
    rw [hz]
    rfl
  rw [gatewayScrub_eq cells hcells] at hs'
  have hten' : s'.ten ten = { s.ten ten with meters := l, stuck := k } := by
    rw [hs']
    exact hten
  have hend : s'.cmd? ten lring seq = some (ended { c with ops := n } e) := by
    rw [hs']
    exact cmd_done_some (s := { z with free := fr, draws := d, entropy := en, out := o }) hcmd
  have hrings' : SameBut (ringKey ten lring) s'.rings s.rings := by
    rw [hs']
    exact sameBut_trans (sameBut_updCmd { z with free := fr, draws := d, entropy := en, out := o } ten lring seq _) hrings
  have htenants' : SameBut ten s'.tenants s.tenants := by
    rw [hs']
    exact htenants
  rw [GatewayEnds, hten']
  refine ⟨hs' ▸ rfl, rfl, ⟨n, hend⟩, hs' ▸ rfl, hrings', htenants', rfl, rfl, rfl, rfl, ?_, ?_, ?_, ?_, ?_⟩
  all_goals
    rw [hs', hz]
    rfl

section

variable (hoff : s.power.off = false) (hmay : MayRun s ten lring seq opcode op cells draws c)
include hoff hmay

omit hoff in
theorem cmd_of_mayRun : s.cmd? ten lring seq = some c := by
  obtain ⟨⟨hc, -⟩, -⟩ := hmay
  exact hc

/-- An OP that may run does its work and is scrubbed. -/
theorem run_gateway : run t s (fun s => s.gateway ten lring seq opcode op cells draws f) =
    .next (settled t s ((f (gatewayBegun s t ten lring seq) c).gatewayScrub cells)) := by
  obtain ⟨hrun, hop, hheld, hcells, hseed⟩ := hmay
  have hguard : (c.gwOp == op && !s.slotHeld ten c && s.gatewayCells cells && (!draws || (s.comb (combOf (nth0 cells 0))).seeded)) = true := by
    cases draws
    · simp [hop, hheld, hcells]
    · simp [hop, hheld, hcells, hseed rfl]
  refine run_eq hoff ?_
  unfold State.gateway
  rw [onStarted_running (s := s.advance t) hrun]
  exact if_pos hguard

/-- An OP that ends with e and sends nothing. -/
theorem opEnds_done {e : Err} (hy : Draws (gatewayBegun s t ten lring seq) y) (hf : f (gatewayBegun s t ten lring seq) c = y.done ten lring seq e) :
    OpEnds (run t s fun s => s.gateway ten lring seq opcode op cells draws f) s ten lring seq c cells s.out e := by
  refine ⟨_, run_gateway hoff hmay, gatewayEnds_done (cmd_of_mayRun hmay) hy ?_⟩
  rw [hf, ← (out_of_draws hy).trans (out_gatewayBegun s t ten lring seq)]

/-- An OP whose result b goes to IOVA_1. -/
theorem opEnds_doneWriting {h : HostView} {b : List Byte} (hy : Draws (gatewayBegun s t ten lring seq) y)
    (hf : f (gatewayBegun s t ten lring seq) c = y.doneWriting h ten lring seq (c.iova 1) b (St.ok, 0)) :
    OpEnds (run t s fun s => s.gateway ten lring seq opcode op cells draws f) s ten lring seq c cells (writesOut s h ten (c.iova 1) b)
      (outResult s h ten (c.iova 1) b) := by
  refine ⟨_, run_gateway hoff hmay, gatewayEnds_done (cmd_of_mayRun hmay) hy ?_⟩
  rw [hf, doneWriting_eq ((out_of_draws hy).trans (out_gatewayBegun s t ten lring seq))]

end

end

end Sys2Proof.Machine
end

section
/-! Settles O23 (R256, R257, R259, R260, R352, R418): encryption, and encoding before it. -/

namespace Sys2Proof.Machine

open Sys2Proof.Safety

section

variable {s : State} {t ten lring seq : Nat} {cells : List Nat} {h : HostView} {c : Cmd} {g : GwSlot} {b : List Byte}
  (hoff : s.power.off = false) (hslot : Tbl.look (s.ten ten).gwSlots c.gwSlot = some g) (hvalid : g.invalid = false)
  (hlimbs : c.limbs ≤ g.modtab.lCount) (hroom : c.cipherBytes g.modtab.logN ≤ c.len 1)
include hoff hslot hvalid hlimbs hroom

theorem encryptPlaintext_ends (hmay : MayRun s ten lring seq 0x20 1 cells true c) (hlen : c.len 0 = 4 * c.limbs * 2 ^ g.modtab.logN)
    (hread : hostRead h ten (c.iova 0) (c.len 0) = some b) :
    let out := ((gatewayBegun s t ten lring seq).encryption c g (limbsOf c.limbs g.modtab.logN b)).1
    OpEnds (exec (.encryptPlaintext t ten lring seq cells h) s) s ten lring seq c cells (writesOut s h ten (c.iova 1) out)
      (outResult s h ten (c.iova 1) out) := by
  obtain rfl := State.cmd_seq (cmd_of_mayRun hmay)
  rw [← gwSlots_gatewayBegun s t ten lring c.seq] at hslot
  rw [exec_encryptPlaintext]
  refine opEnds_doneWriting hoff hmay (draws_encryption _ c g (limbsOf c.limbs g.modtab.logN b)) ?_
  dsimp only
  rw [withSlot_valid hslot hvalid, if_neg (Nat.not_lt.2 hlimbs), if_neg (not_not_intro hlen), if_neg (Nat.not_lt.2 hroom), hread]
  rfl

section

variable (hmay : MayRun s ten lring seq 0x20 0 cells true c) (hcount : c.count ≤ c.countMax g.modtab.logN)
  (hlen : c.count * formatBytes c.format ≤ c.len 0) (hread : hostRead h ten (c.iova 0) (c.count * formatBytes c.format) = some b)
include hmay hcount hlen hread

theorem encodeAndEncrypt_refused {e : Err} (he : ((gatewayBegun s t ten lring seq).encode c g.modtab.logN b).1 = .error e) :
    OpEnds (exec (.encodeAndEncrypt t ten lring seq cells h) s) s ten lring seq c cells s.out e := by
  rw [← gwSlots_gatewayBegun s t ten lring seq] at hslot
  rw [exec_encodeAndEncrypt]
  refine opEnds_done hoff hmay (draws_encode _ c g.modtab.logN b) ?_
  dsimp only
  rw [withSlot_valid hslot hvalid, if_neg (Nat.not_lt.2 hlimbs), if_neg (Nat.not_lt.2 hcount), if_neg (Nat.not_lt.2 hlen),
    if_neg (Nat.not_lt.2 hroom), hread]
  simp only [he]

theorem encodeAndEncrypt_ends {p : List Int} (hp : ((gatewayBegun s t ten lring seq).encode c g.modtab.logN b).1 = .ok p) :
    let q := ((gatewayBegun s t ten lring seq).encode c g.modtab.logN b).2.mapLimbs g.modtab
      (fun _ e l => nttForward e g.modtab.logN g.modtab.logN l) 0 (polyLimbs g.modtab c.limbs p)
    let out := (q.2.encryption c g q.1).1
    OpEnds (exec (.encodeAndEncrypt t ten lring seq cells h) s) s ten lring seq c cells (writesOut s h ten (c.iova 1) out)
      (outResult s h ten (c.iova 1) out) := by
  obtain rfl := State.cmd_seq (cmd_of_mayRun hmay)
  rw [← gwSlots_gatewayBegun s t ten lring c.seq] at hslot
  rw [exec_encodeAndEncrypt]
  intro q out
  refine opEnds_doneWriting (y := (q.2.encryption c g q.1).2) hoff hmay
    (draws_trans (draws_trans (draws_encode ..) (draws_mapLimbs ..)) (draws_encryption ..)) ?_
  dsimp only
  rw [withSlot_valid hslot hvalid, if_neg (Nat.not_lt.2 hlimbs), if_neg (Nat.not_lt.2 hcount), if_neg (Nat.not_lt.2 hlen),
    if_neg (Nat.not_lt.2 hroom), hread]
  simp only [hp]
  rfl

end

end

/-- Settles O23: past its checks each OP writes the encryption of its limbs, or ends with the encoding's refusal. -/
theorem gatewayEncrypts : Obligations.GatewayEncrypts := by
  intro t ten lring seq cells h c g b s hoff hslot hvalid hlimbs hroom
  exact ⟨encryptPlaintext_ends hoff hslot hvalid hlimbs hroom, fun hmay hcount hlen hread =>
    ⟨fun _ => encodeAndEncrypt_refused hoff hslot hvalid hlimbs hroom hmay hcount hlen hread,
      fun _ => encodeAndEncrypt_ends hoff hslot hvalid hlimbs hroom hmay hcount hlen hread⟩⟩

end Sys2Proof.Machine
end

section
/-! Settles O24 (R256, R257, R261, R352, R418): decryption, and decoding after it. -/

namespace Sys2Proof.Machine

open Sys2Proof.Safety

/-! ### The shape of a ciphertext -/

section

variable {z : State} {h : HostView} {ten lring : Nat} {c : Cmd} {g : GwSlot} {n : Nat} {f : State → List (List Nat) → List Byte × State}

theorem decrypting_misshapen (hshape : g.modtab.lCount < c.limbs ∨ c.len 0 ≠ c.cipherBytes g.modtab.logN) :
    z.decrypting h ten lring c g n f = z.done ten lring c.seq (St.outOfPolicy, 0) := if_pos hshape

theorem decrypting_writes {b : List Byte} (hlimbs : c.limbs ≤ g.modtab.lCount) (hlen : c.len 0 = c.cipherBytes g.modtab.logN) (hroom : n ≤ c.len 1)
    (hread : hostRead h ten (c.iova 0) (c.len 0) = some b) :
    let o := f (z.decryptLimbs c g b).2 (z.decryptLimbs c g b).1
    z.decrypting h ten lring c g n f = o.2.doneWriting h ten lring c.seq (c.iova 1) o.1 (St.ok, 0) := by
  have hshape : ¬ (g.modtab.lCount < c.limbs ∨ c.len 0 ≠ c.cipherBytes g.modtab.logN) := by
    rw [not_or]
    exact ⟨Nat.not_lt.2 hlimbs, not_not_intro hlen⟩
  unfold State.decrypting
  dsimp only
  rw [if_neg hshape, if_neg (Nat.not_lt.2 hroom), hread]

end

/-! ### The commands -/

section

variable {s : State} {t ten lring seq : Nat} {cells : List Nat} {h : HostView} {c : Cmd} {g : GwSlot}
  (hoff : s.power.off = false) (hslot : Tbl.look (s.ten ten).gwSlots c.gwSlot = some g) (hvalid : g.invalid = false)
include hoff hslot hvalid

theorem decryptToPlaintext_misshapen (hmay : MayRun s ten lring seq 0x21 1 cells false c)
    (hshape : g.modtab.lCount < c.limbs ∨ c.len 0 ≠ c.cipherBytes g.modtab.logN) :
    OpEnds (exec (.decryptToPlaintext t ten lring seq cells h) s) s ten lring seq c cells s.out (St.outOfPolicy, 0) := by
  obtain rfl := State.cmd_seq (cmd_of_mayRun hmay)
  rw [← gwSlots_gatewayBegun s t ten lring c.seq] at hslot
  rw [exec_decryptToPlaintext]
  refine opEnds_done hoff hmay (draws_refl _) ?_
  rw [withSlot_valid hslot hvalid]
  exact decrypting_misshapen hshape

section

variable {b : List Byte} (hlimbs : c.limbs ≤ g.modtab.lCount) (hlen : c.len 0 = c.cipherBytes g.modtab.logN)
  (hread : hostRead h ten (c.iova 0) (c.len 0) = some b)
include hlimbs hlen hread

theorem decryptToPlaintext_ends (hmay : MayRun s ten lring seq 0x21 1 cells false c) (hroom : 4 * c.limbs * 2 ^ g.modtab.logN ≤ c.len 1) :
    let out := limbBytes ((gatewayBegun s t ten lring seq).decryptLimbs c g b).1
    OpEnds (exec (.decryptToPlaintext t ten lring seq cells h) s) s ten lring seq c cells (writesOut s h ten (c.iova 1) out)
      (outResult s h ten (c.iova 1) out) := by
  obtain rfl := State.cmd_seq (cmd_of_mayRun hmay)
  rw [← gwSlots_gatewayBegun s t ten lring c.seq] at hslot
  rw [exec_decryptToPlaintext]
  refine opEnds_doneWriting hoff hmay (draws_decryptLimbs _ c g b) ?_
  rw [withSlot_valid hslot hvalid]
  exact decrypting_writes hlimbs hlen hroom hread

theorem decryptAndDecode_ends (hmay : MayRun s ten lring seq 0x21 0 cells false c) (hcount : c.count ≤ c.countMax g.modtab.logN)
    (hroom : c.count * formatBytes c.format ≤ c.len 1)
    (hroot : c.scheme = 0 ∨ c.format ≠ 2 ∨ squarings c.plainT g.modtab.logN c.plainRoot = c.plainT - 1) :
    let d := (gatewayBegun s t ten lring seq).decryptLimbs c g b
    let x := d.2.mapLimbs g.modtab (fun _ e l => nttInverse e g.modtab.logN g.modtab.logN l) 0 d.1
    let m := x.2.liftLimbs g.modtab c.limbs x.1
    let out := (m.2.decode c g.modtab m.1).1
    OpEnds (exec (.decryptAndDecode t ten lring seq cells h) s) s ten lring seq c cells (writesOut s h ten (c.iova 1) out)
      (outResult s h ten (c.iova 1) out) := by
  have hrefused : ¬ (c.scheme ≠ 0 ∧ c.format = 2 ∧ squarings c.plainT g.modtab.logN c.plainRoot ≠ c.plainT - 1) := by
    rintro ⟨hscheme, hformat, hbad⟩
    exact hroot.elim hscheme fun h => h.elim (· hformat) hbad
  obtain rfl := State.cmd_seq (cmd_of_mayRun hmay)
  rw [← gwSlots_gatewayBegun s t ten lring c.seq] at hslot
  rw [exec_decryptAndDecode]
  intro d x m out
  refine opEnds_doneWriting (y := (m.2.decode c g.modtab m.1).2) hoff hmay
    (draws_trans (draws_trans (draws_trans (draws_decryptLimbs ..) (draws_mapLimbs ..)) (draws_liftLimbs ..)) (draws_decode ..)) ?_
  dsimp only
  rw [withSlot_valid hslot hvalid, if_neg (Nat.not_lt.2 hcount), if_neg hrefused]
  exact decrypting_writes hlimbs hlen hroom hread

end

end

/-- Settles O24: a ciphertext of another shape is refused; one of the slot's shape is decrypted, and decoded, and written. -/
theorem gatewayDecrypts : Obligations.GatewayDecrypts := by
  intro t ten lring seq cells h c g b s hoff hslot hvalid
  exact ⟨decryptToPlaintext_misshapen hoff hslot hvalid, fun hlimbs hlen hread =>
    ⟨decryptToPlaintext_ends hoff hslot hvalid hlimbs hlen hread, decryptAndDecode_ends hoff hslot hvalid hlimbs hlen hread⟩⟩

end Sys2Proof.Machine
end

section
/-! Settles O48 (R262, R275, R289 to R293): samples and the health tests, the seeds of the DRBG and of the noise samplers, and the end of ephemeral keys. -/

namespace Sys2Proof.Machine

open Sys2Proof.Safety

/-- A command whose effect is a change of one tenant's objects. -/
theorem updTen_settles (s : State) (t k : Nat) (f : Tenant → Tenant) :
    OnlyTenant s (settled t s ((s.advance t).updTen k f)) t k ∧ (settled t s ((s.advance t).updTen k f)).ten k = f (s.ten k) :=
  ⟨⟨rfl, sameBut_updTen (s.advance t) k f⟩, State.ten_updTen_self (s.advance t) k f⟩

/-! ### One sample (R289) -/

/-- What makes a source fail when a test fails on it: fifteen failures within the last second before this one, or two of the start-up test. -/
def Entropy.atLimit (e : Entropy) (now : Nat) : Prop :=
  15 ≤ (e.failTimes.filter fun f => decide (now < f + sec)).length ∨ (e.startupOk = false ∧ 2 ≤ e.startupFails)

section

variable {e : Entropy} {x : Byte} (now : Nat)

theorem sample_of_failed (hf : e.failed = true) : e.sample now x = e := if_pos hf

theorem sample_passes (hf : e.failed = false) (hr : ¬ RepeatsTooLong e x) (hp : ¬ ProportionTooHigh e x) : e.sample now x = e.testPassed x := by
  have hrct : decide (rctCutoff ≤ e.nextRun x) = false := decide_eq_false hr
  have hapt : decide (aptCutoff ≤ e.nextRepeats x) = false := decide_eq_false hp
  simp only [Entropy.sample, hf, hrct, hapt, Bool.or_false, Bool.false_eq_true, if_false]

theorem sample_fails (hf : e.failed = false) (h : RepeatsTooLong e x ∨ ProportionTooHigh e x) :
    e.sample now x = e.testFailed now (decide (rctCutoff ≤ e.nextRun x)) (decide (aptCutoff ≤ e.nextRepeats x)) := by
  have hany : (decide (rctCutoff ≤ e.nextRun x) || decide (aptCutoff ≤ e.nextRepeats x)) = true := by
    rw [Bool.or_eq_true, decide_eq_true_eq, decide_eq_true_eq]
    exact h
  simp only [Entropy.sample, hf, hany, Bool.false_eq_true, if_false, if_true]

/-- The start-up test has passed with the 1,024th sample in a row that passes. -/
theorem testPassed_startupOk : (e.testPassed x).startupOk = (e.startupOk || decide (1024 ≤ e.startupCount + 1)) := by
  cases h : e.startupOk <;> simp [Entropy.testPassed, h, aptWindow]

/-- A failed test: the credit and the tests' progress are gone, the failure is marked and counted, and the source fails at a limit. -/
theorem testFailed_eq (rct apt : Bool) (hf : e.failed = false) : ∃ f ev, (f = true ↔ e.atLimit now) ∧ e.testFailed now rct apt = { e with
    failed := f, evFailed := ev, poolMilli := 0, evRct := e.evRct || rct, evApt := e.evApt || apt, evStartup := e.evStartup || !e.startupOk
    rctFails := capAt 0xFFFF (e.rctFails + b2n rct), aptFails := capAt 0xFFFF (e.aptFails + b2n apt), startupCount := 0
    startupFails := if e.startupOk then e.startupFails else e.startupFails + 1
    last := none, runLen := 0, winCount := 0, winRepeats := 0, failTimes := e.recentFails now } := by
  have hlimit : (16 ≤ (e.recentFails now).length ∨ (!e.startupOk) = true ∧ 3 ≤ if e.startupOk = true then e.startupFails else e.startupFails + 1) ↔
      e.atLimit now := by
    cases hok : e.startupOk <;> simp [Entropy.atLimit, Entropy.recentFails, hok]
  by_cases h : e.atLimit now
  · exact ⟨true, true, by simp [h], if_pos (hlimit.2 h)⟩
  · exact ⟨false, e.evFailed, by simp [h], hf ▸ if_neg (mt hlimit.1 h)⟩

end

/-- ENTROPY_SAMPLE changes the entropy source only. -/
theorem exec_entropySample_next {s : State} (hoff : s.power.off = false) (t : Nat) (x : Byte) :
    exec (.entropySample t x) s = .next { s with now := max s.now t, entropy := s.entropy.sample (max s.now t) x } := by
  rw [exec_entropySample]
  exact run_next hoff

theorem entropySample_result {s : State} (hoff : s.power.off = false) (t : Nat) (x : Byte) :
    let e := s.entropy
    ∃ s', exec (.entropySample t x) s = .next s' ∧ s' = { s with now := max s.now t, entropy := s'.entropy } ∧
      (e.failed = true → s'.entropy = e) ∧
      (e.failed = false → ¬ RepeatsTooLong e x → ¬ ProportionTooHigh e x → s'.entropy = e.testPassed x) ∧
      (e.failed = false → RepeatsTooLong e x ∨ ProportionTooHigh e x →
        s'.entropy = e.testFailed (max s.now t) (decide (rctCutoff ≤ e.nextRun x)) (decide (aptCutoff ≤ e.nextRepeats x))) :=
  ⟨_, exec_entropySample_next hoff t x, rfl, sample_of_failed _, sample_passes _, sample_fails _⟩

/-! ### The DRBG (R290, R291, R293) -/

section

variable {s : State} (hoff : s.power.off = false) (t : Nat)
include hoff

theorem exec_drbgSeeded_next (hlive : s.entropy.failed = false) (hfull : 384000 ≤ s.entropy.poolMilli) (hseed : s.entropy.seeded = false)
    (hok : s.entropy.startupOk = true) :
    exec (.drbgSeeded t) s = .next { s with now := max s.now t, entropy := { s.entropy with
      seeded := true, seedTime := max s.now t, poolMilli := 0, requests := 0, reseeding := false } } := by
  have hguard : (!s.entropy.seeded && !s.entropy.failed && s.entropy.startupOk && decide (poolFull ≤ s.entropy.poolMilli)) = true := by
    simp [hlive, hseed, hok, poolFull, hfull]
  rw [exec_drbgSeeded]
  exact run_eq hoff (if_pos hguard)

theorem exec_drbgReseed_next (hlive : s.entropy.failed = false) (hfull : 384000 ≤ s.entropy.poolMilli) (hseed : s.entropy.seeded = true)
    (hdue : s.entropy.reseeding = true) :
    exec (.drbgReseed t) s = .next { s with now := max s.now t, entropy := { s.entropy with poolMilli := 0, requests := 0, reseeding := false } } := by
  have hguard : (s.entropy.seeded && s.entropy.reseeding && !s.entropy.failed && decide (poolFull ≤ s.entropy.poolMilli)) = true := by
    simp [hlive, hseed, hdue, poolFull, hfull]
  rw [exec_drbgReseed]
  exact run_eq hoff (if_pos hguard)

theorem exec_drbgReseed_failed (hf : s.entropy.failed = true) : exec (.drbgReseed t) s = .next (s.advance t) := by
  have hguard : (s.entropy.seeded && s.entropy.reseeding && !s.entropy.failed && decide (poolFull ≤ s.entropy.poolMilli)) ≠ true := by
    simp [hf]
  rw [exec_drbgReseed]
  exact run_eq (z := s.advance t) hoff (if_neg hguard)

/-! ### Noise samplers and ephemeral keys (R262, R275) -/

/-- NOISE_RESEED of a sampler that wants a seed, when the DRBG can serve. -/
theorem exec_noiseReseed_next {c : Nat} (hc : c < 4) (hready : s.power.phase = .ready) (hserve : s.canServe = true)
    (hwant : (s.comb c).seeded = false ∨ 2 ^ 30 ≤ (s.comb c).drawn ∨ (s.comb c).seededAt + 1000000000 ≤ max s.now t) :
    exec (.noiseReseed t c) s = .next (settled t s (({ s.advance t with entropy := s.entropy.request, draws := s.draws + 1 } : State).updComb c
      fun k => { k with seeded := true, seededAt := max s.now t, drawn := 0 })) := by
  have hneed : (!(s.comb c).seeded || decide (samplerBytes ≤ (s.comb c).drawn) || decide ((s.comb c).seededAt + sec ≤ max s.now t)) = true := by
    rw [Bool.or_eq_true, Bool.or_eq_true, decide_eq_true_eq, decide_eq_true_eq, Bool.not_eq_true', or_assoc]
    exact hwant
  have hguard : (decide (c < 4) && s.power.phase.combsOn && s.canServe &&
      (!(s.comb c).seeded || decide (samplerBytes ≤ (s.comb c).drawn) || decide ((s.comb c).seededAt + sec ≤ max s.now t))) = true := by
    rw [hneed, hserve, hready, decide_eq_true hc]
    rfl
  rw [exec_noiseReseed]
  exact run_eq hoff (if_pos hguard)

/-- EPH_KEY_EXPIRE drops the key that it names, where its time has come. -/
theorem exec_ephKeyExpire_next (ten id : Nat) :
    exec (.ephKeyExpire t ten id) s = .next (settled t s ((s.advance t).updTen ten fun x =>
      { x with ephs := x.ephs.filter fun k => !(k.id == id && decide (k.expires ≤ max s.now t)) })) := by
  rw [exec_ephKeyExpire]
  exact run_next hoff

end

/-- Settles O48: a sample passes or fails the two tests, and each other command acts where its guard holds. -/
theorem entropyAndSeeds : Obligations.EntropyAndSeeds := by
  refine ⟨fun t x s hoff => ?sample, fun t s hoff hlive hfull => ⟨exec_drbgSeeded_next hoff t hlive hfull, exec_drbgReseed_next hoff t hlive hfull⟩,
    fun t s hoff hf => ⟨_, exec_drbgReseed_failed hoff t hf, rfl⟩, fun t c s hoff hc hready hseed hidle hwant => ?noise, fun t ten id s hoff => ?expire⟩
  case sample =>
    obtain ⟨s', hexec, hframe, hfailed, hpass, hfail⟩ := entropySample_result hoff t x
    refine ⟨s', hexec, hframe, hfailed, fun hlive hr hp => ?_, fun hlive h => ?_⟩
    · rw [hpass hlive hr hp]
      exact ⟨rfl, rfl, rfl, testPassed_startupOk, rfl⟩
    · obtain ⟨f, ev, hlimit, heq⟩ := testFailed_eq (max s.now t) (decide (rctCutoff ≤ s.entropy.nextRun x)) (decide (aptCutoff ≤ s.entropy.nextRepeats x)) hlive
      rw [hfail hlive h, heq]
      refine ⟨rfl, rfl, fun hok => by simp [hok], ?_, ?_, fun hr => ?_, fun hp => ?_, hlimit, rfl, rfl, rfl⟩
      · rw [Bool.or_eq_true, decide_eq_true_eq]; rfl
      · rw [Bool.or_eq_true, decide_eq_true_eq]; rfl
      · rw [show decide (rctCutoff ≤ s.entropy.nextRun x) = true from decide_eq_true hr]; rfl
      · rw [show decide (aptCutoff ≤ s.entropy.nextRepeats x) = true from decide_eq_true hp]; rfl
  case noise =>
    have hserve : s.canServe = true := by rw [State.canServe, hseed, hidle]; rfl
    have hreq : s.entropy.request = { s.entropy with requests := s.entropy.requests + 1, reseeding := decide (2 ^ 20 ≤ s.entropy.requests + 1) } := by
      rw [Entropy.request, hidle, Bool.false_or]
      rfl
    refine ⟨_, exec_noiseReseed_next hoff t hc hready hserve hwant, ?_, ?_, ?_⟩
    · rw [hreq]
      rfl
    · rw [settled_comb, State.comb_updComb_self]
      rfl
    · rw [settled_combs]
      exact sameBut_updComb _ c _
  case expire =>
    obtain ⟨honly, hten⟩ := updTen_settles s t ten fun x => { x with ephs := x.ephs.filter fun k => !(k.id == id && decide (k.expires ≤ max s.now t)) }
    refine ⟨_, exec_ephKeyExpire_next hoff t ten id, honly, ?_, fun k => ?_⟩
    · rw [hten]
    · rw [hten, List.mem_filter, Bool.not_eq_true', ← Bool.not_eq_true, Bool.and_eq_true, beq_iff_eq, decide_eq_true_eq]

end Sys2Proof.Machine
end

section
/-! Settles O10 (R102, R292): a command that needs randomness or a completion position and gets none, and what becomes of the held ones. -/

namespace Sys2Proof.Machine

open Sys2Proof.Safety

/-! ### Held, or without a position -/

section

variable {t ten lring seq : Nat} {h : HostView} {row : Instr × Nat × (State → Cmd → Option Err) × (State → Cmd → Bool) × (State → Nat)}
  (hrow : row ∈ startRows t ten lring seq h) {s : State} {c : Cmd}
include hrow

/-- Neither a command's need for randomness nor its positions depend on the time. -/
theorem startRow_needs_advance (n : Nat) :
    row.2.2.2.1 (s.advance n) c = row.2.2.2.1 s c ∧ row.2.2.2.2 (s.advance n) = row.2.2.2.2 s := by
  simp only [startRows, List.mem_cons, List.not_mem_nil, or_false] at hrow
  rcases hrow with rfl | rfl | rfl | rfl | rfl | rfl | rfl | rfl | rfl | rfl | rfl | rfl <;> exact ⟨rfl, rfl⟩

variable (hsound : commonFault c.entry c.seq = none) (hcheck : row.2.2.1 s c = none)
include hsound hcheck

/-- No check stands in the way of a command that is right, now or later. -/
theorem startRow_passes (n : Nat) : ((commonFault c.entry c.seq).orElse fun _ => row.2.2.1 (s.advance n) c) = none := by
  rw [hsound, startRow_check_advance hrow]
  exact hcheck

variable (hoff : s.power.off = false) (hw : Waits s ten lring seq row.2.1 c) (hgo : (s.ring ten lring).afterGate c = .go)
include hoff hw hgo

theorem startRow_held (hneeds : row.2.2.2.1 s c = true) (hserve : s.canServe = false) :
    exec row.1 s = .next (settled t s ((s.advance t).updCmd ten lring seq fun c => { c with phase := .held (max s.now t) })) := by
  obtain ⟨-, -, -, -, -, -, hown⟩ := id hw
  obtain ⟨start, hexec⟩ := exec_startRow hrow hoff hown
  obtain ⟨hneeds', -⟩ := startRow_needs_advance (s := s) (c := c) hrow t
  rw [hexec, tryStart_held (waits_advance hw) hgo (startRow_passes hrow hsound hcheck t) (hneeds'.trans hneeds) hserve]
  rfl

theorem startRow_full (hserve : row.2.2.2.1 s c = false ∨ s.canServe = true) (hfull : (s.ring ten lring).freePositions < row.2.2.2.2 s) :
    exec row.1 s = .next (settled t s ((s.advance t).updRing ten lring fun r => { r with cplFull := true })) := by
  obtain ⟨-, -, -, -, -, -, hown⟩ := id hw
  obtain ⟨start, hexec⟩ := exec_startRow hrow hoff hown
  obtain ⟨hneeds, hpositions⟩ := startRow_needs_advance (s := s) (c := c) hrow t
  rw [hexec, tryStart_full (waits_advance hw) hgo (startRow_passes hrow hsound hcheck t) (hserve.imp_left hneeds.trans) (hpositions ▸ hfull)]

end

/-! ### The end of a hold (R292) -/

theorem exec_entropyHoldExpire_next {s : State} (hoff : s.power.off = false) (t : Nat) {ten lring seq since : Nat} {c : Cmd}
    (hc : s.cmd? ten lring seq = some c) (hheld : c.phase = .held since)
    (hlong : since + 100000000 ≤ max s.now t) (hserve : s.canServe = false) :
    exec (.entropyHoldExpire t ten lring seq) s = .next (settled t s
      (State.finish { s.advance t with entropy := { s.entropy with evHold := true } } ten lring seq (St.entropyPending, 0))) := by
  have hc' : (s.advance t).cmd? ten lring seq = some c := hc
  have hguard : (decide (since + 100 * msec ≤ (s.advance t).now) && !(s.advance t).canServe) = true := by
    rw [Bool.and_eq_true, decide_eq_true_eq, Bool.not_eq_true']
    exact ⟨hlong, hserve⟩
  rw [exec_entropyHoldExpire]
  refine run_eq hoff ?_
  simp only [hc', hheld]
  exact if_pos hguard

/-- Settles O10: past its checks a command is held or finds its ring full; the held ones are released together, or end one by one after 100 ms. -/
theorem randomnessAndSpaceHolds : Obligations.RandomnessAndSpaceHolds := by
  refine ⟨fun t ten lring seq h c s row hrow hoff hw hgo hsound hcheck => ⟨fun hneeds hserve => ?held, fun hserve hfull => ?full⟩,
    fun t ten lring seq since c s hoff => ⟨fun hserve => ?release, fun hc hheld hlong hserve => ?expire⟩⟩
  case held =>
    obtain ⟨hc, -⟩ := id hw
    refine ⟨_, startRow_held hrow hsound hcheck hoff hw hgo hneeds hserve, onlyRing_settled (ringStep_updCmd ..), ?_, ?_⟩
    · rw [settled_cmd, State.cmd_updCmd_self, State.advance_cmd_entry, hc]
      · rfl
      · exact fun _ => rfl
    · rw [settled_ring, State.ring_updCmd_self]
      rfl
  case full =>
    exact ⟨_, startRow_full hrow hsound hcheck hoff hw hgo hserve hfull, onlyRing_settled (ringStep_updRing ..),
      State.ring_updRing_self (s.advance t) ten lring fun r => { r with cplFull := true }⟩
  case release =>
    rw [exec_heldCommandRelease]
    refine (run_eq hoff (if_pos hserve)).trans (congrArg (fun f : Cmd → Cmd => Host.Outcome.next { s with
      now := max s.now t, rings := s.rings.map fun r : Nat × Ring => (r.1, { r.2 with cmds := r.2.cmds.map f }) }) (funext fun c => ?_))
    generalize c.phase = p
    cases p <;> rfl
  case expire =>
    exact ⟨_, exec_entropyHoldExpire_next hoff t hc hheld hlong hserve, rfl, sameBut_updCmd (s.advance t) ten lring seq _,
      cmd_finish_some (s := s.advance t) hc⟩

end Sys2Proof.Machine
end

section
/-! For O26, O27 and O28 (R281 to R284, R418): how an operation of the public-key engine runs, and what it leaves when it has ended. -/

namespace Sys2Proof.Machine

open Sys2Proof.Safety

/-! ### What an operation may change -/

/-- From s to z nothing has changed but free and random values, what was sent, the security counters, and the key slots and ephemeral keys of one tenant. -/
def PkStep (s z : State) (ten : Nat) : Prop :=
  (∃ ts fr d en o sc, z = { s with tenants := ts, free := fr, draws := d, entropy := en, out := o, sec := sc }) ∧
  SameBut ten z.tenants s.tenants ∧ z.ten ten = { s.ten ten with keySlots := (z.ten ten).keySlots, ephs := (z.ten ten).ephs }

/-- A change of a tenant's objects that reaches its key slots and ephemeral keys only. -/
def KeysOnly (f : Tenant → Tenant) : Prop := ∀ x, f x = { x with keySlots := (f x).keySlots, ephs := (f x).ephs }

section

variable {s z : State} {ten : Nat}

/-- Drawing values leaves every tenant. -/
theorem pkStep_of_draws (h : Draws s z) : PkStep s z ten := by
  obtain ⟨fr, d, en, rfl⟩ := h
  exact ⟨⟨_, _, _, _, _, _, rfl⟩, sameBut_refl ten s.tenants, rfl⟩

theorem secAndTen_of_draws (h : Draws s z) : z.sec = s.sec ∧ z.ten ten = s.ten ten := by
  obtain ⟨fr, d, en, rfl⟩ := h
  exact ⟨rfl, rfl⟩

theorem pkStep_out (h : PkStep s z ten) (o : List Out) : PkStep s { z with out := o } ten := by
  obtain ⟨⟨ts, fr, d, en, _, sc, rfl⟩, htenants, hten⟩ := h
  exact ⟨⟨_, _, _, _, _, _, rfl⟩, htenants, hten⟩

theorem pkStep_updTen (h : PkStep s z ten) {f : Tenant → Tenant} (hf : KeysOnly f) : PkStep s (z.updTen ten f) ten := by
  obtain ⟨⟨ts, fr, d, en, o, sc, rfl⟩, htenants, hten⟩ := h
  refine ⟨⟨_, _, _, _, _, _, rfl⟩, sameBut_trans (sameBut_updTen _ ten f) htenants, ?_⟩
  rw [State.ten_updTen_self, hf, hten]

theorem pkStep_count (s : State) (ten : Nat) (sc : Security) : PkStep s { s with sec := sc } ten :=
  ⟨⟨_, _, _, _, _, _, rfl⟩, sameBut_refl ten s.tenants, rfl⟩

end

theorem capAt_eq_min (lim v : Nat) : capAt lim v = min lim v := (min_def v lim).symm.trans (min_comm v lim)

/-! ### The run of an operation, and its end -/

/-- An operation that writes b to OUT and where the pages allow it changes its tenant's keys by f. -/
def State.doneStoring (s : State) (h : HostView) (ten lring seq iova : Nat) (b : List Byte) (f : Tenant → Tenant) : State :=
  let w := s.hostWrite h ten iova b
  if w.2 then (w.1.updTen ten f).done ten lring seq (St.ok, 0)
  else (w.1.emit (.dmaUndefined ten iova b.length)).done ten lring seq (St.translationFault, 0)

section

variable {s y : State} {t ten lring seq : Nat} {c : Cmd}

theorem cmd_of_mayPk {op : Nat} {b : List Byte} (hmay : MayPk s ten lring seq op b c) : s.cmd? ten lring seq = some c := by
  obtain ⟨⟨hc, -⟩, -⟩ := hmay
  exact hc

/-- An operation that may run does its work on the state at its time. -/
theorem run_pke {op : Nat} {b : List Byte} {f : State → Cmd → State} (hoff : s.power.off = false) (hmay : MayPk s ten lring seq op b c) :
    run t s (fun s => s.pke ten lring seq op f) = .next (settled t s (f (s.advance t) c)) := by
  obtain ⟨hrun, rfl, hlen, hop, hheld⟩ := hmay
  have hheld' : (s.advance t).pkSlotHeld ten c = false := hheld
  refine run_eq hoff ?_
  unfold State.pke
  rw [onStarted_running (s := s.advance t) hrun]
  simp [hlen, hop, hheld']

variable (hc : s.cmd? ten lring seq = some c)
include hc

/-- An operation that ends with e. -/
theorem pkEnds_done (hy : PkStep (s.advance t) y ten) (e : Err) : PkEnds s (settled t s (y.done ten lring seq e)) t ten lring seq c e := by
  obtain ⟨⟨ts, fr, d, en, o, sc, rfl⟩, htenants, hten⟩ := hy
  exact ⟨cmd_done_some (s := { s.advance t with tenants := ts, free := fr, draws := d, entropy := en, out := o, sec := sc }) hc,
    sameBut_updCmd (s.advance t) ten lring seq _, htenants, hten, rfl⟩

/-- An operation that ends with e and has changed nothing but the counters. -/
theorem pkSays_done (sc : Security) (e : Err) :
    PkSays s (settled t s (State.done { s.advance t with sec := sc } ten lring seq e)) t ten lring seq c e :=
  ⟨pkEnds_done hc (pkStep_count (s.advance t) ten sc) e, rfl, rfl⟩

theorem pointRejected_done :
    PointRejected s (settled t s ((s.advance t).rejectPoint.done ten lring seq (St.pointNotOnCurve, 0))) t ten lring seq c :=
  ⟨pkSays_done hc .., congrArg (fun n => { s.sec with pointRej := n }) (capAt_eq_min ..)⟩

/-- An operation that changes its tenant's keys by f. -/
theorem pkEnds_updTen {f : Tenant → Tenant} (hf : KeysOnly f) :
    let s' := settled t s (((s.advance t).updTen ten f).done ten lring seq (St.ok, 0))
    PkEnds s s' t ten lring seq c (St.ok, 0) ∧ s'.out = s.out ∧ s'.sec = s.sec ∧ s'.ten ten = f (s.ten ten) :=
  ⟨pkEnds_done hc (pkStep_updTen (pkStep_of_draws (draws_refl _)) hf) _, rfl, rfl, State.ten_updTen_self (s.advance t) ten f⟩

/-- An operation whose result b goes to OUT. -/
theorem pkWrites_doneWriting (hy : Draws (s.advance t) y) (h : HostView) (b : List Byte) :
    PkWrites s (settled t s (y.doneWriting h ten lring seq (pkOutIova c.block) b (St.ok, 0))) h t ten lring seq c b := by
  have hout : y.out = s.out := (out_of_draws hy :)
  obtain ⟨hsec, hten⟩ := secAndTen_of_draws (ten := ten) hy
  rw [doneWriting_eq hout]
  exact ⟨pkEnds_done hc (pkStep_out (pkStep_of_draws hy) _) _, rfl, hten, hsec⟩

/-- An operation whose result b goes to OUT and that then makes a key. -/
theorem pkEnds_doneStoring (hy : Draws (s.advance t) y) (h : HostView) (b : List Byte) {f : Tenant → Tenant} (hf : KeysOnly f) :
    let s' := settled t s (y.doneStoring h ten lring seq (pkOutIova c.block) b f)
    PkEnds s s' t ten lring seq c (outResult s h ten (pkOutIova c.block) b) ∧ s'.out = writesOut s h ten (pkOutIova c.block) b ∧ s'.sec = s.sec ∧
      s'.ten ten = if (s.hostWrite h ten (pkOutIova c.block) b).2 then f (s.ten ten) else s.ten ten := by
  obtain ⟨l, ok, hwrite⟩ := hostWrite_out h ten (pkOutIova c.block) b
  have hout : y.out = s.out := (out_of_draws hy :)
  have hstep : PkStep (s.advance t) y ten := pkStep_of_draws hy
  obtain ⟨hsec, hten⟩ := secAndTen_of_draws (ten := ten) hy
  unfold State.doneStoring outResult writesOut
  rw [hwrite y, hwrite s, hout]
  cases ok
  · exact ⟨pkEnds_done hc (pkStep_out hstep _) _, rfl, hsec, hten⟩
  · exact ⟨pkEnds_done hc (pkStep_updTen (pkStep_out hstep _) hf) _, rfl, hsec, (State.ten_updTen_self _ ten f).trans (congrArg f hten)⟩

end

end Sys2Proof.Machine
end

section
/-! Settles O26 (R281 to R283, R285, R286, R294, R418): signatures that the engine makes and judges. -/

namespace Sys2Proof.Machine

open Sys2Proof.Safety

/-! ### Scalars (R283) -/

/-- Each curve's order is more than one, and fits the length of its scalars. -/
theorem curve_order (alg : Nat) : 1 < (curve alg).n ∧ (curve alg).n ≤ 256 ^ privLen alg := by
  unfold curve privLen
  split
  · decide
  · decide

/-- A scalar drawn for an order lies in [1, n - 1]. -/
theorem drawn_range {n : Nat} (hn : 1 < n) (r : Nat) : 1 ≤ 1 + r % (n - 1) ∧ 1 + r % (n - 1) < n := by
  have : r % (n - 1) < n - 1 := Nat.mod_lt r (by omega)
  omega

section

variable {s : State} {t ten lring seq : Nat} {h : HostView} {c : Cmd} {msg : List Byte} (hoff : s.power.off = false)
  (hmsg : operand h ten (pkMsgIova c.block) (pkMsgLen c.block) = .ok msg)
include hoff hmsg

/-! ### SIGN (R281 to R283) -/

section

variable {priv : List Byte} (hmay : MayPk s ten lring seq Pk.sign c.block c) (hpriv : (s.advance t).privKey h ten c.block = .ok priv)
include hmay hpriv

theorem sign_ed (halg : pkAlg c.block = 3) :
    ∃ s', exec (.sign t ten lring seq h) s = .next s' ∧ PkWrites s s' h t ten lring seq c (edSign priv msg) := by
  refine ⟨_, run_pke hoff hmay, ?_⟩
  simp only [hpriv, hmsg, halg, if_true]
  exact pkWrites_doneWriting (cmd_of_mayPk hmay) (draws_refl _) h _

theorem sign_badScalar (halg : pkAlg c.block ≠ 3) (hscalar : (curve (pkAlg c.block)).scalarOk (beNat priv) = false) :
    ∃ s', exec (.sign t ten lring seq h) s = .next s' ∧ PkSays s s' t ten lring seq c (St.badField, 0x08) ∧ s'.sec = s.sec := by
  refine ⟨_, run_pke hoff hmay, ?_⟩
  simp only [hpriv, hmsg, halg, hscalar, if_true, if_false, Bool.not_false]
  exact ⟨pkSays_done (cmd_of_mayPk hmay) s.sec _, rfl⟩

theorem sign_ecdsa (halg : pkAlg c.block ≠ 3) (hscalar : (curve (pkAlg c.block)).scalarOk (beNat priv) = true) :
    let cv := curve (pkAlg c.block)
    ∃ s' k, 1 ≤ k ∧ k < cv.n ∧ exec (.sign t ten lring seq h) s = .next s' ∧
      (∀ sig, cv.sign (beNat priv) (cv.digest (pkDigest c.block msg)) k = some sig → PkWrites s s' h t ten lring seq c sig) ∧
      (cv.sign (beNat priv) (cv.digest (pkDigest c.block msg)) k = none → Running s' ten lring seq 0x30 c ∧ s'.out = s.out) := by
  intro cv
  obtain ⟨hrun, -⟩ := id hmay
  obtain ⟨horder, -⟩ := curve_order (pkAlg c.block)
  obtain ⟨hlow, hhigh⟩ := drawn_range horder (leNat ((s.advance t).takeBytes 64).1)
  refine ⟨_, _, hlow, hhigh, run_pke hoff hmay, ?_⟩
  simp only [hpriv, hmsg, halg, hscalar, if_false, Bool.not_true, Bool.false_eq_true]
  refine ⟨fun sig hsig => ?_, fun hnone => ?_⟩
  · rw [hsig]
    exact pkWrites_doneWriting (cmd_of_mayPk hmay) (draws_takeBytes _ 64) h sig
  · rw [hnone]
    exact ⟨hrun, rfl⟩

end

/-! ### VERIFY (R281, R285, R286) -/

theorem verify_judges {key sig : List Byte} (hmay : MayPk s ten lring seq Pk.verify c.block c)
    (hkey : operand h ten (pkKeyIova c.block) (pkKeyLen c.block) = .ok key) (hsig : operand h ten (pkAuxIova c.block) (pkAuxLen c.block) = .ok sig) :
    ∃ s', exec (.verify t ten lring seq h) s = .next s' ∧
      (verifies c.block key msg sig = .ok true → PkSays s s' t ten lring seq c (St.ok, 0) ∧ s'.sec = s.sec) ∧
      (verifies c.block key msg sig = .ok false → PkSays s s' t ten lring seq c (St.signatureInvalid, 0) ∧
        s'.sec = { s.sec with sigFail := min 0xFFFF (s.sec.sigFail + 1) }) ∧
      (verifies c.block key msg sig = .error (St.pointNotOnCurve, 0) → PointRejected s s' t ten lring seq c) ∧
      (verifies c.block key msg sig = .error (St.badField, 0x08) → PkSays s s' t ten lring seq c (St.badField, 0x08) ∧ s'.sec = s.sec) := by
  refine ⟨_, run_pke hoff hmay, ?_⟩
  simp only [hkey, hmsg, hsig]
  refine ⟨fun hv => ?holds, fun hv => ?fails, fun hv => ?point, fun hv => ?exponent⟩
  case holds =>
    rw [hv]
    exact ⟨pkSays_done (cmd_of_mayPk hmay) s.sec _, rfl⟩
  case fails =>
    rw [hv]
    exact ⟨pkSays_done (cmd_of_mayPk hmay) _ _, congrArg (fun n => { s.sec with sigFail := n }) (capAt_eq_min ..)⟩
  case point =>
    rw [hv]
    exact pointRejected_done (cmd_of_mayPk hmay)
  case exponent =>
    rw [hv]
    exact ⟨pkSays_done (cmd_of_mayPk hmay) s.sec _, rfl⟩

end

/-- Settles O26: with its operands at hand SIGN takes the branch of its algorithm and scalar, VERIFY that of the verdict. -/
theorem pkSignatures : Obligations.PkSignatures := by
  intro t ten lring seq h c b msg s hoff hmsg
  refine ⟨fun priv hmay hpriv => ?_, fun key sig hmay hkey hsig => ?_⟩ <;> obtain ⟨-, rfl, -⟩ := id hmay
  · exact ⟨sign_ed hoff hmsg hmay hpriv, fun halg => ⟨sign_badScalar hoff hmsg hmay hpriv halg, sign_ecdsa hoff hmsg hmay hpriv halg⟩⟩
  · exact verify_judges hoff hmsg hmay hkey hsig

end Sys2Proof.Machine
end

section
/-! Settles O27 (R281 to R285, R287, R418): how the engine makes, stores, erases and uses the keys of its slots. -/

namespace Sys2Proof.Machine

open Sys2Proof.Safety

/-! ### Fresh keys (R283) -/

theorem leNat_toLE (n v : Nat) : leNat (toLE n v) = v % 256 ^ n := by
  induction n generalizing v with
  | zero => exact (Nat.mod_one v).symm
  | succ n ih =>
    have hbyte : (BitVec.ofNat 8 v).toNat = v % 256 := BitVec.toNat_ofNat ..
    rw [toLE, leNat, ih, hbyte, Nat.pow_succ', Nat.mod_mul]

theorem beNat_toBE {n v : Nat} (hv : v < 256 ^ n) : beNat (toBE n v) = v := by
  rw [beNat, toBE, List.reverse_reverse, leNat_toLE, Nat.mod_eq_of_lt hv]

/-- A fresh key of a P curve is a scalar in its range. -/
theorem freshKey_scalarOk {alg : Nat} (hp : isP alg = true) (r : List Byte) : (curve alg).scalarOk (beNat (freshKey alg r)) = true := by
  obtain ⟨horder, hlen⟩ := curve_order alg
  obtain ⟨hlow, hhigh⟩ := drawn_range horder (leNat r)
  rw [freshKey, if_pos hp, beNat_toBE (hhigh.trans_le hlen)]
  exact decide_eq_true ⟨hlow, hhigh⟩

/-! ### Slots -/

/-- What storing a key does to a tenant. -/
def Tenant.withKey (b priv : List Byte) (x : Tenant) : Tenant :=
  { x with keySlots := Tbl.put x.keySlots (pkSlot b) { curve := curveOf (pkAlg b), priv := priv, invalid := false } }

theorem storeKey_eq (s : State) (ten : Nat) (b priv : List Byte) : s.storeKey ten b priv = s.updTen ten (Tenant.withKey b priv) := rfl

theorem slotTaken_advance (s : State) (t ten : Nat) (b : List Byte) : (s.advance t).slotTaken ten b = s.slotTaken ten b := rfl

theorem keysOnly_withKey (b priv : List Byte) : KeysOnly (Tenant.withKey b priv) := fun _ => rfl

section

variable {s : State} {t ten lring seq : Nat} {h : HostView} {c : Cmd} (hoff : s.power.off = false)
include hoff

/-! ### KEYGEN (R281, R283) -/

section

variable (hmay : MayPk s ten lring seq Pk.keygen c.block c)
include hmay

theorem keygen_occupied (hslot : pkToSlot c.block = true) (htaken : s.slotTaken ten c.block = true) :
    ∃ s', exec (.keygen t ten lring seq h) s = .next s' ∧ PkSays s s' t ten lring seq c (St.badField, 0x03) := by
  refine ⟨_, run_pke hoff hmay, ?_⟩
  simp only [hslot, slotTaken_advance, htaken, Bool.and_true, if_true]
  exact pkSays_done (cmd_of_mayPk hmay) s.sec _

theorem keygen_makes (hfree : pkToSlot c.block = true → s.slotTaken ten c.block = false) :
    ∃ s' priv, exec (.keygen t ten lring seq h) s = .next s' ∧
      (isP (pkAlg c.block) = true → (curve (pkAlg c.block)).scalarOk (beNat priv) = true) ∧
      let pub := publicOf (curveOf (pkAlg c.block)) priv
      (pkToSlot c.block = false → PkWrites s s' h t ten lring seq c (pub ++ priv)) ∧
      (pkToSlot c.block = true → PkEnds s s' t ten lring seq c (outResult s h ten (pkOutIova c.block) pub) ∧
        s'.out = writesOut s h ten (pkOutIova c.block) pub ∧
        s'.ten ten = if (s.hostWrite h ten (pkOutIova c.block) pub).2 then (s.ten ten).withKey c.block priv else s.ten ten) := by
  have hguard : (pkToSlot c.block && s.slotTaken ten c.block) = false := by
    cases hslot : pkToSlot c.block
    · rfl
    · exact hfree hslot
  have hy : Draws (s.advance t) ((s.advance t).takeBytes 64).2 := draws_takeBytes _ 64
  refine ⟨_, freshKey (pkAlg c.block) ((s.advance t).takeBytes 64).1, run_pke hoff hmay, (freshKey_scalarOk · _), ?_⟩
  simp only [slotTaken_advance, hguard, if_false, Bool.false_eq_true]
  refine ⟨fun hslot => ?_, fun hslot => ?_⟩
  · simp only [hslot, if_false, Bool.false_eq_true]
    exact pkWrites_doneWriting (cmd_of_mayPk hmay) hy h _
  · simp only [hslot, if_true]
    obtain ⟨hends, hout, -, hten⟩ := pkEnds_doneStoring (cmd_of_mayPk hmay) hy h _ (keysOnly_withKey c.block _)
    exact ⟨hends, hout, hten⟩

end

/-! ### IMPORT and ERASE (R281, R283, R284) -/

section

variable (hmay : MayPk s ten lring seq Pk.import_ c.block c)
include hmay

theorem importKey_occupied (htaken : s.slotTaken ten c.block = true) :
    ∃ s', exec (.importKey t ten lring seq h) s = .next s' ∧ PkSays s s' t ten lring seq c (St.badField, 0x03) := by
  refine ⟨_, run_pke hoff hmay, ?_⟩
  simp only [slotTaken_advance, htaken, if_true]
  exact pkSays_done (cmd_of_mayPk hmay) s.sec _

theorem importKey_stores {priv : List Byte} (hfree : s.slotTaken ten c.block = false)
    (hread : operand h ten (pkKeyIova c.block) (pkKeyLen c.block) = .ok priv) :
    ∃ s', exec (.importKey t ten lring seq h) s = .next s' ∧
      let bad := isP (pkAlg c.block) = true ∧ (curve (pkAlg c.block)).scalarOk (beNat priv) = false
      (bad → PkSays s s' t ten lring seq c (St.badField, 0x08)) ∧
      (¬ bad → PkEnds s s' t ten lring seq c (St.ok, 0) ∧ s'.out = s.out ∧ s'.ten ten = (s.ten ten).withKey c.block priv) := by
  have hbad : (isP (pkAlg c.block) && !(curve (pkAlg c.block)).scalarOk (beNat priv)) = true ↔
      isP (pkAlg c.block) = true ∧ (curve (pkAlg c.block)).scalarOk (beNat priv) = false := by
    rw [Bool.and_eq_true, Bool.not_eq_true']
  refine ⟨_, run_pke hoff hmay, ?_⟩
  simp only [slotTaken_advance, hfree, hread, if_false, Bool.false_eq_true]
  refine ⟨fun hout => ?_, fun hin => ?_⟩
  · rw [if_pos (hbad.2 hout)]
    exact pkSays_done (cmd_of_mayPk hmay) s.sec _
  · rw [if_neg (mt hbad.1 hin), storeKey_eq]
    obtain ⟨hends, hout, -, hten⟩ := pkEnds_updTen (t := t) (cmd_of_mayPk hmay) (keysOnly_withKey c.block priv)
    exact ⟨hends, hout, hten⟩

end

theorem erase_empties (hmay : MayPk s ten lring seq Pk.erase c.block c) :
    ∃ s', exec (.erase t ten lring seq) s = .next s' ∧ PkEnds s s' t ten lring seq c (St.ok, 0) ∧ s'.out = s.out ∧
      s'.ten ten = { s.ten ten with keySlots := (s'.ten ten).keySlots } ∧ Tbl.look (s'.ten ten).keySlots (pkSlot c.block) = none ∧
      SameBut (pkSlot c.block) (s'.ten ten).keySlots (s.ten ten).keySlots := by
  obtain ⟨hends, hout, -, hten⟩ := pkEnds_updTen (t := t) (cmd_of_mayPk hmay)
    (f := fun x => { x with keySlots := Tbl.del x.keySlots (pkSlot c.block) }) fun _ => rfl
  refine ⟨_, run_pke hoff hmay, hends, hout, ?_⟩
  rw [hten]
  exact ⟨rfl, Tbl.look_del_self .., fun j hj => Tbl.look_del_other _ hj⟩

/-! ### PUBLIC (R281, R283) -/

theorem public_answers (hmay : MayPk s ten lring seq Pk.public_ c.block c) :
    ∃ s', exec (.publicKey t ten lring seq h) s = .next s' ∧
      (Tbl.look (s.ten ten).keySlots (pkSlot c.block) = none → PkSays s s' t ten lring seq c (St.badField, 0x03)) ∧
      (∀ k, Tbl.look (s.ten ten).keySlots (pkSlot c.block) = some k → k.invalid = false → pubLen k.curve ≤ pkOutLen c.block →
        PkWrites s s' h t ten lring seq c (publicOf k.curve k.priv)) := by
  refine ⟨_, run_pke hoff hmay, fun hempty => ?_, fun k hkey hvalid hroom => ?_⟩
  · simp only [State.advance_ten_entry, hempty]
    exact pkSays_done (cmd_of_mayPk hmay) s.sec _
  · simp only [State.advance_ten_entry, hkey, hvalid, if_neg (Nat.not_lt.2 hroom), if_false, Bool.false_eq_true]
    exact pkWrites_doneWriting (cmd_of_mayPk hmay) (draws_refl _) h _

/-! ### DERIVE (R281, R285, R287) -/

theorem derive_answers {priv peer : List Byte} (hmay : MayPk s ten lring seq Pk.derive c.block c)
    (hpriv : (s.advance t).privKey h ten c.block = .ok priv) (hpeer : operand h ten (pkAuxIova c.block) (pkAuxLen c.block) = .ok peer) :
    ∃ s', exec (.derive t ten lring seq h) s = .next s' ∧
      (pkAlg c.block = 6 → (x25519Peer peer = none → PointRejected s s' t ten lring seq c) ∧
        (∀ u, x25519Peer peer = some u → let z := x25519 (clamp priv) u
          (z.all (· == 0#8) = true → PointRejected s s' t ten lring seq c) ∧ (z.all (· == 0#8) = false → PkWrites s s' h t ten lring seq c z))) ∧
      (pkAlg c.block ≠ 6 → let cv := curve (pkAlg c.block)
        (cv.decode peer = none → PointRejected s s' t ten lring seq c) ∧
        (∀ p, cv.decode peer = some p → (cv.mul (beNat priv) (some p)).isSome = true →
          PkWrites s s' h t ten lring seq c (cv.ecdh (beNat priv) p))) := by
  have hc := cmd_of_mayPk hmay
  refine ⟨_, run_pke hoff hmay, ?_⟩
  simp only [hpriv, hpeer]
  refine ⟨fun halg => ?x25519, fun halg => ?curveP⟩
  case x25519 =>
    simp only [if_pos halg]
    refine ⟨fun hnone => ?_, fun u hu => ⟨fun hzero => ?_, fun hzero => ?_⟩⟩
    · rw [hnone]
      exact pointRejected_done hc
    · simp only [hu, hzero, if_true]
      exact pointRejected_done hc
    · simp only [hu, hzero, if_false, Bool.false_eq_true]
      exact pkWrites_doneWriting hc (draws_refl _) h _
  case curveP =>
    simp only [if_neg halg]
    refine ⟨fun hnone => ?_, fun p hp hmul => ?_⟩
    · rw [hnone]
      exact pointRejected_done hc
    · obtain ⟨q, hq⟩ := Option.isSome_iff_exists.1 hmul
      simp only [hp, hq]
      exact pkWrites_doneWriting hc (draws_refl _) h _

end

/-- Settles O27: each operation takes the branch of its slot and operands, and keys change by `Tenant.withKey` or by a deletion only. -/
theorem pkKeySlots : Obligations.PkKeySlots := by
  intro t ten lring seq h c b s hoff key
  refine ⟨fun hmay => ?keygen, fun hmay => ?importKey, fun hmay => ?erase, fun hmay => ?public_, fun priv peer hmay hpriv hpeer => ?derive⟩ <;>
    obtain ⟨-, rfl, -⟩ := id hmay
  case keygen => exact ⟨keygen_occupied hoff hmay, keygen_makes hoff hmay⟩
  case importKey => exact ⟨importKey_occupied hoff hmay, fun priv => importKey_stores hoff hmay⟩
  case erase => exact erase_empties hoff hmay
  case public_ => exact public_answers hoff hmay
  case derive => exact derive_answers hoff hmay hpriv hpeer

end Sys2Proof.Machine
end

section
/-! Settles O28 (R271 to R275, R418): quotes, the ephemeral keys that they make, and certificates. -/

namespace Sys2Proof.Machine

open Sys2Proof.Safety

/-! ### What a quote holds (R272) -/

/-- The head of a quote for the ephemeral key d and the random number id of its EPH_ID. -/
def State.quoteHeadOf (s : State) (ten : Nat) (b : List Byte) (d id : Nat) : List Byte :=
  s.quoteHead ten (b.drop 0x40) (p384.xyBytes (p384.mul d p384.g)) (toLE 8 id) (s.now + quoteLife b)

/-- A quote: its head, the two identity signatures over it with their random inputs n and m, and zeros. -/
def quoteBytes (head : List Byte) (n m : Nat) : List Byte :=
  head ++ slice (Config.identityEcdsa head n) 0 96 ++ slice (Config.identityMldsa head m) 0 3309 ++ zeros 51

/-- The ephemeral key that a quote with the head makes. -/
def quoteKey (head : List Byte) (d id expires : Nat) : EphKey := { id := leNat (toLE 8 id), priv := d, salt := sha384 head, expires := expires }

/-- A tenant that holds one more ephemeral key. -/
def Tenant.withEph (k : EphKey) (x : Tenant) : Tenant := { x with ephs := x.ephs ++ [k] }

theorem keysOnly_withEph (k : EphKey) : KeysOnly (Tenant.withEph k) := fun _ => rfl

section

variable {s : State} {t ten lring seq : Nat} {h : HostView} {c : Cmd} (hoff : s.power.off = false)
include hoff

/-! ### QUOTE (R272 to R275) -/

/-- QUOTE draws the key, its EPH_ID and the inputs of both signatures, and stores the key once the quote is written. -/
theorem exec_quote_next (hmay : MayPk s ten lring seq Pk.quote c.block c) :
    ∃ y d id n m, Draws (s.advance t) y ∧ 1 ≤ d ∧ d < p384.n ∧
      let head := (s.advance t).quoteHeadOf ten c.block d id
      exec (.quote t ten lring seq h) s = .next (settled t s (y.doneStoring h ten lring seq (pkOutIova c.block) (quoteBytes head n m)
        (Tenant.withEph (quoteKey head d id (max s.now t + quoteLife c.block))))) := by
  obtain ⟨hlow, hhigh⟩ := drawn_range (n := p384.n) (by decide) (leNat (toLE 64 (Config.random s.draws)))
  refine ⟨_, _, Config.random (s.draws + 1), leNat (toLE 64 (Config.random (s.draws + 2))), leNat (toLE 32 (Config.random (s.draws + 3))),
    draws_trans (draws_trans (draws_trans (draws_takeBytes _ 64) (draws_takeBytes _ 8)) (draws_takeBytes _ 64)) (draws_takeBytes _ 32),
    hlow, hhigh, ?_⟩
  rw [exec_quote, execQuote, run_pke hoff hmay]
  rfl

theorem quote_makes (hmay : MayPk s ten lring seq Pk.quote c.block c) :
    ∃ s' d id n m, exec (.quote t ten lring seq h) s = .next s' ∧ 1 ≤ d ∧ d < p384.n ∧
      let head := (s.advance t).quoteHeadOf ten c.block d id
      let out := quoteBytes head n m
      PkEnds s s' t ten lring seq c (outResult s h ten (pkOutIova c.block) out) ∧ s'.out = writesOut s h ten (pkOutIova c.block) out ∧ s'.sec = s.sec ∧
      s'.ten ten = if (s.hostWrite h ten (pkOutIova c.block) out).2 then
        (s.ten ten).withEph (quoteKey head d id (max s.now t + quoteLife c.block)) else s.ten ten := by
  obtain ⟨y, d, id, n, m, hy, hlow, hhigh, hexec⟩ := exec_quote_next (t := t) (h := h) hoff hmay
  exact ⟨_, d, id, n, m, hexec, hlow, hhigh, pkEnds_doneStoring (cmd_of_mayPk hmay) hy h _ (keysOnly_withEph _)⟩

/-! ### EPH_RELEASE (R275) -/

theorem ephRelease_drops (hmay : MayPk s ten lring seq Pk.ephRelease c.block c) :
    ∃ s', exec (.ephRelease t ten lring seq) s = .next s' ∧ PkEnds s s' t ten lring seq c (St.ok, 0) ∧
      s'.out = s.out ∧ s'.sec = s.sec ∧ (s'.ten ten).keySlots = (s.ten ten).keySlots ∧
      ∀ k, k ∈ (s'.ten ten).ephs ↔ k ∈ (s.ten ten).ephs ∧ k.id ≠ fld c.block 0x38 8 := by
  obtain ⟨hends, hout, hsec, hten⟩ := pkEnds_updTen (t := t) (cmd_of_mayPk hmay)
    (f := fun x => { x with ephs := x.ephs.filter fun k => k.id != fld c.block 0x38 8 }) fun _ => rfl
  refine ⟨_, run_pke hoff hmay, hends, hout, hsec, ?_⟩
  rw [hten]
  exact ⟨rfl, fun k => by rw [List.mem_filter, bne_iff_ne]⟩

end

/-- Settles O28: a quote is written before its key is made, a release filters the tenant's keys, a certificate is written as it is. -/
theorem quotesAndCertificates : Obligations.QuotesAndCertificates := by
  intro t ten lring seq h c b s hoff
  refine ⟨fun hmay => ?quote, fun hmay => ?release, fun hmay => ?cert⟩ <;> obtain ⟨-, rfl, -⟩ := id hmay
  case quote => exact quote_makes hoff hmay
  case release => exact ephRelease_drops hoff hmay
  case cert => exact ⟨_, run_pke hoff hmay, pkWrites_doneWriting (cmd_of_mayPk hmay) (draws_refl _) h _⟩

end Sys2Proof.Machine
end

section
/-! Settles O16 (R308 to R310): a message that lands, its acknowledgement, and the receiving EVAL that goes on. -/

namespace Sys2Proof.Machine

open Sys2Proof.Safety

section

variable {t ten lring seq : Nat} {s : State} {v : Eval} {c : Cmd}

/-! ### Landing (R309, R310) -/

/-- The landing of a message and what follows it change DRAM, what was sent, and the fabric; the DRAM's new bytes depend on the DRAM only. -/
theorem landed_eq {s s0 : State} (hdram : s.dram = s0.dram) (e : Edge) (x : Session) (m : FabricMsg) :
    ∃ fr out ports, (((s.landMsg e x m).dropMsg m).releaseHeld m).sendMgmt m.src =
      { s with
        free := fr, out := out
        dram := (m.got.foldl (fun s g => s.writeObj x.arena (e.dstOffset + g.1) g.2) s0).dram
        fabric := { s.fabric with
          ports := ports, inbox := s.fabric.inbox.filter fun y => y.id != m.id
          landed := (m.ten, m.session, m.edge, m.position) :: s.fabric.landed, occupied := (m.ten, m.session, m.edge) :: s.fabric.occupied } } := by
  obtain ⟨_, _, _, hheld⟩ := releaseHeld_frame ((s.landMsg e x m).dropMsg m) m
  obtain ⟨fr, out, ports, hmgmt⟩ := sendMgmt_frame (((s.landMsg e x m).dropMsg m).releaseHeld m) m.src
  refine ⟨fr, out, ports, ?_⟩
  rw [hmgmt, hheld, State.landMsg, foldl_writeObj_eq x.arena (fun g => e.dstOffset + g.1) (fun g => g.2) m.got hdram]
  rfl

/-- FABRIC_MESSAGE_LAND of a whole message that has not landed and whose range is free. -/
theorem exec_fabricMessageLand_whole {m : FabricMsg} {cfg : SwarmCfg} {e : Edge} {x : Session} (hoff : s.power.off = false)
    (hbox : (s.fabric.inbox.find? fun y => y.id == m.id) = some m) (hcfg : s.settings.swarm = some cfg)
    (hedge : (cfg.edges.find? fun e => e.edge == m.edge) = some e) (hx : Tbl.look (s.ten m.ten).sessions m.session = some x)
    (hactive : x.active = true) (hwhole : m.complete = true) (hnew : s.fabric.landed.contains (m.ten, m.session, m.edge, m.position) = false)
    (hfree : s.fabric.occupied.contains (m.ten, m.session, m.edge) = false) :
    exec (.fabricMessageLand t m.id) s =
      .next (settled t s (((((s.advance t).landMsg e x m).dropMsg m).releaseHeld m).sendMgmt m.src)) := by
  have hsession : (s.advance t).msgSession m = some x := by
    rw [State.msgSession, State.advance_ten_entry, hx, Option.filter_some, if_pos hactive]
  rw [exec_fabricMessageLand]
  refine run_eq hoff ?_
  simp only [State.advance_fabric, hbox, State.advance_settings, hcfg, Option.bind_some, hedge, hsession, hnew, hfree, hwhole, if_true,
    Bool.false_eq_true, if_false]

/-! ### Acknowledgement (R308) -/

/-- The sends of an edge once it is acknowledged. -/
def acknowledged (edge : Nat) (v : Eval) : Eval :=
  { v with sends := v.sends.map fun x => if x.edge = edge then { x with admitted := true, acked := true } else x }

theorem cmd_updEval (hc : s.cmd? ten lring seq = some c) (hv : c.eval = some v) (f : Eval → Eval) :
    (s.updEval ten lring seq f).cmd? ten lring seq = some { c with eval := some (f v) } := by
  rw [State.updEval, State.cmd_updCmd_self s ten lring seq (fun c => { c with eval := c.eval.map f }) fun _ => rfl, hc, Option.map_some, hv]
  rfl

theorem fabricAck_marks (edge : Nat) (hoff : s.power.off = false) (hc : s.cmd? ten lring seq = some c) (hv : c.eval = some v) :
    ∃ s', exec (.fabricAckReceive t ten lring seq edge) s = .next s' ∧ OnlyRing s s' t ten lring ∧
      s'.cmd? ten lring seq = some { c with eval := some (acknowledged edge v) } :=
  ⟨_, (exec_fabricAckReceive ..).trans (run_next hoff), ⟨rfl, sameBut_updCmd (s.advance t) ten lring seq _⟩, cmd_updEval (s := s.advance t) hc hv (acknowledged edge)⟩

/-! ### The receiving segment (R309) -/

/-- FABRIC_RECV_START of an EVAL whose awaited messages have landed: the chain goes on, no longer waiting. -/
theorem exec_fabricRecvStart_landed {g : Gen} {idx w : Nat} (hoff : s.power.off = false) (hc : s.cmd? ten lring seq = some c) (hv : c.eval = some v)
    (hwait : v.recvWait = some (idx, w)) (hg : s.genOf ten v.model v.gen = some g) (hland : ∀ i ∈ g.gang idx, s.messagesLanded ten v i = true) :
    exec (.fabricRecvStart t ten lring seq) s =
      .next (settled t s (((s.advance t).updEval ten lring seq fun v => { v with recvWait := none }).continueAt ten lring seq idx (v.rounds == 1))) := by
  have hall : ((g.gang idx).all fun i => (s.advance t).messagesLanded ten v i) = true := List.all_eq_true.2 hland
  have hgen : (s.advance t).genOf ten v.model v.gen = some g := hg
  rw [exec_fabricRecvStart]
  refine run_eq hoff ?_
  simp only [State.advance_cmd_entry, hc, Option.bind_some, hv, hwait, hgen, Option.elim_some, hall, onlyIf_true]

/-- Changing an evaluation leaves its ring's class. -/
theorem ring_updEval_cls (s : State) (a b n : Nat) (f : Eval → Eval) : ((s.updEval a b n f).ring a b).cls = (s.ring a b).cls := by
  rw [State.updEval, State.ring_updCmd_self]

/-- Its gang joins the runs, and nothing changes but its ring and what the messages took. -/
theorem continueAt_asksGang {g : Gen} {idx : Nat} (first : Bool) (hc : s.cmd? ten lring seq = some c) (hv : c.eval = some v)
    (hg : s.genOf ten v.model v.gen = some g) (hland : ∀ i ∈ g.gang idx, s.messagesLanded ten v i = true) :
    let s' := settled t s (((s.advance t).updEval ten lring seq fun v => { v with recvWait := none }).continueAt ten lring seq idx first)
    evalOf s' ten lring seq = some { v with chain := idx, rounds := v.rounds + 1, recvWait := none } ∧ AsksGang s s' ten lring c g idx ∧
      s'.tenants = s.tenants ∧ s'.dram = s.dram ∧ s'.cells = s.cells ∧ s'.settings = s.settings ∧ SameBut (ringKey ten lring) s'.rings s.rings := by
  obtain rfl := State.cmd_seq hc
  have hcmd := cmd_updEval (s := s.advance t) hc hv fun v => { v with recvWait := none }
  obtain ⟨hchain, rs, n, gs, fb, heq, hrings⟩ := continueAt_chain first (c := { c with eval := some { v with recvWait := none } }) (idx := idx) hcmd rfl hg
  obtain ⟨hgo, -⟩ := chainAt_congr (s := s) (c := c) hchain rfl rfl rfl (ring_updEval_cls (s.advance t) ten lring c.seq _) rfl rfl
  obtain ⟨heval, hgang⟩ := hgo hland
  refine ⟨heval, hgang, ?_⟩
  simp only [heq]
  exact ⟨rfl, rfl, rfl, rfl, sameBut_trans hrings (sameBut_updCmd (s.advance t) ten lring c.seq _)⟩

end

/-- Settles O16: the arm of a whole message lands it, an acknowledgement is one change of the EVAL, and a receiving EVAL's chain goes on. -/
theorem fabricMessages : Obligations.FabricMessages := by
  intro t ten lring seq edge m c v g e x cfg s hoff
  refine ⟨fun hbox hcfg hedge hx hactive hwhole hnew hfree => ?land, fun hc hv => ?ack, fun idx w hc hv hwait hg hland => ?recv⟩
  case land =>
    refine ⟨_, exec_fabricMessageLand_whole hoff hbox hcfg hedge hx hactive hwhole hnew hfree, ?_⟩
    obtain ⟨fr, out, ports, heq⟩ := landed_eq (State.advance_dram s t) e x m
    rw [heq]
    exact ⟨rfl, rfl, rfl, rfl, rfl, rfl, rfl, rfl, rfl, rfl⟩
  case ack => exact fabricAck_marks edge hoff hc hv
  case recv => exact ⟨_, exec_fabricRecvStart_landed hoff hc hv hwait hg hland, continueAt_asksGang _ hc hv hg hland⟩

end Sys2Proof.Machine
end

section
/-! For O49 (R292, R311, R312, R321, R323): a port in a state without keys, and the attestation that it sends. -/

namespace Sys2Proof.Machine

open Sys2Proof.Safety

/-! ### One port and the waggle replaced -/

/-- A state with another record of one port and another waggle: what a link's event leaves. -/
def State.withLink (s : State) (port : Nat) (p : Port) (w : Waggle) : State :=
  { s with waggle := w, fabric := { s.fabric with ports := Tbl.put s.fabric.ports port p } }

/-- Event bits of the fabric set beside those that stand (R325). -/
def State.withEvents (s : State) (quarantined exhausted retrained : Bool) : State :=
  { s with fabric := { s.fabric with
      evQuarantined := s.fabric.evQuarantined || quarantined, evExhausted := s.fabric.evExhausted || exhausted
      evRetrained := s.fabric.evRetrained || retrained } }

section

variable (s : State) (port : Nat) (p : Port) (w : Waggle)

@[simp] theorem withLink_port : (s.withLink port p w).port port = p := Tbl.lookD_put_self ..

theorem withLink_withLink (p' : Port) (w' : Waggle) : (s.withLink port p w).withLink port p' w' = s.withLink port p' w' := by
  simp only [State.withLink, put_put]

/-- Changing a port replaces it. -/
theorem updPort_withLink (f : Port → Port) : s.updPort port f = s.withLink port (f (s.port port)) s.waggle := rfl

theorem withLink_updPort (f : Port → Port) : (s.withLink port p w).updPort port f = s.withLink port (f p) w := by
  rw [updPort_withLink, withLink_port, withLink_withLink]
  rfl

/-- A port that leaves its keys loses its peer's advertisement (R311, R321). -/
theorem unkeyPort_withLink (st : LinkState) : s.unkeyPort port st = s.withLink port (keyless (s.port port) st s.now) (withoutAdvert s.waggle port s.now) := rfl

theorem withLink_unkeyPort (st : LinkState) :
    (s.withLink port p w).unkeyPort port st = s.withLink port (keyless p st s.now) (withoutAdvert w port s.now) := by
  rw [unkeyPort_withLink, withLink_port, withLink_withLink]
  rfl

@[simp] theorem withEvents_none : s.withEvents false false false = s := by
  simp only [State.withEvents, Bool.or_false]

theorem unkeyPort_updPort (st : LinkState) (f : Port → Port) :
    (s.unkeyPort port st).updPort port f = s.withLink port (f (keyless (s.port port) st s.now)) (withoutAdvert s.waggle port s.now) := by
  rw [unkeyPort_withLink, withLink_updPort]

end

section

variable (s : State) (t port : Nat) (p : Port)

theorem onlyPort_withLink : OnlyPort s (settled t s ((s.advance t).withLink port p s.waggle)) t port ∧
    (settled t s ((s.advance t).withLink port p s.waggle)).port port = p :=
  ⟨⟨rfl, sameBut_put _ _ _⟩, withLink_port ..⟩

theorem portGoes_withEvents (quarantined exhausted retrained : Bool) :
    PortGoes s (settled t s (((s.advance t).withLink port p (withoutAdvert s.waggle port (max s.now t))).withEvents quarantined exhausted retrained))
      t port p quarantined exhausted retrained :=
  ⟨withLink_port _ _ _ (withoutAdvert s.waggle port (max s.now t)), sameBut_put _ _ _, rfl⟩

theorem portGoes_withLink :
    PortGoes s (settled t s ((s.advance t).withLink port p (withoutAdvert s.waggle port (max s.now t)))) t port p false false false := by
  have h := portGoes_withEvents s t port p false false false
  rwa [withEvents_none] at h

end

/-! ### Training (R299, R311) -/

theorem mayTrain_iff (s : State) (port : Nat) : s.mayTrain port = true ↔ (s.port port).light = true ∧ (s.port port).retryAt = none ∧ Trains s port := by
  unfold State.mayTrain Trains portDie
  cases s.settings.swarm with
  | none => simp
  | some c => simp [and_assoc]

section

variable {s : State} {port : Nat} {p : Port} (w : Waggle)

theorem withLink_tryTrain_trains (hdark : p.state = .dark) (hlight : p.light = true) (hretry : p.retryAt = none) (htrains : Trains s port) :
    (s.withLink port p w).tryTrain port = s.withLink port (keyless p .training s.now) (withoutAdvert w port s.now) := by
  have hmay : (s.withLink port p w).mayTrain port = true := (mayTrain_iff ..).2 (by rw [withLink_port]; exact ⟨hlight, hretry, htrains⟩)
  exact (if_pos ⟨(congrArg Port.state (withLink_port ..)).trans hdark, hmay⟩).trans (withLink_unkeyPort ..)

theorem withLink_tryTrain_stays (h : p.state ≠ .dark ∨ p.retryAt ≠ none ∨ ¬ Trains s port) :
    (s.withLink port p w).tryTrain port = s.withLink port p w := by
  refine if_neg fun ⟨hdark, hmay⟩ => ?_
  obtain ⟨-, hretry, htrains⟩ := (mayTrain_iff ..).1 hmay
  rw [withLink_port] at hdark hretry
  exact h.elim (· hdark) fun h => h.elim (· hretry) (· htrains)

end

/-! ### Timers and quarantine (R311, R317) -/

/-- The guard of a timer that a state starts. -/
theorem stateTimer_due {p : Port} {st : LinkState} {d n : Nat} (hstate : p.state = st) (hdue : p.since + d ≤ n) :
    (p.state == st && decide (p.since + d ≤ n)) = true := by
  rw [hstate, beq_self_eq_true, Bool.true_and]
  exact decide_eq_true hdue

/-- A quarantine is noted when the link enters it. -/
theorem quarantine_eq (s : State) (port reason : Nat) : s.quarantine port reason =
    (s.withLink port { keyless (s.port port) .quarantined s.now with reason := reason } (withoutAdvert s.waggle port s.now)).withEvents
      ((s.port port).state != .quarantined) false false := by
  rw [State.quarantine, unkeyPort_updPort]
  cases (s.port port).state != .quarantined
  · exact (withEvents_none _).symm
  · simp only [State.withEvents, Bool.or_false, Bool.or_true]
    rfl

/-! ### The attestation (R292, R312) -/

/-- A port with a fresh descriptor d of this side, made with a secret scalar. -/
def Port.withDescriptor (p : Port) (priv : Nat) (d : List Byte) : Port := { p with ourPriv := priv, ourDesc := d, peerNonce := [] }

/-- A port without a descriptor of its own draws one and sends it with the certificates. -/
theorem attest_sends {s : State} {port : Nat} {c : SwarmCfg} (hswarm : s.settings.swarm = some c) (hserve : s.canServe = true)
    (hdesc : (s.port port).ourDesc = []) : ∃ priv nonce e d, d = s.descriptor c port false priv nonce ∧
      s.attest port = { s.updPort port (·.withDescriptor priv d) with
        draws := s.draws + 2, entropy := e, out := (attestationFrames s port d).reverse ++ s.out } := by
  have hdraw : s.attest port = (s.drawDescriptor c port false).sendAttestation port (((s.drawDescriptor c port false).port port).ourDesc ++ deviceCerts) := by
    simp [State.attest, hswarm, hserve, hdesc]
  refine ⟨1 + leNat (toLE 48 (Config.random s.draws)) % (p384.n - 1), toLE 32 (Config.random (s.draws + 1)), s.entropy.request.request, _, rfl, ?_⟩
  rw [hdraw, State.sendAttestation, foldl_emit (fun f : List Byte × List Byte => Out.frame port (f.1 ++ f.2)), State.drawDescriptor,
    State.port_updPort_self]
  rfl

/-- Where the DRBG cannot serve it waits. -/
theorem attest_held {s : State} (port : Nat) (hserve : s.canServe = false) : s.attest port = s := by
  unfold State.attest
  split
  · rfl
  · rw [hserve, Bool.not_false, Bool.or_true, if_pos rfl]

/-- A descriptor, and the frames that carry it, do not depend on the ports. -/
theorem descriptor_withLink (s : State) (port : Nat) (p : Port) (w : Waggle) (c : SwarmCfg) (rekey : Bool) (priv : Nat) (nonce : List Byte) :
    (s.withLink port p w).descriptor c port rekey priv nonce = s.descriptor c port rekey priv nonce := rfl

theorem attestationFrames_settings {s z : State} (h : z.settings = s.settings) (port : Nat) (d : List Byte) :
    attestationFrames z port d = attestationFrames s port d := by
  unfold attestationFrames State.linkFrames State.linkHeader
  rw [h]

theorem attests_withLink {s : State} (t port : Nat) {p : Port} (w : Waggle) (hserve : s.canServe = true) (hswarm : s.settings.swarm ≠ none)
    (hdesc : p.ourDesc = []) : Attests s (settled t s (((s.advance t).withLink port p w).attest port)) t port p w := by
  obtain ⟨c, hc⟩ := Option.ne_none_iff_exists'.1 hswarm
  obtain ⟨priv, nonce, e, d, hd, hsend⟩ :=
    attest_sends (s := (s.advance t).withLink port p w) hc hserve ((congrArg Port.ourDesc (withLink_port ..)).trans hdesc)
  rw [descriptor_withLink] at hd
  rw [hsend, withLink_updPort, attestationFrames_settings (s := s) (z := (s.advance t).withLink port p w) rfl]
  have hport : ((s.advance t).withLink port (p.withDescriptor priv d) w).port port = p.withDescriptor priv d := withLink_port _ _ _ w
  refine ⟨c, priv, nonce, hc, hport.trans (congrArg (p.withDescriptor priv) hd), ?_, sameBut_put _ _ _, rfl⟩
  exact congrArg (fun p : Port => (attestationFrames s port p.ourDesc).reverse ++ s.out) hport.symm

end Sys2Proof.Machine
end

section
/-! Settles O49 (R292, R302, R306, R311, R312, R314, R316, R317, R321, R323): the events that take a link from state to state. -/

namespace Sys2Proof.Machine

open Sys2Proof.Safety

section

variable {t port : Nat} {s : State} (hoff : s.power.off = false)
include hoff

/-! ### What the runner leaves of a link's event -/

/-- An effect that takes the keys of one port, leaves it as p, and sets event bits. -/
theorem run_portEvent {f : State → State} {p : Port} {quarantined exhausted retrained : Bool}
    (hf : f (s.advance t) =
      ((s.advance t).withLink port p (withoutAdvert s.waggle port (max s.now t))).withEvents quarantined exhausted retrained) :
    ∃ s', run t s f = .next s' ∧ PortGoes s s' t port p quarantined exhausted retrained :=
  ⟨_, run_eq hoff hf, portGoes_withEvents ..⟩

theorem run_portGoes {f : State → State} {p : Port}
    (hf : f (s.advance t) = (s.advance t).withLink port p (withoutAdvert s.waggle port (max s.now t))) :
    ∃ s', run t s f = .next s' ∧ PortGoes s s' t port p false false false :=
  ⟨_, run_eq hoff hf, portGoes_withLink ..⟩

/-- An effect that changes one port and nothing of what is advertised. -/
theorem run_onlyPort {f : State → State} {p : Port} (hf : f (s.advance t) = (s.advance t).withLink port p s.waggle) :
    ∃ s', run t s f = .next s' ∧ OnlyPort s s' t port ∧ s'.port port = p :=
  ⟨_, run_eq hoff hf, onlyPort_withLink ..⟩

theorem run_onlyTime {f : State → State} (hf : f (s.advance t) = s.advance t) : ∃ s', run t s f = .next s' ∧ OnlyTime s s' t :=
  ⟨_, run_eq hoff hf, rfl⟩

/-- An effect that attests for a port that has just become p: at once where the DRBG serves. -/
theorem run_attests {f : State → State} {p : Port} {w : Waggle} (hdesc : p.ourDesc = [])
    (hf : f (s.advance t) = ((s.advance t).withLink port p w).attest port) (hserve : s.canServe = true) (hswarm : s.settings.swarm ≠ none) :
    ∃ s', run t s f = .next s' ∧ Attests s s' t port p w :=
  ⟨_, run_eq hoff hf, attests_withLink t port w hserve hswarm hdesc⟩

/-- A link that attests again and otherwise stays. -/
theorem run_attestAgain {f : State → State} {p : Port} (hdesc : p.ourDesc = [])
    (hf : f (s.advance t) = ((s.advance t).withLink port p s.waggle).attest port) :
    (s.canServe = true → s.settings.swarm ≠ none → ∃ s', run t s f = .next s' ∧ Attests s s' t port p s.waggle) ∧
    (s.canServe = false → ∃ s', run t s f = .next s' ∧ OnlyPort s s' t port ∧ s'.port port = p) :=
  ⟨run_attests hoff hdesc hf, fun hserve => run_onlyPort hoff (hf.trans (attest_held port hserve))⟩

/-- A link that goes to ATTESTING. -/
theorem run_toAttesting {f : State → State} (hf : f (s.advance t) = (s.advance t).toAttesting port) :
    let p := keyless (s.port port) .attesting (max s.now t)
    (s.canServe = true → s.settings.swarm ≠ none → ∃ s', run t s f = .next s' ∧ Attests s s' t port p (withoutAdvert s.waggle port (max s.now t))) ∧
    (s.canServe = false → ∃ s', run t s f = .next s' ∧ PortGoes s s' t port p false false false) :=
  ⟨run_attests hoff rfl hf, fun hserve => run_portGoes hoff (hf.trans (attest_held port hserve))⟩

/-! ### Light and training (R311) -/

theorem linkLightDetect_trains (hport : port < 32) {p : Port} (hp : p = { s.port port with light := true }) (hdark : p.state = .dark)
    (hretry : p.retryAt = none) (htrains : Trains s port) :
    ∃ s', exec (.linkLightDetect t port) s = .next s' ∧ PortGoes s s' t port (keyless p .training (max s.now t)) false false false := by
  subst hp
  rw [exec_linkLightDetect]
  exact run_portGoes hoff ((if_pos (decide_eq_true hport)).trans (withLink_tryTrain_trains (s := s.advance t) s.waggle hdark rfl hretry htrains))

theorem linkLightDetect_notes (hport : port < 32) {p : Port} (hp : p = { s.port port with light := true })
    (hstays : p.state ≠ .dark ∨ p.retryAt ≠ none ∨ ¬ Trains s port) :
    ∃ s', exec (.linkLightDetect t port) s = .next s' ∧ OnlyPort s s' t port ∧ s'.port port = p := by
  subst hp
  rw [exec_linkLightDetect]
  exact run_onlyPort hoff ((if_pos (decide_eq_true hport)).trans (withLink_tryTrain_stays (s := s.advance t) s.waggle hstays))

theorem trainingRetry_trains {r : Nat} (hretry : (s.port port).retryAt = some r) (hdue : r ≤ max s.now t) (hdark : (s.port port).state = .dark)
    (hlight : (s.port port).light = true) (htrains : Trains s port) :
    ∃ s', exec (.trainingRetry t port) s = .next s' ∧ PortGoes s s' t port (keyless (s.port port) .training (max s.now t)) false false false := by
  have hguard : ((s.port port).retryAt.any fun r => decide (r ≤ max s.now t)) = true := by rw [hretry]; exact decide_eq_true hdue
  rw [exec_trainingRetry]
  exact run_portGoes hoff ((if_pos hguard).trans
    (withLink_tryTrain_trains (s := s.advance t) (p := { s.port port with retryAt := none }) s.waggle hdark hlight rfl htrains))

theorem trainingRetry_early {r : Nat} (hretry : (s.port port).retryAt = some r) (hearly : max s.now t < r) :
    ∃ s', exec (.trainingRetry t port) s = .next s' ∧ OnlyTime s s' t := by
  have hguard : ((s.port port).retryAt.any fun r => decide (r ≤ max s.now t)) = false := by rw [hretry]; exact decide_eq_false (Nat.not_le.2 hearly)
  rw [exec_trainingRetry]
  exact run_onlyTime hoff (congrArg (fun b => (s.advance t).onlyIf b _) hguard)

/-! ### Timers (R311, R314) -/

theorem trainingTimeout_darkens (hstate : (s.port port).state = .training) (hdue : (s.port port).since + 100000000 ≤ max s.now t) :
    ∃ s', exec (.trainingTimeout t port) s = .next s' ∧
      PortGoes s s' t port { keyless (s.port port) .dark (max s.now t) with retryAt := some (max s.now t + 1000000000) } false false false := by
  rw [exec_trainingTimeout]
  exact run_portGoes hoff ((if_pos (stateTimer_due hstate hdue)).trans (unkeyPort_updPort (s.advance t) ..))

theorem trainingTimeout_early (hearly : max s.now t < (s.port port).since + 100000000) :
    ∃ s', exec (.trainingTimeout t port) s = .next s' ∧ OnlyTime s s' t := by
  have hguard : ((s.port port).state == .training && decide ((s.port port).since + 100 * msec ≤ max s.now t)) = false :=
    (congrArg _ (decide_eq_false (Nat.not_le.2 hearly))).trans (Bool.and_false _)
  rw [exec_trainingTimeout]
  exact run_onlyTime hoff (congrArg (fun b => (s.advance t).onlyIf b _) hguard)

theorem lightLoss_darkens (hlight : (s.port port).light = true) :
    ∃ s', exec (.lightLoss t port) s = .next s' ∧ PortGoes s s' t port { keyless (s.port port) .dark (max s.now t) with light := false } false false false := by
  rw [exec_lightLoss]
  exact run_portGoes hoff ((if_pos hlight).trans (unkeyPort_updPort (s.advance t) ..))

theorem attestTimeout_retrains (hstate : (s.port port).state = .attesting) (hdue : (s.port port).since + 500000000 ≤ max s.now t) :
    ∃ s', exec (.attestTimeout t port) s = .next s' ∧ PortGoes s s' t port (keyless (s.port port) .training (max s.now t)) false false false := by
  rw [exec_attestTimeout]
  exact run_portGoes hoff (if_pos (stateTimer_due hstate hdue))

theorem keyConfirmTimeout_retrains (hstate : (s.port port).state = .keyed) (hdue : (s.port port).since + 100000000 ≤ max s.now t) :
    ∃ s', exec (.keyConfirmTimeout t port) s = .next s' ∧ PortGoes s s' t port (keyless (s.port port) .training (max s.now t)) false false false := by
  rw [exec_keyConfirmTimeout]
  exact run_portGoes hoff (if_pos (stateTimer_due hstate hdue))

/-! ### Tag failures and exhausted keys (R306, R317) -/

theorem tagFailureLimit_retrains (hmany : 64 < ((s.port port).tagTimes.filter fun x => decide (max s.now t < x + 1000000)).length) :
    ∃ s', exec (.tagFailureLimit t port) s = .next s' ∧ PortGoes s s' t port (keyless (s.port port) .training (max s.now t)) false false true := by
  rw [exec_tagFailureLimit]
  refine run_portEvent hoff ((if_pos (decide_eq_true hmany)).trans ?_)
  simp only [State.withEvents, Bool.or_false, Bool.or_true]
  rfl

theorem keyExhausted_quarantines (hstate : (s.port port).state = .live ∨ (s.port port).state = .quarantined ∧ (s.port port).mgmtOnly = true)
    (hworn : 2 ^ 44 ≤ (s.port port).txCounter ∨ 2 ^ 44 ≤ (s.port port).rxCounter) :
    ∃ s', exec (.keyExhausted t port) s = .next s' ∧
      PortGoes s s' t port { keyless (s.port port) .quarantined (max s.now t) with reason := 7 } ((s.port port).state != .quarantined) true false := by
  have hguard : (((s.port port).state == .live || (s.port port).mgmtOnly) && decide (keyLimit ≤ (s.port port).txCounter ∨ keyLimit ≤ (s.port port).rxCounter)) = true := by
    rw [Bool.and_eq_true, Bool.or_eq_true, beq_iff_eq]
    exact ⟨hstate.imp_right And.right, decide_eq_true hworn⟩
  rw [exec_keyExhausted]
  refine run_portEvent hoff ((if_pos hguard).trans ?_)
  simp only [quarantine_eq, State.withEvents, Bool.or_false, Bool.or_true]
  rfl

/-! ### KEY_CONFIRM (R311, R314) -/

section

variable {frame : List Byte} {k : DirKey} (hkeyed : (s.port port).state = .keyed) (hrx : (s.port port).rx = some k)
include hkeyed hrx

theorem keyConfirmReceive_goesLive {b : List Byte} (hopen : openFrame k frame = some b) (hphase : byteAt frame 2 % 2 = (s.port port).rxPhase)
    (hcounter : fld frame 8 8 = (s.port port).rxCounter) :
    ∃ s', exec (.keyConfirmReceive t port frame) s = .next s' ∧ OnlyPort s s' t port ∧
      s'.port port = { s.port port with state := .live, since := max s.now t, rxCounter := (s.port port).rxCounter + 1 } := by
  rw [exec_keyConfirmReceive]
  refine run_onlyPort hoff (Eq.trans (b := (s.advance t).updPort port fun p => { p with state := .live, since := max s.now t, rxCounter := p.rxCounter + 1 }) ?_ rfl)
  simp only [State.advance_port_entry, State.advance_now, hkeyed, hrx, hopen, hphase, hcounter, and_self, if_true]

theorem keyConfirmReceive_retrains (hopen : openFrame k frame = none) :
    ∃ s', exec (.keyConfirmReceive t port frame) s = .next s' ∧
      PortGoes s s' t port (keyless { s.port port with tagFails := capAt 0xFFFF ((s.port port).tagFails + 1) } .training (max s.now t)) false false false := by
  rw [exec_keyConfirmReceive]
  refine run_portGoes hoff ?_
  simp only [State.advance_port_entry, hkeyed, hrx, hopen]
  exact withLink_unkeyPort (s.advance t) ..

end

/-! ### Attestation (R292, R312, R317) -/

theorem laneLock_attests (hstate : (s.port port).state = .training) :
    let p := keyless (s.port port) .attesting (max s.now t)
    (s.canServe = true → s.settings.swarm ≠ none → ∃ s', exec (.laneLock t port) s = .next s' ∧ Attests s s' t port p (withoutAdvert s.waggle port (max s.now t))) ∧
    (s.canServe = false → ∃ s', exec (.laneLock t port) s = .next s' ∧ PortGoes s s' t port p false false false) := by
  rw [exec_laneLock]
  exact run_toAttesting hoff (if_pos (beq_iff_eq.2 hstate))

section

variable (hstate : (s.port port).state = .quarantined)
include hstate

theorem quarantineReattest_exhausted (hreason : (s.port port).reason = 7) (hdue : (s.port port).since + 1000000000 ≤ max s.now t) :
    let p := keyless (s.port port) .attesting (max s.now t)
    (s.canServe = true → s.settings.swarm ≠ none →
      ∃ s', exec (.quarantineReattest t port) s = .next s' ∧ Attests s s' t port p (withoutAdvert s.waggle port (max s.now t))) ∧
    (s.canServe = false → ∃ s', exec (.quarantineReattest t port) s = .next s' ∧ PortGoes s s' t port p false false false) := by
  rw [exec_quarantineReattest]
  refine run_toAttesting hoff ?_
  exact (if_neg (not_not.2 hstate)).trans ((if_pos hreason).trans (if_pos (decide_eq_true hdue)))

theorem quarantineReattest_again (hreason : (s.port port).reason ≠ 7) (hdue : (s.port port).since + 10000000000 ≤ max s.now t) :
    let p := { s.port port with ourDesc := [], ourPriv := 0, peerNonce := [], since := max s.now t }
    (s.canServe = true → s.settings.swarm ≠ none → ∃ s', exec (.quarantineReattest t port) s = .next s' ∧ Attests s s' t port p s.waggle) ∧
    (s.canServe = false → ∃ s', exec (.quarantineReattest t port) s = .next s' ∧ OnlyPort s s' t port ∧ s'.port port = p) := by
  rw [exec_quarantineReattest]
  refine run_attestAgain hoff rfl ?_
  exact (if_neg (not_not.2 hstate)).trans ((if_neg hreason).trans (if_pos (decide_eq_true hdue)))

end

end

/-- Settles O49: each event's guard leads to the record that its row of the table gives the port, and a link that comes to attest draws and sends its descriptor. -/
theorem linkStates : Obligations.LinkStates := by
  refine ⟨fun t port s hoff hport => ?light, fun t port s hoff hstate => ?lock, fun t port s hoff => ?timers,
    fun t port frame c k s hoff hswarm hkeyed hrx => ?confirm, fun t port s hoff hstate => ?reattest⟩
  case light =>
    refine ⟨linkLightDetect_trains hoff hport rfl, fun hstays => linkLightDetect_notes hoff hport rfl ?_⟩
    obtain h | h | h | h | h := hstays
    · exact .inl h
    · exact .inr (.inl h)
    all_goals exact .inr (.inr (by simp [Trains, h]))
  case lock => exact laneLock_attests hoff hstate
  case timers =>
    exact ⟨trainingTimeout_darkens hoff, fun _ => trainingTimeout_early hoff, fun _ => trainingRetry_trains hoff, fun _ => trainingRetry_early hoff,
      lightLoss_darkens hoff, attestTimeout_retrains hoff, keyConfirmTimeout_retrains hoff, tagFailureLimit_retrains hoff, keyExhausted_quarantines hoff⟩
  case confirm => exact ⟨fun b => keyConfirmReceive_goesLive hoff hkeyed hrx, keyConfirmReceive_retrains hoff hkeyed hrx⟩
  case reattest => exact ⟨quarantineReattest_exhausted hoff hstate, quarantineReattest_again hoff hstate⟩

end Sys2Proof.Machine
end

section
/-! Refutes O51 (R306, R317): what a port sends under a key that is used up. -/

namespace Sys2Proof.Machine

open Sys2Proof.Safety

/-- A key under which 2^44 frames have gone sends nothing more: only the free payload has been drawn. -/
theorem sendFreePayload_keyUsedUp {s : State} {port : Nat} (type vc : Nat) (h : keyLimit ≤ (s.port port).txCounter) :
    s.sendFreePayload port type vc = s.skipFrees 1 := by
  unfold State.sendFreePayload State.sendSealed
  dsimp only
  split
  · rfl
  · rw [State.skipFrees_port_entry, decide_eq_false (Nat.not_lt.2 h), onlyIf_false]

/-- So the reply to a false tag does not go out, and the counter stays. -/
theorem txCounter_tagFailed_keyUsedUp {s : State} {port : Nat} (h : keyLimit ≤ (s.port port).txCounter) :
    ((s.tagFailed port).port port).txCounter = (s.port port).txCounter := by
  rw [State.tagFailed, State.sendCredit, sendFreePayload_keyUsedUp, State.skipFrees_port_entry, State.port_updPort_self]
  rw [State.port_updPort_self]
  exact h

/-- LINK_FRAME_RECEIVE of a frame with a false tag, in the key phase in use (R306). -/
theorem exec_linkFrameReceive_falseTag {s : State} {t port : Nat} {frame : List Byte} {c : SwarmCfg} {k kt : DirKey} (hoff : s.power.off = false)
    (hcomes : Comes s port frame c k kt) (hopen : openFrame k frame = none) :
    exec (.linkFrameReceive t port frame) s = .next (settled t s ((s.advance t).tagFailed port)) := by
  obtain ⟨hswarm, htype, hlive, hrx, -, hphase⟩ := hcomes
  rw [exec_linkFrameReceive]
  refine run_eq hoff ?_
  simp only [State.advance_settings, hswarm, if_neg htype, State.advance_port_entry, hlive, State.receiveSealed, Port.opener, if_pos hphase, hrx, hopen,
    Option.map_some, beq_self_eq_true, Bool.true_or, onlyIf_true]

/-! ### The counterexample -/

/-- A LIVE link of device 0 that has sent 2^44 frames under its key, before KEY_EXHAUSTED. -/
def wornPort : Port :=
  { Port.fresh with state := .live, txCounter := 2 ^ 44, tx := some { key := [], salt := [] }, rx := some { key := [], salt := [] } }

def loneSwarm : SwarmCfg :=
  { swarmId := 1, racks := 1, freezeFw := false, step0Us := 1, step1Us := 1, fwDigest := [], serials := [0], edges := [], digest := [], deviceId := 0 }

/-- A device of a swarm with one port in use, and its synchronisation. -/
def inSwarm (p : Port) (w : Waggle) : State :=
  { State.reset with settings := { Settings.reset with swarm := some loneSwarm }, fabric := { Fabric.reset with ports := [(0, p)] }, waggle := w }

theorem comes_wornPort : Comes (inSwarm wornPort Waggle.reset) 0 [] loneSwarm { key := [], salt := [] } { key := [], salt := [] } := by
  unfold Comes
  decide

/-- Refutes O51: it has every credit frame counted on a LIVE link, but one whose key has carried 2^44 frames sends nothing more (R317), not even
the answer to the false tag of an empty frame. -/
theorem not_linkFrames : ¬ Obligations.LinkFrames := by
  rintro ⟨-, hreceive, -⟩
  obtain ⟨hfalse, -⟩ := hreceive 0 0 [] _ _ _ _ rfl comes_wornPort
  obtain ⟨s', hexec, -, -, -, -, hport, -⟩ := hfalse rfl
  rw [exec_linkFrameReceive_falseTag rfl comes_wornPort rfl] at hexec
  cases hexec
  have hstays := txCounter_tagFailed_keyUsedUp (s := (inSwarm wornPort Waggle.reset).advance 0) (port := 0) (by decide)
  rw [settled_port] at hport
  rw [hport] at hstays
  exact absurd hstays (by decide)

end Sys2Proof.Machine
end

section
/-! Refutes O52 (R321): a device takes its own id as root also where a peer advertises that id. -/

namespace Sys2Proof.Machine

open Sys2Proof.Safety

/-- ROOT_SELF_ELECT on an established device whose id no SYNCED or ROOT peer undercuts (R321, log 132). -/
theorem exec_rootSelfElect_notUndercut {s : State} {t : Nat} {c : SwarmCfg} (hoff : s.power.off = false) (hswarm : s.settings.swarm = some c)
    (hest : s.waggle.established = true) (hlow : ∀ a ∈ s.waggle.rooted, c.deviceId ≤ a.2.rootId) :
    exec (.rootSelfElect t) s = .next (settled t s { s.advance t with waggle := s.waggle.becomeRoot c.deviceId }) := by
  have hself : s.waggle.selfRoot c.deviceId (s.advance t).now = true := by
    rw [Waggle.selfRoot, hest, List.all_eq_true.2 fun a ha => decide_eq_true (hlow a ha)]
    rfl
  rw [exec_rootSelfElect]
  refine run_eq hoff ?_
  simp only [State.deviceId, State.advance_settings, hswarm, Option.map_some, State.advance_waggle, hself, onlyIf_true]

/-- Device 0 is established and SYNCED, and has no parent; its peer still follows it, and so advertises root 0. -/
def rootGone : Waggle :=
  { Waggle.reset with sync := .synced, established := true, adverts := [(0, { rootId := 0, hops := 1, state := .synced, established := true })] }

theorem not_takesRoot_rootGone (n : Nat) : ¬ TakesRoot rootGone 0 n := by
  rintro (⟨-, hlower⟩ | ⟨hnone, -⟩)
  · exact absurd (hlower _ (List.mem_singleton_self _) (by decide)) (by decide)
  · exact absurd (hnone _ (List.mem_singleton_self _)) (by decide)

/-- Refutes O52: `TakesRoot` asks that the device's id be lower than every root advertised, but the model lets a device take its own id also where a
follower of its own advertises it (log 132): ROOT_SELF_ELECT makes it ROOT where the statement has it change nothing. -/
theorem not_waggleSynchronises : ¬ Obligations.WaggleSynchronises := by
  rintro ⟨-, helect, -⟩
  obtain ⟨-, hstays⟩ := helect 0 loneSwarm (inSwarm Port.fresh rootGone) rfl rfl
  obtain ⟨s', hexec, honly⟩ := hstays (not_takesRoot_rootGone _)
  rw [exec_rootSelfElect_notUndercut (c := loneSwarm) rfl rfl rfl (by decide)] at hexec
  cases hexec
  exact absurd (congrArg (·.waggle.sync) honly) (by decide)

end Sys2Proof.Machine
end

section
/-! For O45 (R335, R341, R351): what a comb fault does to the comb, the log and the runs that held its cells. -/

namespace Sys2Proof.Machine

open Sys2Proof.Safety

/-! ### Runs that are stopped where they stand -/

/-- From s to z nothing but cells, shelves and runs differs; every run is still there, as it was or caught. -/
structure Halts (s z : State) : Prop where
  frame : ∃ cs es gs, z = { s with combs := cs, cells := es, segs := gs }
  bare : BareKept s z
  runs : ∃ f : SegRun → SegRun, z.segs = s.segs.map f ∧ ∀ x, (f x).id = x.id ∧ (f x = x ∨ Caught (f x))

theorem halts_refl (s : State) : Halts s s :=
  ⟨⟨s.combs, s.cells, s.segs, rfl⟩, fun _ => rfl, id, (List.map_id _).symm, fun _ => ⟨rfl, .inl rfl⟩⟩

theorem halts_trans {s z y : State} (h : Halts s z) (g : Halts z y) : Halts s y := by
  obtain ⟨⟨_, _, _, rfl⟩, hbare, f, hf, hcaught⟩ := h
  obtain ⟨⟨cs, es, gs, rfl⟩, gbare, f', hf', gcaught⟩ := g
  refine ⟨⟨cs, es, gs, rfl⟩, bareKept_trans hbare gbare, f' ∘ f, by rw [hf', hf, List.map_map], fun x => ?_⟩
  obtain ⟨hid, hx⟩ := hcaught x
  obtain ⟨gid, gx | gx⟩ := gcaught (f x)
  · exact ⟨gid.trans hid, by rwa [Function.comp_apply, gx]⟩
  · exact ⟨gid.trans hid, .inr gx⟩

theorem halts_foldl {α : Type} {f : State → α → State} (hf : ∀ s a, Halts s (f s a)) (l : List α) (s : State) : Halts s (l.foldl f s) :=
  List.foldlRecOn l f (halts_refl s) fun y hy a _ => halts_trans hy (hf y a)

/-- A gang that waits again: its runs restarted and changed by f; nothing but cells, shelves and runs differs. -/
theorem requeueGang_eq (s : State) (g : SegRun) (f : SegRun → SegRun) :
    ∃ cs es, s.requeueGang g f =
      { s with combs := cs, cells := es, segs := s.segs.map fun m => if g.gangOf m then f (m.restart s.now) else m } := by
  obtain ⟨cs, es, h⟩ := foldl_combs_cells (fun s (m : SegRun) => (s.releaseCells m.cells).unrefSeg m.id) (fun s m => by
    obtain ⟨es, h⟩ := releaseCells_cells s m.cells
    exact ⟨_, es, by rw [h]; rfl⟩) (s.segs.filter g.gangOf) s
  exact ⟨cs, es, by rw [State.requeueGang, h]⟩

theorem halts_requeueGang (s : State) (g : SegRun) : Halts s (s.requeueGang g id) := by
  have hbare := (withdrawn_requeueGang s g).bare
  obtain ⟨cs, es, h⟩ := requeueGang_eq s g id
  rw [h] at hbare ⊢
  refine ⟨⟨cs, es, _, rfl⟩, hbare, _, rfl, fun x => ?_⟩
  split
  · exact ⟨rfl, .inr (.inr ⟨rfl, rfl⟩)⟩
  · exact ⟨rfl, .inl rfl⟩

/-- A run stopped on its cells: they stop, and it is drained. -/
theorem stopRun_eq (s : State) (g : SegRun) :
    ∃ es, s.stopRun g = { s with cells := es, segs := s.segs.map fun x => if x.id = g.id then { x with phase := .drained } else x } := by
  obtain ⟨es, h⟩ : ∃ es, g.cells.foldl (fun s c => s.updCell c Cell.stop) s = { s with cells := es } :=
    List.foldlRecOn (motive := fun y : State => ∃ es, y = { s with cells := es }) g.cells _ ⟨s.cells, rfl⟩ fun y hy c _ => by
      obtain ⟨es, rfl⟩ := hy
      exact ⟨_, rfl⟩
  exact ⟨es, by rw [State.stopRun, h]; rfl⟩

theorem halts_stopRun (s : State) (g : SegRun) : Halts s (s.stopRun g) := by
  obtain ⟨es, h⟩ := stopRun_eq s g
  rw [h]
  refine ⟨⟨s.combs, es, _, rfl⟩, fun _ => rfl, _, rfl, fun x => ?_⟩
  split
  · exact ⟨rfl, .inr (.inl rfl)⟩
  · exact ⟨rfl, .inl rfl⟩

theorem halts_drainGang (s : State) (g : SegRun) : Halts s (s.drainGang g) := by
  unfold State.drainGang
  dsimp only
  split
  · exact halts_requeueGang s g
  · exact halts_foldl halts_stopRun _ s

/-! ### The run whose gang is stopped is caught -/

/-- Every run of a number is caught. -/
def CaughtAll (id : Nat) (s : State) : Prop := ∀ x ∈ s.segs, x.id = id → Caught x

/-- Halting more runs frees none. -/
theorem caughtAll_of_halts {id : Nat} {s z : State} (h : Halts s z) (hs : CaughtAll id s) : CaughtAll id z := by
  obtain ⟨-, -, f, hf, hcaught⟩ := h
  intro y hy hid
  obtain ⟨x, hx, rfl⟩ := List.mem_map.1 (hf ▸ hy)
  obtain ⟨hxid, heq | hc⟩ := hcaught x
  · rw [heq]
    exact hs x hx (hxid.symm.trans hid)
  · exact hc

theorem caughtAll_stopRun (s : State) (g : SegRun) : CaughtAll g.id (s.stopRun g) := by
  obtain ⟨es, h⟩ := stopRun_eq s g
  rw [h]
  intro y hy hid
  obtain ⟨x, -, rfl⟩ := List.mem_map.1 hy
  by_cases hx : x.id = g.id
  · rw [if_pos hx]
    exact .inl rfl
  · rw [if_neg hx] at hid
    exact absurd hid hx

theorem caughtAll_requeueGang {s : State} {g : SegRun} (honly : ∀ x ∈ s.segs, x.id = g.id → g.gangOf x = true) : CaughtAll g.id (s.requeueGang g id) := by
  obtain ⟨_, _, h⟩ := requeueGang_eq s g id
  rw [h]
  intro y hy hid
  obtain ⟨x, hx, rfl⟩ := List.mem_map.1 hy
  by_cases hgang : g.gangOf x = true
  · rw [if_pos hgang]
    exact .inr ⟨rfl, rfl⟩
  · rw [if_neg hgang] at hid
    exact absurd (honly x hx hid) hgang

theorem gangOf_self {g : SegRun} (h : g.gang.contains g.idx = true) : g.gangOf g = true := by
  rw [SegRun.gangOf, h]
  simp [SegRun.ofCmd]

/-- A run that holds cells is caught with its gang, which stops or waits again as a whole. -/
theorem caughtAll_drainGang {s : State} {g : SegRun} (hg : g ∈ s.segs) (honly : ∀ x ∈ s.segs, x.id = g.id → x = g)
    (hgang : g.gang.contains g.idx = true) (hcells : g.cells ≠ []) : CaughtAll g.id (s.drainGang g) := by
  unfold State.drainGang
  dsimp only
  split
  · refine caughtAll_requeueGang fun x hx hid => ?_
    rw [honly x hx hid]
    exact gangOf_self hgang
  · have hmember : g ∈ s.segs.filter fun x => g.gangOf x && !x.cells.isEmpty := by
      rw [List.mem_filter]
      exact ⟨hg, by simp [gangOf_self hgang, hcells]⟩
    exact foldl_reaches (P := fun _ => True) (Q := CaughtAll g.id) (fun _ _ _ => trivial)
      (fun y x => caughtAll_of_halts (halts_stopRun y x)) hmember (fun y _ => caughtAll_stopRun y g) trivial

/-! ### The fault of a comb -/

/-- A draining comb takes hold of one of its runs: it stops the run's gang, unless that is done. -/
def State.drainRun (s : State) (g : SegRun) : State :=
  match s.seg? g.id with
  | none => s
  | some g => if g.phase = .drained ∨ g.cells.isEmpty then s else s.drainGang g

/-- A comb once it has faulted: it drains, its bound is suspended, and the fault is counted. -/
def Comb.faulted (k : Comb) : Comb := { k with svc := .draining, suspended := true, faults := min 3 (k.faults + 1) }

/-- The log once a comb has faulted: the fault is counted and recorded, and so is the suspension of the bound (R335, R351). -/
def Log.faulted (l : Log) (c source cell now : Nat) : Log :=
  (({ l with combFaults := capAt 0xFFFF (l.combFaults + 1) } : Log).add
    { type := Rec.combFault, flags := 0, ten := 0xFFFF, source := c, waggle := now, arg0 := source, arg1 := cell }).add
    { type := Rec.boundSuspended, flags := 1, ten := 0xFFFF, source := c, waggle := now, arg0 := 1, arg1 := 0 }

/-- A device that has noted a comb fault and has not yet touched the runs. -/
def State.faultNoted (s : State) (c source cell : Nat) : State :=
  { s.updComb c Comb.faulted with log := s.log.faulted c source cell s.now }

theorem faultComb_live {s : State} {c : Nat} (source cell : Nat) (h : (s.comb c).svc.live = true) :
    s.faultComb c source cell = (s.segs.filter fun g => g.comb == c && !g.cells.isEmpty).foldl State.drainRun (s.faultNoted c source cell) := by
  unfold State.faultComb
  rw [if_neg (by simp [h])]
  rfl

theorem faultComb_dead {s : State} {c : Nat} (source cell : Nat) (h : (s.comb c).svc.live = false) : s.faultComb c source cell = s := by
  unfold State.faultComb
  rw [if_pos (by simp [h])]

theorem halts_drainRun (s : State) (g : SegRun) : Halts s (s.drainRun g) := by
  unfold State.drainRun
  split
  · exact halts_refl s
  · split
    · exact halts_refl s
    · exact halts_drainGang s _

theorem halts_faultComb {s : State} {c : Nat} (source cell : Nat) (h : (s.comb c).svc.live = true) :
    Halts (s.faultNoted c source cell) (s.faultComb c source cell) := by
  rw [faultComb_live source cell h]
  exact halts_foldl halts_drainRun _ _

theorem log_faultComb {s : State} {c : Nat} (source cell : Nat) (h : (s.comb c).svc.live = true) :
    (s.faultComb c source cell).log = s.log.faulted c source cell s.now := by
  obtain ⟨_, _, _, hframe⟩ := (halts_faultComb source cell h).frame
  rw [hframe]
  rfl

theorem bare_faultComb {s : State} {c : Nat} (source cell : Nat) (h : (s.comb c).svc.live = true) (j : Nat) :
    ((s.faultComb c source cell).comb j).bare = if j = c then (s.comb c).bare.faulted else (s.comb j).bare := by
  refine ((halts_faultComb source cell h).bare j).trans ((congrArg Comb.bare (comb_updComb s c Comb.faulted j)).trans ?_)
  split <;> rfl

/-- Once its turn has come, a run of the comb is caught, whether its gang had been stopped before or not. -/
theorem caughtAll_drainRun {s z : State} {g : SegRun} (h : Halts s z) (hg : g ∈ s.segs) (honly : ∀ x ∈ s.segs, x.id = g.id → x = g)
    (hgang : g.gang.contains g.idx = true) (hcells : g.cells ≠ []) : CaughtAll g.id (z.drainRun g) := by
  obtain ⟨f, hf, hcaught⟩ := h.runs
  obtain ⟨-, hfg⟩ := hcaught g
  have honly' : ∀ x ∈ z.segs, x.id = g.id → x = f g := by
    intro x hx hxid
    obtain ⟨m, hm, rfl⟩ := List.mem_map.1 (hf ▸ hx)
    rw [honly m hm ((hcaught m).1.symm.trans hxid)]
  unfold State.drainRun
  split
  next hnone => exact fun x hx hxid => absurd hxid (by simpa using List.find?_eq_none.1 hnone x hx)
  next x hx =>
    have hx' : x = f g := honly' x (mem_of_seg hx) (seg_id hx)
    rcases hfg with heq | hc
    · rw [heq] at hx' honly'
      subst hx'
      split
      next hdone =>
        have hdrained : x.phase = .drained := hdone.resolve_right (by simpa using hcells)
        exact fun y hy hyid => honly' y hy hyid ▸ .inl hdrained
      next => exact caughtAll_drainGang (mem_of_seg hx) honly' hgang hcells
    · have hdone : x.phase = .drained ∨ x.cells.isEmpty := hx' ▸ hc.imp id fun h => by rw [h.2]; rfl
      rw [if_pos hdone]
      exact fun y hy hyid => honly' y hy hyid ▸ hc

/-- A comb fault catches every run that holds cells of the comb (R341). -/
theorem faultComb_catches {s : State} {c : Nat} (source cell : Nat) (h : (s.comb c).svc.live = true) (hn : RunsNamed s) {g : SegRun}
    (hg : g ∈ s.segs) (hc : g.comb = c) (hcells : g.cells ≠ []) : CaughtAll g.id (s.faultComb c source cell) := by
  obtain ⟨hnodup, hgangs⟩ := hn
  have honly : ∀ x ∈ s.segs, x.id = g.id → x = g := fun x hx hid => List.inj_on_of_nodup_map hnodup hx hg hid
  have hlisted : g ∈ s.segs.filter fun g => g.comb == c && !g.cells.isEmpty := by
    rw [List.mem_filter]
    exact ⟨hg, by simp [hc, hcells]⟩
  rw [faultComb_live source cell h]
  exact foldl_reaches (P := Halts (s.faultNoted c source cell)) (Q := CaughtAll g.id) (fun y x hy => halts_trans hy (halts_drainRun y x))
    (fun y x => caughtAll_of_halts (halts_drainRun y x)) hlisted (fun y hy => caughtAll_drainRun hy hg honly (hgangs g hg) hcells) (halts_refl _)

/-! ### COMB_FAULT and HEARTBEAT_TIMEOUT -/

theorem exec_combFault_next (t source cell : Nat) {c : Nat} {s : State} (hoff : s.power.off = false) (hc : c < 4) :
    exec (.combFault t c source cell) s = .next (settled t s ((s.advance t).faultComb c source cell)) := by
  rw [exec_combFault, execCombFault]
  exact run_eq hoff (if_pos (decide_eq_true hc))

/-- A missed heartbeat is a fault of its own source, of no cell in particular (R341, log 45). -/
theorem exec_heartbeatTimeout_eq (t c : Nat) (s : State) : exec (.heartbeatTimeout t c) s = exec (.combFault t c 1 0xFFFF) s := rfl

theorem combFault_drains (t source cell : Nat) {c : Nat} {s : State} (hoff : s.power.off = false) (hc : c < 4) (hn : RunsNamed s)
    (hlive : (s.comb c).svc.live = true) :
    ∃ s', exec (.combFault t c source cell) s = .next s' ∧ (s'.comb c).svc = .draining ∧ (s'.comb c).tj = (s.comb c).tj ∧
      (∀ j, j ≠ c → (s'.comb j).svc = (s.comb j).svc) ∧ s'.log = s.log.faulted c source cell (max s.now t) ∧
      ∀ g ∈ s.segs, g.comb = c → g.cells ≠ [] → ∀ x ∈ s'.segs, x.id = g.id → Caught x := by
  have hbare := bare_faultComb (s := s.advance t) source cell hlive
  have hself := (hbare c).trans (if_pos rfl)
  exact ⟨_, exec_combFault_next t source cell hoff hc, congrArg (·.svc) hself, congrArg (·.tj) hself,
    fun j hj => congrArg (·.svc) ((hbare j).trans (if_neg hj)), log_faultComb (s := s.advance t) source cell hlive,
    fun g hg hgc hcells => faultComb_catches (s := s.advance t) source cell hlive hn hg hgc hcells⟩

/-- A comb already out of service is left alone. -/
theorem combFault_ignored (t source cell : Nat) {c : Nat} {s : State} (hoff : s.power.off = false) (hc : c < 4) (hdead : (s.comb c).svc.live = false) :
    ∃ s', exec (.combFault t c source cell) s = .next s' ∧ OnlyTime s s' t :=
  ⟨_, exec_combFault_next t source cell hoff hc, by rw [faultComb_dead (s := s.advance t) source cell hdead]; rfl⟩

end Sys2Proof.Machine
end

section
/-! Settles O45 (R335, R341, R342, R344, R351): comb faults, and the end of a comb's drain. -/

namespace Sys2Proof.Machine

open Sys2Proof.Safety

/-! ### Commands that a comb carries -/

/-- No copy to move, where none is carried. -/
theorem moveCopies_noCarried {s : State} (c : Nat) (h : NoCarried s) : s.moveCopies c = s :=
  List.foldlRecOn (motive := fun y => y = s) s.rings _ rfl fun _ hy r hr =>
    List.foldlRecOn (motive := fun y => y = s) r.2.cmds _ hy fun _ hz x hx =>
      (if_neg fun ⟨hop, hp, _⟩ => (h r hr x hx hp).1 hop).trans hz

/-- No load to fail, where none is carried. -/
theorem failLoads_noCarried {s : State} (c : Nat) (h : NoCarried s) : s.failLoads c = s := by
  refine List.foldlRecOn (motive := fun y => y = s) s.rings _ rfl fun _ hy r hr =>
    List.foldlRecOn (motive := fun y => y = s) r.2.cmds _ hy fun z hz x hx => ?_
  subst hz
  split
  next hp _ _ =>
    split
    · exact if_neg fun ⟨hop, _⟩ => (h r hr x hx hp).2 hop
    · rfl
  · rfl

/-- A change of an evaluation starts no command. -/
theorem noCarried_updEval {s : State} (h : NoCarried s) (ten lring seq : Nat) (f : Eval → Eval) : NoCarried (s.updEval ten lring seq f) := by
  intro r hr x hx hp
  rcases Tbl.mem_put hr with rfl | hr
  · obtain ⟨y, hy, rfl⟩ := List.mem_map.1 hx
    have hkept : y.phase = .started → y.opcode ≠ 0x50 ∧ y.opcode ≠ 0x04 := by
      cases hlook : Tbl.look s.rings (ringKey ten lring) with
      | none =>
        rw [Tbl.lookD, hlook] at hy
        cases hy
      | some q =>
        rw [Tbl.lookD, hlook] at hy
        exact h _ (Tbl.mem_of_look hlook) y hy
    by_cases hs : y.seq = seq
    · rw [if_pos hs] at hp ⊢
      exact hkept hp
    · rw [if_neg hs] at hp ⊢
      exact hkept hp
  · exact h r hr x hx hp

theorem noCarried_failEval {s : State} (h : NoCarried s) (ten lring seq : Nat) (e : Err) : NoCarried (s.failEval ten lring seq e) := by
  obtain ⟨_, _, heq⟩ := failEval_eq s ten lring seq e
  rw [heq]
  exact noCarried_updEval h _ _ _ _

theorem noCarried_requeueGang {s : State} (h : NoCarried s) (g : SegRun) (f : SegRun → SegRun) : NoCarried (s.requeueGang g f) := by
  obtain ⟨_, _, heq⟩ := requeueGang_eq s g f
  rw [heq]
  exact h

/-! ### The drained runs of a comb -/

/-- A run that has been replayed once more (R344). -/
def SegRun.replayed (x : SegRun) : SegRun := { x with replay := true, replays := x.replays + 1 }

theorem classify_replayable {s : State} {g : SegRun} (c : Nat) (hfail : g.fail = none) (h : s.replayable g = true) :
    s.classify c g = s.requeueGang g SegRun.replayed := by
  unfold State.classify
  rw [if_neg (by simp [hfail]), if_pos h]
  rfl

theorem classify_not_replayable {s : State} {g : SegRun} (c : Nat) (hfail : g.fail = none) (h : s.replayable g = false) :
    s.classify c g = s.failEval g.ten g.lring g.seq (St.combFault, c) := by
  unfold State.classify
  rw [if_neg (by simp [hfail]), if_neg (by simp [h])]

/-- The end of a comb's drain decides what becomes of one of its runs. -/
def State.classifyRun (s : State) (c : Nat) (g : SegRun) : State :=
  match s.seg? g.id with
  | none => s
  | some g => if g.phase = .drained then s.classify c g else s

/-- The drained runs of a comb. -/
def State.drainedOn (s : State) (c : Nat) : List SegRun := s.segs.filter fun g => g.comb == c && g.phase == .drained

/-- Every drained run of a comb is replayed, or its EVAL fails. -/
def State.classifyRuns (s : State) (c : Nat) : State := (s.drainedOn c).foldl (fun y g => y.classifyRun c g) s

/-- One drained run on the comb: it alone is classified. -/
theorem classifyRuns_single {s : State} {c : Nat} {g : SegRun} (h : s.drainedOn c = [g]) (hg : s.seg? g.id = some g) :
    s.classifyRuns c = s.classify c g := by
  have hmem : g ∈ s.drainedOn c := h ▸ List.mem_singleton_self g
  have hphase : g.phase = .drained := by
    have hp := (List.mem_filter.1 hmem).2
    rw [Bool.and_eq_true, beq_iff_eq, beq_iff_eq] at hp
    exact hp.2
  rw [State.classifyRuns, h, List.foldl_cons, List.foldl_nil, State.classifyRun, hg]
  exact if_pos hphase

/-- COMB_DRAIN_COMPLETE where no copy or load is carried: the runs are classified, and the comb resets (R342). -/
theorem exec_combDrainComplete_next {t c : Nat} {s : State} (hoff : s.power.off = false) (hsvc : (s.comb c).svc = .draining)
    (hcarried : NoCarried ((s.advance t).classifyRuns c)) :
    exec (.combDrainComplete t c) s = .next (settled t s (((s.advance t).classifyRuns c).updComb c fun k => { k with svc := .resetting })) := by
  rw [exec_combDrainComplete, execCombDrainComplete]
  refine run_eq hoff ((if_pos (by simp [hsvc])).trans ?_)
  change ((((s.advance t).classifyRuns c).moveCopies c).failLoads c).updComb c _ = _
  rw [moveCopies_noCarried c hcarried, failLoads_noCarried c hcarried]

section

variable {t c : Nat} {s : State} {g : SegRun} (hoff : s.power.off = false) (hsvc : (s.comb c).svc = .draining) (hcarried : NoCarried s)
include hoff hsvc hcarried

/-- No run is drained: the comb resets, and nothing else happens. -/
theorem combDrainComplete_idle (h : s.drainedOn c = []) :
    ∃ s', exec (.combDrainComplete t c) s = .next s' ∧ OnlyComb s s' t c ∧ s'.comb c = { s.comb c with svc := .resetting } := by
  have hz : (s.advance t).classifyRuns c = s.advance t := congrArg (List.foldl _ (s.advance t)) h
  refine ⟨_, exec_combDrainComplete_next hoff hsvc (by rwa [hz]), ?_⟩
  rw [hz]
  exact updComb_settles s t c _

variable (h : s.drainedOn c = [g]) (hg : s.seg? g.id = some g) (hfail : g.fail = none)
include h hg hfail

/-- The gang of the drained run may be replayed: it waits again from its start (R342, R344). -/
theorem combDrainComplete_replays (hr : s.replayable g = true) :
    ∃ s', exec (.combDrainComplete t c) s = .next s' ∧ (s'.comb c).svc = .resetting ∧ s'.dram = s.dram ∧ s'.log = s.log ∧
      s'.segs = s.segs.map fun m => if g.gangOf m then (m.restart (max s.now t)).replayed else m := by
  have hz : (s.advance t).classifyRuns c = (s.advance t).requeueGang g SegRun.replayed :=
    (classifyRuns_single (s := s.advance t) h hg).trans (classify_replayable (s := s.advance t) c hfail hr)
  refine ⟨_, exec_combDrainComplete_next hoff hsvc (by rw [hz]; exact noCarried_requeueGang (s := s.advance t) hcarried g _), ?_, ?_⟩
  · rw [settled_comb, State.comb_updComb_self]
  · obtain ⟨_, _, heq⟩ := requeueGang_eq (s.advance t) g SegRun.replayed
    rw [hz, heq]
    exact ⟨rfl, rfl, rfl⟩

/-- It may not: its EVAL has failed with the comb's number (R342, R344). -/
theorem combDrainComplete_fails (hr : s.replayable g = false) {v : Eval} (hv : evalOf s g.ten g.lring g.seq = some v) :
    ∃ s', exec (.combDrainComplete t c) s = .next s' ∧ (s'.comb c).svc = .resetting ∧ FailsEval s s' g.ten g.lring g.seq v (St.combFault, c) := by
  have hz : (s.advance t).classifyRuns c = (s.advance t).failEval g.ten g.lring g.seq (St.combFault, c) :=
    (classifyRuns_single (s := s.advance t) h hg).trans (classify_not_replayable (s := s.advance t) c hfail hr)
  refine ⟨_, exec_combDrainComplete_next hoff hsvc (by rw [hz]; exact noCarried_failEval (s := s.advance t) hcarried _ _ _ _), ?_, ?_⟩
  · rw [settled_comb, State.comb_updComb_self]
  · rw [hz]
    exact (failEval_settles (t := t) (St.combFault, c) hv).1

end

/-- Settles O45: a live comb's fault halts runs only, and catches each of its own when that run's turn comes; the end of the drain is what
`State.classify` makes of the one drained run, since moving copies and failing loads find none. -/
theorem combFaultsStop : Obligations.CombFaultsStop := by
  refine ⟨fun t c source cell s hoff hc hn => ⟨fun hlive ask hask => ?_, fun hdead => ⟨?_, ?_⟩⟩,
    fun t c s hoff hsvc hcarried => ⟨fun g h hg hfail => ⟨?_, ?_⟩, ?_⟩⟩
  · rcases hask with rfl | ⟨rfl, rfl, rfl⟩
    · exact combFault_drains t source cell hoff hc hn hlive
    · rw [exec_heartbeatTimeout_eq]
      exact combFault_drains t 1 0xFFFF hoff hc hn hlive
  · exact combFault_ignored t source cell hoff hc hdead
  · rw [exec_heartbeatTimeout_eq]
    exact combFault_ignored t 1 0xFFFF hoff hc hdead
  · exact combDrainComplete_replays hoff hsvc hcarried h hg hfail
  · exact fun hr v => combDrainComplete_fails hoff hsvc hcarried h hg hfail hr
  · exact combDrainComplete_idle hoff hsvc hcarried

end Sys2Proof.Machine
end

section
/-! Settles O60 (R375, R376, R392): no step breaks DRAM's canonical form, and only the commit of a running trial burns fuses. -/

namespace Sys2Proof.Machine

open Sys2Proof.Safety Sys2Proof.Laws

/-- What a command does to DRAM's form and the fuses. Only COMMIT and the register writes through which the host can ask for it may burn any. -/
def BurnsIfMay (c : Instr) : Prop := ∀ {s s' : State}, exec c s = .next s' →
  bif [Instr.registerWrite 0 0 0 0 0 [], .tnWrite 0 0 0 0 0, .wallClockWrite 0 0 0 0 0, .fwCommit 0].any (·.ctorIdx == c.ctorIdx)
    then Burns s s' else Steady s s'

/-- By the model's own lemma on each command. -/
theorem burnsIfMay (c : Instr) : BurnsIfMay c :=
  c.casesOn (motive := BurnsIfMay)
    (registerWrite := @burns_execRegisterWrite)
    (tnWrite := @burns_execTnWrite)
    (wallClockWrite := @burns_execWallClockWrite)
    (fwCommit := @burns_execFwCommit)
    (i3cRead := @steady_execI3cRead)
    (i3cWrite := @steady_execI3cWrite)
    (ringEnable := @steady_execRingEnable)
    (ringDisable := @steady_execRingDisable)
    (ringDrained := @steady_execRingDrained)
    (kick := @steady_execKick)
    (ringPoll := @steady_execRingPoll)
    (cmdSessionOpen := @steady_execCmdSessionOpen)
    (cmdSessionClose := @steady_execCmdSessionClose)
    (cmdKeysetLoad := @steady_execCmdKeysetLoad)
    (cmdModelLoad := @steady_execCmdModelLoad)
    (cmdModelRetire := @steady_execCmdModelRetire)
    (cmdEval := @steady_execCmdEval)
    (cmdRoundtripResume := @steady_execCmdRoundtripResume)
    (cmdEncodeEncrypt := @steady_execCmdEncodeEncrypt)
    (encodeAndEncrypt := @steady_execEncodeAndEncrypt)
    (encryptPlaintext := @steady_execEncryptPlaintext)
    (generateSecretKey := @steady_execGenerateSecretKey)
    (generateKeySet := @steady_execGenerateKeySet)
    (cmdDecryptDecode := @steady_execCmdDecryptDecode)
    (decryptAndDecode := @steady_execDecryptAndDecode)
    (decryptToPlaintext := @steady_execDecryptToPlaintext)
    (eraseSlot := @steady_execEraseSlot)
    (cmdPke := @steady_execCmdPke)
    (sign := @steady_execSign)
    (verify := @steady_execVerify)
    (keygen := @steady_execKeygen)
    (derive := @steady_execDerive)
    (importKey := @steady_execImportKey)
    (erase := @steady_execErase)
    (publicKey := @steady_execPublicKey)
    (quote := @steady_execQuote)
    (ephRelease := @steady_execEphRelease)
    (getCert := @steady_execGetCert)
    (cmdMeterRead := @steady_execCmdMeterRead)
    (meterSnapshot := @steady_execMeterSnapshot)
    (meterTake := @steady_execMeterTake)
    (cmdCopy := @steady_execCmdCopy)
    (cmdFence := @steady_execCmdFence)
    (heldCommandRelease := @steady_execHeldCommandRelease)
    (entropyHoldExpire := @steady_execEntropyHoldExpire)
    (finalCompletionWrite := @steady_execFinalCompletionWrite)
    (msixModTimer := @steady_execMsixModTimer)
    (dispatch := @steady_execDispatch)
    (dispatchStarvation := @steady_execDispatchStarvation)
    (segmentYield := @steady_execSegmentYield)
    (cellScrubComplete := @steady_execCellScrubComplete)
    (segmentStart := @steady_execSegmentStart)
    (segmentEnd := @steady_execSegmentEnd)
    (rtOutboundWrite := @steady_execRtOutboundWrite)
    (rtAttemptExpire := @steady_execRtAttemptExpire)
    (rtInterimDeadline := @steady_execRtInterimDeadline)
    (wait := @steady_execWait)
    (post := @steady_execPost)
    (jump := @steady_execJump)
    (loop := @steady_execLoop)
    (handoff := @steady_execHandoff)
    (halt := @steady_execHalt)
    (setmod := @steady_execSetmod)
    (setadv := @steady_execSetadv)
    (timerLoad := @steady_execTimerLoad)
    (timerStop := @steady_execTimerStop)
    (latchArm := @steady_execLatchArm)
    (latchDisarm := @steady_execLatchDisarm)
    (moveDirect := @steady_execMoveDirect)
    (moveStencil := @steady_execMoveStencil)
    (moveBankLoad := @steady_execMoveBankLoad)
    (winOpen := @steady_execWinOpen)
    (winClose := @steady_execWinClose)
    (mact := @steady_execMact)
    (macv := @steady_execMacv)
    (nttf := @steady_execNttf)
    (ntti := @steady_execNtti)
    (tadd := @steady_execTadd)
    (tsub := @steady_execTsub)
    (tmul := @steady_execTmul)
    (tmulc := @steady_execTmulc)
    (tperm := @steady_execTperm)
    (tdec := @steady_execTdec)
    (tresc := @steady_execTresc)
    (tred := @steady_execTred)
    (skim := @steady_execSkim)
    (noise := @steady_execNoise)
    (instructionComplete := @steady_execInstructionComplete)
    (remoteWriteArrive := @steady_execRemoteWriteArrive)
    (tokenMoveArrive := @steady_execTokenMoveArrive)
    (remoteRead := @steady_execRemoteRead)
    (timerExpire := @steady_execTimerExpire)
    (waggleStepEdge := @steady_execWaggleStepEdge)
    (segmentWatchdog := @steady_execSegmentWatchdog)
    (foragerTileDeliver := @steady_execForagerTileDeliver)
    (multicastGranuleFetch := @steady_execMulticastGranuleFetch)
    (relayHop := @steady_execRelayHop)
    (paceInterval := @steady_execPaceInterval)
    (c0HoldExpire := @steady_execC0HoldExpire)
    (thermalSample := @steady_execThermalSample)
    (thermalEmergencyEnd := @steady_execThermalEmergencyEnd)
    (combThermalRecover := @steady_execCombThermalRecover)
    (thermalTrip := @steady_execThermalTrip)
    (combRestEntry := @steady_execCombRestEntry)
    (combFault := @steady_execCombFault)
    (heartbeatTimeout := @steady_execHeartbeatTimeout)
    (combDrainComplete := @steady_execCombDrainComplete)
    (combResetComplete := @steady_execCombResetComplete)
    (dramCorrected := @steady_execDramCorrected)
    (dramUncorrectable := @steady_execDramUncorrectable)
    (shelfUncorrectable := @steady_execShelfUncorrectable)
    (patrolScrub := @steady_execPatrolScrub)
    (flitReplay := @steady_execFlitReplay)
    (laneRetrain := @steady_execLaneRetrain)
    (retrainTestDone := @steady_execRetrainTestDone)
    (entropySample := @steady_execEntropySample)
    (drbgSeeded := @steady_execDrbgSeeded)
    (drbgReseed := @steady_execDrbgReseed)
    (noiseReseed := @steady_execNoiseReseed)
    (ephKeyExpire := @steady_execEphKeyExpire)
    (meterMsTick := @steady_execMeterMsTick)
    (epochClose := @steady_execEpochClose)
    (meterRecordSign := @steady_execMeterRecordSign)
    (swarmConfigLoad := @steady_execSwarmConfigLoad)
    (linkLightDetect := @steady_execLinkLightDetect)
    (laneLock := @steady_execLaneLock)
    (trainingTimeout := @steady_execTrainingTimeout)
    (attestationReceive := @steady_execAttestationReceive)
    (attestTimeout := @steady_execAttestTimeout)
    (keyConfirmReceive := @steady_execKeyConfirmReceive)
    (keyConfirmTimeout := @steady_execKeyConfirmTimeout)
    (lightLoss := @steady_execLightLoss)
    (quarantineReattest := @steady_execQuarantineReattest)
    (linkFrameSend := @steady_execLinkFrameSend)
    (linkFrameReceive := @steady_execLinkFrameReceive)
    (tagFailureLimit := @steady_execTagFailureLimit)
    (rekeyTrigger := @steady_execRekeyTrigger)
    (rekeyRetry := @steady_execRekeyRetry)
    (keyExhausted := @steady_execKeyExhausted)
    (timeExchange := @steady_execTimeExchange)
    (rootSelfElect := @steady_execRootSelfElect)
    (syncLost := @steady_execSyncLost)
    (fabricMessageLand := @steady_execFabricMessageLand)
    (fabricAckReceive := @steady_execFabricAckReceive)
    (fabricRecvStart := @steady_execFabricRecvStart)
    (fabricDeadline := @steady_execFabricDeadline)
    (routeFailureNotice := @steady_execRouteFailureNotice)
    (coldStart := @steady_execColdStart)
    (startLaneTestDone := @steady_execStartLaneTestDone)
    (dramTrainingDone := @steady_execDramTrainingDone)
    (startScrubDone := @steady_execStartScrubDone)
    (warmReset := @steady_execWarmReset)
    (pwResetWarm := @steady_execPwResetWarm)
    (drainTimeout := @steady_execDrainTimeout)
    (functionLevelReset := @steady_execFunctionLevelReset)
    (flrScrubDone := @steady_execFlrScrubDone)
    (pwResetPort := @steady_execPwResetPort)
    (d3hotEntry := @steady_execD3hotEntry)
    (deepRestGate := @steady_execDeepRestGate)
    (d0Return := @steady_execD0Return)
    (vfPowerState := @steady_execVfPowerState)
    (lowInputSet := @steady_execLowInputSet)
    (lowInputClear := @steady_execLowInputClear)
    (powerFail := @steady_execPowerFail)
    (holdupMeasure := @steady_execHoldupMeasure)
    (fwStart := @steady_execFwStart)
    (fwActivate := @steady_execFwActivate)
    (fwRollback := @steady_execFwRollback)
    (fwAbort := @steady_execFwAbort)
    (flashCommitDone := @steady_execFlashCommitDone)
    (updateResume := @steady_execUpdateResume)
    (trainingRetry := @steady_execTrainingRetry)
    (perstDeassert := @steady_execPerstDeassert)
    (commandFinish := @steady_execCommandFinish)
    (imageCheckDone := @steady_execImageCheckDone)
    (readBackDone := @steady_execReadBackDone)
    (freedPageScrubDone := @steady_execFreedPageScrubDone)

theorem of_cond {b : Bool} {p q : Prop} (h : bif b then p else q) (hqp : q → p) : p := by
  cases b
  · exact hqp h
  · exact h

theorem burns_exec {c : Instr} {s s' : State} (h : exec c s = .next s') : Burns s s' := of_cond (burnsIfMay c h) Steady.burns

theorem burns_step {s s' : State} (h : step s = .next s') : Burns s s' := by
  cases hp : s.pending with
  | nil => exact Host.Outcome.next.inj ((step_of_pending_nil hp).symm.trans h) ▸ (Steady.refl s).burns
  | cons c rest =>
    have hburns := burns_exec ((step_of_pending hp).symm.trans h)
    exact ⟨hburns.mem, hburns.serial, hburns.variant, hburns.svn⟩

/-- What a commit burns stays within the thermometer's 63 fuses. -/
theorem svn_le_of_burns {s s' : State} (h : Burns s s') (hs : s.fuses.svn ≤ 63) : s'.fuses.svn ≤ 63 := by
  rcases h.svn with heq | ⟨-, -, heq⟩
  · rwa [heq]
  · rw [heq]
    exact max_le hs (min_le_left _ _)

/-- Settles O60: a step is `Burns` whatever command it takes, and what is burnt is at most 63. -/
theorem everyStepKeepsInvariant : Obligations.EveryStepKeepsInvariant := by
  rintro s s' ⟨hmem, hsvn⟩ hstep
  have hburns := burns_step hstep
  exact ⟨⟨hburns.mem hmem, svn_le_of_burns hburns hsvn⟩, hburns.serial, hburns.variant, hburns.svn⟩

end Sys2Proof.Machine
end

section
/-! Settles O58 (R415): when smb_alert_n is asserted. -/

namespace Sys2Proof.Machine

theorem smbAlert_iff (s : State) : s.smbAlert = true ↔
    s.power.emergency = true ∨ s.power.phase = .failed ∨ s.elec.lowInput = true ∨ s.elec.capping = true ∨ s.elec.powerFail = true := by
  unfold State.smbAlert
  simp only [Bool.or_eq_true, beq_iff_eq, or_assoc]

/-- Settles O58: the line is the disjunction of its five conditions, and released where each of them fails. -/
theorem smbAlertLine : Obligations.SmbAlertLine := by
  refine fun s => ⟨smbAlert_iff s, Bool.eq_false_iff.trans ((not_congr (smbAlert_iff s)).trans ?_)⟩
  simp only [not_or, Bool.not_eq_true, ne_eq]

end Sys2Proof.Machine
end

section
/-! Settles O22 (R9, R61, R357, R414): the I3C sideband and a write of WG_WALL. -/

namespace Sys2Proof.Machine

/-! ### What the bus reaches -/

/-- An access to a register starts at its base or at its high half. -/
def StartsAt (off : Nat) : Access → Prop
  | .reg base _ _ => off = base ∨ off = base + 4
  | _ => True

theorem startsAt_access (fn off width : Nat) : StartsAt off (access fn off width) :=
  iteInduction (motive := StartsAt off) (fun _ => trivial) fun _ =>
    iteInduction (motive := StartsAt off)
      (fun _ => iteInduction (motive := StartsAt off) (fun _ => .inl rfl) fun _ =>
        iteInduction (motive := StartsAt off) (fun _ => .inl rfl) fun _ =>
          iteInduction (motive := StartsAt off) (fun hhigh => .inr (Nat.sub_add_cancel (hhigh.1 ▸ Nat.mod_le off 8)).symm) fun _ => trivial)
      fun _ => iteInduction (motive := StartsAt off) (fun _ => .inl rfl) fun _ => iteInduction (motive := StartsAt off) (fun _ => trivial) fun _ => trivial

theorem i3cReaches_of_mem {off len : Nat} (hlen : len = 4 ∨ len = 8) (h : off ∈ i3cRegs) : i3cReaches off len = true := by
  rcases hlen with rfl | rfl
  · exact (by decide : ∀ r ∈ i3cRegs, i3cReaches r 4 = true) off h
  · exact (by decide : ∀ r ∈ i3cRegs, i3cReaches r 8 = true) off h

theorem i3cReaches_elsewhere {off : Nat} (len : Nat) (h : ∀ r ∈ i3cRegs, off ≠ r ∧ off ≠ r + 4) : i3cReaches off len ≠ true := by
  have hstart := startsAt_access 0 off len
  unfold i3cReaches
  generalize access 0 off len = a at hstart ⊢
  cases a with
  | reg base lo hi =>
    intro hmem
    have hoff := h base (List.contains_iff_mem.1 hmem)
    exact hstart.elim hoff.1 hoff.2
  | wrong => exact fun hmem => (h off (List.contains_iff_mem.1 hmem)).1 rfl
  | unassigned => exact Bool.false_ne_true

/-- I3C_READ of 4 or 8 bytes answers the value n. -/
theorem exec_i3cRead_next (t off : Nat) {len n : Nat} {s : State} (hoff : s.power.off = false) (hlen : len = 4 ∨ len = 8)
    (hn : (if i3cReaches off len then (s.advance t).readAccess 0 off len else 0) = n) :
    exec (.i3cRead t off len) s = .next (settled t s ((s.advance t).emit (.i3cData (toLE len n)))) := by
  have hguard : (len == 4 || len == 8) = true := (Bool.or_eq_true ..).mpr (hlen.imp beq_of_eq beq_of_eq)
  exact run_eq hoff ((if_pos hguard).trans (congrArg (fun n => (s.advance t).emit (.i3cData (toLE len n))) hn))

/-! ### A write of WG_WALL -/

theorem mayWriteReg_ready {s : State} (fn base v : Nat) (h : s.power.phase = .ready) : s.mayWriteReg fn base v = true := by
  unfold State.mayWriteReg
  rw [h]

/-- A 64-bit write of WG_WALL in READY, both halves of it, is the setting of the wall clock. -/
theorem exec_wallClockWrite_next (t : Nat) {v : Nat} {s : State} (hoff : s.power.off = false) (hready : s.power.phase = .ready) (hv : v < 2 ^ 64) :
    exec (.wallClockWrite t 0 0x40020 8 v) s = .next (settled t s ((s.advance t).setWall v)) := by
  have hmerge : v % 2 ^ 64 % 2 ^ 32 + v % 2 ^ 64 / 2 ^ 32 * 2 ^ 32 = v := (Nat.mod_add_div' ..).trans (Nat.mod_eq_of_lt hv)
  exact run_eq hoff ((if_pos (mayWriteReg_ready (s := s.advance t) _ _ _ hready)).trans (congrArg (s.advance t).setWall hmerge))

/-- Settles O22: the bus answers what `readAccess` gives where it reaches a register, and WG_WALL is `setWall`, before which no epoch closes. -/
theorem sidebandAndWallClock : Obligations.SidebandAndWallClock := by
  intro t off len v s hoff
  refine ⟨fun hlen hmem => exec_i3cRead_next t off hoff hlen (if_pos (i3cReaches_of_mem hlen hmem)),
    fun hlen hnone => exec_i3cRead_next t off hoff hlen (if_neg (i3cReaches_elsewhere len hnone)), (run_next hoff : execI3cWrite t off v s = _), ?_⟩
  intro hready hv hclose old back fwd
  refine (exec_wallClockWrite_next t hoff hready hv).trans (congrArg Host.Outcome.next ?_)
  unfold State.setWall
  rw [hclose]
  rfl

end Sys2Proof.Machine
end

section
/-! Settles O29 (R360 to R363, R418): what METER_SNAPSHOT and METER_TAKE write, and how they end. -/

namespace Sys2Proof.Machine

open Sys2Proof.Safety

section

variable {s : State} {t ten lring seq : Nat} {c : Cmd} (hc : s.cmd? ten lring seq = some c)
include hc

/-- Work that ends with e, and nothing else. -/
theorem endsSaying_done (e : Err) : EndsSaying s (settled t s ((s.advance t).done ten lring seq e)) t ten lring seq c e :=
  ⟨cmd_done_some (s := s.advance t) hc, onlyRing_settled (ringStep_updCmd ..)⟩

/-- Work that ends with e', the result of the writing of b, and has sent what the writing sends. -/
theorem endsWriting_done {h : HostView} {iova : Nat} {b : List Byte} {e e' : Err} {o : List Out}
    (he : (if (s.hostWrite h ten iova b).2 then e else (St.translationFault, 0)) = e') (ho : writesOut s h ten iova b = o) :
    EndsWriting s (settled t s (State.done { s.advance t with out := o } ten lring seq e')) h t ten lring seq c iova b e :=
  ⟨(cmd_done_some (s := { s.advance t with out := o }) hc).trans (congrArg (fun e => some (ended c e)) he.symm), ho.symm, sameBut_updCmd (s.advance t) ten lring seq _, rfl⟩

/-- Work that ends with e once b is written. -/
theorem endsWriting_doneWriting (h : HostView) (iova : Nat) (b : List Byte) (e : Err) :
    EndsWriting s (settled t s ((s.advance t).doneWriting h ten lring seq iova b e)) h t ten lring seq c iova b e := by
  refine (hostWrite_out h ten iova b).elim fun l hwrite => hwrite.elim fun ok hwrite => ?_
  have hok : (s.hostWrite h ten iova b).2 = ok := congrArg Prod.snd (hwrite s)
  have hout : (s.hostWrite h ten iova b).1.out = l ++ s.out := congrArg (fun q => q.1.out) (hwrite s)
  unfold State.doneWriting
  rw [hwrite]
  refine iteInduction (motive := fun z => EndsWriting s (settled t s z) h t ten lring seq c iova b e) (fun hyes => ?_) fun hno => ?_
  · exact endsWriting_done hc (if_pos (hok.trans hyes)) ((if_pos (hok.trans hyes)).trans hout)
  · exact endsWriting_done hc (if_neg (hok ▸ hno)) ((if_neg (hok ▸ hno)).trans (congrArg (List.cons _) hout))

end

/-- The work of a command that runs, done at t where its guard holds. -/
theorem run_onStarted {s : State} {t ten lring seq op : Nat} {c : Cmd} {g : State → Cmd → Bool} {f : State → Cmd → State} (hoff : s.power.off = false)
    (hrun : Running s ten lring seq op c) (hg : g (s.advance t) c = true) :
    run t s (fun s => s.onStarted ten lring seq op fun s c => s.onlyIf (g s c) fun s => f s c) = .next (settled t s (f (s.advance t) c)) :=
  run_eq hoff ((onStarted_running (s := s.advance t) hrun).trans (if_pos hg))

/-- A take of the record r, before n others: its bytes and signatures, where it is signed and fits. -/
noncomputable def takeRecord (z : State) (h : HostView) (ten lring seq : Nat) (c : Cmd) (r : MeterRecord) (n : Nat) : Option (List Byte) → State
  | none => z
  | some sigs => if c.len 0 < r.size then z.done ten lring seq (St.badField, 0x40) else z.doneWriting h ten lring seq (c.iova 0) (r.body ++ sigs) (St.ok, n)

/-- A take of the oldest record, if one is held. -/
noncomputable def takeOldest (z : State) (h : HostView) (ten lring seq : Nat) (c : Cmd) : List MeterRecord → State
  | [] => z.done ten lring seq (St.ok, 0xFFFF)
  | r :: rest => takeRecord z h ten lring seq c r rest.length r.sigs

theorem exec_meterTake_next {s : State} {t ten lring seq : Nat} {h : HostView} {c : Cmd} (hoff : s.power.off = false) (hrun : Running s ten lring seq 0x40 c)
    (hop : c.meterOp = 1) (hpending : s.takePending = false) :
    exec (.meterTake t ten lring seq h) s = .next (settled t s (takeOldest (s.advance t) h ten lring seq c s.meters.held)) := by
  have hguard : (c.meterOp == 1 && !(s.advance t).takePending) = true := Bool.and_eq_true_iff.2 ⟨beq_iff_eq.2 hop, congrArg not hpending⟩
  exact (run_onStarted hoff hrun hguard : execMeterTake t ten lring seq h s = _)

/-- Settles O29: a snapshot is one write; a take ends by what stands at the head of the store. -/
theorem meterReads : Obligations.MeterReads := by
  intro t ten lring seq h c s hoff hrun
  refine ⟨fun hop => ⟨_, (run_onStarted hoff hrun (beq_iff_eq.2 hop) : execMeterSnapshot t ten lring seq h s = _), endsWriting_doneWriting hrun.1 ..⟩, fun hop hpending =>
    ⟨_, exec_meterTake_next hoff hrun hop hpending, fun hnone => ?_, fun r rest hheld => ⟨fun hsigs => ?_, fun sigs hsigs hshort => ?_, fun sigs hsigs hfits => ?_⟩⟩⟩
  · rw [hnone]
    exact endsSaying_done hrun.1 _
  all_goals have htake := (congrArg (takeOldest (s.advance t) h ten lring seq c) hheld).trans (congrArg (takeRecord (s.advance t) h ten lring seq c r rest.length) hsigs)
  · exact (congrArg (settled t s) htake :)
  · exact htake.trans (if_pos hshort) ▸ endsSaying_done hrun.1 _
  · exact htake.trans (if_neg (Nat.not_lt.2 hfits)) ▸ endsWriting_doneWriting hrun.1 ..

end Sys2Proof.Machine
end

section
/-! Settles O30 (R355, R356, R359 to R361): when an epoch closes, what its close leaves, and how a record is signed. -/

namespace Sys2Proof.Machine

open Sys2Proof.Safety

/-- The record's first 128 bytes and a tenant's 64 have that length by computation (R360). -/
theorem length_recordBody (s : State) : s.recordBody.length = 128 + 64 * s.metered.length := by
  have hentries (l : Tbl Tenant) : (l.flatMap fun p => p.2.meterEntry p.1).length = 64 * l.length := by
    induction l with
    | nil => rfl
    | cons p l ih => exact List.length_append.trans (ih ▸ Nat.add_comm 64 _)
  exact List.length_append.trans (congrArg (128 + ·) (hentries s.metered))

theorem epochDue_iff (s : State) :
    s.epochDue = true ↔ if s.aligned then s.meters.lastBoundary < s.boundary else s.meters.openWaggle + s.meters.spanNs ≤ s.now := by
  unfold State.epochDue
  split <;> exact decide_eq_true_iff

/-- The records before the oldest unsigned one stay, as do those after it. -/
theorem signFirst_append (sig : List Byte → List Byte) {l : List MeterRecord} {r : MeterRecord} (rest : List MeterRecord)
    (hl : ∀ x ∈ l, x.sigs.isSome = true) (hr : r.sigs = none) :
    signFirst sig (l ++ r :: rest) = l ++ { r with sigs := some (sig r.body) } :: rest := by
  induction l with
  | nil => exact if_pos (congrArg Option.isNone hr)
  | cons x l ih =>
    have hx : x.sigs.isNone ≠ true := fun hnone => Bool.false_ne_true ((congrArg Option.isSome (Option.isNone_iff_eq_none.1 hnone)).symm.trans (hl x (.head l)))
    exact (if_neg hx).trans (congrArg (x :: ·) (ih fun y hy => hl y (.tail x hy)))

/-- s' is s with its epoch closed: its record held, the meters at zero, and the next epoch open. -/
def EpochClosed (s s' : State) : Prop :=
  s' = { s with tenants := s'.tenants, meters := s'.meters } ∧
  s'.meters.held = s.meters.held ++ [{ body := s.recordBody, sigs := none }] ∧ s.recordBody.length = 128 + 64 * s.metered.length ∧
  s'.tenants = s.tenants.map (fun p => (p.1, { p.2 with meters := [0, 0, 0, 0, 0, 0], stuck := [] })) ∧
  s'.meters.epoch = s.meters.epoch + 1 ∧ s'.meters.openWaggle = s.now ∧ s'.meters.lenS = s.settings.lenS ∧ s'.meters.align_ = s.settings.align_ ∧
  s'.meters.lastBoundary = (if s.aligned then s.boundary else s.meters.lastBoundary) ∧
  s'.meters.back = false ∧ s'.meters.fwd = false ∧ s'.meters.cold = false ∧ s'.meters.heldOver = false

/-- A due close waits where the store is full, and is noted; else it closes the epoch. -/
theorem closeEpoch_of_due {s : State} (hdue : s.epochDue = true) :
    (1024 ≤ s.meters.held.length → s.closeEpoch = { s with meters := { s.meters with heldOver := true, evFull := true } }) ∧
      (s.meters.held.length < 1024 → EpochClosed s s.closeEpoch) := by
  have hcloses : s.closeEpoch = _ := if_neg fun hearly => Bool.false_ne_true ((congrArg not hdue).symm.trans hearly)
  refine ⟨fun hfull => hcloses.trans (if_pos hfull), fun hroom => ?_⟩
  rw [hcloses.trans (if_neg (Nat.not_le.2 hroom))]
  exact ⟨rfl, rfl, length_recordBody s, rfl, rfl, rfl, rfl, rfl, rfl, rfl, rfl, rfl, rfl⟩

/-- Settles O30: the close is `closeEpoch`, by whether the epoch is due and the store has room; signing takes the first record without signatures. -/
theorem epochsClose : Obligations.EpochsClose := by
  intro t s hoff z
  refine ⟨epochDue_iff z, ⟨_, run_eq hoff rfl, fun hearly => ?_, fun hdue hfull => ?_, fun hdue hroom => ?_⟩,
    fun l r rest hheld hl hr hid hserve => ?_⟩
  · have hstays : z.closeEpoch = z := if_pos (congrArg not hearly)
    exact (congrArg (settled t s) hstays :)
  · exact (congrArg (settled t s) ((closeEpoch_of_due (s := z) hdue).1 hfull) :)
  · have hclosed := (closeEpoch_of_due (s := z) hdue).2 hroom
    exact ⟨(congrArg (settled t s) hclosed.1 :), hclosed.2⟩
  · have hunsigned : s.meters.held.any (·.sigs.isNone) = true :=
      List.any_eq_true.2 ⟨r, hheld ▸ List.mem_append_right l (.head rest), congrArg Option.isNone hr⟩
    exact ⟨_, leNat (z.takeBytes 64).1, leNat ((z.takeBytes 64).2.takeBytes 32).1,
      run_eq hoff (if_pos (Bool.and_eq_true_iff.2 ⟨Bool.and_eq_true_iff.2 ⟨hid, hserve⟩, hunsigned⟩)),
      congrArg (fun held => { s.meters with held := held }) ((congrArg (signFirst _) hheld).trans (signFirst_append _ rest hl hr)), rfl⟩

end Sys2Proof.Machine
end

section
/-! Settles O31 (R352, R354): what METER_MS_TICK adds to the meters of every tenant. -/

namespace Sys2Proof.Machine

open Sys2Proof.Safety

/-! ### One charge of one meter (R354) -/

/-- A tenant whose meter m has gained n, or sticks. -/
noncomputable def Tenant.charged (x : Tenant) (m n : Nat) : Tenant :=
  { x with
    meters := x.meters.set m (capAt (2 ^ 64 - 1) (nth0 x.meters m + n))
    stuck := if nth0 x.meters m + n > 2 ^ 64 - 1 ∧ !x.stuck.contains m then m :: x.stuck else x.stuck }

theorem mem_stuck_charged (x : Tenant) (m n k : Nat) :
    k ∈ (x.charged m n).stuck ↔ k ∈ x.stuck ∨ (k = m ∧ 2 ^ 64 - 1 < nth0 x.meters m + n) := by
  refine iteInduction (motive := fun l => k ∈ l ↔ _) (fun h => ?_) fun h => ?_
  · exact List.mem_cons.trans (or_comm.trans (or_congr_right (and_iff_left h.1).symm))
  · refine ⟨.inl, fun hk => hk.elim id fun hm => by_contra fun hnot => h ⟨hm.2, ?_⟩⟩
    exact congrArg not (Bool.eq_false_iff.2 fun hc => hnot (hm.1 ▸ List.contains_iff_mem.1 hc))

theorem tenants_charge (s : State) (ten m n : Nat) :
    (s.charge ten m n).tenants = Tbl.upd s.tenants ten Tenant.fresh (Tenant.charged · m n) :=
  iteInduction (motive := fun y => State.tenants y = _) (fun _ => rfl) fun _ => rfl

theorem ten_charge_self (s : State) (ten m n : Nat) : (s.charge ten m n).ten ten = (s.ten ten).charged m n :=
  (congrArg (Tbl.lookD · ten Tenant.fresh) (tenants_charge s ten m n)).trans (Tbl.lookD_upd_self ..)

theorem ten_charge_other (s : State) {ten k : Nat} (m n : Nat) (h : k ≠ ten) : (s.charge ten m n).ten k = s.ten k :=
  (congrArg (Tbl.lookD · k Tenant.fresh) (tenants_charge s ten m n)).trans (Tbl.lookD_upd_other _ _ _ h)

theorem evStuck_charge (s : State) {ten m n : Nat} (h : 2 ^ 64 - 1 < nth0 (s.ten ten).meters m + n) : (s.charge ten m n).meters.evStuck = true :=
  iteInduction (motive := fun y => (State.meters y).evStuck = true) (fun _ => rfl) fun hnot => absurd h hnot

/-- Beside tenants only the event of a full meter may differ, and it is not taken back. -/
def Charges (s y : State) : Prop :=
  y = { s with tenants := y.tenants, meters := { s.meters with evStuck := y.meters.evStuck } } ∧ (s.meters.evStuck = true → y.meters.evStuck = true)

theorem Charges.refl (s : State) : Charges s s := ⟨rfl, id⟩

theorem Charges.evStuck {s y : State} (h : Charges s y) : s.meters.evStuck = true → y.meters.evStuck = true := h.2

theorem charges_charge (s : State) (ten m n : Nat) : Charges s (s.charge ten m n) :=
  iteInduction (motive := Charges s) (fun _ => ⟨rfl, fun _ => rfl⟩) fun _ => ⟨rfl, id⟩

theorem Charges.trans {s y z : State} (h : Charges s y) (h' : Charges y z) : Charges s z :=
  ⟨h'.1.trans (congrArg (fun x => { x with tenants := z.tenants, meters := { x.meters with evStuck := z.meters.evStuck } }) h.1), h'.2 ∘ h.2⟩

/-! ### One tenant's tick -/

/-- The mebibytes a tenant uses, rounded up. -/
noncomputable abbrev State.mebibytes (s : State) (ten : Nat) : Nat := ceilDiv (s.dram.usedBytes ten) (2 ^ 20)

theorem Charges.mebibytes {s y : State} (h : Charges s y) (ten : Nat) : y.mebibytes ten = s.mebibytes ten := (congrArg (State.mebibytes · ten) h.1 :)

/-- What METER_MS_TICK does for one tenant. -/
noncomputable def State.tickTenant (s : State) (n ten : Nat) : State := (s.charge ten 2 (n * s.mebibytes ten)).charge ten 3 (n * (s.ten ten).activeCount)

/-- A tenant that uses mib mebibytes, after n milliseconds. -/
noncomputable def Tenant.ticked (n mib : Nat) (x : Tenant) : Tenant := (x.charged 2 (n * mib)).charged 3 (n * x.activeCount)

/-- One of its two meters runs full in them. -/
def Tenant.TickOverflows (n mib : Nat) (x : Tenant) : Prop :=
  2 ^ 64 - 1 < nth0 x.meters 2 + n * mib ∨ 2 ^ 64 - 1 < nth0 x.meters 3 + n * x.activeCount

theorem meter3_charged (x : Tenant) (n : Nat) : nth0 (x.charged 2 n).meters 3 = nth0 x.meters 3 :=
  congrArg (Option.getD · 0) (List.getElem?_set_ne (by decide))

theorem ticked_meters (n mib : Nat) (x : Tenant) : (x.ticked n mib).meters =
    (x.meters.set 2 (min (2 ^ 64 - 1) (nth0 x.meters 2 + n * mib))).set 3 (min (2 ^ 64 - 1) (nth0 x.meters 3 + n * x.activeCount)) := by
  rw [← capAt_eq_min, ← capAt_eq_min, ← meter3_charged x (n * mib)]
  rfl

theorem mem_stuck_ticked (n mib : Nat) (x : Tenant) (k : Nat) : k ∈ (x.ticked n mib).stuck ↔
    k ∈ x.stuck ∨ (k = 2 ∧ 2 ^ 64 - 1 < nth0 x.meters 2 + n * mib) ∨ (k = 3 ∧ 2 ^ 64 - 1 < nth0 x.meters 3 + n * x.activeCount) := by
  unfold Tenant.ticked
  rw [mem_stuck_charged, mem_stuck_charged, meter3_charged, or_assoc]

theorem charges_tickTenant (s : State) (n ten : Nat) : Charges s (s.tickTenant n ten) := (charges_charge ..).trans (charges_charge ..)

theorem ten_tickTenant_self (s : State) (n ten : Nat) : (s.tickTenant n ten).ten ten = (s.ten ten).ticked n (s.mebibytes ten) :=
  (ten_charge_self ..).trans (congrArg (Tenant.charged · 3 _) (ten_charge_self ..))

theorem ten_tickTenant_other (s : State) (n : Nat) {ten k : Nat} (h : k ≠ ten) : (s.tickTenant n ten).ten k = s.ten k :=
  (ten_charge_other _ _ _ h).trans (ten_charge_other _ _ _ h)

theorem evStuck_tickTenant (s : State) (n : Nat) {ten : Nat} (h : (s.ten ten).TickOverflows n (s.mebibytes ten)) : (s.tickTenant n ten).meters.evStuck = true := by
  rcases h with h | h
  · exact (charges_charge ..).evStuck (evStuck_charge s h)
  · refine evStuck_charge _ ?_
    rwa [ten_charge_self, meter3_charged]

/-! ### The tick of every tenant -/

/-- Tenant x, which uses mib mebibytes, has its gains in y where the table lists it. -/
def TickOf (n mib : Nat) (x : Tenant) (y : State) (ten : Nat) : Option Tenant → Prop
  | none => y.ten ten = x
  | some _ => y.ten ten = x.ticked n mib ∧ (x.TickOverflows n mib → y.meters.evStuck = true)

theorem TickOf.of_eq {n mib ten : Nat} {x x' : Tenant} {y : State} {o o' : Option Tenant} (h : TickOf n mib x y ten o) (hx : x = x') (ho : o = o') :
    TickOf n mib x' y ten o' := hx ▸ ho ▸ h

/-- In y the tenants listed in l have their gains, and the others are as in s. -/
def TicksAll (n : Nat) (l : Tbl Tenant) (s y : State) : Prop :=
  Charges s y ∧ ∀ ten, TickOf n (s.mebibytes ten) (s.ten ten) y ten (Tbl.look l ten)

theorem TicksAll.cons {n : Nat} {e : Nat × Tenant} {l : Tbl Tenant} {s y : State} (hwf : Tbl.wf (e :: l) = true) (h : TicksAll n l (s.tickTenant n e.1) y) :
    TicksAll n (e :: l) s y := by
  have hfirst := charges_tickTenant s n e.1
  refine ⟨hfirst.trans h.1, fun ten => iteInduction (motive := TickOf n (s.mebibytes ten) (s.ten ten) y ten) (fun he => ?_) fun he => ?_⟩
  · have hsame : y.ten ten = _ := (h.2 ten).of_eq rfl (Tbl.look_below (Nat.le_of_eq he.symm) hwf)
    exact ⟨hsame.trans (he ▸ ten_tickTenant_self s n e.1), fun hfull => h.1.evStuck (evStuck_tickTenant s n (he ▸ hfull))⟩
  · have hten := h.2 ten
    rwa [ten_tickTenant_other s n (Ne.symm he), hfirst.mebibytes] at hten

theorem ticksAll_foldl (n : Nat) {l : Tbl Tenant} (hwf : Tbl.wf l = true) (s : State) : TicksAll n l s ((l.map (·.1)).foldl (State.tickTenant · n) s) := by
  induction l generalizing s with
  | nil => exact ⟨Charges.refl s, fun _ => rfl⟩
  | cons e l ih => exact (ih (Tbl.wf_tail hwf) _).cons hwf

/-- What METER_MS_TICK leaves: every tenant ticked for the milliseconds passed, and the last of them noted. -/
def MsTicked (s s' : State) (t : Nat) : Prop :=
  s' = { s with now := max s.now t, tenants := s'.tenants, meters := s'.meters } ∧
  s'.meters = { s.meters with lastMs := max s.now t / msec, evStuck := s'.meters.evStuck } ∧
  ∀ ten, TickOf (max s.now t / msec - s.meters.lastMs) (s.mebibytes ten) (s.ten ten) s' ten (Tbl.look s.tenants ten)

theorem MsTicked.tickOf {s s' : State} {t : Nat} (h : MsTicked s s' t) (ten : Nat) :
    TickOf (max s.now t / msec - s.meters.lastMs) (s.mebibytes ten) (s.ten ten) s' ten (Tbl.look s.tenants ten) := h.2.2 ten

theorem msTicked_settled {t : Nat} {s y : State} (h : TicksAll (max s.now t / msec - s.meters.lastMs) s.tenants (s.advance t) y) :
    MsTicked s (settled t s { y with meters := { y.meters with lastMs := y.now / msec } }) t :=
  ⟨(congrArg (fun x : State => settled t s { x with tenants := y.tenants, meters := { y.meters with lastMs := y.now / msec } }) h.1.1 :),
    (congrArg (fun y : State => { y.meters with lastMs := y.now / msec }) h.1.1 :), h.2⟩

theorem exec_meterMsTick_next (t : Nat) {s : State} (hoff : s.power.off = false) (hwf : Tbl.wf s.tenants = true) :
    ∃ s', exec (.meterMsTick t) s = .next s' ∧ MsTicked s s' t :=
  ⟨_, (run_next hoff : execMeterMsTick t s = _), msTicked_settled (ticksAll_foldl _ hwf (s.advance t))⟩

/-- Settles O31: each tenant of the table is ticked once, and `ticked_meters` and `mem_stuck_ticked` say what a tick does. -/
theorem millisecondMeters : Obligations.MillisecondMeters := by
  intro t s hoff hwf _ n
  refine (exec_meterMsTick_next t hoff hwf).imp fun s' h => ⟨h.1, h.2.1, h.2.2.1, fun ten hnone => (h.2.tickOf ten).of_eq rfl hnone, fun ten x hx => ?_⟩
  have hgains := (h.2.tickOf ten).of_eq (congrArg (Option.getD · Tenant.fresh) hx) hx
  have hticked : s'.ten ten = x.ticked n (s.mebibytes ten) := hgains.1
  exact ⟨hticked.trans (congrArg (fun y : Tenant => { x with meters := y.meters, stuck := y.stuck }) hticked.symm :),
    (congrArg Tenant.meters hticked).trans (ticked_meters ..), fun k => (congrArg (k ∈ Tenant.stuck ·) hticked).to_iff.trans (mem_stuck_ticked ..), hgains.2⟩

end Sys2Proof.Machine
end

section
/-! Refutes O53 (R390): with both slots on TRIAL the boot ROM takes the newer one, and counts no attempt of slot A. -/

namespace Sys2Proof.Machine

open Sys2Proof.Safety

/-- The statement's boot selection counts an attempt of slot A wherever slot A is on TRIAL with one left, whatever slot B is. -/
theorem attempts_of_selects {f g : Firmware} {k : Option Nat} (h : Selects f g k) (htrial : (f.slot 0).bootState = 2) (hleft : (f.slot 0).attempts ≠ 0) :
    (g.slot 0).attempts = (f.slot 0).attempts - 1 := by
  refine h.elim (fun hnone => absurd htrial (hnone.1 0 Nat.two_pos)) fun hany => hany.elim fun j hcase => ?_
  have hzero : j = 0 := (Nat.le_one_iff_eq_zero_or_eq_one.1 (Nat.le_of_lt_succ hcase.1)).resolve_right fun hone => hcase.2.2.1 hone htrial
  refine (hzero ▸ hcase.2.2.2).elim (fun hcounted => congrArg (fun f => (Firmware.slot f 0).attempts) hcounted.2.1) fun hspent => absurd hspent.1 hleft

theorem elim_exists₄ {α β γ δ : Type} {p : α → β → γ → δ → Prop} {q : Prop} (h : ∃ a b c d, p a b c d) (hq : ∀ a b c d, p a b c d → q) : q :=
  h.elim fun a h => h.elim fun b h => h.elim fun c h => h.elim fun d h => hq a b c d h

/-- Refutes O53: with both slots on TRIAL, one attempt left and slot B the newer, a power-on counts the attempt of slot B, where the statement has slot A's counted. -/
theorem not_resetsAndStarts : ¬ Obligations.ResetsAndStarts := by
  intro h
  refine elim_exists₄ (h.2.2.2.2.1 0 (State.reset.setFw fun f => { f with
    slotA := { f.slotA with bootState := 2, attempts := 1, seqNo := 1 }, slotB := { f.slotB with bootState := 2, attempts := 1, seqNo := 2 } })) ?_
  intro s' g k r hstart
  have hcounted : (g.slot 0).attempts = 0 := attempts_of_selects hstart.2.2.1 rfl Nat.one_ne_zero
  have hsame : (s'.fw.slot 0).attempts = (g.slot 0).attempts := (hstart.2.2.2.2.1 0 Nat.two_pos).2.2
  have hkept : 1 = (s'.fw.slot 0).attempts := (congrArg (fun s : State => (s.fw.slot 0).attempts) (Host.Outcome.next.inj hstart.1) :)
  exact Nat.one_ne_zero (hkept.trans (hsame.trans hcounted))

end Sys2Proof.Machine
end

section
/-! Refutes O54 (R371, R373): a function-level reset of the physical function through PCIe is a warm reset, not the reset of a tenant. -/

namespace Sys2Proof.Machine

open Sys2Proof.Safety

/-- FUNCTION_LEVEL_RESET leaves the physical function's reset through PCIe to WARM_RESET. -/
theorem exec_functionLevelReset_physical (t : Nat) (drain : Bool) {s : State} (hoff : s.power.off = false) :
    exec (.functionLevelReset t 0 true drain) s = .next (settled t s (s.advance t)) :=
  (run_next hoff : execFunctionLevelReset t 0 true drain s = _)

/-- Refutes O54: the statement asks that tenant 0 be reset through PCIe, in the state at reset, and no reset begins. -/
theorem not_tenantResetsAndPower : ¬ Obligations.TenantResetsAndPower := by
  intro h
  obtain ⟨s', hexec, hreset⟩ := ((h.1 0 0 false State.reset rfl (by decide)).1 fun g hg => absurd hg List.not_mem_nil).1
  have heq := Host.Outcome.next.inj ((exec_functionLevelReset_physical 0 false (s := State.reset) rfl).symm.trans hexec)
  have hone : s'.power.flrs.length = 1 := congrArg (fun s : State => s.power.flrs.length) hreset.1
  have hnone : 0 = s'.power.flrs.length := congrArg (fun s : State => s.power.flrs.length) heq
  exact Nat.zero_ne_one (hnone.trans hone)

end Sys2Proof.Machine
end

section
/-! Refutes O55 (R393, R394): an update whose checks fail gives DRAINING back as it was before START, not as clear. -/

namespace Sys2Proof.Machine

open Sys2Proof.Safety

/-- IMAGE_CHECK_DONE with a page of the image that could not be read. -/
theorem exec_imageCheckDone_readFault (t : Nat) {s : State} (hoff : s.power.off = false) (hstate : s.fw.state = .checking) (hfault : s.fw.readFault = true) :
    exec (.imageCheckDone t) s = .next (settled t s ((s.advance t).refuseStart Fw.readFault)) := by
  have hchecking : (s.fw.state == .checking) = true := by rw [hstate]; rfl
  exact (run_next hoff : execImageCheckDone t s = _).trans (congrArg (fun z => Host.Outcome.next (settled t s z)) ((if_pos hchecking).trans (if_pos hfault)))

/-- Refutes O55: with a drain in force before START, a failed check leaves DRAINING set, where the statement has it cleared. -/
theorem not_firmwareUpdates : ¬ Obligations.FirmwareUpdates := by
  intro h
  have hclear := (h.2.1 0 (State.reset.setFw fun f => { f with state := .checking, readFault := true, drainBefore := true }) rfl rfl).1 rfl
  have heq := Host.Outcome.next.inj ((Eq.symm hclear).trans (exec_imageCheckDone_readFault 0 rfl rfl rfl))
  have hdrain : false = true := congrArg (fun s : State => s.fw.draining) heq
  exact Bool.noConfusion hdrain

end Sys2Proof.Machine
end
